-- ==== Sys2Proof/Word.lean ====
section
/-! DEFINITION. The plain words of the model: bytes, sparse maps and groups of eight.
A sparse map is a list of key and value pairs; its canonical form and its operations stand in Machine/Ops.lean. -/

namespace Sys2Proof

/-- One byte. -/
abbrev Byte := BitVec 8

/-- One 64-bit register (R12). -/
abbrev Word := BitVec 64

/-- A sparse map from natural keys. A key that is not listed holds a default that each use names. -/
abbrev SMap (α : Type) := List (Nat × α)

/-- Eight like things, one for each of the buckets 0 to 7 (R108). -/
structure Oct (α : Type) where
  v0 : α
  v1 : α
  v2 : α
  v3 : α
  v4 : α
  v5 : α
  v6 : α
  v7 : α
deriving DecidableEq, Repr

end Sys2Proof
end

