-- ==== Sys2Proof/Syntax.lean ====
section
/-! DEFINITION. The commands of the module: one constructor for each row of spec/opcode_table.json, in the table's order,
with what the outside gives the command as its operands. A host command carries its submission queue and the 64-byte
descriptor (R390); an ember, hearth or vector instruction the hearth whose sequencer issues it and the 128-bit
instruction (R137, R141); a step-program operation the program run (32 x branch + stage, R399) and the 16-byte
operation (R397); a received frame its port (0-11 Odnil, 16-19 pair written as 12-15) and the frame (R485); a
mailbox operation the port that wrote GO (R541). Operands the physical world gives (a reading, a peer's answer) are
records of their own. -/

namespace Sys2Proof

/-- The role of a session (R536). -/
inductive Role where
  | operator | installer | maker
deriving DecidableEq, Repr

/-- The two ways to the mailbox: BAR0, and the SMBus or I3C interfaces of the management controller (R541). -/
inductive MbPort where
  | bar0 | management
deriving DecidableEq, Repr

/-- A write that arrives on a doorbell page of BAR2: its offset within the page, its size in bytes and its value
(R520, R521). -/
structure DoorbellWrite where
  offset : BitVec 12
  size   : BitVec 8
  value  : BitVec 64
deriving DecidableEq, Repr

/-- The base address register through which a register access comes (R517, R520). -/
inductive Bar where
  | bar0 | bar2
deriving DecidableEq, Repr

/-- The place and the size in bytes of a register access (R13, R518). -/
structure RegAccess where
  bar    : Bar
  offset : BitVec 26
  size   : BitVec 8
deriving DecidableEq, Repr

/-- A host access through BAR4 (R526): the bytes read, or the bytes written. -/
inductive BusAccess where
  | read (len : Nat)
  | write (bytes : List Byte)
deriving DecidableEq, Repr

/-- An Odnil frame as it stands on the wire (R485): the 48-byte header, the payload and the 16-byte trailer, each read
as one little-endian number where it has a fixed size. -/
structure Frame where
  header  : BitVec 384
  payload : List Byte
  trailer : BitVec 128
deriving DecidableEq, Repr

/-- The result of the global reduction as it arrives (R429, R430): the step number the contributions carried, the
global square sum as a bucket-set record (R112), the global vote (R423), and the combined stat records (R246) and
route records (R277). -/
structure GlobalRed where
  step   : BitVec 64
  sum    : BitVec 768
  vote   : BitVec 32
  stats  : List (BitVec 1024)
  routes : List (BitVec 512)
deriving DecidableEq, Repr

/-- A (token, k-slot) pair in an exchange between modules (R272, R274): the rank of its source or, for a row that comes
back, of the module that returns it; kiln, entry and slot of its source; the expert that its entry names; its row. -/
structure RemotePair where
  rank   : BitVec 16
  kiln   : Fin 32
  entry  : BitVec 13
  slot   : Fin 8
  expert : BitVec 12
  row    : List Byte
deriving DecidableEq, Repr

/-- What training finds at one port (R483, R494, R503): whether the lanes train, and what the peer's HELLO carries. -/
structure PeerHello where
  port     : Fin 16
  trained  : Bool
  moduleId : BitVec 64
  peerPort : BitVec 8
  fabric   : BitVec 64
  digest   : BitVec 64
  pairId   : BitVec 16
  role     : Bool
  feed     : BitVec 4
  rcvLen   : BitVec 64
deriving DecidableEq, Repr

/-- Why a port is lost (R489). -/
inductive LossCause where
  | retry | alignment | silence
deriving DecidableEq, Repr

/-- Where a fault above the kilns lies (R51). -/
inductive FaultSite where
  | dieCollier (die : Fin 8)
  | dieMesh (die : Fin 8)
  | diePort (die : Fin 8)
  | portDie (port : Fin 2)
  | moduleCollier
  | timebase
deriving DecidableEq, Repr

/-- What the governor senses and predicts at one evaluation (R563): supply in mV, mean input power in W, the
temperatures of R584 and the two highest voltages (mV) at which power stays within the cap and every junction below
its throttle limit. -/
structure PowerReading where
  vin     : BitVec 16
  pavg    : BitVec 16
  tj      : BitVec 8
  thbm    : BitVec 8
  tin     : BitVec 8
  tout    : BitVec 8
  capVolt : BitVec 16
  hotVolt : BitVec 16
deriving DecidableEq, Repr

/-- The sensors with a trip limit (R566). -/
inductive Sensor where
  | junction | stack | coolant
deriving DecidableEq, Repr

/-- The supply faults that take the module to P3 (R561). -/
inductive SupplyFault where
  | mainRange | portDieRail | hbmOrIoRail
deriving DecidableEq, Repr

/-- What starts a module reset (R577). -/
inductive ModResetCause where
  | pin | register (value : BitVec 64) | tinder
deriving DecidableEq, Repr

/-- What starts a warm reset (R577). -/
inductive WarmResetCause where
  | pin | register (value : BitVec 64)
deriving DecidableEq, Repr

/-- What starts a PCIe reset (R515, R577). -/
inductive PcieResetCause where
  | perst | functionLevel | linkDown
deriving DecidableEq, Repr

/-- The MSI-X mask that is cleared (R531). -/
inductive MsixUnmask where
  | vector (n : Fin 2048)
  | function
deriving DecidableEq, Repr

/-- A stack or a peat channel, as a source of corrected errors (R343). -/
inductive CeSource where
  | stack (n : Fin 32)
  | channel (n : Fin 24)
deriving DecidableEq, Repr

/-- How the host answers a request of the module into the host window (R529); with success come the bytes that it holds
from the start of the range asked for. -/
inductive LinkReply where
  | success (data : List Byte)
  | unsupportedRequest | completerAbort | poisoned | timeout
deriving DecidableEq, Repr

/-- A configuration-space write with an effect on the module (R515, R516, R523, R530, R531). -/
inductive CfgSpaceWrite where
  | powerState (d3hot : Bool)
  | busMaster (enable : Bool)
  | memorySpace (enable : Bool)
  | barSize (log2 : BitVec 6)
  | msixControl (enable mask : Bool)
deriving DecidableEq, Repr

/-- The two counts of the shared-store ring that the host advances (R454). -/
inductive StoreCount where
  | hhead | htail
deriving DecidableEq, Repr

/-- The commands. -/
inductive Instr where
  /-- LOAD_CONFIG (R375). Host command that checks a bit-stream in full, installs it into the inactive bank, or installs the base configuration. -/
  | loadConfig (sq : Fin 64) (d : BitVec 512)
  /-- CONFIG_SWITCH (R377). Once the replaced kilns have quiesced, the inactive configuration bank becomes active in one stoke, clearing the replaced kilns and swapping the loaded tables live. -/
  | configSwitch
  /-- RUN_STEP (R417). Host command that opens a step transaction and starts the training program instances. -/
  | runStep (sq : Fin 64) (d : BitVec 512)
  /-- COMMIT_STEP (R419). Host command that commits a reduced step, is held until the global result arrives, or is refused by state. -/
  | commitStep (sq : Fin 64) (d : BitVec 512)
  /-- ABORT_STEP (R419). Host command that adds the HOST reason to the vote, or raises a late veto, on the open step. -/
  | abortStep (sq : Fin 64) (d : BitVec 512)
  /-- EVAL_RUN (R447). Host command that runs the evaluation programs of the selected branches without changing persistent state. -/
  | evalRun (sq : Fin 64) (d : BitVec 512)
  /-- BANK (R462). Host command that captures the committed state and streams it as segments to the named levels. -/
  | bank (sq : Fin 64) (d : BitVec 512)
  /-- AUTOMATIC_BANK (R465). The module starts a bank by itself when a step reaches COMMITTED at a multiple of INTERVAL, or counts it as skipped when a bank is already running. -/
  | automaticBank
  /-- REKINDLE (R472). Host command that selects an eligible banked copy in a check pass and restores it in a write pass, or starts a trial of divergent copies. -/
  | rekindle (sq : Fin 64) (d : BitVec 512)
  /-- ADOPT (R478). Host command that restores a failed rank's bank on a spare module and takes over that rank. -/
  | adopt (sq : Fin 64) (d : BitVec 512)
  /-- SCAN_CRC (R468). Host command that computes a CRC over a memory range, split across the check scanners and combined in address order. -/
  | scanCrc (sq : Fin 64) (d : BitVec 512)
  /-- COPY (R395). Host command that copies a range of device memory with the copy engine. -/
  | copy (sq : Fin 64) (d : BitVec 512)
  /-- FILL (R394). Host command that fills a range of device memory with a repeated 8-byte pattern. -/
  | fill (sq : Fin 64) (d : BitVec 512)
  /-- INGEST_BIND (R282). Host command that loads a training or evaluation binding from a bind record. -/
  | ingestBind (sq : Fin 64) (d : BitVec 512)
  /-- TABLE_LOAD (R243). Host command that writes the shadow generation of a run-time table, waiting for work still bound to that generation. -/
  | tableLoad (sq : Fin 64) (d : BitVec 512)
  /-- TABLE_SWAP (R394). Host command that exchanges the live and shadow generations of a table at a module fence. -/
  | tableSwap (sq : Fin 64) (d : BitVec 512)
  /-- FENCE (R394). Host command that completes once every command in its scope that started before it has completed and become visible. -/
  | fence (sq : Fin 64) (d : BitVec 512)
  /-- EVENT_WAIT (R394). Host command that completes when a matching event record exists, or with WAIT_EXPIRED at its timeout. -/
  | eventWait (sq : Fin 64) (d : BitVec 512)
  /-- SQ_TAIL_DOORBELL (R387). A host write of a new submission queue tail makes descriptors available, or faults the queue. -/
  | sqTailDoorbell (sq : Fin 64) (a : DoorbellWrite)
  /-- CQ_HEAD_DOORBELL (R389). A host write of a new completion queue head returns entries and lets waiting completion records be written. -/
  | cqHeadDoorbell (cq : Fin 64) (a : DoorbellWrite)
  /-- SQ_ENABLE_WRITE (R387). A write of COL_SQ_CTL.EN that stops a submission queue, or requests its reset and re-enable. -/
  | sqEnableWrite (sq : Fin 64) (v : BitVec 64)
  /-- SQ_DRAIN_END (R387). When no started command of a re-enabled queue remains, FAULT is cleared, the counts are reset and DRAIN is cleared. -/
  | sqDrainEnd (sq : Fin 64)
  /-- CQ_ENABLE_WRITE (R413). A write of COL_CQ_CTL.EN that enables a completion queue and resets its head, tail and phase, releasing waiting records. -/
  | cqEnableWrite (cq : Fin 64) (v : BitVec 64)
  /-- RING_TAIL_DOORBELL (R290). A host write of a kindling ring TAIL that makes chunks available, or disables the ring when the write is refused. -/
  | ringTailDoorbell (ring : Fin 32) (a : DoorbellWrite)
  /-- CHUNK (R293). The ingest unit takes a chunk whole, checks its header and CRC, and copies its payload to the staging slot or discards it. -/
  | chunk (ring : Fin 32)
  /-- DEMAND_ISSUE (R289). When the ring's queue and a staging slot have room, the rick issues a clip's demand record. -/
  | demandIssue (b : Fin 2)
  /-- DEMAND_TIMEOUT (R294). A demand that is still incomplete TIMEOUT stokes after issue is repeated, or its clip drops after RETRY repeats. -/
  | demandTimeout (b : Fin 2) (demand : BitVec 32)
  /-- STEP_PREPARATION (R315). The rick draws the clip order for steps ahead and prepares their micro-batches. -/
  | stepPreparation (b : Fin 2)
  /-- CLIP_DECODE (R300). An idle splitter demultiplexes and decodes a clip whose bytes are covered, and its frame processor writes the token rows. -/
  | clipDecode (b : Fin 2) (demand : BitVec 32)
  /-- MMA (R142). Ember instruction that accumulates A times B into slots k-step by k-step, optionally running the output stage. -/
  | mma (h : Fin 384) (w : BitVec 128)
  /-- OUT (R144). Ember instruction that runs the output stage on rows as they stand. -/
  | out (h : Fin 384) (w : BitVec 128)
  /-- CLR (R144). Ember instruction that leaves slots EMPTY with zero contents. -/
  | clr (h : Fin 384) (w : BitVec 128)
  /-- BSST (R144). Ember instruction that writes slots as bucket-set records to hearth memory. -/
  | bsst (h : Fin 384) (w : BitVec 128)
  /-- BSADD (R129). Ember instruction that adds bucket-set records into slots. -/
  | bsadd (h : Fin 384) (w : BitVec 128)
  /-- KRED (R128). Hearth instruction that reduces k-split partial slots into the lowest ember in ember-index order. -/
  | kred (h : Fin 384) (w : BitVec 128)
  /-- RSTAT (R169). Hearth instruction that combines row statistics across embers and writes one record per row. -/
  | rstat (h : Fin 384) (w : BitVec 128)
  /-- HBAR (R153). Hearth barrier that completes when nothing issued before it remains in flight, swapping built codebooks live. -/
  | hbar (h : Fin 384) (w : BitVec 128)
  /-- CODEBOOK_BUILD (R242). At the end of a codebook group, the builder forms the shadow codebook from the histogram and clears the histogram. -/
  | codebookBuild (h : Fin 384) (slot : Fin 64)
  /-- VLD (R180). Vector load of elements, with scales, into a lane register. -/
  | vld (h : Fin 384) (w : BitVec 128)
  /-- VST (R192). Vector store of a lane register, finding scales and writing outliers. -/
  | vst (h : Fin 384) (w : BitVec 128)
  /-- VGATH (R185). Vector gather of indexed elements from an array. -/
  | vgath (h : Fin 384) (w : BitVec 128)
  /-- VSCAT (R185). Vector scatter of lanes into indexed elements of an array. -/
  | vscat (h : Fin 384) (w : BitVec 128)
  /-- VSPLAT (R180). Vector broadcast of a GL16 constant into every lane. -/
  | vsplat (h : Fin 384) (w : BitVec 128)
  /-- FADD (R187). binary32 addition. -/
  | fadd (h : Fin 384) (w : BitVec 128)
  /-- FSUB (R187). binary32 subtraction. -/
  | fsub (h : Fin 384) (w : BitVec 128)
  /-- FMUL (R187). binary32 multiplication. -/
  | fmul (h : Fin 384) (w : BitVec 128)
  /-- FFMA (R187). binary32 fused multiply-add. -/
  | ffma (h : Fin 384) (w : BitVec 128)
  /-- FMIN (R180). binary32 minimumNumber. -/
  | fmin (h : Fin 384) (w : BitVec 128)
  /-- FMAX (R180). binary32 maximumNumber. -/
  | fmax (h : Fin 384) (w : BitVec 128)
  /-- FDIV (R187). binary32 correctly rounded division. -/
  | fdiv (h : Fin 384) (w : BitVec 128)
  /-- FSQRT (R187). binary32 correctly rounded square root. -/
  | fsqrt (h : Fin 384) (w : BitVec 128)
  /-- FCMP (R618). binary32 comparison by a selected predicate, writing 1 or 0. -/
  | fcmp (h : Fin 384) (w : BitVec 128)
  /-- SEL (R180). Lane-wise selection between two registers by a third. -/
  | sel (h : Fin 384) (w : BitVec 128)
  /-- GMUL (R188). Grendy multiplication. -/
  | gmul (h : Fin 384) (w : BitVec 128)
  /-- GADD (R189). Grendy addition. -/
  | gadd (h : Fin 384) (w : BitVec 128)
  /-- GSUB (R189). Grendy subtraction. -/
  | gsub (h : Fin 384) (w : BitVec 128)
  /-- IADD (R190). Saturating lane integer addition. -/
  | iadd (h : Fin 384) (w : BitVec 128)
  /-- ISUB (R190). Saturating lane integer subtraction. -/
  | isub (h : Fin 384) (w : BitVec 128)
  /-- IMUL (R190). Saturating lane integer multiplication. -/
  | imul (h : Fin 384) (w : BitVec 128)
  /-- ILOG (R180). Lane integer AND, OR or XOR. -/
  | ilog (h : Fin 384) (w : BitVec 128)
  /-- ISHF (R180). Lane integer shift. -/
  | ishf (h : Fin 384) (w : BitVec 128)
  /-- CVT (R191). Conversion of a lane register between lane formats. -/
  | cvt (h : Fin 384) (w : BitVec 128)
  /-- DRAW (R443). CVT with FUNC 1, which draws dropout keep bits from the dropout stream. -/
  | draw (h : Fin 384) (w : BitVec 128)
  /-- RAND (R443). CVT with FUNC 2, which draws random words from the user stream. -/
  | rand (h : Fin 384) (w : BitVec 128)
  /-- FN (R193). Built-in EXP, LOG, RCP or RSQ evaluated on the table ports. -/
  | fn (h : Fin 384) (w : BitVec 128)
  /-- FNM (R199). Micro-programmed function executed on the fall-back evaluators. -/
  | fnm (h : Fin 384) (w : BitVec 128)
  /-- NORM (R203). Layer or RMS normalisation using a row statistics record. -/
  | norm (h : Fin 384) (w : BitVec 128)
  /-- STCOMB (R205). Combination of row statistics records in address order. -/
  | stcomb (h : Fin 384) (w : BitVec 128)
  /-- SMAX (R213). Softmax in phase FULL, FIRST, NEXT or FINISH. -/
  | smax (h : Fin 384) (w : BitVec 128)
  /-- END (R398). Step-program operation that ends its program instance. -/
  | progEnd (p : Fin 512) (op : BitVec 128)
  /-- RUNH (R398). Step-program operation that runs instruction streams on the named hearth sequencers. -/
  | runh (p : Fin 512) (op : BitVec 128)
  /-- DFENCE (R405). Die fence of the named kilns, which completes when every participant has arrived. -/
  | dfence (p : Fin 512) (op : BitVec 128)
  /-- MFENCE (R405). Module fence of the named branches, applying waiting table swaps and owner changes. -/
  | mfence (p : Fin 512) (op : BitVec 128)
  /-- COPYOP (R338). Step-program copy used for offload and prefetch. -/
  | copyop (p : Fin 512) (op : BitVec 128)
  /-- COLL (R500). Step-program collective that exchanges and reduces data over Odnil in ring order. -/
  | coll (p : Fin 512) (op : BitVec 128)
  /-- COLLECTIVE_TIMEOUT (R502). A collective still incomplete TIMEOUT stokes after issue fails with LINK_TIMEOUT and adds LINK to the vote. -/
  | collectiveTimeout (xid : BitVec 32)
  /-- ROUTE (R271). Step-program operation that chooses experts from score rows into the shadow route table. -/
  | route (p : Fin 512) (op : BitVec 128)
  /-- DISPATCH (R272). Step-program operation that counts, places and sends token rows to expert batches. -/
  | dispatch (p : Fin 512) (op : BitVec 128) (remote : List RemotePair)
  /-- COMBINE (R275). Step-program operation that returns expert outputs and sums them by gate. -/
  | combine (p : Fin 512) (op : BitVec 128) (returned : List RemotePair)
  /-- TSWAP (R398). Step-program table swap that takes effect at the program's next fence. -/
  | tswap (p : Fin 512) (op : BitVec 128)
  /-- OWNER (R327). Step-program change of a region's owner word that takes effect at the next module fence. -/
  | owner (p : Fin 512) (op : BitVec 128)
  /-- WAITMB (R313). Step-program operation that completes when a micro-batch is ready. -/
  | waitmb (p : Fin 512) (op : BitVec 128)
  /-- SCHED (R403). Step-program operation that runs the stage's pipeline schedule table, issuing prefetches ahead. -/
  | sched (p : Fin 512) (op : BitVec 128)
  /-- RET (R398). Step-program operation that ends a schedule body or a called program. -/
  | ret (p : Fin 512) (op : BitVec 128)
  /-- CALL (R398). Step-program operation that runs a service program to its RET. -/
  | call (p : Fin 512) (op : BitVec 128)
  /-- TIMER (R398). Step-program operation that arms a stoke timer. -/
  | timer (p : Fin 512) (op : BitVec 128)
  /-- TIMER_EXPIRY (R398). An armed stoke timer expires. -/
  | timerExpiry (t : Fin 64)
  /-- TWAIT (R398). Step-program operation that completes at the expiry of a timer. -/
  | twait (p : Fin 512) (op : BitVec 128)
  /-- PIN (R606). Step-program operation that drives a feature pin to a level at the next stoke edge. -/
  | pin (p : Fin 512) (op : BitVec 128)
  /-- GNORM (R428). Step-program operation that streams the squares of gradient regions into the kiln square sums. -/
  | gnorm (p : Fin 512) (op : BitVec 128)
  /-- VOTE_CLOSE (R429). Once every local GNORM has issued, the module combines its square sums and sends its contribution, closing the vote. -/
  | voteClose
  /-- GLOBAL_RESULT (R432). The global reduction result arrives and the module forms the norm and decides commit, skip or abort. -/
  | globalResult (g : GlobalRed)
  /-- REDUCTION_TIMEOUT (R431). When the global result has not arrived TIMEOUT stokes after close, LINK is added and the step aborts. -/
  | reductionTimeout
  /-- UPDATE (R435). Step-program operation that, in COMMIT, runs the update micro-program over the shards and writes masters, moments and working copies. -/
  | update (p : Fin 512) (op : BitVec 128)
  /-- STEP_DRAIN (R416). When no operation of an aborting step remains in flight, the state becomes IDLE. -/
  | stepDrain
  /-- DIGEST_PASS (R506). In mirrored mode, the update engines finish a non-writing pass that forms the commit digest, and a DIGEST frame is sent. -/
  | digestPass
  /-- DIGEST_TIMEOUT (R506). When the partner's DIGEST frame has not arrived DTIMEOUT stokes after sending, LINK enters as a late reason. -/
  | digestTimeout
  /-- DATA (R487). Receipt of a DATA frame, which is delivered in order or forwarded toward its rank. -/
  | rxData (port : Fin 16) (f : Frame)
  /-- VOID (R425). Receipt of a void notice, whose vote reasons are added to the local vote. -/
  | rxVoid (port : Fin 16) (f : Frame)
  /-- ACK (R488). Receipt of an acknowledgement, which releases replay buffer entries. -/
  | rxAck (port : Fin 16) (f : Frame)
  /-- NAK (R488). Receipt of a NAK, which makes the port resend from the first unacknowledged frame. -/
  | rxNak (port : Fin 16) (f : Frame)
  /-- HELLO (R495). Receipt of a training exchange frame, which is checked against the rank table or the pair identity. -/
  | rxHello (port : Fin 16) (f : Frame)
  /-- RANKUPD (R497). Receipt of a rank-table update, which marks a rank lost or adopted. -/
  | rxRankupd (port : Fin 16) (f : Frame)
  /-- BANKSEG (R458). Receipt of a bank segment, which is written into a receive area. -/
  | rxBankseg (port : Fin 16) (f : Frame)
  /-- DIGEST (R506). Receipt of the partner's mirrored outcome and digest, which is compared with this module's own. -/
  | rxDigest (port : Fin 16) (f : Frame)
  /-- IDLE (R505). Receipt of an IDLE frame carrying ACKSEQ and the partner's requested pair mode. -/
  | rxIdle (port : Fin 16) (f : Frame)
  /-- READY (R498). Receipt of a member's READY frame, which permits sending that member the collective's data. -/
  | rxReady (port : Fin 16) (f : Frame)
  /-- IDLE_SEND (R486). Every 12 stokes, a port with nothing else to send sends an IDLE frame. -/
  | idleSend (port : Fin 16)
  /-- ACK_TIMEOUT (R488). An unacknowledged frame reaches ACKTO stokes and the port resends from it. -/
  | ackTimeout (port : Fin 16)
  /-- PORT_LOST (R490). Retry exhaustion, FEC misalignment or silence for LOSSTO stokes takes a port DOWN and fails its transfers. -/
  | portLost (port : Fin 16) (c : LossCause)
  /-- FABRIC_TRAIN (R494). A write of ODN_FAB_CTL.TRAIN that checks the rank table, trains the ports, exchanges HELLO frames and installs the table. -/
  | fabricTrain (peers : List PeerHello)
  /-- PORT_RETRAIN (R490). A write of ODN_PORT_CTL.RETRAIN that retrains one Odnil port. -/
  | portRetrain (port : Fin 16) (v : BitVec 64)
  /-- RANK_DOWN (R497). A write of ODN_RANK_CTL.DOWN that sends a RANKUPD marking a rank lost. -/
  | rankDown (v : BitVec 64)
  /-- PAIR_RETRAIN (R503). A write of PAIR_CTL.RETRAIN that retrains the pair ports and exchanges identities. -/
  | pairRetrain (v : BitVec 64) (peers : List PeerHello)
  /-- PAIR_MODE_REQUEST (R505). A write of PAIR_CTL.MODE, discarded outside IDLE or COMMITTED, that requests partnered or mirrored mode. -/
  | pairModeRequest (v : BitVec 64)
  /-- STORE_STALL (R454). A shared-store ring that has made no progress for 1 s fails its level with BNK_STORE. -/
  | storeStall
  /-- KILN_QUARANTINE (R38). A fault attributed to a kiln quarantines it, fails access to its stack and vetoes the open step. -/
  | kilnQuarantine (k : Fin 32)
  /-- DIE_FAULT (R51). A fault in a die collier, die mesh, port die or timebase fences that die or the module and vetoes the open step. -/
  | dieFault (site : FaultSite)
  /-- WATCHDOG (R582). A handshake left unacknowledged for PWR_WDOG stokes quarantines its kiln with cause watchdog. -/
  | watchdog (k : Fin 32)
  /-- KILN_GATING (R278). A kiln idle for THRESH stokes with every slot EMPTY is power-gated. -/
  | kilnGating (k : Fin 32)
  /-- KILN_WAKE (R279). The 25-stoke wake of a gated kiln ends and the held operation issues. -/
  | kilnWake (k : Fin 32)
  /-- GOVERNOR_EVALUATION (R563). Every 125 stokes the governor sets its target voltage from VMAX, the cap in force and the throttle limits, and steps toward it. -/
  | governorEvaluation (g : PowerReading)
  /-- THERMAL_TRIP (R568). A sensor passing its trip limit logs the trip and takes the module to P3. -/
  | thermalTrip (sensor : Sensor) (idx : BitVec 8)
  /-- MAIN_SUPPLY_FAULT (R561). The main supply out of range for 125 stokes, or a port-die, HBM or I/O rail out of regulation, takes the module to P3. -/
  | mainSupplyFault (c : SupplyFault)
  /-- COMPUTE_RAIL_FAULT (R561). A compute-die core rail fault switches that die off and quarantines its kilns. -/
  | computeRailFault (die : Fin 8)
  /-- AUX_SUPPLY_LOSS (R561). The auxiliary supply falling below 11.4 V takes the module to P4. -/
  | auxSupplyLoss
  /-- POWER_ON_RESET (R574). The auxiliary supply coming good runs start-up from step 1. -/
  | powerOnReset
  /-- MODULE_RESET (R578). MOD_RST_N, PWR_RESET.MODULE or tinder after a recovery load resets the module and reruns start-up from step 2. -/
  | moduleReset (c : ModResetCause)
  /-- WARM_RESET (R578). WARM_RST_N or PWR_RESET.WARM abandons work, installs the base configuration and returns to READY. -/
  | warmReset (c : WarmResetCause)
  /-- PCIE_RESET (R515). PERST#, Function Level Reset or DL_Down resets the host interface and retrains the link. -/
  | pcieReset (c : PcieResetCause)
  /-- PERST_RELEASE (R574). Release of PERST# starts PCIe training and equalisation. -/
  | perstRelease
  /-- PCIE_LINK_UP (R574). PCIe training succeeds and HIF_LINK.UP is set. -/
  | pcieLinkUp (speed : Fin 8) (width : BitVec 5)
  /-- STARTUP_STEP_TIMEOUT (R574). A start-up step passes its timeout and takes its failure outcome. -/
  | startupStepTimeout
  /-- KILN_RESET (R581). PWR_KILN_RST resets the named kilns, self-tests them and may clear their quarantine. -/
  | kilnReset (v : BitVec 64)
  /-- POWER_STATE_REQUEST (R570). A write of PWR_CTL.TARGET requests a power state and is refused or carried out. -/
  | powerStateRequest (v : BitVec 64)
  /-- CAP_WRITE (R562). A write of PWR_CAP sets the software cap, or is discarded with PWR_CAP when out of range. -/
  | capWrite (v : BitVec 64)
  /-- OPEN (R538). Mailbox operation that verifies a role signature over the nonce and opens a session. -/
  | secOpen (port : MbPort)
  /-- CLOSE (R542). Mailbox operation that ends a session. -/
  | secClose (port : MbPort)
  /-- CLAIM (R542). Mailbox operation that enrols the first installer key on an unclaimed module. -/
  | claim (port : MbPort)
  /-- KEY_SET (R542). Mailbox operation that replaces an operator or installer key slot. -/
  | keySet (port : MbPort)
  /-- KEY_CLEAR (R542). Mailbox operation that clears a key slot. -/
  | keyClear (port : MbPort)
  /-- POLICY_SET (R544). Mailbox operation that stores a policy record for the next module reset. -/
  | policySet (port : MbPort)
  /-- POLICY_GET (R542). Mailbox operation that returns the stored policy record. -/
  | policyGet (port : MbPort)
  /-- FW_UPDATE (R549). Mailbox operation that verifies a firmware image and writes it into the image slot. -/
  | fwUpdate (port : MbPort)
  /-- DEBUG_SET (R555). Mailbox operation that requests a debug level. -/
  | debugSet (port : MbPort)
  /-- AUDIT_READ (R542). Mailbox operation that returns audit log entries. -/
  | auditRead (port : MbPort)
  /-- UNCLAIM (R542). Mailbox operation that clears every key slot and restores the factory policy. -/
  | unclaim (port : MbPort)
  /-- LOCKOUT_EXPIRY (R539). A 10 s OPEN lockout ends and the role's failure count returns to 0. -/
  | lockoutExpiry (r : Role)
  /-- GUARD_LOCK (R543). Setting SEC_GUARD_LOCK.LOCK freezes the guard registers until module reset. -/
  | guardLock (v : BitVec 64)
  /-- RECOVERY_GO (R534). A write of HIF_RCV_CTL.GO that verifies a recovery image and writes it into the image slot. -/
  | recoveryGo
  /-- GET_CERTS (R551). DOE request that returns the certificate chain. -/
  | getCerts
  /-- GET_REPORT (R551). DOE request that returns a signed attestation report over a nonce. -/
  | getReport (nonce : BitVec 256)
  /-- DOE_DISCOVERY (R532). DOE Discovery request that returns the supported protocols. -/
  | doeDiscovery (index : BitVec 8)
  /-- DOE_ABORT (R532). The DOE Abort bit discards the object in progress and any response to it. -/
  | doeAbort
  /-- BAR4_ACCESS (R526). A host read or write through BAR4, translated by the segment map and checked against the region table. -/
  | bar4Access (off : BitVec 46) (acc : BusAccess)
  /-- MSIX_UNMASK (R531). Clearing a vector or function mask sends one message for a pending bit and clears it. -/
  | msixUnmask (u : MsixUnmask)
  /-- TRACE_WINDOW_ARM (R592). A write of DBG_TW_CTL.EN that requests a trace window and arms it or records a refusal. -/
  | traceWindowArm (n : Fin 16) (v : BitVec 64)
  /-- PMC_FREEZE (R591). DBG_PMC_CTL.FREEZE stops every event counter. -/
  | pmcFreeze (v : BitVec 64)
  /-- PMC_CLEAR (R591). DBG_PMC_CTL.CLEAR sets every event counter to 0. -/
  | pmcClear (v : BitVec 64)
  /-- TELEMETRY_RECORD (R596). Every PERIOD stokes a telemetry record is written into its trace window. -/
  | telemetryRecord
  /-- PACE_WINDOW (R590). At the end of each 1,250-stoke window, each kiln's pace monitor writes its cycle count. -/
  | paceWindow (counts : List (BitVec 32))
  /-- CORRECTED_ERROR_RATE (R343). A stack or channel counting more than MEM_CE_THRESH corrected errors in 1 s raises one telemetry event. -/
  | correctedErrorRate (src : CeSource)
  /-- SCRUB (R346). The scrubber reads every mapped granule once per PERIOD and writes back corrected blocks. -/
  | scrub (addr : BitVec 48)
  /-- DBGACC (R588). JTAG Update-DR of the DBGACC register, which performs one register access. -/
  | dbgacc (dr : BitVec 112)
  /-- EXTEST (R588). JTAG instruction that drives the boundary register onto the pins. -/
  | extest (pins : BitVec 64)
  /-- SAMPLE_PRELOAD (R588). JTAG instruction that selects the boundary register. -/
  | samplePreload (preload : BitVec 64)
  /-- IDCODE (R588). JTAG instruction that selects the identification register. -/
  | idcode
  /-- BYPASS (R588). JTAG instruction that selects the bypass register. -/
  | bypass (ir : BitVec 8)
  /-- MOD_ALERT_N_RELEASE (R605). A read of the newest event record through the management interfaces releases MOD_ALERT_N. -/
  | modAlertNRelease
  /-- REGISTER_WRITE (R14). A write to a register without behaviour of its own, acting on each field by its access type. -/
  | registerWrite (a : RegAccess) (v : BitVec 64)
  /-- WAIT_EXPIRED (R394). An EVENT_WAIT whose TIMEOUT stokes pass without a matching event record completes with WAIT_EXPIRED. -/
  | waitExpired (sq : Fin 64) (cid : BitVec 16)
  /-- HOST_LINK_COMPLETION (R529). A completion arrives from the host for a module request into the host window, or the request reaches its completion timeout, and an error fails the transfer with MEM_HOST. -/
  | hostLinkCompletion (r : LinkReply)
  /-- PCIE_CONFIGURATION_WRITE (R515). A configuration-space write that moves the function between D0 and D3hot, changes Bus Master Enable or resizes BAR4 through the Resizable BAR capability. -/
  | pcieConfigurationWrite (c : CfgSpaceWrite)
  /-- REGISTER_READ (R586). A register read with effects of its own: a bad access is logged in HIF_BADACC, and a read above the debug level in effect returns 0 and counts a violation. -/
  | registerRead (a : RegAccess)
  /-- FEATURE_PIN_INPUT_CHANGE (R607). A feature pin claimed as an input changes level, is sampled at a stoke edge and appears in MC_FP_IN two stokes later. -/
  | featurePinInputChange (pin : Fin 16) (level : Bool)
  /-- CORD_PRESENCE_CHANGE (R509). A cord is inserted into or removed from a cord cage, changing ODN_PORT_STAT.CORD and taking a port into or out of the state no cord. -/
  | cordPresenceChange (cage : Fin 16) (present : Bool)
  /-- BNK_STORE_HOST_COUNT_WRITE (R454). The host advances BNK_STORE_HHEAD or BNK_STORE_HTAIL, freeing ring space for a bank stream or supplying bytes to a rekindle pass. -/
  | bnkStoreHostCountWrite (a : StoreCount) (v : BitVec 64)
deriving DecidableEq, Repr

end Sys2Proof
end

