-- ==== Sys2Proof/Machine/Flags.lean ====
section
/-! DEFINITION. The sticky flag word (R17), the IEEE status bits of HTH_VIEEE (R76, R220) and the rounding modes (R88). -/

namespace Sys2Proof.Machine

/-- A sticky flag word, bits [13:0] of R17. -/
abbrev Fl := BitVec 14

/-- Invalid operation. -/
def fNV : Fl := 0x0001
/-- Overflow. -/
def fOF : Fl := 0x0002
/-- Underflow to zero. -/
def fUF : Fl := 0x0004
/-- Inexact. -/
def fIX : Fl := 0x0008
/-- A conversion saturated to the largest finite code. -/
def fCLIP : Fl := 0x0010
/-- Integer saturation. -/
def fSAT : Fl := 0x0020
/-- A window raise rounded bits out of the running sum. -/
def fWIN : Fl := 0x0040
/-- A negative one-pass variance was clamped. -/
def fVCLAMP : Fl := 0x0080
/-- Mode clash. -/
def fMODE : Fl := 0x0100
/-- Sequence tag mismatch. -/
def fDESYNC : Fl := 0x0200
/-- GL4 sidecar overflow. -/
def fOUTOVF : Fl := 0x0400
/-- Fully masked softmax row. -/
def fEMPTYROW : Fl := 0x0800
/-- A binary32 subnormal was flushed. -/
def fFLUSH : Fl := 0x1000
/-- Promotion deferred. -/
def fDEFERRED : Fl := 0x2000

/-- A flag when a condition holds. -/
def flagIf (c : Bool) (f : Fl) : Fl := if c then f else 0

/-- The IEEE status bits of HTH_VIEEE (R220): IV, DZ, OFL, UFL, INX from bit 0. -/
abbrev Ie := BitVec 5

/-- Invalid operation. -/
def ieIV : Ie := 0x01
/-- Division by zero. -/
def ieDZ : Ie := 0x02
/-- Overflow. -/
def ieOFL : Ie := 0x04
/-- Underflow: tiny after rounding and inexact. -/
def ieUFL : Ie := 0x08
/-- Inexact. -/
def ieINX : Ie := 0x10

/-- A status bit when a condition holds. -/
def ieIf (c : Bool) (f : Ie) : Ie := if c then f else 0

/-- The rounding modes of R88. -/
inductive Rnd where
  | rn | rz | ru | rd | sr
deriving DecidableEq, Repr

/-- The rounding mode of a 3-bit code; a reserved code names none (R88). -/
def Rnd.ofCode : Nat → Option Rnd
  | 0 => some .rn
  | 1 => some .rz
  | 2 => some .ru
  | 3 => some .rd
  | 4 => some .sr
  | _ => none

/-- A converted value: the code, the sticky flags and the IEEE status bits that forming it sets. -/
structure Conv where
  code : Nat
  fl   : Fl := 0
  ie   : Ie := 0
deriving DecidableEq, Repr

end Sys2Proof.Machine
end

