-- ==== Sys2Proof/Machine/Regs.lean ====
section
/-! DEFINITION. The registers of BAR0: where each lies, its fields, their access types (R14) and reset values, written
from the register tables of spec/ (R172, R173, R220, R251, R280, R319-R321, R349, R385, R413, R450, R481, R509, R510,
R535, R558, R584, R598, R616) and the block map of R517. An index argument is the copy: hearth 0-383, hearth then ember,
kiln 0-31, queue, ring, port (Odnil 0-11, pair 16-19), window, splitter, stack, channel or word. -/

namespace Sys2Proof.Machine

/-- A register field: BAR0 offset of its register, that register's whole reset value, least bit and width. -/
structure Fld where
  off : Nat
  rst : Nat
  lo  : Nat
  w   : Nat
deriving DecidableEq, Repr

/-- The access types of R14. `w1cTop n` is the VALID bit of an error or capture register: writing 1 clears it and the
n bits below the register's bit n (n counts from bit 0). -/
inductive Access where
  | ro | rw | w1c | w1s | wo | rws | bl
  | w1cTop (n : Nat)
deriving DecidableEq, Repr

/-- One field of a register table: least bit, width, access type and whether warm reset keeps it (R16). -/
structure FieldSpec where
  lo   : Nat
  w    : Nat
  acc  : Access
  keep : Bool
deriving DecidableEq, Repr

/-- One register of the tables with its copies: `dims` lists the count and the stride of each index, widest first. -/
structure RegSpec where
  base   : Nat
  dims   : List (Nat × Nat)
  rst    : Nat
  fields : List FieldSpec
deriving DecidableEq, Repr

/-- Offset of the block of module-wide hearth h, 0-383 (R517, R172). -/
def hearthBlock (h : Nat) : Nat :=
  0x1010000 + 0x200000 * (h / 48) + 0x40000 * (h / 12 % 4) + 0x2000 * (h % 12)

/-- Offset of the block of module-wide kiln k, 0-31 (R517, R280). -/
def kilnBlock (k : Nat) : Nat := 0x1000000 + 0x200000 * (k / 4) + 0x40000 * (k % 4)

namespace Reg

/-- HTH_OPD_BASE.BASE (R172). -/
def HTH_OPD_BASE_BASE (h : Nat) : Fld := ⟨hearthBlock h + 0x40, 0, 12, 11⟩
/-- HTH_ODESC_BASE.BASE (R172). -/
def HTH_ODESC_BASE_BASE (h : Nat) : Fld := ⟨hearthBlock h + 0x48, 0, 12, 11⟩
/-- HTH_ISSUE.NEXT (R172). -/
def HTH_ISSUE_NEXT (h : Nat) : Fld := ⟨hearthBlock h + 0x50, 0, 0, 48⟩
/-- HTH_ERR.CODE (R172). -/
def HTH_ERR_CODE (h : Nat) : Fld := ⟨hearthBlock h + 0x58, 0, 0, 16⟩
/-- HTH_ERR.TAG (R172). -/
def HTH_ERR_TAG (h : Nat) : Fld := ⟨hearthBlock h + 0x58, 0, 16, 16⟩
/-- HTH_ERR.EMB (R172). -/
def HTH_ERR_EMB (h : Nat) : Fld := ⟨hearthBlock h + 0x58, 0, 32, 3⟩
/-- HTH_ERR.HEARTH (R172). -/
def HTH_ERR_HEARTH (h : Nat) : Fld := ⟨hearthBlock h + 0x58, 0, 35, 1⟩
/-- HTH_ERR.VALID (R172). -/
def HTH_ERR_VALID (h : Nat) : Fld := ⟨hearthBlock h + 0x58, 0, 36, 1⟩
/-- EMB_STATUS.BUSY (R173). -/
def EMB_STATUS_BUSY (h e : Nat) : Fld := ⟨hearthBlock h + 0x400 + 0x100 * e, 0, 0, 1⟩
/-- EMB_STATUS.QDEPTH (R173). -/
def EMB_STATUS_QDEPTH (h e : Nat) : Fld := ⟨hearthBlock h + 0x400 + 0x100 * e, 0, 1, 5⟩
/-- EMB_STATUS.FENCED (R173). -/
def EMB_STATUS_FENCED (h e : Nat) : Fld := ⟨hearthBlock h + 0x400 + 0x100 * e, 0, 6, 1⟩
/-- EMB_STATUS.OUTPEND (R173). -/
def EMB_STATUS_OUTPEND (h e : Nat) : Fld := ⟨hearthBlock h + 0x400 + 0x100 * e, 0, 8, 8⟩
/-- EMB_FLAGS.flags (R173). -/
def EMB_FLAGS_flags (h e : Nat) : Fld := ⟨hearthBlock h + 0x408 + 0x100 * e, 0, 0, 14⟩
/-- EMB_OFLAGS.flags (R173). -/
def EMB_OFLAGS_flags (h e : Nat) : Fld := ⟨hearthBlock h + 0x410 + 0x100 * e, 0, 0, 14⟩
/-- EMB_ERR.CODE (R173). -/
def EMB_ERR_CODE (h e : Nat) : Fld := ⟨hearthBlock h + 0x418 + 0x100 * e, 0, 0, 16⟩
/-- EMB_ERR.TAG (R173). -/
def EMB_ERR_TAG (h e : Nat) : Fld := ⟨hearthBlock h + 0x418 + 0x100 * e, 0, 16, 16⟩
/-- EMB_ERR.VALID (R173). -/
def EMB_ERR_VALID (h e : Nat) : Fld := ⟨hearthBlock h + 0x418 + 0x100 * e, 0, 32, 1⟩
/-- EMB_FIC_0.VALID (R173). -/
def EMB_FIC_0_VALID (h e : Nat) : Fld := ⟨hearthBlock h + 0x420 + 0x100 * e, 0, 0, 1⟩
/-- EMB_FIC_0.CAUSE (R173). -/
def EMB_FIC_0_CAUSE (h e : Nat) : Fld := ⟨hearthBlock h + 0x420 + 0x100 * e, 0, 1, 3⟩
/-- EMB_FIC_0.TAG (R173). -/
def EMB_FIC_0_TAG (h e : Nat) : Fld := ⟨hearthBlock h + 0x420 + 0x100 * e, 0, 4, 16⟩
/-- EMB_FIC_0.KSTEP (R173). -/
def EMB_FIC_0_KSTEP (h e : Nat) : Fld := ⟨hearthBlock h + 0x420 + 0x100 * e, 0, 20, 12⟩
/-- EMB_FIC_0.SLOT (R173). -/
def EMB_FIC_0_SLOT (h e : Nat) : Fld := ⟨hearthBlock h + 0x420 + 0x100 * e, 0, 32, 8⟩
/-- EMB_FIC_0.COL (R173). -/
def EMB_FIC_0_COL (h e : Nat) : Fld := ⟨hearthBlock h + 0x420 + 0x100 * e, 0, 40, 6⟩
/-- EMB_FIC_0.RIDX (R173). -/
def EMB_FIC_0_RIDX (h e : Nat) : Fld := ⟨hearthBlock h + 0x420 + 0x100 * e, 0, 46, 8⟩
/-- EMB_FIC_1.ISSUE (R173). -/
def EMB_FIC_1_ISSUE (h e : Nat) : Fld := ⟨hearthBlock h + 0x428 + 0x100 * e, 0, 0, 48⟩
/-- EMB_FIC_2.OPA (R173). -/
def EMB_FIC_2_OPA (h e : Nat) : Fld := ⟨hearthBlock h + 0x430 + 0x100 * e, 0, 0, 16⟩
/-- EMB_FIC_2.OPB (R173). -/
def EMB_FIC_2_OPB (h e : Nat) : Fld := ⟨hearthBlock h + 0x430 + 0x100 * e, 0, 16, 16⟩
/-- EMB_FIC_2.FMT_A (R173). -/
def EMB_FIC_2_FMT_A (h e : Nat) : Fld := ⟨hearthBlock h + 0x430 + 0x100 * e, 0, 32, 4⟩
/-- EMB_FIC_2.FMT_B (R173). -/
def EMB_FIC_2_FMT_B (h e : Nat) : Fld := ⟨hearthBlock h + 0x430 + 0x100 * e, 0, 36, 4⟩
/-- EMB_PRODUCTS.COUNT (R173). -/
def EMB_PRODUCTS_COUNT (h e : Nat) : Fld := ⟨hearthBlock h + 0x438 + 0x100 * e, 0, 0, 64⟩
/-- EMB_SKIPPED.COUNT (R173). -/
def EMB_SKIPPED_COUNT (h e : Nat) : Fld := ⟨hearthBlock h + 0x440 + 0x100 * e, 0, 0, 64⟩
/-- EMB_DBG_CTL.SLOT (R173). -/
def EMB_DBG_CTL_SLOT (h e : Nat) : Fld := ⟨hearthBlock h + 0x448 + 0x100 * e, 0, 0, 8⟩
/-- EMB_DBG_CTL.ELEM (R173). -/
def EMB_DBG_CTL_ELEM (h e : Nat) : Fld := ⟨hearthBlock h + 0x448 + 0x100 * e, 0, 8, 6⟩
/-- EMB_DBG_CTL.WORD (R173). -/
def EMB_DBG_CTL_WORD (h e : Nat) : Fld := ⟨hearthBlock h + 0x448 + 0x100 * e, 0, 14, 4⟩
/-- EMB_DBG_DATA.DATA (R173). -/
def EMB_DBG_DATA_DATA (h e : Nat) : Fld := ⟨hearthBlock h + 0x450 + 0x100 * e, 0, 0, 64⟩
/-- HTH_VCTL.FTZ (R220). -/
def HTH_VCTL_FTZ (h : Nat) : Fld := ⟨hearthBlock h + 0xC00, 0, 0, 1⟩
/-- HTH_VFLAGS.flags (R220). -/
def HTH_VFLAGS_flags (h : Nat) : Fld := ⟨hearthBlock h + 0xC08, 0, 0, 14⟩
/-- HTH_VIEEE.IV (R220). -/
def HTH_VIEEE_IV (h : Nat) : Fld := ⟨hearthBlock h + 0xC10, 0, 0, 1⟩
/-- HTH_VIEEE.DZ (R220). -/
def HTH_VIEEE_DZ (h : Nat) : Fld := ⟨hearthBlock h + 0xC10, 0, 1, 1⟩
/-- HTH_VIEEE.OFL (R220). -/
def HTH_VIEEE_OFL (h : Nat) : Fld := ⟨hearthBlock h + 0xC10, 0, 2, 1⟩
/-- HTH_VIEEE.UFL (R220). -/
def HTH_VIEEE_UFL (h : Nat) : Fld := ⟨hearthBlock h + 0xC10, 0, 3, 1⟩
/-- HTH_VIEEE.INX (R220). -/
def HTH_VIEEE_INX (h : Nat) : Fld := ⟨hearthBlock h + 0xC10, 0, 4, 1⟩
/-- HTH_VSTATUS.BUSY (R220). -/
def HTH_VSTATUS_BUSY (h : Nat) : Fld := ⟨hearthBlock h + 0xC18, 0, 0, 1⟩
/-- HTH_VSTATUS.QDEPTH (R220). -/
def HTH_VSTATUS_QDEPTH (h : Nat) : Fld := ⟨hearthBlock h + 0xC18, 0, 1, 5⟩
/-- HTH_VSTATUS.EVAL (R220). -/
def HTH_VSTATUS_EVAL (h : Nat) : Fld := ⟨hearthBlock h + 0xC18, 0, 6, 1⟩
/-- HTH_VERR.CODE (R220). -/
def HTH_VERR_CODE (h : Nat) : Fld := ⟨hearthBlock h + 0xC20, 0, 0, 16⟩
/-- HTH_VERR.TAG (R220). -/
def HTH_VERR_TAG (h : Nat) : Fld := ⟨hearthBlock h + 0xC20, 0, 16, 16⟩
/-- HTH_VERR.VALID (R220). -/
def HTH_VERR_VALID (h : Nat) : Fld := ⟨hearthBlock h + 0xC20, 0, 32, 1⟩
/-- HTH_VOPS.COUNT (R220). -/
def HTH_VOPS_COUNT (h : Nat) : Fld := ⟨hearthBlock h + 0xC28, 0, 0, 64⟩
/-- HTH_VEVAL.COUNT (R220). -/
def HTH_VEVAL_COUNT (h : Nat) : Fld := ⟨hearthBlock h + 0xC30, 0, 0, 64⟩
/-- HTH_VWAIT.COUNT (R220). -/
def HTH_VWAIT_COUNT (h : Nat) : Fld := ⟨hearthBlock h + 0xC38, 0, 0, 64⟩
/-- HTH_CB_LIVE.GEN (R251). -/
def HTH_CB_LIVE_GEN (h : Nat) : Fld := ⟨hearthBlock h + 0x60, 0, 0, 64⟩
/-- HTH_FN_LIVE.PWL (R251). -/
def HTH_FN_LIVE_PWL (h : Nat) : Fld := ⟨hearthBlock h + 0x68, 0, 0, 32⟩
/-- HTH_FN_LIVE.MPROG (R251). -/
def HTH_FN_LIVE_MPROG (h : Nat) : Fld := ⟨hearthBlock h + 0x68, 0, 32, 32⟩
/-- HTH_TBL_STATUS.LOADWAIT (R251). -/
def HTH_TBL_STATUS_LOADWAIT (h : Nat) : Fld := ⟨hearthBlock h + 0x70, 0, 0, 1⟩
/-- HTH_TBL_STATUS.BUILD (R251). -/
def HTH_TBL_STATUS_BUILD (h : Nat) : Fld := ⟨hearthBlock h + 0x70, 0, 1, 1⟩
/-- HTH_TBL_STATUS.BSLOT (R251). -/
def HTH_TBL_STATUS_BSLOT (h : Nat) : Fld := ⟨hearthBlock h + 0x70, 0, 2, 6⟩
/-- HTH_TBL_STATUS.HROWS (R251). -/
def HTH_TBL_STATUS_HROWS (h : Nat) : Fld := ⟨hearthBlock h + 0x70, 0, 16, 9⟩
/-- HTH_TBL_REFS.REF0 (R251). -/
def HTH_TBL_REFS_REF0 (h : Nat) : Fld := ⟨hearthBlock h + 0x78, 0, 0, 16⟩
/-- HTH_TBL_REFS.REF1 (R251). -/
def HTH_TBL_REFS_REF1 (h : Nat) : Fld := ⟨hearthBlock h + 0x78, 0, 16, 16⟩
/-- KLN_GATE_CTL.EN (R280). -/
def KLN_GATE_CTL_EN (k : Nat) : Fld := ⟨kilnBlock k + 0x400, 0xC3500, 0, 1⟩
/-- KLN_GATE_CTL.THRESH (R280). -/
def KLN_GATE_CTL_THRESH (k : Nat) : Fld := ⟨kilnBlock k + 0x400, 0xC3500, 8, 32⟩
/-- KLN_GATE_STAT.GATED (R280). -/
def KLN_GATE_STAT_GATED (k : Nat) : Fld := ⟨kilnBlock k + 0x408, 0, 0, 1⟩
/-- KLN_GATE_STAT.WAKING (R280). -/
def KLN_GATE_STAT_WAKING (k : Nat) : Fld := ⟨kilnBlock k + 0x408, 0, 1, 1⟩
/-- KLN_GATE_STAT.LIVESLOT (R280). -/
def KLN_GATE_STAT_LIVESLOT (k : Nat) : Fld := ⟨kilnBlock k + 0x408, 0, 2, 1⟩
/-- KLN_GATE_STAT.IDLE (R280). -/
def KLN_GATE_STAT_IDLE (k : Nat) : Fld := ⟨kilnBlock k + 0x408, 0, 32, 32⟩
/-- KLN_GATE_CNT.COUNT (R280). -/
def KLN_GATE_CNT_COUNT (k : Nat) : Fld := ⟨kilnBlock k + 0x410, 0, 0, 64⟩
/-- KLN_RT_STATUS.LIVE (R280). -/
def KLN_RT_STATUS_LIVE (k : Nat) : Fld := ⟨kilnBlock k + 0x418, 0, 0, 1⟩
/-- KLN_RT_STATUS.LOADWAIT (R280). -/
def KLN_RT_STATUS_LOADWAIT (k : Nat) : Fld := ⟨kilnBlock k + 0x418, 0, 1, 1⟩
/-- KLN_RT_STATUS.VALIDCNT (R280). -/
def KLN_RT_STATUS_VALIDCNT (k : Nat) : Fld := ⟨kilnBlock k + 0x418, 0, 16, 14⟩
/-- KLN_DSP_ERR.CODE (R280). -/
def KLN_DSP_ERR_CODE (k : Nat) : Fld := ⟨kilnBlock k + 0x420, 0, 0, 16⟩
/-- KLN_DSP_ERR.LAYER (R280). -/
def KLN_DSP_ERR_LAYER (k : Nat) : Fld := ⟨kilnBlock k + 0x420, 0, 16, 16⟩
/-- KLN_DSP_ERR.VALID (R280). -/
def KLN_DSP_ERR_VALID (k : Nat) : Fld := ⟨kilnBlock k + 0x420, 0, 32, 1⟩
/-- KLN_DSP_CNT.PAIRS (R280). -/
def KLN_DSP_CNT_PAIRS (k : Nat) : Fld := ⟨kilnBlock k + 0x428, 0, 0, 64⟩
/-- ING_STATUS.SPLBUSY (R319). -/
def ING_STATUS_SPLBUSY : Fld := ⟨0x300000, 0, 0, 7⟩
/-- ING_STATUS.AUDBUSY (R319). -/
def ING_STATUS_AUDBUSY : Fld := ⟨0x300000, 0, 8, 6⟩
/-- ING_ERR.CODE (R319). -/
def ING_ERR_CODE : Fld := ⟨0x300008, 0, 0, 16⟩
/-- ING_ERR.RING (R319). -/
def ING_ERR_RING : Fld := ⟨0x300008, 0, 16, 5⟩
/-- ING_ERR.VALID (R319). -/
def ING_ERR_VALID : Fld := ⟨0x300008, 0, 32, 1⟩
/-- ING_TIMEOUT.STOKES (R319). -/
def ING_TIMEOUT_STOKES : Fld := ⟨0x300010, 0x300BEBC20, 0, 32⟩
/-- ING_TIMEOUT.RETRY (R319). -/
def ING_TIMEOUT_RETRY : Fld := ⟨0x300010, 0x300BEBC20, 32, 4⟩
/-- ING_DLOG_BASE.ADDR (R319). -/
def ING_DLOG_BASE_ADDR : Fld := ⟨0x300018, 0, 6, 42⟩
/-- ING_DLOG_CNT.COUNT (R319). -/
def ING_DLOG_CNT_COUNT : Fld := ⟨0x300020, 0, 0, 64⟩
/-- ING_CRC_CNT.COUNT (R319). -/
def ING_CRC_CNT_COUNT : Fld := ⟨0x300028, 0, 0, 64⟩
/-- ING_STALE_CNT.COUNT (R319). -/
def ING_STALE_CNT_COUNT : Fld := ⟨0x300030, 0, 0, 64⟩
/-- ING_KR_BASE.ADDR (R319). -/
def ING_KR_BASE_ADDR (n : Nat) : Fld := ⟨0x301000 + 0x40 * n, 0, 6, 42⟩
/-- ING_KR_CTL.LOG2SIZE (R319). -/
def ING_KR_CTL_LOG2SIZE (n : Nat) : Fld := ⟨0x301008 + 0x40 * n, 0, 0, 6⟩
/-- ING_KR_CTL.EN (R319). -/
def ING_KR_CTL_EN (n : Nat) : Fld := ⟨0x301008 + 0x40 * n, 0, 8, 1⟩
/-- ING_KR_CTL.CRCREQ (R319). -/
def ING_KR_CTL_CRCREQ (n : Nat) : Fld := ⟨0x301008 + 0x40 * n, 0, 9, 1⟩
/-- ING_KR_HEAD.HEAD (R319). -/
def ING_KR_HEAD_HEAD (n : Nat) : Fld := ⟨0x301010 + 0x40 * n, 0, 0, 40⟩
/-- ING_KR_TAIL.TAIL (R319). -/
def ING_KR_TAIL_TAIL (n : Nat) : Fld := ⟨0x301018 + 0x40 * n, 0, 0, 40⟩
/-- ING_DQ_BASE.ADDR (R319). -/
def ING_DQ_BASE_ADDR (n : Nat) : Fld := ⟨0x301020 + 0x40 * n, 0, 6, 42⟩
/-- ING_DQ_CTL.LOG2ENT (R319). -/
def ING_DQ_CTL_LOG2ENT (n : Nat) : Fld := ⟨0x301028 + 0x40 * n, 0, 0, 5⟩
/-- ING_DQ_CTL.EN (R319). -/
def ING_DQ_CTL_EN (n : Nat) : Fld := ⟨0x301028 + 0x40 * n, 0, 8, 1⟩
/-- ING_DQ_TAIL.TAIL (R319). -/
def ING_DQ_TAIL_TAIL (n : Nat) : Fld := ⟨0x301030 + 0x40 * n, 0, 0, 32⟩
/-- ING_DQ_HEAD.HEAD (R319). -/
def ING_DQ_HEAD_HEAD (n : Nat) : Fld := ⟨0x301038 + 0x40 * n, 0, 0, 32⟩
/-- SPL_STATUS.BUSY (R320). -/
def SPL_STATUS_BUSY (n : Nat) : Fld := ⟨0x303000 + 0x20 * n, 0, 0, 1⟩
/-- SPL_STATUS.CODEC (R320). -/
def SPL_STATUS_CODEC (n : Nat) : Fld := ⟨0x303000 + 0x20 * n, 0, 1, 3⟩
/-- SPL_STATUS.CLIP (R320). -/
def SPL_STATUS_CLIP (n : Nat) : Fld := ⟨0x303000 + 0x20 * n, 0, 32, 20⟩
/-- SPL_FRAMES.COUNT (R320). -/
def SPL_FRAMES_COUNT (n : Nat) : Fld := ⟨0x303008 + 0x20 * n, 0, 0, 64⟩
/-- SPL_ERRS.COUNT (R320). -/
def SPL_ERRS_COUNT (n : Nat) : Fld := ⟨0x303010 + 0x20 * n, 0, 0, 64⟩
/-- SPL_FLAGS.flags (R320). -/
def SPL_FLAGS_flags (n : Nat) : Fld := ⟨0x303018 + 0x20 * n, 0, 0, 14⟩
/-- RIK_STATUS.BOUND0 (R321). -/
def RIK_STATUS_BOUND0 : Fld := ⟨0x400000, 0, 0, 1⟩
/-- RIK_STATUS.BOUND1 (R321). -/
def RIK_STATUS_BOUND1 : Fld := ⟨0x400000, 0, 1, 1⟩
/-- RIK_STATUS.LIVE (R321). -/
def RIK_STATUS_LIVE : Fld := ⟨0x400000, 0, 2, 1⟩
/-- RIK_STATUS.LOADWAIT (R321). -/
def RIK_STATUS_LOADWAIT : Fld := ⟨0x400000, 0, 3, 1⟩
/-- RIK_NEXT.STEP (R321). -/
def RIK_NEXT_STEP : Fld := ⟨0x400008, 0, 0, 64⟩
/-- RIK_READY.STEPS (R321). -/
def RIK_READY_STEPS : Fld := ⟨0x400010, 0, 0, 4⟩
/-- RIK_EVAL_POS.CURSOR (R321). -/
def RIK_EVAL_POS_CURSOR : Fld := ⟨0x400018, 0, 0, 64⟩
/-- RIK_VALID.GEN0 (R321). -/
def RIK_VALID_GEN0 : Fld := ⟨0x400020, 0, 0, 21⟩
/-- RIK_VALID.GEN1 (R321). -/
def RIK_VALID_GEN1 : Fld := ⟨0x400020, 0, 32, 21⟩
/-- RIK_DRAWS.COUNT (R321). -/
def RIK_DRAWS_COUNT : Fld := ⟨0x400028, 0, 0, 64⟩
/-- RIK_BIND0.RECORD (R321). -/
def RIK_BIND0_RECORD (n : Nat) : Fld := ⟨0x400100 + 0x8 * n, 0, 0, 64⟩
/-- RIK_BIND1.RECORD (R321). -/
def RIK_BIND1_RECORD (n : Nat) : Fld := ⟨0x400180 + 0x8 * n, 0, 0, 64⟩
/-- MEM_STATUS.STACKS (R349). -/
def MEM_STATUS_STACKS : Fld := ⟨0x500000, 0, 0, 32⟩
/-- MEM_STATUS.PEAT_UP (R349). -/
def MEM_STATUS_PEAT_UP : Fld := ⟨0x500000, 0, 32, 1⟩
/-- MEM_STATUS.SCRUBBING (R349). -/
def MEM_STATUS_SCRUBBING : Fld := ⟨0x500000, 0, 33, 1⟩
/-- MEM_ERR.CODE (R349). -/
def MEM_ERR_CODE : Fld := ⟨0x500008, 0, 0, 16⟩
/-- MEM_ERR.UNIT (R349). -/
def MEM_ERR_UNIT : Fld := ⟨0x500008, 0, 16, 16⟩
/-- MEM_ERR.VALID (R349). -/
def MEM_ERR_VALID : Fld := ⟨0x500008, 0, 32, 1⟩
/-- MEM_ELOG_BASE.ADDR (R349). -/
def MEM_ELOG_BASE_ADDR : Fld := ⟨0x500010, 0, 6, 42⟩
/-- MEM_ELOG_CNT.COUNT (R349). -/
def MEM_ELOG_CNT_COUNT : Fld := ⟨0x500018, 0, 0, 64⟩
/-- MEM_CE_CNT.COUNT (R349). -/
def MEM_CE_CNT_COUNT : Fld := ⟨0x500020, 0, 0, 64⟩
/-- MEM_UE_CNT.COUNT (R349). -/
def MEM_UE_CNT_COUNT : Fld := ⟨0x500028, 0, 0, 64⟩
/-- MEM_SCRUB_CTL.LIVE (R349). -/
def MEM_SCRUB_CTL_LIVE : Fld := ⟨0x500030, 0x1518003, 0, 1⟩
/-- MEM_SCRUB_CTL.PEAT (R349). -/
def MEM_SCRUB_CTL_PEAT : Fld := ⟨0x500030, 0x1518003, 1, 1⟩
/-- MEM_SCRUB_CTL.PERIOD (R349). -/
def MEM_SCRUB_CTL_PERIOD : Fld := ⟨0x500030, 0x1518003, 8, 24⟩
/-- MEM_CE_THRESH.THRESH (R349). -/
def MEM_CE_THRESH_THRESH : Fld := ⟨0x500038, 0x100, 0, 32⟩
/-- MEM_REGIONS.COUNT (R349). -/
def MEM_REGIONS_COUNT : Fld := ⟨0x500040, 0, 0, 15⟩
/-- MEM_HBM_STAT.TRAINED (R349). -/
def MEM_HBM_STAT_TRAINED (n : Nat) : Fld := ⟨0x500100 + 0x8 * n, 0, 0, 1⟩
/-- MEM_HBM_STAT.RATE (R349). -/
def MEM_HBM_STAT_RATE (n : Nat) : Fld := ⟨0x500100 + 0x8 * n, 0, 1, 2⟩
/-- MEM_HBM_STAT.FAILED (R349). -/
def MEM_HBM_STAT_FAILED (n : Nat) : Fld := ⟨0x500100 + 0x8 * n, 0, 3, 1⟩
/-- MEM_HBM_STAT.CE (R349). -/
def MEM_HBM_STAT_CE (n : Nat) : Fld := ⟨0x500100 + 0x8 * n, 0, 32, 32⟩
/-- PEAT_STATUS.TYPE (R349). -/
def PEAT_STATUS_TYPE : Fld := ⟨0x500400, 0, 0, 2⟩
/-- PEAT_STATUS.DPC2 (R349). -/
def PEAT_STATUS_DPC2 : Fld := ⟨0x500400, 0, 2, 1⟩
/-- PEAT_STATUS.SIZE (R349). -/
def PEAT_STATUS_SIZE : Fld := ⟨0x500400, 0, 8, 8⟩
/-- PEAT_STATUS.SPEED (R349). -/
def PEAT_STATUS_SPEED : Fld := ⟨0x500400, 0, 16, 16⟩
/-- PEAT_STATUS.REASON (R349). -/
def PEAT_STATUS_REASON : Fld := ⟨0x500400, 0, 32, 3⟩
/-- PEAT_SIZE.BYTES (R349). -/
def PEAT_SIZE_BYTES : Fld := ⟨0x500408, 0, 0, 45⟩
/-- PEAT_CH.SLOT0 (R349). -/
def PEAT_CH_SLOT0 (n : Nat) : Fld := ⟨0x500480 + 0x8 * n, 0, 0, 1⟩
/-- PEAT_CH.SLOT1 (R349). -/
def PEAT_CH_SLOT1 (n : Nat) : Fld := ⟨0x500480 + 0x8 * n, 0, 1, 1⟩
/-- PEAT_CH.TRAINED (R349). -/
def PEAT_CH_TRAINED (n : Nat) : Fld := ⟨0x500480 + 0x8 * n, 0, 2, 1⟩
/-- PEAT_CH.FAILED (R349). -/
def PEAT_CH_FAILED (n : Nat) : Fld := ⟨0x500480 + 0x8 * n, 0, 3, 1⟩
/-- PEAT_CH.CE (R349). -/
def PEAT_CH_CE (n : Nat) : Fld := ⟨0x500480 + 0x8 * n, 0, 32, 32⟩
/-- COL_CFG_STATUS.LOADED (R385). -/
def COL_CFG_STATUS_LOADED : Fld := ⟨0x200800, 0, 0, 1⟩
/-- COL_CFG_STATUS.LOADING (R385). -/
def COL_CFG_STATUS_LOADING : Fld := ⟨0x200800, 0, 1, 1⟩
/-- COL_CFG_STATUS.SIGNED (R385). -/
def COL_CFG_STATUS_SIGNED : Fld := ⟨0x200800, 0, 2, 1⟩
/-- COL_CFG_STATUS.PARTIAL (R385). -/
def COL_CFG_STATUS_PARTIAL : Fld := ⟨0x200800, 0, 3, 1⟩
/-- COL_CFG_STATUS.KEYSLOT (R385). -/
def COL_CFG_STATUS_KEYSLOT : Fld := ⟨0x200800, 0, 4, 3⟩
/-- COL_CFG_STATUS.GEN (R385). -/
def COL_CFG_STATUS_GEN : Fld := ⟨0x200800, 0, 32, 32⟩
/-- COL_CFG_ID.ID (R385). -/
def COL_CFG_ID_ID : Fld := ⟨0x200808, 0, 0, 64⟩
/-- COL_CFG_CRC.CRC (R385). -/
def COL_CFG_CRC_CRC : Fld := ⟨0x200810, 0, 0, 32⟩
/-- COL_CFG_KILNS.LAST (R385). -/
def COL_CFG_KILNS_LAST : Fld := ⟨0x200818, 0, 0, 32⟩
/-- COL_CFG_ERR.CODE (R385). -/
def COL_CFG_ERR_CODE : Fld := ⟨0x200820, 0, 0, 16⟩
/-- COL_CFG_ERR.SECTION (R385). -/
def COL_CFG_ERR_SECTION : Fld := ⟨0x200820, 0, 16, 12⟩
/-- COL_CFG_ERR.VALID (R385). -/
def COL_CFG_ERR_VALID : Fld := ⟨0x200820, 0, 32, 1⟩
/-- COL_CFG_ERROFF.OFFSET (R385). -/
def COL_CFG_ERROFF_OFFSET : Fld := ⟨0x200828, 0, 0, 40⟩
/-- COL_CFG_CLAIM_A.CLAIMANT (R385). -/
def COL_CFG_CLAIM_A_CLAIMANT : Fld := ⟨0x200830, 0, 0, 32⟩
/-- COL_CFG_CLAIM_A.RECORD (R385). -/
def COL_CFG_CLAIM_A_RECORD : Fld := ⟨0x200830, 0, 32, 16⟩
/-- COL_CFG_CLAIM_A.KIND (R385). -/
def COL_CFG_CLAIM_A_KIND : Fld := ⟨0x200830, 0, 48, 8⟩
/-- COL_CFG_CLAIM_A.RES (R385). -/
def COL_CFG_CLAIM_A_RES : Fld := ⟨0x200830, 0, 56, 8⟩
/-- COL_CFG_CLAIM_B.as CLAIM_A (R385). -/
def COL_CFG_CLAIM_B_RECORD : Fld := ⟨0x200838, 0, 0, 64⟩
/-- COL_CFG_DIGEST.DIGEST (R385). -/
def COL_CFG_DIGEST_DIGEST (n : Nat) : Fld := ⟨0x200840 + 0x8 * n, 0, 0, 64⟩
/-- COL_STATUS.CMDS (R413). -/
def COL_STATUS_CMDS : Fld := ⟨0x200000, 0, 0, 9⟩
/-- COL_STATUS.STEPOPEN (R413). -/
def COL_STATUS_STEPOPEN : Fld := ⟨0x200000, 0, 9, 1⟩
/-- COL_STATUS.EVALRUN (R413). -/
def COL_STATUS_EVALRUN : Fld := ⟨0x200000, 0, 10, 1⟩
/-- COL_INFLIGHT.OPS (R413). -/
def COL_INFLIGHT_OPS : Fld := ⟨0x200008, 0, 0, 17⟩
/-- COL_STOKE.COUNT (R413). -/
def COL_STOKE_COUNT : Fld := ⟨0x200010, 0, 0, 64⟩
/-- COL_EVT_BASE.ADDR (R413). -/
def COL_EVT_BASE_ADDR : Fld := ⟨0x200018, 0, 6, 42⟩
/-- COL_EVT_CNT.COUNT (R413). -/
def COL_EVT_CNT_COUNT : Fld := ⟨0x200020, 0, 0, 64⟩
/-- COL_EVT_CTL.VECTOR (R413). -/
def COL_EVT_CTL_VECTOR : Fld := ⟨0x200028, 0, 0, 11⟩
/-- COL_EVT_CTL.IEN (R413). -/
def COL_EVT_CTL_IEN : Fld := ⟨0x200028, 0, 11, 1⟩
/-- COL_EVT_CTL.IMASK (R413). -/
def COL_EVT_CTL_IMASK : Fld := ⟨0x200028, 0, 13, 9⟩
/-- COL_DIE_OPS.OPS (R413). -/
def COL_DIE_OPS_OPS (n : Nat) : Fld := ⟨0x200040 + 0x8 * n, 0, 0, 14⟩
/-- COL_SQ_BASE.ADDR (R413). -/
def COL_SQ_BASE_ADDR (n : Nat) : Fld := ⟨0x201000 + 0x40 * n, 0, 6, 42⟩
/-- COL_SQ_CTL.LOG2ENT (R413). -/
def COL_SQ_CTL_LOG2ENT (n : Nat) : Fld := ⟨0x201008 + 0x40 * n, 0, 0, 5⟩
/-- COL_SQ_CTL.EN (R413). -/
def COL_SQ_CTL_EN (n : Nat) : Fld := ⟨0x201008 + 0x40 * n, 0, 8, 1⟩
/-- COL_SQ_CTL.FAULT (R413). -/
def COL_SQ_CTL_FAULT (n : Nat) : Fld := ⟨0x201008 + 0x40 * n, 0, 9, 1⟩
/-- COL_SQ_CTL.DRAIN (R413). -/
def COL_SQ_CTL_DRAIN (n : Nat) : Fld := ⟨0x201008 + 0x40 * n, 0, 10, 1⟩
/-- COL_SQ_CTL.CQ (R413). -/
def COL_SQ_CTL_CQ (n : Nat) : Fld := ⟨0x201008 + 0x40 * n, 0, 16, 6⟩
/-- COL_SQ_HEAD.HEAD (R413). -/
def COL_SQ_HEAD_HEAD (n : Nat) : Fld := ⟨0x201010 + 0x40 * n, 0, 0, 32⟩
/-- COL_SQ_TAIL.TAIL (R413). -/
def COL_SQ_TAIL_TAIL (n : Nat) : Fld := ⟨0x201018 + 0x40 * n, 0, 0, 32⟩
/-- COL_CQ_BASE.ADDR (R413). -/
def COL_CQ_BASE_ADDR (n : Nat) : Fld := ⟨0x201020 + 0x40 * n, 0, 6, 42⟩
/-- COL_CQ_CTL.LOG2ENT (R413). -/
def COL_CQ_CTL_LOG2ENT (n : Nat) : Fld := ⟨0x201028 + 0x40 * n, 0, 0, 5⟩
/-- COL_CQ_CTL.EN (R413). -/
def COL_CQ_CTL_EN (n : Nat) : Fld := ⟨0x201028 + 0x40 * n, 0, 8, 1⟩
/-- COL_CQ_CTL.IEN (R413). -/
def COL_CQ_CTL_IEN (n : Nat) : Fld := ⟨0x201028 + 0x40 * n, 0, 9, 1⟩
/-- COL_CQ_CTL.VECTOR (R413). -/
def COL_CQ_CTL_VECTOR (n : Nat) : Fld := ⟨0x201028 + 0x40 * n, 0, 16, 11⟩
/-- COL_CQ_TAIL.TAIL (R413). -/
def COL_CQ_TAIL_TAIL (n : Nat) : Fld := ⟨0x201030 + 0x40 * n, 0, 0, 32⟩
/-- COL_CQ_HEAD.HEAD (R413). -/
def COL_CQ_HEAD_HEAD (n : Nat) : Fld := ⟨0x201038 + 0x40 * n, 0, 0, 32⟩
/-- COL_STEP_STATUS.STATE (R450). -/
def COL_STEP_STATUS_STATE : Fld := ⟨0x200400, 0, 0, 3⟩
/-- COL_STEP_STATUS.VOID (R450). -/
def COL_STEP_STATUS_VOID : Fld := ⟨0x200400, 0, 3, 1⟩
/-- COL_STEP_STATUS.CLOSED (R450). -/
def COL_STEP_STATUS_CLOSED : Fld := ⟨0x200400, 0, 4, 1⟩
/-- COL_STEP_STATUS.AUTO (R450). -/
def COL_STEP_STATUS_AUTO : Fld := ⟨0x200400, 0, 5, 1⟩
/-- COL_STEP_STATUS.COMMITREQ (R450). -/
def COL_STEP_STATUS_COMMITREQ : Fld := ⟨0x200400, 0, 6, 1⟩
/-- COL_STEP_NUM.STEP (R450). -/
def COL_STEP_NUM_STEP : Fld := ⟨0x200408, 0, 0, 64⟩
/-- COL_STEP_NEXT.NEXT (R450). -/
def COL_STEP_NEXT_NEXT : Fld := ⟨0x200410, 0, 0, 64⟩
/-- COL_STEP_CTL.NUMABORT (R450). -/
def COL_STEP_CTL_NUMABORT : Fld := ⟨0x200418, 0, 0, 1⟩
/-- COL_STEP_SEED.SEED (R450). -/
def COL_STEP_SEED_SEED : Fld := ⟨0x200420, 0, 0, 64⟩
/-- COL_STEP_VOTE.GLOBAL (R450). -/
def COL_STEP_VOTE_GLOBAL : Fld := ⟨0x200428, 0, 0, 32⟩
/-- COL_STEP_VOTE.LATE (R450). -/
def COL_STEP_VOTE_LATE : Fld := ⟨0x200428, 0, 32, 32⟩
/-- COL_STEP_LOCAL.LOCAL (R450). -/
def COL_STEP_LOCAL_LOCAL : Fld := ⟨0x200430, 0, 0, 32⟩
/-- COL_STEP_NORM.NORM (R450). -/
def COL_STEP_NORM_NORM : Fld := ⟨0x200438, 0, 0, 32⟩
/-- COL_STEP_NORM.LOSS (R450). -/
def COL_STEP_NORM_LOSS : Fld := ⟨0x200438, 0, 32, 32⟩
/-- COL_STEP_UPDATES.COUNT (R450). -/
def COL_STEP_UPDATES_COUNT : Fld := ⟨0x200440, 0, 0, 64⟩
/-- COL_STEP_SKIPS.COUNT (R450). -/
def COL_STEP_SKIPS_COUNT : Fld := ⟨0x200448, 0, 0, 64⟩
/-- COL_STEP_LAST.OUTCOME (R450). -/
def COL_STEP_LAST_OUTCOME : Fld := ⟨0x200450, 0, 0, 3⟩
/-- COL_STEP_LAST.STEP (R450). -/
def COL_STEP_LAST_STEP : Fld := ⟨0x200450, 0, 8, 56⟩
/-- CHK_STATUS.KILN (R481). -/
def CHK_STATUS_KILN : Fld := ⟨0xA00000, 0, 0, 32⟩
/-- CHK_STATUS.PORT (R481). -/
def CHK_STATUS_PORT : Fld := ⟨0xA00000, 0, 32, 2⟩
/-- CHK_BYTES.COUNT (R481). -/
def CHK_BYTES_COUNT : Fld := ⟨0xA00008, 0, 0, 64⟩
/-- BNK_STATUS.BUSY (R481). -/
def BNK_STATUS_BUSY : Fld := ⟨0xA00100, 0, 0, 1⟩
/-- BNK_STATUS.PHASE (R481). -/
def BNK_STATUS_PHASE : Fld := ⟨0xA00100, 0, 1, 3⟩
/-- BNK_STATUS.PASS (R481). -/
def BNK_STATUS_PASS : Fld := ⟨0xA00100, 0, 4, 1⟩
/-- BNK_STATUS.CORRELATED (R481). -/
def BNK_STATUS_CORRELATED : Fld := ⟨0xA00100, 0, 5, 1⟩
/-- BNK_STATUS.PARTNER (R481). -/
def BNK_STATUS_PARTNER : Fld := ⟨0xA00100, 0, 6, 1⟩
/-- BNK_STATUS.VERIFY (R481). -/
def BNK_STATUS_VERIFY : Fld := ⟨0xA00100, 0, 7, 1⟩
/-- BNK_STATUS.REFCONFLICT (R481). -/
def BNK_STATUS_REFCONFLICT : Fld := ⟨0xA00100, 0, 8, 1⟩
/-- BNK_STATUS.KX1PEND (R481). -/
def BNK_STATUS_KX1PEND : Fld := ⟨0xA00100, 0, 9, 1⟩
/-- BNK_STATUS.FEED (R481). -/
def BNK_STATUS_FEED : Fld := ⟨0xA00100, 0, 16, 4⟩
/-- BNK_STATUS.PFEED (R481). -/
def BNK_STATUS_PFEED : Fld := ⟨0xA00100, 0, 20, 4⟩
/-- BNK_CTL.AUTO (R481). -/
def BNK_CTL_AUTO : Fld := ⟨0xA00108, 0, 0, 1⟩
/-- BNK_CTL.ALEVELS (R481). -/
def BNK_CTL_ALEVELS : Fld := ⟨0xA00108, 0, 1, 3⟩
/-- BNK_CTL.INTERVAL (R481). -/
def BNK_CTL_INTERVAL : Fld := ⟨0xA00108, 0, 32, 32⟩
/-- BNK_RCV_BASE.ADDR (R481). -/
def BNK_RCV_BASE_ADDR : Fld := ⟨0xA00110, 0, 12, 36⟩
/-- BNK_RCV_LEN.LEN (R481). -/
def BNK_RCV_LEN_LEN : Fld := ⟨0xA00118, 0, 12, 32⟩
/-- BNK_LAST.BNEXT (R481). -/
def BNK_LAST_BNEXT : Fld := ⟨0xA00120, 0, 0, 64⟩
/-- BNK_REF_VAL.NL (R481). -/
def BNK_REF_VAL_NL : Fld := ⟨0xA00128, 0, 0, 64⟩
/-- BNK_REF_STEP.STEP (R481). -/
def BNK_REF_STEP_STEP : Fld := ⟨0xA00130, 0, 0, 64⟩
/-- BNK_REF_CTL.VALID (R481). -/
def BNK_REF_CTL_VALID : Fld := ⟨0xA00138, 0, 0, 1⟩
/-- BNK_TRIAL.ACTIVE (R481). -/
def BNK_TRIAL_ACTIVE : Fld := ⟨0xA00140, 0, 0, 1⟩
/-- BNK_TRIAL.LV0 (R481). -/
def BNK_TRIAL_LV0 : Fld := ⟨0xA00140, 0, 1, 2⟩
/-- BNK_TRIAL.LV1 (R481). -/
def BNK_TRIAL_LV1 : Fld := ⟨0xA00140, 0, 3, 2⟩
/-- BNK_TRIAL.RES0 (R481). -/
def BNK_TRIAL_RES0 : Fld := ⟨0xA00140, 0, 5, 2⟩
/-- BNK_TRIAL.RES1 (R481). -/
def BNK_TRIAL_RES1 : Fld := ⟨0xA00140, 0, 7, 2⟩
/-- BNK_TRIAL_STEP.STEP (R481). -/
def BNK_TRIAL_STEP_STEP : Fld := ⟨0xA00148, 0, 0, 64⟩
/-- BNK_STORE_MTAIL.COUNT (R481). -/
def BNK_STORE_MTAIL_COUNT : Fld := ⟨0xA00150, 0, 0, 40⟩
/-- BNK_STORE_HHEAD.COUNT (R481). -/
def BNK_STORE_HHEAD_COUNT : Fld := ⟨0xA00158, 0, 0, 40⟩
/-- BNK_STORE_HTAIL.COUNT (R481). -/
def BNK_STORE_HTAIL_COUNT : Fld := ⟨0xA00160, 0, 0, 40⟩
/-- BNK_STORE_MHEAD.COUNT (R481). -/
def BNK_STORE_MHEAD_COUNT : Fld := ⟨0xA00168, 0, 0, 40⟩
/-- BNK_CNT.BANKS (R481). -/
def BNK_CNT_BANKS : Fld := ⟨0xA00170, 0, 0, 32⟩
/-- BNK_CNT.SKIPPED (R481). -/
def BNK_CNT_SKIPPED : Fld := ⟨0xA00170, 0, 32, 32⟩
/-- BNK_ERR.CODE (R481). -/
def BNK_ERR_CODE : Fld := ⟨0xA00178, 0, 0, 16⟩
/-- BNK_ERR.LEVEL (R481). -/
def BNK_ERR_LEVEL : Fld := ⟨0xA00178, 0, 16, 3⟩
/-- BNK_ERR.VALID (R481). -/
def BNK_ERR_VALID : Fld := ⟨0xA00178, 0, 32, 1⟩
/-- ODN_FAB_CTL.TRAIN (R509). -/
def ODN_FAB_CTL_TRAIN : Fld := ⟨0x600000, 0, 0, 1⟩
/-- ODN_RT_BASE.ADDR (R509). -/
def ODN_RT_BASE_ADDR : Fld := ⟨0x600008, 0, 6, 42⟩
/-- ODN_FAB_STATUS.STATE (R509). -/
def ODN_FAB_STATUS_STATE : Fld := ⟨0x600010, 0, 0, 2⟩
/-- ODN_FAB_STATUS.NRANK (R509). -/
def ODN_FAB_STATUS_NRANK : Fld := ⟨0x600010, 0, 16, 16⟩
/-- ODN_FAB_STATUS.SELF (R509). -/
def ODN_FAB_STATUS_SELF : Fld := ⟨0x600010, 0, 32, 16⟩
/-- ODN_RT_DIGEST.DIGEST (R509). -/
def ODN_RT_DIGEST_DIGEST : Fld := ⟨0x600018, 0, 0, 64⟩
/-- ODN_ERR.CODE (R509). -/
def ODN_ERR_CODE : Fld := ⟨0x600020, 0, 0, 16⟩
/-- ODN_ERR.PORT (R509). -/
def ODN_ERR_PORT : Fld := ⟨0x600020, 0, 16, 5⟩
/-- ODN_ERR.VALID (R509). -/
def ODN_ERR_VALID : Fld := ⟨0x600020, 0, 32, 1⟩
/-- ODN_RANK_CTL.RANK (R509). -/
def ODN_RANK_CTL_RANK : Fld := ⟨0x600028, 0, 0, 16⟩
/-- ODN_RANK_CTL.DOWN (R509). -/
def ODN_RANK_CTL_DOWN : Fld := ⟨0x600028, 0, 16, 1⟩
/-- ODN_LINK_CTL.ACKTO (R509). -/
def ODN_LINK_CTL_ACKTO : Fld := ⟨0x600030, 0x4E20008007D, 0, 16⟩
/-- ODN_LINK_CTL.RETRY (R509). -/
def ODN_LINK_CTL_RETRY : Fld := ⟨0x600030, 0x4E20008007D, 16, 4⟩
/-- ODN_LINK_CTL.LOSSTO (R509). -/
def ODN_LINK_CTL_LOSSTO : Fld := ⟨0x600030, 0x4E20008007D, 32, 16⟩
/-- ODN_FLAGS.flags (R509). -/
def ODN_FLAGS_flags : Fld := ⟨0x600038, 0, 0, 14⟩
/-- ODN_PORT_STAT.STATE (R509). -/
def ODN_PORT_STAT_STATE (n : Nat) : Fld := ⟨0x601000 + 0x40 * n, 0, 0, 3⟩
/-- ODN_PORT_STAT.CORD (R509). -/
def ODN_PORT_STAT_CORD (n : Nat) : Fld := ⟨0x601000 + 0x40 * n, 0, 3, 1⟩
/-- ODN_PORT_STAT.PEERPORT (R509). -/
def ODN_PORT_STAT_PEERPORT (n : Nat) : Fld := ⟨0x601000 + 0x40 * n, 0, 8, 4⟩
/-- ODN_PORT_STAT.PEERRANK (R509). -/
def ODN_PORT_STAT_PEERRANK (n : Nat) : Fld := ⟨0x601000 + 0x40 * n, 0, 16, 16⟩
/-- ODN_PORT_CTL.RETRAIN (R509). -/
def ODN_PORT_CTL_RETRAIN (n : Nat) : Fld := ⟨0x601008 + 0x40 * n, 0, 0, 1⟩
/-- ODN_PORT_CTL.DISABLE (R509). -/
def ODN_PORT_CTL_DISABLE (n : Nat) : Fld := ⟨0x601008 + 0x40 * n, 0, 1, 1⟩
/-- ODN_PORT_FECCE.COUNT (R509). -/
def ODN_PORT_FECCE_COUNT (n : Nat) : Fld := ⟨0x601010 + 0x40 * n, 0, 0, 64⟩
/-- ODN_PORT_FECUE.COUNT (R509). -/
def ODN_PORT_FECUE_COUNT (n : Nat) : Fld := ⟨0x601018 + 0x40 * n, 0, 0, 64⟩
/-- ODN_PORT_RESEND.COUNT (R509). -/
def ODN_PORT_RESEND_COUNT (n : Nat) : Fld := ⟨0x601020 + 0x40 * n, 0, 0, 64⟩
/-- ODN_PORT_TXB.COUNT (R509). -/
def ODN_PORT_TXB_COUNT (n : Nat) : Fld := ⟨0x601028 + 0x40 * n, 0, 0, 64⟩
/-- ODN_PORT_RXB.COUNT (R509). -/
def ODN_PORT_RXB_COUNT (n : Nat) : Fld := ⟨0x601030 + 0x40 * n, 0, 0, 64⟩
/-- PAIR_STATUS.STATE (R510). -/
def PAIR_STATUS_STATE : Fld := ⟨0x600800, 0, 0, 2⟩
/-- PAIR_STATUS.PORTS (R510). -/
def PAIR_STATUS_PORTS : Fld := ⟨0x600800, 0, 2, 4⟩
/-- PAIR_STATUS.MODE (R510). -/
def PAIR_STATUS_MODE : Fld := ⟨0x600800, 0, 6, 2⟩
/-- PAIR_STATUS.ROLE (R510). -/
def PAIR_STATUS_ROLE : Fld := ⟨0x600800, 0, 8, 1⟩
/-- PAIR_STATUS.MODEMISMATCH (R510). -/
def PAIR_STATUS_MODEMISMATCH : Fld := ⟨0x600800, 0, 9, 1⟩
/-- PAIR_STATUS.DIVERGED (R510). -/
def PAIR_STATUS_DIVERGED : Fld := ⟨0x600800, 0, 10, 1⟩
/-- PAIR_CTL.MODE (R510). -/
def PAIR_CTL_MODE : Fld := ⟨0x600808, 0xBEBC2000000001, 0, 2⟩
/-- PAIR_CTL.RETRAIN (R510). -/
def PAIR_CTL_RETRAIN : Fld := ⟨0x600808, 0xBEBC2000000001, 2, 1⟩
/-- PAIR_CTL.DTIMEOUT (R510). -/
def PAIR_CTL_DTIMEOUT : Fld := ⟨0x600808, 0xBEBC2000000001, 32, 32⟩
/-- PAIR_ID.ID (R510). -/
def PAIR_ID_ID : Fld := ⟨0x600810, 0, 0, 16⟩
/-- PAIR_PEER.SERIAL (R510). -/
def PAIR_PEER_SERIAL : Fld := ⟨0x600818, 0, 0, 64⟩
/-- PAIR_DIGEST.DIGEST (R510). -/
def PAIR_DIGEST_DIGEST : Fld := ⟨0x600820, 0, 0, 64⟩
/-- PAIR_PDIGEST.DIGEST (R510). -/
def PAIR_PDIGEST_DIGEST : Fld := ⟨0x600828, 0, 0, 64⟩
/-- PAIR_DSTEP.STEP (R510). -/
def PAIR_DSTEP_STEP : Fld := ⟨0x600830, 0, 0, 64⟩
/-- HIF_LINK.SPEED (R535). -/
def HIF_LINK_SPEED : Fld := ⟨0x100000, 0, 0, 4⟩
/-- HIF_LINK.WIDTH (R535). -/
def HIF_LINK_WIDTH : Fld := ⟨0x100000, 0, 4, 5⟩
/-- HIF_LINK.FLIT (R535). -/
def HIF_LINK_FLIT : Fld := ⟨0x100000, 0, 9, 1⟩
/-- HIF_LINK.DEGRADED (R535). -/
def HIF_LINK_DEGRADED : Fld := ⟨0x100000, 0, 10, 1⟩
/-- HIF_LINK.UP (R535). -/
def HIF_LINK_UP : Fld := ⟨0x100000, 0, 11, 1⟩
/-- HIF_BADACC.OFFSET (R535). -/
def HIF_BADACC_OFFSET : Fld := ⟨0x100008, 0, 0, 26⟩
/-- HIF_BADACC.BAR (R535). -/
def HIF_BADACC_BAR : Fld := ⟨0x100008, 0, 26, 2⟩
/-- HIF_BADACC.SIZE (R535). -/
def HIF_BADACC_SIZE : Fld := ⟨0x100008, 0, 28, 4⟩
/-- HIF_BADACC.WRITE (R535). -/
def HIF_BADACC_WRITE : Fld := ⟨0x100008, 0, 32, 1⟩
/-- HIF_BADACC.VALID (R535). -/
def HIF_BADACC_VALID : Fld := ⟨0x100008, 0, 33, 1⟩
/-- HIF_BADCNT.COUNT (R535). -/
def HIF_BADCNT_COUNT : Fld := ⟨0x100010, 0, 0, 64⟩
/-- HIF_HWIN_BASE.BASE (R535). -/
def HIF_HWIN_BASE_BASE : Fld := ⟨0x100018, 0, 12, 52⟩
/-- HIF_B4_STATUS.LOG2SIZE (R535). -/
def HIF_B4_STATUS_LOG2SIZE : Fld := ⟨0x100020, 0x1E24, 0, 6⟩
/-- HIF_B4_STATUS.LOG2SEG (R535). -/
def HIF_B4_STATUS_LOG2SEG : Fld := ⟨0x100020, 0x1E24, 8, 6⟩
/-- HIF_TXB.COUNT (R535). -/
def HIF_TXB_COUNT : Fld := ⟨0x100028, 0, 0, 64⟩
/-- HIF_RXB.COUNT (R535). -/
def HIF_RXB_COUNT : Fld := ⟨0x100030, 0, 0, 64⟩
/-- HIF_RCV_CTL.GO (R535). -/
def HIF_RCV_CTL_GO : Fld := ⟨0x100040, 0, 0, 1⟩
/-- HIF_RCV_LEN.BYTES (R535). -/
def HIF_RCV_LEN_BYTES : Fld := ⟨0x100048, 0, 0, 29⟩
/-- HIF_RCV_STAT.STATE (R535). -/
def HIF_RCV_STAT_STATE : Fld := ⟨0x100050, 0, 0, 2⟩
/-- HIF_RCV_STAT.CODE (R535). -/
def HIF_RCV_STAT_CODE : Fld := ⟨0x100050, 0, 16, 16⟩
/-- HIF_B4_SEG.EN (R535). -/
def HIF_B4_SEG_EN (n : Nat) : Fld := ⟨0x100200 + 0x8 * n, (1 + 0x40000000 * n), 0, 1⟩
/-- HIF_B4_SEG.BASE (R535). -/
def HIF_B4_SEG_BASE (n : Nat) : Fld := ⟨0x100200 + 0x8 * n, (1 + 0x40000000 * n), 28, 20⟩
/-- SEC_STATUS.OPSESS (R558). -/
def SEC_STATUS_OPSESS : Fld := ⟨0x700000, 0, 0, 1⟩
/-- SEC_STATUS.INSTSESS (R558). -/
def SEC_STATUS_INSTSESS : Fld := ⟨0x700000, 0, 1, 1⟩
/-- SEC_STATUS.MAKSESS (R558). -/
def SEC_STATUS_MAKSESS : Fld := ⟨0x700000, 0, 2, 1⟩
/-- SEC_STATUS.UNCLAIMED (R558). -/
def SEC_STATUS_UNCLAIMED : Fld := ⟨0x700000, 0, 3, 1⟩
/-- SEC_STATUS.TAINT (R558). -/
def SEC_STATUS_TAINT : Fld := ⟨0x700000, 0, 4, 1⟩
/-- SEC_STATUS.AUDITFAIL (R558). -/
def SEC_STATUS_AUDITFAIL : Fld := ⟨0x700000, 0, 5, 1⟩
/-- SEC_STATUS.FEEDMISMATCH (R558). -/
def SEC_STATUS_FEEDMISMATCH : Fld := ⟨0x700000, 0, 6, 1⟩
/-- SEC_STATUS.RECOVERY (R558). -/
def SEC_STATUS_RECOVERY : Fld := ⟨0x700000, 0, 7, 1⟩
/-- SEC_NONCE.NONCE (R558). -/
def SEC_NONCE_NONCE (n : Nat) : Fld := ⟨0x700008 + 0x8 * n, 0, 0, 64⟩
/-- SEC_MB_CTL.GO (R558). -/
def SEC_MB_CTL_GO : Fld := ⟨0x700028, 0, 0, 1⟩
/-- SEC_MB_RESULT.CODE (R558). -/
def SEC_MB_RESULT_CODE : Fld := ⟨0x700030, 0, 0, 16⟩
/-- SEC_MB_RESULT.DONE (R558). -/
def SEC_MB_RESULT_DONE : Fld := ⟨0x700030, 0, 16, 1⟩
/-- SEC_MB_RESULT.BUSY (R558). -/
def SEC_MB_RESULT_BUSY : Fld := ⟨0x700030, 0, 17, 1⟩
/-- SEC_DBG_LEVEL.LEVEL (R558). -/
def SEC_DBG_LEVEL_LEVEL : Fld := ⟨0x700038, 0, 0, 2⟩
/-- SEC_GUARD_LOCK.LOCK (R558). -/
def SEC_GUARD_LOCK_LOCK : Fld := ⟨0x700040, 0, 0, 1⟩
/-- SEC_GUARD_POLICY.SIGNED_BS (R558). -/
def SEC_GUARD_POLICY_SIGNED_BS : Fld := ⟨0x700048, 0, 0, 1⟩
/-- SEC_GUARD_POLICY.OPAUTH (R558). -/
def SEC_GUARD_POLICY_OPAUTH : Fld := ⟨0x700048, 0, 1, 1⟩
/-- SEC_GUARD_POLICY.B4OFF (R558). -/
def SEC_GUARD_POLICY_B4OFF : Fld := ⟨0x700048, 0, 2, 1⟩
/-- SEC_GUARD_POLICY.DBGMAX (R558). -/
def SEC_GUARD_POLICY_DBGMAX : Fld := ⟨0x700048, 0, 4, 2⟩
/-- SEC_GUARD_POLICY.PCAP (R558). -/
def SEC_GUARD_POLICY_PCAP : Fld := ⟨0x700048, 0, 32, 16⟩
/-- SEC_GUARD_FEED.FEED (R558). -/
def SEC_GUARD_FEED_FEED : Fld := ⟨0x700050, 0, 0, 4⟩
/-- SEC_GUARD_FEED.FEXP_EN (R558). -/
def SEC_GUARD_FEED_FEXP_EN : Fld := ⟨0x700050, 0, 4, 1⟩
/-- SEC_AUDIT_CNT.COUNT (R558). -/
def SEC_AUDIT_CNT_COUNT : Fld := ⟨0x700058, 0, 0, 64⟩
/-- SEC_AUDIT_HEAD.HASH (R558). -/
def SEC_AUDIT_HEAD_HASH (n : Nat) : Fld := ⟨0x700060 + 0x8 * n, 0, 0, 64⟩
/-- SEC_VIOL_CNT.COUNT (R558). -/
def SEC_VIOL_CNT_COUNT : Fld := ⟨0x700080, 0, 0, 64⟩
/-- SEC_FAILS.OPFAIL (R558). -/
def SEC_FAILS_OPFAIL : Fld := ⟨0x700088, 0, 0, 4⟩
/-- SEC_FAILS.INSTFAIL (R558). -/
def SEC_FAILS_INSTFAIL : Fld := ⟨0x700088, 0, 4, 4⟩
/-- SEC_FAILS.MAKFAIL (R558). -/
def SEC_FAILS_MAKFAIL : Fld := ⟨0x700088, 0, 8, 4⟩
/-- SEC_FAILS.LOCKOUT (R558). -/
def SEC_FAILS_LOCKOUT : Fld := ⟨0x700088, 0, 32, 32⟩
/-- SEC_SVN.RUNNING (R558). -/
def SEC_SVN_RUNNING : Fld := ⟨0x700090, 0, 0, 6⟩
/-- SEC_SVN.MINIMUM (R558). -/
def SEC_SVN_MINIMUM : Fld := ⟨0x700090, 0, 8, 6⟩
/-- SEC_BOUNDS.PCAP_MIN (R558). -/
def SEC_BOUNDS_PCAP_MIN : Fld := ⟨0x700098, 0xBB80834, 0, 16⟩
/-- SEC_BOUNDS.PCAP_MAX (R558). -/
def SEC_BOUNDS_PCAP_MAX : Fld := ⟨0x700098, 0xBB80834, 16, 16⟩
/-- SEC_MB_BUF.DATA (R558). -/
def SEC_MB_BUF_DATA (n : Nat) : Fld := ⟨0x701000 + 0x8 * n, 0, 0, 64⟩
/-- PWR_STATUS.PSTATE (R584). -/
def PWR_STATUS_PSTATE : Fld := ⟨0x800000, 0, 0, 3⟩
/-- PWR_STATUS.STEP (R584). -/
def PWR_STATUS_STEP : Fld := ⟨0x800000, 0, 3, 4⟩
/-- PWR_STATUS.READY (R584). -/
def PWR_STATUS_READY : Fld := ⟨0x800000, 0, 7, 1⟩
/-- PWR_STATUS.HALTED (R584). -/
def PWR_STATUS_HALTED : Fld := ⟨0x800000, 0, 8, 1⟩
/-- PWR_STATUS.CAPPED (R584). -/
def PWR_STATUS_CAPPED : Fld := ⟨0x800000, 0, 9, 1⟩
/-- PWR_STATUS.THROTTLE (R584). -/
def PWR_STATUS_THROTTLE : Fld := ⟨0x800000, 0, 10, 1⟩
/-- PWR_STATUS.FLOOR (R584). -/
def PWR_STATUS_FLOOR : Fld := ⟨0x800000, 0, 11, 1⟩
/-- PWR_STATUS.PENDING (R584). -/
def PWR_STATUS_PENDING : Fld := ⟨0x800000, 0, 12, 1⟩
/-- PWR_CTL.TARGET (R584). -/
def PWR_CTL_TARGET : Fld := ⟨0x800008, 0, 0, 3⟩
/-- PWR_RESET.MODULE (R584). -/
def PWR_RESET_MODULE : Fld := ⟨0x800010, 0, 0, 1⟩
/-- PWR_RESET.WARM (R584). -/
def PWR_RESET_WARM : Fld := ⟨0x800010, 0, 1, 1⟩
/-- PWR_KILN_RST.KILNS (R584). -/
def PWR_KILN_RST_KILNS : Fld := ⟨0x800018, 0, 0, 32⟩
/-- PWR_QUAR.KILNS (R584). -/
def PWR_QUAR_KILNS : Fld := ⟨0x800020, 0, 0, 32⟩
/-- PWR_QCAUSE.CAUSE (R584). -/
def PWR_QCAUSE_CAUSE : Fld := ⟨0x800028, 0, 0, 64⟩
/-- PWR_CAP.CAP (R584). -/
def PWR_CAP_CAP : Fld := ⟨0x800030, 0xBB8, 0, 16⟩
/-- PWR_VOLT.TARGET (R584). -/
def PWR_VOLT_TARGET : Fld := ⟨0x800038, 0x3840000, 0, 16⟩
/-- PWR_VOLT.VMAX (R584). -/
def PWR_VOLT_VMAX : Fld := ⟨0x800038, 0x3840000, 16, 16⟩
/-- PWR_INPUT.VIN (R584). -/
def PWR_INPUT_VIN : Fld := ⟨0x800040, 0, 0, 16⟩
/-- PWR_INPUT.PAVG (R584). -/
def PWR_INPUT_PAVG : Fld := ⟨0x800040, 0, 16, 16⟩
/-- PWR_THERM.TJ (R584). -/
def PWR_THERM_TJ : Fld := ⟨0x800048, 0, 0, 8⟩
/-- PWR_THERM.THBM (R584). -/
def PWR_THERM_THBM : Fld := ⟨0x800048, 0, 8, 8⟩
/-- PWR_THERM.TIN (R584). -/
def PWR_THERM_TIN : Fld := ⟨0x800048, 0, 16, 8⟩
/-- PWR_THERM.TOUT (R584). -/
def PWR_THERM_TOUT : Fld := ⟨0x800048, 0, 24, 8⟩
/-- PWR_ERR.CODE (R584). -/
def PWR_ERR_CODE : Fld := ⟨0x800050, 0, 0, 16⟩
/-- PWR_ERR.STEP (R584). -/
def PWR_ERR_STEP : Fld := ⟨0x800050, 0, 16, 4⟩
/-- PWR_ERR.VALID (R584). -/
def PWR_ERR_VALID : Fld := ⟨0x800050, 0, 32, 1⟩
/-- PWR_READY.STOKE (R584). -/
def PWR_READY_STOKE : Fld := ⟨0x800058, 0, 0, 64⟩
/-- PWR_WDOG.THRESH (R584). -/
def PWR_WDOG_THRESH : Fld := ⟨0x800060, 0x30D4, 0, 32⟩
/-- DBG_STATUS.LEVEL (R598). -/
def DBG_STATUS_LEVEL : Fld := ⟨0x900000, 0, 0, 2⟩
/-- DBG_STATUS.ARMED (R598). -/
def DBG_STATUS_ARMED : Fld := ⟨0x900000, 0, 16, 16⟩
/-- DBG_ERR.CODE (R598). -/
def DBG_ERR_CODE : Fld := ⟨0x900008, 0, 0, 16⟩
/-- DBG_ERR.WINDOW (R598). -/
def DBG_ERR_WINDOW : Fld := ⟨0x900008, 0, 16, 4⟩
/-- DBG_ERR.VALID (R598). -/
def DBG_ERR_VALID : Fld := ⟨0x900008, 0, 32, 1⟩
/-- DBG_PMC_CTL.FREEZE (R598). -/
def DBG_PMC_CTL_FREEZE : Fld := ⟨0x900010, 0, 0, 1⟩
/-- DBG_PMC_CTL.CLEAR (R598). -/
def DBG_PMC_CTL_CLEAR : Fld := ⟨0x900010, 0, 1, 1⟩
/-- DBG_TEL_CTL.EN (R598). -/
def DBG_TEL_CTL_EN : Fld := ⟨0x900018, 0x30D400000000, 0, 1⟩
/-- DBG_TEL_CTL.WINDOW (R598). -/
def DBG_TEL_CTL_WINDOW : Fld := ⟨0x900018, 0x30D400000000, 1, 4⟩
/-- DBG_TEL_CTL.PERIOD (R598). -/
def DBG_TEL_CTL_PERIOD : Fld := ⟨0x900018, 0x30D400000000, 32, 32⟩
/-- DBG_ELOG_CNT.COUNT (R598). -/
def DBG_ELOG_CNT_COUNT : Fld := ⟨0x900020, 0, 0, 64⟩
/-- DBG_ELOG_IDX.INDEX (R598). -/
def DBG_ELOG_IDX_INDEX : Fld := ⟨0x900028, 0, 0, 64⟩
/-- DBG_ELOG_DATA.DATA (R598). -/
def DBG_ELOG_DATA_DATA (n : Nat) : Fld := ⟨0x900030 + 0x8 * n, 0, 0, 64⟩
/-- DBG_ELOG_LOST.COUNT (R598). -/
def DBG_ELOG_LOST_COUNT : Fld := ⟨0x900070, 0, 0, 64⟩
/-- DBG_PACE.LAST (R598). -/
def DBG_PACE_LAST (n : Nat) : Fld := ⟨0x900100 + 0x8 * n, 0, 0, 32⟩
/-- DBG_PACE.LOW (R598). -/
def DBG_PACE_LOW (n : Nat) : Fld := ⟨0x900100 + 0x8 * n, 0, 32, 32⟩
/-- DBG_PMC_SEL.EVENT (R598). -/
def DBG_PMC_SEL_EVENT (n : Nat) : Fld := ⟨0x900200 + 0x10 * n, 0, 0, 8⟩
/-- DBG_PMC_SEL.KILNS (R598). -/
def DBG_PMC_SEL_KILNS (n : Nat) : Fld := ⟨0x900200 + 0x10 * n, 0, 32, 32⟩
/-- DBG_PMC_CNT.COUNT (R598). -/
def DBG_PMC_CNT_COUNT (n : Nat) : Fld := ⟨0x900208 + 0x10 * n, 0, 0, 64⟩
/-- DBG_TW_CTL.EN (R598). -/
def DBG_TW_CTL_EN (n : Nat) : Fld := ⟨0x901000 + 0x40 * n, 0xFFFF0000, 0, 1⟩
/-- DBG_TW_CTL.STOP (R598). -/
def DBG_TW_CTL_STOP (n : Nat) : Fld := ⟨0x901000 + 0x40 * n, 0xFFFF0000, 1, 1⟩
/-- DBG_TW_CTL.FULL (R598). -/
def DBG_TW_CTL_FULL (n : Nat) : Fld := ⟨0x901000 + 0x40 * n, 0xFFFF0000, 2, 1⟩
/-- DBG_TW_CTL.SOURCE (R598). -/
def DBG_TW_CTL_SOURCE (n : Nat) : Fld := ⟨0x901000 + 0x40 * n, 0xFFFF0000, 3, 4⟩
/-- DBG_TW_CTL.CLASSMASK (R598). -/
def DBG_TW_CTL_CLASSMASK (n : Nat) : Fld := ⟨0x901000 + 0x40 * n, 0xFFFF0000, 7, 9⟩
/-- DBG_TW_CTL.UNIT (R598). -/
def DBG_TW_CTL_UNIT (n : Nat) : Fld := ⟨0x901000 + 0x40 * n, 0xFFFF0000, 16, 16⟩
/-- DBG_TW_BASE.ADDR (R598). -/
def DBG_TW_BASE_ADDR (n : Nat) : Fld := ⟨0x901008 + 0x40 * n, 0, 6, 42⟩
/-- DBG_TW_SIZE.LOG2SIZE (R598). -/
def DBG_TW_SIZE_LOG2SIZE (n : Nat) : Fld := ⟨0x901010 + 0x40 * n, 0, 0, 6⟩
/-- DBG_TW_WPTR.COUNT (R598). -/
def DBG_TW_WPTR_COUNT (n : Nat) : Fld := ⟨0x901018 + 0x40 * n, 0, 0, 64⟩
/-- DBG_TW_DROPS.COUNT (R598). -/
def DBG_TW_DROPS_COUNT (n : Nat) : Fld := ⟨0x901020 + 0x40 * n, 0, 0, 64⟩
/-- MC_STRAPS.FEED (R616). -/
def MC_STRAPS_FEED : Fld := ⟨0x10, 0, 0, 4⟩
/-- MC_STRAPS.SLOT (R616). -/
def MC_STRAPS_SLOT : Fld := ⟨0x10, 0, 4, 6⟩
/-- MC_STRAPS.ROLE (R616). -/
def MC_STRAPS_ROLE : Fld := ⟨0x10, 0, 10, 1⟩
/-- MC_STRAPS.VALID (R616). -/
def MC_STRAPS_VALID : Fld := ⟨0x10, 0, 11, 1⟩
/-- MC_FP_IN.LEVEL (R616). -/
def MC_FP_IN_LEVEL : Fld := ⟨0x18, 0, 0, 16⟩
/-- MC_FP_OUT.DRIVE (R616). -/
def MC_FP_OUT_DRIVE : Fld := ⟨0x20, 0, 0, 16⟩
/-- MC_FP_OUT.ACTIVE (R616). -/
def MC_FP_OUT_ACTIVE : Fld := ⟨0x20, 0, 16, 16⟩

end Reg

/-- Part 0 of the register tables. -/
def regTable0 : List RegSpec := [
  /- HTH_OPD_BASE -/ ⟨0x1010040, [(8, 0x200000), (4, 0x40000), (12, 0x2000)], 0x0, [⟨12, 11, .rw, false⟩]⟩,
  /- HTH_ODESC_BASE -/ ⟨0x1010048, [(8, 0x200000), (4, 0x40000), (12, 0x2000)], 0x0, [⟨12, 11, .rw, false⟩]⟩,
  /- HTH_ISSUE -/ ⟨0x1010050, [(8, 0x200000), (4, 0x40000), (12, 0x2000)], 0x0, [⟨0, 48, .ro, false⟩]⟩,
  /- HTH_ERR -/ ⟨0x1010058, [(8, 0x200000), (4, 0x40000), (12, 0x2000)], 0x0, [⟨0, 16, .ro, false⟩, ⟨16, 16, .ro, false⟩, ⟨32, 3, .ro, false⟩, ⟨35, 1, .ro, false⟩, ⟨36, 1, .w1cTop 36, false⟩]⟩,
  /- EMB_STATUS -/ ⟨0x1010400, [(8, 0x200000), (4, 0x40000), (12, 0x2000), (8, 0x100)], 0x0, [⟨0, 1, .ro, false⟩, ⟨1, 5, .ro, false⟩, ⟨6, 1, .ro, false⟩, ⟨8, 8, .ro, false⟩]⟩,
  /- EMB_FLAGS -/ ⟨0x1010408, [(8, 0x200000), (4, 0x40000), (12, 0x2000), (8, 0x100)], 0x0, [⟨0, 14, .w1c, false⟩]⟩,
  /- EMB_OFLAGS -/ ⟨0x1010410, [(8, 0x200000), (4, 0x40000), (12, 0x2000), (8, 0x100)], 0x0, [⟨0, 14, .w1c, false⟩]⟩,
  /- EMB_ERR -/ ⟨0x1010418, [(8, 0x200000), (4, 0x40000), (12, 0x2000), (8, 0x100)], 0x0, [⟨0, 16, .ro, false⟩, ⟨16, 16, .ro, false⟩, ⟨32, 1, .w1cTop 32, false⟩]⟩,
  /- EMB_FIC_0 -/ ⟨0x1010420, [(8, 0x200000), (4, 0x40000), (12, 0x2000), (8, 0x100)], 0x0, [⟨0, 1, .w1cTop 64, false⟩, ⟨1, 3, .ro, false⟩, ⟨4, 16, .ro, false⟩, ⟨20, 12, .ro, false⟩, ⟨32, 8, .ro, false⟩, ⟨40, 6, .ro, false⟩, ⟨46, 8, .ro, false⟩]⟩,
  /- EMB_FIC_1 -/ ⟨0x1010428, [(8, 0x200000), (4, 0x40000), (12, 0x2000), (8, 0x100)], 0x0, [⟨0, 48, .ro, false⟩]⟩,
  /- EMB_FIC_2 -/ ⟨0x1010430, [(8, 0x200000), (4, 0x40000), (12, 0x2000), (8, 0x100)], 0x0, [⟨0, 16, .ro, false⟩, ⟨16, 16, .ro, false⟩, ⟨32, 4, .ro, false⟩, ⟨36, 4, .ro, false⟩]⟩,
  /- EMB_PRODUCTS -/ ⟨0x1010438, [(8, 0x200000), (4, 0x40000), (12, 0x2000), (8, 0x100)], 0x0, [⟨0, 64, .ro, false⟩]⟩,
  /- EMB_SKIPPED -/ ⟨0x1010440, [(8, 0x200000), (4, 0x40000), (12, 0x2000), (8, 0x100)], 0x0, [⟨0, 64, .ro, false⟩]⟩,
  /- EMB_DBG_CTL -/ ⟨0x1010448, [(8, 0x200000), (4, 0x40000), (12, 0x2000), (8, 0x100)], 0x0, [⟨0, 8, .rw, false⟩, ⟨8, 6, .rw, false⟩, ⟨14, 4, .rw, false⟩]⟩,
  /- EMB_DBG_DATA -/ ⟨0x1010450, [(8, 0x200000), (4, 0x40000), (12, 0x2000), (8, 0x100)], 0x0, [⟨0, 64, .ro, false⟩]⟩,
  /- HTH_VCTL -/ ⟨0x1010C00, [(8, 0x200000), (4, 0x40000), (12, 0x2000)], 0x0, [⟨0, 1, .rw, false⟩]⟩,
  /- HTH_VFLAGS -/ ⟨0x1010C08, [(8, 0x200000), (4, 0x40000), (12, 0x2000)], 0x0, [⟨0, 14, .w1c, false⟩]⟩,
  /- HTH_VIEEE -/ ⟨0x1010C10, [(8, 0x200000), (4, 0x40000), (12, 0x2000)], 0x0, [⟨0, 1, .w1c, false⟩, ⟨1, 1, .w1c, false⟩, ⟨2, 1, .w1c, false⟩, ⟨3, 1, .w1c, false⟩, ⟨4, 1, .w1c, false⟩]⟩,
  /- HTH_VSTATUS -/ ⟨0x1010C18, [(8, 0x200000), (4, 0x40000), (12, 0x2000)], 0x0, [⟨0, 1, .ro, false⟩, ⟨1, 5, .ro, false⟩, ⟨6, 1, .ro, false⟩]⟩,
  /- HTH_VERR -/ ⟨0x1010C20, [(8, 0x200000), (4, 0x40000), (12, 0x2000)], 0x0, [⟨0, 16, .ro, false⟩, ⟨16, 16, .ro, false⟩, ⟨32, 1, .w1cTop 32, false⟩]⟩
]

/-- Part 1 of the register tables. -/
def regTable1 : List RegSpec := [
  /- HTH_VOPS -/ ⟨0x1010C28, [(8, 0x200000), (4, 0x40000), (12, 0x2000)], 0x0, [⟨0, 64, .ro, false⟩]⟩,
  /- HTH_VEVAL -/ ⟨0x1010C30, [(8, 0x200000), (4, 0x40000), (12, 0x2000)], 0x0, [⟨0, 64, .ro, false⟩]⟩,
  /- HTH_VWAIT -/ ⟨0x1010C38, [(8, 0x200000), (4, 0x40000), (12, 0x2000)], 0x0, [⟨0, 64, .ro, false⟩]⟩,
  /- HTH_CB_LIVE -/ ⟨0x1010060, [(8, 0x200000), (4, 0x40000), (12, 0x2000)], 0x0, [⟨0, 64, .ro, false⟩]⟩,
  /- HTH_FN_LIVE -/ ⟨0x1010068, [(8, 0x200000), (4, 0x40000), (12, 0x2000)], 0x0, [⟨0, 32, .ro, false⟩, ⟨32, 32, .ro, false⟩]⟩,
  /- HTH_TBL_STATUS -/ ⟨0x1010070, [(8, 0x200000), (4, 0x40000), (12, 0x2000)], 0x0, [⟨0, 1, .ro, false⟩, ⟨1, 1, .ro, false⟩, ⟨2, 6, .ro, false⟩, ⟨16, 9, .ro, false⟩]⟩,
  /- HTH_TBL_REFS -/ ⟨0x1010078, [(8, 0x200000), (4, 0x40000), (12, 0x2000)], 0x0, [⟨0, 16, .ro, false⟩, ⟨16, 16, .ro, false⟩]⟩,
  /- KLN_GATE_CTL -/ ⟨0x1000400, [(8, 0x200000), (4, 0x40000)], 0xC3500, [⟨0, 1, .rw, false⟩, ⟨8, 32, .rw, false⟩]⟩,
  /- KLN_GATE_STAT -/ ⟨0x1000408, [(8, 0x200000), (4, 0x40000)], 0x0, [⟨0, 1, .ro, false⟩, ⟨1, 1, .ro, false⟩, ⟨2, 1, .ro, false⟩, ⟨32, 32, .ro, false⟩]⟩,
  /- KLN_GATE_CNT -/ ⟨0x1000410, [(8, 0x200000), (4, 0x40000)], 0x0, [⟨0, 64, .ro, false⟩]⟩,
  /- KLN_RT_STATUS -/ ⟨0x1000418, [(8, 0x200000), (4, 0x40000)], 0x0, [⟨0, 1, .ro, false⟩, ⟨1, 1, .ro, false⟩, ⟨16, 14, .ro, false⟩]⟩,
  /- KLN_DSP_ERR -/ ⟨0x1000420, [(8, 0x200000), (4, 0x40000)], 0x0, [⟨0, 16, .ro, false⟩, ⟨16, 16, .ro, false⟩, ⟨32, 1, .w1cTop 32, false⟩]⟩,
  /- KLN_DSP_CNT -/ ⟨0x1000428, [(8, 0x200000), (4, 0x40000)], 0x0, [⟨0, 64, .ro, false⟩]⟩,
  /- ING_STATUS -/ ⟨0x300000, [], 0x0, [⟨0, 7, .ro, false⟩, ⟨8, 6, .ro, false⟩]⟩,
  /- ING_ERR -/ ⟨0x300008, [], 0x0, [⟨0, 16, .ro, false⟩, ⟨16, 5, .ro, false⟩, ⟨32, 1, .w1cTop 21, false⟩]⟩,
  /- ING_TIMEOUT -/ ⟨0x300010, [], 0x300BEBC20, [⟨0, 32, .rw, false⟩, ⟨32, 4, .rw, false⟩]⟩,
  /- ING_DLOG_BASE -/ ⟨0x300018, [], 0x0, [⟨6, 42, .rw, false⟩]⟩,
  /- ING_DLOG_CNT -/ ⟨0x300020, [], 0x0, [⟨0, 64, .ro, false⟩]⟩,
  /- ING_CRC_CNT -/ ⟨0x300028, [], 0x0, [⟨0, 64, .ro, false⟩]⟩,
  /- ING_STALE_CNT -/ ⟨0x300030, [], 0x0, [⟨0, 64, .ro, false⟩]⟩
]

/-- Part 2 of the register tables. -/
def regTable2 : List RegSpec := [
  /- ING_KR_BASE -/ ⟨0x301000, [(32, 0x40)], 0x0, [⟨6, 42, .rw, false⟩]⟩,
  /- ING_KR_CTL -/ ⟨0x301008, [(32, 0x40)], 0x0, [⟨0, 6, .rw, false⟩, ⟨8, 1, .rw, false⟩, ⟨9, 1, .rw, false⟩]⟩,
  /- ING_KR_HEAD -/ ⟨0x301010, [(32, 0x40)], 0x0, [⟨0, 40, .ro, false⟩]⟩,
  /- ING_KR_TAIL -/ ⟨0x301018, [(32, 0x40)], 0x0, [⟨0, 40, .rw, false⟩]⟩,
  /- ING_DQ_BASE -/ ⟨0x301020, [(32, 0x40)], 0x0, [⟨6, 42, .rw, false⟩]⟩,
  /- ING_DQ_CTL -/ ⟨0x301028, [(32, 0x40)], 0x0, [⟨0, 5, .rw, false⟩, ⟨8, 1, .rw, false⟩]⟩,
  /- ING_DQ_TAIL -/ ⟨0x301030, [(32, 0x40)], 0x0, [⟨0, 32, .ro, false⟩]⟩,
  /- ING_DQ_HEAD -/ ⟨0x301038, [(32, 0x40)], 0x0, [⟨0, 32, .rw, false⟩]⟩,
  /- SPL_STATUS -/ ⟨0x303000, [(64, 0x20)], 0x0, [⟨0, 1, .ro, false⟩, ⟨1, 3, .ro, false⟩, ⟨32, 20, .ro, false⟩]⟩,
  /- SPL_FRAMES -/ ⟨0x303008, [(64, 0x20)], 0x0, [⟨0, 64, .ro, false⟩]⟩,
  /- SPL_ERRS -/ ⟨0x303010, [(64, 0x20)], 0x0, [⟨0, 64, .ro, false⟩]⟩,
  /- SPL_FLAGS -/ ⟨0x303018, [(64, 0x20)], 0x0, [⟨0, 14, .w1c, false⟩]⟩,
  /- RIK_STATUS -/ ⟨0x400000, [], 0x0, [⟨0, 1, .ro, false⟩, ⟨1, 1, .ro, false⟩, ⟨2, 1, .ro, false⟩, ⟨3, 1, .ro, false⟩]⟩,
  /- RIK_NEXT -/ ⟨0x400008, [], 0x0, [⟨0, 64, .ro, false⟩]⟩,
  /- RIK_READY -/ ⟨0x400010, [], 0x0, [⟨0, 4, .ro, false⟩]⟩,
  /- RIK_EVAL_POS -/ ⟨0x400018, [], 0x0, [⟨0, 64, .ro, false⟩]⟩,
  /- RIK_VALID -/ ⟨0x400020, [], 0x0, [⟨0, 21, .ro, false⟩, ⟨32, 21, .ro, false⟩]⟩,
  /- RIK_DRAWS -/ ⟨0x400028, [], 0x0, [⟨0, 64, .ro, false⟩]⟩,
  /- RIK_BIND0 -/ ⟨0x400100, [(16, 0x8)], 0x0, [⟨0, 64, .ro, false⟩]⟩,
  /- RIK_BIND1 -/ ⟨0x400180, [(16, 0x8)], 0x0, [⟨0, 64, .ro, false⟩]⟩
]

/-- Part 3 of the register tables. -/
def regTable3 : List RegSpec := [
  /- MEM_STATUS -/ ⟨0x500000, [], 0x0, [⟨0, 32, .ro, true⟩, ⟨32, 1, .ro, true⟩, ⟨33, 1, .ro, false⟩]⟩,
  /- MEM_ERR -/ ⟨0x500008, [], 0x0, [⟨0, 16, .ro, false⟩, ⟨16, 16, .ro, false⟩, ⟨32, 1, .w1cTop 32, false⟩]⟩,
  /- MEM_ELOG_BASE -/ ⟨0x500010, [], 0x0, [⟨6, 42, .rw, false⟩]⟩,
  /- MEM_ELOG_CNT -/ ⟨0x500018, [], 0x0, [⟨0, 64, .rws, true⟩]⟩,
  /- MEM_CE_CNT -/ ⟨0x500020, [], 0x0, [⟨0, 64, .rws, true⟩]⟩,
  /- MEM_UE_CNT -/ ⟨0x500028, [], 0x0, [⟨0, 64, .rws, true⟩]⟩,
  /- MEM_SCRUB_CTL -/ ⟨0x500030, [], 0x1518003, [⟨0, 1, .rw, false⟩, ⟨1, 1, .rw, false⟩, ⟨8, 24, .rw, false⟩]⟩,
  /- MEM_CE_THRESH -/ ⟨0x500038, [], 0x100, [⟨0, 32, .rw, false⟩]⟩,
  /- MEM_REGIONS -/ ⟨0x500040, [], 0x0, [⟨0, 15, .ro, false⟩]⟩,
  /- MEM_HBM_STAT -/ ⟨0x500100, [(32, 0x8)], 0x0, [⟨0, 1, .ro, true⟩, ⟨1, 2, .ro, true⟩, ⟨3, 1, .ro, true⟩, ⟨32, 32, .rws, true⟩]⟩,
  /- PEAT_STATUS -/ ⟨0x500400, [], 0x0, [⟨0, 2, .ro, true⟩, ⟨2, 1, .ro, true⟩, ⟨8, 8, .ro, true⟩, ⟨16, 16, .ro, true⟩, ⟨32, 3, .ro, true⟩]⟩,
  /- PEAT_SIZE -/ ⟨0x500408, [], 0x0, [⟨0, 45, .ro, true⟩]⟩,
  /- PEAT_CH -/ ⟨0x500480, [(24, 0x8)], 0x0, [⟨0, 1, .ro, true⟩, ⟨1, 1, .ro, true⟩, ⟨2, 1, .ro, true⟩, ⟨3, 1, .ro, true⟩, ⟨32, 32, .rws, true⟩]⟩,
  /- COL_CFG_STATUS -/ ⟨0x200800, [], 0x0, [⟨0, 1, .ro, false⟩, ⟨1, 1, .ro, false⟩, ⟨2, 1, .ro, false⟩, ⟨3, 1, .ro, false⟩, ⟨4, 3, .ro, false⟩, ⟨32, 32, .ro, false⟩]⟩,
  /- COL_CFG_ID -/ ⟨0x200808, [], 0x0, [⟨0, 64, .ro, false⟩]⟩,
  /- COL_CFG_CRC -/ ⟨0x200810, [], 0x0, [⟨0, 32, .ro, false⟩]⟩,
  /- COL_CFG_KILNS -/ ⟨0x200818, [], 0x0, [⟨0, 32, .ro, false⟩]⟩,
  /- COL_CFG_ERR -/ ⟨0x200820, [], 0x0, [⟨0, 16, .ro, false⟩, ⟨16, 12, .ro, false⟩, ⟨32, 1, .w1cTop 28, false⟩]⟩,
  /- COL_CFG_ERROFF -/ ⟨0x200828, [], 0x0, [⟨0, 40, .ro, false⟩]⟩,
  /- COL_CFG_CLAIM_A -/ ⟨0x200830, [], 0x0, [⟨0, 32, .ro, false⟩, ⟨32, 16, .ro, false⟩, ⟨48, 8, .ro, false⟩, ⟨56, 8, .ro, false⟩]⟩
]

/-- Part 4 of the register tables. -/
def regTable4 : List RegSpec := [
  /- COL_CFG_CLAIM_B -/ ⟨0x200838, [], 0x0, [⟨0, 64, .ro, false⟩]⟩,
  /- COL_CFG_DIGEST -/ ⟨0x200840, [(8, 0x8)], 0x0, [⟨0, 64, .ro, false⟩]⟩,
  /- COL_STATUS -/ ⟨0x200000, [], 0x0, [⟨0, 9, .ro, false⟩, ⟨9, 1, .ro, false⟩, ⟨10, 1, .ro, false⟩]⟩,
  /- COL_INFLIGHT -/ ⟨0x200008, [], 0x0, [⟨0, 17, .ro, false⟩]⟩,
  /- COL_STOKE -/ ⟨0x200010, [], 0x0, [⟨0, 64, .ro, true⟩]⟩,
  /- COL_EVT_BASE -/ ⟨0x200018, [], 0x0, [⟨6, 42, .rw, false⟩]⟩,
  /- COL_EVT_CNT -/ ⟨0x200020, [], 0x0, [⟨0, 64, .ro, false⟩]⟩,
  /- COL_EVT_CTL -/ ⟨0x200028, [], 0x0, [⟨0, 11, .rw, false⟩, ⟨11, 1, .rw, false⟩, ⟨13, 9, .rw, false⟩]⟩,
  /- COL_DIE_OPS -/ ⟨0x200040, [(8, 0x8)], 0x0, [⟨0, 14, .ro, false⟩]⟩,
  /- COL_SQ_BASE -/ ⟨0x201000, [(64, 0x40)], 0x0, [⟨6, 42, .rw, false⟩]⟩,
  /- COL_SQ_CTL -/ ⟨0x201008, [(64, 0x40)], 0x0, [⟨0, 5, .rw, false⟩, ⟨8, 1, .rw, false⟩, ⟨9, 1, .ro, false⟩, ⟨10, 1, .ro, false⟩, ⟨16, 6, .rw, false⟩]⟩,
  /- COL_SQ_HEAD -/ ⟨0x201010, [(64, 0x40)], 0x0, [⟨0, 32, .ro, false⟩]⟩,
  /- COL_SQ_TAIL -/ ⟨0x201018, [(64, 0x40)], 0x0, [⟨0, 32, .ro, false⟩]⟩,
  /- COL_CQ_BASE -/ ⟨0x201020, [(64, 0x40)], 0x0, [⟨6, 42, .rw, false⟩]⟩,
  /- COL_CQ_CTL -/ ⟨0x201028, [(64, 0x40)], 0x0, [⟨0, 5, .rw, false⟩, ⟨8, 1, .rw, false⟩, ⟨9, 1, .rw, false⟩, ⟨16, 11, .rw, false⟩]⟩,
  /- COL_CQ_TAIL -/ ⟨0x201030, [(64, 0x40)], 0x0, [⟨0, 32, .ro, false⟩]⟩,
  /- COL_CQ_HEAD -/ ⟨0x201038, [(64, 0x40)], 0x0, [⟨0, 32, .ro, false⟩]⟩,
  /- COL_STEP_STATUS -/ ⟨0x200400, [], 0x0, [⟨0, 3, .ro, false⟩, ⟨3, 1, .ro, false⟩, ⟨4, 1, .ro, false⟩, ⟨5, 1, .ro, false⟩, ⟨6, 1, .ro, false⟩]⟩,
  /- COL_STEP_NUM -/ ⟨0x200408, [], 0x0, [⟨0, 64, .ro, false⟩]⟩,
  /- COL_STEP_NEXT -/ ⟨0x200410, [], 0x0, [⟨0, 64, .rws, true⟩]⟩
]

/-- Part 5 of the register tables. -/
def regTable5 : List RegSpec := [
  /- COL_STEP_CTL -/ ⟨0x200418, [], 0x0, [⟨0, 1, .rw, false⟩]⟩,
  /- COL_STEP_SEED -/ ⟨0x200420, [], 0x0, [⟨0, 64, .rws, true⟩]⟩,
  /- COL_STEP_VOTE -/ ⟨0x200428, [], 0x0, [⟨0, 32, .ro, false⟩, ⟨32, 32, .ro, false⟩]⟩,
  /- COL_STEP_LOCAL -/ ⟨0x200430, [], 0x0, [⟨0, 32, .ro, false⟩]⟩,
  /- COL_STEP_NORM -/ ⟨0x200438, [], 0x0, [⟨0, 32, .ro, false⟩, ⟨32, 32, .ro, false⟩]⟩,
  /- COL_STEP_UPDATES -/ ⟨0x200440, [], 0x0, [⟨0, 64, .rws, true⟩]⟩,
  /- COL_STEP_SKIPS -/ ⟨0x200448, [], 0x0, [⟨0, 64, .rws, true⟩]⟩,
  /- COL_STEP_LAST -/ ⟨0x200450, [], 0x0, [⟨0, 3, .rws, true⟩, ⟨8, 56, .rws, true⟩]⟩,
  /- CHK_STATUS -/ ⟨0xA00000, [], 0x0, [⟨0, 32, .ro, false⟩, ⟨32, 2, .ro, false⟩]⟩,
  /- CHK_BYTES -/ ⟨0xA00008, [], 0x0, [⟨0, 64, .ro, false⟩]⟩,
  /- BNK_STATUS -/ ⟨0xA00100, [], 0x0, [⟨0, 1, .ro, false⟩, ⟨1, 3, .ro, false⟩, ⟨4, 1, .ro, false⟩, ⟨5, 1, .ro, false⟩, ⟨6, 1, .ro, true⟩, ⟨7, 1, .ro, false⟩, ⟨8, 1, .ro, false⟩, ⟨9, 1, .ro, false⟩, ⟨16, 4, .ro, true⟩, ⟨20, 4, .ro, false⟩]⟩,
  /- BNK_CTL -/ ⟨0xA00108, [], 0x0, [⟨0, 1, .rw, false⟩, ⟨1, 3, .rw, false⟩, ⟨32, 32, .rw, false⟩]⟩,
  /- BNK_RCV_BASE -/ ⟨0xA00110, [], 0x0, [⟨12, 36, .rw, true⟩]⟩,
  /- BNK_RCV_LEN -/ ⟨0xA00118, [], 0x0, [⟨12, 32, .rw, true⟩]⟩,
  /- BNK_LAST -/ ⟨0xA00120, [], 0x0, [⟨0, 64, .rws, true⟩]⟩,
  /- BNK_REF_VAL -/ ⟨0xA00128, [], 0x0, [⟨0, 64, .rw, false⟩]⟩,
  /- BNK_REF_STEP -/ ⟨0xA00130, [], 0x0, [⟨0, 64, .rw, false⟩]⟩,
  /- BNK_REF_CTL -/ ⟨0xA00138, [], 0x0, [⟨0, 1, .rw, false⟩]⟩,
  /- BNK_TRIAL -/ ⟨0xA00140, [], 0x0, [⟨0, 1, .ro, false⟩, ⟨1, 2, .ro, false⟩, ⟨3, 2, .ro, false⟩, ⟨5, 2, .ro, false⟩, ⟨7, 2, .ro, false⟩]⟩,
  /- BNK_TRIAL_STEP -/ ⟨0xA00148, [], 0x0, [⟨0, 64, .ro, false⟩]⟩
]

/-- Part 6 of the register tables. -/
def regTable6 : List RegSpec := [
  /- BNK_STORE_MTAIL -/ ⟨0xA00150, [], 0x0, [⟨0, 40, .ro, false⟩]⟩,
  /- BNK_STORE_HHEAD -/ ⟨0xA00158, [], 0x0, [⟨0, 40, .rw, false⟩]⟩,
  /- BNK_STORE_HTAIL -/ ⟨0xA00160, [], 0x0, [⟨0, 40, .rw, false⟩]⟩,
  /- BNK_STORE_MHEAD -/ ⟨0xA00168, [], 0x0, [⟨0, 40, .ro, false⟩]⟩,
  /- BNK_CNT -/ ⟨0xA00170, [], 0x0, [⟨0, 32, .rws, true⟩, ⟨32, 32, .rws, true⟩]⟩,
  /- BNK_ERR -/ ⟨0xA00178, [], 0x0, [⟨0, 16, .ro, false⟩, ⟨16, 3, .ro, false⟩, ⟨32, 1, .w1cTop 19, false⟩]⟩,
  /- ODN_FAB_CTL -/ ⟨0x600000, [], 0x0, [⟨0, 1, .wo, false⟩]⟩,
  /- ODN_RT_BASE -/ ⟨0x600008, [], 0x0, [⟨6, 42, .rw, false⟩]⟩,
  /- ODN_FAB_STATUS -/ ⟨0x600010, [], 0x0, [⟨0, 2, .ro, false⟩, ⟨16, 16, .ro, false⟩, ⟨32, 16, .ro, false⟩]⟩,
  /- ODN_RT_DIGEST -/ ⟨0x600018, [], 0x0, [⟨0, 64, .ro, false⟩]⟩,
  /- ODN_ERR -/ ⟨0x600020, [], 0x0, [⟨0, 16, .ro, false⟩, ⟨16, 5, .ro, false⟩, ⟨32, 1, .w1cTop 21, false⟩]⟩,
  /- ODN_RANK_CTL -/ ⟨0x600028, [], 0x0, [⟨0, 16, .rw, false⟩, ⟨16, 1, .wo, false⟩]⟩,
  /- ODN_LINK_CTL -/ ⟨0x600030, [], 0x4E20008007D, [⟨0, 16, .rw, false⟩, ⟨16, 4, .rw, false⟩, ⟨32, 16, .rw, false⟩]⟩,
  /- ODN_FLAGS -/ ⟨0x600038, [], 0x0, [⟨0, 14, .w1c, false⟩]⟩,
  /- ODN_PORT_STAT Odnil -/ ⟨0x601000, [(12, 0x40)], 0x0, [⟨0, 3, .ro, true⟩, ⟨3, 1, .ro, true⟩, ⟨8, 4, .ro, true⟩, ⟨16, 16, .ro, true⟩]⟩,
  /- ODN_PORT_STAT pair -/ ⟨0x601400, [(4, 0x40)], 0x0, [⟨0, 3, .ro, true⟩, ⟨3, 1, .ro, true⟩, ⟨8, 4, .ro, true⟩, ⟨16, 16, .ro, true⟩]⟩,
  /- ODN_PORT_CTL Odnil -/ ⟨0x601008, [(12, 0x40)], 0x0, [⟨0, 1, .wo, false⟩, ⟨1, 1, .rw, false⟩]⟩,
  /- ODN_PORT_CTL pair -/ ⟨0x601408, [(4, 0x40)], 0x0, [⟨0, 1, .wo, false⟩, ⟨1, 1, .rw, false⟩]⟩,
  /- ODN_PORT_FECCE Odnil -/ ⟨0x601010, [(12, 0x40)], 0x0, [⟨0, 64, .ro, false⟩]⟩,
  /- ODN_PORT_FECCE pair -/ ⟨0x601410, [(4, 0x40)], 0x0, [⟨0, 64, .ro, false⟩]⟩
]

/-- Part 7 of the register tables. -/
def regTable7 : List RegSpec := [
  /- ODN_PORT_FECUE Odnil -/ ⟨0x601018, [(12, 0x40)], 0x0, [⟨0, 64, .ro, false⟩]⟩,
  /- ODN_PORT_FECUE pair -/ ⟨0x601418, [(4, 0x40)], 0x0, [⟨0, 64, .ro, false⟩]⟩,
  /- ODN_PORT_RESEND Odnil -/ ⟨0x601020, [(12, 0x40)], 0x0, [⟨0, 64, .ro, false⟩]⟩,
  /- ODN_PORT_RESEND pair -/ ⟨0x601420, [(4, 0x40)], 0x0, [⟨0, 64, .ro, false⟩]⟩,
  /- ODN_PORT_TXB Odnil -/ ⟨0x601028, [(12, 0x40)], 0x0, [⟨0, 64, .ro, false⟩]⟩,
  /- ODN_PORT_TXB pair -/ ⟨0x601428, [(4, 0x40)], 0x0, [⟨0, 64, .ro, false⟩]⟩,
  /- ODN_PORT_RXB Odnil -/ ⟨0x601030, [(12, 0x40)], 0x0, [⟨0, 64, .ro, false⟩]⟩,
  /- ODN_PORT_RXB pair -/ ⟨0x601430, [(4, 0x40)], 0x0, [⟨0, 64, .ro, false⟩]⟩,
  /- PAIR_STATUS -/ ⟨0x600800, [], 0x0, [⟨0, 2, .ro, true⟩, ⟨2, 4, .ro, true⟩, ⟨6, 2, .ro, false⟩, ⟨8, 1, .ro, true⟩, ⟨9, 1, .ro, false⟩, ⟨10, 1, .ro, false⟩]⟩,
  /- PAIR_CTL -/ ⟨0x600808, [], 0xBEBC2000000001, [⟨0, 2, .rw, false⟩, ⟨2, 1, .wo, false⟩, ⟨32, 32, .rw, false⟩]⟩,
  /- PAIR_ID -/ ⟨0x600810, [], 0x0, [⟨0, 16, .bl, true⟩]⟩,
  /- PAIR_PEER -/ ⟨0x600818, [], 0x0, [⟨0, 64, .ro, true⟩]⟩,
  /- PAIR_DIGEST -/ ⟨0x600820, [], 0x0, [⟨0, 64, .ro, false⟩]⟩,
  /- PAIR_PDIGEST -/ ⟨0x600828, [], 0x0, [⟨0, 64, .ro, false⟩]⟩,
  /- PAIR_DSTEP -/ ⟨0x600830, [], 0x0, [⟨0, 64, .ro, false⟩]⟩,
  /- HIF_LINK -/ ⟨0x100000, [], 0x0, [⟨0, 4, .ro, true⟩, ⟨4, 5, .ro, true⟩, ⟨9, 1, .ro, true⟩, ⟨10, 1, .ro, true⟩, ⟨11, 1, .ro, true⟩]⟩,
  /- HIF_BADACC -/ ⟨0x100008, [], 0x0, [⟨0, 26, .ro, true⟩, ⟨26, 2, .ro, true⟩, ⟨28, 4, .ro, true⟩, ⟨32, 1, .ro, true⟩, ⟨33, 1, .w1cTop 33, true⟩]⟩,
  /- HIF_BADCNT -/ ⟨0x100010, [], 0x0, [⟨0, 64, .ro, true⟩]⟩,
  /- HIF_HWIN_BASE -/ ⟨0x100018, [], 0x0, [⟨12, 52, .rw, true⟩]⟩,
  /- HIF_B4_STATUS -/ ⟨0x100020, [], 0x1E24, [⟨0, 6, .ro, true⟩, ⟨8, 6, .ro, true⟩]⟩
]

/-- Part 8 of the register tables. -/
def regTable8 : List RegSpec := [
  /- HIF_TXB -/ ⟨0x100028, [], 0x0, [⟨0, 64, .ro, true⟩]⟩,
  /- HIF_RXB -/ ⟨0x100030, [], 0x0, [⟨0, 64, .ro, true⟩]⟩,
  /- HIF_RCV_CTL -/ ⟨0x100040, [], 0x0, [⟨0, 1, .wo, true⟩]⟩,
  /- HIF_RCV_LEN -/ ⟨0x100048, [], 0x0, [⟨0, 29, .rw, true⟩]⟩,
  /- HIF_RCV_STAT -/ ⟨0x100050, [], 0x0, [⟨0, 2, .ro, true⟩, ⟨16, 16, .ro, true⟩]⟩,
  /- HIF_B4_SEG -/ ⟨0x100200, [(64, 0x8)], 0x1, [⟨0, 1, .rw, true⟩, ⟨28, 20, .rw, true⟩]⟩,
  /- SEC_STATUS -/ ⟨0x700000, [], 0x0, [⟨0, 1, .ro, false⟩, ⟨1, 1, .ro, false⟩, ⟨2, 1, .ro, false⟩, ⟨3, 1, .ro, true⟩, ⟨4, 1, .ro, true⟩, ⟨5, 1, .w1c, false⟩, ⟨6, 1, .ro, false⟩, ⟨7, 1, .ro, true⟩]⟩,
  /- SEC_NONCE -/ ⟨0x700008, [(4, 0x8)], 0x0, [⟨0, 64, .ro, true⟩]⟩,
  /- SEC_MB_CTL -/ ⟨0x700028, [], 0x0, [⟨0, 1, .wo, false⟩]⟩,
  /- SEC_MB_RESULT -/ ⟨0x700030, [], 0x0, [⟨0, 16, .ro, false⟩, ⟨16, 1, .ro, false⟩, ⟨17, 1, .ro, false⟩]⟩,
  /- SEC_DBG_LEVEL -/ ⟨0x700038, [], 0x0, [⟨0, 2, .ro, false⟩]⟩,
  /- SEC_GUARD_LOCK -/ ⟨0x700040, [], 0x0, [⟨0, 1, .w1s, true⟩]⟩,
  /- SEC_GUARD_POLICY -/ ⟨0x700048, [], 0x0, [⟨0, 1, .bl, true⟩, ⟨1, 1, .bl, true⟩, ⟨2, 1, .bl, true⟩, ⟨4, 2, .bl, true⟩, ⟨32, 16, .bl, true⟩]⟩,
  /- SEC_GUARD_FEED -/ ⟨0x700050, [], 0x0, [⟨0, 4, .bl, true⟩, ⟨4, 1, .bl, true⟩]⟩,
  /- SEC_AUDIT_CNT -/ ⟨0x700058, [], 0x0, [⟨0, 64, .ro, true⟩]⟩,
  /- SEC_AUDIT_HEAD -/ ⟨0x700060, [(4, 0x8)], 0x0, [⟨0, 64, .ro, true⟩]⟩,
  /- SEC_VIOL_CNT -/ ⟨0x700080, [], 0x0, [⟨0, 64, .ro, false⟩]⟩,
  /- SEC_FAILS -/ ⟨0x700088, [], 0x0, [⟨0, 4, .ro, false⟩, ⟨4, 4, .ro, false⟩, ⟨8, 4, .ro, false⟩, ⟨32, 32, .ro, false⟩]⟩,
  /- SEC_SVN -/ ⟨0x700090, [], 0x0, [⟨0, 6, .ro, true⟩, ⟨8, 6, .ro, true⟩]⟩,
  /- SEC_BOUNDS -/ ⟨0x700098, [], 0xBB80834, [⟨0, 16, .ro, true⟩, ⟨16, 16, .ro, true⟩]⟩
]

/-- Part 9 of the register tables. -/
def regTable9 : List RegSpec := [
  /- SEC_MB_BUF -/ ⟨0x701000, [(2048, 0x8)], 0x0, [⟨0, 64, .rw, false⟩]⟩,
  /- PWR_STATUS -/ ⟨0x800000, [], 0x0, [⟨0, 3, .ro, true⟩, ⟨3, 4, .ro, false⟩, ⟨7, 1, .ro, false⟩, ⟨8, 1, .ro, true⟩, ⟨9, 1, .ro, true⟩, ⟨10, 1, .ro, true⟩, ⟨11, 1, .ro, true⟩, ⟨12, 1, .ro, true⟩]⟩,
  /- PWR_CTL -/ ⟨0x800008, [], 0x0, [⟨0, 3, .rw, true⟩]⟩,
  /- PWR_RESET -/ ⟨0x800010, [], 0x0, [⟨0, 1, .wo, true⟩, ⟨1, 1, .wo, true⟩]⟩,
  /- PWR_KILN_RST -/ ⟨0x800018, [], 0x0, [⟨0, 32, .wo, true⟩]⟩,
  /- PWR_QUAR -/ ⟨0x800020, [], 0x0, [⟨0, 32, .ro, true⟩]⟩,
  /- PWR_QCAUSE -/ ⟨0x800028, [], 0x0, [⟨0, 64, .ro, true⟩]⟩,
  /- PWR_CAP -/ ⟨0x800030, [], 0xBB8, [⟨0, 16, .rw, true⟩]⟩,
  /- PWR_VOLT -/ ⟨0x800038, [], 0x3840000, [⟨0, 16, .ro, true⟩, ⟨16, 16, .rw, true⟩]⟩,
  /- PWR_INPUT -/ ⟨0x800040, [], 0x0, [⟨0, 16, .ro, true⟩, ⟨16, 16, .ro, true⟩]⟩,
  /- PWR_THERM -/ ⟨0x800048, [], 0x0, [⟨0, 8, .ro, true⟩, ⟨8, 8, .ro, true⟩, ⟨16, 8, .ro, true⟩, ⟨24, 8, .ro, true⟩]⟩,
  /- PWR_ERR -/ ⟨0x800050, [], 0x0, [⟨0, 16, .ro, true⟩, ⟨16, 4, .ro, true⟩, ⟨32, 1, .w1cTop 20, true⟩]⟩,
  /- PWR_READY -/ ⟨0x800058, [], 0x0, [⟨0, 64, .ro, false⟩]⟩,
  /- PWR_WDOG -/ ⟨0x800060, [], 0x30D4, [⟨0, 32, .rw, true⟩]⟩,
  /- DBG_STATUS -/ ⟨0x900000, [], 0x0, [⟨0, 2, .ro, false⟩, ⟨16, 16, .ro, false⟩]⟩,
  /- DBG_ERR -/ ⟨0x900008, [], 0x0, [⟨0, 16, .ro, false⟩, ⟨16, 4, .ro, false⟩, ⟨32, 1, .w1cTop 20, false⟩]⟩,
  /- DBG_PMC_CTL -/ ⟨0x900010, [], 0x0, [⟨0, 1, .rw, false⟩, ⟨1, 1, .wo, false⟩]⟩,
  /- DBG_TEL_CTL -/ ⟨0x900018, [], 0x30D400000000, [⟨0, 1, .rw, false⟩, ⟨1, 4, .rw, false⟩, ⟨32, 32, .rw, false⟩]⟩,
  /- DBG_ELOG_CNT -/ ⟨0x900020, [], 0x0, [⟨0, 64, .ro, true⟩]⟩,
  /- DBG_ELOG_IDX -/ ⟨0x900028, [], 0x0, [⟨0, 64, .rw, false⟩]⟩
]

/-- Part 10 of the register tables. -/
def regTable10 : List RegSpec := [
  /- DBG_ELOG_DATA -/ ⟨0x900030, [(8, 0x8)], 0x0, [⟨0, 64, .ro, false⟩]⟩,
  /- DBG_ELOG_LOST -/ ⟨0x900070, [], 0x0, [⟨0, 64, .ro, true⟩]⟩,
  /- DBG_PACE -/ ⟨0x900100, [(32, 0x8)], 0x0, [⟨0, 32, .ro, false⟩, ⟨32, 32, .ro, false⟩]⟩,
  /- DBG_PMC_SEL -/ ⟨0x900200, [(32, 0x10)], 0x0, [⟨0, 8, .rw, false⟩, ⟨32, 32, .rw, false⟩]⟩,
  /- DBG_PMC_CNT -/ ⟨0x900208, [(32, 0x10)], 0x0, [⟨0, 64, .ro, false⟩]⟩,
  /- DBG_TW_CTL -/ ⟨0x901000, [(16, 0x40)], 0xFFFF0000, [⟨0, 1, .rw, false⟩, ⟨1, 1, .rw, false⟩, ⟨2, 1, .ro, false⟩, ⟨3, 4, .rw, false⟩, ⟨7, 9, .rw, false⟩, ⟨16, 16, .rw, false⟩]⟩,
  /- DBG_TW_BASE -/ ⟨0x901008, [(16, 0x40)], 0x0, [⟨6, 42, .rw, false⟩]⟩,
  /- DBG_TW_SIZE -/ ⟨0x901010, [(16, 0x40)], 0x0, [⟨0, 6, .rw, false⟩]⟩,
  /- DBG_TW_WPTR -/ ⟨0x901018, [(16, 0x40)], 0x0, [⟨0, 64, .ro, false⟩]⟩,
  /- DBG_TW_DROPS -/ ⟨0x901020, [(16, 0x40)], 0x0, [⟨0, 64, .ro, false⟩]⟩,
  /- MC_STRAPS -/ ⟨0x10, [], 0x0, [⟨0, 4, .ro, true⟩, ⟨4, 6, .ro, true⟩, ⟨10, 1, .ro, true⟩, ⟨11, 1, .ro, true⟩]⟩,
  /- MC_FP_IN -/ ⟨0x18, [], 0x0, [⟨0, 16, .ro, false⟩]⟩,
  /- MC_FP_OUT -/ ⟨0x20, [], 0x0, [⟨0, 16, .ro, false⟩, ⟨16, 16, .ro, false⟩]⟩
]

/-- The register tables. -/
def regTable : List RegSpec :=
  regTable0 ++ regTable1 ++ regTable2 ++ regTable3 ++ regTable4 ++ regTable5 ++ regTable6 ++ regTable7 ++ regTable8 ++ regTable9 ++ regTable10

/-- Whether an offset from a base is one of the copies that `dims` lists, and which, as one index. -/
def copyOf (x : Nat) : List (Nat × Nat) → Option Nat
  | [] => if x = 0 then some 0 else none
  | (n, s) :: ds =>
    if x / s < n then
      match copyOf (x % s) ds with
      | some i => some (x / s * (ds.map (·.1)).foldl (· * ·) 1 + i)
      | none => none
    else none

/-- The register at a BAR0 offset, if the tables give one there. -/
def regAt (off : Nat) : Option RegSpec :=
  regTable.find? fun r => decide (r.base ≤ off) && (copyOf (off - r.base) r.dims).isSome

/-- Reset value of the register at an offset: HIF_B4_SEG n resets to n × S with EN set, S being 1 GiB (R524). -/
def RegSpec.resetAt (r : RegSpec) (off : Nat) : Nat :=
  if r.base = 0x100200 then 1 + 0x40000000 * ((off - 0x100200) / 8) else r.rst

end Sys2Proof.Machine
end

