-- ==== Sys2Proof/Machine/State.lean ====
section
/-! DEFINITION. The state of the module as plain data, and its state after reset. A sparse map (SMap) lists only the keys
whose value differs from a default; Machine/Ops.lean names each default. -/

namespace Sys2Proof.Machine

/-- Reasons to stop with a fault. The manual turns every failure of the module into an error code that a record or a
register carries, after which the module goes on, so no step raises a fault and the type has no constructor. -/
inductive Fault where
deriving DecidableEq, Repr

/-- Reasons to refuse a command. -/
inductive Refusal where
  /-- Raised by an arm of exec whose command has no meaning yet; safe, since nothing is claimed of it. -/
  | notModelled (mnemonic : String)
deriving DecidableEq, Repr

/-! ### Memory -/

/-- What the code of a memory block holds (R342, R343). -/
inductive EccMark where
  | corrected | uncorrectable
deriving DecidableEq, Repr

/-- How the live granule map places a device granule (R330). -/
inductive Granule where
  | unmapped
  | kilnLocal (stack phys : Nat)
  | stripe (phys : Nat)
deriving DecidableEq, Repr

/-- A region of the region table (R325). -/
structure Region where
  base  : Nat
  len   : Nat
  owner : BitVec 32
deriving DecidableEq, Repr

/-! ### Embers, hearths and kilns -/

/-- The mode tag of a slot (R109). -/
inductive Mode where
  | empty | gl8x | gl16w | int32
deriving DecidableEq, Repr

/-- The special state of an element (R112, R130). -/
inductive Special where
  | finite | posInf | negInf | nan
deriving DecidableEq, Repr

/-- One element of a slot (R108, R109, R236): eight buckets of 80 bits (64 bits and 16 spill bits), window base, special
state, and in GL16W slots the outlier sum with its base. -/
structure Elem where
  buckets : Oct (BitVec 80)
  base    : BitVec 16
  special : Special
  outSum  : BitVec 64
  outBase : BitVec 16
deriving DecidableEq, Repr

/-- Row statistics of one slot, as the 192-byte record of R164 holds them. -/
structure RowStat where
  bytes : List Byte
deriving DecidableEq, Repr

/-- One accumulator slot: its mode tag, its 64 elements (an unlisted one is zero) and its row statistics (R108, R164). -/
structure Slot where
  mode  : Mode
  elems : SMap Elem
  stat  : Option RowStat
deriving DecidableEq, Repr

/-- The memories of one ember: its slots (an unlisted one is EMPTY and zero, R110), and the slots whose memory holds an
uncorrectable error (R342). -/
structure Ember where
  slots : SMap Slot
  bad   : List Nat
deriving DecidableEq, Repr

/-- Two generations of a table and which is live (R243); an empty list is an empty table. -/
structure TwoGen where
  gen0 : List Byte
  gen1 : List Byte
  live : Bool
deriving DecidableEq, Repr

/-- The histogram of a codebook slot (R240): counts by code and the rows added. -/
structure Histogram where
  counts : SMap Nat
  rows   : Nat
deriving DecidableEq, Repr

/-- State of one hearth: lane registers (key = register x 1024 + lane), the table store (key = kind x 64 + slot, kinds of
TABLE_LOAD), histograms, and codebook slots whose build awaits its HBAR (R35, R177, R240-R243). -/
structure Hearth where
  lanes  : SMap (BitVec 32)
  tables : SMap TwoGen
  hist   : SMap Histogram
  built  : List Nat
deriving DecidableEq, Repr

/-- An element of a bucket-set accumulation outside the embers: a gradient or norm sum (R428, R439). -/
abbrev BucketSum := Elem

/-- State of one kiln: both generations of its route slice (R266) and which is live, the update micro-programs (R436),
the gradient square sum (R428), the idle count, gating and wake (R278, R279), and the operations that wait for the wake
(run and place in its order of issue). -/
structure Kiln where
  route0   : SMap (BitVec 256)
  route1   : SMap (BitVec 256)
  routeLive : Bool
  upd      : SMap (List Byte)
  gradSum  : Option BucketSum
  idle     : Nat
  gated    : Bool
  wakeAt   : Option Nat
  heldOps  : List (Nat × Nat)
deriving DecidableEq, Repr

/-! ### Configuration -/

/-- A kiln's place in the topology (R358). -/
structure KilnPlace where
  branch : Nat
  stage  : Nat
  role   : Nat
deriving DecidableEq, Repr

/-- A branch of the topology (R358). -/
structure Branch where
  nstage   : Nat
  prevRank : Nat
  nextRank : Nat
  stepProg : Nat
  evalProg : Nat
deriving DecidableEq, Repr

/-- A fusion join (R358). -/
structure Fusion where
  srcBranch : Nat
  srcStage  : Nat
  dstBranch : Nat
  dstStage  : Nat
  layer     : Nat
deriving DecidableEq, Repr

/-- An installed step program (R369, R397), with the kilns of the section it came in (0 for module scope). -/
structure Program where
  id    : Nat
  kind  : Nat
  kilns : Nat
  ops   : List (BitVec 128)
deriving DecidableEq, Repr

/-- One entry of a pipeline schedule (R401). -/
structure SchedEntry where
  backward : Bool
  phase    : Nat
  mb       : Nat
  body     : Nat
deriving DecidableEq, Repr

/-- A pipeline schedule table (R401). -/
structure SchedTable where
  branch  : Nat
  stage   : Nat
  m       : Nat
  pref    : Nat
  entries : List SchedEntry
deriving DecidableEq, Repr

/-- A claim record (R372). -/
structure Claim where
  kind     : Nat
  mode     : Nat
  first    : Nat
  count    : Nat
  claimant : Nat
deriving DecidableEq, Repr

/-- A configuration bank (R377): what a bit-stream fixes, apart from the tables it loads;
`given` lists the table slots that kiln-scoped sections gave, as kind, slot and kilns (R381). -/
structure ConfigBank where
  loaded    : Bool
  id        : Nat
  gen       : Nat
  spill     : Bool
  granules  : SMap Granule
  regions   : List Region
  shufAddr  : Nat
  opdPage   : SMap Nat
  odescPage : SMap Nat
  statBase  : SMap Nat
  kilns     : SMap KilnPlace
  branches  : List Branch
  fusions   : List Fusion
  profiles  : SMap (List Byte)
  programs  : List Program
  sched     : List SchedTable
  claims    : List Claim
  promoMem  : Nat
  promoTime : Nat
  gateEn    : Nat
  gateThresh : Nat
  layers    : List (List Byte)
  given     : List (Nat × Nat × Nat)
deriving DecidableEq, Repr

/-- A table that a load carries: kind (R363 for TABLES; 16 vector and 17 update micro-programs), slot, kilns, bytes. -/
structure TableImage where
  kind  : Nat
  slot  : Nat
  kilns : Nat
  bytes : List Byte
deriving DecidableEq, Repr

/-- A LOAD_CONFIG in progress (R377): its command, the image's place, the bank it installs and what it replaces. -/
structure Loading where
  sq      : Nat
  cid     : Nat
  addr    : Nat
  len     : Nat
  isPart  : Bool
  toBase  : Bool
  kilns   : Nat
  bank    : ConfigBank
  tables  : List TableImage
  crcAll  : Nat
  digest  : List Byte
  signed  : Bool
  keySlot : Nat
deriving DecidableEq, Repr

/-- Both configuration banks: the active one and a load in progress (R377). -/
structure Cfg where
  active  : ConfigBank
  loading : Option Loading
deriving DecidableEq, Repr

/-! ### Commands, programs and the collier -/

/-- A command started and not completed (R388), in start order: its queues, its descriptor, SQHEAD after it was taken,
the stoke and order of its start, the sticky flags its work has newly set, whether it still waits before its work (a
held COMMIT_STEP holds its queue, R419), and whether a PCIe reset discards its completion record (R579). -/
structure Started where
  sq     : Nat
  cq     : Nat
  desc   : BitVec 512
  sqHead : Nat
  start  : Nat
  order  : Nat
  flags  : Fl
  hold   : Bool
  mute   : Bool
deriving DecidableEq, Repr

/-- A completion record waiting for its completion queue (R387, R389). -/
structure WaitingRecord where
  cq    : Nat
  noInt : Bool
  bytes : List Byte
deriving DecidableEq, Repr

/-- Where a called program or a schedule body returns to (R398, R403): the program, the operation after it, and for a
schedule the table entry that runs. -/
structure ReturnPoint where
  prog  : Nat
  pc    : Nat
  entry : Option Nat
deriving DecidableEq, Repr

/-- An operation issued and not completed (R396): its program and index there, its word, and its place in the order of
issue of its run. -/
structure Flight where
  prog : Nat
  pc   : Nat
  op   : BitVec 128
  seq  : Nat
deriving DecidableEq, Repr

/-- A running program of one stage of one branch (R399). `id` is 32 x branch + stage; `main` is the branch's program and
`prog` the one that issues now; `count` is the number of operations issued; `swaps` and `owners` wait for the next fence
(R405). -/
structure ProgRun where
  id     : Nat
  eval   : Bool
  main   : Nat
  prog   : Nat
  pc     : Nat
  stack  : List ReturnPoint
  flight : List Flight
  count  : Nat
  swaps  : List (BitVec 128)
  owners : List (BitVec 128)
  ended  : Bool
deriving DecidableEq, Repr

/-- The collier: started commands, waiting completion records, phases of the completion queues (an unlisted one is 1),
precedence classes of the event records written so far, program runs, armed timers (timer to expiry stoke and whether a
step armed it) and expired timers (R387-R411, R398). -/
structure Collier where
  started  : List Started
  cqWait   : List WaitingRecord
  phaseLow : List Nat
  events   : List Nat
  runs     : List ProgRun
  timers   : SMap (Nat × Bool)
  expired  : List Nat
  order    : Nat
deriving DecidableEq, Repr

/-! ### The step -/

/-- Promotion state of a layer (R250): format code, HOLD and DEFERRED. -/
structure Promo where
  fmt      : Nat
  hold     : Nat
  deferred : Nat
deriving DecidableEq, Repr

/-- A GNORM of the open step that has issued: its run and its timeout (R427-R429). -/
structure GnormDone where
  run     : Nat
  timeout : Nat
deriving DecidableEq, Repr

/-- An UPDATE of the open step that has issued and waits for COMMIT (R418): its run, the place of its operation in the
order of issue, its descriptor and its kilns. -/
structure UpdateWait where
  run   : Nat
  seq   : Nat
  addr  : Nat
  kilns : Nat
deriving DecidableEq, Repr

/-- Output elements of a collective with SQSUM (R501), until they enter their kiln's square sum in the order of issue
(R428): that order, the kiln, whether the elements are binary32, and their codes with their fine scales' records. -/
structure SquareIn where
  order : Nat
  kiln  : Nat
  bf32  : Bool
  data  : List Byte
  recs  : List Byte
deriving DecidableEq, Repr

/-- A shard of the master weights, as the shard table holds it (R461). -/
structure Shard where
  kiln   : Nat
  bytes  : List Byte
deriving DecidableEq, Repr

/-- The norm sums of a layer in one kiln (R439): new master, unclipped gradient, difference. -/
structure NormSums where
  weight : BucketSum
  grad   : BucketSum
  diff   : BucketSum
deriving DecidableEq, Repr

/-- The step transaction beside its registers: the region table at open (R417), promotion state of the layers (R250),
GNORMs and UPDATEs issued (R418, R429), squares of collectives (R501), the close deadline (R431), flags newly set by the step's work, layers without a limit entry that have stat records
(R247), route records written (R277), the shard table with what the open step gives it (R461), the 64-step history (R460),
norm sums by 32 x layer + kiln (R439), of an EVAL_RUN the first code (R448), and whether the step has read a loss (R475). -/
structure StepTx where
  regions  : List Region
  promo    : SMap Promo
  gnorms   : List GnormDone
  updates  : List UpdateWait
  squares  : List SquareIn
  deadline : Option Nat
  flags    : Fl
  extra    : List Nat
  routes   : List (Nat × Nat)
  shards   : List Shard
  shardsIn : List Shard
  history  : List (List Byte)
  norms    : SMap NormSums
  evalCode : Nat
  lossRead : Bool
deriving DecidableEq, Repr

/-! ### Ingest -/

/-- Where a clip of a prepared step or run stands: no demand issued, demand issued and incomplete, demand complete, rows
written, or dropped with a reason (R289-R294, R316). -/
inductive ClipState where
  | waiting | fetching | covered | written
  | dropped (reason : Nat)
deriving DecidableEq, Repr

/-- A clip of a prepared step or run (R283, R289-R294, R311): what was drawn with its profile as it stood, its demand with
the stoke of issue, its repeats and its staging slot, the bytes covered as disjoint rising intervals, and what its decoding
left. -/
structure Clip where
  epoch     : Nat
  index     : Nat
  clip      : Nat
  desc      : List Byte
  profile   : List Byte
  state     : ClipState
  demand    : Option Nat
  issued    : Nat
  repeats   : Nat
  staging   : Nat
  covered   : List (Nat × Nat)
  concealed : Bool
  auxTrunc  : Bool
  errors    : Nat
deriving DecidableEq, Repr

/-- A prepared step or evaluation run of a binding (R313, R315): its step number or cursor, its clips in position order,
the micro-batches that are ready, and whether its drop event has been raised (R317). -/
structure Prepared where
  step     : Nat
  clips    : List Clip
  ready    : List Nat
  reported : Bool
deriving DecidableEq, Repr

/-- Ingest and the rick: per binding the prepared steps and the next demand id, and the shuffle generation in SRAM (index
to descriptor; R281-R318). -/
structure Ingest where
  prepared0 : List Prepared
  prepared1 : List Prepared
  shuffle   : SMap (BitVec 256)
  nextId0   : Nat
  nextId1   : Nat
deriving DecidableEq, Repr

/-! ### Links -/

/-- An entry of the rank table (R491). -/
structure RankEntry where
  moduleId : Nat
  state    : Nat
  nextHop  : Nat
  pair     : Nat
deriving DecidableEq, Repr

/-- The installed rank table (R491): own rank, fabric id, generation, per Odnil port its PORTMAP word, and the entries. -/
structure RankTable where
  self    : Nat
  fabric  : Nat
  gen     : Nat
  portMap : List Nat
  entries : List RankEntry
deriving DecidableEq, Repr

/-- A sequenced frame in a replay buffer (R488): its SEQ, the frame, the stoke of its last sending, and its resends. -/
structure SentFrame where
  seq     : Nat
  frame   : Frame
  sentAt  : Nat
  resends : Nat
deriving DecidableEq, Repr

/-- State of a port (R485-R489): the next SEQ to send and to expect, the replay buffer, sequenced frames that wait for
room in it, and the stokes of the last frame received and of the last one sent. -/
structure Port where
  txSeq   : Nat
  rxSeq   : Nat
  replay  : List SentFrame
  waiting : List Frame
  heardAt : Nat
  spokeAt : Nat
deriving DecidableEq, Repr

/-- A collective in flight (R498-R502): its run and its place there in the order of issue, descriptor, members in ring
order, own index, the members whose READY has arrived, those already served, the bytes received by member index, its issue
and its place in the module's order of issue of collectives. -/
structure Coll where
  run     : Nat
  seq     : Nat
  xid     : Nat
  desc    : List Byte
  members : List Nat
  self    : Nat
  ready   : List Nat
  served  : List Nat
  recv    : SMap (List Byte)
  issued  : Nat
  order   : Nat
deriving DecidableEq, Repr

/-- A READY or VOID frame whose collective this module has not issued yet (R498, R502): the STEP and EVAL of the frame, its
transfer id and source, and of a void notice its vote reasons. -/
structure Notice where
  step : Nat
  eval : Bool
  xid  : Nat
  rank : Nat
  void : Option Nat
deriving DecidableEq, Repr

/-- A global result that mirrored mode holds (R506): the result, its outcome by R432, the own digest once its pass has
finished, and the stoke in which the own DIGEST frame was sent. -/
structure Mirror where
  result  : GlobalRed
  outcome : Nat
  digest  : Option (BitVec 64)
  sentAt  : Nat
deriving DecidableEq, Repr

/-- The link engine beside its registers: rank table, ports (0-11 Odnil, 12-15 pair), collectives with the number issued,
notices for collectives to come, what mirrored mode holds with the partner's DIGEST payload, the partner's requested mode, identity and receive length, and the rank update
that waits for acknowledgements (R491-R506). -/
structure Links where
  table    : Option RankTable
  ports    : SMap Port
  colls    : List Coll
  issued   : Nat
  early    : List Notice
  mirror   : Option Mirror
  digestIn : Option (List Byte)
  peerMode : Nat
  peerLen  : Nat
deriving DecidableEq, Repr

/-! ### Banking -/

/-- A bank as it lies in the flash or in a receive area: its position, the bytes of its segments, and its header once it
is complete (R453, R456). -/
structure BankCopy where
  bnext   : Nat
  body    : List Byte
  header  : List Byte
deriving DecidableEq, Repr

/-- A slot of the receive area (R452): the offset of the header of the complete bank it holds with that bank's position, and
the place of the bank in the order of arrival. -/
structure RcvSlot where
  bnext  : Nat
  header : Nat
  age    : Nat
deriving DecidableEq, Repr

/-- A bank in progress (R462): the order of its command (none for an automatic bank), its position, the levels completed
and those failed or dropped, the frames still to be acknowledged by the partner, what remains to be written into the
store ring with its place and size, and the stoke of the ring's last progress (R454). -/
structure BankRun where
  order    : Option Nat
  bnext    : Nat
  done     : Nat
  failed   : Nat
  partner  : Bool
  store    : Bool
  left     : List Byte
  at_      : Nat
  len      : Nat
  moved    : Nat
deriving DecidableEq, Repr

/-- A copy that the check pass examined: its level, header and body. -/
structure Candidate where
  level : Nat
  copy  : BankCopy
deriving DecidableEq, Repr

/-- A REKINDLE or ADOPT in progress (R470-R478): the order of its command, the rank adopted, its levels, STEP operand and
store ring, the copies read so far, what it waits for (the partner's copies, the host's stream in the check or the write
pass, acknowledgements of its rank update), the bytes received from each, the candidate whose write pass waits, the code of
its completion, and the stoke of the store ring's last progress. -/
structure RekindleRun where
  order    : Nat
  rank     : Option Nat
  levels   : Nat
  target   : Nat
  at_      : Nat
  copies   : List Candidate
  peer     : Bool
  store    : Bool
  writing  : Bool
  telling  : Bool
  peerIn   : List Byte
  storeIn  : List Byte
  chosen   : Option Candidate
  code     : Nat
  moved    : Nat
deriving DecidableEq, Repr

/-- A trial of divergent copies (R476): the levels named, and of each candidate its level and digest. -/
structure Trial where
  levels : Nat
  cand0  : Nat × Nat
  cand1  : Nat × Nat
deriving DecidableEq, Repr

/-- The banking engine beside its registers: banks in flash, oldest first, with the bytes of incomplete ones reclaimed
(R453), the receive area's slots, the slot being written, the work in progress, banks started, the replay reference
(R474), the trial, the KX1 cursor that waits for a binding (R477), and whether the step that ended calls for an automatic
bank (R465). -/
structure Banking where
  flash    : List BankCopy
  slot0    : Option RcvSlot
  slot1    : Option RcvSlot
  filling  : Option Nat
  run      : Option BankRun
  rekindle : Option RekindleRun
  seq      : Nat
  ref      : Option (BitVec 64)
  refStep  : Nat
  trial    : Option Trial
  kx1      : Option (Nat × Nat)
  due      : Bool
deriving DecidableEq, Repr

/-! ### Host interface -/

/-- A request of the module into the host window that waits for its completion (R529): the read of a descriptor, of a
command's operands, of a step operation's copy, of a kindling chunk, or of the shared-store ring. -/
inductive HostReq where
  | descriptor (sq : Nat)
  | command (sq cid : Nat)
  | operation (run seq : Nat)
  | chunk (ring : Nat)
  | store
deriving DecidableEq, Repr

/-- The host interface beside its registers: configuration-space state (R514-R516), the MSI-X capability, table (an
unlisted vector is masked with address 0) and pending bits (R530, R531), the stoke of each vector's last message, host
window requests waiting and those answered whose work waits for something else (R529), the DOE response that the host has
not taken and DOE Error (R532), and whether the function is the recovery function (R533). -/
structure Hif where
  busMaster  : Bool
  memSpace   : Bool
  d3hot      : Bool
  msixOn     : Bool
  msixMask   : Bool
  msixTable  : SMap (BitVec 128)
  pba        : List Nat
  sentAt     : SMap Nat
  waiting    : List HostReq
  granted    : List HostReq
  doeAnswer  : List Byte
  doeError   : Bool
  recovery   : Bool
deriving DecidableEq, Repr

/-! ### Security -/

/-- An open session (R537): its role, its key and the key slot that proved it (0xFF for none). -/
structure Session where
  role : Role
  key  : BitVec 256
  slot : Nat
deriving DecidableEq, Repr

/-- The firmware image slot (R547, R548): the SVN and DIGEST of the image in it, and whether its bytes pass every check of
R548 but the one of the minimum SVN, which fuses may raise later. Nothing reads the image's bytes but these checks. -/
structure FwImage where
  svn    : Nat
  digest : List Byte
  sound  : Bool
deriving DecidableEq, Repr

/-- The management controller's security state (R536-R556): open sessions, key slots in flash (operator 0-7 then
installer 8-15), the stored policy record, the fused hashes, the boot ROM, the module serial, the firmware image slot and the
DIGEST of the running image, the audit ring, module resets since manufacture, lockout expiries by role code, the role whose
session set the debug level, the last record of each violation kind, and the stoke of the last request through BAR0. -/
structure Sec where
  sessions   : List Session
  keys       : SMap (List Byte)
  policy     : List Byte
  makerHash  : List Byte
  fwKeyHash  : List Byte
  bootRom    : List Byte
  serial     : BitVec 64
  image      : FwImage
  runDigest  : List Byte
  audit      : SMap (List Byte)
  boots      : Nat
  lockouts   : SMap Nat
  levelOwner : Option Role
  violAt     : SMap Nat
  mbAt       : Option Nat
deriving DecidableEq, Repr

/-! ### Power, debug, JTAG, pins -/

/-- Where start-up stands (R574): off (P4), held in a step by something that does not come, past step 7 and before READY,
READY, in recovery, or halted. -/
inductive StartPhase where
  | off | stuck | starting | ready | recovery | halted
deriving DecidableEq, Repr

/-- The power sequencer beside its registers: start-up phase, whether the timeout of step 8 runs and the stoke in which the
step at hand began (R574), whether PERST# is asserted, a thermal trip that MOD_THERM_N still shows (R605), whether some sensor is at or
above its throttle limit (R566, R570), the compute dies switched off (R561), and the stoke from which the governor evaluates
next (R563). -/
structure Pwr where
  phase     : StartPhase
  training  : Bool
  began     : Nat
  perst     : Bool
  thermTrip : Bool
  hot       : Bool
  diesOff   : List Nat
  govAt     : Nat
deriving DecidableEq, Repr

/-- Debug state beside its registers: the module error log (index to entry, R597), drops owed to each trace window and what it
wrote in its last stoke (R595), by source the corrected errors of the current second, those that raised their event in it, and
the stoke of the last error record (R343), the stokes from which the next telemetry record (R596) and the next pace window
(R590) are due, and whether an enabled event record is unread (R605). -/
structure Dbg where
  elog      : SMap (List Byte)
  drops     : SMap Nat
  twStoke   : SMap (Nat × Nat)
  ceSecond  : SMap Nat
  ceRaised  : List Nat
  ceRecord  : SMap Nat
  telAt     : Nat
  paceAt    : Nat
  alert     : Bool
deriving DecidableEq, Repr

/-- The TAP (R588): instruction, the data register of the selected instruction, and the pins that EXTEST drives. -/
structure Jtag where
  ir       : BitVec 8
  dr       : BitVec 112
  boundary : BitVec 64
  driving  : Bool
deriving DecidableEq, Repr

/-- A DIMM as its SPD hub describes it (R336): its type (1 RDIMM, 2 MRDIMM, others unsupported), GiB, MT/s, a readable SPD, and
whether it trains. -/
structure Dimm where
  kind   : Nat
  gib    : Nat
  speed  : Nat
  spdOk  : Bool
  trains : Bool
deriving DecidableEq, Repr

/-- What the module finds on its board and in its silicon at start-up: straps (R601), reference clock, supplies, rails
that fail, units that fail self-test, the rate each stack reaches (an unlisted one 9.6 Gb/s; 3 none), DIMMs by slot (2 x
channel + slot), cords by cage with what their far ends answer to training, the levels at the feature pins, and whether the
flash takes log entries (R554, R597). -/
structure Board where
  feed      : BitVec 4
  slot      : BitVec 6
  pairRole  : Bool
  refClk    : Bool
  mainOk    : Bool
  portRails : Bool
  badRails  : List Nat
  badKilns  : List Nat
  badDies   : Bool
  tinderOk  : Bool
  hbmRate   : SMap Nat
  dimms     : SMap Dimm
  cords     : List Nat
  links     : List PeerHello
  pins      : BitVec 16
  flashOk   : Bool
deriving DecidableEq, Repr

/-- The feature pins (R606, R607): outputs driven so far, and the input samples of the last two stokes. -/
structure Pins where
  driven : SMap Bool
  next   : SMap Bool
  in1    : BitVec 16
  in2    : BitVec 16
deriving DecidableEq, Repr

/-! ### What leaves the module -/

/-- What the module has sent outside, oldest first. -/
inductive Out where
  | msix (vector : Nat)
  | readData (bytes : List Byte)
  | completerAbort
  | frame (port : Nat) (f : Frame)
  | contribution (g : GlobalRed)
  | pairs (run : Nat) (rows : List RemotePair)
  | doe (bytes : List Byte)
  | tdo (width : Nat) (bits : BitVec 112)
  | pin (n : Nat) (level : Option Bool)
  | mailbox (code : Nat)
  | linkError (r : LinkReply)
deriving DecidableEq, Repr

/-- The state of the module. `pending` is the queue of commands that wait, first in first out. `regs` holds the BAR0
registers by offset; an unlisted register holds its reset value. `mem` holds every byte of memory that differs from 0:
the live tier by stack x 2^37 + offset, the peat tier and hearth memories by device address, host memory at 2^64 + bus
address, the recovery buffer at 2^66 + offset. `ecc` marks code blocks by the key of their first byte. -/
structure State where
  pending : List Instr
  regs    : SMap (BitVec 64)
  mem     : List Host.Cell
  ecc     : SMap EccMark
  embers  : SMap Ember
  hearths : SMap Hearth
  kilns   : SMap Kiln
  cfg     : Cfg
  col     : Collier
  step    : StepTx
  ing     : Ingest
  link    : Links
  bank    : Banking
  hif     : Hif
  sec     : Sec
  pwr     : Pwr
  dbg     : Dbg
  jtag    : Jtag
  pins    : Pins
  board   : Board
  out     : List Out
  rand    : Nat
deriving DecidableEq, Repr

/-- The base configuration (R382). -/
def ConfigBank.base : ConfigBank where
  loaded := false
  id := 0
  gen := 0
  spill := false
  granules := []
  regions := []
  shufAddr := 0
  opdPage := []
  odescPage := []
  statBase := []
  kilns := []
  branches := []
  fusions := []
  profiles := []
  programs := []
  sched := []
  claims := []
  promoMem := 0
  promoTime := 0
  gateEn := 0
  gateThresh := 0x0C35
  layers := []
  given := []

/-- A hearth with empty tables and zero lanes (R220, R251). -/
def Hearth.empty : Hearth := ⟨[], [], [], []⟩

/-- A kiln that is idle, with empty tables (R251, R280). -/
def Kiln.empty : Kiln := ⟨[], [], false, [], none, 0, false, none, []⟩

/-- An ember with every slot EMPTY (R110). -/
def Ember.empty : Ember := ⟨[], []⟩

/-- The collier without work (R413). -/
def Collier.empty : Collier := ⟨[], [], [], [], [], [], [], 0⟩

/-- No step open (R415). -/
def StepTx.empty : StepTx := ⟨[], [], [], [], [], none, 0, [], [], [], [], [], [], 0, false⟩

/-- Nothing prepared (R319). -/
def Ingest.empty : Ingest := ⟨[], [], [], 0, 0⟩

/-- Links without table, traffic or partner. -/
def Links.empty : Links := ⟨none, [], [], 0, [], none, none, 0, 0⟩

/-- No bank held and none in progress. -/
def Banking.empty : Banking := ⟨[], none, none, none, none, none, 0, none, 0, none, none, false⟩

/-- The factory policy record (R544, R545): version 1, DBGMAX 2, PCAP 3,000 W. -/
def factoryPolicy : List Byte := [1, 0, 2, 0, 0xB8, 0x0B, 0, 0, 0] ++ List.replicate 55 0

/-- The host interface after module reset (R535): BAR4 at 64 GiB, Bus Master and Memory Space clear, MSI-X off with
every vector masked. -/
def Hif.empty : Hif := ⟨false, false, false, false, false, [], [], [], [], [], [], false, false⟩

/-- The board of a module that starts fully populated, without DIMMs, cords or failing parts. -/
def Board.plain : Board where
  feed := 0xF
  slot := 0x3F
  pairRole := true
  refClk := true
  mainOk := true
  portRails := true
  badRails := []
  badKilns := []
  badDies := false
  tinderOk := true
  hbmRate := []
  dimms := []
  cords := []
  links := []
  pins := 0
  flashOk := true

/-- The state right after reset, before start-up has run: every register at its reset value, memory with nothing listed,
no configuration but the base one, no session, and power state as the registers reset. A new module holds the factory
policy (R545), no keys, an empty log and no firmware image fault: the slot holds an image that verified (log entry 5). -/
def State.reset : State where
  pending := []
  regs := []
  mem := []
  ecc := []
  embers := []
  hearths := []
  kilns := []
  cfg := ⟨.base, none⟩
  col := .empty
  step := .empty
  ing := .empty
  link := .empty
  bank := .empty
  hif := .empty
  sec := {
    sessions := [], keys := [], policy := factoryPolicy, makerHash := [], fwKeyHash := [], bootRom := []
    serial := 0, image := ⟨0, List.replicate 64 0, true⟩, runDigest := [], audit := [], boots := 0, lockouts := []
    levelOwner := none, violAt := [], mbAt := none }
  pwr := ⟨.off, false, 0, true, false, false, [], 0⟩
  dbg := ⟨[], [], [], [], [], [], 0, 0, false⟩
  jtag := ⟨0x01, 0, 0, false⟩
  pins := ⟨[], [], 0, 0⟩
  board := .plain
  out := []
  rand := 0

end Sys2Proof.Machine
end

