-- ==== Sys2Proof/Machine/Ops.lean ====
section
/-! DEFINITION. The named operations over sparse maps, bytes, registers, interrupts, events, error registers and memory. -/

namespace Sys2Proof.Machine

/-! ### Sparse maps -/

/-- The value listed for a key. -/
def sfind {α : Type} : SMap α → Nat → Option α
  | [], _ => none
  | (k, v) :: m, x => if k = x then some v else sfind m x

/-- The value of a key, with the default `d` for an unlisted key. -/
def sget {α : Type} (d : α) (m : SMap α) (k : Nat) : α := (sfind m k).getD d

/-- Lists a value under a key, keys strictly rising. -/
def sput {α : Type} : SMap α → Nat → α → SMap α
  | [], k, v => [(k, v)]
  | (x, w) :: m, k, v =>
    if k < x then (k, v) :: (x, w) :: m
    else if k = x then (k, v) :: m
    else (x, w) :: sput m k v

/-- Unlists a key. -/
def sdel {α : Type} (m : SMap α) (k : Nat) : SMap α := m.filter fun p => p.1 ≠ k

/-- Sets a key; the default `d` is not listed. -/
def sset {α : Type} [DecidableEq α] (d : α) (m : SMap α) (k : Nat) (v : α) : SMap α :=
  if v = d then sdel m k else sput m k v

/-! ### Bytes -/

/-- The n little-endian bytes of a number (R7). -/
def leBytes : Nat → Nat → List Byte
  | 0, _ => []
  | n + 1, v => BitVec.ofNat 8 v :: leBytes n (v / 256)

/-- The number that little-endian bytes hold (R7). -/
def leNat : List Byte → Nat
  | [] => 0
  | b :: bs => b.toNat + 256 * leNat bs

/-- The number in bytes lo to lo + n - 1 of a list. -/
def fieldAt (bs : List Byte) (lo n : Nat) : Nat := leNat ((bs.drop lo).take n)

/-- Bits [lo + w - 1 : lo] of a number. -/
def bits (v lo w : Nat) : Nat := v / 2 ^ lo % 2 ^ w

/-- One bit of a number. -/
def bit (v i : Nat) : Bool := v.testBit i

/-- Pads or cuts a list of bytes to n bytes. -/
def fitBytes (n : Nat) (bs : List Byte) : List Byte := bs.take n ++ List.replicate (n - bs.length) 0

/-- Replaces the bytes from `lo` on. -/
def patch (bs : List Byte) (lo : Nat) (new : List Byte) : List Byte :=
  bs.take lo ++ new ++ bs.drop (lo + new.length)

/-! ### Registers -/

/-- The 64-bit word of a register: its listed value, or its reset value. -/
def State.word (s : State) (off rst : Nat) : Nat :=
  match sfind s.regs off with
  | some v => v.toNat
  | none => rst

/-- Value of a register field. -/
def State.get (s : State) (f : Fld) : Nat := bits (s.word f.off f.rst) f.lo f.w

/-- Whether a one-bit field is set. -/
def State.isSet (s : State) (f : Fld) : Bool := s.get f != 0

/-- Stores a whole register word. -/
def State.setWord (s : State) (off rst v : Nat) : State :=
  { s with regs := sset (BitVec.ofNat 64 rst) s.regs off (BitVec.ofNat 64 v) }

/-- A word with bits [lo + w - 1 : lo] replaced. -/
def withBits (word lo w v : Nat) : Nat := word - bits word lo w * 2 ^ lo + v % 2 ^ w * 2 ^ lo

/-- Stores a register field. -/
def State.put (s : State) (f : Fld) (v : Nat) : State :=
  s.setWord f.off f.rst (withBits (s.word f.off f.rst) f.lo f.w v)

/-- Adds to a counter field, modulo its width. -/
def State.bump (s : State) (f : Fld) (n : Nat) : State := s.put f (s.get f + n)

/-- Adds to a counter field, saturating. -/
def State.bumpSat (s : State) (f : Fld) (n : Nat) : State := s.put f (Nat.min (s.get f + n) (2 ^ f.w - 1))

/-- ORs bits into a field: sticky flags are only set (R18). -/
def State.orInto (s : State) (f : Fld) (v : Nat) : State := s.put f (s.get f ||| v)

/-- The stoke counter (R10). -/
def State.now (s : State) : Nat := s.get Reg.COL_STOKE_COUNT

/-- The step state of R415. -/
def State.stepState (s : State) : Nat := s.get Reg.COL_STEP_STATUS_STATE

/-- Whether a step transaction is open: states OPEN, RUNNING, REDUCED, COMMIT and ABORTING (R415). -/
def State.stepOpen (s : State) : Bool :=
  let t := s.stepState
  t = 1 || t = 2 || t = 3 || t = 4 || t = 6

/-- The open step's number, or 0 (R347, R411). -/
def State.openStep (s : State) : Nat := if s.stepOpen then s.get Reg.COL_STEP_NUM_STEP else 0

/-- Whether kiln k is quarantined (R38). -/
def State.quarantined (s : State) (k : Nat) : Bool := bit (s.get Reg.PWR_QUAR_KILNS) k

/-- Records the first error of an error register: nothing changes while VALID is set. -/
def State.firstErr (s : State) (valid code : Fld) (c : Nat) (more : List (Fld × Nat)) : State :=
  if s.isSet valid then s
  else (more.foldl (fun t p => t.put p.1 p.2) (s.put code c)).put valid 1

/-! ### Units of the module -/

/-- State of an ember, by module-wide index 8 x hearth + ember. -/
def State.ember (s : State) (i : Nat) : Ember := sget .empty s.embers i

/-- Stores an ember's state. -/
def State.setEmber (s : State) (i : Nat) (e : Ember) : State := { s with embers := sset .empty s.embers i e }

/-- State of a hearth. -/
def State.hearth (s : State) (h : Nat) : Hearth := sget .empty s.hearths h

/-- Stores a hearth's state. -/
def State.setHearth (s : State) (h : Nat) (x : Hearth) : State := { s with hearths := sset .empty s.hearths h x }

/-- State of a kiln. -/
def State.kiln (s : State) (k : Nat) : Kiln := sget .empty s.kilns k

/-- Stores a kiln's state. -/
def State.setKiln (s : State) (k : Nat) (x : Kiln) : State := { s with kilns := sset .empty s.kilns k x }

/-- Whether every slot of a kiln is EMPTY (R278). -/
def State.kilnEmpty (s : State) (k : Nat) : Bool :=
  s.embers.all fun p => p.1 / 96 != k || p.2.slots.all fun q => q.2.mode == .empty

/-- Whether every kiln that is not quarantined is gated (R569). -/
def State.allGated (s : State) : Bool := (List.range 32).all fun k => s.quarantined k || (s.kiln k).gated

/-- P1 is entered once every kiln is gated, when it has been asked for (R569, R570). -/
def State.settleIdle (s : State) : State :=
  if s.isSet Reg.PWR_STATUS_PENDING && s.get Reg.PWR_STATUS_PSTATE = 0 && s.isSet Reg.PWR_STATUS_READY && s.allGated then
    (s.put Reg.PWR_STATUS_PSTATE 1).put Reg.PWR_STATUS_PENDING 0
  else s

/-- Sends something outside. -/
def State.emit (s : State) (o : Out) : State := { s with out := s.out ++ [o] }

/-- Takes the next number of the free-value counter. -/
def State.nextRand (s : State) : State := { s with rand := s.rand + 1 }

/-! ### Memory placement (R322-R337, R527) -/

/-- The memory is in canonical form: keys strictly rising, no listed zero. -/
abbrev Memory.wf (m : List Host.Cell) : Prop :=
  m.Pairwise (fun a b => a.1 < b.1) ∧ ∀ c ∈ m, c.2 ≠ 0

/-- Byte of a memory key; an unlisted key reads as 0. -/
def State.byte (s : State) (k : Nat) : Byte := sget 0 s.mem k

/-- Stores one byte. -/
def State.setByte (s : State) (k : Nat) (b : Byte) : State := { s with mem := sset 0 s.mem k b }

/-- n bytes from a key. -/
def State.bytes (s : State) (k : Nat) : Nat → List Byte
  | 0 => []
  | n + 1 => s.byte k :: State.bytes s (k + 1) n

/-- Stores bytes from a key on. -/
def State.setBytes (s : State) (k : Nat) : List Byte → State
  | [] => s
  | b :: bs => State.setBytes (s.setByte k b) (k + 1) bs

/-- Key of host bus address 0. -/
def hostKey : Nat := 2 ^ 64
/-- Key of offset 0 of the recovery buffer (R533). -/
def recoveryKey : Nat := 2 ^ 66
/-- Bytes of one stack. -/
def stackBytes : Nat := 2 ^ 37
/-- Base of the peat tier. -/
def peatBase : Nat := 0x100000000000
/-- Base of the hearth memories. -/
def hearthBase : Nat := 0x400000000000
/-- Base of the host window. -/
def windowBase : Nat := 0x800000000000

/-- Device address of offset 0 of hearth h's memory (R322). -/
def hearthAddr (h : Nat) : Nat := hearthBase + 0x800000 * h

/-- The granule map in force: that of R332 in the base configuration. -/
def State.granule (s : State) (g : Nat) : Granule :=
  if s.cfg.active.loaded then sget .unmapped s.cfg.active.granules g else .kilnLocal (g / 128) (g % 128)

/-- Key of a live-tier address under a granule (R330, R331). -/
def liveKey (g : Granule) (a : Nat) : Option Nat :=
  match g with
  | .unmapped => none
  | .kilnLocal k p => some (stackBytes * k + 2 ^ 30 * p + a % 2 ^ 30)
  | .stripe p =>
    let o := a % 2 ^ 35
    let u := o / 4096
    some (stackBytes * (u % 32) + 2 ^ 30 * p + 4096 * (u / 32) + o % 4096)

/-- Key of a device address, none where the map has nothing (R322, R323). -/
def State.place (s : State) (a : Nat) : Option Nat :=
  if a < 0x40000000000 then liveKey (s.granule (a / 2 ^ 30)) a
  else if peatBase ≤ a ∧ a < peatBase + s.get Reg.PEAT_SIZE_BYTES then some a
  else if hearthBase ≤ a ∧ a < hearthBase + 0xC0000000 then some a
  else if windowBase ≤ a ∧ a < 0xC00000000000 then
    some (hostKey + (4096 * s.get Reg.HIF_HWIN_BASE_BASE + (a - windowBase)) % 2 ^ 64)
  else none

/-- Whether an address lies in the host window. -/
def inWindow (a : Nat) : Bool := decide (windowBase ≤ a ∧ a < 0xC00000000000)

/-- Whether the module may issue requests into the host window (R515, R516): Bus Master Enable set, D0, link up. -/
def State.windowOpen (s : State) : Bool := s.hif.busMaster && !s.hif.d3hot && s.isSet Reg.HIF_LINK_UP

/-- Tier code of a key for an error record (R347). -/
def tierOf (k : Nat) : Nat := if k < 2 ^ 42 then 1 else if k < hearthBase then 2 else if k < hostKey then 0 else 5

/-- Bytes of the code block that protects a key's memory (R342); the host window has none. -/
def blockOf (k : Nat) : Nat := if k < 2 ^ 42 then 32 else if k < hearthBase then 64 else 8

/-- Memory class codes (R348). -/
def memUnmapped : Nat := 0x3001
/-- R348. -/
def memAccess : Nat := 0x3002
/-- R348. -/
def memUE : Nat := 0x3003
/-- R348. -/
def memFenced : Nat := 0x3004
/-- R348. -/
def memHost : Nat := 0x3005

/-- On whose behalf an access is made: the unit of R326, whether it acts for the host (mode 0 regions), whether it may
touch bucket-set ranges (R145), whether the region table does not bind it, whether it works for the open step, and the
tag for error records. -/
structure Who where
  unit   : Nat
  host   : Bool := false
  bucket : Bool := false
  exempt : Bool := false
  step   : Bool := false
  tag    : Nat := 0
deriving DecidableEq, Repr

/-- The owner word in force at an address, with the defaults of R325. -/
def State.ownerAt (s : State) (a : Nat) : BitVec 32 :=
  match s.cfg.active.regions.find? fun r => decide (r.base ≤ a ∧ a < r.base + r.len) with
  | some r => r.owner
  | none =>
    if hearthBase ≤ a ∧ a < hearthBase + 0xC0000000 then BitVec.ofNat 32 (2 + 65536 * ((a - hearthBase) / 0x800000))
    else 0

/-- Whether the owner word at an address permits an access (R325, R327), bucket-set ranges included (R145). -/
def State.permits (s : State) (w : Who) (write : Bool) (a : Nat) : Bool :=
  let o := (s.ownerAt a).toNat
  let invasive := s.get Reg.SEC_DBG_LEVEL_LEVEL = 3
  if w.exempt then true
  else if w.unit = 0x300 && !write && invasive then true
  else if bit o 2 && !w.bucket then false
  else match o % 4 with
    | 0 => w.host
    | 1 => !write
    | 2 => o / 65536 = w.unit
    | _ => false

/-- Whether a load in progress holds an address read-only (R376). -/
def State.imageHeld (s : State) (a n : Nat) : Bool :=
  match s.cfg.loading with
  | some l => decide (a < l.addr + l.len ∧ l.addr < a + n)
  | none => false

/-- The pieces of a range within 4 KiB units, which no map, region or stripe divides: address and length. -/
def pieces : Nat → Nat → Nat → List (Nat × Nat)
  | 0, _, _ => []
  | f + 1, a, n =>
    if n = 0 then []
    else
      let m := Nat.min n (4096 - a % 4096)
      (a, m) :: pieces f (a + m) (n - m)

/-- Goes on after a write that succeeded; a refused one ends with its code. -/
def andWrite (r : State × Nat) (f : State → State × Nat) : State × Nat := if r.2 ≠ 0 then r else f r.1

/-- Goes on with the bytes a read gave; a refused one ends with what its code makes. -/
def andRead {α : Type} (r : State × Nat × List Byte) (fail : Nat → α) (f : State → List Byte → State × α) : State × α :=
  if r.2.1 ≠ 0 then (r.1, fail r.2.1) else f r.1 r.2.2

/-- Goes on with a value that was found; a failure is passed on. -/
def andChecked {α β : Type} (r : State × Except Nat α) (f : State → α → State × Except Nat β) : State × Except Nat β :=
  match r with
  | (s, .error c) => (s, .error c)
  | (s, .ok x) => f s x

/-- The bytes a read gave, or the code that refused it. -/
def checkRead (r : State × Nat × List Byte) : State × Except Nat (List Byte) :=
  (r.1, if r.2.1 ≠ 0 then .error r.2.1 else .ok r.2.2)

/-- Goes on with a value that was found, or does what a failure asks. -/
def orElse {α : Type} (r : State × Except Nat α) (bad : State → Nat → State) (f : State → α → State) : State :=
  match r with
  | (s, .error c) => bad s c
  | (s, .ok x) => f s x

/-- Goes on after a write that succeeded, or does what a refusal asks. -/
def orWrite (r : State × Nat) (bad : State → Nat → State) (f : State → State) : State := if r.2 ≠ 0 then bad r.1 r.2 else f r.1

/-- The pieces of a range. -/
def piecesOf (a n : Nat) : List (Nat × Nat) := pieces (n / 4096 + 2) a n

/-- What refuses an access to one piece: 0 when nothing does. Unmapped, then fenced, then the region table, then the
host link (R322, R327, R339, R341). -/
def State.pieceCode (s : State) (w : Who) (write : Bool) (a n : Nat) : Nat :=
  match s.place a with
  | none => memUnmapped
  | some k =>
    if k < 2 ^ 42 && s.quarantined (k / stackBytes) then memFenced
    else if !s.permits w write a then memAccess
    else if write && s.imageHeld a n then memAccess
    else if hostKey ≤ k && !s.windowOpen then memHost
    else 0

/-- What refuses an access to a range before any data is looked at: the first piece that is refused. -/
def State.rangeCode (s : State) (w : Who) (write : Bool) (a n : Nat) : Nat :=
  (piecesOf a n).foldl (fun c p => if c ≠ 0 then c else s.pieceCode w write p.1 p.2) 0

/-- Reads one byte at a device address without checks; 0 where nothing is mapped. -/
def State.peekByte (s : State) (a : Nat) : Byte :=
  match s.place a with
  | some k => s.byte k
  | none => 0

/-- Reads bytes at a device address without checks. -/
def State.peek (s : State) (a : Nat) : Nat → List Byte
  | 0 => []
  | n + 1 => s.peekByte a :: State.peek s (a + 1) n

/-! ### Interrupts and events -/

/-- Control word of an MSI-X vector: [0] mask; an unlisted vector is masked. -/
def State.msixVec (s : State) (v : Nat) : Nat := (sget (BitVec.ofNat 128 (2 ^ 96)) s.hif.msixTable v).toNat

/-- Whether a message of a vector may leave: MSI-X enabled, function in D0 as bus master (R515, R530). -/
def State.msixMay (s : State) : Bool := s.hif.msixOn && s.windowOpen

/-- Sends the message of a vector, or sets its pending bit while masked; messages of one stoke are one (R530, R531). -/
def State.msix (s : State) (v : Nat) : State :=
  if !s.hif.msixOn then s
  else if s.hif.msixMask || bit (s.msixVec v) 96 then
    { s with hif := { s.hif with pba := if s.hif.pba.contains v then s.hif.pba else v :: s.hif.pba } }
  else if !s.windowOpen then s
  else if sget 0 s.hif.sentAt v = s.now + 1 then s
  else { s with hif := { s.hif with sentAt := sput s.hif.sentAt v (s.now + 1) }, out := s.out ++ [.msix v] }

/-- Payload bytes that leave on the host link (R535). -/
def State.linkTx (s : State) (n : Nat) : State := s.bump Reg.HIF_TXB_COUNT n

/-- Payload bytes that arrive on the host link (R535). -/
def State.linkRx (s : State) (n : Nat) : State := s.bump Reg.HIF_RXB_COUNT n

/-- Writes bytes of the collier's own (records of queues and rings) at a device address; where nothing is mapped or the
window is closed they are lost. -/
def State.post (s : State) (a : Nat) (bs : List Byte) : State :=
  match s.place a with
  | none => s
  | some k =>
    if hostKey ≤ k && !s.windowOpen then s
    else if k < 2 ^ 42 && s.quarantined (k / stackBytes) then s
    else if hostKey ≤ k then (s.setBytes k bs).linkTx bs.length
    else s.setBytes k bs

/-- Appends an entry to the module error log; one that the flash does not take is counted (R597). -/
def State.elog (s : State) (origin step : Nat) (record : List Byte) : State :=
  if !s.board.flashOk then s.bump Reg.DBG_ELOG_LOST_COUNT 1
  else
  let n := s.get Reg.DBG_ELOG_CNT_COUNT
  let entry := leBytes 8 n ++ leBytes 8 s.sec.boots ++ leBytes 1 origin ++ leBytes 1 step ++ List.replicate 14 0 ++
    fitBytes 32 record
  ({ s with dbg := { s.dbg with elog := sput (sdel s.dbg.elog (n - 16384)) n entry } }).put Reg.DBG_ELOG_CNT_COUNT (n + 1)

/-- A trace record (R594). -/
def traceRecord (now source kind unit tag code seq data : Nat) : List Byte :=
  leBytes 8 now ++ leBytes 1 source ++ leBytes 1 kind ++ leBytes 2 unit ++ leBytes 2 tag ++ leBytes 2 code ++
    leBytes 8 seq ++ leBytes 8 data

/-- Writes one 32-byte slot of a trace window's buffer (R595). -/
def State.twSlot (s : State) (n : Nat) (rec : List Byte) : State :=
  let cap := 2 ^ s.get (Reg.DBG_TW_SIZE_LOG2SIZE n) / 32
  let w := s.get (Reg.DBG_TW_WPTR_COUNT n)
  let t := (s.post (s.get (Reg.DBG_TW_BASE_ADDR n) * 64 + w % Nat.max cap 1 * 32) rec).put (Reg.DBG_TW_WPTR_COUNT n) (w + 1)
  if s.isSet (Reg.DBG_TW_CTL_STOP n) && decide (cap ≤ w + 1) then t.put (Reg.DBG_TW_CTL_FULL n) 1 else t

/-- Writes records into window n: at most 16 a stoke, none while FULL, a drop marker first when records were dropped
(R595). A record of `slots` x 32 bytes takes that many slots. -/
def State.twWrite (s : State) (n : Nat) (rec : List (List Byte)) : State :=
  let used := match sfind s.dbg.twStoke n with
    | some (t, c) => if t = s.now then c else 0
    | none => 0
  let owed := sget 0 s.dbg.drops n
  let need := rec.length + (if owed = 0 then 0 else 1)
  let cap := 2 ^ s.get (Reg.DBG_TW_SIZE_LOG2SIZE n) / 32
  let full := s.isSet (Reg.DBG_TW_CTL_STOP n) && decide (cap < s.get (Reg.DBG_TW_WPTR_COUNT n) + need)
  if full || decide (16 < used + need) then
    { (s.bump (Reg.DBG_TW_DROPS_COUNT n) 1) with dbg := { s.dbg with drops := sput s.dbg.drops n (owed + 1) } }
  else
    let s := { s with dbg := { s.dbg with drops := sdel s.dbg.drops n, twStoke := sput s.dbg.twStoke n (s.now, used + need) } }
    let s := if owed = 0 then s else s.twSlot n (traceRecord s.now (s.get (Reg.DBG_TW_CTL_SOURCE n)) 3 0 0 0 0 owed)
    rec.foldl (fun t r => t.twSlot n r) s

/-- Gives a record to every armed window of its source whose filters pass it (R593). -/
def State.trace (s : State) (source unit cls : Nat) (rec : List Byte) : State :=
  let armed := s.get Reg.DBG_STATUS_ARMED
  if armed = 0 then s
  else (List.range 16).foldl (fun t n =>
    if bit armed n && t.get (Reg.DBG_TW_CTL_SOURCE n) = source &&
      (t.get (Reg.DBG_TW_CTL_UNIT n) = 0xFFFF || t.get (Reg.DBG_TW_CTL_UNIT n) = unit) &&
      (source != 0 || bit (t.get (Reg.DBG_TW_CTL_CLASSMASK n)) (cls - 1))
    then t.twWrite n [rec] else t) s

/-- The event record of R411. -/
def State.eventRecord (s : State) (cls kind unit code data : Nat) : List Byte :=
  leBytes 8 s.now ++ leBytes 1 cls ++ leBytes 1 kind ++ leBytes 2 unit ++ leBytes 2 code ++ leBytes 2 0 ++
    leBytes 8 s.openStep ++ leBytes 8 data

/-- Raises an event (R411, R412): the record goes to the ring and to the error log for classes 1 to 5, the count
advances, the message is sent when enabled, MOD_ALERT_N goes low (R605), and trace windows see it. A ring base of 0 is
no ring. -/
def State.event (s : State) (cls kind unit code data : Nat) : State :=
  let rec32 := s.eventRecord cls kind unit code data
  let n := s.get Reg.COL_EVT_CNT_COUNT
  let base := s.get Reg.COL_EVT_BASE_ADDR * 64
  let s := if base = 0 then s else s.post (base + n % 4096 * 32) rec32
  let s := s.put Reg.COL_EVT_CNT_COUNT (n + 1)
  let s := { s with col := { s.col with events := s.col.events ++ [cls] } }
  let s := if cls ≤ 5 then s.elog 1 0 rec32 else s
  let enabled := bit (s.get Reg.COL_EVT_CTL_IMASK) (cls - 1)
  let s := if enabled then { s with dbg := { s.dbg with alert := true } } else s
  let s := if enabled && s.isSet Reg.COL_EVT_CTL_IEN then s.msix (s.get Reg.COL_EVT_CTL_VECTOR) else s
  s.trace 0 unit cls (traceRecord s.now 0 2 unit 0 code s.openStep data)

/-! ### Event counters (R591) -/

/-- Adds n events with a code of R591 in kiln k to every counter that counts them; below level 1 and with FREEZE none counts
(R587, R591). -/
def State.pmc (s : State) (ev k n : Nat) : State :=
  if n = 0 || s.get Reg.SEC_DBG_LEVEL_LEVEL = 0 || s.isSet Reg.DBG_PMC_CTL_FREEZE then s
  else (List.range 16).foldl (fun t i =>
    if t.get (Reg.DBG_PMC_SEL_EVENT i) = ev && bit (t.get (Reg.DBG_PMC_SEL_KILNS i)) k then
      t.bumpSat (Reg.DBG_PMC_CNT_COUNT i) n
    else t) s

/-- The kiln that a unit of R326 belongs to. -/
def unitKiln (u : Nat) : Option Nat :=
  if u < 0x180 then some (u / 12)
  else if 0x200 ≤ u ∧ u < 0x220 then some (u - 0x200)
  else if 0x240 ≤ u ∧ u < 0x260 then some (u - 0x240)
  else none

/-- The kiln whose memory holds a key: its stack or its hearths' memory. -/
def keyKiln (k : Nat) : Option Nat :=
  if k < 2 ^ 42 then some (k / stackBytes)
  else if hearthBase ≤ k ∧ k < hearthBase + 0xC0000000 then some ((k - hearthBase) / 0x800000 / 12)
  else none

/-- 64-byte lines that n bytes from a key touch. -/
def linesOf (k n : Nat) : Nat := (k + n + 63) / 64 - k / 64

/-- Counts the lines of an access: HBMRD or HBMWR of the stack, and MESHB of the kiln that the data leaves (R591). -/
def State.pmcAccess (s : State) (unit k n : Nat) (write : Bool) : State :=
  let lines := linesOf k n
  let s := if k < 2 ^ 42 then s.pmc (if write then 0x07 else 0x06) (k / stackBytes) lines else s
  let away := keyKiln k != unitKiln unit
  match if write then unitKiln unit else keyKiln k with
  | some x => if away then s.pmc 0x08 x lines else s
  | none => s

/-! ### Memory errors (R343-R347) -/

/-- PLACE of an error record (R347); the pseudo-channel, DIMM and rank are 0 (R345: the hash is not given). -/
def errorPlace (k : Nat) : Nat :=
  match tierOf k with
  | 1 => k / stackBytes
  | 2 => (k - peatBase) / 4096 % 24
  | 0 => (k - hearthBase) / 0x800000 + (k - hearthBase) % 0x800000 / 64 % 64 * 512
  | _ => 0

/-- Writes an error record (R347), also to the module error log. `a` is the device address of the failing line. -/
def State.errorRecord (s : State) (a code tier flags unit tag place : Nat) : State :=
  let fl := flags + (if s.stepOpen then 4 else 0) + (if s.stepState = 4 then 8 else 0)
  let record := leBytes 8 s.now ++ leBytes 6 (a / 64 * 64) ++ leBytes 2 code ++ leBytes 1 tier ++ leBytes 1 fl ++
    leBytes 2 unit ++ leBytes 2 tag ++ leBytes 2 place ++ leBytes 8 s.openStep
  let n := s.get Reg.MEM_ELOG_CNT_COUNT
  let base := s.get Reg.MEM_ELOG_BASE_ADDR * 64
  let s := if base = 0 then s else s.post (base + n % 4096 * 32) record
  (s.put Reg.MEM_ELOG_CNT_COUNT (n + 1)).elog 0 0 record

/-- The source of a corrected error, for its rate limits (R343): stack, channel or hearth. -/
def ceSourceOf (k : Nat) : Nat := tierOf k * 1024 + errorPlace k % 512

/-- A corrected error at a key (R343): counts, and at most one record per source in 12,500 stokes. -/
def State.correctedError (s : State) (w : Who) (a k : Nat) (scrub : Bool) : State :=
  let s := s.bump Reg.MEM_CE_CNT_COUNT 1
  let s := match tierOf k with
    | 1 => s.bumpSat (Reg.MEM_HBM_STAT_CE (k / stackBytes)) 1
    | 2 => s.bumpSat (Reg.PEAT_CH_CE (errorPlace k)) 1
    | _ => s
  let src := ceSourceOf k
  let s := { s with dbg := { s.dbg with ceSecond := sput s.dbg.ceSecond src (sget 0 s.dbg.ceSecond src + 1) } }
  match sfind s.dbg.ceRecord src with
  | some t =>
    if s.now < t + 12500 then s
    else { s with dbg := { s.dbg with ceRecord := sput s.dbg.ceRecord src s.now } }.errorRecord a 0 (tierOf k)
      (if scrub then 2 else 0) w.unit w.tag (errorPlace k)
  | none => { s with dbg := { s.dbg with ceRecord := sput s.dbg.ceRecord src s.now } }.errorRecord a 0 (tierOf k)
      (if scrub then 2 else 0) w.unit w.tag (errorPlace k)

/-- Record, count and event of an uncorrectable error that a read detects (R344). -/
def State.ueFound (s : State) (w : Who) (a k : Nat) (scrub : Bool) : State :=
  let s := s.errorRecord a memUE (tierOf k) (1 + if scrub then 2 else 0) w.unit w.tag (errorPlace k)
  (s.bump Reg.MEM_UE_CNT_COUNT 1).event 4 0x01 w.unit memUE a

/-- The marked blocks that a range of keys touches. -/
def State.marks (s : State) (k n : Nat) : List (Nat × EccMark) :=
  s.ecc.filter fun p => decide (p.1 < k + n ∧ k < p.1 + blockOf p.1)

/-- Records a memory-class error of an access in MEM_ERR (R349). -/
def State.memErr (s : State) (w : Who) (code : Nat) : State :=
  s.firstErr Reg.MEM_ERR_VALID Reg.MEM_ERR_CODE code [(Reg.MEM_ERR_UNIT, w.unit)]

end Sys2Proof.Machine
end

