-- ==== Sys2Proof/Machine/Collier.lean ====
section
/-! DEFINITION. The collier's shared operations: completion records (R389-R391), commands that wait (FENCE, EVENT_WAIT),
the vote (R421-R425) and the end of a step by abort (R416, R433), and device-memory reads and writes with their errors
(R322-R348). -/

namespace Sys2Proof.Machine

/-! ### Descriptors and completion records -/

/-- Bytes lo to lo + n - 1 of a descriptor, as a number (R390). -/
def dField (d : BitVec 512) (lo n : Nat) : Nat := d.toNat / 2 ^ (8 * lo) % 2 ^ (8 * n)

/-- Command code (R390). -/
def dOpc (d : BitVec 512) : Nat := dField d 0 1
/-- Command id (R390). -/
def dCid (d : BitVec 512) : Nat := dField d 2 2

/-- The command of a started entry. -/
def Started.opc (c : Started) : Nat := dOpc c.desc
/-- Its command id. -/
def Started.cid (c : Started) : Nat := dCid c.desc

/-- OK or OK_FLAGS for work that succeeded (R21); every other code as it stands. -/
def codeWith (flags : Fl) (code : Nat) : Nat :=
  if code = 0 ∧ (flags &&& ~~~fIX) ≠ 0 then 1 else code

/-- The completion record of R391 with its phase bit clear. -/
def completionRecord (c : Started) (now code : Nat) (result detail : Nat) : List Byte :=
  leBytes 2 c.cid ++ leBytes 1 c.sq ++ leBytes 1 0 ++ leBytes 2 (codeWith c.flags code) ++ leBytes 2 c.flags.toNat ++
    leBytes 8 now ++ leBytes 8 result ++ leBytes 4 c.sqHead ++ leBytes 4 detail

/-- Entries of a completion queue. -/
def State.cqEntries (s : State) (q : Nat) : Nat := 2 ^ s.get (Reg.COL_CQ_CTL_LOG2ENT q)

/-- Whether a completion queue can take a record: enabled and not full (R387, R389). -/
def State.cqReady (s : State) (q : Nat) : Bool :=
  s.isSet (Reg.COL_CQ_CTL_EN q) &&
    decide ((s.get (Reg.COL_CQ_TAIL_TAIL q) + 2 ^ 32 - s.get (Reg.COL_CQ_HEAD_HEAD q)) % 2 ^ 32 < s.cqEntries q)

/-- Writes a record at the tail, advances the tail and sends the message when enabled (R389). -/
def State.cqWrite (s : State) (w : WaitingRecord) : State :=
  let q := w.cq
  let t := s.get (Reg.COL_CQ_TAIL_TAIL q)
  let phase := if s.col.phaseLow.contains q then 0 else 1
  let n := s.cqEntries q
  let s := s.post (s.get (Reg.COL_CQ_BASE_ADDR q) * 64 + t % n * 32) (patch w.bytes 3 [BitVec.ofNat 8 phase])
  let s := s.put (Reg.COL_CQ_TAIL_TAIL q) (t + 1)
  let s := if (t + 1) % n = 0 then
      { s with col := { s.col with phaseLow :=
        if phase = 1 then q :: s.col.phaseLow else s.col.phaseLow.filter (· != q) } }
    else s
  if !w.noInt && s.isSet (Reg.COL_CQ_CTL_IEN q) then s.msix (s.get (Reg.COL_CQ_CTL_VECTOR q)) else s

/-- Writes the waiting records of a completion queue, oldest first, while it can take them. -/
def State.cqFlushGo (q : Nat) : List WaitingRecord → List WaitingRecord → State → State
  | [], kept, s => { s with col := { s.col with cqWait := kept } }
  | w :: ws, kept, s =>
    if w.cq = q && s.cqReady q then State.cqFlushGo q ws kept (s.cqWrite w)
    else State.cqFlushGo q ws (kept ++ [w]) s

/-- Writes what waits for a completion queue (R387, R389). -/
def State.cqFlush (s : State) (q : Nat) : State := State.cqFlushGo q s.col.cqWait [] s

/-- Removes a started command and delivers its completion record, or keeps the record waiting (R389). DRAIN of a stopped
queue goes once none of its started commands remains (R413). -/
def State.finish (s : State) (c : Started) (code result detail : Nat) : State :=
  let s := { s with col := { s.col with started := s.col.started.filter (·.order != c.order) } }
  let s := if !s.isSet (Reg.COL_SQ_CTL_EN c.sq) && s.col.started.all (·.sq != c.sq) then
      s.put (Reg.COL_SQ_CTL_DRAIN c.sq) 0
    else s
  if c.mute then s
  else
    let w : WaitingRecord := ⟨c.cq, bit (dField c.desc 1 1) 1, completionRecord c s.now code result detail⟩
    let s := s.trace 2 0x300 0 (traceRecord s.now 2 1 0x300 c.cid (codeWith c.flags code) c.order c.sq)
    if s.cqReady c.cq && !(s.col.cqWait.any (·.cq == c.cq)) then s.cqWrite w
    else { s with col := { s.col with cqWait := s.col.cqWait ++ [w] } }

/-- Whether every command in a FENCE's scope that started before it has completed (R394). -/
def State.fenceDone (s : State) (c : Started) : Bool :=
  s.col.started.all fun x => !(decide (x.order < c.order) && (dField c.desc 8 1 == 1 || x.sq == c.sq))

/-- The first event record at or after an index whose class is in a mask (R394). -/
def matchEvent (after mask : Nat) : Nat → List Nat → Option (Nat × Nat)
  | _, [] => none
  | i, c :: cs => if after ≤ i && bit mask c then some (i, c) else matchEvent after mask (i + 1) cs

/-- How a waiting command completes now, if it does: code, RESULT and DETAIL. -/
def State.waitDone (s : State) (c : Started) : Option (Nat × Nat × Nat) :=
  if c.opc = 0x0F then (if s.fenceDone c then some (0, 0, 0) else none)
  else if c.opc = 0x10 then
    match matchEvent (dField c.desc 8 8) (dField c.desc 16 2) 0 s.col.events with
    | some (i, cls) => some (0, i, cls)
    | none => none
  else none

/-! ### Submission queues (R386-R388) -/

/-- Device address of the entry at a submission queue's head. -/
def State.sqEntryAt (s : State) (q : Nat) : Nat :=
  s.get (Reg.COL_SQ_BASE_ADDR q) * 64 + s.get (Reg.COL_SQ_HEAD_HEAD q) % 2 ^ s.get (Reg.COL_SQ_CTL_LOG2ENT q) * 64

/-- Whether a submission queue takes descriptors and has one (R387); in P3 and P4 and before READY none does
(R571, R576). -/
def State.sqTakes (s : State) (q : Nat) : Bool :=
  s.isSet (Reg.COL_SQ_CTL_EN q) && !s.isSet (Reg.COL_SQ_CTL_FAULT q) && !s.isSet (Reg.COL_SQ_CTL_DRAIN q) &&
    s.get (Reg.COL_SQ_HEAD_HEAD q) != s.get (Reg.COL_SQ_TAIL_TAIL q) && decide (s.get Reg.PWR_STATUS_PSTATE ≤ 2) &&
    s.isSet Reg.PWR_STATUS_READY

/-- The collier reading descriptors. -/
def asCollier : Who := { unit := 0x300, host := true, exempt := true }

/-- A queue stops with FAULT and the QUEUE event (R387, R411): class 9, kind 0x08, DATA the queue. -/
def State.faultQueue (s : State) (q : Nat) : State := (s.put (Reg.COL_SQ_CTL_FAULT q) 1).event 9 0x08 0xFFFF 0 q

/-- Forgets the descriptor fetches of a queue. -/
def State.dropFetch (s : State) (q : Nat) : State :=
  { s with hif := { s.hif with
      waiting := s.hif.waiting.filter (· != .descriptor q)
      granted := s.hif.granted.filter (· != .descriptor q) } }

/-- Fetches the descriptor at the head: in the host window a request goes out, elsewhere the read is made at once; a read
that fails faults the queue (R387, R516). -/
def State.fetchHead (s : State) (q : Nat) : State :=
  if !s.sqTakes q then s
  else if inWindow (s.sqEntryAt q) then
    if !s.windowOpen then s.faultQueue q
    else if s.hif.waiting.contains (.descriptor q) || s.hif.granted.contains (.descriptor q) then s
    else { s with hif := { s.hif with waiting := s.hif.waiting ++ [.descriptor q] } }
  else if s.rangeCode asCollier false (s.sqEntryAt q) 64 ≠ 0 then s.faultQueue q
  else match s.place (s.sqEntryAt q) with
    | none => s.faultQueue q
    | some k => match (s.marks k 64).find? fun p => p.2 == .uncorrectable with
      | some p => (s.ueFound asCollier (s.sqEntryAt q + (p.1 - k)) p.1 false).faultQueue q
      | none => s

/-- The 64 bytes at the head as a descriptor. -/
def State.headDesc (s : State) (q : Nat) : BitVec 512 := BitVec.ofNat 512 (leNat (s.peek (s.sqEntryAt q) 64))

/-- Whether the descriptor d, at the head of queue q, may start (R388). -/
def State.canTake (s : State) (q : Nat) (d : BitVec 512) : Bool :=
  s.sqTakes q && (!inWindow (s.sqEntryAt q) || s.hif.granted.contains (.descriptor q)) && s.headDesc q == d &&
    decide (s.col.started.length < 256) &&
    s.col.started.all fun x => x.sq != q ||
      (!x.hold && !(bit (dField d 1 1) 0 && x.sqHead == s.get (Reg.COL_SQ_HEAD_HEAD q)))

/-- The started command that taking descriptor d makes. -/
def State.startOf (s : State) (q : Nat) (d : BitVec 512) : Started where
  sq := q
  cq := s.get (Reg.COL_SQ_CTL_CQ q)
  desc := d
  sqHead := (s.get (Reg.COL_SQ_HEAD_HEAD q) + 1) % 2 ^ 32
  start := s.now
  order := s.col.order
  flags := 0
  hold := false
  mute := false

/-- Takes the descriptor at the head and fetches the next. -/
def State.takeHead (s : State) (q : Nat) (d : BitVec 512) : State :=
  let s' := { s with col := { s.col with started := s.col.started ++ [s.startOf q d], order := s.col.order + 1 } }
  ((s'.dropFetch q).put (Reg.COL_SQ_HEAD_HEAD q) (s.get (Reg.COL_SQ_HEAD_HEAD q) + 1)).fetchHead q

/-- Whether a queue's head holds a descriptor with a reserved command code, which completes at once (R392). -/
def State.reservedHead (s : State) (q : Nat) : Bool :=
  s.sqTakes q && (dOpc (s.headDesc q) = 0 || decide (0x10 < dOpc (s.headDesc q))) && s.canTake q (s.headDesc q)

/-- Completes waiting commands whose condition holds, in start order, then descriptors with a reserved code, in queue
order, until none is left. -/
def State.settleGo : Nat → State → State
  | 0, s => s
  | n + 1, s =>
    match s.col.started.find? fun c => (s.waitDone c).isSome with
    | some c =>
      match s.waitDone c with
      | some (code, r, d) => State.settleGo n (s.finish c code r d)
      | none => s
    | none =>
      match (List.range 64).find? s.reservedHead with
      | some q => State.settleGo n ((s.takeHead q (s.headDesc q)).finish (s.startOf q (s.headDesc q)) 0x8001 0 0)
      | none => s

/-- Completes waiting commands (R394). -/
def State.settle (s : State) : State := State.settleGo 4194560 s

/-- Completes a started command (R389), and every command that waited for it. -/
def State.complete (s : State) (c : Started) (code : Nat) (result : Nat := 0) (detail : Nat := 0) : State :=
  (s.finish c code result detail).settle

/-- Raises an event and completes what waited for it (R394, R411). -/
def State.raise (s : State) (cls kind unit code data : Nat) : State := (s.event cls kind unit code data).settle

/-- Completes every started command with a code, oldest first, with flags that its work newly set. -/
def State.completeEvery (s : State) (opc code result detail : Nat) (flags : Fl) : State :=
  ((s.col.started.filter fun c => c.opc = opc).foldl (fun t c => t.finish { c with flags := flags } code result detail) s).settle

/-! ### The step state, the vote and aborts -/

/-- Numeric and fault reasons of the vote word (R421). -/
def vLOSS : Nat := 0x001
/-- R421. -/
def vGRAD : Nat := 0x002
/-- R421. -/
def vMEMUE : Nat := 0x004
/-- R421. -/
def vDEFER : Nat := 0x008
/-- R421. -/
def vHOST : Nat := 0x010
/-- R421. -/
def vLINK : Nat := 0x020
/-- R421. -/
def vFAULT : Nat := 0x040
/-- R421. -/
def vINSTR : Nat := 0x080
/-- R421. -/
def vDIVERGE : Nat := 0x100
/-- R421: bits [8:2]. -/
def faultMask : Nat := 0x1FC

/-- Codes of the step-transaction class (R449). -/
def stepInvalid : Nat := 0x8001
/-- R449. -/
def stepStateErr : Nat := 0x8002
/-- R449. -/
def stepNumber : Nat := 0x8003
/-- R449. -/
def stepVetoed : Nat := 0x8004
/-- R449. -/
def stepTorn : Nat := 0x8005
/-- R449. -/
def stepUnbound : Nat := 0x8006
/-- R449. -/
def stepSkipped : Nat := 0x0003

/-- Enters a step state (R416), which trace windows see (R593). -/
def State.enter (s : State) (st : Nat) : State :=
  let old := s.stepState
  (s.put Reg.COL_STEP_STATUS_STATE st).trace 5 0 0
    (traceRecord s.now 5 2 0 0 0 (s.get Reg.COL_STEP_NUM_STEP) (old * 256 + st))

/-- The vote of a step completion: the global vote ORed with the late reasons (R421). -/
def State.voteDetail (s : State) : Nat := s.get Reg.COL_STEP_VOTE_GLOBAL ||| s.get Reg.COL_STEP_VOTE_LATE

/-- Device address of the stat record of a layer in kiln k's stack: STAT_BASE + 128 x LAYER (R245, R361). -/
def State.statAddr (s : State) (k layer : Nat) : Nat := sget 0 s.cfg.active.statBase k + 128 * layer

/-- Whether kiln k keeps stat records: a compute kiln of a loaded configuration, which gives it a STAT_BASE (R245, R361). -/
def State.keepsStats (s : State) (k : Nat) : Bool :=
  s.cfg.active.loaded && (sget ⟨0, 0, 0⟩ s.cfg.active.kilns k).role == 1

/-- Layers with stat records in the step: those with a limit entry, and those that converting units have named besides. -/
def State.statLayers (s : State) : List Nat := (s.cfg.active.layers.map fun e => fieldAt e 0 2) ++ s.step.extra

/-- Kilns that keep stat records. -/
def State.statKilns (s : State) : List Nat :=
  (List.range 32).filter s.keepsStats

/-- Sets bits of STATE in every stat record of the step (R246). -/
def State.markStats (s : State) (setBits : Nat) : State :=
  s.statKilns.foldl (fun t k => s.statLayers.foldl (fun u l =>
    let a := u.statAddr k l + 3
    u.post a [u.peekByte a ||| BitVec.ofNat 8 setBits]) t) s

/-- The history entry of a step that ends (R460). -/
def State.historyEntry (s : State) (outcome : Nat) : List Byte :=
  leBytes 8 (s.get Reg.COL_STEP_NUM_STEP) ++ leBytes 4 (s.get Reg.COL_STEP_NORM_NORM) ++ leBytes 4 (s.get Reg.COL_STEP_NORM_LOSS) ++
    leBytes 4 (s.get Reg.COL_STEP_VOTE_GLOBAL) ++ leBytes 1 outcome ++ leBytes 3 0

/-- Records a step's outcome in COL_STEP_LAST (R450): 1 committed, 2 skipped, 3 aborted, 4 torn; a step that left RUNNING
also enters the history of the last 64 (R460). -/
def State.setLast (s : State) (outcome : Nat) : State :=
  let s := if s.stepState = 1 then s else
    let h := s.step.history ++ [s.historyEntry outcome]
    { s with step := { s.step with history := h.drop (h.length - 64) } }
  (s.put Reg.COL_STEP_LAST_OUTCOME outcome).put Reg.COL_STEP_LAST_STEP (s.get Reg.COL_STEP_NUM_STEP % 2 ^ 56)

/-- Operations that only wait for a condition of the step: fences, WAITMB, TWAIT, GNORM and UPDATE. They end when the
step aborts (R416, R433). -/
def waitsOnly (op : BitVec 128) : Bool :=
  let c := op.toNat % 256
  c = 0x02 || c = 0x03 || c = 0x0B || c = 0x10 || c = 0x12 || c = 0x13

/-- Ends the training runs: no further operation issues, waiting operations end, transfers in flight stay. -/
def State.endRuns (s : State) (eval : Bool) : State :=
  { s with col := { s.col with runs := s.col.runs.map fun r =>
      if r.eval == eval then
        { r with ended := true, swaps := [], owners := [], flight := r.flight.filter fun f => !waitsOnly f.op }
      else r } }

/-- The step aborts (R416, R419, R420, R433): region table restored, timers that it armed cancelled, stat records marked
ABORTED, and the commands that meet STEP_VETOED completed. What mirrored mode holds goes. -/
def State.abortStep (s : State) : State :=
  let auto := s.isSet Reg.COL_STEP_STATUS_AUTO
  let s := s.markStats 0x10
  let s := { s with
    cfg := { s.cfg with active := { s.cfg.active with regions := s.step.regions } }
    col := { s.col with timers := s.col.timers.filter fun t => !t.2.2 }
    step := { s.step with updates := [], shardsIn := [], deadline := none }
    link := { s.link with mirror := none, digestIn := none } }
  let s := ((s.endRuns false).setLast 3).enter 6
  let s := s.put Reg.COL_STEP_STATUS_COMMITREQ 0
  let n := s.get Reg.COL_STEP_NUM_STEP
  let s := s.completeEvery 0x03 stepVetoed 0 s.voteDetail s.step.flags
  if auto then s else s.completeEvery 0x02 stepVetoed n s.voteDetail s.step.flags

/-- A veto reason is sampled (R422-R425). Before close it enters the local vote, and a fault reason voids the step; after
close and before COMMIT a fault reason is late and aborts this module's step; otherwise it has no effect. -/
def State.veto (s : State) (reason : Nat) : State :=
  let st := s.stepState
  if (st = 1 || st = 2) && !s.isSet Reg.COL_STEP_STATUS_CLOSED then
    let s := s.orInto Reg.COL_STEP_LOCAL_LOCAL reason
    if reason &&& faultMask ≠ 0 then s.put Reg.COL_STEP_STATUS_VOID 1 else s
  else if (st = 2 || st = 3) && (reason &&& faultMask) ≠ 0 then
    (s.orInto Reg.COL_STEP_VOTE_LATE (reason &&& faultMask)).abortStep
  else s

/-! ### Reading and writing device memory -/

/-- An uncorrectable error is detected by a read (R344): record, count, event, and the veto when the consumer works for
the open step. -/
def State.uncorrectable (s : State) (w : Who) (a k : Nat) (scrub : Bool) : State :=
  let s := (s.ueFound w a k scrub).settle
  if w.step then s.veto vMEMUE else s

/-- An access that fails before any data is looked at: the error register, and for the open step the veto that a failed
window access gives it (R339, R349). -/
def State.accessFailed (s : State) (w : Who) (c : Nat) : State :=
  let s := s.memErr w c
  if c = memHost && w.step then s.veto vMEMUE else s

/-- Reads one piece within a 4 KiB unit. -/
def State.readPiece (s : State) (w : Who) (a n : Nat) : State × Nat × List Byte :=
  let c := s.pieceCode w false a n
  if c ≠ 0 then (s.accessFailed w c, c, [])
  else match s.place a with
    | none => (s, memUnmapped, [])
    | some k =>
      let ms := s.marks k n
      match ms.find? fun p => p.2 == .uncorrectable with
      | some p => ((s.uncorrectable w (a + (p.1 - k)) (Nat.max k p.1) false).memErr w memUE, memUE, [])
      | none =>
        let s := if hostKey ≤ k then s.linkRx n else s
        ((ms.foldl (fun t p => t.correctedError w (a + (p.1 - k)) (Nat.max k p.1) false) s).pmcAccess w.unit k n false, 0, s.bytes k n)

/-- Reads pieces in ascending address, stopping at the first error. -/
def State.readPieces (w : Who) : List (Nat × Nat) → State → State × Nat × List Byte
  | [], s => (s, 0, [])
  | (a, n) :: ps, s =>
    let (s, c, bs) := s.readPiece w a n
    if c ≠ 0 then (s, c, [])
    else
      let (s, c, rest) := State.readPieces w ps s
      (s, c, bs ++ rest)

/-- Reads n bytes at a device address, all of which must be permitted (R322, R327): the state with what errors left, a memory-class code or 0, and the bytes. -/
def State.readMem (s : State) (w : Who) (a n : Nat) : State × Nat × List Byte :=
  let c := s.rangeCode w false a n
  if c ≠ 0 then (s.accessFailed w c, c, []) else State.readPieces w (piecesOf a n) s

/-- Writes one piece. A partial write of a block with an uncorrectable error fails as a read would; a write that covers
the block clears the error (R344). -/
def State.writePiece (s : State) (w : Who) (a : Nat) (bs : List Byte) : State × Nat :=
  let n := bs.length
  let c := s.pieceCode w true a n
  if c ≠ 0 then (s.accessFailed w c, c)
  else match s.place a with
    | none => (s, memUnmapped)
    | some k =>
      let ms := s.marks k n
      match ms.find? fun p => p.2 == .uncorrectable && !(decide (k ≤ p.1 ∧ p.1 + blockOf p.1 ≤ k + n)) with
      | some p => ((s.uncorrectable w (a + (p.1 - k)) (Nat.max k p.1) false).memErr w memUE, memUE)
      | none =>
        let s := { s with ecc := s.ecc.filter fun p => !(ms.contains p) }
        ((if hostKey ≤ k then (s.setBytes k bs).linkTx n else s.setBytes k bs).pmcAccess w.unit k n true, 0)

/-- Writes pieces in ascending address, stopping at the first error; what was written stays. -/
def State.writePieces (w : Who) : List (Nat × Nat) → List Byte → State → State × Nat
  | [], _, s => (s, 0)
  | (a, n) :: ps, bs, s =>
    let (s, c) := s.writePiece w a (bs.take n)
    if c ≠ 0 then (s, c) else State.writePieces w ps (bs.drop n) s

/-- Writes bytes at a device address, all of which must be permitted (R322, R327): the state and a memory-class code or 0. -/
def State.writeMem (s : State) (w : Who) (a : Nat) (bs : List Byte) : State × Nat :=
  let c := s.rangeCode w true a bs.length
  if c ≠ 0 then (s.accessFailed w c, c) else State.writePieces w (piecesOf a bs.length) bs s

/-- The unit that host commands act as (R395). -/
def asHost : Who := { unit := 0x2C0, host := true }

end Sys2Proof.Machine
end

