-- ==== Sys2Proof/Machine/Fixed.lean ====
section
/-! DEFINITION. Exact and fixed-point arithmetic that the number formats rest on: integer square root, the base-2 logarithm
of a ratio to a given number of fraction bits, and 2 to a binary fraction. Log conversions are correctly rounded
(R90-R92, R96), so the logarithm is carried to 256 bits: its floor is exact for every source the module meets. -/

namespace Sys2Proof.Machine

/-- Fraction bits carried while a logarithm or a power is formed. -/
def fixBits : Nat := 256

/-- Newton's iteration for the integer square root, from above. -/
def isqrtGo (n : Nat) : Nat → Nat → Nat
  | 0, x => x
  | k + 1, x =>
    let y := (x + n / x) / 2
    if y < x then isqrtGo n k y else x

/-- The integer square root, rounded down. -/
def isqrt (n : Nat) : Nat :=
  if n = 0 then 0 else isqrtGo n 64 (2 ^ (Nat.log2 n / 2 + 1))

/-- The largest e with 2^e at most n / d. -/
def ratioExp (n d : Nat) : Int :=
  let e : Int := (Nat.log2 n : Int) - (Nat.log2 d : Int)
  let fits : Bool := if e < 0 then decide (d ≤ n * 2 ^ (-e).toNat) else decide (d * 2 ^ e.toNat ≤ n)
  if fits then e else e - 1

/-- The next `k` bits of the base-2 logarithm of the mantissa `m`, which has `fixBits` fraction bits and lies in [1, 2). -/
def logBits : Nat → Nat → Nat → Nat
  | 0, _, acc => acc
  | k + 1, m, acc =>
    let q := (m * m) >>> fixBits
    if 2 ^ (fixBits + 1) ≤ q then logBits k (q >>> 1) (2 * acc + 1) else logBits k q (2 * acc)

/-- floor (2^k × log₂ (n / d)), for positive n and d. -/
def log2Floor (n d k : Nat) : Int :=
  let e := ratioExp n d
  let up : Nat := if e < 0 then n * 2 ^ (-e).toNat else n
  let dn : Nat := if e < 0 then d else d * 2 ^ e.toNat
  if up = dn then e * (2 ^ k : Nat)
  else e * (2 ^ k : Nat) + (logBits k (up * 2 ^ fixBits / dn) 0 : Nat)

/-- Whether n is a power of two. -/
def isPow2 (n : Nat) : Bool := decide (0 < n ∧ n = 2 ^ Nat.log2 n)

/-- The product of the roots 2^(1/2), 2^(1/4), … that the bits of `f` name, most significant first. -/
def exp2Go (f : Nat) : Nat → Nat → Nat → Nat
  | 0, _, acc => acc
  | k + 1, root, acc =>
    let r := isqrt (root * 2 ^ fixBits)
    exp2Go f k r (if f.testBit k then (acc * r) >>> fixBits else acc)

/-- 2^(f / 2^k) for f below 2^k, with `fixBits` fraction bits, rounded down. -/
def exp2Frac (f k : Nat) : Nat := exp2Go f k (2 ^ (fixBits + 1)) (2 ^ fixBits)

/-- log₂ e with `fixBits` fraction bits, rounded down. -/
def log2E : Nat :=
  167052672916848388242985626561247531987276682633131050150846402744536260568207

/-- ln 2 with `fixBits` fraction bits, rounded down. -/
def ln2 : Nat :=
  80260960185991308862233904206310070533990667611589946606122867505419956976171

/-- Integer division rounding up, for a positive divisor. -/
def ceilDiv (a b : Int) : Int := -((-a).fdiv b)

end Sys2Proof.Machine
end

