-- ==== Sys2Proof/Machine/Num.lean ====
section
/-! DEFINITION. The number formats and every conversion between them (R62-R101, R617): the codes of R63, what each code
means, and rounding to Grendy, binary and integer targets with the flags of R100. -/

namespace Sys2Proof.Machine

/-- The formats of R63. -/
inductive Fmt where
  | gl16 | gl8 | gl4 | gl4c | bf32 | bf16b | bf16h | int8 | int4 | uint8
deriving DecidableEq, Repr

/-- The format of a 4-bit code; 0xA to 0xF are reserved (R63). -/
def Fmt.ofCode : Nat → Option Fmt
  | 0 => some .gl16
  | 1 => some .gl8
  | 2 => some .gl4
  | 3 => some .gl4c
  | 4 => some .bf32
  | 5 => some .bf16b
  | 6 => some .bf16h
  | 7 => some .int8
  | 8 => some .int4
  | 9 => some .uint8
  | _ => none

/-- The code of a format (R63). -/
def Fmt.code : Fmt → Nat
  | .gl16 => 0
  | .gl8 => 1
  | .gl4 => 2
  | .gl4c => 3
  | .bf32 => 4
  | .bf16b => 5
  | .bf16h => 6
  | .int8 => 7
  | .int4 => 8
  | .uint8 => 9

/-- Bits of one stored element (R64). -/
def Fmt.bits : Fmt → Nat
  | .gl4 | .gl4c | .int4 => 4
  | .gl8 | .int8 | .uint8 => 8
  | .gl16 | .bf16b | .bf16h => 16
  | .bf32 => 32

/-- Whether a format is of the Grendy family. -/
def Fmt.isGrendy : Fmt → Bool
  | .gl16 | .gl8 | .gl4 | .gl4c => true
  | _ => false

/-- Whether a format always carries block scales (R82). -/
def Fmt.alwaysScaled : Fmt → Bool
  | .gl8 | .gl4 | .gl4c => true
  | _ => false

/-- A value apart from its format. A finite non-zero value is ± m × 2^(e + q/128), with m > 0 and q < 128: every code,
every bucket sum and every product of such values with coarse scales has this form. -/
inductive Num where
  | zero
  | nan
  | inf (neg : Bool)
  | fin (neg : Bool) (m : Nat) (e : Int) (q : Nat)
deriving DecidableEq, Repr

/-- ± 2^(t/128). -/
def Num.ofLog (neg : Bool) (t : Int) : Num := .fin neg 1 (t.fdiv 128) (t.fmod 128).toNat

/-- The value of an integer times a power of two. -/
def Num.ofInt (z : Int) (e : Int) : Num :=
  if z = 0 then .zero else .fin (decide (z < 0)) z.natAbs e 0

/-- The value times 2^k, exactly. -/
def Num.scale (k : Int) : Num → Num
  | .fin s m e q => .fin s m (e + k) q
  | x => x

/-- The value times 2^(t/128), exactly (a log addition, R83). -/
def Num.scaleLog (t : Int) : Num → Num
  | .fin s m e q => .fin s m (e + ((q : Int) + t).fdiv 128) (((q : Int) + t).fmod 128).toNat
  | x => x

/-- The value with its sign inverted; zero and NaN have none (R65, R67). -/
def Num.neg : Num → Num
  | .fin s m e q => .fin (!s) m e q
  | .inf s => .inf (!s)
  | x => x

/-- Whether the value is finite. -/
def Num.isFinite : Num → Bool
  | .zero => true
  | .fin _ _ _ _ => true
  | _ => false

/-- The magnitude m × 2^(e + q/128) raised to its 128th power, as an integer times a power of two. -/
def pow128 (m : Nat) (e : Int) (q : Nat) : Nat × Int := (m ^ 128, 128 * e + q)

/-- Whether one magnitude lies below another, exactly. -/
def magLt (m : Nat) (e : Int) (q : Nat) (m' : Nat) (e' : Int) (q' : Nat) : Bool :=
  let (a, x) := pow128 m e q
  let (b, y) := pow128 m' e' q'
  if x ≤ y then decide (a < b * 2 ^ (y - x).toNat) else decide (a * 2 ^ (x - y).toNat < b)

/-- Whether one value lies below another; NaN is below nothing. -/
def Num.lt : Num → Num → Bool
  | .nan, _ => false
  | _, .nan => false
  | .inf n, .inf n' => n && !n'
  | .inf n, _ => n
  | _, .inf n => !n
  | .zero, .zero => false
  | .zero, .fin n _ _ _ => !n
  | .fin n _ _ _, .zero => n
  | .fin n m e q, .fin n' m' e' q' =>
    if n != n' then n else if n then magLt m' e' q' m e q else magLt m e q m' e' q'

/-! ### Reading codes -/

/-- A GL16 code (R66, R67). -/
def gl16Num (c : Nat) : Num :=
  let s := decide (0x8000 ≤ c % 0x10000)
  let e := c % 0x8000
  if e = 0 then (if s then .nan else .zero)
  else if e = 0x7FFF then .inf s
  else .ofLog s ((e : Int) - 16384)

/-- A GL8 code (R69). -/
def gl8Num (c : Nat) : Num :=
  let s := decide (0x80 ≤ c % 0x100)
  let e := c % 0x80
  if e = 0 then (if s then .nan else .zero)
  else if e = 0x7F then .inf s
  else .ofLog s (16 * ((e : Int) - 64))

/-- A GL4 code (R70): both zero codes read as zero. -/
def gl4Num (c : Nat) : Num :=
  let e := c % 8
  if e = 0 then .zero else .ofLog (decide (8 ≤ c % 16)) (64 * ((e : Int) - 5))

/-- A binary format: precision, exponent bits, largest exponent. -/
structure BinFmt where
  p    : Nat
  ew   : Nat
  emax : Int
deriving DecidableEq, Repr

/-- binary32. -/
def bin32 : BinFmt := ⟨24, 8, 127⟩
/-- bfloat16. -/
def binB16 : BinFmt := ⟨8, 8, 127⟩
/-- binary16. -/
def binH16 : BinFmt := ⟨11, 5, 15⟩

/-- Fraction bits. -/
def BinFmt.fw (f : BinFmt) : Nat := f.p - 1
/-- The exponent of the least bit of a subnormal. -/
def BinFmt.qmin (f : BinFmt) : Int := 1 - f.emax - (f.p - 1 : Nat)
/-- The code of +infinity. -/
def BinFmt.infCode (f : BinFmt) : Nat := (2 ^ f.ew - 1) * 2 ^ f.fw
/-- The sign bit. -/
def BinFmt.signBit (f : BinFmt) : Nat := 2 ^ (f.ew + f.fw)
/-- The quiet NaN that the module generates (R77). -/
def BinFmt.qnan (f : BinFmt) : Nat := f.infCode + 2 ^ (f.fw - 1)
/-- Sign of a code. -/
def BinFmt.isNeg (f : BinFmt) (c : Nat) : Bool := c.testBit (f.ew + f.fw)
/-- Magnitude bits of a code. -/
def BinFmt.mag (f : BinFmt) (c : Nat) : Nat := c % f.signBit
/-- Whether a code is a NaN. -/
def BinFmt.isNaN (f : BinFmt) (c : Nat) : Bool := decide (f.infCode < f.mag c)
/-- Whether a code is a signalling NaN. -/
def BinFmt.isSNaN (f : BinFmt) (c : Nat) : Bool := f.isNaN c && !c.testBit (f.fw - 1)
/-- Whether a code is subnormal. -/
def BinFmt.isSub (f : BinFmt) (c : Nat) : Bool := decide (0 < f.mag c ∧ f.mag c < 2 ^ f.fw)

/-- The value of a binary code; the sign of zero and the payload of a NaN are not part of it. -/
def BinFmt.num (f : BinFmt) (c : Nat) : Num :=
  let m := f.mag c
  if f.infCode < m then .nan
  else if m = f.infCode then .inf (f.isNeg c)
  else if m = 0 then .zero
  else
    let ex := m / 2 ^ f.fw
    if ex = 0 then .fin (f.isNeg c) m f.qmin 0
    else .fin (f.isNeg c) (2 ^ f.fw + m % 2 ^ f.fw) (f.qmin + (ex : Int) - 1) 0

/-- A two's complement field as an integer. -/
def signedOf (bits c : Nat) : Int :=
  let x := c % 2 ^ bits
  if 2 ^ (bits - 1) ≤ x then (x : Int) - (2 ^ bits : Nat) else (x : Int)

/-- An integer as a two's complement field. -/
def unsignedOf (bits : Nat) (z : Int) : Nat := (z.emod ((2 ^ bits : Nat) : Int)).toNat

/-- The value of a code in a format; GL4C codes are read through their codebook (R72). -/
def Fmt.num (book : List Byte) (f : Fmt) (c : Nat) : Num :=
  match f with
  | .gl16 => gl16Num c
  | .gl8 => gl8Num c
  | .gl4 => gl4Num c
  | .gl4c => gl8Num (book.getD (c % 16) 0).toNat
  | .bf32 => bin32.num c
  | .bf16b => binB16.num c
  | .bf16h => binH16.num c
  | .int8 => .ofInt (signedOf 8 c) 0
  | .int4 => .ofInt (signedOf 4 c) 0
  | .uint8 => .ofInt (c % 256 : Nat) 0

/-! ### Rounding to Grendy targets -/

/-- floor (2^k × log₂) of the magnitude m × 2^(e + q/128), for k at least 7. -/
def logFix (m : Nat) (e : Int) (q k : Nat) : Int :=
  log2Floor m 1 k + e * (2 ^ k : Nat) + (q * 2 ^ (k - 7) : Nat)

/-- A Grendy target: steps per octave as a power of two, bias and largest finite E (R66, R69, R70). -/
structure GlFmt where
  lg   : Nat
  bias : Int
  emax : Int
deriving DecidableEq, Repr

/-- GL16. -/
def glf16 : GlFmt := ⟨7, 16384, 0x7FFE⟩
/-- GL8. -/
def glf8 : GlFmt := ⟨3, 64, 0x7E⟩
/-- GL4. -/
def glf4 : GlFmt := ⟨1, 5, 7⟩

/-- The E, with an unbounded range, to which a logarithm of t 2^-32 of a step rounds, and whether that is exact (R90-R92).
`pow` says that t is exact; otherwise the logarithm lies a little above t. `u` are the random bits of SR. -/
def glRoundT (f : GlFmt) (mode : Rnd) (u : Nat) (pow : Bool) (t : Int) : Int × Bool :=
  let lo := f.bias + t.fdiv (2 ^ 32)
  let d := (t.emod (2 ^ 32)).toNat
  if pow && d == 0 then (lo, true)
  else
    let up : Bool := match mode with
      | .rn => decide (2 ^ 31 < d) || (d == 2 ^ 31 && (!pow || lo.emod 2 == 1))
      | .sr => decide (u < d)
      | _ => false
    (if up then lo + 1 else lo, false)

/-- The E to which a magnitude rounds, and whether the rounding is exact. `eps`, in units of 2^-32 of a step, is the
freedom that R135 leaves a bucket-set conversion; every other conversion has 0. -/
def glRoundE (f : GlFmt) (mode : Rnd) (u : Nat) (eps : Int) (m : Nat) (e : Int) (q : Nat) : Int × Bool :=
  let t := logFix m e q (f.lg + 32)
  let pow := isPow2 m
  if pow && t.emod (2 ^ 32) == 0 then glRoundT f mode u true t else glRoundT f mode u pow (t + eps)

/-- The largest finite code of a sign. -/
def GlFmt.maxCode (f : GlFmt) (neg : Bool) (signBit : Nat) : Nat :=
  f.emax.toNat + (if neg then signBit else 0)

/-- The GL16 or GL8 code of a rounded E (R100). `inform` says whether this is a conversion, which the clip setting governs
(R99), or an arithmetic result (R101). -/
def glWideCode (f : GlFmt) (signBit infE : Nat) (mode : Rnd) (clip inform s : Bool) (r : Int × Bool) : Conv :=
  let sign := if s then signBit else 0
  if f.emax < r.1 then
    if inform && (mode == .rz || clip) then ⟨f.maxCode s signBit, fOF ||| fCLIP ||| fIX, 0⟩
    else ⟨infE + sign, fOF ||| fIX, 0⟩
  else if r.1 < 1 then ⟨0, fUF ||| fIX, 0⟩
  else ⟨r.1.toNat + sign, flagIf (!r.2) fIX, 0⟩

/-- The GL4 code of a rounded E (R71, R100). -/
def gl4Code (s : Bool) (r : Int × Bool) : Conv :=
  if 7 < r.1 then ⟨if s then 15 else 7, fOF ||| fCLIP ||| fIX, 0⟩
  else if r.1 < 1 then ⟨0, fUF ||| fIX, 0⟩
  else ⟨r.1.toNat + (if s then 8 else 0), flagIf (!r.2) fIX, 0⟩

/-- Conversion of a value to GL16 or GL8 (R100). -/
def toGlWide (f : GlFmt) (signBit infE : Nat) (mode : Rnd) (clip inform : Bool) (u : Nat) (eps : Int) : Num → Conv
  | .zero => ⟨0, 0, 0⟩
  | .nan => ⟨signBit, fNV, 0⟩
  | .inf s => ⟨infE + (if s then signBit else 0), 0, 0⟩
  | .fin s m e q => glWideCode f signBit infE mode clip inform s (glRoundE f mode u eps m e q)

/-- Conversion of a value to GL4 (R71, R100). -/
def toGl4 (mode : Rnd) (u : Nat) (eps : Int) : Num → Conv
  | .zero => ⟨0, 0, 0⟩
  | .nan => ⟨0, fNV, 0⟩
  | .inf _ => ⟨0, fNV, 0⟩
  | .fin s m e q => gl4Code s (glRoundE glf4 mode u eps m e q)

/-! ### GL4C (R73) -/

/-- A finite GL8 code as a signed fixed-point number, 2^8 and `fixBits` below its value: equal distances between
codes of one residue class compare exactly. -/
def gl8Fixed (c : Nat) : Int :=
  match gl8Num c with
  | .fin s m e q =>
    let v : Int := ((m * exp2Frac q 7) * 2 ^ (e + 8).toNat : Nat)
    if s then -v else v
  | _ => 0

/-- Order of magnitude for steps 3 and 4 of R73: zero and finite entries, then infinities, then NaN. -/
def gl4cRank (c : Nat) : Nat :=
  match gl8Num c with
  | .zero => 0
  | .fin _ _ _ _ => c % 0x80
  | .inf _ => 0x7F
  | .nan => 0x80

/-- The first index that minimises a measure over the listed entries. -/
def argMin (measure : Nat → Nat) : List Nat → Option Nat
  | [] => none
  | i :: is =>
    match argMin measure is with
    | none => some i
    | some j => if measure j < measure i then some j else some i

/-- Conversion of a GL8 result to a codebook index (R73, steps 2 to 5). -/
def toBook (book : List Byte) (g : Conv) : Conv :=
  let entry := fun i => (book.getD i 0).toNat
  let smallest := (argMin (fun i => gl4cRank (entry i)) (List.range 16)).getD 0
  if !(gl8Num g.code).isFinite then ⟨smallest, g.fl ||| fNV, g.ie⟩
  else
    let cands := (List.range 16).filter fun i => (gl8Num (entry i)).isFinite
    match argMin (fun i => (gl8Fixed (entry i) - gl8Fixed g.code).natAbs) cands with
    | none => ⟨smallest, g.fl ||| fNV ||| fIX, g.ie⟩
    | some i => ⟨i, g.fl ||| flagIf (gl8Num (entry i) != gl8Num g.code) fIX, g.ie⟩

/-! ### Rounding to binary targets (R75, R617) -/

/-- A magnitude as an integer times a power of two, with a mark when non-zero bits lie below it. -/
structure Lin where
  m  : Nat
  e  : Int
  st : Bool
deriving DecidableEq, Repr

/-- The magnitude of a finite value in the linear domain. A fraction q of the exponent makes it irrational, so it is
carried to `fixBits` fraction bits with the mark set. -/
def linOf (m : Nat) (e : Int) (q : Nat) : Lin :=
  if q = 0 then ⟨m, e, false⟩ else ⟨m * exp2Frac q 7, e - fixBits, true⟩

/-- Rounds a magnitude to a multiple of 2^qe: the multiple and whether bits were lost. `eps`, in units of 2^-32 of that
step, is the freedom of R135. -/
def roundAt (mode : Rnd) (neg : Bool) (u : Nat) (eps : Int) (x : Lin) (qe : Int) : Nat × Bool :=
  let sh := qe - x.e
  if sh ≤ 0 then (x.m * 2 ^ (-sh).toNat, x.st)
  else
    let s := sh.toNat
    if x.m % 2 ^ s = 0 && !x.st then (x.m >>> s, false)
    else
      let v := ((x.m * 2 ^ 32 : Nat) + eps * (2 ^ s : Nat)).toNat
      let n := v >>> (s + 32)
      let r := v % 2 ^ (s + 32)
      let half := 2 ^ (s + 31)
      let up : Bool := match mode with
        | .rn => decide (half < r) || (r == half && (x.st || n % 2 == 1))
        | .rz => false
        | .ru => !neg
        | .rd => neg
        | .sr => decide (u < r >>> s)
      (if up then n + 1 else n, true)

/-- Rounds a finite non-zero magnitude to a binary format, with the flags of R17 and R76. -/
def roundBin (f : BinFmt) (mode : Rnd) (u : Nat) (eps : Int) (neg : Bool) (x : Lin) : Conv :=
  let sign := if neg then f.signBit else 0
  if x.m = 0 then ⟨sign, 0, 0⟩ else
  let top := x.e + (Nat.log2 x.m : Int)
  let emin := 1 - f.emax
  let qFree := top - (f.p - 1 : Nat)
  let qe := if qFree < f.qmin then f.qmin else qFree
  let (n, inexact) := roundAt mode neg u eps x qe
  let c := (qe - f.qmin).toNat * 2 ^ f.fw + n
  if f.emax < top || f.infCode ≤ c then
    let finite : Bool := match mode with
      | .rz => true
      | .ru => neg
      | .rd => !neg
      | _ => false
    ⟨sign + (if finite then f.infCode - 1 else f.infCode), fOF ||| fIX, ieOFL ||| ieINX⟩
  else
    let tiny := decide (top < emin) &&
      !(decide (top = emin - 1) && decide (2 ^ f.p ≤ (roundAt mode neg u eps x qFree).1))
    ⟨sign + c, flagIf inexact fIX ||| flagIf (c == 0) fUF, ieIf inexact ieINX ||| ieIf (tiny && inexact) ieUFL⟩

/-- Conversion of a value to a binary format (R96, R100): zero gives +0.0, a Grendy NaN the quiet NaN of R77. -/
def toBin (f : BinFmt) (mode : Rnd) (u : Nat) (eps : Int) : Num → Conv
  | .zero => ⟨0, 0, 0⟩
  | .nan => ⟨f.qnan, fNV, 0⟩
  | .inf s => ⟨f.infCode + (if s then f.signBit else 0), 0, 0⟩
  | .fin s m e q => roundBin f mode u eps s (linOf m e q)

/-- A binary NaN carried to another binary format: sign and leading payload bits kept, made quiet (R75, R77). -/
def nanToBin (src tgt : BinFmt) (c : Nat) : Conv :=
  let pay := c % 2 ^ src.fw
  let pay' := if src.fw ≤ tgt.fw then pay * 2 ^ (tgt.fw - src.fw) else pay / 2 ^ (src.fw - tgt.fw)
  let quiet := tgt.infCode + 2 ^ (tgt.fw - 1) + pay' % 2 ^ (tgt.fw - 1)
  ⟨quiet + (if src.isNeg c then tgt.signBit else 0), fNV, ieIf (src.isSNaN c) ieIV⟩

/-! ### Rounding to integer targets (R95, R100) -/

/-- Conversion of a value to an integer range, as an integer with its flags: saturating, NaN gives 0. -/
def toIntRange (lo hi : Int) (mode : Rnd) (u : Nat) (eps : Int) : Num → Int × Fl
  | .zero => (0, 0)
  | .nan => (0, fNV)
  | .inf s => (if s then lo else hi, fNV ||| fSAT)
  | .fin s m e q =>
    let (n, inexact) := roundAt mode s u eps (linOf m e q) 0
    let z : Int := if s then -(n : Int) else n
    if hi < z then (hi, fSAT ||| fIX)
    else if z < lo then (lo, fSAT ||| fIX)
    else (z, flagIf inexact fIX)

/-! ### The conversion of R62 -/

/-- What a conversion to a target format is done under (R62): rounding mode, clip setting, random bits, the codebook
of a GL4C target, and the freedom of R135 for bucket-set conversions. -/
structure CvtCtx where
  mode : Rnd
  clip : Bool := false
  u    : Nat := 0
  book : List Byte := []
  eps  : Int := 0
deriving DecidableEq, Repr

/-- Conversion of a value to a stored format (R96, R100). -/
def Fmt.ofNum (x : CvtCtx) (f : Fmt) (n : Num) : Conv :=
  match f with
  | .gl16 => toGlWide glf16 0x8000 0x7FFF x.mode x.clip true x.u x.eps n
  | .gl8 => toGlWide glf8 0x80 0x7F x.mode x.clip true x.u x.eps n
  | .gl4 => toGl4 x.mode x.u x.eps n
  | .gl4c => toBook x.book (toGlWide glf8 0x80 0x7F x.mode x.clip true x.u x.eps n)
  | .bf32 => toBin bin32 x.mode x.u x.eps n
  | .bf16b => toBin binB16 x.mode x.u x.eps n
  | .bf16h => toBin binH16 x.mode x.u x.eps n
  | .int8 => let (z, fl) := toIntRange (-128) 127 x.mode x.u x.eps n; ⟨unsignedOf 8 z, fl, 0⟩
  | .int4 => let (z, fl) := toIntRange (-8) 7 x.mode x.u x.eps n; ⟨unsignedOf 4 z, fl, 0⟩
  | .uint8 => let (z, fl) := toIntRange 0 255 x.mode x.u x.eps n; ⟨unsignedOf 8 z, fl, 0⟩

/-- The binary format behind a format, if it is one. -/
def Fmt.bin? : Fmt → Option BinFmt
  | .bf32 => some bin32
  | .bf16b => some binB16
  | .bf16h => some binH16
  | _ => none

/-- A code converted from a format to a format, NaNs carried between binary formats (R77, R96, R100). -/
def cvtValue (x : CvtCtx) (srcBook : List Byte) (src tgt : Fmt) (c : Nat) : Conv :=
  match src.bin?, tgt.bin? with
  | some a, some b => if a.isNaN c then nanToBin a b c else tgt.ofNum x (src.num srcBook c)
  | some a, none =>
    let r := tgt.ofNum x (src.num srcBook c)
    { r with ie := r.ie ||| ieIf (a.isSNaN c) ieIV }
  | _, _ => tgt.ofNum x (src.num srcBook c)

/-- The rounding parameters of a Grendy format. -/
def glOf : Fmt → GlFmt
  | .gl16 => glf16
  | .gl8 => glf8
  | _ => glf4

/-- The code of an arithmetic result in a Grendy format from its rounded E (R101, R71). -/
def glCode (f : Fmt) (mode : Rnd) (s : Bool) (r : Int × Bool) : Conv :=
  match f with
  | .gl16 => glWideCode glf16 0x8000 0x7FFF mode false false s r
  | .gl8 => glWideCode glf8 0x80 0x7F mode false false s r
  | _ => gl4Code s r

/-- An infinite arithmetic result: the infinity, or ±2.0 with OF and CLIP in GL4 (R71, R195). -/
def glInf (f : Fmt) (s : Bool) : Conv :=
  match f with
  | .gl16 => ⟨if s then 0xFFFF else 0x7FFF, 0, 0⟩
  | .gl8 => ⟨if s then 0xFF else 0x7F, 0, 0⟩
  | _ => ⟨if s then 15 else 7, fOF ||| fCLIP, 0⟩

/-- A NaN arithmetic result: NaN, or zero in GL4, with NV (R101). -/
def glNaN (f : Fmt) : Conv :=
  match f with
  | .gl16 => ⟨0x8000, fNV, 0⟩
  | .gl8 => ⟨0x80, fNV, 0⟩
  | _ => ⟨0, fNV, 0⟩

/-- An arithmetic result in a Grendy format (R101, R71). -/
def glResult (f : Fmt) (mode : Rnd) (u : Nat) : Num → Conv
  | .zero => ⟨0, 0, 0⟩
  | .nan => glNaN f
  | .inf s => glInf f s
  | .fin s m e q => glCode f mode s (glRoundE (glOf f) mode u 0 m e q)

end Sys2Proof.Machine
end

