-- ==== Sys2Proof/Machine/Philox.lean ====
section
/-! DEFINITION. Counter-based randomness: Philox-4×32-10 (R441), its stream classes (R442) and the draws that the
rounding rules take from it (R92, R94, R120). -/

namespace Sys2Proof.Machine

/-- The four 32-bit counter words and the two key words of one call (R441). -/
structure PhiloxState where
  c0 : BitVec 32
  c1 : BitVec 32
  c2 : BitVec 32
  c3 : BitVec 32
  k0 : BitVec 32
  k1 : BitVec 32
deriving DecidableEq, Repr

/-- Upper 32 bits of a 32 × 32 product. -/
def mulHi (a b : BitVec 32) : BitVec 32 := BitVec.ofNat 32 ((a.toNat * b.toNat) >>> 32)

/-- One round: the words of R441 from the words before it. -/
def philoxRound (s : PhiloxState) : PhiloxState :=
  { s with
    c0 := mulHi 0xCD9E8D57 s.c2 ^^^ s.c1 ^^^ s.k0
    c1 := 0xCD9E8D57 * s.c2
    c2 := mulHi 0xD2511F53 s.c0 ^^^ s.c3 ^^^ s.k1
    c3 := 0xD2511F53 * s.c0 }

/-- The key increment after each of the first nine rounds (R441). -/
def philoxBump (s : PhiloxState) : PhiloxState :=
  { s with k0 := s.k0 + 0x9E3779B9, k1 := s.k1 + 0xBB67AE85 }

/-- `n` rounds with a bump between each two. -/
def philoxRounds : Nat → PhiloxState → PhiloxState
  | 0, s => s
  | 1, s => philoxRound s
  | n + 2, s => philoxRounds (n + 1) (philoxBump (philoxRound s))

/-- One generator call (R441): key = seed; counter = step field, stream class, site id, element index. -/
def philox (seed : BitVec 64) (step : BitVec 32) (cls site : BitVec 16) (elem : BitVec 64) : PhiloxState :=
  philoxRounds 10
    { c0 := elem.extractLsb' 0 32, c1 := elem.extractLsb' 32 32
      c2 := cls ++ site, c3 := step
      k0 := seed.extractLsb' 0 32, k1 := seed.extractLsb' 32 32 }

/-- Word j of a call (R441). -/
def PhiloxState.word (s : PhiloxState) (j : Nat) : BitVec 32 :=
  match j % 4 with
  | 0 => s.c0
  | 1 => s.c1
  | 2 => s.c2
  | _ => s.c3

/-- The stream classes of R442. -/
def classRounding : BitVec 16 := 0
/-- Dropout (R442, R443). -/
def classDropout : BitVec 16 := 1
/-- Shuffle (R442, R286). -/
def classShuffle : BitVec 16 := 2
/-- User (R442, R443). -/
def classUser : BitVec 16 := 3

/-- Where the random bits of a run of work come from: the seed and the step field of R442. -/
structure RandomSource where
  seed : BitVec 64
  step : BitVec 32
deriving DecidableEq, Repr

/-- The 32 bits U of R92 for element `elem` at site `site` (R94). -/
def roundingBits (r : RandomSource) (site : BitVec 16) (elem : Nat) : Nat :=
  ((philox r.seed r.step classRounding site (BitVec.ofNat 64 elem)).word 0).toNat

/-- The element index of R120, kind 0 (a window raise): position, ordinal of the raise, half of the buckets. -/
def raiseIndex (position ordinal half : Nat) : Nat :=
  position % 2 ^ 40 * 2 ^ 24 + ordinal % 2 ^ 22 * 2 + half % 2

/-- The element index of R120, kind 1 (a term below the window). -/
def belowIndex (position kstep ridx pass : Nat) : Nat :=
  position % 2 ^ 40 * 2 ^ 24 + 2 ^ 23 + kstep % 2 ^ 14 * 2 ^ 9 + ridx % 128 * 4 + pass % 4

/-- Word of bucket b in a raise (R119, R120): half b div 4, word b mod 4. -/
def raiseBits (r : RandomSource) (site : BitVec 16) (position ordinal b : Nat) : Nat :=
  ((philox r.seed r.step classRounding site (BitVec.ofNat 64 (raiseIndex position ordinal (b / 4)))).word (b % 4)).toNat

end Sys2Proof.Machine
end

