-- ==== Sys2Proof/Machine/Buckets.lean ====
section
/-! DEFINITION. Accumulation inside an element of a slot: exact bucketed (GL8X), windowed (GL16W) and saturating integer
(INT32) sums, window raises, bucket-set adds, special states and bucket-set records (R102-R136, R237, R239, R428, R623). -/

namespace Sys2Proof

/-! ### Eight buckets -/

/-- Bucket i of eight. -/
def Oct.get {α : Type} (o : Oct α) (i : Nat) : α :=
  match i % 8 with
  | 0 => o.v0
  | 1 => o.v1
  | 2 => o.v2
  | 3 => o.v3
  | 4 => o.v4
  | 5 => o.v5
  | 6 => o.v6
  | _ => o.v7

/-- Applies a function to every bucket, with its index. -/
def Oct.imap {α β : Type} (f : Nat → α → β) (o : Oct α) : Oct β :=
  ⟨f 0 o.v0, f 1 o.v1, f 2 o.v2, f 3 o.v3, f 4 o.v4, f 5 o.v5, f 6 o.v6, f 7 o.v7⟩

/-- The buckets in order. -/
def Oct.list {α : Type} (o : Oct α) : List α := [o.v0, o.v1, o.v2, o.v3, o.v4, o.v5, o.v6, o.v7]

/-- Eight equal values. -/
def Oct.all {α : Type} (x : α) : Oct α := ⟨x, x, x, x, x, x, x, x⟩

end Sys2Proof

namespace Sys2Proof.Machine

/-! ### Elements and slots -/

/-- Base of a fresh windowed sum, −1,024 (R122, R236). -/
def freshBase : BitVec 16 := BitVec.ofInt 16 (-1024)

/-- An element with zero contents (R110, R236). -/
def Elem.zero : Elem := ⟨Oct.all 0, 0, .finite, 0, freshBase⟩

/-- Element c of a slot. -/
def Slot.elem (s : Slot) (c : Nat) : Elem := sget .zero s.elems c

/-- Stores an element of a slot. -/
def Slot.setElem (s : Slot) (c : Nat) (e : Elem) : Slot := { s with elems := sset .zero s.elems c e }

/-- An EMPTY slot with zero contents and the empty statistics record (R110). -/
def Slot.empty : Slot := ⟨.empty, [], none⟩

/-- Slot i of an ember. -/
def Ember.slot (e : Ember) (i : Nat) : Slot := sget .empty e.slots i

/-- Stores a slot of an ember. -/
def Ember.setSlot (e : Ember) (i : Nat) (s : Slot) : Ember := { e with slots := sset .empty e.slots i s }

/-- A slot's tag code (R109). -/
def Mode.code : Mode → Nat
  | .empty => 0
  | .gl8x => 1
  | .gl16w => 2
  | .int32 => 3

/-- The tag of a code (R109). -/
def Mode.ofCode (c : Nat) : Mode :=
  match c % 4 with
  | 0 => .empty
  | 1 => .gl8x
  | 2 => .gl16w
  | _ => .int32

/-- A special state's code (R108). -/
def Special.code : Special → Nat
  | .finite => 0
  | .posInf => 1
  | .negInf => 2
  | .nan => 3

/-- The special state of a code (R108). -/
def Special.ofCode (c : Nat) : Special :=
  match c % 4 with
  | 0 => .finite
  | 1 => .posInf
  | 2 => .negInf
  | _ => .nan

/-- The infinity of a sign. -/
def Special.infOf (neg : Bool) : Special := if neg then .negInf else .posInf

/-- Value of a bucket: 80 bits in GL8X with spill counters, otherwise 64 (R112, R115). -/
def bucketVal (wide : Bool) (x : BitVec 80) : Int := if wide then x.toInt else (x.setWidth 64).toInt

/-- A value as a bucket holds it; without spill counters the upper bits are the sign extension of the lower 64 (R112). -/
def bucketOf (wide : Bool) (z : Int) : BitVec 80 :=
  if wide then BitVec.ofInt 80 z else (BitVec.ofInt 64 z).signExtend 80

/-- Whether the buckets of a mode are 80 bits wide (R112, R115). -/
def wideIn (spill : Bool) (m : Mode) : Bool := spill && m == .gl8x

/-! ### Special states (R130) -/

/-- The state after a source state or a non-finite product arrives, and the flags. -/
def Special.combine (have_ arriving : Special) : Special × Fl :=
  match arriving, have_ with
  | .finite, h => (h, 0)
  | .nan, _ => (.nan, fNV)
  | _, .nan => (.nan, 0)
  | a, .finite => (a, 0)
  | a, h => if a = h then (h, 0) else (.nan, fNV)

/-! ### Exact accumulation (R113, R114) -/

/-- Adds an integer to bucket b. -/
def Elem.addBucket (wide : Bool) (e : Elem) (b : Nat) (z : Int) : Elem :=
  { e with buckets := e.buckets.imap fun i x => if i = b then bucketOf wide (bucketVal wide x + z) else x }

/-- A finite product with integer part n and bucket b enters a GL8X element (R114). -/
def Elem.enterExact (wide : Bool) (e : Elem) (n : Int) (b : Nat) (neg : Bool) : Elem × Fl :=
  let f := e.base.toInt
  if n < f then (e, fIX)
  else if f + 47 < n then ({ e with special := .nan }, fOF ||| fNV)
  else
    let t : Int := (2 ^ (n - f).toNat : Nat)
    (e.addBucket wide b (if neg then -t else t), 0)

/-! ### Windowed accumulation (R117-R121) -/

/-- One log term ± 2^(n + b/8). -/
structure Term where
  neg : Bool
  n   : Int
  b   : Nat
  /-- Logical reduction index within the k-step. -/
  idx : Nat
deriving DecidableEq, Repr

/-- A term of exponent e in eighths. -/
def Term.ofEighths (neg : Bool) (e : Int) (idx : Nat) : Term := ⟨neg, e.fdiv 8, (e.fmod 8).toNat, idx⟩

/-- round-half-even (8 × log₂ (m / 2^fixBits)). -/
def roundEighths (m : Nat) : Int :=
  let t := log2Floor m (2 ^ fixBits) 40
  let lo := t.fdiv (2 ^ 37)
  let d := t.fmod (2 ^ 37)
  if (2 ^ 36 : Int) < d then lo + 1 else if d = 2 ^ 36 then (if lo.emod 2 = 1 then lo + 1 else lo) else lo

/-- 2^(g/8) with `fixBits` fraction bits, for g at most 0. -/
def pow8Fix (g : Int) : Nat := exp2Frac (g.fmod 8).toNat 3 >>> (-(g.fdiv 8)).toNat

/-- The correction terms of R117 from residual r on, as sign and exponent in eighths. -/
def corrections : Nat → Int → List (Bool × Int)
  | 0, _ => []
  | k + 1, r =>
    if r = 0 then []
    else
      let g := roundEighths r.natAbs
      let c : Int := (pow8Fix g : Nat)
      (decide (r < 0), g) :: corrections k (if r < 0 then r + c else r - c)

/-- The correction terms of residue t (R117): r₀ = 2^(t/128) − 1. -/
def correctionsOf (t : Nat) : List (Bool × Int) :=
  if t % 16 = 0 then [] else corrections 3 ((exp2Frac (t % 16) 7 : Int) - (2 ^ fixBits : Nat))

/-- The terms of ± 2^(p/128) by pass: main, c₁, c₂, c₃ (R106, R117). -/
def passesOf (neg : Bool) (p : Int) (idx : Nat) : List Term :=
  let n := p.fdiv 128
  let t7 := (p.fmod 128).toNat
  let e8 := 8 * n + (t7 / 16 : Nat)
  Term.ofEighths neg e8 idx :: (correctionsOf (t7 % 16)).map fun c => Term.ofEighths (neg != c.1) (e8 + c.2) idx

/-- How bits are drawn while a window rises: the random words of R120, or rounding to nearest even on magnitude without
flag (R428). -/
inductive RaiseMode where
  | random (r : RandomSource) (site : BitVec 16) (position : Nat)
  | nearest
deriving DecidableEq, Repr

/-- |v| / 2^δ rounded as a raise rounds bucket b (R119, R428), with whether bits were lost. -/
def raiseMag (m : RaiseMode) (ordinal b mag δ : Nat) : Nat × Bool :=
  let q := mag >>> δ
  let rem := mag % 2 ^ δ
  if rem = 0 then (q, false)
  else match m with
    | .random r site pos => (if raiseBits r site pos ordinal b < (rem * 2 ^ 32) >>> δ then q + 1 else q, true)
    | .nearest =>
      let half := 2 ^ (δ - 1)
      (if half < rem || (rem == half && q % 2 == 1) then q + 1 else q, true)

/-- An integer raised by δ, keeping its sign. -/
def raiseInt (m : RaiseMode) (ordinal b : Nat) (z : Int) (δ : Nat) : Int × Bool :=
  let (q, lost) := raiseMag m ordinal b z.natAbs δ
  (if z < 0 then -(q : Int) else q, lost)

/-- A windowed element at work: its element, the ordinal of its next raise, and flags. -/
structure Win where
  e   : Elem
  ord : Nat
  fl  : Fl
deriving DecidableEq, Repr

/-- Raises the window of an element by δ (R119). -/
def Win.raise (m : RaiseMode) (w : Win) (δ : Nat) : Win :=
  if δ = 0 then w
  else
    let rs := w.e.buckets.imap fun i x => raiseInt m w.ord i (bucketVal false x) δ
    let lost := rs.list.any (·.2)
    let flag := match m with
      | .random _ _ _ => flagIf lost fWIN
      | .nearest => 0
    { e := { w.e with buckets := rs.imap fun _ x => bucketOf false x.1
                      base := BitVec.ofInt 16 (w.e.base.toInt + δ) }
      ord := w.ord + 1
      fl := w.fl ||| flag }

/-- The least h for which every bucket lies below 2^(61 + h) in magnitude (R118). -/
def headRoom (vs : List Nat) : Nat :=
  let m := vs.foldl Nat.max 0
  if m = 0 then 0 else Nat.log2 m + 1 - 61

/-- How a term below the window is rounded (R121, R428): to zero, stochastically, or to nearest. -/
inductive BelowMode where
  | drop
  | random (r : RandomSource) (site : BitVec 16) (position kstep pass : Nat)
  | nearest
deriving DecidableEq, Repr

/-- The largest integer part among terms. -/
def maxPart : List Term → Option Int
  | [] => none
  | t :: ts => match maxPart ts with
    | none => some t.n
    | some m => some (if m < t.n then t.n else m)

/-- floor (2^(n − W) × 2³²) of a term below the window. -/
def belowWeight (n w : Int) : Nat := if (w - n).toNat ≤ 32 then 2 ^ (32 - (w - n).toNat) else 0

/-- The integer multiple of 2^(W + b/8) that a term contributes, and whether bits were lost (R118 step 4, R121). -/
def termUnits (m : BelowMode) (w : Int) (t : Term) : Int × Bool :=
  if w ≤ t.n then
    let u : Int := (2 ^ (t.n - w).toNat : Nat)
    (if t.neg then -u else u, false)
  else match m with
    | .random r site pos ks pass =>
      let u := roundingBits r site (belowIndex pos ks t.idx pass)
      let one : Int := if u < belowWeight t.n w then 1 else 0
      (if t.neg then -one else one, true)
    -- A term below the window is at most half a unit, and a half rounds to the even 0.
    | .nearest => (0, true)
    | .drop => (0, true)

/-- One pass of R118 over the terms of one element. -/
def Win.pass (rm : RaiseMode) (bm : BelowMode) (sticky : Bool) (w : Win) (ts : List Term) : Win :=
  match maxPart ts with
  | none =>
    let h := headRoom (w.e.buckets.list.map fun x => (bucketVal false x).natAbs)
    w.raise rm h
  | some nmax =>
    let h := headRoom (w.e.buckets.list.map fun x => (bucketVal false x).natAbs)
    let need := nmax - (w.e.base.toInt + 47)
    let δ := Nat.max h need.toNat
    let w := w.raise rm δ
    let base := w.e.base.toInt
    let add := ts.foldl (fun (acc : Oct Int × Bool) t =>
      let (u, lost) := termUnits bm base t
      (acc.1.imap fun i x => if i = t.b then x + u else x, acc.2 || lost)) (Oct.all 0, false)
    { w with e := { w.e with buckets := w.e.buckets.imap fun i x => bucketOf false (bucketVal false x + add.1.get i) }
             fl := w.fl ||| flagIf (add.2 && sticky) fIX }

/-! ### Integer accumulation (R125) -/

/-- Adds an exact integer with saturation to 32 bits. -/
def Elem.addInt32 (e : Elem) (z : Int) : Elem × Fl :=
  let x := bucketVal false e.buckets.v0 + z
  let lo : Int := -(2 ^ 31 : Nat)
  let hi : Int := (2 ^ 31 - 1 : Nat)
  if hi < x then ({ e with buckets := { e.buckets with v0 := bucketOf false hi } }, fSAT)
  else if x < lo then ({ e with buckets := { e.buckets with v0 := bucketOf false lo } }, fSAT)
  else ({ e with buckets := { e.buckets with v0 := bucketOf false x } }, 0)

/-! ### Bucket-set adds (R129, R623, R239) -/

/-- Shifts a magnitude right, rounding to nearest even. -/
def shiftRN (z : Int) (k : Nat) : Int × Bool :=
  let (q, lost) := raiseMag .nearest 0 0 z.natAbs k
  (if z < 0 then -(q : Int) else q, lost)

/-- Adds the outlier sum of a source to a destination's, both raised to the larger base (R239). -/
def addOutSum (rm : RaiseMode) (dst : Win) (src : Elem) : Win :=
  let dW := dst.e.outBase.toInt
  let sW := src.outBase.toInt
  if src.outSum = 0 then dst
  else
    let dv := dst.e.outSum.toInt
    let sv := src.outSum.toInt
    let h := headRoom [dv.natAbs >>> (sW - dW).toNat, sv.natAbs >>> (dW - sW).toNat]
    let w := (if dW < sW then sW else dW) + h
    let (d', l1) := raiseInt rm dst.ord 0 dv (w - dW).toNat
    let o1 := if w = dW then dst.ord else dst.ord + 1
    let (s', l2) := raiseInt rm o1 0 sv (w - sW).toNat
    let o2 := if w = sW then o1 else o1 + 1
    { e := { dst.e with outSum := BitVec.ofInt 64 (d' + s'), outBase := BitVec.ofInt 16 w }
      ord := o2
      fl := dst.fl ||| flagIf (l1 || l2) fWIN }

/-- Adds a source element into a destination element of the same mode (R129). -/
def bucketAdd (spill : Bool) (mode : Mode) (rm : RaiseMode) (dst : Win) (src : Elem) : Win :=
  if dst.e.special ≠ .finite ∨ src.special ≠ .finite then
    let (st, fl) := dst.e.special.combine src.special
    { dst with e := { dst.e with special := st }, fl := dst.fl ||| fl }
  else match mode with
    | .empty => dst
    | .int32 =>
      let (e, fl) := dst.e.addInt32 (bucketVal false src.buckets.v0)
      { dst with e := e, fl := dst.fl ||| fl }
    | .gl8x =>
      let wide := wideIn spill .gl8x
      let dF := dst.e.base.toInt
      let sF := src.base.toInt
      let f := if dF < sF then sF else dF
      let ds := dst.e.buckets.imap fun _ x => shiftRN (bucketVal wide x) (f - dF).toNat
      let ss := src.buckets.imap fun _ x => shiftRN (bucketVal wide x) (f - sF).toNat
      let lost := ds.list.any (·.2) || ss.list.any (·.2)
      { dst with
        e := { dst.e with buckets := ds.imap fun i x => bucketOf wide (x.1 + (ss.get i).1), base := BitVec.ofInt 16 f }
        fl := dst.fl ||| flagIf lost fIX }
    | .gl16w =>
      let dW := dst.e.base.toInt
      let sW := src.base.toInt
      let mx := if dW < sW then sW else dW
      -- The least h that leaves every aligned bucket of both below 2^61, before rounding and after it.
      let mags := (dst.e.buckets.list.map fun x => (bucketVal false x).natAbs >>> (mx - dW).toNat) ++
        (src.buckets.list.map fun x => (bucketVal false x).natAbs >>> (mx - sW).toNat)
      let w := mx + headRoom mags
      let d := dst.raise rm (w - dW).toNat
      let s := ({ e := src, ord := d.ord, fl := 0 } : Win).raise rm (w - sW).toNat
      { e := { d.e with buckets := d.e.buckets.imap fun i x =>
                 bucketOf false (bucketVal false x + bucketVal false (s.e.buckets.get i)) }
        ord := s.ord
        fl := d.fl ||| s.fl }

/-! ### Bucket-set records (R112) -/

/-- The 96-byte record of an element. -/
def Elem.record (mode : Mode) (e : Elem) : List Byte :=
  (e.buckets.list.flatMap fun x => leBytes 8 x.toNat) ++ (e.buckets.list.flatMap fun x => leBytes 2 (x.toNat / 2 ^ 64)) ++
    leBytes 2 e.base.toNat ++ leBytes 1 mode.code ++ leBytes 1 e.special.code ++ List.replicate 12 0

/-- Reads a record: its mode and its element. A reader without spill counters takes the lower 64 bits. -/
def elemOfRecord (spill : Bool) (bs : List Byte) : Mode × Elem :=
  let mode := Mode.ofCode (fieldAt bs 82 1)
  let b := fun i => bucketOf (wideIn spill mode)
    (bucketVal (wideIn spill mode) (BitVec.ofNat 80 (fieldAt bs (8 * i) 8 + fieldAt bs (64 + 2 * i) 2 * 2 ^ 64)))
  (mode, { Elem.zero with
    buckets := ⟨b 0, b 1, b 2, b 3, b 4, b 5, b 6, b 7⟩
    base := BitVec.ofNat 16 (fieldAt bs 80 2)
    special := Special.ofCode (fieldAt bs 83 1) })

/-! ### The value of an element (R134, R136, R239) -/

/-- K_b = RN(2^(63 + b/8)) (R134). -/
def bucketConst (b : Nat) : Nat :=
  let x := exp2Frac (b % 8) 3
  let sh := fixBits - 63
  let q := x >>> sh
  if 2 ^ (sh - 1) ≤ x % 2 ^ sh then q + 1 else q

/-- Σ V_b × K_b (R134). -/
def bucketSum (wide : Bool) (o : Oct (BitVec 80)) : Int :=
  ((List.range 8).map fun b => bucketVal wide (o.get b) * (bucketConst b : Nat)).foldl (· + ·) 0

/-- The linear value X of an element, before coarse scales; the special state decides when it is not finite. -/
def Elem.num (spill : Bool) (mode : Mode) (e : Elem) : Num :=
  match e.special with
  | .nan => .nan
  | .posInf => .inf false
  | .negInf => .inf true
  | .finite =>
    match mode with
    | .empty => .zero
    | .int32 => .ofInt (bucketVal false e.buckets.v0) 0
    | m => .ofInt (bucketSum (wideIn spill m) e.buckets) (e.base.toInt - 63)

/-- Overwrites an element: zero contents with the base of R113 or R122. -/
def Elem.fresh (mode : Mode) (ftop : Int) : Elem :=
  match mode with
  | .gl8x => { Elem.zero with base := BitVec.ofInt 16 (ftop - 47) }
  | .gl16w => { Elem.zero with base := freshBase }
  | _ => Elem.zero

/-- A slot overwritten in a mode: every element fresh, the row statistics kept (R132, R164). -/
def Slot.overwrite (mode : Mode) (ftop : Int) (s : Slot) : Slot :=
  { s with mode := mode, elems := if Elem.fresh mode ftop = Elem.zero then [] else (List.range 64).map fun c => (c, Elem.fresh mode ftop) }

/-- An outlier product's terms enter the outlier sum (R237): the window rises as a one-bucket pass, then every term is
rounded to nearest even. -/
def Win.outlierPass (rm : RaiseMode) (w : Win) (ts : List Term) : Win :=
  match maxPart ts with
  | none => w
  | some nmax =>
    let o := w.e.outSum.toInt
    let base := w.e.outBase.toInt
    let δ := Nat.max (headRoom [o.natAbs]) (nmax - (base + 47)).toNat
    let (o', lost) := raiseInt rm w.ord 0 o δ
    let flag := match rm with
      | .random _ _ _ => flagIf lost fWIN
      | .nearest => 0
    let base' := base + δ
    -- 2^(n − W_O + b/8) to the nearest integer
    let units := fun (t : Term) =>
      let e := t.n - base'
      let m := exp2Frac t.b 3
      let (q, _) := raiseMag .nearest 0 0 (m * 2 ^ (e + 1024).toNat) (fixBits + 1024)
      if t.neg then -(q : Int) else (q : Int)
    let sum := ts.foldl (fun acc t => acc + units t) o'
    { e := { w.e with outSum := BitVec.ofInt 64 sum, outBase := BitVec.ofInt 16 base' }
      ord := if δ = 0 then w.ord else w.ord + 1
      fl := w.fl ||| flag }

end Sys2Proof.Machine
end

