-- ==== Sys2Proof/Machine/Crc.lean ====
section
/-! DEFINITION. The cyclic redundancy checks of the check scanners (R466, R467) and of every chapter that names CRC-32C
or CRC-64/ECMA-182. -/

namespace Sys2Proof.Machine

/-- The parameters of one CRC (R466): width, polynomial in normal form, initial value, reflection, final XOR. -/
structure CrcKind where
  width   : Nat
  poly    : Nat
  init    : Nat
  reflect : Bool
  xorOut  : Nat
deriving DecidableEq, Repr

/-- CRC-32C (R466 code 0). -/
def crc32c : CrcKind := ⟨32, 0x1EDC6F41, 0xFFFFFFFF, true, 0xFFFFFFFF⟩
/-- CRC-32 (R466 code 1). -/
def crc32 : CrcKind := ⟨32, 0x04C11DB7, 0xFFFFFFFF, true, 0xFFFFFFFF⟩
/-- CRC-64/ECMA-182 (R466 code 2). -/
def crc64 : CrcKind := ⟨64, 0x42F0E1EBA9EA3693, 0, false, 0⟩
/-- CRC-16/IBM-3740 (R466 code 3). -/
def crc16 : CrcKind := ⟨16, 0x1021, 0xFFFF, false, 0⟩

/-- The CRC that a POLY code of SCAN_CRC selects (R394, R466). -/
def crcKind : Nat → CrcKind
  | 0 => crc32c
  | 1 => crc32
  | 2 => crc64
  | _ => crc16

/-- The low n bits of x in reverse order. -/
def reverseBits : Nat → Nat → Nat
  | 0, _ => 0
  | n + 1, x => x % 2 * 2 ^ n + reverseBits n (x / 2)

/-- `n` shift steps of the unreflected register. -/
def crcShift (k : CrcKind) : Nat → Nat → Nat
  | 0, r => r
  | n + 1, r =>
    let s := 2 * r % 2 ^ k.width
    crcShift k n (if r.testBit (k.width - 1) then s ^^^ k.poly else s)

/-- One byte into the register, the register always held unreflected. -/
def crcByte (k : CrcKind) (r : Nat) (b : Byte) : Nat :=
  let x := if k.reflect then reverseBits 8 b.toNat else b.toNat
  crcShift k 8 (r ^^^ (x * 2 ^ (k.width - 8)))

/-- The bytes from first to last into the register. -/
def crcBytes (k : CrcKind) (r : Nat) (bs : List Byte) : Nat := bs.foldl (crcByte k) r

/-- The result that a register stands for: reflected where the CRC is, then the final XOR. -/
def crcOut (k : CrcKind) (r : Nat) : Nat :=
  (if k.reflect then reverseBits k.width r else r) ^^^ k.xorOut

/-- The register that a result stands for, to go on from it (R467). -/
def crcIn (k : CrcKind) (out : Nat) : Nat :=
  let x := out ^^^ k.xorOut
  if k.reflect then reverseBits k.width x else x

/-- The CRC of a byte string. -/
def crc (k : CrcKind) (bs : List Byte) : Nat := crcOut k (crcBytes k k.init bs)

/-- The CRC of a byte string chained from an earlier result (R467). -/
def crcChain (k : CrcKind) (seed : Nat) (bs : List Byte) : Nat := crcOut k (crcBytes k (crcIn k seed) bs)

end Sys2Proof.Machine
end

