-- ==== Sys2Proof/Machine/Operands.lean ====
section
/-! DEFINITION. Operand forms: fields of 128-bit instructions (R141-R144), operand descriptors and their checks (R146-R148,
R253-R255, R620), codes and tiles with the transpose path (R147), scale records and sidecars (R229-R234), sparsity
metadata (R256-R262) and tables (R240, R243). -/

namespace Sys2Proof.Machine

/-- Codes of the arithmetic class (R170). -/
def arithOpcode : Nat := 0x2001
/-- R170. -/
def arithField : Nat := 0x2002
/-- R170. -/
def arithSlotRange : Nat := 0x2003
/-- R170. -/
def arithScale : Nat := 0x2004
/-- R170. -/
def arithMode : Nat := 0x2005
/-- R170. -/
def arithDesync : Nat := 0x2006
/-- R170. -/
def arithDesc : Nat := 0x2007
/-- R170. -/
def arithTable : Nat := 0x2008
/-- R170. -/
def arithSparse : Nat := 0x2009

/-- Bits [lo + w - 1 : lo] of an instruction. -/
def wf (w : BitVec 128) (lo n : Nat) : Nat := bits w.toNat lo n

/-- The 7-bit opcode: OPC6 and OPC (R141). -/
def opcodeOf (w : BitVec 128) : Nat := wf w 125 1 * 64 + wf w 0 6
/-- TAG (R141). -/
def tagOf (w : BitVec 128) : Nat := wf w 106 16
/-- EMB (R141). -/
def embOf (w : BitVec 128) : Nat := wf w 122 3

/-- A mask with ones at the given fields, least bit and width. -/
def fieldMask (fs : List (Nat × Nat)) : Nat := fs.foldl (fun m f => m ||| (2 ^ f.2 - 1) * 2 ^ f.1) 0

/-- Whether an instruction has a one outside its fields (R141). -/
def reservedSet (w : BitVec 128) (fs : List (Nat × Nat)) : Bool :=
  w.toNat &&& (2 ^ 128 - 1 - fieldMask ([(0, 6), (106, 16), (122, 3), (125, 1)] ++ fs)) != 0

/-- Bytes of a hearth memory. -/
def hearthBytes : Nat := 0x800000

/-- Hearth h as an accessing unit (R326). -/
def asHearth (s : State) (h tag : Nat) : Who := { unit := h, step := s.stepOpen, tag := tag }

/-- Reads n bytes at an offset of hearth h's memory. -/
def State.hRead (s : State) (h tag off n : Nat) : State × Nat × List Byte :=
  s.readMem (asHearth s h tag) (hearthAddr h + off) n

/-- Writes bytes at an offset of hearth h's memory. -/
def State.hWrite (s : State) (h tag off : Nat) (bs : List Byte) : State × Nat :=
  s.writeMem (asHearth s h tag) (hearthAddr h + off) bs

/-! ### Tables (R240, R243) -/

/-- Table kinds of a hearth's store, by TABLE_LOAD code (R394). -/
def kindPwl : Nat := 1
/-- R394. -/
def kindBook : Nat := 2
/-- R394. -/
def kindProg : Nat := 3

/-- An empty table slot. -/
def TwoGen.empty : TwoGen := ⟨[], [], false⟩

/-- Table of a kind and slot in hearth h's store. -/
def State.table (s : State) (h kind slot : Nat) : TwoGen := sget .empty (s.hearth h).tables (kind * 64 + slot)

/-- The live generation of a table; empty when it holds none. -/
def TwoGen.now (t : TwoGen) : List Byte := if t.live then t.gen1 else t.gen0

/-- Writes the shadow generation. -/
def TwoGen.load (t : TwoGen) (bs : List Byte) : TwoGen := if t.live then { t with gen0 := bs } else { t with gen1 := bs }

/-- Exchanges the marks. -/
def TwoGen.swap (t : TwoGen) : TwoGen := { t with live := !t.live }

/-- Stores a table of hearth h. -/
def State.setTable (s : State) (h kind slot : Nat) (t : TwoGen) : State :=
  let x := s.hearth h
  s.setHearth h { x with tables := sset .empty x.tables (kind * 64 + slot) t }

/-! ### Layer limits (R247) -/

/-- The layer limit entry of a layer; an all-zero one when it has none. -/
def State.layerEntry (s : State) (layer : Nat) : List Byte :=
  (s.cfg.active.layers.find? fun e => fieldAt e 0 2 = layer).getD (List.replicate 32 0)

/-! ### Operand descriptors (R146) -/

/-- A descriptor with what the instruction adds: format, presented rows, stored and logical reduction indices per k-step,
transposition, 2:4 storage and the codebook bound at issue. -/
structure Operand where
  fmt    : Fmt
  rows   : Nat
  k      : Nat
  trans  : Bool
  half   : Bool
  base   : Nat
  pitch  : Nat
  ktp    : Nat
  tiled  : Bool
  scaled : Bool
  saddr  : Nat
  coarse : Nat
  seq    : Nat
  info   : Nat
  book   : List Byte
deriving DecidableEq, Repr

/-- Bytes of a block in storage (R230, R259). -/
def Operand.blockBytes (o : Operand) : Nat := if o.half then 2 * o.fmt.bits else 4 * o.fmt.bits

/-- Elements of a block in storage. -/
def Operand.blockElems (o : Operand) : Nat := if o.half then 16 else 32

/-- Offset of the k-tile j of row r; of stored row i of k-tile j when read through the transpose path (R146, R147). -/
def Operand.rowAt (o : Operand) (j r : Nat) : Nat :=
  if o.tiled then o.base + j * o.ktp + r * o.pitch
  else if o.trans then o.base + (j * o.k + r) * o.pitch
  else o.base + r * o.pitch + j * o.k * o.fmt.bits / 8

/-- Bytes read at each row of rowAt. -/
def Operand.rowBytes (o : Operand) : Nat := (if o.trans then o.rows else o.k) * o.fmt.bits / 8

/-- Ordinal of the block that holds reduction index i of row r in k-tile j (R230, R147). -/
def Operand.ordinal (o : Operand) (j r i : Nat) : Nat :=
  if o.trans then (j * o.k + i) / 32 * (o.pitch * 8 / o.fmt.bits) + r
  else (o.rowAt j r - o.base + i / o.blockElems * o.blockElems * o.fmt.bits / 8) / o.blockBytes

/-- Offset of the scale record of an ordinal (R231). -/
def recordAt (f : Fmt) (saddr o : Nat) : Nat :=
  if f = .gl4 then saddr + 320 * (o / 16) + 4 * (o % 16) else saddr + 4 * o

/-- Offset of the sidecar of an ordinal (R231). -/
def sidecarAt (saddr o : Nat) : Nat := saddr + 320 * (o / 16) + 64 + 16 * (o % 16)

/-- The first byte past what an operand reads for the last issued k-step and the last active row: rows, then records. -/
def Operand.extent (o : Operand) (j r : Nat) : Nat :=
  let last := if o.trans then o.k - 1 else r
  let data := o.rowAt j last + o.rowBytes
  let ord := o.ordinal j r (o.k - 1)
  let rec_ := if !o.scaled then 0 else if o.fmt = .gl4 then sidecarAt o.saddr ord + 16 else recordAt o.fmt o.saddr ord + 4
  Nat.max data rec_

/-- What a descriptor check finds: the code of the first check that fails, or the operand. -/
abbrev Checked (α : Type) := Except Nat α

/-- Fails with a code when a condition holds. -/
def failIf (c : Bool) (code : Nat) : Checked Unit := if c then .error code else .ok ()

/-- Reads and checks operand descriptor `idx`, in the order of R620 item 5 up to the codebook. `rows` presented rows; `k`
stored reduction indices per k-step; `half` for 2:4 storage. -/
def State.operand (s : State) (h idx : Nat) (f : Fmt) (rows k : Nat) (trans half : Bool) : Checked Operand := do
  let at_ := 4096 * s.get (Reg.HTH_OPD_BASE_BASE h) + 32 * idx
  failIf (decide (hearthBytes < at_ + 32)) arithDesc
  let d := s.bytes (hearthAddr h + at_) 32
  let base := fieldAt d 0 4
  let layout := fieldAt d 12 1
  let sc := fieldAt d 13 1
  failIf (decide (2 ^ 23 ≤ base) || decide (1 < layout) || decide (1 < sc) || fieldAt d 15 1 != 0 || fieldAt d 28 4 != 0 ||
    (layout == 0 && fieldAt d 8 4 != 0)) arithField
  failIf ((f.alwaysScaled && sc == 0) || (!f.alwaysScaled && f != .gl16 && sc == 1)) arithField
  let scaled := sc == 1
  failIf (base % 64 != 0 || fieldAt d 4 4 % 64 != 0 || fieldAt d 8 4 % 64 != 0 || (scaled && fieldAt d 16 4 % 4 != 0)) arithDesc
  failIf (scaled && (gl16Num (fieldAt d 20 2) == .zero || !(gl16Num (fieldAt d 20 2)).isFinite)) arithScale
  let cb := fieldAt d 14 1
  failIf (f == .gl4c && decide (64 ≤ cb)) arithField
  let book := if f = .gl4c then (s.table h kindBook cb).now else []
  failIf (f == .gl4c && book.isEmpty) arithTable
  .ok {
    fmt := f, rows := rows, k := k, trans := trans, half := half, base := base, pitch := fieldAt d 4 4
    ktp := fieldAt d 8 4, tiled := layout == 1, scaled := scaled, saddr := fieldAt d 16 4
    coarse := if scaled then fieldAt d 20 2 else 0x4000, seq := fieldAt d 22 2, info := fieldAt d 24 4, book := book }

/-! ### Codes and blocks -/

/-- Code of element i in packed bytes (R64). -/
def codeAt (f : Fmt) (bs : List Byte) (i : Nat) : Nat :=
  match f.bits with
  | 4 => bits (fieldAt bs (i / 2) 1) (i % 2 * 4) 4
  | 8 => fieldAt bs i 1
  | 16 => fieldAt bs (2 * i) 2
  | _ => fieldAt bs (4 * i) 4

/-- Packs codes into bytes, elements ascending (R64). -/
def packCodes (f : Fmt) : List Nat → List Byte
  | [] => []
  | [c] => if f.bits = 4 then leBytes 1 (c % 16) else leBytes (f.bits / 8) c
  | c :: d :: cs =>
    if f.bits = 4 then leBytes 1 (c % 16 + d % 16 * 16) ++ packCodes f cs
    else leBytes (f.bits / 8) c ++ leBytes (f.bits / 8) d ++ packCodes f cs

/-- A block's scale: the zero block, or a fine scale with the sidecar's entries, position and GL16 value (R229, R234). -/
structure Block where
  zero : Bool
  f    : Int
  outl : List (Nat × Nat)
deriving DecidableEq, Repr

/-- A block of an unscaled tensor. -/
def Block.plain : Block := ⟨false, 0, []⟩

/-- Entry k of a sidecar (R234). -/
def sidecarEntry (sc : List Byte) (k : Nat) : Nat := fieldAt sc (3 * k) 3

/-- Whether a sidecar has the form that R232 asks. -/
def sidecarOk (sc : List Byte) : Bool :=
  let n := fieldAt sc 14 1
  decide (n ≤ 4) && decide (fieldAt sc 15 1 < 2) &&
    (List.range 4).all fun k =>
      let e := sidecarEntry sc k
      if k < n then
        bit e 21 && decide (e < 2 ^ 22) && (k = 0 || decide (bits (sidecarEntry sc (k - 1)) 16 5 < bits e 16 5))
      else e = 0

/-- The outliers of a sidecar (R234). -/
def sidecarOutliers (sc : List Byte) : List (Nat × Nat) :=
  (List.range (fieldAt sc 14 1)).map fun k => (bits (sidecarEntry sc k) 16 5, bits (sidecarEntry sc k) 0 16)

/-- Reads a block's record, and for GL4 its sidecar, and compares the tags (R232): none is a mismatch. `rd` reads bytes at
an offset of the tensor's memory. -/
def blockOfRecord (f : Fmt) (tag : Nat) (rec : List Byte) (sc : List Byte) : Option Block :=
  let r := fieldAt rec 0 4
  let e := r % 256
  let side := f == .gl4
  if r / 65536 != tag % 65536 then none
  else if side && (fieldAt sc 12 2 != tag % 65536 || !sidecarOk sc) then none
  else some ⟨e == 0x80, signedOf 8 e, if side then sidecarOutliers sc else []⟩

/-- Reads the block of an operand that holds reduction index i of row r in k-tile j: a memory-class code, ARITH_DESYNC, or
the block. -/
def State.opBlock (s : State) (h tag : Nat) (o : Operand) (j r i : Nat) : State × Checked Block :=
  if !o.scaled then (s, .ok .plain)
  else
    let ord := o.ordinal j r i
    andRead (s.hRead h tag (recordAt o.fmt o.saddr ord) 4) .error fun s record =>
      andRead (if o.fmt = .gl4 then s.hRead h tag (sidecarAt o.saddr ord) 16 else (s, 0, [])) .error fun s side =>
        (s, match blockOfRecord o.fmt (o.seq + ord) record side with
          | some b => .ok b
          | none => .error arithDesync)

/-! ### Operand elements -/

/-- An operand element as the grid takes it (R104-R107, R237): absent (2:4), in a zero block, zero, NaN, infinite, a log
magnitude in the unit of its format with its fine scale, an outlier's logarithm in 128ths, or an integer. -/
inductive Val where
  | absent
  | zeroBlock
  | zero
  | nan
  | inf (neg : Bool)
  | log (neg : Bool) (e : Int) (f : Int)
  | outl (neg : Bool) (e : Int)
  | int (z : Int)
deriving DecidableEq, Repr

/-- Unit of a format's logarithm in 128ths (R104). -/
def logUnit (f : Fmt) : Int := if f = .gl16 then 1 else 16

/-- A code as an operand element; a number with a power-of-two magnitude splits exactly into its log. -/
def valOf (f : Fmt) (book : List Byte) (b : Block) (pos c : Nat) : Val :=
  if b.zero then .zeroBlock
  else match b.outl.find? fun p => p.1 = pos with
    | some p => match gl16Num p.2 with
      | .fin neg _ e q => .outl neg (128 * e + q)
      | _ => .zero
    | none =>
      match f with
      | .int8 | .int4 | .uint8 =>
        let z := if f = .int8 then signedOf 8 c else if f = .int4 then signedOf 4 c else (c : Int)
        if z = 0 then .zero else .int z
      | _ => match f.num book c with
        | .zero => .zero
        | .nan => .nan
        | .inf n => .inf n
        | .fin neg _ e q => .log neg ((128 * e + q).fdiv (logUnit f)) b.f

/-- One operand element with its code and, for 2:4 operands, its logical index. -/
structure Cell where
  code : Nat
  val  : Val
deriving DecidableEq, Repr

/-- A row of one k-tile with the outliers it holds: its cells by logical reduction index. -/
structure TileRow where
  cells : List Cell
deriving DecidableEq, Repr

/-- Spreads 2 stored values per group of 4 logical indices (R256, R257). -/
def spreadGroups (info : Nat) : Nat → List Cell → List Cell
  | _, [] => []
  | _, [_] => []
  | g, a :: b :: cs =>
    let i0 := bits info (4 * g) 2
    let i1 := bits info (4 * g + 2) 2
    ((List.range 4).map fun i => if i = i0 then a else if i = i1 then b else ⟨0, .absent⟩) ++ spreadGroups info (g + 1) cs

/-- Whether the metadata of a column breaks IDX0 < IDX1 in some group (R258). -/
def badGroups (info groups : Nat) : Bool :=
  (List.range groups).any fun g => decide (bits info (4 * g + 2) 2 ≤ bits info (4 * g) 2)

/-- Reads what the blocks of one row need, one block after another. -/
def State.rowBlocks (s : State) (h tag : Nat) (o : Operand) (j r : Nat) : Nat → Nat → State × Checked (List Block)
  | 0, _ => (s, .ok [])
  | n + 1, i =>
    match s.opBlock h tag o j r i with
    | (s, .error c) => (s, .error c)
    | (s, .ok b) =>
      match State.rowBlocks s h tag o j r n (i + o.blockElems) with
      | (s, .error c) => (s, .error c)
      | (s, .ok bs) => (s, .ok (b :: bs))

/-- Reads the codes of one presented row of a k-tile. -/
def State.rowCodes (s : State) (h tag : Nat) (o : Operand) (j r : Nat) : State × Checked (List Nat) :=
  if o.trans then
    (List.range o.k).foldl (fun (acc : State × Checked (List Nat)) i =>
      match acc with
      | (s, .error c) => (s, .error c)
      | (s, .ok cs) =>
        let n := o.fmt.bits
        let (s, c, bs) := s.hRead h tag (o.rowAt j i + r * n / 8) (Nat.max 1 (n / 8))
        if c ≠ 0 then (s, .error c)
        else (s, .ok (cs ++ [if n = 4 then bits (fieldAt bs 0 1) (r % 2 * 4) 4 else leNat bs]))) (s, .ok [])
  else
    let (s, c, bs) := s.hRead h tag (o.rowAt j r) o.rowBytes
    if c ≠ 0 then (s, .error c) else (s, .ok ((List.range o.k).map fun i => codeAt o.fmt bs i))

/-- Cells of stored codes under their blocks; in a 2:4 operand an outlier's index is its logical position (R259), which
`place` gives for stored value i. -/
def cellsOf (o : Operand) (blocks : List Block) (place : Nat → Nat) (codes : List Nat) : List Cell :=
  codes.zipIdx.map fun p =>
    let b := blocks.getD (p.2 / o.blockElems) .plain
    ⟨p.1, valOf o.fmt o.book b (place p.2 % 32) p.1⟩

/-- Reads one presented row of a k-tile: codes, blocks and for 2:4 operands the metadata (R257, R258). `metaBase` is the
offset of the 2:4 metadata. -/
def State.tileRow (s : State) (h tag : Nat) (o : Operand) (metaBase j r : Nat) : State × Checked TileRow :=
  andChecked (s.rowBlocks h tag o j r (if o.scaled then o.k / o.blockElems else 0) 0) fun s blocks =>
    andChecked (s.rowCodes h tag o j r) fun s codes =>
      if o.half then
        let parts := o.k / 64
        andRead (s.hRead h tag (metaBase + j * 1024 * parts + r * 16) 16) .error fun s m0 =>
          andRead (if parts = 2 then s.hRead h tag (metaBase + j * 2048 + 1024 + r * 16) 16 else (s, 0, [])) .error fun s m1 =>
            let info := leNat m0 + leNat m1 * 2 ^ 128
            let place := fun i => i / 2 * 4 + bits info (4 * (i / 2) + i % 2 * 2) 2
            (s, if badGroups info (o.k / 2) then .error arithSparse
              else .ok ⟨spreadGroups info 0 (cellsOf o blocks place codes)⟩)
      else (s, .ok ⟨cellsOf o blocks id codes⟩)

/-- Reads the listed rows of a k-tile. A scale mismatch anywhere decides over a metadata error (R258). -/
def State.tile (s : State) (h tag : Nat) (o : Operand) (metaBase j : Nat) : List Nat → State × Checked (List TileRow)
  | [] => (s, .ok [])
  | r :: rs =>
    match s.tileRow h tag o metaBase j r with
    | (s, .error c) =>
      if c = arithSparse then
        match State.tile s h tag o metaBase j rs with
        | (s, .error c') => (s, .error (if c' = arithDesync then c' else c))
        | (s, .ok _) => (s, .error c)
      else (s, .error c)
    | (s, .ok t) =>
      match State.tile s h tag o metaBase j rs with
      | (s, .error c) => (s, .error c)
      | (s, .ok ts) => (s, .ok (t :: ts))

end Sys2Proof.Machine
end

