-- ==== Sys2Proof/Machine/Work.lean ====
section
/-! DEFINITION. What every working unit does beside its own arithmetic: the random source (R442), sticky flags that reach
a completion by OR (R18, R31), failed instructions (R171, R421, R448), stat records (R245-R247) and issue (R138). -/

namespace Sys2Proof.Machine

/-- Whether an EVAL_RUN is in flight (R413). -/
def State.evaluating (s : State) : Bool := s.isSet Reg.COL_STATUS_EVALRUN

/-- Seed and step field of the random streams (R442). -/
def State.random (s : State) : RandomSource where
  seed := BitVec.ofNat 64 (s.get Reg.COL_STEP_SEED_SEED)
  step := BitVec.ofNat 32 (if s.evaluating then s.get Reg.COL_STEP_NEXT_NEXT else s.get Reg.COL_STEP_NUM_STEP)

/-- Newly set flags go to the completion of the work that set them (R31, R391). -/
def State.noteFlags (s : State) (fl : Fl) : State :=
  if s.stepOpen then { s with step := { s.step with flags := s.step.flags ||| fl } }
  else if s.evaluating then
    { s with col := { s.col with started := s.col.started.map fun c =>
        if c.opc = 0x05 then { c with flags := c.flags ||| fl } else c } }
  else s

/-- Sets sticky flags of a unit's flag word. -/
def State.sticky (s : State) (f : Fld) (fl : Fl) : State :=
  let old : Fl := BitVec.ofNat 14 (s.get f)
  let new := fl &&& ~~~old
  if new = 0 then s else (s.orInto f fl.toNat).noteFlags new

/-- An instruction or operation of the work in progress failed: INSTR for an open step, unless the error already gave the
step its own reason (R339, R344, R421); the code of the run for an EVAL_RUN (R448). -/
def State.workFailed (s : State) (code : Nat) : State :=
  if s.stepOpen then (if code = memUE || code = memHost then s else s.veto vINSTR)
  else if s.evaluating && s.step.evalCode = 0 then
    { s with step := { s.step with evalCode := code } }
  else s

/-- The first error of an ember, which is also its hearth's (R171). -/
def State.embError (s : State) (h e code tag : Nat) : State :=
  let s := s.firstErr (Reg.EMB_ERR_VALID h e) (Reg.EMB_ERR_CODE h e) code [(Reg.EMB_ERR_TAG h e, tag)]
  let s := s.firstErr (Reg.HTH_ERR_VALID h) (Reg.HTH_ERR_CODE h) code [(Reg.HTH_ERR_TAG h, tag), (Reg.HTH_ERR_EMB h, e)]
  s.workFailed code

/-- The first error of a hearth instruction (R171, R172). -/
def State.hearthError (s : State) (h code tag : Nat) : State :=
  (s.firstErr (Reg.HTH_ERR_VALID h) (Reg.HTH_ERR_CODE h) code
    [(Reg.HTH_ERR_TAG h, tag), (Reg.HTH_ERR_HEARTH h, 1)]).workFailed code

/-- The kiln of a hearth (R27). -/
def kilnOf (h : Nat) : Nat := h / 12

/-- Whether the sequencer of hearth h issues: its kiln is neither quarantined (R38) nor gated (R278). -/
def State.hearthRuns (s : State) (h : Nat) : Bool := !s.quarantined (kilnOf h) && !(s.kiln (kilnOf h)).gated

/-- Gives an instruction its issue sequence number (R138). -/
def State.issue (s : State) (h : Nat) : State × Nat := (s.bump (Reg.HTH_ISSUE_NEXT h) 1, s.get (Reg.HTH_ISSUE_NEXT h))

/-! ### Stat records (R245, R246) -/

/-- What one conversion adds to its layer's stat record. -/
structure Tally where
  total    : Nat := 0
  clipped  : Nat := 0
  under    : Nat := 0
  outovf   : Nat := 0
  outliers : Nat := 0
  amax     : Nat := 0
  fl       : Fl := 0
deriving DecidableEq, Repr

/-- Both together: counts add, AMAX takes the maximum, flags combine by OR. -/
def Tally.plus (a b : Tally) : Tally where
  total := a.total + b.total
  clipped := a.clipped + b.clipped
  under := a.under + b.under
  outovf := a.outovf + b.outovf
  outliers := a.outliers + b.outliers
  amax := Nat.max a.amax b.amax
  fl := a.fl ||| b.fl

/-- ceil (2^7 × log₂ |v|) of a finite non-zero value: its exponent in 128ths rounded toward larger magnitude (R224). -/
def ceilLog (m : Nat) (e : Int) (q : Nat) : Int :=
  let t := logFix m e q 7
  if isPow2 m then t else t + 1

/-- The magnitude of a value as a GL16 code rounded toward larger magnitude, held inside the finite range (R246). -/
def amaxCode : Num → Nat
  | .fin _ m e q =>
    let t := ceilLog m e q
    let t := if t < -16383 then -16383 else if 16382 < t then 16382 else t
    (16384 + t).toNat
  | _ => 0

/-- What a converted value with its conversion's flags adds. -/
def Tally.ofValue (v : Num) (fl : Fl) : Tally where
  total := 1
  clipped := if fl &&& fCLIP = 0 then 0 else 1
  under := if fl &&& fUF = 0 then 0 else 1
  amax := amaxCode v
  fl := fl

/-- Base format of a layer (R247). -/
def State.baseFmt (s : State) (layer : Nat) : Nat := fieldAt (s.layerEntry layer) 2 1 % 16

/-- Promotion state of a layer; one that is not listed is at its base format (R250). -/
def State.promoOf (s : State) (layer : Nat) : Promo := (sfind s.step.promo layer).getD ⟨s.baseFmt layer, 0, 0⟩

/-- The stat record with which a layer starts a step (R246, R417). -/
def State.freshStat (s : State) (layer : Nat) : List Byte :=
  let p := s.promoOf layer
  let base := s.baseFmt layer
  leBytes 2 layer ++ leBytes 1 (p.fmt + 16 * base) ++ leBytes 1 (if p.fmt = base then 1 else 3) ++ leBytes 4 0 ++
    leBytes 8 (s.get Reg.COL_STEP_NUM_STEP) ++ List.replicate 36 0 ++ leBytes 4 p.hold ++ leBytes 4 p.deferred ++
    List.replicate 68 0

/-- Whether a stat record belongs to the step at work: VALID, of its number, and not ABORTED. -/
def State.statCurrent (s : State) (r : List Byte) : Bool :=
  bit (fieldAt r 3 1) 0 && !bit (fieldAt r 3 1) 4 && fieldAt r 8 8 == s.get Reg.COL_STEP_NUM_STEP

/-- What a conversion adds to a stat record. -/
def Tally.addTo (t : Tally) (r : List Byte) : List Byte :=
  let add := fun lo n v r => patch r lo (leBytes n (fieldAt r lo n + v))
  let r := add 16 8 t.total (add 24 8 t.clipped (add 32 8 t.under (add 40 4 t.outovf (add 44 4 t.outliers r))))
  let r := patch r 48 (leBytes 2 (Nat.max (fieldAt r 48 2) t.amax))
  patch r 50 (leBytes 2 (fieldAt r 50 2 ||| t.fl.toNat))

/-- Adds to the stat record of a layer in kiln k's stack; nothing during an EVAL_RUN (R448) nor where the configuration
gives the kiln no record area. A record that is not of this step starts afresh; its layer had no limit entry at open. -/
def State.addStat (s : State) (k layer : Nat) (t : Tally) : State :=
  if s.evaluating || !s.keepsStats k then s
  else
    let a := s.statAddr k layer
    let r := s.peek a 128
    if s.statCurrent r then s.post a (t.addTo r)
    else
      let s := s.post a (t.addTo (s.freshStat layer))
      if s.statLayers.contains layer then s else { s with step := { s.step with extra := s.step.extra ++ [layer] } }

end Sys2Proof.Machine
end

