-- ==== Sys2Proof/Machine/Queue.lean ====
section
/-! DEFINITION. Host commands as the module collier takes them (R386-R395): descriptor checks, the refusals before a
command's own work, doorbells, enabling and draining of queues, and FENCE and EVENT_WAIT. -/

namespace Sys2Proof.Machine

/-! ### Accesses through BAR0 and BAR2 -/

/-- A bad access (R518): the first is recorded, every one is counted. -/
def State.badAccess (s : State) (bar offset size : Nat) (write : Bool) : State :=
  let s := s.bump Reg.HIF_BADCNT_COUNT 1
  if s.isSet Reg.HIF_BADACC_VALID then s
  else ((((s.put Reg.HIF_BADACC_OFFSET offset).put Reg.HIF_BADACC_BAR bar).put Reg.HIF_BADACC_SIZE
    (if size ≤ 8 then size else 0)).put Reg.HIF_BADACC_WRITE (if write then 1 else 0)).put Reg.HIF_BADACC_VALID 1

/-- Whether a doorbell write has the form of R521: at offset 0 of its page, 64 bits, upper bits above `w` zero. -/
def doorbellFits (a : DoorbellWrite) (w : Nat) : Bool :=
  a.offset == 0 && a.size == 8 && decide (a.value.toNat < 2 ^ w)

/-- Whether the module takes accesses through BAR2: not in recovery (R533), and the function in D0. -/
def State.bar2Open (s : State) : Bool := !s.hif.recovery && !s.hif.d3hot

/-- A doorbell: the write has its effect, or is a bad access (R521). -/
def State.doorbell (s : State) (page w : Nat) (a : DoorbellWrite) (effect : State → State) : State :=
  if !s.bar2Open then s
  else
    let s := s.linkRx a.size.toNat
    if doorbellFits a w then effect s else s.badAccess 1 (page + a.offset.toNat) a.size.toNat true

/-! ### Descriptor checks (R390, R392, R394) -/

/-- The operand bits that each command uses, as least bit and width in the descriptor (R394). -/
def operandBits : Nat → List (Nat × Nat)
  | 0x01 => [(64, 64), (128, 1)]
  | 0x02 => [(64, 64), (128, 1)]
  | 0x03 => [(64, 64)]
  | 0x04 => [(64, 64)]
  | 0x05 => [(64, 32)]
  | 0x06 => [(64, 3), (128, 64), (192, 64)]
  | 0x07 => [(64, 3), (128, 64), (192, 64)]
  | 0x08 => [(64, 16), (128, 64)]
  | 0x09 => [(64, 64), (128, 64), (192, 2), (200, 1), (256, 64)]
  | 0x0A => [(64, 64), (128, 64), (192, 64)]
  | 0x0B => [(64, 64), (128, 64), (192, 64)]
  | 0x0C => [(64, 64)]
  | 0x0D => [(64, 8), (80, 16), (96, 32), (128, 64), (192, 32), (224, 32)]
  | 0x0E => [(64, 8), (80, 16), (96, 32)]
  | 0x0F => [(64, 8)]
  | 0x10 => [(64, 64), (128, 16), (192, 64)]
  | _ => []

/-- Whether two ranges share a byte. -/
def overlap (a b n : Nat) : Bool := decide (a < b + n ∧ b < a + n ∧ 0 < n)

/-- Slots of a table kind that TABLE_LOAD and TABLE_SWAP name (R363, R365); kinds 4 and 5 have none, and SLOT is 0. -/
def slotLimit : Nat → Nat
  | 1 => 32
  | 2 => 64
  | 3 => 32
  | _ => 1

/-- Whether KIND, SLOT and KILNS of a table command are in range: the shuffle table lies in no kiln, so KILNS is 0. -/
def tableNameOk (kind slot kilns : Nat) : Bool :=
  decide (1 ≤ kind ∧ kind ≤ 5 ∧ slot < slotLimit kind) && (if kind = 5 then kilns == 0 else kilns != 0)

/-- Bytes of a clip descriptor table generation: 1,048,576 descriptors of 32 bytes (R287). -/
def clipLimit : Nat := 0x100000

/-- Whether the operands of a command lie in their ranges (R392, R394). -/
def operandsOk (d : BitVec 512) : Bool :=
  let a := dField d 8 8
  let b := dField d 16 8
  let c := dField d 24 8
  match dOpc d with
  | 0x01 => a % 64 == 0 && (!bit b 0 || a == 0)
  | 0x09 => decide (1 ≤ b ∧ b ≤ 2 ^ 48 ∧ dField d 32 8 < 2 ^ (crcKind (dField d 24 1)).width)
  | 0x0A => a % 64 == 0 && b % 64 == 0 && c % 64 == 0 && !overlap a b c
  | 0x0B => a % 64 == 0 && b % 64 == 0
  | 0x0C => a % 64 == 0
  | 0x0D =>
    let len := dField d 24 4
    let first := dField d 28 4
    let kind := dField d 8 1
    tableNameOk kind (dField d 10 2) (dField d 12 4) &&
      (match kind with
        | 1 => len == 2080
        | 2 => len == 16
        | 3 => len != 0
        | 4 => len == 262144
        | _ => len != 0 && len % 32 == 0 && decide (first + len / 32 ≤ clipLimit)) &&
      (kind == 5 || first == 0)
  | 0x0E => tableNameOk (dField d 8 1) (dField d 10 2) (dField d 12 4)
  | 0x0F => decide (dField d 8 1 ≤ 1)
  | 0x10 => dField d 16 2 &&& (2 ^ 16 - 1 - 0x3FE) == 0
  | _ => true

/-- Whether a descriptor is valid (R392): FLAGS[7:2], bytes 4-7 and unused operand bits 0, operands in range. -/
def descriptorOk (d : BitVec 512) : Bool :=
  let used := [(0, 10), (16, 16)] ++ operandBits (dOpc d)
  d.toNat &&& (2 ^ 512 - 1 - fieldMask used) == 0 && operandsOk d

/-! ### Refusals and the run of a host command -/

/-- Security codes (R557). -/
def secRole : Nat := 0x6001
/-- R557. -/
def secPower : Nat := 0x6008
/-- R384. -/
def cfgNone : Nat := 0x100F

/-- Commands that operate in the base configuration (R383). -/
def worksInBase (opc : Nat) : Bool := opc = 0x01 || opc = 0x0A || opc = 0x0B || opc = 0x09 || opc = 0x0F || opc = 0x10

/-- The code with which a host command is refused before its own work, 0 for none: an invalid descriptor (R392), no open
session (R540), P2 (R571), the base configuration (R383). -/
def State.refusal (s : State) (d : BitVec 512) : Nat :=
  if !descriptorOk d then stepInvalid
  else if s.sec.sessions.isEmpty then secRole
  else if s.get Reg.PWR_STATUS_PSTATE = 2 && dOpc d != 0x0F && dOpc d != 0x10 then secPower
  else if !s.cfg.active.loaded && !worksInBase (dOpc d) then cfgNone
  else 0

/-- A host command at the head of queue sq: nothing while it may not start or must wait; otherwise it is taken and is
refused, or does its work. -/
def State.hostCommand (s : State) (opc : Nat) (sq : Nat) (d : BitVec 512) (mustWait : State → Bool)
    (work : State → Started → State) : State :=
  if dOpc d ≠ opc || !s.canTake sq d then s
  else
    let c := s.startOf sq d
    if s.refusal d ≠ 0 then (s.takeHead sq d).complete c (s.refusal d)
    else if mustWait s then s
    else (work (s.takeHead sq d) c).settle

/-- A command that never waits before it starts. -/
def noWait (_ : State) : Bool := false

/-- Whether a LOAD_CONFIG is in progress (R379). -/
def State.loading (s : State) : Bool := s.cfg.loading.isSome

/-! ### Requests into the host window -/

/-- Whether a range touches the host window. -/
def touchesWindow (a n : Nat) : Bool := decide (a < 0xC00000000000 ∧ windowBase < a + n)

/-- Makes a request of the module wait for the host's completion (R529). -/
def State.askHost (s : State) (r : HostReq) : State := { s with hif := { s.hif with waiting := s.hif.waiting ++ [r] } }

/-- Runs a command's work now, or once the host answers the reads that it makes into the window. -/
def State.afterRead (s : State) (c : Started) (a n : Nat) (work : State → Started → State) : State :=
  if touchesWindow a n && s.windowOpen then s.askHost (.command c.sq c.cid) else work s c

/-! ### FENCE and EVENT_WAIT -/

/-- FENCE (R394): started, and completed by settle once its scope is done. -/
def execFence (sq : Fin 64) (d : BitVec 512) (s : State) : Host.Outcome State Fault Refusal :=
  .next (s.hostCommand 0x0F sq d noWait fun s _ => s)

/-- EVENT_WAIT (R394): started, and completed by settle once an event record matches. -/
def execEventWait (sq : Fin 64) (d : BitVec 512) (s : State) : Host.Outcome State Fault Refusal :=
  .next (s.hostCommand 0x10 sq d noWait fun s _ => s)

/-- WAIT_EXPIRED (R393, R394): an EVENT_WAIT with a TIMEOUT that has passed completes. -/
def execWaitExpired (sq : Fin 64) (cid : BitVec 16) (s : State) : Host.Outcome State Fault Refusal :=
  match s.col.started.find? fun c => c.opc = 0x10 && c.sq = sq.val && c.cid = cid.toNat && dField c.desc 24 8 != 0 &&
      decide (c.start + dField c.desc 24 8 ≤ s.now) with
  | some c => .next (s.complete c 2)
  | none => .next s

/-! ### Doorbells and queue enables (R387, R389, R413, R520-R522) -/

/-- A new tail (R387): ignored by a queue that is stopped, faulted or drains; a fault when it moves backwards, lies more
than a queue ahead of HEAD, or LOG2ENT lies outside 4-16. -/
def State.sqTail (s : State) (q v : Nat) : State :=
  let log := s.get (Reg.COL_SQ_CTL_LOG2ENT q)
  let size := 2 ^ log
  if !s.isSet (Reg.COL_SQ_CTL_EN q) || s.isSet (Reg.COL_SQ_CTL_FAULT q) || s.isSet (Reg.COL_SQ_CTL_DRAIN q) then s
  else if log < 4 || 16 < log || size < (v + 2 ^ 32 - s.get (Reg.COL_SQ_TAIL_TAIL q)) % 2 ^ 32 ||
      size < (v + 2 ^ 32 - s.get (Reg.COL_SQ_HEAD_HEAD q)) % 2 ^ 32 then (s.faultQueue q).settle
  else ((s.put (Reg.COL_SQ_TAIL_TAIL q) v).fetchHead q).settle

/-- SQ_TAIL_DOORBELL (R387, R520, R521). -/
def execSqTailDoorbell (sq : Fin 64) (a : DoorbellWrite) (s : State) : Host.Outcome State Fault Refusal :=
  .next (s.doorbell (sq * 0x1000) 32 a fun s => s.sqTail sq a.value.toNat)

/-- CQ_HEAD_DOORBELL (R389, R520, R521): entries return, and records that wait are written. -/
def execCqHeadDoorbell (cq : Fin 64) (a : DoorbellWrite) (s : State) : Host.Outcome State Fault Refusal :=
  .next (s.doorbell (0x40000 + cq * 0x1000) 32 a fun s => (s.put (Reg.COL_CQ_HEAD_HEAD cq) a.value.toNat).cqFlush cq)

/-- Whether started commands of a submission queue remain. -/
def State.sqBusy (s : State) (q : Nat) : Bool := s.col.started.any (·.sq == q)

/-- The reset that a write of EN 1 makes (R387, R413). -/
def State.sqReset (s : State) (q : Nat) : State :=
  ((((s.dropFetch q).put (Reg.COL_SQ_HEAD_HEAD q) 0).put (Reg.COL_SQ_TAIL_TAIL q) 0).put (Reg.COL_SQ_CTL_FAULT q) 0).put
    (Reg.COL_SQ_CTL_DRAIN q) 0

/-- SQ_ENABLE_WRITE (R387, R413): a write of COL_SQ_CTL. EN 0 stops the queue, with DRAIN while started commands remain;
EN 1 after 0 resets it now, or sets DRAIN until SQ_DRAIN_END. -/
def execSqEnableWrite (sq : Fin 64) (v : BitVec 64) (s : State) : Host.Outcome State Fault Refusal :=
  let was := s.isSet (Reg.COL_SQ_CTL_EN sq)
  let en := bit v.toNat 8
  let t := ((s.put (Reg.COL_SQ_CTL_LOG2ENT sq) (bits v.toNat 0 5)).put (Reg.COL_SQ_CTL_CQ sq) (bits v.toNat 16 6)).put
    (Reg.COL_SQ_CTL_EN sq) (if en then 1 else 0)
  if en && !was then .next (if s.sqBusy sq then t.put (Reg.COL_SQ_CTL_DRAIN sq) 1 else t.sqReset sq)
  else if !en && was then .next ((t.dropFetch sq).put (Reg.COL_SQ_CTL_DRAIN sq) (if s.sqBusy sq then 1 else 0))
  else .next t

/-- SQ_DRAIN_END (R387): a re-enabled queue without started commands is reset. -/
def execSqDrainEnd (sq : Fin 64) (s : State) : Host.Outcome State Fault Refusal :=
  if s.isSet (Reg.COL_SQ_CTL_EN sq) && s.isSet (Reg.COL_SQ_CTL_DRAIN sq) && !s.sqBusy sq then .next (s.sqReset sq)
  else .next s

/-- CQ_ENABLE_WRITE (R387, R413): a write of COL_CQ_CTL. EN 1 after 0 resets HEAD, TAIL and the phase and releases the
waiting records. -/
def execCqEnableWrite (cq : Fin 64) (v : BitVec 64) (s : State) : Host.Outcome State Fault Refusal :=
  let was := s.isSet (Reg.COL_CQ_CTL_EN cq)
  let en := bit v.toNat 8
  let t := (((s.put (Reg.COL_CQ_CTL_LOG2ENT cq) (bits v.toNat 0 5)).put (Reg.COL_CQ_CTL_IEN cq) (bits v.toNat 9 1)).put
    (Reg.COL_CQ_CTL_VECTOR cq) (bits v.toNat 16 11)).put (Reg.COL_CQ_CTL_EN cq) (if en then 1 else 0)
  if en && !was then
    let t := (t.put (Reg.COL_CQ_TAIL_TAIL cq) 0).put (Reg.COL_CQ_HEAD_HEAD cq) 0
    .next ({ t with col := { t.col with phaseLow := t.col.phaseLow.filter (· != cq.val) } }.cqFlush cq)
  else .next t

end Sys2Proof.Machine
end

