-- ==== Sys2Proof/Machine/DataCmds.lean ====
section
/-! DEFINITION. The host commands that move or scan memory: COPY, FILL (R394, R395) and SCAN_CRC (R466-R469). -/

namespace Sys2Proof.Machine

/-- The copy engine acting for the host, with the command id as tag (R326, R347, R395). -/
def hostCopier (d : BitVec 512) : Who := { asHost with tag := dCid d }

/-- The work of COPY: the source is read, then the destination written. -/
def copyWork (s : State) (c : Started) : State :=
  let d := c.desc
  let (s, code, bs) := s.readMem (hostCopier d) (dField d 8 8) (dField d 24 8)
  if code ≠ 0 then s.complete c code
  else
    let (s, code) := s.writeMem (hostCopier d) (dField d 16 8) bs
    s.complete c code

/-- COPY (R394, R395). -/
def execCopy (sq : Fin 64) (d : BitVec 512) (s : State) : Host.Outcome State Fault Refusal :=
  .next (s.hostCommand 0x0A sq d noWait fun s c => s.afterRead c (dField d 8 8) (dField d 24 8) copyWork)

/-- n bytes of a repeated 8-byte pattern. -/
def patternBytes (pattern n : Nat) : List Byte :=
  (List.range n).map fun i => BitVec.ofNat 8 (pattern / 2 ^ (8 * (i % 8)))

/-- FILL (R394, R395). -/
def execFill (sq : Fin 64) (d : BitVec 512) (s : State) : Host.Outcome State Fault Refusal :=
  .next (s.hostCommand 0x0B sq d noWait fun s c =>
    let (s, code) := s.writeMem (hostCopier d) (dField d 8 8) (patternBytes (dField d 24 8) (dField d 16 8))
    s.complete c code)

/-- Whether SCAN_CRC may also read mode 2 regions: IDLE or COMMITTED, no EVAL_RUN and no bank (R469). -/
def State.scansOwned (s : State) : Bool :=
  (s.stepState = 0 || s.stepState = 5) && !s.evaluating && !s.isSet Reg.BNK_STATUS_BUSY

/-- What refuses SCAN_CRC a piece: as for the host, but for mode 2 regions that are no bucket-set range (R145, R469). -/
def State.scanPiece (s : State) (d : BitVec 512) (a n : Nat) : Nat :=
  let c := s.pieceCode (hostCopier d) false a n
  let o := (s.ownerAt a).toNat
  if c = memAccess && s.scansOwned && o % 4 = 2 && !bit o 2 then
    s.pieceCode { hostCopier d with exempt := true } false a n
  else c

/-- The scanner that reads a piece (R468): of the kiln whose stack holds it, or the port scanners in turn. -/
def State.scanner (s : State) (a : Nat) : Nat :=
  match s.place a with
  | some k => if k < 2 ^ 42 then 0x240 + k / stackBytes else 0x260 + a / 4096 % 2
  | none => 0x260

/-- Reads the pieces of a scan, each by its scanner. -/
def State.scanRead (tag : Nat) : List (Nat × Nat) → State → State × Nat × List Byte
  | [], s => (s, 0, [])
  | (a, n) :: ps, s =>
    let (s, c, bs) := s.readPiece { unit := s.scanner a, exempt := true, tag := tag } a n
    if c ≠ 0 then (s, c, [])
    else
      let (s, c, rest) := State.scanRead tag ps s
      (s, c, bs ++ rest)

/-- The work of SCAN_CRC. A refused read fails it before any part is read. -/
def scanWork (s : State) (c : Started) : State :=
  let d := c.desc
  let ps := piecesOf (dField d 8 8) (dField d 16 8)
  let code := ps.foldl (fun e p => if e ≠ 0 then e else s.scanPiece d p.1 p.2) 0
  if code ≠ 0 then (s.memErr (hostCopier d) code).complete c code
  else
    let (s, code, bs) := State.scanRead (dCid d) ps s
    if code ≠ 0 then s.complete c code
    else
      let k := crcKind (dField d 24 1)
      let out := if bit (dField d 25 1) 0 then crcChain k (dField d 32 8) bs else crc k bs
      (s.bump Reg.CHK_BYTES_COUNT bs.length).complete c 0 out

/-- SCAN_CRC (R394, R466-R469). -/
def execScanCrc (sq : Fin 64) (d : BitVec 512) (s : State) : Host.Outcome State Fault Refusal :=
  .next (s.hostCommand 0x09 sq d noWait fun s c => s.afterRead c (dField d 8 8) (dField d 16 8) scanWork)

end Sys2Proof.Machine
end

