-- ==== Sys2Proof/Machine/Frames.lean ====
section
/-! DEFINITION. Odnil frames (R485-R488): their fields, sending, the replay buffer, acknowledgements and routes. -/

namespace Sys2Proof.Machine

/-! ### Frame fields (R485, R486) -/

/-- Bytes lo to lo + n - 1 of a frame's header. -/
def frameField (f : Frame) (lo n : Nat) : Nat := f.header.toNat / 2 ^ (8 * lo) % 2 ^ (8 * n)

/-- TYPE. -/
def fType (f : Frame) : Nat := frameField f 0 1
/-- SRC. -/
def fSrc (f : Frame) : Nat := frameField f 2 2
/-- DST. -/
def fDst (f : Frame) : Nat := frameField f 4 2
/-- SEQ. -/
def fSeq (f : Frame) : Nat := frameField f 8 4
/-- ACKSEQ. -/
def fAck (f : Frame) : Nat := frameField f 12 4
/-- STEP. -/
def fStep (f : Frame) : Nat := frameField f 16 8
/-- OFFSET. -/
def fOffset (f : Frame) : Nat := frameField f 24 8
/-- XID. -/
def fXid (f : Frame) : Nat := frameField f 32 4
/-- EVAL. -/
def fEval (f : Frame) : Bool := bit (frameField f 36 1) 0

/-- DATA. -/
def tDATA : Nat := 0x01
/-- VOID. -/
def tVOID : Nat := 0x02
/-- ACK. -/
def tACK : Nat := 0x03
/-- NAK. -/
def tNAK : Nat := 0x04
/-- HELLO. -/
def tHELLO : Nat := 0x05
/-- RANKUPD. -/
def tRANKUPD : Nat := 0x06
/-- BANKSEG. -/
def tBANKSEG : Nat := 0x07
/-- DIGEST. -/
def tDIGEST : Nat := 0x08
/-- IDLE. -/
def tIDLE : Nat := 0x09
/-- READY. -/
def tREADY : Nat := 0x0A

/-- Whether a type consumes a SEQ (R486). -/
def isSequenced (t : Nat) : Bool := t = 1 || t = 2 || t = 6 || t = 7 || t = 8 || t = 0x0A

/-- Whether a type is none of R486. -/
def isReservedType (t : Nat) : Bool := t = 0 || decide (0x0A < t)

/-- The header of given fields, with its HCRC; HOPS starts at 15. -/
def headerOf (type hops src dst len seq ack step offset xid flags : Nat) : List Byte :=
  let b := leBytes 1 type ++ leBytes 1 hops ++ leBytes 2 src ++ leBytes 2 dst ++ leBytes 2 len ++ leBytes 4 seq ++
    leBytes 4 ack ++ leBytes 8 step ++ leBytes 8 offset ++ leBytes 4 xid ++ leBytes 1 flags ++ List.replicate 7 0
  b ++ leBytes 4 (crc crc32c b)

/-- CRC-32C of a payload; an empty payload has 0 (R485). -/
def payloadCrc (p : List Byte) : Nat := if p.isEmpty then 0 else crc crc32c p

/-- A frame from its header and payload. -/
def frameOf (h p : List Byte) : Frame := ⟨BitVec.ofNat 384 (leNat h), p, BitVec.ofNat 128 (payloadCrc p)⟩

/-- A frame with other SEQ, ACKSEQ and HOPS. -/
def resequence (f : Frame) (hops seq ack : Nat) : Frame :=
  frameOf (headerOf (fType f) hops (fSrc f) (fDst f) (frameField f 6 2) seq ack (fStep f) (fOffset f) (fXid f)
    (frameField f 36 1)) f.payload

/-- Pads a payload to whole 64-byte units. -/
def padUnits (p : List Byte) : List Byte := fitBytes ((p.length + 63) / 64 * 64) p

/-- Whether header, payload length and trailer of a frame agree (R485, R487). -/
def frameSound (f : Frame) : Bool :=
  let h := leBytes 48 f.header.toNat
  fieldAt h 44 4 == crc crc32c (h.take 44) && f.payload.length == 64 * frameField f 6 2 && decide (frameField f 6 2 ≤ 64) &&
    f.trailer.toNat % 2 ^ 32 == payloadCrc f.payload

/-! ### Ports -/

/-- Index of a port in its register block and in ODN_ERR: 0-11 Odnil, 16-19 pair (R509). -/
def portReg (p : Nat) : Nat := if p < 12 then p else p + 4

/-- State of a port's link layer. -/
def State.port (s : State) (p : Nat) : Port := sget ⟨0, 0, [], [], 0, 0⟩ s.link.ports p

/-- Stores it. -/
def State.setPort (s : State) (p : Nat) (x : Port) : State :=
  { s with link := { s.link with ports := sset ⟨0, 0, [], [], 0, 0⟩ s.link.ports p x } }

/-- Whether a port is up. -/
def State.portUp (s : State) (p : Nat) : Bool := s.get (Reg.ODN_PORT_STAT_STATE (portReg p)) = 2

/-- The first link-class error (R509); 31 names no port. -/
def State.odnErr (s : State) (code port : Nat) : State :=
  s.firstErr Reg.ODN_ERR_VALID Reg.ODN_ERR_CODE code [(Reg.ODN_ERR_PORT, port)]

/-- Codes of the link class (R508). -/
def linkTrain : Nat := 0x5001
/-- R508. -/
def linkLost : Nat := 0x5002
/-- R508. -/
def linkTimeout : Nat := 0x5003
/-- R508. -/
def linkRank : Nat := 0x5004
/-- R508. -/
def linkDesc : Nat := 0x5005
/-- R508. -/
def linkStep : Nat := 0x5006
/-- R508. -/
def linkBusy : Nat := 0x5007
/-- R508. -/
def linkPair : Nat := 0x5008

/-- Own rank, or 0xFFFF before the fabric is trained. -/
def State.selfRank (s : State) : Nat := (s.link.table.map (·.self)).getD 0xFFFF

/-- STEP of the frames that the module sends (R485). -/
def State.frameStep (s : State) : Nat :=
  if s.stepOpen then s.get Reg.COL_STEP_NUM_STEP
  else if s.isSet Reg.COL_STATUS_EVALRUN then s.get Reg.COL_STEP_NEXT_NEXT
  else 2 ^ 64 - 1

/-! ### Sending (R486, R488) -/

/-- Sends a frame at a port: the sent frame counts its payload. -/
def State.emitFrame (s : State) (p : Nat) (f : Frame) : State :=
  let s := (s.emit (.frame p f)).bump (Reg.ODN_PORT_TXB_COUNT (portReg p)) f.payload.length
  s.setPort p { s.port p with spokeAt := s.now }

/-- Sends a sequenced frame, or keeps it waiting while the replay buffer is full. -/
def State.sendSequenced (s : State) (p hops : Nat) (f : Frame) : State :=
  let x := s.port p
  if !s.portUp p then s
  else if x.replay.length < 512 then
    let g := resequence f hops x.txSeq x.rxSeq
    (s.setPort p { x with txSeq := (x.txSeq + 1) % 2 ^ 32, replay := x.replay ++ [⟨x.txSeq, g, s.now, 0⟩] }).emitFrame p g
  else s.setPort p { x with waiting := x.waiting ++ [resequence f hops 0 0] }

/-- Sends a frame that is not sequenced. -/
def State.sendPlain (s : State) (p : Nat) (type offset : Nat) (payload : List Byte) : State :=
  if !s.portUp p then s
  else
    let x := s.port p
    s.emitFrame p (frameOf (headerOf type 15 s.selfRank 0xFFFF (payload.length / 64) x.txSeq x.rxSeq s.frameStep offset 0 0) payload)

/-- ACK. -/
def State.sendAck (s : State) (p : Nat) : State := s.sendPlain p tACK 0 []

/-- NAK. -/
def State.sendNak (s : State) (p : Nat) : State := s.sendPlain p tNAK 0 []

/-- The Odnil port toward a rank; none for the own rank, an unknown one or without a table (R496). -/
def State.route (s : State) (rank : Nat) : Option Nat :=
  match s.link.table with
  | none => none
  | some t => match t.entries[rank]? with
    | some e => if rank = t.self || 12 ≤ e.nextHop then none else some e.nextHop
    | none => none

/-- Whether frames for a rank can leave now. -/
def State.reachable (s : State) (rank : Nat) : Bool :=
  match s.route rank with
  | some p => s.portUp p
  | none => false

/-- Sends a sequenced frame to a rank. -/
def State.sendTo (s : State) (rank type offset xid : Nat) (payload : List Byte) : State :=
  match s.route rank with
  | none => s
  | some p =>
    let flags := if s.isSet Reg.COL_STATUS_EVALRUN then 1 else 0
    s.sendSequenced p 15 (frameOf (headerOf type 15 s.selfRank rank ((payload.length + 63) / 64) 0 0 s.frameStep offset xid flags)
      (padUnits payload))

/-- The pair ports that are up. -/
def State.pairPorts (s : State) : List Nat := ([12, 13, 14, 15] : List Nat).filter s.portUp

/-- Sends a sequenced frame to the pair partner over its lowest port that is up. -/
def State.sendPair (s : State) (type offset xid : Nat) (payload : List Byte) : State :=
  match s.pairPorts with
  | [] => s
  | p :: _ => s.sendSequenced p 15
    (frameOf (headerOf type 15 s.selfRank 0xFFFF ((payload.length + 63) / 64) 0 0 s.frameStep offset xid 0) (padUnits payload))

/-- A void notice to a rank (R425). -/
def State.sendVoid (s : State) (xid rank : Nat) : State :=
  s.sendTo rank tVOID 0 xid (leBytes 64 (s.get Reg.COL_STEP_LOCAL_LOCAL))

/-! ### Acknowledgements and resends (R488) -/

/-- Whether SEQ a lies before b, modulo 2^32. -/
def seqBefore (a b : Nat) : Bool := a != b && decide ((b + 2 ^ 32 - a) % 2 ^ 32 < 2 ^ 31)

/-- Sends what waits for room in the replay buffer. -/
def State.sendWaiting (p : Nat) : List Frame → State → State
  | [], s => s
  | f :: fs, s => State.sendWaiting p fs (s.sendSequenced p (frameField f 1 1) f)

/-- An acknowledgement releases replay buffer entries, and frames that wait go out. -/
def State.acknowledge (s : State) (p ack : Nat) : State :=
  let x := s.port p
  let kept := x.replay.filter fun e => !seqBefore e.seq ack
  if kept.length = x.replay.length then s
  else State.sendWaiting p x.waiting (s.setPort p { x with replay := kept, waiting := [] })

/-- Resends from the first unacknowledged frame. -/
def State.resend (s : State) (p : Nat) : State :=
  let x := s.port p
  let again := x.replay.map fun e => { e with sentAt := s.now, resends := e.resends + 1 }
  let s := (s.setPort p { x with replay := again }).bump (Reg.ODN_PORT_RESEND_COUNT (portReg p)) again.length
  again.foldl (fun t e => t.emitFrame p (resequence e.frame (frameField e.frame 1 1) e.seq x.rxSeq)) s

/-! ### Receiving (R487) -/

/-- Whether a frame may travel on a port: pair ports carry BANKSEG, DIGEST, IDLE, HELLO, ACK and NAK (R504), Odnil ports
everything but DIGEST. -/
def portCarries (p t : Nat) : Bool :=
  if p < 12 then t != tDIGEST else !(t = tDATA || t = tVOID || t = tRANKUPD || t = tREADY)

/-- Forwards a frame toward its rank (R496). -/
def State.forward (s : State) (p : Nat) (f : Frame) : State :=
  if frameField f 1 1 = 0 then s.raise 5 0x07 0x2A0 0 (portReg p)
  else match s.route (fDst f) with
    | some q => s.sendSequenced q (frameField f 1 1 - 1) f
    | none => s.raise 5 0x07 0x2A0 0 (portReg p)

/-- Receives a frame of a type at a port (R486-R488, R496): frames that do not agree with themselves, arrive out of order
or do not belong on the port are discarded and NAKed; a sequenced frame is acknowledged, and delivered or forwarded. -/
def State.receive (s : State) (type p : Nat) (f : Frame) (deliver : State → State) : State :=
  if !s.portUp p then s
  else
    let s := s.setPort p { s.port p with heardAt := s.now }
    if !frameSound f || isReservedType (fType f) || !portCarries p (fType f) then s.sendNak p
    else if fType f ≠ type then s
    else
      let s := s.acknowledge p (fAck f)
      if !isSequenced type then deliver s
      else if fSeq f ≠ (s.port p).rxSeq then s.sendNak p
      else
        let s := (s.setPort p { s.port p with rxSeq := (fSeq f + 1) % 2 ^ 32 }).bump (Reg.ODN_PORT_RXB_COUNT (portReg p))
          f.payload.length
        let s := s.sendAck p
        if fDst f = 0xFFFF || fDst f = s.selfRank then deliver s else s.forward p f

end Sys2Proof.Machine
end

