-- ==== Sys2Proof/Config.lean ====
section
/-! DEFINITION. The free values of the model: what the spec leaves open or leaves to the outside world. Each is a constant
without a body, so no proof can see a value of it. notes/assumptions names the log entry of each. -/

namespace Sys2Proof

/-- A decoded picture in output order (R298, R306): presentation time in 90 kHz units, luma width and height, samples at 10
bits (chroma at half width and height), and the offset of the chroma samples from the luma samples, in quarters of a luma
sample, horizontally and vertically. -/
structure Picture where
  pts    : Nat
  width  : Nat
  height : Nat
  luma   : List Nat
  cb     : List Nat
  cr     : List Nat
  siteX  : Int
  siteY  : Int
deriving DecidableEq, Repr, Inhabited

/-- A caption record of a picture (R303). -/
structure Caption where
  pts   : Nat
  ccType : Nat
  pairs : List (BitVec 16)
deriving DecidableEq, Repr, Inhabited

/-- What decoding a clip gives: whether the module supports the stream and finds a random access point (R296-R299), its
pictures in output order with concealment applied, the decode errors counted before each picture and in all (R301), the
audio samples of the kept channels as the resampler leaves them (codes of the profile's audio format, R302), and the
caption records. -/
structure DecodedClip where
  supported : Bool
  pictures  : List (Nat × Picture)
  errors    : Nat
  concealed : Bool
  audio     : List Nat
  captions  : List Caption
deriving DecidableEq, Repr, Inhabited

end Sys2Proof

namespace Sys2Proof.Config

/-- A random 64-bit word of the management controller (R537, R538, R558); the argument is the counter of State. -/
opaque randomWord : Nat → BitVec 64

/-- Whether an ML-DSA-65 signature of a message under a context string verifies under a public key (R355, R356, R538, R547,
R548). -/
opaque mldsaVerify : (key context message signature : List Byte) → Bool

/-- The ML-DSA-65 signature that the device key gives to a message under a context string (R551). -/
opaque mldsaSign : (context message : List Byte) → List Byte

/-- The certificate chain that GET_CERTS returns (R551). -/
opaque certChain : List Byte

/-- The freedom that R135 leaves a bucket-set conversion near a rounding boundary, in units of 2^-32 of a step; the
argument is the bucket set with what else fixes the conversion, since the result is a fixed function of the set. -/
opaque boundaryFreedom : List Byte → Int

/-- The freedom that R197 and R209 leave a built-in function, in units in the last place of its target; the arguments are
the function, its target format and its input. -/
opaque functionFreedom : (fn format input : Nat) → Int

/-- What a splitter decodes from the bytes of a clip, by its profile and its descriptor (R296-R303): a fixed function of
the archive bytes, by the standards that R296-R299 name. -/
opaque decodedClip : (profile descriptor payload : List Byte) → DecodedClip

/-- Cycles that an event counter of R591 with a code that counts cycles (0x01, 0x04, 0x05) adds in one stoke; the last argument
is the counter of State. -/
opaque cycleCount : (event kilns counter : Nat) → Nat

/-- The boundary register as SAMPLE/PRELOAD captures it (R588); the argument is the counter of State. -/
opaque boundarySample : Nat → BitVec 64

end Sys2Proof.Config
end

