-- ==== Sys2Proof/Machine/RowStat.lean ====
section
/-! DEFINITION. Row statistics: the record and its encodings (R164, R165), how a row enters it (R166, R167), mean and
variance (R168), and combination (R169, R619). Also the conversion of a bucket sum within the bound of R135. -/

namespace Sys2Proof.Machine

/-! ### The bound of R135 -/

/-- A bucket-set conversion: `conv` with the freedom that R135 leaves, in units of 2^-32 of a step. Where both ends of the
freedom agree, that is the result; otherwise a free value within them decides. `key` holds what fixes the result. -/
def boundedConv (slack : Nat) (key : List Byte) (conv : Int → Conv) : Conv :=
  let lo := conv (-(slack : Int))
  let hi := conv slack
  if lo = hi then lo
  else
    let f := Config.boundaryFreedom key
    conv (if f < -(slack : Int) then -(slack : Int) else if (slack : Int) < f then slack else f)

/-- How far M = Σ |V_b| 2^(b/8) exceeds |Σ V_b 2^(b/8)|: floor (M / |X|), 1 when every bucket has one sign. -/
def mixRatio (vs : List Int) : Nat :=
  let term := fun (p : Int × Nat) => p.1 * ((exp2Frac p.2 3 : Nat) : Int)
  let x := (vs.zipIdx.foldl (fun acc p => acc + term p) (0 : Int)).natAbs
  let m := vs.zipIdx.foldl (fun acc p => acc + (term p).natAbs) 0
  m / Nat.max x 1

/-- The freedom of R135 for buckets of which M exceeds |X| by `ratio`, in units of 2^-32 of a step, where `perOctave`
steps make an octave (for a binary target, 2^p): 2^-30 of a step is 4 units, and 2^-63 M adds at most
2^-31 x 1.5 x perOctave x ratio units. -/
def boundSlack (perOctave ratio : Nat) : Nat := 4 + (if ratio ≤ 1 then 1 else 3 * perOctave * ratio / 2 ^ 32 + 1)

/-! ### Sign of a bucket sum -/

/-- Product of polynomials in r modulo r^n = 2, as lists of n coefficients. -/
def rootMul (n : Nat) (a b : List Int) : List Int :=
  (List.range n).map fun k =>
    (List.range n).foldl (fun acc i =>
      let j := (k + n - i) % n
      acc + a.getD i 0 * b.getD j 0 * (if k < i then 2 else 1)) 0

/-- The even or odd coefficients. -/
def everyOther : List Int → List Int
  | [] => []
  | [a] => [a]
  | a :: _ :: rest => a :: everyOther rest

/-- Sign of Σ a_i r^i where r^n = 2 and r > 0, exactly: even and odd parts E and O of like sign decide, otherwise
E² − r² O² does. `fuel` halves n each time: n = 2^fuel. -/
def rootSign : Nat → List Int → Int
  | 0, l => (l.headD 0).sign
  | f + 1, l =>
    let n := 2 ^ f
    let e := everyOther l
    let o := everyOther l.tail
    let se := rootSign f e
    let so := rootSign f o
    if so = 0 then se else if se = 0 then so else if se = so then se
    else
      let e2 := rootMul n e e
      let o2 := rootMul n o o
      -- multiplication by r², the root of the half-length ring
      let ro2 := if n = 1 then [2 * o2.headD 0] else 2 * o2.getLastD 0 :: o2.dropLast
      se * rootSign f (e2.zipWith (· - ·) ro2)

/-! ### The record (R164) -/

/-- Row statistics: S1 and S2 with their windows, AMAX, RMAX, NCOUNT, CLIPCNT, STATE, MEAN and VAR. -/
structure StatRec where
  s1     : List Int
  s2     : List Int
  w1     : Int
  w2     : Int
  amax   : Nat
  rmax   : Nat
  n      : Nat
  clip   : Nat
  nonfin : Bool
  nan    : Bool
  inex   : Bool
  bin    : Bool
  vclamp : Bool
  mean   : Nat
  var    : Nat
deriving DecidableEq, Repr

/-- The code of a zero AMAX or RMAX in the log encoding (R165). -/
def logZero : Nat := 2 ^ 30

/-- The empty record (R164). -/
def StatRec.empty : StatRec where
  s1 := List.replicate 8 0
  s2 := List.replicate 8 0
  w1 := -1024
  w2 := -1024
  amax := logZero
  rmax := logZero
  n := 0
  clip := 0
  nonfin := false
  nan := false
  inex := false
  bin := false
  vclamp := false
  mean := 0
  var := 0

/-- The 192 bytes of a record (R164). -/
def StatRec.bytes (r : StatRec) : List Byte :=
  (r.s1.flatMap fun v => leBytes 8 (unsignedOf 64 v)) ++ (r.s2.flatMap fun v => leBytes 8 (unsignedOf 64 v)) ++
    leBytes 2 (unsignedOf 16 r.w1) ++ leBytes 2 (unsignedOf 16 r.w2) ++ leBytes 4 r.amax ++ leBytes 2 (Nat.min r.n 0xFFFF) ++
    leBytes 1 (r.nonfin.toNat + 2 * r.nan.toNat + 4 * r.inex.toNat + 8 * r.bin.toNat + 16 * r.vclamp.toNat) ++ [0] ++
    leBytes 4 r.mean ++ leBytes 4 r.var ++ leBytes 4 r.clip ++ leBytes 4 r.rmax ++ leBytes 4 r.n ++ List.replicate 32 0

/-- Reads a record. -/
def StatRec.ofBytes (bs : List Byte) : StatRec where
  s1 := (List.range 8).map fun b => signedOf 64 (fieldAt bs (8 * b) 8)
  s2 := (List.range 8).map fun b => signedOf 64 (fieldAt bs (64 + 8 * b) 8)
  w1 := signedOf 16 (fieldAt bs 128 2)
  w2 := signedOf 16 (fieldAt bs 130 2)
  amax := fieldAt bs 132 4
  rmax := fieldAt bs 152 4
  n := fieldAt bs 156 4
  clip := fieldAt bs 148 4
  nonfin := bit (fieldAt bs 138 1) 0
  nan := bit (fieldAt bs 138 1) 1
  inex := bit (fieldAt bs 138 1) 2
  bin := bit (fieldAt bs 138 1) 3
  vclamp := bit (fieldAt bs 138 1) 4
  mean := fieldAt bs 140 4
  var := fieldAt bs 144 4

/-- The record of a slot. -/
def Slot.stats (s : Slot) : StatRec :=
  match s.stat with
  | some r => StatRec.ofBytes r.bytes
  | none => .empty

/-- Stores a slot's record; the empty record is not listed. -/
def Slot.setStats (s : Slot) (r : StatRec) : Slot :=
  { s with stat := if r = .empty then none else some ⟨r.bytes⟩ }

/-! ### Entering a row (R166, R167) -/

/-- A term ± mag × 2^(n + b/8) of S1 or S2. -/
structure StatTerm where
  neg : Bool
  mag : Nat
  n   : Int
  b   : Nat
deriving DecidableEq, Repr

/-- Integer part of a term: the exponent of its leading bit. -/
def StatTerm.part (t : StatTerm) : Int := t.n + (Nat.log2 t.mag : Int)

/-- Product of two terms (R166). -/
def StatTerm.mul (x y : StatTerm) : StatTerm :=
  ⟨x.neg != y.neg, x.mag * y.mag, x.n + y.n + ((x.b + y.b) / 8 : Nat), (x.b + y.b) % 8⟩

/-- The terms of S1 for a value: those of R117 for a Grendy value, its significand for a linear one. -/
def statTerms (bin : Bool) : Num → List StatTerm
  | .fin neg m e q =>
    if bin then [⟨neg, m, e, 0⟩]
    else (passesOf neg (128 * e + q) 0).map fun t => ⟨t.neg, 1, t.n, t.b⟩
  | _ => []

/-- The terms of S2: every pairwise product (R166). -/
def squareTerms (ts : List StatTerm) : List StatTerm := ts.flatMap fun x => ts.map fun y => x.mul y

/-- The window of a row's terms (R167). -/
def statWindow (ts : List StatTerm) : Int :=
  match ts.map StatTerm.part with
  | [] => -1024
  | p :: ps => ps.foldl (fun a x => if a < x then x else a) p - 47

/-- A term in units of 2^(w + b/8), rounded to nearest even on magnitude, with whether bits were lost. -/
def StatTerm.units (w : Int) (t : StatTerm) : Int × Bool :=
  let (u, lost) := if w ≤ t.n then (t.mag * 2 ^ (t.n - w).toNat, false) else raiseMag .nearest 0 0 t.mag (w - t.n).toNat
  (if t.neg then -(u : Int) else u, lost)

/-- Sums terms into eight buckets at a window. -/
def statSum (w : Int) (ts : List StatTerm) : List Int × Bool :=
  ts.foldl (fun acc t =>
    let (u, lost) := t.units w
    (acc.1.zipIdx.map fun p => if p.2 = t.b then p.1 + u else p.1, acc.2 || lost)) (List.replicate 8 0, false)

/-! ### Mean and variance (R168) -/

/-- Σ V_b 2^(b/8) × 2^w / d as a linear magnitude, for the conversion; none when every bucket is zero. -/
def bucketLin (vs : List Int) (w : Int) (d : Nat) : Option (Bool × Lin) :=
  if vs.all (· = 0) then none
  else
    let x : Int := vs.zipIdx.foldl (fun acc p => acc + p.1 * ((exp2Frac p.2 3 : Nat) : Int)) 0
    let num := x.natAbs * 2 ^ 128
    some (decide (x < 0), ⟨num / d, w - fixBits - 128, decide (num % d ≠ 0) || vs.tail.any (· ≠ 0)⟩)

/-- The conversion of a bucket sum over d to binary32 under RN within the bound of R135. -/
def bucketToBin32 (vs : List Int) (w : Int) (d : Nat) : Nat :=
  match bucketLin vs w d with
  | none => 0
  | some (neg, x) =>
    let key := (vs.flatMap fun v => leBytes 16 (unsignedOf 128 v)) ++ leBytes 4 (unsignedOf 32 w) ++ leBytes 8 d
    (boundedConv (boundSlack (2 ^ 24) (mixRatio vs)) key fun eps => roundBin bin32 .rn 0 eps neg x).code

/-- n·S2 − S1² in bucket arithmetic: eight buckets and their window. -/
def varBuckets (r : StatRec) : List Int × Int :=
  let w := if r.w2 < 2 * r.w1 then r.w2 else 2 * r.w1
  let a : List Int := r.s2.map fun v => v * r.n * ((2 ^ (r.w2 - w).toNat : Nat) : Int)
  let sq : List Int := (List.range 8).map fun k =>
    (List.range 8).foldl (fun acc i =>
      let j := (k + 8 - i) % 8
      acc + r.s1.getD i 0 * r.s1.getD j 0 * (if k < i then 2 else 1)) 0
  let b : List Int := sq.map fun v => v * ((2 ^ (2 * r.w1 - w).toNat : Nat) : Int)
  (a.zipWith (· - ·) b, w)

/-- Forms MEAN, VAR and VCLAMP (R168). -/
def StatRec.withMoments (r : StatRec) : StatRec :=
  if r.nonfin then { r with mean := 0x7FC00000, var := 0x7FC00000, vclamp := false }
  else if r.n = 0 then { r with mean := 0, var := 0, vclamp := false }
  else
    let (d, w) := varBuckets r
    let neg := decide (rootSign 3 d < 0)
    { r with
      mean := bucketToBin32 r.s1 r.w1 r.n
      var := if neg then 0 else bucketToBin32 d w (r.n * r.n)
      vclamp := neg }

/-! ### AMAX and RMAX (R165) -/

/-- Encoding of a finite value: the log encoding, or binary32 for linear targets. -/
def statCode (bin : Bool) (v : Num) : Nat :=
  if bin then (toBin bin32 .rn 0 0 v).code
  else match v with
    | .fin neg _ e q => (if neg then 2 ^ 31 else 0) + unsignedOf 30 (128 * e + q)
    | _ => logZero

/-- The value that an encoding stands for; a log field whose bit [30] is set counts as zero (R169). -/
def statValue (bin : Bool) (c : Nat) : Num :=
  if bin then bin32.num c
  else if bit c 30 then .zero
  else .ofLog (bit c 31) (signedOf 30 c)

/-- The magnitude of a value. -/
def Num.abs : Num → Num
  | .fin _ m e q => .fin false m e q
  | .inf _ => .inf false
  | x => x

/-- The larger of two values. -/
def Num.max (a b : Num) : Num := if a.lt b then b else a

/-- The record of a row (R164-R168): its values below WIDTH and the number that clipping saturated. -/
def rowStats (bin : Bool) (vs : List Num) (clipped : Nat) : StatRec :=
  let ts1 := vs.flatMap (statTerms bin)
  let ts2 := vs.flatMap fun v => squareTerms (statTerms bin v)
  let w1 := statWindow ts1
  let w2 := statWindow ts2
  let (s1, l1) := statSum w1 ts1
  let (s2, l2) := statSum w2 ts2
  let fin := vs.filter Num.isFinite
  let top := (fin.map Num.abs).foldl Num.max .zero
  let rmax := match fin with
    | [] => .zero
    | v :: rest => rest.foldl Num.max v
  { StatRec.empty with
    s1 := s1, s2 := s2, w1 := w1, w2 := w2
    amax := statCode bin top
    rmax := statCode bin rmax
    n := fin.length
    clip := clipped
    nonfin := vs.any fun v => !v.isFinite
    nan := vs.any (· == .nan)
    inex := l1 || l2
    bin := bin : StatRec }.withMoments

/-! ### Combination (R169, R619) -/

/-- Whether a record is neutral (R619). -/
def StatRec.neutral (r : StatRec) : Bool := r.n = 0 && !r.nonfin

/-- The KIND of a combination, none when records clash (R619). -/
def kindOf (rs : List StatRec) : Option Bool :=
  match rs.filter fun r => !r.neutral with
  | [] => some false
  | r :: rest => if rest.all fun x => x.bin == r.bin then some r.bin else none

/-- Two bucket sums aligned to the higher window and added (R169). -/
def alignAdd (a : List Int) (wa : Int) (b : List Int) (wb : Int) : List Int × Int × Bool :=
  let w := if wa < wb then wb else wa
  let sa := a.map fun v => shiftRN v (w - wa).toNat
  let sb := b.map fun v => shiftRN v (w - wb).toNat
  ((sa.map (·.1)).zipWith (· + ·) (sb.map (·.1)), w, (sa ++ sb).any (·.2))

/-- One record added to a combination of a KIND. -/
def StatRec.combine (bin : Bool) (a b : StatRec) : StatRec :=
  let (s1, w1, l1) := alignAdd a.s1 a.w1 b.s1 b.w1
  let (s2, w2, l2) := alignAdd a.s2 a.w2 b.s2 b.w2
  let val := fun (r : StatRec) c => if r.neutral then Num.zero else statValue bin c
  let cap := 2 ^ 32 - 1
  { a with
    s1 := s1, s2 := s2, w1 := w1, w2 := w2
    amax := statCode bin ((val a a.amax).max (val b b.amax))
    rmax := statCode bin ((val a a.rmax).max (val b b.rmax))
    n := Nat.min (a.n + b.n) cap
    clip := Nat.min (a.clip + b.clip) cap
    nonfin := a.nonfin || b.nonfin
    nan := a.nan || b.nan
    inex := a.inex || b.inex || l1 || l2
    bin := bin }

/-- The combination of records in order, with MEAN and VAR (R169). -/
def combineStats (bin : Bool) : List StatRec → StatRec
  | [] => StatRec.empty.withMoments
  | r :: rest => (rest.foldl (StatRec.combine bin) { r with bin := bin
                                                            amax := statCode bin (if r.neutral then .zero else statValue bin r.amax)
                                                            rmax := statCode bin (if r.neutral then .zero else statValue bin r.rmax) }).withMoments

end Sys2Proof.Machine
end

