-- ==== Sys2Proof/Machine/OutStage.lean ====
section
/-! DEFINITION. The fused output stage: output descriptors and their checks (R155, R156, R620), stage values (R157-R160),
fine scales (R224-R228), conversion with GL4 outliers (R161, R162, R235), histograms and codebooks (R240-R242), row
statistics (R164) and the layer's stat record (R246). -/

namespace Sys2Proof.Machine

/-! ### Output descriptors -/

/-- An output descriptor, with the tables bound at issue. -/
structure OutDesc where
  dst       : Nat
  pitch     : Nat
  fmt       : Fmt
  rnd       : Rnd
  clip      : Bool
  act       : Nat
  actParam  : Nat
  bias      : Nat
  rowScale  : Bool
  stats     : Bool
  cb        : Nat
  layer     : Nat
  oscale    : Nat
  biasAddr  : Nat
  scaleAddr : Nat
  statAddr  : Nat
  clampLo   : Nat
  clampHi   : Nat
  seq       : Nat
  width     : Nat
  book      : List Byte
  pwl       : List Byte
deriving DecidableEq, Repr

/-- Blocks of 32 columns that a row touches (R162). -/
def OutDesc.blocks (d : OutDesc) : Nat := (d.width + 31) / 32

/-- Bytes of one block of the target. -/
def OutDesc.blockBytes (d : OutDesc) : Nat := 4 * d.fmt.bits

/-- Ordinal of block k of row r (R230). -/
def OutDesc.ordinal (d : OutDesc) (r k : Nat) : Nat := (r * d.pitch + k * d.blockBytes) / d.blockBytes

/-- The target formats of R155. -/
def outFormat : Nat → Option Fmt
  | 0 => some .gl16
  | 1 => some .gl8
  | 2 => some .gl4
  | 3 => some .gl4c
  | 4 => some .bf32
  | 7 => some .int8
  | _ => none

/-- Whether a rounding mode may convert to a format (R89). -/
def Rnd.allows (r : Rnd) (f : Fmt) : Bool :=
  match r with
  | .ru | .rd => f.bin?.isSome
  | _ => true

/-- Whether a bias format and a slot mode agree (R156): 3 is INT32, 1 and 2 are binary32 and GL16. -/
def biasAgrees (bias : Nat) (m : Mode) : Bool :=
  match m with
  | .empty => true
  | .int32 => bias = 0 || bias = 3
  | _ => bias ≠ 3

/-- Reads and checks output descriptor `idx` in the order of R620 item 6. `mode` is the slot mode of an MMA; `rows` are the
rows that the output stage would write. -/
def State.outDesc (s : State) (h idx : Nat) (mode : Option Mode) (rows : List Nat) : Checked OutDesc := do
  let at_ := 4096 * s.get (Reg.HTH_ODESC_BASE_BASE h) + 64 * idx
  failIf (decide (hearthBytes < at_ + 64)) arithDesc
  let b := s.bytes (hearthAddr h + at_) 64
  let u := fun lo n => fieldAt b lo n
  let some fmt := outFormat (bits (u 8 1) 0 4) | .error arithField
  let some rnd := Rnd.ofCode (bits (u 8 1) 4 3) | .error arithField
  let act := bits (u 9 1) 0 3
  let param := bits (u 9 1) 3 5
  let lo := u 32 2
  let hi := u 34 2
  let bias := bits (u 10 1) 0 2
  let d : OutDesc := {
    dst := u 0 4, pitch := u 4 4, fmt := fmt, rnd := rnd, clip := bit (u 8 1) 7, act := act, actParam := param, bias := bias
    rowScale := bit (u 10 1) 2, stats := bit (u 10 1) 3, cb := u 11 1, layer := u 12 2, oscale := u 14 2
    biasAddr := u 16 4, scaleAddr := u 20 4, statAddr := u 28 4, clampLo := lo, clampHi := hi, seq := u 36 2
    width := u 38 1, book := (s.table h kindBook (u 11 1)).now, pwl := (s.table h kindPwl param).now }
  let scaled := fmt.alwaysScaled
  failIf (!rnd.allows fmt || decide (4 < act) ||
    (if act = 2 then param = 0 || decide (15 < param) else act != 4 && param != 0) ||
    (act = 3 && (!(gl16Num lo).isFinite || !(gl16Num hi).isFinite || (gl16Num hi).lt (gl16Num lo))) ||
    (u 10 1) / 16 != 0 || fieldAt b 39 25 != 0 || d.width = 0 || decide (64 < d.width) ||
    (match mode with | some m => !biasAgrees bias m | none => false) || (d.rowScale && !scaled) ||
    (fmt == .gl4c && decide (64 ≤ d.cb)) || (fmt == .gl8 && decide (64 ≤ d.cb) && d.cb != 0xFF)) arithField
  failIf (gl16Num d.oscale == .zero || !(gl16Num d.oscale).isFinite) arithScale
  let size := if bias = 2 then 2 else 4
  let last := rows.foldl Nat.max 0
  let ord := d.ordinal last (d.blocks - 1)
  let beyond := fun (e : Nat) => decide (hearthBytes < e)
  failIf (d.dst % 64 != 0 || d.pitch % 64 != 0 || (bias != 0 && d.biasAddr % size != 0) || (scaled && d.scaleAddr % 4 != 0) ||
    (d.stats && d.statAddr % 64 != 0) || u 24 4 != (if fmt = .gl4 then d.scaleAddr else 0) ||
    (bias != 0 && beyond (d.biasAddr + 64 * size)) ||
    (!rows.isEmpty && (beyond (d.dst + last * d.pitch + d.blocks * d.blockBytes) ||
      (scaled && beyond (if fmt = .gl4 then sidecarAt d.scaleAddr ord + 16 else recordAt fmt d.scaleAddr ord + 4)) ||
      (d.stats && beyond (d.statAddr + last * 192 + 192))))) arithDesc
  failIf ((act = 4 && d.pwl.isEmpty) || (fmt == .gl4c && d.book.isEmpty)) arithTable
  .ok d

/-! ### Stage values (R157) -/

/-- A stage value with the flags so far. -/
structure Stage where
  v  : Num
  fl : Fl
deriving DecidableEq, Repr

/-- A magnitude rounded RN to 64 bits. -/
def round64 (neg : Bool) (x : Lin) : Num × Bool :=
  let top := x.e + (Nat.log2 x.m : Int)
  let (n, lost) := roundAt .rn neg 0 0 x (top - 63)
  (if n = 0 then .zero else .fin neg n (top - 63) 0, lost)

/-- The stage value rounded RN to 64 bits. -/
def Stage.round (x : Stage) : Stage :=
  match x.v with
  | .fin neg m e q =>
    let (v, lost) := round64 neg (linOf m e q)
    ⟨v, x.fl ||| flagIf lost fIX⟩
  | _ => x

/-- Multiplication by a GL16 code: a log addition and a sign (R160, R223). -/
def Num.timesGl16 (c : Nat) (v : Num) : Num :=
  match gl16Num c with
  | .fin neg _ e q => let x := v.scaleLog (128 * e + q); if neg then x.neg else x
  | _ => v

/-- Exact sum of two finite values without fractions of an exponent. -/
def addFin (n1 : Bool) (m1 : Nat) (e1 : Int) (n2 : Bool) (m2 : Nat) (e2 : Int) : Num :=
  let e := if e1 < e2 then e1 else e2
  let a : Int := (m1 * 2 ^ (e1 - e).toNat : Nat)
  let b : Int := (m2 * 2 ^ (e2 - e).toNat : Nat)
  .ofInt ((if n1 then -a else a) + (if n2 then -b else b)) e

/-- Sum of two values, by IEEE 754-2019 for infinities and NaN (R160); the flag is an invalid operation. -/
def Num.add (a b : Num) : Num × Bool :=
  match a, b with
  | .nan, _ => (.nan, false)
  | _, .nan => (.nan, true)
  | .inf x, .inf y => if x = y then (.inf x, false) else (.nan, true)
  | .inf x, _ => (.inf x, false)
  | _, .inf y => (.inf y, false)
  | .zero, y => (y, false)
  | x, .zero => (x, false)
  | .fin n1 m1 e1 q1, .fin n2 m2 e2 q2 =>
    let x := linOf m1 e1 q1
    let y := linOf m2 e2 q2
    (addFin n1 x.m x.e n2 y.m y.e, false)

/-- The bias entry of a column: exact, or GL16 converted to binary32 first (R160). -/
def biasEntry (fmt : Nat) (bs : List Byte) (c : Nat) : Num × Fl :=
  match fmt with
  | 1 => (bin32.num (fieldAt bs (4 * c) 4), 0)
  | 2 =>
    let r := toBin bin32 .rn 0 0 (gl16Num (fieldAt bs (2 * c) 2))
    (bin32.num r.code, r.fl)
  | _ => (.ofInt (signedOf 32 (fieldAt bs (4 * c) 4)) 0, 0)

/-- Fraction bits carried through a PWL evaluation. -/
def pwlBits : Nat := 128

/-- 2^z for z in units of 2^-pwlBits, rounded RN to 64 bits. -/
def exp2Stage (neg : Bool) (z : Int) : Num :=
  let k := (2 ^ pwlBits : Nat)
  let f := (z.emod k).toNat
  if f = 0 then .fin neg 1 (z.fdiv k) 0
  else (round64 neg ⟨exp2Frac f pwlBits, z.fdiv k - fixBits, true⟩).1

/-- The PWL table of R159, R364 applied to a stage value. -/
def applyPwl (t : List Byte) (v : Num) : Num :=
  match v with
  | .nan => .nan
  | .zero => gl16Num (fieldAt t 16 2)
  | .inf neg => gl16Num (fieldAt t (if neg then 20 else 18) 2)
  | .fin neg m e q =>
    let x0 := signedOf 32 (fieldAt t (if neg then 8 else 0) 4) * (2 ^ (pwlBits - 16) : Nat)
    let wexp := signedOf 8 (fieldAt t (if neg then 12 else 4) 1)
    let w : Int := (2 ^ ((pwlBits : Int) + wexp).toNat : Nat)
    let d := logFix m e q pwlBits - x0
    let i := let j := d.fdiv w; if j < 0 then 0 else if 127 < j then 127 else j.toNat
    let seg := fieldAt t ((if neg then 1056 else 32) + 8 * i) 8
    let c := signedOf 32 seg * (2 ^ (pwlBits - 16) : Nat)
    let s := signedOf 24 (bits seg 32 24)
    let z := c + (s * (d - i * w)).fdiv (2 ^ 16 : Nat)
    match bits seg 56 2 with
    | 0 => exp2Stage false z
    | 1 => exp2Stage true z
    | _ => .zero

/-- The activation of R158. -/
def activate (d : OutDesc) (v : Num) : Num :=
  match d.act with
  | 1 => match v with
    | .fin true _ _ _ => .zero
    | .inf true => .zero
    | x => x
  | 2 => match v with
    | .fin true m e q => .fin true m (e - d.actParam) q
    | x => x
  | 3 =>
    let lo := gl16Num d.clampLo
    let hi := gl16Num d.clampHi
    if v = .nan then .nan else if v.lt lo then lo else if hi.lt v then hi else v
  | 4 => applyPwl d.pwl v
  | _ => v

/-- Whether a stage value is carried without rounding (R157). -/
def OutDesc.exact (d : OutDesc) : Bool := d.bias = 0 && d.act ≠ 4 && d.oscale % 128 = 0

/-- The slot value of an element as it enters the stage: X, with the outlier sum rounded RN to 64 bits where it is not
zero (R239), times the coarse scales. -/
def enterStage (spill : Bool) (mode : Mode) (e : Elem) (coarse : List Nat) : Stage :=
  let x := e.num spill mode
  let s : Stage :=
    if e.outSum = 0 || !x.isFinite then ⟨x, 0⟩
    else (⟨(x.add (.ofInt e.outSum.toInt e.outBase.toInt)).1, 0⟩ : Stage).round
  { s with v := coarse.foldl (fun v c => v.timesGl16 c) s.v }

/-- Steps 1 to 3 of R154 for column c, without the row scale. -/
def OutDesc.stage (d : OutDesc) (bias : List Byte) (s0 : Stage) (c : Nat) : Stage :=
  let rnd := fun (x : Stage) => if d.exact then x else x.round
  let s := rnd s0
  let s := if d.bias = 0 then s
    else
      let (b, fl) := biasEntry d.bias bias c
      let (v, inv) := s.v.add b
      (⟨v, s.fl ||| fl ||| flagIf inv fNV⟩ : Stage).round
  let a : Stage := { s with v := activate d s.v }
  let a := if d.act = 4 then a.round else a
  rnd { a with v := a.v.timesGl16 d.oscale }

/-! ### Fine scales (R224-R228) -/

/-- Limits of the layer that governs a conversion (R247). -/
structure Limits where
  headroom : Nat
  ospan    : Nat
  capacity : Nat
  clip     : Bool
deriving DecidableEq, Repr

/-- The limits of a layer limit entry. -/
def Limits.ofEntry (e : List Byte) : Limits where
  headroom := fieldAt e 14 1
  ospan := bits (fieldAt e 3 1) 4 3
  capacity := bits (fieldAt e 3 1) 1 3
  clip := bit (fieldAt e 3 1) 0

/-- Holds a fine scale within its range. -/
def clampScale (f : Int) : Int := if f < -127 then -127 else if 127 < f then 127 else f

/-- Whether a value is finite and not zero. -/
def Num.isNonzero : Num → Bool
  | .fin _ _ _ _ => true
  | _ => false

/-- What a block's values ask of its scale: nothing finite and non-zero (a zero block, or 0 with a non-finite value), or
a scale (R224-R226). -/
inductive ScaleNeed where
  | zeros
  | nonfinite
  | scale (f : Int)
deriving DecidableEq, Repr

/-- The largest exponent of R224 among values. -/
def topExponent (vs : List Num) : Int :=
  match vs.filterMap fun v => match v with
    | .fin _ m e q => some (ceilLog m e q)
    | _ => none with
  | [] => 0
  | x :: xs => xs.foldl (fun a b => if a < b then b else a) x

/-- Exponent in 128ths rounded to GL16 under RN, with an unbounded range (R225). -/
def nearExponent (m : Nat) (e : Int) (q : Nat) : Int := (glRoundE glf16 .rn 0 0 m e q).1 - 16384

/-- G of R225. -/
def meanExponent (vs : List Num) : Int :=
  let es := vs.filterMap fun v => match v with
    | .fin _ m e q => some (nearExponent m e q)
    | _ => none
  ceilDiv (es.foldl (· + ·) 0) (Nat.max es.length 1 : Nat)

/-- The fine scale that finite non-zero values ask for in a format. -/
def scaleFor (f : Fmt) (l : Limits) (vs : List Num) : Int :=
  match f with
  | .gl4 => clampScale (ceilDiv (meanExponent vs + 64 * l.ospan - 128) 128)
  | .gl16 => clampScale (ceilDiv (topExponent vs) 128)
  | _ => clampScale (ceilDiv (topExponent vs - 992) 128 + l.headroom)

/-- What the values of a block ask for. -/
def scaleNeed (f : Fmt) (l : Limits) (vs : List Num) : ScaleNeed :=
  if vs.all (· == .zero) then .zeros
  else if vs.any Num.isNonzero then .scale (scaleFor f l vs)
  else .nonfinite

/-! ### GL4 outliers (R235) -/

/-- Whether a finite value at a fine scale exceeds the GL4 overflow limit 2^1.25 (R74). -/
def isOutlier (f : Int) (v : Num) : Bool :=
  match v.scale (-f) with
  | .fin _ m e q => magLt 1 1 32 m e q
  | _ => false

/-- Positions of the outliers of a block. -/
def outliersAt (f : Int) (vs : List Num) : List Nat :=
  (vs.zipIdx.filter fun p => isOutlier f p.1).map (·.2)

/-- Raises a fine scale one at a time until at most `cap` outliers remain or it is 127. -/
def raiseScale (cap : Nat) (vs : List Num) : Nat → Int → Int
  | 0, f => f
  | n + 1, f => if (outliersAt f vs).length ≤ cap ∨ 127 ≤ f then f else raiseScale cap vs n (f + 1)

/-- The `cap` positions of largest magnitude, lower positions first among equals, in ascending order. -/
def largestAt (cap : Nat) (vs : List Num) (at_ : List Nat) : List Nat :=
  let mag := fun i => (vs.getD i .zero).abs
  at_.filter fun i => decide ((at_.filter fun j => (mag i).lt (mag j) || (!((mag j).lt (mag i)) && decide (j < i))).length < cap)

/-! ### Converting a row -/

/-- A column as converted: its code, its effective value, its stage value and the flags of its conversion. -/
structure OutElem where
  code : Nat
  eff  : Num
  src  : Num
  fl   : Fl
deriving DecidableEq, Repr

/-- A block of a row as written: codes, the scale record's lower half, the sidecar without its tag, and what the GL4
policy left. -/
structure OutBlock where
  elems   : List OutElem
  record  : Nat
  side    : List Byte
  spilled : Bool
deriving DecidableEq, Repr

/-- Converts one value whose scale is removed; `slack` and `key` carry the bound of R135. -/
def OutDesc.convert (d : OutDesc) (u : Nat) (slack : Nat) (key : List Byte) (v : Num) : Conv :=
  let one := fun eps => d.fmt.ofNum { mode := d.rnd, clip := d.clip, u := u, book := d.book, eps := eps } v
  if slack = 0 then one 0 else boundedConv slack key one

/-- A column before conversion: its stage value with flags, its random bits and the bound that applies. -/
structure Column where
  stage : Stage
  u     : Nat
  slack : Nat
  key   : List Byte
deriving DecidableEq, Repr

/-- A zero column, written beyond WIDTH (R162). -/
def Column.none : Column := ⟨⟨.zero, 0⟩, 0, 0, []⟩

/-- Converts a column at fine scale f. -/
def OutDesc.column (d : OutDesc) (f : Int) (zero : Bool) (c : Column) : OutElem :=
  let r := d.convert c.u c.slack c.key (c.stage.v.scale (-f))
  ⟨r.code, if zero then .zero else (d.fmt.num d.book r.code).scale f, c.stage.v, c.stage.fl ||| r.fl⟩

/-- A sidecar entry for an outlier (R234): its code with the flags of the conversion. -/
def outlierEntry (c : Column) (pos : Nat) : Nat × Num × Fl :=
  let one := fun eps => Fmt.ofNum { mode := .rn, clip := true, eps := eps } .gl16 c.stage.v
  let r := if c.slack = 0 then one 0 else boundedConv c.slack c.key one
  (r.code + pos * 2 ^ 16 + 2 ^ 21, gl16Num r.code, r.fl)

/-- A GL4 block at a fine scale found so far: R235. `fixed` holds the scale (a raise by the whole row is already done). -/
def OutDesc.gl4Block (d : OutDesc) (l : Limits) (f0 : Int) (fixed raised : Bool) (cs : List Column) : OutBlock :=
  let vs := cs.map (·.stage.v)
  let many := decide (l.capacity < (outliersAt f0 vs).length)
  let f := if many && !l.clip && !fixed then raiseScale l.capacity vs 255 f0 else f0
  let outs := outliersAt f vs
  let kept := if outs.length ≤ l.capacity then outs else largestAt l.capacity vs outs
  let cells := cs.zipIdx.map fun p =>
    if kept.contains p.2 then
      let (_, v, fl) := outlierEntry p.1 p.2
      (⟨0, v, p.1.stage.v, p.1.stage.fl ||| fl⟩ : OutElem)
    else if outs.contains p.2 then
      let neg := match p.1.stage.v with
        | .fin n _ _ _ => n
        | _ => false
      let code := if neg then 15 else 7
      ⟨code, (gl4Num code).scale f, p.1.stage.v, p.1.stage.fl ||| fCLIP⟩
    else d.column f false p.1
  let entries := kept.map fun i => (outlierEntry (cs.getD i .none) i).1
  let spilled := many || raised
  let cells := if spilled then cells.zipIdx.map fun p => if p.2 = 0 then { p.1 with fl := p.1.fl ||| fOUTOVF } else p.1 else cells
  { elems := cells
    record := unsignedOf 8 f + (if raised || f ≠ f0 then 0x100 else 0)
    side := fitBytes 12 (entries.flatMap fun e => leBytes 3 e) ++ [0, 0] ++ leBytes 1 kept.length ++ leBytes 1 spilled.toNat
    spilled := spilled }

/-- An empty sidecar. -/
def noSidecar : List Byte := List.replicate 16 0

/-- A block of zeros: fine scale code 0x80, under which every code reads as zero (R84, R226). -/
def OutDesc.zeroBlock (d : OutDesc) (cs : List Column) : OutBlock :=
  ⟨cs.map (d.column 0 true), 0x80, noSidecar, false⟩

/-- A block at fine scale f in any scaled format. -/
def OutDesc.scaledBlock (d : OutDesc) (l : Limits) (f : Int) (fixed raised : Bool) (cs : List Column) : OutBlock :=
  if d.fmt = .gl4 then d.gl4Block l f fixed raised cs
  else ⟨cs.map (d.column f false), unsignedOf 8 f, [], false⟩

/-- One block with its own scale (R224-R226). -/
def OutDesc.block (d : OutDesc) (l : Limits) (cs : List Column) : OutBlock :=
  if !d.fmt.alwaysScaled then ⟨cs.map (d.column 0 false), 0, [], false⟩
  else match scaleNeed d.fmt l (cs.map (·.stage.v)) with
    | .zeros => d.zeroBlock cs
    | .nonfinite => d.scaledBlock l 0 false false cs
    | .scale f => d.scaledBlock l f false false cs

/-- The common fine scale of a row (R228), and whether the outlier policy raised it: for GL4 the raise goes on until no
block holds more outliers than its capacity, so that the scale stays common. -/
def OutDesc.rowFine (d : OutDesc) (l : Limits) (blocks : List (List Column)) : Int × Bool :=
  let vals := blocks.map fun b => b.map (·.stage.v)
  let all := vals.flatten
  if !all.any Num.isNonzero then (0, false)
  else if d.fmt = .gl4 then
    let f := scaleFor .gl4 l all
    if l.clip then (f, false)
    else
      let f' := vals.foldl (fun g vs => raiseScale l.capacity vs 255 g) f
      (f', f' ≠ f)
  else
    let fs := (vals.filter fun vs => vs.any Num.isNonzero).map (scaleFor d.fmt l)
    match fs with
    | [] => (0, false)
    | x :: xs => (xs.foldl (fun a b => if a < b then b else a) x, false)

/-- Writes the zero code 0 to the columns from n on (R162). -/
def padRow (n : Nat) (bs : List OutBlock) : List OutBlock :=
  bs.zipIdx.map fun p =>
    { p.1 with elems := p.1.elems.zipIdx.map fun e => if n ≤ 32 * p.2 + e.2 then { e.1 with code := 0 } else e.1 }

/-- The blocks of a row (R162, R227, R228). -/
def OutDesc.convertRow (d : OutDesc) (l : Limits) (cols : List Column) : List OutBlock :=
  padRow d.width <|
  let blocks := (List.range d.blocks).map fun k => (List.range 32).map fun i => cols.getD (32 * k + i) .none
  if d.rowScale then
    let (f, raised) := d.rowFine l blocks
    blocks.map fun cs =>
      let spilled := raised && decide (l.capacity < (outliersAt (scaleFor .gl4 l (blocks.flatten.map (·.stage.v))) (cs.map (·.stage.v))).length)
      let b := if cs.all fun c => c.stage.v == .zero then d.zeroBlock cs else d.scaledBlock l f true spilled cs
      { b with record := b.record % 0x100 + 0x200 + (if raised then 0x100 else 0) }
  else blocks.map (d.block l)

/-! ### Histograms and codebooks (R240-R242) -/

/-- The finite GL8 codes in order of value (R242): 0xFE to 0x81, 0, 0x01 to 0x7E. -/
def gl8Order : List Nat := ((List.range 126).map fun i => 0xFE - i) ++ [0] ++ (List.range 126).map fun i => i + 1

/-- The first code whose running count exceeds a target. -/
def codeAbove (counts : SMap Nat) (target : Nat) : Nat → List Nat → Nat
  | _, [] => 0
  | run, c :: cs =>
    let run := run + sget 0 counts c
    if target < run then c else codeAbove counts target run cs

/-- The codebook that a histogram gives (R242). -/
def bookOf (counts : SMap Nat) : List Byte :=
  let n := (gl8Order.map fun c => sget 0 counts c).foldl (· + ·) 0
  (List.range 16).map fun j => if n = 0 then 0 else BitVec.ofNat 8 (codeAbove counts ((2 * j + 1) * n / 32) 0 gl8Order)

/-- Builds the shadow codebook of a slot, clears its histogram, and marks it for the next HBAR (R242). -/
def State.buildBook (s : State) (h slot : Nat) : State :=
  let x := s.hearth h
  let book := bookOf (sget ⟨[], 0⟩ x.hist slot).counts
  let s := s.setTable h kindBook slot ((s.table h kindBook slot).load book)
  let x := s.hearth h
  s.setHearth h { x with hist := sdel x.hist slot, built := slot :: x.built.filter (· != slot) }

/-- Adds a row's finite GL8 codes to a histogram (R241); a group that ended at 256 rows is built before. -/
def State.addHistogram (s : State) (h slot : Nat) (codes : List Nat) : State :=
  let full := (sget (⟨[], 0⟩ : Histogram) (s.hearth h).hist slot).rows = 256
  let s := if full then s.buildBook h slot else s
  let x := s.hearth h
  let g := sget (⟨[], 0⟩ : Histogram) x.hist slot
  let counts := codes.foldl (fun m c => if (gl8Num c).isFinite then sput m c (Nat.min (sget 0 m c + 1) (2 ^ 32 - 1)) else m) g.counts
  let s := s.setHearth h { x with hist := sput x.hist slot ⟨counts, g.rows + 1⟩ }
  s.put (Reg.HTH_TBL_STATUS_HROWS h) (g.rows + 1)

/-! ### Running on a row -/

/-- Work of the output stage on behalf of one instruction: hearth, ember, tag, site and the coarse scales of A and B. -/
structure OutJob where
  h      : Nat
  e      : Nat
  tag    : Nat
  site   : BitVec 16
  coarse : List Nat
deriving DecidableEq, Repr

/-- The columns of a row below WIDTH, carried through steps 1 to 3. -/
def OutDesc.columns (d : OutDesc) (job : OutJob) (rnd : RandomSource) (spill : Bool) (bias : List Byte) (r : Nat) (slot : Slot) :
    List Column :=
  (List.range d.width).map fun c =>
    let e := slot.elem c
    let st := d.stage bias (enterStage spill slot.mode e job.coarse) c
    let wide := wideIn spill slot.mode
    let bounded := (slot.mode == .gl8x || slot.mode == .gl16w) && e.special == .finite
    let vs := e.buckets.list.map (bucketVal wide)
    let per := match d.fmt with
      | .gl16 => 128
      | .gl8 | .gl4c => 8
      | .gl4 => 2
      | _ => 2 ^ 24
    { stage := st
      u := if d.rnd = .sr then roundingBits rnd job.site (64 * r + c) else 0
      slack := if bounded && vs.any (· ≠ 0) then boundSlack per (mixRatio vs) else 0
      key := e.record slot.mode ++ leBytes 8 (unsignedOf 64 e.outSum.toInt) ++ job.coarse.flatMap (leBytes 2) ++
        leBytes 2 d.oscale ++ leBytes 1 d.fmt.code ++ leBytes 1 d.act }

/-- The bytes that a row's blocks leave in hearth memory: data, scale records and sidecars, as offset and bytes. -/
def OutDesc.writes (d : OutDesc) (r : Nat) (bs : List OutBlock) : List (Nat × List Byte) :=
  let data := (d.dst + r * d.pitch, packCodes d.fmt (bs.flatMap fun b => b.elems.map (·.code)))
  if !d.fmt.alwaysScaled then [data]
  else
    data :: bs.zipIdx.flatMap fun p =>
      let o := d.ordinal r p.2
      let tag := (d.seq + o) % 0x10000
      (recordAt d.fmt d.scaleAddr o, leBytes 2 p.1.record ++ leBytes 2 tag) ::
        (if d.fmt = .gl4 then [(sidecarAt d.scaleAddr o, patch p.1.side 12 (leBytes 2 tag))] else [])

/-- Writes pieces in order; the first that fails ends the row. -/
def State.hWrites (s : State) (h tag : Nat) : List (Nat × List Byte) → State × Nat
  | [] => (s, 0)
  | (a, bs) :: rest =>
    let (s, c) := s.hWrite h tag a bs
    if c ≠ 0 then (s, c) else State.hWrites s h tag rest

/-- Runs the output stage on row r, which lies in slot i of the ember: R154. -/
def State.outRow (s : State) (job : OutJob) (d : OutDesc) (r i : Nat) : State × Nat :=
  let spill := s.cfg.active.spill
  let en := 8 * job.h + job.e
  let slot := (s.ember en).slot i
  let bias := if d.bias = 0 then (s, 0, []) else s.hRead job.h job.tag d.biasAddr (64 * (if d.bias = 2 then 2 else 4))
  andRead bias id fun s bias =>
    let l := Limits.ofEntry (s.layerEntry d.layer)
    let blocks := d.convertRow l (d.columns job s.random spill bias r slot)
    let elems := (blocks.flatMap (·.elems)).take d.width
    let fl := elems.foldl (fun a x => a ||| x.fl) 0
    let clipped := (elems.filter fun x => x.fl &&& fCLIP ≠ 0).length
    let stats := rowStats (!d.fmt.isGrendy) (elems.map (·.eff)) clipped
    andWrite (s.hWrites job.h job.tag (d.writes r blocks)) fun s =>
      let s := s.setEmber en ((s.ember en).setSlot i (slot.setStats stats))
      let s := s.sticky (Reg.EMB_OFLAGS_flags job.h job.e) (fl ||| flagIf stats.vclamp fVCLAMP)
      let s := if d.fmt = .gl8 && decide (d.cb < 64) then s.addHistogram job.h d.cb (elems.map (·.code)) else s
      let tally := (elems.map fun x => Tally.ofValue x.src x.fl).foldl Tally.plus {}
      let s := s.addStat (kilnOf job.h) d.layer
        { tally with
          outovf := (blocks.filter (·.spilled)).length
          outliers := (blocks.map fun b => fieldAt b.side 14 1).foldl (· + ·) 0
          fl := fl ||| flagIf stats.vclamp fVCLAMP }
      if d.stats then s.hWrite job.h job.tag (d.statAddr + 192 * r) stats.bytes else (s, 0)

/-- Runs the output stage on rows in ascending order, stopping at the first memory error. -/
def State.outRows (s : State) (job : OutJob) (d : OutDesc) (first : Nat) : List Nat → State × Nat
  | [] => (s, 0)
  | r :: rs =>
    let (s, c) := s.outRow job d r (first + r)
    if c ≠ 0 then (s, c) else State.outRows s job d first rs

end Sys2Proof.Machine
end

