-- ==== Sys2Proof/Machine/Frame.lean ====
section
/-! DEFINITION. The frame processor (R305-R308): profiles, the crop, scale, colour, temporal, patch and convert stages, and
the token rows of a clip. A plane is a list of rows of 10-bit samples. -/

namespace Sys2Proof.Machine

/-! ### Profiles (R305) -/

/-- An entry of the profile table. -/
structure Profile where
  cropX    : Nat
  cropY    : Nat
  cropW    : Nat
  cropH    : Nat
  outW     : Nat
  outH     : Nat
  filter   : Nat
  matrix   : Nat
  full     : Bool
  stride   : Nat
  tube     : Nat
  patchH   : Nat
  patchW   : Nat
  frames   : Nat
  ofmt     : Nat
  headroom : Nat
  rate48   : Bool
  stereo   : Bool
  bin32    : Bool
  errMax   : Nat
  valid    : Bool
deriving DecidableEq, Repr

/-- A profile from its 64 bytes. -/
def Profile.ofBytes (e : List Byte) : Profile where
  cropX := fieldAt e 0 2
  cropY := fieldAt e 2 2
  cropW := fieldAt e 4 2
  cropH := fieldAt e 6 2
  outW := fieldAt e 8 2
  outH := fieldAt e 10 2
  filter := fieldAt e 12 1 % 4
  matrix := fieldAt e 13 1 % 4
  full := bit (fieldAt e 13 1) 2
  stride := fieldAt e 14 1
  tube := fieldAt e 15 1
  patchH := fieldAt e 16 1
  patchW := fieldAt e 17 1
  frames := fieldAt e 18 2
  ofmt := fieldAt e 20 1 % 16
  headroom := fieldAt e 20 1 / 16
  rate48 := bit (fieldAt e 21 1) 0
  stereo := bit (fieldAt e 21 1) 1
  bin32 := bit (fieldAt e 21 1) 2
  errMax := fieldAt e 22 2
  valid := bit (fieldAt e 24 1) 0

/-- Token rows that a clip yields (R307). -/
def Profile.tokens (p : Profile) : Nat := p.frames / p.tube * (p.outH / p.patchH) * (p.outW / p.patchW)

/-- Elements of a token row, padding included (R87, R307). -/
def Profile.rowElems (p : Profile) : Nat := (p.tube * p.patchH * p.patchW * 3 + 31) / 32 * 32

/-! ### Scale (R306) -/

/-- π with 192 fraction bits, rounded down. -/
def piFix : Nat := 19720096697726538562396133364228268891463450865190089732560

/-- Halves an angle: its cosine and sine with 192 fraction bits. -/
def halfAngle : Nat → Int × Int → Int × Int
  | 0, p => p
  | n + 1, (c, _) =>
    let one : Int := 2 ^ 192
    halfAngle n (isqrt (((one + c) * 2 ^ 191).toNat), isqrt (((one - c) * 2 ^ 191).toNat))

/-- Cosine and sine of π / 192, from those of π / 3. -/
def unitAngle : Int × Int := halfAngle 6 (2 ^ 191, isqrt (3 * 2 ^ 382))

/-- The sine of n × π / 192 by n rotations. -/
def rotate : Nat → Int × Int → Int × Int
  | 0, p => p
  | n + 1, (c, s) =>
    let u := unitAngle
    rotate n ((c * u.1 - s * u.2) / 2 ^ 192, (c * u.2 + s * u.1) / 2 ^ 192)

/-- sin (n × π / 192) with 192 fraction bits. -/
def sinFix (n : Nat) : Int := (rotate n (2 ^ 192, 0)).2

/-- The nearest integer to n / d, ties to even. -/
def roundEven (n : Int) (d : Nat) : Int :=
  let f := n.fdiv d
  let r := (n - f * d).toNat * 2
  if r < d then f else if d < r then f + 1 else if f % 2 = 0 then f else f + 1

/-- RN (256 × kernel (a / 64)): 0 Lanczos-3, 1 bicubic with a = -0.5, 2 bilinear, 3 nearest, which takes -1/2 but not 1/2
(R306; DESIGN CHOICE, log entry 20). -/
def kernelWeight (filter : Nat) (a : Int) : Int :=
  let m := a.natAbs
  match filter with
  | 0 =>
    if m = 0 then 256
    else if 192 ≤ m then 0
    else roundEven (768 * 4096 * sinFix (3 * m) * sinFix m) (piFix ^ 2 * m ^ 2)
  | 1 =>
    if m ≤ 64 then roundEven (384 * (m : Int) ^ 3 - 40960 * (m : Int) ^ 2 + 256 * 262144) 262144
    else if m < 128 then
      roundEven (-128 * (m : Int) ^ 3 + 40960 * (m : Int) ^ 2 - 4194304 * (m : Int) + 512 * 262144) 262144
    else 0
  | 2 => if m < 64 then 4 * (64 - (m : Int)) else 0
  | _ => if -32 ≤ a ∧ a < 32 then 256 else 0

/-- The eight tap weights of a phase: the difference from 256 goes to tap 3. -/
def phaseWeights (filter phase : Nat) : List Int :=
  let ws := (List.range 8).map fun (t : Nat) => kernelWeight filter (64 * ((t : Int) - 3) - phase)
  ws.set 3 (ws.getD 3 0 + (256 - ws.foldl (· + ·) 0))

/-- The sample n and phase of a source position num / den; phase 64 is the next sample with phase 0. The phase rounds half
up (DESIGN CHOICE, log entry 20). -/
def phaseAt (num : Int) (den : Nat) : Int × Nat :=
  let n := num.fdiv den
  let r := (num - n * den).toNat
  let φ := (128 * r + den) / (2 * den)
  if φ = 64 then (n + 1, 0) else (n, φ)

/-- A sample with the edge samples repeated. -/
def edgeSample (xs : List Nat) (i : Int) : Nat :=
  xs.getD (if i < 0 then 0 else Nat.min i.toNat (xs.length - 1)) 0

/-- Holds a 10-bit sample in its range. -/
def clamp10 (z : Int) : Nat := if z < 0 then 0 else Nat.min z.toNat 1023

/-- One pass of the scaler over a line of samples. -/
def resampleLine (filter : Nat) (at_ : List (Int × Nat)) (xs : List Nat) : List Nat :=
  at_.map fun p =>
    let sum := (phaseWeights filter p.2).zipIdx.foldl (fun a w => a + w.1 * (edgeSample xs (p.1 - 3 + w.2) : Int)) 0
    clamp10 ((sum + 128).fdiv 256)

/-- Exchanges rows and columns of a plane of width w. -/
def transposePlane (w : Nat) (rows : List (List Nat)) : List (List Nat) :=
  (List.range w).map fun x => rows.map fun r => r.getD x 0

/-- Scales a plane horizontally and then vertically, at source positions given for each output column and row. -/
def resample (filter : Nat) (xs ys : List (Int × Nat)) (plane : List (List Nat)) : List (List Nat) :=
  let h := plane.map (resampleLine filter xs)
  transposePlane ys.length ((transposePlane xs.length h).map (resampleLine filter ys))

/-- Source positions that scale `src` samples to `n`. -/
def scalePositions (src n : Nat) : List (Int × Nat) :=
  (List.range n).map fun (x : Nat) => phaseAt ((2 * x + 1) * src - n : Int) (2 * n)

/-- Chroma positions of n luma samples, for chroma that lies `site` quarters of a luma sample from its luma sample. -/
def chromaPositions (site : Int) (n : Nat) : List (Int × Nat) :=
  (List.range n).map fun (x : Nat) => phaseAt (4 * (x : Int) - site) 8

/-- The rows of a plane stored row after row. -/
def planeRows (w : Nat) : Nat → List Nat → List (List Nat)
  | 0, _ => []
  | h + 1, xs => xs.take w :: planeRows w h (xs.drop w)

/-- A rectangle of a plane. -/
def cropPlane (x y w h : Nat) (rows : List (List Nat)) : List (List Nat) :=
  ((rows.drop y).take h).map fun r => (r.drop x).take w

/-- The three planes of a picture, cropped and scaled. Chroma comes to the luma grid of the crop and is then scaled as luma
is (DESIGN CHOICE, log entry 20). -/
def Profile.scaled (p : Profile) (pic : Picture) : List (List (List Nat)) :=
  let w := if p.cropW = 0 then pic.width else p.cropW
  let h := if p.cropW = 0 then pic.height else p.cropH
  let x := if p.cropW = 0 then 0 else p.cropX
  let y := if p.cropW = 0 then 0 else p.cropY
  let luma := cropPlane x y w h (planeRows pic.width pic.height pic.luma)
  let chroma := fun c => resample p.filter (chromaPositions pic.siteX w) (chromaPositions pic.siteY h)
    (cropPlane (x / 2) (y / 2) (w / 2) (h / 2) (planeRows (pic.width / 2) (pic.height / 2) c))
  [luma, chroma pic.cb, chroma pic.cr].map (resample p.filter (scalePositions w p.outW) (scalePositions h p.outH))

/-! ### Colour (R306) -/

/-- The coefficients RN (16,384 × c) of a matrix: for each channel that of Cb and that of Cr. -/
def matrixRows : Nat → List (Int × Int)
  | 0 => [(0, 22970), (-5638, -11700), (29032, 0)]
  | 1 => [(0, 25802), (-3069, -7670), (30402, 0)]
  | _ => [(0, 24160), (-2696, -9361), (30825, 0)]

/-- RN (65,535 × n / d), held in its range. -/
def channelCode (n : Int) (d : Nat) : Nat :=
  let k := roundEven (65535 * n) d
  if k < 0 then 0 else Nat.min k.toNat 65535

/-- The three channel codes of a sample. -/
def Profile.colour (p : Profile) (y cb cr : Nat) : List Nat :=
  let yd : Nat := if p.full then 1023 else 876
  let cd : Nat := if p.full then 1023 else 896
  let yn : Int := (y : Int) - (if p.full then 0 else 64)
  let bn : Int := (cb : Int) - 512
  let rn : Int := (cr : Int) - 512
  if p.matrix = 3 then
    [channelCode yn yd, channelCode (2 * bn + cd) (2 * cd), channelCode (2 * rn + cd) (2 * cd)]
  else (matrixRows p.matrix).map fun c =>
    channelCode (16384 * yn * cd + (c.1 * bn + c.2 * rn) * yd) (16384 * yd * cd)

/-- A picture after stages 1 to 3: rows of samples of three channel codes. -/
def Profile.picture (p : Profile) (pic : Picture) : List (List (List Nat)) :=
  match p.scaled pic with
  | [y, b, r] => (y.zip (b.zip r)).map fun q => (q.1.zip (q.2.1.zip q.2.2)).map fun t => p.colour t.1 t.2.1 t.2.2
  | _ => []

/-! ### Temporal and patch (R306, R307) -/

/-- Every n-th element, starting with the first. -/
def everyNth (n : Nat) {α : Type} (xs : List α) : List α := (xs.zipIdx.filter fun p => p.2 % n == 0).map (·.1)

/-- Whether a picture is kept by its presentation time (R298). -/
def keptPicture (start pts : Nat) : Bool := decide ((pts + 2 ^ 33 - start % 2 ^ 33) % 2 ^ 33 < 2 ^ 32)

/-- The channel codes of the tubelet at patch row i and patch column j of a group of pictures (R307). -/
def Profile.tubelet (p : Profile) (group : List (List (List (List Nat)))) (i j : Nat) : List Nat :=
  group.flatMap fun pic => ((pic.drop (i * p.patchH)).take p.patchH).flatMap fun row =>
    ((row.drop (j * p.patchW)).take p.patchW).flatten

/-- Groups of n pictures. -/
def groupsOf {α : Type} (n : Nat) : Nat → List α → List (List α)
  | 0, _ => []
  | k + 1, xs => xs.take n :: groupsOf n k (xs.drop n)

/-- The token rows of the output pictures, as channel codes. -/
def Profile.rows (p : Profile) (pics : List (List (List (List Nat)))) : List (List Nat) :=
  (groupsOf p.tube (p.frames / p.tube) pics).flatMap fun g =>
    (List.range (p.outH / p.patchH)).flatMap fun i => (List.range (p.outW / p.patchW)).map fun j => p.tubelet g i j

/-! ### Convert (R308) -/

/-- The value k / 65,535; other than 0 and 1 it is no power of 2, and 256 bits of it decide every rounding. -/
def channelValue (k : Nat) : Num :=
  if k = 0 then .zero else if k = 65535 then .fin false 1 0 0 else .fin false (k * 2 ^ 256 / 65535) (-256) 0

/-- A converted row: its stored bytes, for GL8 its fine scale code, and the flags set. -/
structure TokenRow where
  bytes : List Byte
  scale : Nat
  fl    : Fl
deriving DecidableEq, Repr

/-- Converts the channel codes of a row to the profile's format. -/
def Profile.convert (p : Profile) (ks : List Nat) : TokenRow :=
  let f := (Fmt.ofCode p.ofmt).getD .uint8
  let vs := ks.map channelValue
  let x : CvtCtx := { mode := .rn }
  let zeros := fun cs => packCodes f (cs ++ List.replicate (p.rowElems - cs.length) 0)
  match f with
  | .gl8 =>
    match scaleNeed .gl8 ⟨p.headroom, 0, 0, false⟩ vs with
    | .scale g =>
      let rs := vs.map fun v => Fmt.gl8.ofNum x (v.scale (-g))
      ⟨zeros (rs.map (·.code)), unsignedOf 8 g, rs.foldl (fun a r => a ||| r.fl) 0⟩
    | _ => ⟨zeros (ks.map fun _ => 0), 0x80, 0⟩
  | .gl16 =>
    let rs := vs.map fun v => Fmt.gl16.ofNum x v
    ⟨zeros (rs.map (·.code)), 0, rs.foldl (fun a r => a ||| r.fl) 0⟩
  | _ =>
    let rs := ks.map fun (k : Nat) => roundEven k 257
    ⟨zeros (rs.map Int.toNat), 0, flagIf (ks.any fun k => k % 257 != 0) fIX⟩

/-! ### A clip's pictures and its aux area (R298, R301-R304) -/

/-- What a splitter and its frame processor make of a clip: a drop reason (R316) or the token rows, with the pictures
decoded and the decode errors counted. -/
structure ClipResult where
  reason : Nat
  rows   : List TokenRow
  frames : Nat
  errors : Nat
deriving DecidableEq, Repr

/-- Takes pictures in output order until the output pictures are complete (R298, R301, R306): those output, the pictures
decoded, and the errors counted, or the drop reason. -/
def takePictures (p : Profile) (start total : Nat) :
    List (Nat × Picture) → (seen taken frames errs : Nat) → List Picture → Nat × List Picture × Nat × Nat
  | [], _, _, frames, _, acc => (if p.errMax < total then 1 else 2, acc, frames, total)
  | (e, pic) :: rest, seen, taken, frames, _, acc =>
    if p.errMax < e then (1, acc, frames, e)
    else
      let kept := keptPicture start pic.pts
      let out := kept && seen % p.stride == 0
      let acc := if out then acc ++ [pic] else acc
      let taken := if out then taken + 1 else taken
      if taken = p.frames then (0, acc, frames + 1, e)
      else takePictures p start total rest (if kept then seen + 1 else seen) taken (frames + 1) e acc

/-- Decodes a clip from what the splitter gives. -/
def decodeClip (p : Profile) (desc : List Byte) (d : DecodedClip) : ClipResult :=
  if !d.supported then ⟨3, [], 0, 0⟩
  else
    let (reason, pics, frames, errs) := takePictures p (bits (fieldAt desc 16 5) 0 33) d.errors d.pictures 0 0 0 0 []
    if reason ≠ 0 then ⟨reason, [], frames, errs⟩
    else ⟨0, (p.rows (pics.map p.picture)).map p.convert, frames, errs⟩

/-- A caption record (R303). -/
def captionBytes (c : Caption) : List Byte :=
  leBytes 5 (c.pts % 2 ^ 33) ++ leBytes 1 c.ccType ++ leBytes 1 c.pairs.length ++ [0] ++
    c.pairs.flatMap fun x => leBytes 2 x.toNat

/-- The aux area of a clip (R304), `n` bytes long, and whether it was cut. The sample count is per channel, and the area
ends in zeros (DESIGN CHOICE, log entry 21). -/
def auxArea (p : Profile) (desc : List Byte) (d : DecodedClip) (n : Nat) : List Byte × Bool :=
  let flags := fieldAt desc 21 1
  let samples := if bit flags 1 then d.audio else []
  let caps := if bit flags 2 then d.captions.flatMap captionBytes else []
  let chans := if p.stereo then 2 else 1
  let f : Fmt := if p.bin32 then .bf32 else .gl16
  let head := leBytes 4 (samples.length / chans) ++ leBytes 1 (if p.rate48 then 1 else 0) ++ leBytes 1 chans ++
    leBytes 1 f.code ++ [0] ++ leBytes 4 caps.length ++ leBytes 4 0
  let body := head ++ samples.flatMap (leBytes (f.bits / 8))
  let all := if caps.isEmpty then body else fitBytes ((body.length + 63) / 64 * 64) body ++ caps
  (fitBytes n all, decide (n < all.length))

end Sys2Proof.Machine
end

