-- ==== Sys2Proof/Machine/Tables.lean ====
section
/-! DEFINITION. Run-time tables as commands and bit-streams carry them (R243, R266, R287, R288, R363-R368): their forms,
loads into a shadow generation and swaps. -/

namespace Sys2Proof.Machine

/-- Codes of the configuration class (R384). -/
def cfgFormat : Nat := 0x1001
/-- R384. -/
def cfgTable : Nat := 0x1008
/-- R384. -/
def cfgClaimed : Nat := 0x100E

/-- The next multiple of 64. -/
def up64 (n : Nat) : Nat := (n + 63) / 64 * 64

/-- Whether n bytes from lo on are 0. -/
def zeroAt (bs : List Byte) (lo n : Nat) : Bool := fieldAt bs lo n == 0

/-! ### Forms -/

/-- Whether a PWL table has the form of R364. -/
def pwlOk (t : List Byte) : Bool :=
  let wexp := fun lo => let w := signedOf 8 (fieldAt t lo 1); decide (-12 ≤ w ∧ w ≤ 4)
  t.length == 2080 && zeroAt t 5 3 && zeroAt t 13 3 && zeroAt t 22 10 && wexp 4 && wexp 12 &&
    (List.range 256).all fun i => decide (fieldAt t (32 + 8 * i + 7) 1 ≤ 2)

/-- Whether a step of a micro-program is one of its kind's, with constants and tables that exist (R366, R368, R436). -/
def microStepOk (update : Bool) (nconst ntable word : Nat) : Bool :=
  let op := bits word 0 5
  let imm := bits word 17 6
  decide (word < 2 ^ 23) &&
    (decide (op ≤ 0x0C) || (update && decide (op ≤ 0x0F))) &&
    (op != 0x0B || decide (imm < nconst)) && (op != 0x0C || decide (imm < ntable)) && (op != 0x0F || decide (imm < 16))

/-- Bytes of the PWL tables of a micro-program, none when one breaks R367. -/
def microTables : Nat → List Byte → Option Nat
  | 0, _ => some 0
  | n + 1, bs =>
    let k := fieldAt bs 8 1
    if k = 0 || 32 < k || !zeroAt bs 9 7 then none
    else match microTables n (bs.drop (16 + 8 * k)) with
      | some m => some (16 + 8 * k + m)
      | none => none

/-- Whether a MICROPROGRAMS entry, header first, has the form of R365-R368 for its kind. -/
def microOk (update : Bool) (e : List Byte) : Bool :=
  let nstep := fieldAt e 2 1
  let ntable := fieldAt e 3 1
  let nconst := fieldAt e 4 1
  let body := e.drop 16
  fieldAt e 0 1 == (if update then 1 else 0) && decide (fieldAt e 1 1 < if update then 8 else 32) &&
    decide (1 ≤ nstep ∧ nstep ≤ 64 ∧ ntable ≤ 8 ∧ nconst ≤ 64) &&
    decide (fieldAt e 5 1 ≤ if update then 0 else 1) && zeroAt e 6 2 && zeroAt e 12 4 &&
    (match microTables ntable (body.drop (4 * nconst)) with
      | none => false
      | some t =>
        let at_ := 4 * nconst + t
        fieldAt e 8 4 == at_ + 4 * nstep && decide (16 + at_ + 4 * nstep ≤ e.length) &&
          (List.range nstep).all fun i =>
            let w := fieldAt body (at_ + 4 * i) 4
            microStepOk update nconst ntable w && (bits w 0 5 == 0) == (i + 1 == nstep))

/-- Bytes of an entry that counts, header included. -/
def microSize (e : List Byte) : Nat := 16 + fieldAt e 8 4

/-- Whether a route entry has the form of R266. -/
def routeOk (e : List Byte) : Bool :=
  let k := fieldAt e 0 1 % 16
  let ids := fieldAt e 4 12
  decide (k ≤ 8) && decide (fieldAt e 0 1 < 64) && zeroAt e 1 3 && ids / 2 ^ (12 * k) == 0 && zeroAt e (16 + 2 * k) (16 - 2 * k)

/-- Whether a clip descriptor keeps its reserved bits at 0 (R287). -/
def clipOk (d : List Byte) : Bool :=
  decide (fieldAt d 16 5 < 2 ^ 33) && decide (bits (fieldAt d 21 1) 4 3 ≤ 3) && decide (fieldAt d 22 2 < 2 ^ 13) &&
    decide (fieldAt d 24 2 < 2 ^ 13) && decide (fieldAt d 26 2 < 1024)

/-- Splits bytes into pieces of n bytes. -/
def chunksOf (n : Nat) : Nat → List Byte → List (List Byte)
  | 0, _ => []
  | k + 1, bs => bs.take n :: chunksOf n k (bs.drop n)

/-- Whether table bytes have the form of their kind (TABLE_LOAD codes of R394). -/
def tableOk (kind : Nat) (bs : List Byte) : Bool :=
  match kind with
  | 1 => pwlOk bs
  | 2 => bs.length == 16
  | 3 => microOk false bs && (microSize bs == bs.length || (up64 (microSize bs) == bs.length && zeroAt bs (microSize bs) 64))
  | 4 => bs.length == 262144 && (chunksOf 32 8192 bs).all routeOk
  | _ => (chunksOf 32 (bs.length / 32) bs).all clipOk

/-! ### Loads and swaps -/

/-- The hearths of a kiln mask that a 12-bit mask names within each kiln. -/
def hearthsOf (kilns mask : Nat) : List Nat := (List.range 384).filter fun h => bit kilns (h / 12) && bit mask (h % 12)

/-- The kilns of a mask. -/
def kilnsOf (kilns : Nat) : List Nat := (List.range 32).filter (bit kilns)

/-- A route slice as entries by index. -/
def routeSlice (bs : List Byte) : SMap (BitVec 256) :=
  (chunksOf 32 8192 bs).zipIdx.filterMap fun p => if leNat p.1 = 0 then none else some (p.2, BitVec.ofNat 256 (leNat p.1))

/-- Live route slice of a kiln. -/
def Kiln.route (x : Kiln) : SMap (BitVec 256) := if x.routeLive then x.route1 else x.route0

/-- Shadow route slice of a kiln. -/
def Kiln.routeShadow (x : Kiln) : SMap (BitVec 256) := if x.routeLive then x.route0 else x.route1

/-- Replaces the shadow route slice. -/
def Kiln.loadRoute (x : Kiln) (r : SMap (BitVec 256)) : Kiln :=
  if x.routeLive then { x with route0 := r } else { x with route1 := r }

/-- Whether the live shuffle generation is the live-tier region (R321). -/
def State.shuffleInLive (s : State) : Bool := s.isSet Reg.RIK_STATUS_LIVE

/-- The rick as an accessing unit. -/
def asRick : Who := { unit := 0x290 }

/-- Device address of descriptor i of the live-tier generation (R288). -/
def State.shuffleAt (s : State) (i : Nat) : Nat := s.cfg.active.shufAddr + 32 * i

/-- A clip descriptor of a generation: 0 the SRAM, 1 the live-tier region. -/
def State.clipDesc (s : State) (gen1 : Bool) (i : Nat) : List Byte :=
  if gen1 then s.peek (s.shuffleAt i) 32 else leBytes 32 (sget 0 s.ing.shuffle i).toNat

/-- VALID of a clip descriptor. -/
def clipValid (d : List Byte) : Bool := bit (fieldAt d 21 1) 3

/-- Adds to a count what new descriptors add and old ones take away. -/
def validCount (count : Nat) (old new : List (List Byte)) : Nat :=
  count + (new.filter clipValid).length - (old.filter clipValid).length

/-- Writes clip descriptors from index `first` on into the shadow generation: the state and a memory-class code. -/
def State.loadShuffle (s : State) (first : Nat) (bs : List Byte) : State × Nat :=
  let n := bs.length / 32
  let new := chunksOf 32 n bs
  let gen1 := !s.shuffleInLive
  let old := (List.range n).map fun i => s.clipDesc gen1 (first + i)
  if gen1 then
    let (s, c) := s.writeMem asRick (s.shuffleAt first) bs
    if c ≠ 0 then (s, c) else (s.put Reg.RIK_VALID_GEN1 (validCount (s.get Reg.RIK_VALID_GEN1) old new), 0)
  else
    let sram := new.zipIdx.foldl (fun m p => sset 0 m (first + p.2) (BitVec.ofNat 256 (leNat p.1))) s.ing.shuffle
    ({ s with ing := { s.ing with shuffle := sram } }.put Reg.RIK_VALID_GEN0
      (validCount (s.get Reg.RIK_VALID_GEN0) old new), 0)

/-- Writes the shadow generation of a table (R243): kinds of TABLE_LOAD, in the hearths or slices of `kilns`. -/
def State.loadTable (s : State) (kind slot kilns first : Nat) (bs : List Byte) : State × Nat :=
  match kind with
  | 4 => ((kilnsOf kilns).foldl (fun t k => t.setKiln k ((t.kiln k).loadRoute (routeSlice bs))) s, 0)
  | 5 => s.loadShuffle first bs
  | _ => ((hearthsOf kilns 0xFFF).foldl (fun t h => t.setTable h kind slot ((t.table h kind slot).load bs)) s, 0)

/-- Discards the steps and runs that are prepared and not open (R315). -/
def State.dropPrepared (s : State) (opened : Prepared → Bool) : State :=
  { s with ing := { s.ing with 
      prepared0 := s.ing.prepared0.filter opened
      prepared1 := if s.evaluating then s.ing.prepared1 else [] } }

/-- Whether a prepared step is the open one. -/
def State.isOpened (s : State) (p : Prepared) : Bool := s.stepOpen && p.step == s.get Reg.COL_STEP_NUM_STEP

/-- Exchanges the marks of a table (R243); a shuffle swap discards what is prepared and not open (R315). -/
def State.swapTable (s : State) (kind slot kilns mask : Nat) : State :=
  match kind with
  | 4 => (kilnsOf kilns).foldl (fun t k => t.setKiln k { t.kiln k with routeLive := !(t.kiln k).routeLive }) s
  | 5 => (s.put Reg.RIK_STATUS_LIVE (1 - s.get Reg.RIK_STATUS_LIVE)).dropPrepared s.isOpened
  | _ => (hearthsOf kilns mask).foldl (fun t h =>
      let t' := t.setTable h kind slot (t.table h kind slot).swap
      if kind = kindBook then
        let x := t'.hearth h
        t'.setHearth h { x with built := x.built.filter (· != slot) }
      else t') s

/-! ### TABLE_LOAD and TABLE_SWAP -/

/-- The work of TABLE_LOAD: the source is read for the host, checked against its layout and written to the shadow. -/
def tableLoadWork (s : State) (c : Started) : State :=
  let d := c.desc
  let who := { asHost with tag := dCid d }
  let (s, code, bs) := s.readMem who (dField d 16 8) (dField d 24 4)
  if code ≠ 0 then s.complete c code
  else if !tableOk (dField d 8 1) bs then s.complete c cfgTable
  else
    let (s, code) := s.loadTable (dField d 8 1) (dField d 10 2) (dField d 12 4) (dField d 28 4) bs
    s.complete c code

/-- TABLE_LOAD (R243, R394). It waits during a LOAD_CONFIG (R379). -/
def execTableLoad (sq : Fin 64) (d : BitVec 512) (s : State) : Host.Outcome State Fault Refusal :=
  .next (s.hostCommand 0x0D sq d State.loading fun s c => s.afterRead c (dField d 16 8) (dField d 24 4) tableLoadWork)

/-- TABLE_SWAP (R243, R394). It waits during a LOAD_CONFIG, an open step and an EVAL_RUN. -/
def execTableSwap (sq : Fin 64) (d : BitVec 512) (s : State) : Host.Outcome State Fault Refusal :=
  .next (s.hostCommand 0x0E sq d (fun s => s.loading || s.stepOpen || s.evaluating) fun s c =>
    (s.swapTable (dField d 8 1) (dField d 10 2) (dField d 12 4) 0xFFF).complete c 0)

end Sys2Proof.Machine
end

