-- ==== Sys2Proof/Machine/Ingest.lean ====
section
/-! DEFINITION. Ingest and the rick (R281-R321): bindings, the clip order, demands, kindling rings, clips and micro-batches. -/

namespace Sys2Proof.Machine

/-! ### Codes and units -/

/-- Codes of the ingest class (R318). -/
def ingBind : Nat := 0x4001
/-- R318. -/
def ingRing : Nat := 0x4002
/-- R318. -/
def ingChunk : Nat := 0x4003
/-- R318. -/
def ingCrc : Nat := 0x4004
/-- R318. -/
def ingTimeout : Nat := 0x4005

/-- The ingest unit writing staging and micro-batch regions (R326). -/
def asIngest : Who := { unit := 0x280 }

/-- The ingest unit at rings, demand queues and the drop log, which it reaches as the host does (log entry 19). -/
def asRing : Who := { unit := 0x280, host := true }

/-- The first ingest error (R319). -/
def State.ingErr (s : State) (code ring : Nat) : State :=
  s.firstErr Reg.ING_ERR_VALID Reg.ING_ERR_CODE code [(Reg.ING_ERR_RING, ring)]

/-- A ring stops with an error (R290, R292, R318). -/
def State.stopRing (s : State) (ring code : Nat) : State := (s.put (Reg.ING_KR_CTL_EN ring) 0).ingErr code ring

/-! ### Bindings (R281, R282) -/

/-- A bind record. -/
structure Bind where
  binding  : Nat
  shuffle  : Bool
  ahead    : Nat
  wlog     : Nat
  rings    : Nat
  first    : Nat
  n        : Nat
  batch    : Nat
  mb       : Nat
  ofmt     : Nat
  seed     : Nat
  baseStep : Nat
  basePos  : Nat
  epoch0   : Nat
  rows     : Nat
  pitch    : Nat
  aux      : Nat
  dest     : Nat
  mbPitch  : Nat
  stage    : Nat
  slot     : Nat
  slots    : Nat
deriving DecidableEq, Repr

/-- A bind record from its 128 bytes. -/
def Bind.ofBytes (r : List Byte) : Bind where
  binding := fieldAt r 0 1
  shuffle := bit (fieldAt r 1 1) 0
  ahead := fieldAt r 2 1
  wlog := fieldAt r 3 1
  rings := fieldAt r 4 4
  first := fieldAt r 8 4
  n := fieldAt r 12 4
  batch := fieldAt r 16 4
  mb := fieldAt r 20 2
  ofmt := fieldAt r 22 1
  seed := fieldAt r 24 8
  baseStep := fieldAt r 32 8
  basePos := fieldAt r 40 8
  epoch0 := fieldAt r 48 4
  rows := fieldAt r 52 4
  pitch := fieldAt r 56 4
  aux := fieldAt r 60 4
  dest := fieldAt r 64 8
  mbPitch := fieldAt r 72 8
  stage := fieldAt r 80 8
  slot := fieldAt r 88 4
  slots := fieldAt r 92 4

/-- The registers that hold a binding's record (R321). -/
def bindReg (b i : Nat) : Fld := if b = 0 then Reg.RIK_BIND0_RECORD i else Reg.RIK_BIND1_RECORD i

/-- The bit that says a binding is loaded (R321). -/
def boundReg (b : Nat) : Fld := if b = 0 then Reg.RIK_STATUS_BOUND0 else Reg.RIK_STATUS_BOUND1

/-- The bind record of a binding as loaded. -/
def State.bindBytes (s : State) (b : Nat) : List Byte := (List.range 16).flatMap fun i => leBytes 8 (s.get (bindReg b i))

/-- The binding as loaded. -/
def State.bind (s : State) (b : Nat) : Bind := Bind.ofBytes (s.bindBytes b)

/-- Whether token rows carry scale records. -/
def Bind.scaled (x : Bind) : Bool := x.ofmt == 1

/-- Offset of the scale records in a micro-batch region (R309). -/
def Bind.recordsAt (x : Bind) : Nat := up64 (x.rows * x.pitch)

/-- Offset of the manifest. -/
def Bind.manifestAt (x : Bind) : Nat := up64 (x.recordsAt + if x.scaled then x.rows * x.pitch / 8 else 0)

/-- Offset of the aux areas. -/
def Bind.auxAt (x : Bind) : Nat := x.manifestAt + up64 (64 + 32 * x.mb + (x.rows + 7) / 8)

/-- Bytes of a micro-batch region (R309). -/
def Bind.regionBytes (x : Bind) : Nat := x.auxAt + x.mb * x.aux

/-- Micro-batches of a step. -/
def Bind.batches (x : Bind) : Nat := x.batch / x.mb

/-- Whether a bind record keeps R281 and R282, but for BASE_STEP. -/
def bindOk (r : List Byte) : Bool :=
  let x := Bind.ofBytes r
  decide (x.binding ≤ 1 ∧ fieldAt r 1 1 ≤ 1 ∧ 1 ≤ x.ahead ∧ x.ahead ≤ 8 ∧ x.wlog ≤ 20 ∧ x.rings ≠ 0) &&
    (x.binding == 0 || x.ahead == 1) &&
    decide (x.first < clipLimit ∧ 1 ≤ x.n ∧ x.n ≤ clipLimit - x.first) &&
    decide (1 ≤ x.batch ∧ x.batch ≤ 65536 ∧ 1 ≤ x.mb ∧ x.mb ≤ 1024 ∧ x.batch % x.mb = 0) &&
    (x.ofmt == 0 || x.ofmt == 1 || x.ofmt == 9) && zeroAt r 23 1 && zeroAt r 96 32 &&
    decide (1 ≤ x.rows ∧ x.rows ≤ 65536 ∧ x.pitch % 64 = 0 ∧ x.aux % 64 = 0) &&
    decide (x.dest % 4096 = 0 ∧ x.mbPitch % 4096 = 0 ∧ x.stage % 4096 = 0 ∧ x.slot % 4096 = 0) &&
    decide (1 ≤ x.slots ∧ x.slots ≤ 65536) &&
    (decide (x.stage < 0x40000000000) || decide (peatBase ≤ x.stage ∧ x.stage < hearthBase)) &&
    decide (x.regionBytes ≤ x.mbPitch)

/-- Prepared steps or runs of a binding. -/
def State.prepared (s : State) (b : Nat) : List Prepared := if b = 0 then s.ing.prepared0 else s.ing.prepared1

/-- Replaces the prepared steps or runs of a binding. -/
def State.setPrepared (s : State) (b : Nat) (ps : List Prepared) : State :=
  if b = 0 then { s with ing := { s.ing with prepared0 := ps } } else { s with ing := { s.ing with prepared1 := ps } }

/-- Loads a binding: its record, its cursor, nothing prepared. -/
def State.loadBind (s : State) (b : Nat) (r : List Byte) : State :=
  let s := (List.range 16).foldl (fun t i => t.put (bindReg b i) (fieldAt r (8 * i) 8)) s
  let s := (s.put (boundReg b) 1).setPrepared b []
  if b = 1 then s.put Reg.RIK_EVAL_POS_CURSOR (fieldAt r 40 8) else s

/-- Unbinds a binding. -/
def State.unbind (s : State) (b : Nat) : State :=
  let s := (List.range 16).foldl (fun t i => t.put (bindReg b i) 0) s
  (s.put (boundReg b) 0).setPrepared b []

/-- A bind record of binding 0 takes the position of a restored KX1 bank (R477). -/
def State.kx1Bind (s : State) (r : List Byte) : List Byte :=
  match s.bank.kx1 with
  | some (step, pos) => patch r 32 (leBytes 8 step ++ leBytes 8 pos)
  | none => r

/-- Whether INGEST_BIND of a binding waits (R315). -/
def State.bindWaits (s : State) (binding : Nat) : Bool := if binding = 0 then s.stepOpen else s.evaluating

/-- The work of INGEST_BIND (R281, R282, R477). A record read from the host while its binding may not change is read again
later. -/
def bindWork (s : State) (c : Started) : State :=
  let (s, code, r) := s.readMem { asHost with tag := c.cid } (dField c.desc 8 8) 128
  if code ≠ 0 then s.complete c code
  else if s.bindWaits (fieldAt r 0 1) then s.askHost (.command c.sq c.cid)
  else
    let kx1 := fieldAt r 0 1 = 0 && s.bank.kx1.isSome
    let r := if kx1 then s.kx1Bind r else r
    if !bindOk r || (fieldAt r 0 1 == 0 && decide (s.get Reg.COL_STEP_NEXT_NEXT < fieldAt r 32 8)) then s.complete c ingBind
    else
      let s := s.loadBind (fieldAt r 0 1) r
      let s := if kx1 then { s with bank := { s.bank with kx1 := none } }.put Reg.BNK_STATUS_KX1PEND 0 else s
      s.complete c 0

/-! ### The clip order (R283-R286) -/

/-- Global position of clip k of a step, or of a run at a cursor (R283). -/
def Bind.position (x : Bind) (b step k : Nat) : Nat :=
  if b = 0 then (x.basePos + (step + 2 ^ 64 - x.baseStep) % 2 ^ 64 * x.batch + k) % 2 ^ 64 else (step + k) % 2 ^ 64

/-- One round of the network: F (v) of R286. -/
def shuffleF (seed e level w rnd v m : Nat) : Nat :=
  ((philox (BitVec.ofNat 64 seed) (BitVec.ofNat 32 e) classShuffle (BitVec.ofNat 16 (4 * level + rnd))
    (BitVec.ofNat 64 (w * 2 ^ 32 + v))).word 0).toNat % m

/-- Four rounds on two halves of h bits (R286). -/
def feistel (seed e level w h x : Nat) : Nat :=
  let m := 2 ^ h
  let r := (List.range 4).foldl (fun p i => (p.2, p.1 ^^^ shuffleF seed e level w i p.2 m)) (x / m, x % m)
  r.1 * m + r.2

/-- Applies the network until the result is below n. -/
def walkBelow (f : Nat → Nat) (n : Nat) : Nat → Nat → Nat
  | 0, y => y % n
  | k + 1, y => if y < n then y else walkBelow f n k (f y)

/-- Half the width of the network for n values (R286). -/
def halfWidth (n : Nat) : Nat := (Nat.max (Nat.log2 (2 * n - 1)) 1 + 1) / 2

/-- perm (x, n) of R286. -/
def shufflePerm (seed e level w x n : Nat) : Nat :=
  if n = 1 then 0
  else
    let f := feistel seed e level w (halfWidth n)
    walkBelow f n (4 * n) (f x)

/-- Epoch, index and shuffle-table index of a global position (R283, R285). -/
def Bind.draw (x : Bind) (p : Nat) : Nat × Nat × Nat :=
  let e := (x.epoch0 + p / x.n) % 2 ^ 32
  let i := p % x.n
  if !x.shuffle then (e, i, x.first + i)
  else
    let w := 2 ^ x.wlog
    let full := x.n / w
    let g := i / w
    let (cw, size) := if g < full then (shufflePerm x.seed e 0 0 g full, w) else (full, x.n % w)
    (e, i, x.first + cw * w + shufflePerm x.seed e 1 cw (i % w) size)

/-! ### Clips of a micro-batch (R289, R310) -/

/-- Drop reasons that mean the clip's rows are not known or not placed. -/
def rowless (r : Nat) : Bool := r = 6 || r = 7

/-- T of a clip, or 0 when unknown (R311). -/
def Clip.tokens (c : Clip) : Nat :=
  match c.state with
  | .dropped r => if rowless r then 0 else (Profile.ofBytes c.profile).tokens
  | _ => (Profile.ofBytes c.profile).tokens

/-- Rows that a clip takes up in its micro-batch (R310). -/
def Clip.spans (c : Clip) : Nat := if c.state = .dropped 9 then 0 else c.tokens

/-- Rows that clips take up together. -/
def spansOf (cs : List Clip) : Nat := (cs.map Clip.spans).foldl (· + ·) 0

/-- The reason for which a clip drops before any demand, 0 for none: VALID clear, its profile, its LENGTH, its rows. -/
def earlyDrop (x : Bind) (desc profile : List Byte) (firstRow : Nat) : Nat :=
  let p := Profile.ofBytes profile
  if !clipValid desc then 6
  else if !p.valid || p.ofmt != x.ofmt then 7
  else if x.slot < fieldAt desc 12 4 then 8
  else if x.rows < firstRow + p.tokens then 9
  else 0

/-- Draws clip k of a step after the earlier clips of its micro-batch. -/
def State.drawClip (s : State) (x : Bind) (b step k : Nat) (before : List Clip) : Clip :=
  let (e, i, t) := x.draw (x.position b step k)
  let desc := s.clipDesc s.shuffleInLive t
  let profile := sget [] s.cfg.active.profiles (fieldAt desc 26 2 % 1024)
  let r := earlyDrop x desc profile (spansOf before)
  { epoch := e, index := i, clip := t, desc := desc, profile := profile
    state := if r = 0 then .waiting else .dropped r
    demand := none, issued := 0, repeats := 0, staging := 0, covered := [], concealed := false, auxTrunc := false
    errors := 0 }

/-- The clips of micro-batch m in order (R310). -/
def State.drawBatch (s : State) (x : Bind) (b step m : Nat) : List Clip :=
  (List.range x.mb).foldl (fun cs j => cs ++ [s.drawClip x b step (m * x.mb + j) cs]) []

/-- All clips of a step or run. -/
def State.drawStep (s : State) (x : Bind) (b step : Nat) : Prepared where
  step := step
  clips := (List.range x.batches).flatMap (s.drawBatch x b step)
  ready := []
  reported := false

/-! ### Drops and ready micro-batches (R309-R317) -/

/-- Writes a drop-log entry; a base of 0 is no log (R317). -/
def State.logDrop (s : State) (step : Nat) (c : Clip) (reason : Nat) : State :=
  let n := s.get Reg.ING_DLOG_CNT_COUNT
  let base := s.get Reg.ING_DLOG_BASE_ADDR * 64
  let entry := leBytes 8 step ++ leBytes 4 c.epoch ++ leBytes 4 c.index ++ leBytes 4 c.clip ++ leBytes 1 reason ++
    leBytes 3 0 ++ leBytes 4 c.errors ++ leBytes 4 0
  let s := if base = 0 then s else (s.writeMem asRing (base + n % 4096 * 32) entry).1
  s.put Reg.ING_DLOG_CNT_COUNT (n + 1)

/-- Whether a clip needs no more work. -/
def Clip.final (c : Clip) : Bool :=
  match c.state with
  | .written | .dropped _ => true
  | _ => false

/-- Whether a clip is kept. -/
def Clip.kept (c : Clip) : Bool := c.state == .written

/-- The clips of micro-batch m. -/
def Prepared.batch (p : Prepared) (x : Bind) (m : Nat) : List Clip := (p.clips.drop (m * x.mb)).take x.mb

/-- Device address of the region of micro-batch m of a step or run (R309). -/
def Bind.regionAt (x : Bind) (b step m : Nat) : Nat :=
  let q := if b = 0 then (step + 2 ^ 64 - x.baseStep) % 2 ^ 64 % x.ahead * x.batches + m else m
  x.dest + q * x.mbPitch

/-- Clips with their first rows. -/
def withFirstRows : Nat → List Clip → List (Nat × Clip)
  | _, [] => []
  | r, c :: cs => (r, c) :: withFirstRows (r + c.spans) cs

/-- Whether a row belongs to a kept clip (R312). -/
def rowKept (cs : List (Nat × Clip)) (r : Nat) : Bool :=
  cs.any fun p => p.2.kept && decide (p.1 ≤ r ∧ r < p.1 + p.2.spans)

/-- Drop reason and marks of a clip record (R311). -/
def Clip.status (c : Clip) : Nat :=
  (match c.state with
    | .dropped r => r
    | _ => 0) + (if c.concealed then 16 else 0) + (if c.auxTrunc then 32 else 0)

/-- The manifest of R311. -/
def manifestBytes (x : Bind) (step m : Nat) (cs : List (Nat × Clip)) : List Byte :=
  let dropped := (cs.filter fun p => !p.2.kept).length
  let head := leBytes 8 step ++ leBytes 4 m ++ leBytes 4 cs.length ++ leBytes 4 (spansOf (cs.map (·.2))) ++
    leBytes 4 dropped ++ leBytes 1 x.binding ++ leBytes 39 0
  let recs := cs.flatMap fun p => leBytes 4 p.2.epoch ++ leBytes 4 p.2.index ++ leBytes 4 p.2.clip ++
    (p.2.desc.drop 28).take 4 ++ leBytes 4 p.1 ++ leBytes 4 p.2.tokens ++ leBytes 1 p.2.status ++ leBytes 3 0 ++
    leBytes 4 p.2.errors
  let mask := (List.range x.rows).foldl (fun a r => if rowKept cs r then a + 2 ^ r else a) 0
  fitBytes (x.auxAt - x.manifestAt) (head ++ recs ++ leBytes ((x.rows + 7) / 8) mask)

/-- The scale record of a block in a region: fine scale, ROWSHARED, and the ordinal as tag (R229, R230, R308). -/
def regionRecord (fine ordinal : Nat) : List Byte := leBytes 1 fine ++ leBytes 1 2 ++ leBytes 2 ordinal

/-- Writes pieces, stopping at the first that fails. -/
def State.writeAll (s : State) (w : Who) : List (Nat × List Byte) → State × Nat
  | [] => (s, 0)
  | (a, bs) :: rest =>
    let (s, c) := s.writeMem w a bs
    if c ≠ 0 then (s, c) else State.writeAll s w rest

/-- What a row of a region that no kept clip owns holds: zero codes, and scale records 0x80 (R312). -/
def clearedRow (x : Bind) (at_ r : Nat) : List (Nat × List Byte) :=
  (at_ + r * x.pitch, List.replicate x.pitch 0) ::
    (if x.scaled then
      [(at_ + x.recordsAt + 4 * (r * (x.pitch / 32)),
        (List.range (x.pitch / 32)).flatMap fun j => regionRecord 0x80 (r * (x.pitch / 32) + j))]
    else [])

/-- Everything that closing a micro-batch writes: cleared rows, the manifest, and cleared aux areas of dropped clips. -/
def closingWrites (x : Bind) (step m at_ : Nat) (cs : List (Nat × Clip)) : List (Nat × List Byte) :=
  ((List.range x.rows).filter fun r => !rowKept cs r).flatMap (clearedRow x at_) ++
    (cs.zipIdx.filter fun p => !p.1.2.kept).map (fun p => (at_ + x.auxAt + p.2 * x.aux, List.replicate x.aux 0)) ++
    [(at_ + x.manifestAt, manifestBytes x step m cs)]

/-- Clips of a prepared step that were dropped. -/
def Prepared.drops (p : Prepared) : Nat := (p.clips.filter fun c => c.final && !c.kept).length

/-- The prepared step or run of a binding with a step number or cursor. -/
def State.preparedAt (s : State) (b step : Nat) : Option Prepared := (s.prepared b).find? fun p => p.step = step

/-- Replaces a prepared step. -/
def State.setStep (s : State) (b : Nat) (p : Prepared) : State :=
  s.setPrepared b ((s.prepared b).map fun q => if q.step = p.step then p else q)

/-- Closes micro-batch m once every clip is final, making it ready; the step's drop event follows its last (R313, R317). -/
def State.closeBatch (s : State) (b step m : Nat) : State :=
  let x := s.bind b
  match s.preparedAt b step with
  | none => s
  | some p =>
    if p.ready.contains m || !(p.batch x m).all Clip.final then s
    else
      let at_ := x.regionAt b step m
      let (s, c) := s.writeAll asIngest (closingWrites x step m at_ (withFirstRows 0 (p.batch x m)))
      if c ≠ 0 then s
      else
        let p := { p with ready := m :: p.ready }
        if p.ready.length = x.batches && p.drops ≠ 0 then
          (s.setStep b { p with reported := true }).raise 9 0x02 0x290 0 p.drops
        else s.setStep b p

/-- Whether micro-batch m of a step or run is ready (R313). -/
def State.batchReady (s : State) (b step m : Nat) : Bool :=
  match s.preparedAt b step with
  | some p => p.ready.contains m
  | none => false

/-- Frees the regions of training steps up to one that committed or was skipped (R315). -/
def State.freeSteps (s : State) (upTo : Nat) : State :=
  s.setPrepared 0 ((s.prepared 0).filter fun p => decide (upTo < p.step))

/-! ### STEP_PREPARATION (R315) -/

/-- The first step, or the cursor, that a binding should have prepared and has not. -/
def State.toPrepare (s : State) (b : Nat) : Option Nat :=
  let x := s.bind b
  let next := if b = 0 then s.get Reg.COL_STEP_NEXT_NEXT else s.get Reg.RIK_EVAL_POS_CURSOR
  ((List.range x.ahead).map (next + ·)).find? fun n => (s.preparedAt b n).isNone

/-- Drops every early drop of a fresh step into the log and closes what is complete. -/
def State.openPrepared (s : State) (b : Nat) (p : Prepared) : State :=
  let x := s.bind b
  let s := p.clips.foldl (fun t c => match c.state with
    | .dropped r => t.logDrop p.step c r
    | _ => t) s
  (List.range x.batches).foldl (fun t m => t.closeBatch b p.step m) s

/-! ### Demands (R289, R294) -/

/-- A clip with its binding, step and place. -/
structure ClipAt where
  b    : Nat
  step : Nat
  k    : Nat
  clip : Clip
deriving DecidableEq, Repr

/-- Every clip of a binding in position order. -/
def State.clips (s : State) (b : Nat) : List ClipAt :=
  (s.prepared b).flatMap fun p => p.clips.zipIdx.map fun c => ⟨b, p.step, c.2, c.1⟩

/-- Stores a clip. -/
def State.setClip (s : State) (x : ClipAt) : State :=
  match s.preparedAt x.b x.step with
  | some p => s.setStep x.b { p with clips := p.clips.set x.k x.clip }
  | none => s

/-- Stores a clip that became final, and closes its micro-batch. -/
def State.settleClip (s : State) (x : ClipAt) : State := (s.setClip x).closeBatch x.b x.step (x.k / (s.bind x.b).mb)

/-- A clip drops: it is logged, and its rows stay out (R312, R316, R317). -/
def State.dropClip (s : State) (x : ClipAt) (reason : Nat) : State :=
  (s.logDrop x.step x.clip reason).settleClip { x with clip := { x.clip with state := .dropped reason } }

/-- The set bits of a ring mask, from the lowest. -/
def ringList (m : Nat) : List Nat := (List.range 32).filter (bit m)

/-- The ring of clip k (R289). -/
def Bind.ringOf (x : Bind) (k : Nat) : Nat :=
  let rs := ringList x.rings
  rs.getD (k % rs.length) 0

/-- Whether a clip holds a staging slot. -/
def Clip.staged (c : Clip) : Bool :=
  match c.state with
  | .fetching | .covered => true
  | .waiting => c.demand.isSome
  | _ => false

/-- The lowest free staging slot of a binding; a repeated demand keeps its own. -/
def State.freeSlot (s : State) (b : Nat) (c : Clip) : Option Nat :=
  if c.demand.isSome then some c.staging
  else
    let used := ((s.clips b).filter fun x => x.clip.staged).map (·.clip.staging)
    (List.range (s.bind b).slots).find? fun n => !used.contains n

/-- Whether a demand queue is misconfigured or overrun (R318): entries outside 2^4 to 2^16, or HEAD not behind TAIL. -/
def State.demandQueueBad (s : State) (r : Nat) : Bool :=
  let log := s.get (Reg.ING_DQ_CTL_LOG2ENT r)
  decide (log < 4 ∨ 16 < log) ||
    decide (2 ^ log < (s.get (Reg.ING_DQ_TAIL_TAIL r) + 2 ^ 32 - s.get (Reg.ING_DQ_HEAD_HEAD r)) % 2 ^ 32)

/-- Whether a demand queue is full. -/
def State.demandQueueFull (s : State) (r : Nat) : Bool :=
  decide (2 ^ s.get (Reg.ING_DQ_CTL_LOG2ENT r) ≤
    (s.get (Reg.ING_DQ_TAIL_TAIL r) + 2 ^ 32 - s.get (Reg.ING_DQ_HEAD_HEAD r)) % 2 ^ 32)

/-- A demand record (R289). -/
def demandRecord (x : ClipAt) (id ring : Nat) : List Byte :=
  leBytes 4 id ++ leBytes 1 ring ++ leBytes 1 (x.b + if x.clip.repeats = 0 then 0 else 2) ++ leBytes 2 0 ++
    x.clip.desc.take 6 ++ leBytes 2 0 ++ (x.clip.desc.drop 6).take 6 ++ leBytes 2 0 ++ (x.clip.desc.drop 12).take 4 ++ leBytes 4 0

/-- The next demand id of a binding. -/
def State.nextDemand (s : State) (b : Nat) : Nat := if b = 0 then s.ing.nextId0 else s.ing.nextId1

/-- Takes the next demand id. -/
def State.takeDemand (s : State) (b : Nat) : State :=
  if b = 0 then { s with ing := { s.ing with nextId0 := (s.ing.nextId0 + 1) % 2 ^ 32 } }
  else { s with ing := { s.ing with nextId1 := (s.ing.nextId1 + 1) % 2 ^ 32 } }

/-- Issues the demand of a waiting clip, or leaves it waiting: its queue disabled or full, no slot, or the queue in error. -/
def State.issueDemand (s : State) (x : ClipAt) : State :=
  let ring := (s.bind x.b).ringOf x.k
  if !s.isSet (Reg.ING_DQ_CTL_EN ring) then s
  else if s.demandQueueBad ring then s.stopRing ring ingRing
  else if s.demandQueueFull ring then s
  else match s.freeSlot x.b x.clip with
    | none => s
    | some slot =>
      let id := x.clip.demand.getD (s.nextDemand x.b)
      let tail := s.get (Reg.ING_DQ_TAIL_TAIL ring)
      let at_ := s.get (Reg.ING_DQ_BASE_ADDR ring) * 64 + tail % 2 ^ s.get (Reg.ING_DQ_CTL_LOG2ENT ring) * 32
      let (s, c) := s.writeMem asRing at_ (demandRecord x id ring)
      if c ≠ 0 then s.stopRing ring ingRing
      else
        let s := if x.clip.demand.isSome then s else s.takeDemand x.b
        let covers := fieldAt x.clip.desc 12 4 = 0
        (s.put (Reg.ING_DQ_TAIL_TAIL ring) (tail + 1)).setClip { x with clip := { x.clip with
          state := if covers then .covered else .fetching
          demand := some id, issued := s.now, staging := slot } }

/-- A demand fails: it is issued again with RETRY set, or after RETRY repeats its clip drops (R293, R294). -/
def State.retryDemand (s : State) (x : ClipAt) (reason : Nat) : State :=
  if s.get Reg.ING_TIMEOUT_RETRY ≤ x.clip.repeats then s.dropClip x reason
  else
    let x := { x with clip := { x.clip with state := .waiting, repeats := x.clip.repeats + 1 } }
    (s.setClip x).issueDemand x

/-- Whether a clip's demand has been issued and is incomplete. -/
def Clip.open (c : Clip) : Bool := c.state == .fetching || (c.state == .waiting && c.demand.isSome)

/-! ### Kindling rings (R290-R295) -/

/-- Bytes of a ring. -/
def State.ringSize (s : State) (r : Nat) : Nat := 2 ^ s.get (Reg.ING_KR_CTL_LOG2SIZE r)

/-- Whether a ring's size or base is out of range (R318, R319). -/
def State.ringBad (s : State) (r : Nat) : Bool :=
  let log := s.get (Reg.ING_KR_CTL_LOG2SIZE r)
  decide (log < 16 ∨ 36 < log) || s.get (Reg.ING_KR_BASE_ADDR r) * 64 % s.ringSize r != 0

/-- A write of ING_KR_TAIL (R290). -/
def State.ringTail (s : State) (r v : Nat) : State :=
  let size := s.ringSize r
  if s.ringBad r || decide (size < (v + 2 ^ 40 - s.get (Reg.ING_KR_TAIL_TAIL r)) % 2 ^ 40) ||
      decide (size < (v + 2 ^ 40 - s.get (Reg.ING_KR_HEAD_HEAD r)) % 2 ^ 40) then s.stopRing r ingRing
  else s.put (Reg.ING_KR_TAIL_TAIL r) v

/-- Bytes available in a ring. -/
def State.ringHeld (s : State) (r : Nat) : Nat :=
  (s.get (Reg.ING_KR_TAIL_TAIL r) + 2 ^ 40 - s.get (Reg.ING_KR_HEAD_HEAD r)) % 2 ^ 40

/-- Device address of a ring's head. -/
def State.ringHeadAt (s : State) (r : Nat) : Nat :=
  s.get (Reg.ING_KR_BASE_ADDR r) * 64 + s.get (Reg.ING_KR_HEAD_HEAD r) % s.ringSize r

/-- Bytes that a chunk takes up (R291), by its header. -/
def chunkBytes (h : List Byte) : Nat :=
  if bit (fieldAt h 3 1) 1 then up64 (32 + fieldAt h 12 4)
  else up64 (32 + fieldAt h 12 4 + if bit (fieldAt h 3 1) 0 then 4 else 0)

/-- Whether a chunk header lets the next chunk be found (R292). -/
def State.chunkOk (s : State) (r : Nat) (h : List Byte) : Bool :=
  let len := fieldAt h 12 4
  fieldAt h 0 2 == 0x4B49 && fieldAt h 2 1 == 1 &&
    (bit (fieldAt h 3 1) 1 || decide (1 ≤ len ∧ len ≤ 0x400000 ∧ 4 * len ≤ s.ringSize r)) &&
    decide (s.get (Reg.ING_KR_HEAD_HEAD r) % s.ringSize r + chunkBytes h ≤ s.ringSize r)

/-- Inserts an interval into disjoint rising intervals, joining those that touch. -/
def coverInsert : List (Nat × Nat) → Nat → Nat → List (Nat × Nat)
  | [], a, b => [(a, b)]
  | (x, y) :: r, a, b =>
    if b < x then (a, b) :: (x, y) :: r
    else if y < a then (x, y) :: coverInsert r a b
    else coverInsert r (Nat.min x a) (Nat.max y b)

/-- Whether an interval overlaps covered bytes. -/
def coverMeets (cs : List (Nat × Nat)) (a b : Nat) : Bool := cs.any fun p => decide (p.1 < b ∧ a < p.2)

/-- The clip whose incomplete demand a chunk of a ring answers: among bindings that the ring serves, binding 0 first. -/
def State.demandOf (s : State) (r id : Nat) : Option ClipAt :=
  let of := fun b => if s.isSet (boundReg b) && bit (s.bind b).rings r then
      (s.clips b).find? fun x => x.clip.demand = some id && x.clip.open
    else none
  match of 0 with
  | some x => some x
  | none => of 1

/-- A payload that passed its CRC check (R293, R295). -/
def State.takePayload (s : State) (r : Nat) (h payload : List Byte) : State :=
  match s.demandOf r (fieldAt h 4 4) with
  | none => s.bump Reg.ING_STALE_CNT_COUNT 1
  | some x =>
    let a := fieldAt h 8 4
    let b := a + payload.length
    let len := fieldAt x.clip.desc 12 4
    if (h.drop 16).take 6 != x.clip.desc.take 6 || coverMeets x.clip.covered a b || decide (len < b) then
      (s.bump Reg.ING_STALE_CNT_COUNT 1).ingErr ingChunk r
    else
      let bind := s.bind x.b
      let (s, c) := s.writeMem asIngest (bind.stage + x.clip.staging * bind.slot + a) payload
      if c ≠ 0 then s
      else
        let cov := coverInsert x.clip.covered a b
        s.setClip { x with clip := { x.clip with
          covered := cov
          state := if cov = [(0, len)] then .covered else x.clip.state } }

/-- The chunk at a ring's head, once its bytes are there (R291-R295). -/
def State.takeChunk (s : State) (r : Nat) : State :=
  if !s.isSet (Reg.ING_KR_CTL_EN r) || s.ringHeld r < 32 then s
  else if s.ringBad r then s.stopRing r ingRing
  else
    let (s, c, h) := s.readMem asRing (s.ringHeadAt r) 32
    if c ≠ 0 then s
    else if !s.chunkOk r h then s.stopRing r ingChunk
    else if s.ringHeld r < chunkBytes h then s
    else
      let head := s.get (Reg.ING_KR_HEAD_HEAD r) + chunkBytes h
      if bit (fieldAt h 3 1) 1 then s.put (Reg.ING_KR_HEAD_HEAD r) head
      else
        let n := fieldAt h 12 4
        let (s, c, rest) := s.readMem asRing (s.ringHeadAt r + 32) (n + if bit (fieldAt h 3 1) 0 then 4 else 0)
        if c ≠ 0 then s
        else
          let s := s.put (Reg.ING_KR_HEAD_HEAD r) head
          let payload := rest.take n
          let good := if bit (fieldAt h 3 1) 0 then fieldAt rest n 4 == crc crc32c (h ++ payload)
            else !s.isSet (Reg.ING_KR_CTL_CRCREQ r)
          if good then s.takePayload r h payload
          else
            let s := (s.bump Reg.ING_CRC_CNT_COUNT 1).ingErr ingCrc r
            match s.demandOf r (fieldAt h 4 4) with
            | some x => s.retryDemand { x with clip := { x.clip with covered := [] } } 4
            | none => s

/-- Whether the head of a ring holds a whole chunk, or a read of it is under way. -/
def State.chunkThere (s : State) (r : Nat) : Bool :=
  let h := s.peek (s.ringHeadAt r) 32
  s.isSet (Reg.ING_KR_CTL_EN r) && decide (32 ≤ s.ringHeld r) &&
    (s.hif.waiting.contains (.chunk r) || (s.chunkOk r h && decide (chunkBytes h ≤ s.ringHeld r)))

/-! ### CLIP_DECODE (R296-R313) -/

/-- First row of a clip in its micro-batch (R310). -/
def State.firstRow (s : State) (x : ClipAt) : Nat :=
  let mb := (s.bind x.b).mb
  match s.preparedAt x.b x.step with
  | some p => spansOf ((p.clips.drop (x.k / mb * mb)).take (x.k % mb))
  | none => 0

/-- Where a clip's rows, scale records and aux area go. -/
def clipWrites (x : Bind) (at_ first place : Nat) (rows : List TokenRow) (aux : List Byte) : List (Nat × List Byte) :=
  rows.zipIdx.flatMap (fun p =>
    let r := first + p.2
    let o := r * (x.pitch / 32)
    (at_ + r * x.pitch, p.1.bytes) ::
      (if x.scaled then
        [(at_ + x.recordsAt + 4 * o, (List.range (p.1.bytes.length / 32)).flatMap fun j => regionRecord p.1.scale (o + j))]
      else [])) ++
    [(at_ + x.auxAt + place * x.aux, aux)]

/-- Counts what a splitter did (R320). -/
def State.splitter (s : State) (c : Clip) (r : ClipResult) : State :=
  let s := (s.bump (Reg.SPL_FRAMES_COUNT 0) r.frames).bump (Reg.SPL_ERRS_COUNT 0) r.errors
  let s := (s.put (Reg.SPL_STATUS_CODEC 0) (bits (fieldAt c.desc 21 1) 4 3)).put (Reg.SPL_STATUS_CLIP 0) c.clip
  s.orInto (Reg.SPL_FLAGS_flags 0) (r.rows.foldl (fun (a : Fl) (t : TokenRow) => a ||| t.fl) 0).toNat

/-- Decodes a covered clip on splitter 0, which is idle between commands, and writes its rows (R300-R313). -/
def State.decode (s : State) (x : ClipAt) : State :=
  let bind := s.bind x.b
  let who := { asIngest with step := s.stepOpen && x.b == 0 && x.step == s.get Reg.COL_STEP_NUM_STEP }
  let (s, c, payload) := s.readMem who (bind.stage + x.clip.staging * bind.slot) (fieldAt x.clip.desc 12 4)
  if c ≠ 0 then s.retryDemand { x with clip := { x.clip with covered := [] } } 4
  else
    let p := Profile.ofBytes x.clip.profile
    let d := Config.decodedClip x.clip.profile x.clip.desc payload
    let r := decodeClip p x.clip.desc d
    let s := s.splitter x.clip r
    let clip := { x.clip with errors := r.errors, concealed := d.concealed }
    if r.reason ≠ 0 then s.dropClip { x with clip := clip } r.reason
    else
      let aux := if bind.aux = 0 then ([], false) else auxArea p x.clip.desc d bind.aux
      let (s, c) := s.writeAll who
        (clipWrites bind (bind.regionAt x.b x.step (x.k / bind.mb)) (s.firstRow x) (x.k % bind.mb) r.rows aux.1)
      if c ≠ 0 then s
      else s.settleClip { x with clip := { clip with state := .written, auxTrunc := aux.2 } }

end Sys2Proof.Machine
end

