-- ==== Sys2Proof/Machine/Shake.lean ====
section
/-! DEFINITION. SHAKE256, the digest of R355, R547, R551 and R552. The manual names the function and leaves it to its
standard (FIPS 202): PRESUMED, log entry 8. -/

namespace Sys2Proof.Machine

/-- The 24 round constants of Keccak-f[1600]. -/
def keccakRC : List (BitVec 64) :=
  [0x0000000000000001, 0x0000000000008082, 0x800000000000808A, 0x8000000080008000, 0x000000000000808B, 0x0000000080000001,
   0x8000000080008081, 0x8000000000008009, 0x000000000000008A, 0x0000000000000088, 0x0000000080008009, 0x000000008000000A] ++
  [0x000000008000808B, 0x800000000000008B, 0x8000000000008089, 0x8000000000008003, 0x8000000000008002, 0x8000000000000080,
   0x000000000000800A, 0x800000008000000A, 0x8000000080008081, 0x8000000000008080, 0x0000000080000001, 0x8000000080008008]

/-- Rotation offsets, lane x + 5 y. -/
def keccakRot : List Nat :=
  [0, 1, 62, 28, 27, 36, 44, 6, 55, 20, 3, 10, 43, 25, 39, 41, 45, 15, 21, 8, 18, 2, 61, 56, 14]

/-- Lane of a state. -/
def lane (a : List (BitVec 64)) (i : Nat) : BitVec 64 := a.getD i 0

/-- One round of Keccak-f[1600]: theta, rho and pi, chi, iota. -/
def keccakRound (a : List (BitVec 64)) (rc : BitVec 64) : List (BitVec 64) :=
  let c := (List.range 5).map fun x => lane a x ^^^ lane a (x + 5) ^^^ lane a (x + 10) ^^^ lane a (x + 15) ^^^ lane a (x + 20)
  let d := (List.range 5).map fun x => lane c ((x + 4) % 5) ^^^ (lane c ((x + 1) % 5)).rotateLeft 1
  let t := (List.range 25).map fun i => lane a i ^^^ lane d (i % 5)
  let b := (List.range 25).map fun i =>
    let x := i % 5
    let y := i / 5
    -- lane (x, y) of the result comes from lane (x + 3 y, x) of the source
    let src := (x + 3 * y) % 5 + 5 * x
    (lane t src).rotateLeft (keccakRot.getD src 0)
  let e := (List.range 25).map fun i =>
    let y := i / 5
    lane b i ^^^ (~~~ lane b ((i % 5 + 1) % 5 + 5 * y) &&& lane b ((i % 5 + 2) % 5 + 5 * y))
  match e with
  | [] => []
  | x :: xs => (x ^^^ rc) :: xs

/-- Keccak-f[1600]. -/
def keccakF (a : List (BitVec 64)) : List (BitVec 64) := keccakRC.foldl keccakRound a

/-- A little-endian 64-bit lane from eight bytes. -/
def keccakLane (bs : List Byte) : BitVec 64 :=
  BitVec.ofNat 64 ((bs.take 8).foldr (fun b acc => b.toNat + 256 * acc) 0)

/-- XOR of one 136-byte block into the state, then the permutation. -/
def absorbBlock (a : List (BitVec 64)) (block : List Byte) : List (BitVec 64) :=
  keccakF ((List.range 25).map fun i => lane a i ^^^ (if i < 17 then keccakLane (block.drop (8 * i)) else 0))

/-- Absorbs whole blocks of the padded message. -/
def absorb : Nat → List (BitVec 64) → List Byte → List (BitVec 64)
  | 0, a, _ => a
  | n + 1, a, bs => absorb n (absorbBlock a (bs.take 136)) (bs.drop 136)

/-- The padding of SHAKE256: 0x1F, zeros, 0x80 on the last byte of the block. -/
def shakePad (bs : List Byte) : List Byte :=
  let room := 136 - bs.length % 136
  if room = 1 then bs ++ [0x9F]
  else bs ++ [0x1F] ++ List.replicate (room - 2) 0 ++ [0x80]

/-- Bytes of the rate part of a state. -/
def squeezeBytes (a : List (BitVec 64)) : List Byte :=
  (List.range 136).map fun i => (lane a (i / 8)).extractLsb' (8 * (i % 8)) 8

/-- The first n bytes of SHAKE256 output, for n up to 136. -/
def shake256 (n : Nat) (bs : List Byte) : List Byte :=
  let p := shakePad bs
  (squeezeBytes (absorb (p.length / 136) (List.replicate 25 0) p)).take n

end Sys2Proof.Machine
end

