-- ==== Sys2Proof/Machine/Audit.lean ====
section
/-! DEFINITION. The audit log (R552-R554), security violations and sessions (R537, R555). -/

namespace Sys2Proof.Machine

/-- Role code (R536). -/
def roleCode : Role → Nat
  | .operator => 1
  | .installer => 2
  | .maker => 3

/-- The entry of R552 that an action would add. -/
def State.auditEntry (s : State) (action role slot code : Nat) (arg : List Byte) : List Byte :=
  let prev := (List.range 4).flatMap fun i => leBytes 8 (s.get (Reg.SEC_AUDIT_HEAD_HASH i))
  let head := leBytes 8 (s.get Reg.SEC_AUDIT_CNT_COUNT) ++ leBytes 8 s.now ++ leBytes 8 s.sec.boots ++ leBytes 2 action ++
    leBytes 1 role ++ leBytes 1 slot ++ leBytes 2 code ++ leBytes 2 0 ++ fitBytes 32 arg ++ prev
  head ++ shake256 32 head

/-- Writes an audit entry, and whether it could be written (R552, R554). -/
def State.audit (s : State) (action role slot code : Nat) (arg : List Byte) : State × Bool :=
  if !s.board.flashOk then (s, false)
  else
    let e := s.auditEntry action role slot code arg
    let n := s.get Reg.SEC_AUDIT_CNT_COUNT
    let s := { s with sec := { s.sec with audit := sput s.sec.audit (n % 4096) e } }
    let s := (List.range 4).foldl (fun t i => t.put (Reg.SEC_AUDIT_HEAD_HASH i) (fieldAt e (96 + 8 * i) 8)) s
    (s.put Reg.SEC_AUDIT_CNT_COUNT (n + 1), true)

/-- An entry for what has already happened: when it cannot be written, AUDITFAIL and a class 3 event (R554). -/
def State.auditAfter (s : State) (action role slot code : Nat) (arg : List Byte) : State :=
  match s.audit action role slot code arg with
  | (t, true) => t
  | (t, false) => (t.put Reg.SEC_STATUS_AUDITFAIL 1).raise 3 0x01 0xFFFF 0x600A 0

/-- A security violation of a kind of R553: counted, a class 3 event, and at most one entry per kind in 12,500 stokes. -/
def State.violation (s : State) (kind : Nat) : State :=
  let s := (s.bump Reg.SEC_VIOL_CNT_COUNT 1).raise 3 0x01 0xFFFF 0 kind
  let due := match sfind s.sec.violAt kind with
    | some t => decide (t + 12500 ≤ s.now)
    | none => true
  if due then
    { s with sec := { s.sec with violAt := sput s.sec.violAt kind s.now } }.auditAfter 0x0D 0 0xFF 0 [BitVec.ofNat 8 kind]
  else s

/-- The open session of a role. -/
def State.sessionOf (s : State) (r : Role) : Option Session := s.sec.sessions.find? (·.role == r)

/-- Stores the session bits of SEC_STATUS (R558). -/
def State.sessionBits (s : State) : State :=
  let b := fun r => if (s.sessionOf r).isSome then 1 else 0
  ((s.put Reg.SEC_STATUS_OPSESS (b .operator)).put Reg.SEC_STATUS_INSTSESS (b .installer)).put Reg.SEC_STATUS_MAKSESS (b .maker)

/-- Disarms every trace window of a list (R587, R592). -/
def State.disarm (s : State) (ns : List Nat) : State :=
  (ns.foldl (fun t n => t.put (Reg.DBG_TW_CTL_EN n) 0) s).put Reg.DBG_STATUS_ARMED
    (((List.range 16).filter fun n => bit (s.get Reg.DBG_STATUS_ARMED) n && !ns.contains n).foldl (fun m n => m + 2 ^ n) 0)

/-- A debug level takes effect; below trace every window is disarmed (R587). -/
def State.levelIs (s : State) (new : Nat) : State :=
  let s := s.put Reg.SEC_DBG_LEVEL_LEVEL new
  if new < 2 then s.disarm (List.range 16) else s

/-- Sets the debug level in effect, recorded as DEBUG (R553, R555). -/
def State.setLevel (s : State) (new role slot : Nat) : State :=
  let old := s.get Reg.SEC_DBG_LEVEL_LEVEL
  if old = new then s
  else (s.levelIs new).auditAfter 0x08 role slot 0 [BitVec.ofNat 8 old, BitVec.ofNat 8 new]

/-- What ending a session does beside its record: the level, when it set it, becomes the lower of 1 and DBGMAX
(R555). -/
def State.dropSession (s : State) (r : Role) : State :=
  let s := { s with sec := { s.sec with sessions := s.sec.sessions.filter (·.role != r) } }.sessionBits
  if s.sec.levelOwner = some r then
    let s := { s with sec := { s.sec with levelOwner := none } }
    s.setLevel (Nat.min 1 (s.get Reg.SEC_GUARD_POLICY_DBGMAX)) 0 0xFF
  else s

/-- Ends the sessions of the given roles with a cause of R553: 1 reset, 2 P4, 3 invasive. -/
def State.endSessions (s : State) (cause : Nat) (roles : List Role) : State :=
  roles.foldl (fun t r => match t.sessionOf r with
    | some x => (t.dropSession r).auditAfter 0x02 (roleCode r) x.slot 0 [BitVec.ofNat 8 cause]
    | none => t) s

/-- Every role. -/
def allRoles : List Role := [.operator, .installer, .maker]

end Sys2Proof.Machine
end

