-- ==== Sys2Proof/Machine/Bitstream.lean ====
section
/-! DEFINITION. The bit-stream and its checks (R350-R373, R375, R380, R397-R402, R418): header, section table, integrity,
section contents and cross-section checks, each with the code, section and offset that it reports. -/

namespace Sys2Proof.Machine

/-- What a failed check reports (R385): code, section index (0xFFF for header and section table), offset in the
bit-stream, and for a claim conflict the two claim registers. -/
structure CfgErr where
  code   : Nat
  sect   : Nat
  off    : Nat
  claimA : Nat := 0
  claimB : Nat := 0
deriving DecidableEq, Repr

/-- Result of a check. -/
abbrev Chk (α : Type) := Except CfgErr α

/-- Requires a condition. -/
def need (c : Bool) (code sect off : Nat) : Chk Unit := if c then .ok () else .error ⟨code, sect, off, 0, 0⟩

/-- R384. -/
def cfgTarget : Nat := 0x1002
/-- R384. -/
def cfgCrc : Nat := 0x1003
/-- R384. -/
def cfgSignature : Nat := 0x1004
/-- R384. -/
def cfgUnsigned : Nat := 0x1005
/-- R384. -/
def cfgTopology : Nat := 0x1006
/-- R384. -/
def cfgMemory : Nat := 0x1007
/-- R384. -/
def cfgProgram : Nat := 0x1009
/-- R384. -/
def cfgLimits : Nat := 0x100A
/-- R384. -/
def cfgClaim : Nat := 0x100B
/-- R384. -/
def cfgBusy : Nat := 0x100C
/-- R384. -/
def cfgPartial : Nat := 0x100D

/-- Section index of the header and the section table. -/
def hdrSect : Nat := 0xFFF

/-! ### Header and section table (R350-R354) -/

/-- A section: type, kilns, body offset and size. -/
structure Section where
  type  : Nat
  kilns : Nat
  off   : Nat
  size  : Nat
deriving DecidableEq, Repr

/-- Header checks of R375 item 1. -/
def checkHeader (h : List Byte) : Chk Unit := do
  need (fieldAt h 0 4 == 0x4B324346) cfgFormat hdrSect 0
  need (fieldAt h 4 2 == 0x0100) cfgFormat hdrSect 4
  need (decide (4096 ≤ fieldAt h 24 8 ∧ fieldAt h 24 8 ≤ 2 ^ 34)) cfgFormat hdrSect 24
  need (decide (2 ≤ fieldAt h 32 2 ∧ fieldAt h 32 2 ≤ 4095)) cfgFormat hdrSect 32
  need (fieldAt h 6 2 == 0x0A32) cfgTarget hdrSect 6

/-- Whether the header asks for a partial load. -/
def isPartial (h : List Byte) : Bool := bit (fieldAt h 20 4) 0

/-- Header fields that no other check reports: reserved bits, KILNS of a full bit-stream, and the id 0. -/
def checkHeaderRest (h : List Byte) : Chk Unit := do
  need (decide (fieldAt h 20 4 < 2)) cfgFormat hdrSect 20
  need (zeroAt h 34 6) cfgFormat hdrSect 34
  need (zeroAt h 44 20) cfgFormat hdrSect 44
  need (isPartial h || fieldAt h 40 4 == 0) cfgFormat hdrSect 40
  need (fieldAt h 8 8 != 0) cfgFormat hdrSect 8

/-- Section header i. -/
def sectionAt (img : List Byte) (i : Nat) : Section :=
  let o := 64 + 32 * i
  ⟨fieldAt img o 1, fieldAt img (o + 4) 4, fieldAt img (o + 8) 8, fieldAt img (o + 16) 8⟩

/-- Sections of the table. -/
def sectionsOf (img : List Byte) : List Section := (List.range (fieldAt img 32 2)).map (sectionAt img)

/-- The section types of R352. -/
def sectionType (t : Nat) : Bool := (decide (1 ≤ t ∧ t ≤ 8)) || t == 0x0F

/-- Types that a kiln-scoped section may have (R354). -/
def kilnScoped (t : Nat) : Bool := t == 3 || t == 4 || t == 5

/-- The conditions of R380. -/
def checkPartial (img : List Byte) (active : ConfigBank) : Chk Unit := do
  need (fieldAt img 40 4 != 0) cfgPartial hdrSect 40
  need (active.id != 0 && fieldAt img 8 8 == active.id) cfgPartial hdrSect 8
  need (decide (active.gen < fieldAt img 16 4)) cfgPartial hdrSect 16
  (sectionsOf img).zipIdx.forM fun p =>
    need (p.1.type == 0x0F || p.1.kilns &&& (2 ^ 32 - 1 - fieldAt img 40 4) == 0) cfgPartial hdrSect (64 + 32 * p.2 + 4)

/-- Section table and multiplicity (R352-R354). -/
def checkSections (img : List Byte) : Chk Unit := do
  let len := img.length
  let n := fieldAt img 32 2
  need (decide (64 + 32 * n ≤ len)) cfgFormat hdrSect 32
  let secs := sectionsOf img
  secs.zipIdx.forM fun p => do
    let (x, i) := p
    let o := 64 + 32 * i
    need (sectionType x.type) cfgFormat hdrSect o
    need (zeroAt img (o + 1) 3) cfgFormat hdrSect (o + 1)
    need (zeroAt img (o + 28) 4) cfgFormat hdrSect (o + 28)
    need ((x.type == 0x0F) == (i + 1 == n)) cfgFormat hdrSect o
    let prev := if i = 0 then 64 + 32 * n else
      let q := sectionAt img (i - 1)
      q.off + q.size
    need (x.off % 64 == 0 && decide (prev ≤ x.off ∧ x.off + x.size ≤ len)) cfgFormat hdrSect (o + 8)
    let before := secs.take i
    if kilnScoped x.type then
      let same := before.filter (·.type == x.type)
      need (same.all fun y => if x.kilns = 0 then y.kilns != 0 else y.kilns &&& x.kilns == 0) cfgFormat hdrSect (o + 4)
      need (!isPartial img || x.kilns != 0) cfgFormat hdrSect (o + 4)
    else
      need (x.kilns == 0) cfgFormat hdrSect (o + 4)
      need (before.all (·.type != x.type)) cfgFormat hdrSect o
      need (!isPartial img || x.type == 0x0F) cfgFormat hdrSect o
    if x.type = 0x0F then
      need (x.off + x.size == len && (x.size == 128 || x.size == 3456) && zeroAt img (o + 24) 4) cfgFormat hdrSect o
  need (isPartial img || [1, 2, 6, 7, 8].all fun t => secs.any (·.type == t)) cfgFormat hdrSect 32

/-! ### Integrity (R355, R356) -/

/-- Body of a section. -/
def bodyOf (img : List Byte) (x : Section) : List Byte := (img.drop x.off).take x.size

/-- CRCs of the sections in table order, then CRC_ALL. -/
def checkCrcs (img : List Byte) : Chk Unit := do
  let secs := sectionsOf img
  secs.zipIdx.forM fun p =>
    need (p.1.type == 0x0F || crc crc32c (bodyOf img p.1) == fieldAt img (64 + 32 * p.2 + 24) 4) cfgCrc p.2
      (64 + 32 * p.2 + 24)
  let last := secs.length - 1
  let io := (sectionAt img last).off
  need (crc crc32c (img.take io) == fieldAt img io 4) cfgCrc last io

/-- The INTEGRITY body. -/
def integrityOf (img : List Byte) : List Byte := bodyOf img (sectionAt img (fieldAt img 32 2 - 1))

/-- Signature and policy (R356): `key` gives the installer public key of a slot, `must` the policy SIGNED_BS. -/
def checkSignature (img : List Byte) (key : Nat → Option (List Byte)) (must : Bool) : Chk Unit := do
  let last := fieldAt img 32 2 - 1
  let io := (sectionAt img last).off
  let b := integrityOf img
  let alg := fieldAt b 4 2
  let slot := fieldAt b 6 2
  need (decide (alg ≤ 1) && b.length == (if alg = 1 then 3456 else 128)) cfgFormat last (io + 4)
  need (decide (slot ≤ 7 * alg)) cfgFormat last (io + 6)
  need (zeroAt b 72 56) cfgFormat last (io + 72)
  need (alg == 0 || zeroAt b 3437 19) cfgFormat last (io + 3437)
  if alg = 1 then
    let digest := (b.drop 8).take 64
    match key slot with
    | none => .error ⟨cfgSignature, last, io + 6, 0, 0⟩
    | some k =>
      need (shake256 64 (img.take io) == digest) cfgSignature last (io + 8)
      need (Config.mldsaVerify k [] digest ((b.drop 128).take 3309)) cfgSignature last (io + 128)
  else need (!must) cfgUnsigned last (io + 4)

/-! ### TOPOLOGY (R358, R359) -/

/-- Adds TOPOLOGY to the bank. -/
def readTopology (i o : Nat) (b : List Byte) (n : ConfigBank) : Chk ConfigBank := do
  let nb := fieldAt b 0 1
  let nf := fieldAt b 1 1
  need (decide (16 ≤ b.length ∧ 1 ≤ nb ∧ nb ≤ 16 ∧ nf ≤ 64) && zeroAt b 2 14) cfgTopology i o
  need (b.length == 144 + 16 * nb + 8 * nf) cfgTopology i o
  let kilns := (List.range 32).map fun k =>
    let w := fieldAt b (16 + 4 * k) 4
    (k, (⟨bits w 0 4, bits w 4 8, bits w 12 2⟩ : KilnPlace), w)
  let branches := (List.range nb).map fun j =>
    let q := 144 + 16 * j
    (⟨fieldAt b q 1, fieldAt b (q + 2) 2, fieldAt b (q + 4) 2, fieldAt b (q + 8) 4, fieldAt b (q + 12) 4⟩ : Branch)
  let nstage := fun br => ((branches[br]?).map (·.nstage)).getD 0
  kilns.forM fun x =>
    need (x.2.1.role != 3 && decide (x.2.2 < 2 ^ 14) && (x.2.1.role == 1 || x.2.2 % 4096 == 0) &&
      (x.2.1.role != 1 || decide (x.2.1.branch < nb ∧ x.2.1.stage < nstage x.2.1.branch))) cfgTopology i (o + 16 + 4 * x.1)
  branches.zipIdx.forM fun x => do
    let q := 144 + 16 * x.2
    need (decide (1 ≤ x.1.nstage ∧ x.1.nstage ≤ 32) && zeroAt b (q + 1) 1 && zeroAt b (q + 6) 2) cfgTopology i (o + q)
    need ((List.range x.1.nstage).all fun st =>
      kilns.any fun y => y.2.1.role == 1 && y.2.1.branch == x.2 && y.2.1.stage == st) cfgTopology i (o + q)
  let fusions ← (List.range nf).mapM fun j => do
    let q := 144 + 16 * nb + 8 * j
    let f : Fusion := ⟨fieldAt b q 1, fieldAt b (q + 1) 1, fieldAt b (q + 2) 1, fieldAt b (q + 3) 1, fieldAt b (q + 4) 2⟩
    need (decide (f.srcBranch < f.dstBranch ∧ f.dstBranch < nb ∧ f.srcStage < nstage f.srcBranch ∧
      f.dstStage < nstage f.dstBranch) && zeroAt b (q + 6) 2) cfgTopology i (o + q)
    pure f
  pure { n with kilns := kilns.map fun x => (x.1, x.2.1), branches := branches, fusions := fusions }

/-! ### MEMORY (R361, R362) -/

/-- Whether a unit id is one of R326. -/
def unitKnown (u : Nat) : Bool :=
  decide (u < 0x180) || decide (0x200 ≤ u ∧ u < 0x220) || decide (0x240 ≤ u ∧ u < 0x262) || u == 0x280 || u == 0x281 ||
    u == 0x290 || u == 0x2A0 || u == 0x2B0 || u == 0x2C0 || u == 0x300 || u == 0xFFFF

/-- Whether a range lies in mapped memory of one tier under a granule map, whatever PEAT_SIZE is (R322, R362). -/
def mappedRange (g : SMap Granule) (a n : Nat) : Bool :=
  let e := a + n
  if e ≤ 0x40000000000 then
    (List.range ((e + 2 ^ 30 - 1) / 2 ^ 30 - a / 2 ^ 30)).all fun i => sget .unmapped g (a / 2 ^ 30 + i) != .unmapped
  else decide (peatBase ≤ a ∧ e ≤ 0x280000000000) || decide (hearthBase ≤ a ∧ e ≤ hearthBase + 0xC0000000) ||
    decide (windowBase ≤ a ∧ e ≤ 0xC00000000000)

/-- Whether a range keeps within PEAT_SIZE, where it lies in the peat tier (R362). -/
def withinPeat (peat a n : Nat) : Bool := !decide (peatBase ≤ a ∧ a < 0x280000000000) || decide (a + n ≤ peatBase + peat)

/-- Reads granule entry g; none for a reserved form. -/
def granuleOf (w : Nat) : Option Granule :=
  match bits w 0 2 with
  | 0 => if w < 2 ^ 14 then some .unmapped else none
  | 1 => if w < 2 ^ 14 then some (.kilnLocal (bits w 2 5) (bits w 7 7)) else none
  | 2 => if w < 2 ^ 14 ∧ bits w 2 5 = 0 then some (.stripe (bits w 7 7)) else none
  | _ => none

/-- The physical granules that an entry uses, as stack x 128 + granule; a stripe group counts once, at its first entry. -/
def granuleUses (g : Nat) : Granule → List Nat
  | .unmapped => []
  | .kilnLocal k p => [k * 128 + p]
  | .stripe p => if g % 32 = 0 then (List.range 32).map fun k => k * 128 + p else []

/-- Whether a list of numbers repeats none; `seen` marks those before. -/
def noRepeat : List Nat → List Nat → Bool
  | _, [] => true
  | seen, x :: xs => !seen.contains x && noRepeat (x :: seen) xs

/-- Whether the owner word of a region is well formed for its place (R325, R362). -/
def ownerOk (base len w : Nat) : Bool :=
  w % 4 != 3 && bits w 3 13 == 0 && (if w % 4 = 2 then unitKnown (w / 65536) else w / 65536 == 0) &&
    (!bit w 2 || decide (hearthBase ≤ base ∧ base + len ≤ hearthBase + 0xC0000000))

/-- Adds MEMORY to the bank. `failed` names stacks that failed training. -/
def readMemory (failed : Nat → Bool) (i o : Nat) (b : List Byte) (n : ConfigBank) : Chk ConfigBank := do
  need (decide (11840 ≤ b.length ∧ fieldAt b 0 1 ≤ 1) && zeroAt b 1 3 && zeroAt b 24 40) cfgMemory i o
  let nreg := fieldAt b 4 4
  need (decide (nreg ≤ 16384) && b.length == 11840 + 16 * nreg) cfgMemory i (o + 4)
  need (fieldAt b 16 8 % 4096 == 0) cfgMemory i (o + 16)
  let grans ← (List.range 4096).mapM fun g =>
    match granuleOf (fieldAt b (64 + 2 * g) 2) with
    | some x => pure (g, x)
    | none => .error ⟨cfgMemory, i, o + 64 + 2 * g, 0, 0⟩
  grans.forM fun p => do
    let at_ := o + 64 + 2 * p.1
    let group := (grans.drop (p.1 / 32 * 32)).take 32
    match p.2 with
    | .stripe q => need (group.all fun x => x.2 == .stripe q) cfgMemory i at_
    | _ => pure ()
    need ((granuleUses p.1 p.2).all fun u => !failed (u / 128)) cfgMemory i at_
  need (noRepeat [] (grans.flatMap fun p => granuleUses p.1 p.2)) cfgMemory i (o + 64)
  let pages ← (List.range 384).mapM fun h => do
    let q := 8256 + 8 * h
    let opd := fieldAt b q 2
    let od := fieldAt b (q + 2) 2
    need (decide (opd * 4096 + 32768 ≤ hearthBytes ∧ od * 4096 + 16384 ≤ hearthBytes) && zeroAt b (q + 4) 4) cfgMemory i (o + q)
    pure (h, opd, od)
  let stats ← (List.range 32).mapM fun k => do
    need (zeroAt b (11328 + 16 * k + 8) 8) cfgMemory i (o + 11328 + 16 * k)
    pure (k, fieldAt b (11328 + 16 * k) 8)
  let regions ← (List.range nreg).mapM fun r => do
    let q := 11840 + 16 * r
    let base := fieldAt b q 6
    let len := fieldAt b (q + 8) 4 * 4096
    let w := fieldAt b (q + 12) 4
    need (zeroAt b (q + 6) 2 && base % 4096 == 0 && len != 0 && ownerOk base len w) cfgMemory i (o + q)
    pure (⟨base, len, BitVec.ofNat 32 w⟩ : Region)
  let sorted := regions.mergeSort fun x y => decide (x.base ≤ y.base)
  need ((sorted.zip (sorted.drop 1)).all fun p => decide (p.1.base + p.1.len ≤ p.2.base)) cfgMemory i (o + 11840)
  let g := grans.filter fun p => p.2 != .unmapped
  regions.zipIdx.forM fun r => need (mappedRange g r.1.base r.1.len) cfgMemory i (o + 11840 + 16 * r.2)
  let sh := fieldAt b 16 8
  need (mappedRange g sh 0x2000000 && decide (sh + 0x2000000 ≤ 0x40000000000) &&
    regions.any fun r => decide (r.base ≤ sh ∧ sh + 0x2000000 ≤ r.base + r.len) && r.owner.toNat % 4 == 2 &&
      r.owner.toNat / 65536 == 0x290) cfgMemory i (o + 16)
  pure { n with
    spill := bit (fieldAt b 0 1) 0, granules := g, regions := regions, shufAddr := sh
    opdPage := (pages.map fun p => (p.1, p.2.1)).filter (·.2 != 0)
    odescPage := (pages.map fun p => (p.1, p.2.2)).filter (·.2 != 0)
    statBase := stats.filter (·.2 != 0) }

/-! ### TABLES and MICROPROGRAMS (R363-R368) -/

/-- Whether a frame processor profile keeps the ranges of R305; one with VALID clear is not checked. -/
def profileOk (p : List Byte) : Bool :=
  let f := fieldAt p
  !bit (f 24 1) 0 ||
    ([0, 2, 4, 6].all fun q => f q 2 % 2 == 0) && decide (1 ≤ f 16 1 ∧ f 16 1 ≤ 64 ∧ 1 ≤ f 17 1 ∧ f 17 1 ≤ 64) &&
    decide (16 ≤ f 8 2 ∧ f 8 2 ≤ 4096 ∧ 16 ≤ f 10 2 ∧ f 10 2 ≤ 4096) && f 8 2 % f 17 1 == 0 && f 10 2 % f 16 1 == 0 &&
    decide (f 12 1 < 4 ∧ f 13 1 < 8 ∧ 1 ≤ f 14 1 ∧ 1 ≤ f 15 1 ∧ f 15 1 ≤ 16 ∧ 1 ≤ f 18 2 ∧ f 18 2 ≤ 4096) &&
    f 18 2 % f 15 1 == 0 && (f 20 1 % 16 == 0 || f 20 1 % 16 == 1 || f 20 1 % 16 == 9) && decide (f 20 1 < 128) &&
    decide (f 21 1 < 8) && f 24 1 == 1 && zeroAt p 25 39

/-- Size and slots of a TABLES entry of a kind (R363). -/
def tableEntry : Nat → Option (Nat × Nat)
  | 1 => some (2080, 32)
  | 2 => some (16, 64)
  | 3 => some (64, 1024)
  | 4 => some (262144, 32)
  | _ => none

/-- Reads the entries of a TABLES body; kinds as there, PROFILE entries with kilns 0. -/
def readTables (i o kilns : Nat) : Nat → Nat → List Byte → Chk (List TableImage)
  | 0, _, _ => pure []
  | f + 1, pos, b => do
    if b.isEmpty then return []
    let at_ := o + pos
    need (decide (16 ≤ b.length)) cfgTable i at_
    let kind := fieldAt b 0 1
    let slot := fieldAt b 2 2
    let size := fieldAt b 4 4
    match tableEntry kind with
    | none => .error ⟨cfgTable, i, at_, 0, 0⟩
    | some (want, slots) =>
      need (zeroAt b 1 1 && zeroAt b 8 8) cfgTable i at_
      need (size == want && decide (16 + size ≤ b.length)) cfgTable i (at_ + 4)
      need (decide (slot < slots)) cfgTable i (at_ + 2)
      need ((kilns == 0) == (kind == 3)) cfgTable i at_
      let body := (b.drop 16).take size
      need (match kind with
        | 1 => pwlOk body
        | 3 => profileOk body
        | 4 => bit kilns slot && tableOk 4 body
        | _ => true) cfgTable i at_
      let next := up64 (16 + size)
      let rest ← readTables i o kilns f (pos + next) (b.drop next)
      pure (⟨kind, slot, if kind = 4 then 2 ^ slot else kilns, body⟩ :: rest)

/-- Reads the entries of a MICROPROGRAMS body: kind 16 for the vector engines, 17 for the update engines; a module-scope
section loads every kiln. -/
def readMicros (i o kilns : Nat) : Nat → Nat → List Byte → Chk (List TableImage)
  | 0, _, _ => pure []
  | f + 1, pos, b => do
    if b.isEmpty then return []
    let at_ := o + pos
    let upd := fieldAt b 0 1 == 1
    need (decide (16 ≤ b.length ∧ microSize b ≤ b.length) && microOk upd b) cfgTable i at_
    let next := up64 (microSize b)
    let rest ← readMicros i o kilns f (pos + next) (b.drop next)
    pure (⟨if upd then 17 else 16, fieldAt b 1 1, if kilns = 0 then 2 ^ 32 - 1 else kilns, b.take (microSize b)⟩ :: rest)

/-- Whether two entries load the same slot of the same hearth or kiln (R368). -/
def sameTable (x y : TableImage) : Bool :=
  x.kind == y.kind && x.slot == y.slot && (x.kind == 3 || x.kilns &&& y.kilns != 0)

/-! ### Step programs and schedules (R369, R397-R402, R418) -/

/-- A program with its section index and the offset of its body. -/
structure ProgramIn where
  prog : Program
  sect : Nat
  off  : Nat
deriving DecidableEq, Repr

/-- Reads the entries of a STEP PROGRAMS body. -/
def readPrograms (i o kilns : Nat) : Nat → Nat → List Byte → Chk (List ProgramIn)
  | 0, _, _ => pure []
  | f + 1, pos, b => do
    if b.isEmpty then return []
    let at_ := o + pos
    let size := fieldAt b 8 4
    need (decide (16 ≤ b.length ∧ fieldAt b 4 1 ≤ 2 ∧ 16 + size ≤ b.length) && zeroAt b 5 3 && zeroAt b 12 4 && size % 16 == 0)
      cfgProgram i at_
    let ops := (chunksOf 16 (size / 16) (b.drop 16)).map fun x => BitVec.ofNat 128 (leNat x)
    let next := up64 (16 + size)
    let rest ← readPrograms i o kilns f (pos + next) (b.drop next)
    pure (⟨⟨fieldAt b 0 4, fieldAt b 4 1, kilns, ops⟩, i, at_ + 16⟩ :: rest)

/-- Operation code of a step operation (R397). -/
def sOp (w : BitVec 128) : Nat := bits w.toNat 0 8
/-- HEARTHS (R397). -/
def sHearths (w : BitVec 128) : Nat := bits w.toNat 16 16
/-- KILNS (R397). -/
def sKilns (w : BitVec 128) : Nat := bits w.toNat 32 32
/-- ARG (R397). -/
def sArg (w : BitVec 128) : Nat := bits w.toNat 64 64

/-- The bits of ARG that an operation names, none for a reserved code (R398). -/
def argBits : Nat → Option (List (Nat × Nat))
  | 0x00 | 0x02 | 0x0C | 0x0D => some []
  | 0x01 => some [(0, 23), (32, 24)]
  | 0x03 | 0x0B => some [(0, 16)]
  | 0x04 | 0x05 | 0x12 | 0x13 => some [(0, 64)]
  | 0x06 | 0x07 | 0x08 => some [(0, 23)]
  | 0x09 => some [(0, 8), (16, 8)]
  | 0x0A => some [(0, 14), (32, 32)]
  | 0x0E => some [(0, 32)]
  | 0x0F => some [(0, 6), (32, 32)]
  | 0x10 => some [(0, 6)]
  | 0x11 => some [(0, 4), (8, 1)]
  | _ => none

/-- Whether code and fields of an operation are none of the reserved ones (R398, R400). -/
def opFormOk (w : BitVec 128) : Bool :=
  match argBits (sOp w) with
  | none => false
  | some fs =>
    bits w.toNat 10 6 == 0 && decide (sHearths w < 4096) && sArg w &&& (2 ^ 64 - 1 - fieldMask fs) == 0 &&
      (!(sOp w == 1 || sOp w == 6 || sOp w == 7 || sOp w == 8) || sHearths w != 0) &&
      (sOp w != 1 || sArg w % 16 == 0)

/-- Reads the SCHEDULE body (R401) with the checks of R402 that it decides alone. -/
def readSchedule (i o : Nat) (b : List Byte) : Chk (List SchedTable) := do
  let ntab := fieldAt b 0 2
  need (decide (16 ≤ b.length ∧ 16 + 16 * ntab ≤ b.length) && zeroAt b 2 14) cfgProgram i o
  let tabs ← (List.range ntab).mapM fun j => do
    let q := 16 + 16 * j
    let nent := fieldAt b (q + 2) 2
    let m := fieldAt b (q + 4) 2
    let off := fieldAt b (q + 8) 4
    need (zeroAt b (q + 7) 1 && zeroAt b (q + 12) 4 && decide (1 ≤ m) && nent == 2 * m && decide (off + 8 * nent ≤ b.length))
      cfgProgram i (o + q)
    let ents := (List.range nent).map fun x => (fieldAt b (off + 8 * x) 2, fieldAt b (off + 8 * x + 2) 2, fieldAt b (off + 8 * x + 4) 4)
    let entries := ents.map fun e => (⟨bit e.1 0, bits e.1 1 2, e.2.1, e.2.2⟩ : SchedEntry)
    let bad := (List.range nent).find? fun x =>
      match ents[x]?, entries[x]? with
      | some raw, some e =>
        let before := entries.take x
        !(decide (raw.1 < 8 ∧ e.phase ≤ 2 ∧ e.mb < m)) ||
          before.any (fun y => decide (e.phase < y.phase) || (y.mb == e.mb && y.backward == e.backward)) ||
          (e.backward && !before.any fun y => y.mb == e.mb) ||
          (e.phase == 0 && e.backward) || (e.phase == 2 && !e.backward) ||
          (e.phase == 1 && e.backward != ((before.filter (·.phase == 1)).length % 2 == 1))
      | _, _ => true
    match bad with
    | some x => .error ⟨cfgProgram, i, o + off + 8 * x, 0, 0⟩
    | none => pure (⟨fieldAt b q 1, fieldAt b (q + 1) 1, m, fieldAt b (q + 6) 1, entries⟩ : SchedTable)
  tabs.zipIdx.forM fun p =>
    need ((tabs.take p.2).all fun y => y.branch != p.1.branch || y.stage != p.1.stage) cfgProgram i (o + 16 + 16 * p.2)
  pure tabs

/-- The program with an id. -/
def programOf (ps : List Program) (id : Nat) : Option Program := ps.find? (·.id == id)

/-- Operation indices of a schedule body that begins at an index, its RET included; none without one. -/
def bodySpan (ops : List (BitVec 128)) (start : Nat) : Option (List Nat) :=
  match (ops.drop start).findIdx? fun w => sOp w = 0x0D with
  | some n => some ((List.range (n + 1)).map (start + ·))
  | none => none

/-- Whether branch b runs program id, in training or evaluation, or calls it from there. -/
def branchRuns (n : ConfigBank) (b id : Nat) : Bool :=
  match n.branches[b]? with
  | none => false
  | some x =>
    let own := [x.stepProg, x.evalProg]
    own.contains id || own.any fun p => match programOf n.programs p with
      | some y => y.ops.any fun w => sOp w == 0x0E && bits (sArg w) 0 32 == id
      | none => false

/-- Compute kilns of a branch, as a mask. -/
def branchKilns (n : ConfigBank) (b : Nat) : Nat :=
  n.kilns.foldl (fun m k => if k.2.role = 1 && k.2.branch = b then m ||| 2 ^ k.1 else m) 0

/-- The MFENCEs with a mask that a program issues, schedule bodies counted where they stand. -/
def fenceCount (n : ConfigBank) (id mask : Nat) : Nat :=
  match programOf n.programs id with
  | some p => (p.ops.filter fun w => sOp w == 3 && bits (sArg w) 0 16 == mask).length
  | none => 0

/-- Program checks over the whole configuration (R369, R400, R402, R418). `whereOf` gives a program's section and offset;
`ti`, `si` the sections of TOPOLOGY and SCHEDULE with their offsets. -/
def checkPrograms (n : ConfigBank) (whereOf : Nat → Nat × Nat) (ti si : Nat × Nat) : Chk Unit := do
  n.branches.zipIdx.forM fun x => do
    let at_ := ti.2 + 144 + 16 * x.2
    need (((programOf n.programs x.1.stepProg).map (·.kind)) == some 0) cfgProgram ti.1 (at_ + 8)
    need (x.1.evalProg == 0xFFFFFFFF || ((programOf n.programs x.1.evalProg).map (·.kind)) == some 1) cfgProgram ti.1 (at_ + 12)
  let marks ← n.sched.mapM fun t => do
    match n.branches[t.branch]? with
    | none => .error ⟨cfgProgram, si.1, si.2, 0, 0⟩
    | some br =>
      need (decide (t.stage < br.nstage)) cfgProgram si.1 si.2
      match programOf n.programs br.stepProg with
      | none => .error ⟨cfgProgram, si.1, si.2, 0, 0⟩
      | some p =>
        let spans ← t.entries.mapM fun e =>
          if e.body % 16 = 0 && decide (e.body / 16 < p.ops.length) then
            match bodySpan p.ops (e.body / 16) with
            | some l => pure l
            | none => .error ⟨cfgProgram, si.1, si.2, 0, 0⟩
          else .error ⟨cfgProgram, si.1, si.2, 0, 0⟩
        pure (p.id, spans.flatten)
  let inBody := fun id idx => marks.any fun m => m.1 == id && m.2.contains idx
  n.programs.forM fun p => do
    let (sect, off) := whereOf p.id
    let users := (List.range n.branches.length).filter fun b => branchRuns n b p.id
    let allowed := users.foldl (fun m b => m ||| branchKilns n b) 0
    p.ops.zipIdx.forM fun x => do
      let (w, idx) := x
      let op := sOp w
      let ok := opFormOk w && (users.isEmpty || sKilns w &&& (2 ^ 32 - 1 - allowed) == 0) &&
        (op != 0x0A || decide (bits (sArg w) 0 14 < n.regions.length)) &&
        (op != 0x0D || p.kind == 2 || inBody p.id idx) &&
        (op != 0x0E || (p.kind != 2 && ((programOf n.programs (bits (sArg w) 0 32)).map (·.kind)) == some 2)) &&
        (op != 0x0C || (p.kind != 2 && users.all fun b =>
          (List.range (((n.branches[b]?).map (·.nstage)).getD 0)).all fun st =>
            n.sched.any fun t => t.branch == b && t.stage == st))
      need ok cfgProgram sect (off + 16 * idx)
    need (p.kind == 2 || p.ops.any fun w => sOp w == 0) cfgProgram sect off
    let gn := p.ops.zipIdx.filter fun x => sOp x.1 = 0x12
    let up := p.ops.zipIdx.filter fun x => sOp x.1 = 0x13
    need (match p.kind, gn, up with
      | 0, [g], [u] => decide (g.2 < u.2) && !inBody p.id g.2 && !inBody p.id u.2
      | 0, _, _ => false
      | _, [], [] => true
      | _, _, _ => false) cfgProgram sect off
  [fun (b : Branch) => b.stepProg, fun (b : Branch) => b.evalProg].forM fun sel => do
    let ids := n.branches.map sel
    let masks := ids.flatMap fun id => match programOf n.programs id with
      | some p => (p.ops.filter fun w => sOp w == 3).map fun w => bits (sArg w) 0 16
      | none => []
    masks.forM fun m =>
      let counts := ((List.range 16).filter (bit m)).map fun b => match ids[b]? with
        | some id => fenceCount n id m
        | none => 0
      need (counts.all (· == counts.headD 0)) cfgProgram ti.1 ti.2

/-! ### CLAIMS (R371-R373) and LIMITS (R247, R370) -/

/-- Instances of a resource kind (R371). -/
def resourceCount : Nat → Nat
  | 1 => 16
  | 2 => 64
  | 3 => 64
  | 4 => 16
  | _ => 0

/-- Reads the claim records. -/
def readClaims (i o : Nat) (b : List Byte) : Chk (List Claim) := do
  need (b.length % 16 == 0) cfgFormat i o
  (List.range (b.length / 16)).mapM fun r => do
    let q := 16 * r
    let c : Claim := ⟨fieldAt b q 1, fieldAt b (q + 1) 1, fieldAt b (q + 2) 2, fieldAt b (q + 4) 2, fieldAt b (q + 8) 4⟩
    let feature := bits c.claimant 16 8
    need (decide (c.mode ≤ (if c.kind = 1 then 2 else 0) ∧ 1 ≤ c.count ∧ c.first + c.count ≤ resourceCount c.kind ∧
      1 ≤ feature ∧ feature ≤ 8 ∧ c.claimant < 2 ^ 24) && zeroAt b (q + 6) 2 && zeroAt b (q + 12) 4) cfgFormat i (o + q)
    pure c

/-- Whether a claim covers an instance. -/
def Claim.covers (c : Claim) (kind x : Nat) : Bool := c.kind == kind && decide (c.first ≤ x ∧ x < c.first + c.count)

/-- The claim register word of a record in conflict (R385). -/
def claimWord (c : Claim) (idx kind x : Nat) : Nat := c.claimant + 2 ^ 32 * idx + 2 ^ 48 * kind + 2 ^ 56 * x

/-- The first conflict: lowest kind, then instance, then pair of record indices (R373). -/
def checkClaims (i o : Nat) (cs : List Claim) : Chk Unit :=
  let all := [1, 2, 3, 4].flatMap fun k => (List.range (resourceCount k)).map fun x => (k, x)
  match all.findSome? fun kx =>
      match cs.zipIdx.filter fun c => c.1.covers kx.1 kx.2 with
      | a :: b :: _ => some (kx, a, b)
      | _ => none with
  | some (kx, a, b) =>
    .error ⟨cfgClaim, i, o + 16 * b.2, claimWord a.1 a.2 kx.1 kx.2, claimWord b.1 b.2 kx.1 kx.2⟩
  | none => .ok ()

/-- Instances that a program operation uses: kind and instance (R400). -/
def opUses (w : BitVec 128) : List (Nat × Nat) :=
  match sOp w with
  | 0x0F | 0x10 => [(2, bits (sArg w) 0 6)]
  | 0x11 => [(1, bits (sArg w) 0 4)]
  | _ => []

/-- Whether a claim gives an instance to a step program (R372). -/
def claimGives (cs : List Claim) (id kind x : Nat) : Bool :=
  cs.any fun c => c.covers kind x && c.claimant == 2 ^ 16 + id % 2 ^ 16

/-- The claim uses of R369. -/
def checkUses (n : ConfigBank) (whereOf : Nat → Nat × Nat) : Chk Unit :=
  n.programs.forM fun p =>
    p.ops.zipIdx.forM fun x =>
      need ((opUses x.1).all fun u => claimGives n.claims p.id u.1 u.2) cfgProgram (whereOf p.id).1 ((whereOf p.id).2 + 16 * x.2)

/-- Width order of the formats that LIMITS may name (R248). -/
def formatRank : Nat → Option Nat
  | 0 => some 2
  | 1 => some 1
  | 2 => some 0
  | 3 => some 0
  | _ => none

/-- Adds LIMITS to the bank (R247, R370). -/
def readLimits (i o : Nat) (b : List Byte) (n : ConfigBank) : Chk ConfigBank := do
  let nl := fieldAt b 16 2
  need (decide (32 ≤ b.length) && zeroAt b 18 14) cfgLimits i o
  need (b.length == 32 + 32 * nl) cfgLimits i (o + 16)
  need (fieldAt b 12 4 != 0) cfgLimits i (o + 12)
  let ls := chunksOf 32 nl (b.drop 32)
  ls.zipIdx.forM fun x => do
    let e := x.1
    let pol := fieldAt e 3 1
    let prev := (ls.take x.2).getLast?
    let widths := match formatRank (fieldAt e 2 1 % 16), formatRank (fieldAt e 2 1 / 16) with
      | some a, some w => decide (a ≤ w)
      | _, _ => false
    need (widths && (match prev with
        | some p => decide (fieldAt p 0 2 < fieldAt e 0 2)
        | none => true) &&
      decide (pol < 128 ∧ bits pol 1 3 ≤ 4 ∧ bits pol 4 3 ≤ 6 ∧ fieldAt e 14 1 ≤ 7) && zeroAt e 15 1 && zeroAt e 24 8 &&
      (fieldAt e 2 1 % 16 != 2 || bits pol 1 3 != 0)) cfgLimits i (o + 32 + 32 * x.2)
  pure { n with promoMem := fieldAt b 0 4, promoTime := fieldAt b 4 4, gateEn := fieldAt b 8 4, gateThresh := fieldAt b 12 4
                layers := ls }

end Sys2Proof.Machine
end

