-- ==== Sys2Proof/Machine/Load.lean ====
section
/-! DEFINITION. LOAD_CONFIG and the switch (R350-R385): the check pass with what it reports, the inactive bank, and what
becomes active in the switch stoke. -/

namespace Sys2Proof.Machine

/-! ### The check pass -/

/-- A failed load (R375, R385): the first error is recorded, and the command completes with its code and section. -/
def State.loadFailed (s : State) (c : Started) (e : CfgErr) : State :=
  let s := if s.isSet Reg.COL_CFG_ERR_VALID then s
    else (((s.put Reg.COL_CFG_ERR_CODE e.code).put Reg.COL_CFG_ERR_SECTION e.sect).put Reg.COL_CFG_ERROFF_OFFSET e.off).put
      Reg.COL_CFG_ERR_VALID 1
  let s := if e.code = cfgClaim then
      (s.setWord Reg.COL_CFG_CLAIM_A_CLAIMANT.off 0 e.claimA).setWord Reg.COL_CFG_CLAIM_B_RECORD.off 0 e.claimB
    else s
  s.complete c e.code 0 e.sect

/-- Whether stack k failed training (R334). -/
def State.stackFailed (s : State) (k : Nat) : Bool := s.isSet (Reg.MEM_HBM_STAT_FAILED k)

/-- A kiln with ROLE 1 that is quarantined or whose stack is FAILED, among those of a mask (R359). -/
def State.badRole (s : State) (n : ConfigBank) (mask : Nat) : Option Nat :=
  (n.kilns.find? fun k => bit mask k.1 && k.2.role == 1 && (s.quarantined k.1 || s.stackFailed k.1)).map (·.1)

/-- What the section contents give: the bank, the tables, and the places of programs and sections. -/
structure Contents where
  bank   : ConfigBank
  tables : List (TableImage × Nat × Nat)
  progs  : List ProgramIn
  topo   : Nat × Nat
  memo   : Nat × Nat
  sched  : Nat × Nat
  claims : Nat × Nat
deriving DecidableEq, Repr

/-- Reads one section (R375 item 6). -/
def readSection (failed : Nat → Bool) (img : List Byte) (x : Section) (i : Nat) (n : Contents) : Chk Contents := do
  let b := bodyOf img x
  match x.type with
  | 1 => do
    let bank ← readTopology i x.off b n.bank
    pure { n with bank := bank, topo := (i, x.off) }
  | 2 => do
    let bank ← readMemory failed i x.off b n.bank
    pure { n with bank := bank, memo := (i, x.off) }
  | 3 => do
    let ts ← readTables i x.off x.kilns (b.length / 16 + 1) 0 b
    need (noClash n.tables ts) cfgTable i x.off
    pure { n with tables := n.tables ++ ts.map fun t => (t, i, x.kilns) }
  | 4 => do
    let ts ← readMicros i x.off x.kilns (b.length / 16 + 1) 0 b
    need (noClash n.tables ts) cfgTable i x.off
    pure { n with tables := n.tables ++ ts.map fun t => (t, i, x.kilns) }
  | 5 => do
    let ps ← readPrograms i x.off x.kilns (b.length / 16 + 1) 0 b
    need (noRepeat [] ((n.progs ++ ps).map (·.prog.id))) cfgProgram i x.off
    pure { n with progs := n.progs ++ ps }
  | 6 => do
    let ts ← readSchedule i x.off b
    pure { n with bank := { n.bank with sched := ts }, sched := (i, x.off) }
  | 7 => do
    let cs ← readClaims i x.off b
    pure { n with bank := { n.bank with claims := cs }, claims := (i, x.off) }
  | 8 => do
    let bank ← readLimits i x.off b n.bank
    pure { n with bank := bank }
  | _ => pure n
where
  /-- Whether no two entries load the same slot (R368). -/
  noClash (old : List (TableImage × Nat × Nat)) (ts : List TableImage) : Bool :=
    let all := old.map (·.1) ++ ts
    all.zipIdx.all fun p => (all.take p.2).all fun y => !sameTable y p.1

/-- Cross-section checks of a full load (R375 item 7). -/
def crossChecks (s : State) (n : Contents) (img : List Byte) : Chk Unit := do
  let bank := n.bank
  let peat := s.get Reg.PEAT_SIZE_BYTES
  match s.badRole bank (2 ^ 32 - 1) with
  | some k => .error ⟨cfgTopology, n.topo.1, n.topo.2 + 16 + 4 * k, 0, 0⟩
  | none => pure ()
  let b := img.drop n.memo.2
  bank.regions.zipIdx.forM fun r =>
    need (withinPeat peat r.1.base r.1.len) cfgMemory n.memo.1 (n.memo.2 + 11840 + 16 * r.2)
  let statPlaced := fun k =>
    let a := sget 0 bank.statBase k
    mappedRange bank.granules a 128 && withinPeat peat a 128
  bank.kilns.forM fun k =>
    need (k.2.role != 1 || statPlaced k.1) cfgMemory n.memo.1
      (n.memo.2 + 11328 + 16 * k.1)
  need (bank.shufAddr == s.cfg.active.shufAddr || s.get Reg.RIK_VALID_GEN1 == 0) cfgMemory n.memo.1 (n.memo.2 + 16)
  need (decide (fieldAt b 8 8 ≤ peat)) cfgMemory n.memo.1 (n.memo.2 + 8)
  checkClaims n.claims.1 n.claims.2 bank.claims

/-- Section and offset of a program's body. -/
def whereIn (ps : List ProgramIn) (id : Nat) : Nat × Nat :=
  match ps.find? (·.prog.id == id) with
  | some p => (p.sect, p.off)
  | none => (hdrSect, 0)

/-- Takes the kilns of a mask away from what kiln-scoped sections gave (R381): programs and table slots. -/
def ConfigBank.without (n : ConfigBank) (mask : Nat) : ConfigBank :=
  let cut := fun k => k &&& (2 ^ 32 - 1 - mask)
  { n with
    programs := n.programs.filterMap fun p =>
      if p.kilns = 0 then some p else if cut p.kilns = 0 then none else some { p with kilns := cut p.kilns }
    given := n.given.filterMap fun g => if cut g.2.2 = 0 then none else some (g.1, g.2.1, cut g.2.2) }

/-- The whole check of an image (R375): the bank it would install, its tables, and INTEGRITY. `key` gives installer keys. -/
def checkImage (s : State) (img : List Byte) : Chk (ConfigBank × List TableImage) := do
  let part := isPartial img
  let mask := fieldAt img 40 4
  if part then checkPartial img s.cfg.active else pure ()
  checkHeaderRest img
  checkSections img
  checkCrcs img
  checkSignature img (fun k => sfind s.sec.keys (8 + k)) (s.isSet Reg.SEC_GUARD_POLICY_SIGNED_BS)
  let base : ConfigBank := if part then s.cfg.active.without mask else .base
  let start : Contents := ⟨base, [], base.programs.map fun p => ⟨p, hdrSect, 0⟩, (hdrSect, 0), (hdrSect, 0), (hdrSect, 0), (hdrSect, 0)⟩
  let n ← (sectionsOf img).zipIdx.foldlM (fun n x => readSection s.stackFailed img x.1 x.2 n) start
  let bank : ConfigBank := { n.bank with
    loaded := true
    id := fieldAt img 8 8
    gen := fieldAt img 16 4
    programs := n.progs.map (·.prog)
    profiles := if part then n.bank.profiles else
      (n.tables.filter (·.1.kind == 3)).foldl (fun m t => sput m t.1.slot t.1.bytes) []
    given := n.bank.given ++ (n.tables.filter fun t => t.2.2 != 0).map fun t => (t.1.kind, t.1.slot, t.1.kilns) }
  let n := { n with bank := bank }
  checkPrograms bank (whereIn n.progs) n.topo n.sched
  if part then
    match s.badRole bank mask with
    | some _ => .error ⟨cfgTopology, hdrSect, 40, 0, 0⟩
    | none => pure ()
  else crossChecks s n img
  checkUses bank (whereIn n.progs)
  pure (bank, (n.tables.filter (·.1.kind != 3)).map (·.1))

/-- What a load that passed its checks keeps until the switch. -/
def loadingOf (c : Started) (addr : Nat) (img : List Byte) (bank : ConfigBank) (tables : List TableImage) : Loading :=
  let b := integrityOf img
  { sq := c.sq, cid := c.cid, addr := addr, len := img.length, isPart := isPartial img, toBase := false
    kilns := if isPartial img then fieldAt img 40 4 else 2 ^ 32 - 1
    bank := bank, tables := tables, crcAll := fieldAt b 0 4, digest := (b.drop 8).take 64
    signed := fieldAt b 4 2 == 1, keySlot := fieldAt b 6 2 }

/-- Begins the install: LOADING is set until the switch. -/
def State.beginLoad (s : State) (l : Loading) : State :=
  { s with cfg := { s.cfg with loading := some l } }.put Reg.COL_CFG_STATUS_LOADING 1

/-- The base configuration as a load: every kiln with a trained stack has ROLE 1 in one branch of one stage (R382). The
rick's region stays known, since no load changes the rick (R377). -/
def State.baseBank (s : State) : ConfigBank :=
  { ConfigBank.base with
    shufAddr := s.cfg.active.shufAddr
    kilns := (List.range 32).filterMap fun k => if s.isSet (Reg.MEM_HBM_STAT_TRAINED k) then some (k, ⟨0, 0, 1⟩) else none
    branches := [⟨1, 0xFFFF, 0xFFFF, 0xFFFFFFFF, 0xFFFFFFFF⟩] }

/-- The work of LOAD_CONFIG: the check pass (R375-R379). -/
def loadWork (s : State) (c : Started) : State :=
  let addr := dField c.desc 8 8
  let who := hostReader c
  if s.stepOpen || s.evaluating then s.complete c cfgBusy
  else if bit (dField c.desc 16 1) 0 then
    s.beginLoad ⟨c.sq, c.cid, 0, 0, false, true, 2 ^ 32 - 1, s.baseBank, [], 0, List.replicate 64 0, false, 0⟩
  else
    let (s, code, h) := s.readMem who addr 64
    if code ≠ 0 then s.complete c code
    else match checkHeader h with
      | .error e => s.loadFailed c e
      | .ok _ =>
        let (s, code, img) := s.readMem who addr (fieldAt h 24 8)
        if code ≠ 0 then s.complete c code
        else match checkImage s img with
          | .error e => s.loadFailed c e
          | .ok (bank, tables) => s.beginLoad (loadingOf c addr img bank tables)
where
  /-- The image is read for the host, with the command id as tag. -/
  hostReader (c : Started) : Who := { asHost with tag := c.cid }

/-- LOAD_CONFIG (R375-R379, R464): it waits while another load, a bank, a rekindle or an adoption is in progress. -/
def execLoadConfig (sq : Fin 64) (d : BitVec 512) (s : State) : Host.Outcome State Fault Refusal :=
  .next (s.hostCommand 0x01 sq d
    (fun s => s.loading || (s.isSet Reg.BNK_STATUS_BUSY && !s.stepOpen && !s.evaluating))
    fun s c => s.afterRead c (dField d 8 8) 64 loadWork)

/-! ### The switch -/

/-- Empties a table store, keeping which generation is live. -/
def emptyTables (m : SMap TwoGen) : SMap TwoGen :=
  m.filterMap fun p => if p.2.live then some (p.1, ⟨[], [], true⟩) else none

/-- R110 and the histograms: every slot of a kiln EMPTY, no codebook build under way. -/
def State.clearKiln (s : State) (k : Nat) : State :=
  { s with
    embers := s.embers.filter fun p => p.1 / 96 != k
    hearths := (s.hearths.map fun p => if p.1 / 12 = k then (p.1, { p.2 with hist := [], built := [] }) else p).filter
      fun p => p.2 != Hearth.empty }

/-- Empties every table slot and route slice of every hearth and kiln, and the update micro-programs (R377). -/
def State.emptyStores (s : State) : State :=
  { s with
    hearths := (s.hearths.map fun p => (p.1, { p.2 with tables := emptyTables p.2.tables })).filter fun p => p.2 != Hearth.empty
    kilns := (s.kilns.map fun p => (p.1, { p.2 with route0 := [], route1 := [], upd := [] })).filter fun p => p.2 != Kiln.empty }

/-- Empties the slots that kiln-scoped sections gave to the kilns of a mask (R381). -/
def State.emptyGiven (s : State) (mask : Nat) (given : List (Nat × Nat × Nat)) : State :=
  given.foldl (fun t g =>
    let ks := g.2.2 &&& mask
    match g.1 with
    | 4 => (kilnsOf ks).foldl (fun u k => u.setKiln k { u.kiln k with route0 := [], route1 := [] }) t
    | 17 => (kilnsOf ks).foldl (fun u k => u.setKiln k { u.kiln k with upd := sdel (u.kiln k).upd g.2.1 }) t
    | n =>
      let kind := if n = 16 then kindProg else n
      (hearthsOf ks 0xFFF).foldl (fun u h => u.setTable h kind g.2.1 ⟨[], [], (u.table h kind g.2.1).live⟩) t) s

/-- Loads a table of the bit-stream into the shadow and swaps it live (R243, R377). -/
def State.installTable (s : State) (t : TableImage) : State :=
  match t.kind with
  | 17 => (kilnsOf t.kilns).foldl (fun u k => u.setKiln k { u.kiln k with upd := sput (u.kiln k).upd t.slot t.bytes }) s
  | n =>
    let kind := if n = 16 then kindProg else n
    (s.loadTable kind t.slot t.kilns 0 t.bytes).1.swapTable kind t.slot t.kilns 0xFFF

/-- The claim on a pin: mode and claimant (R372). -/
def ConfigBank.pinClaim (n : ConfigBank) (x : Nat) : Option (Nat × Nat) :=
  (n.claims.find? fun c => c.covers 1 x).map fun c => (c.mode, c.claimant)

/-- Makes the pins of a set high-impedance (R606). -/
def State.releasePinsIf (s : State) (p : Nat → Bool) : State :=
  let gone := s.pins.driven.filter fun x => p x.1
  gone.foldl (fun t x => t.emit (.pin x.1 none))
    { s with pins := { s.pins with driven := s.pins.driven.filter (fun x => !p x.1), next := s.pins.next.filter fun x => !p x.1 } }

/-- Releases the pins whose claim changes (R607). -/
def State.releasePins (s : State) (old new : ConfigBank) : State :=
  s.releasePinsIf fun n => old.pinClaim n != new.pinClaim n

/-- Whether a buffer overlaps a region of mode 1 or 2 (R592). -/
def State.overOwned (s : State) (a n : Nat) : Bool :=
  s.cfg.active.regions.any fun r => decide (a < r.base + r.len ∧ r.base < a + n) &&
    (r.owner.toNat % 4 == 1 || r.owner.toNat % 4 == 2)

/-- Disarms the trace windows whose buffers such a region now overlaps (R592). -/
def State.recheckWindows (s : State) : State :=
  (List.range 16).foldl (fun t n =>
    if bit (t.get Reg.DBG_STATUS_ARMED) n &&
        t.overOwned (t.get (Reg.DBG_TW_BASE_ADDR n) * 64) (2 ^ t.get (Reg.DBG_TW_SIZE_LOG2SIZE n)) then
      ((t.put (Reg.DBG_TW_CTL_EN n) 0).put Reg.DBG_STATUS_ARMED (t.get Reg.DBG_STATUS_ARMED - 2 ^ n)).firstErr
        Reg.DBG_ERR_VALID Reg.DBG_ERR_CODE memAccess [(Reg.DBG_ERR_WINDOW, n)]
    else t) s

/-- Writes descriptor bases and gating of the new configuration into their registers (R377). -/
def State.loadBases (s : State) (n : ConfigBank) : State :=
  let s := (List.range 384).foldl (fun t h => (t.put (Reg.HTH_OPD_BASE_BASE h) (sget 0 n.opdPage h)).put
    (Reg.HTH_ODESC_BASE_BASE h) (sget 0 n.odescPage h)) s
  (List.range 32).foldl (fun t k => (t.put (Reg.KLN_GATE_CTL_EN k) (bits n.gateEn k 1)).put
    (Reg.KLN_GATE_CTL_THRESH k) n.gateThresh) s

/-- CRC-32C of two 32-bit values (R381). -/
def chainCrc (old new : Nat) : Nat := crc crc32c (leBytes 4 old ++ leBytes 4 new)

/-- The COL_CFG registers record a load (R357, R377, R381, R385). -/
def State.recordLoad (s : State) (l : Loading) : State :=
  let s := ((s.put Reg.COL_CFG_STATUS_LOADED (if l.toBase then 0 else 1)).put Reg.COL_CFG_STATUS_LOADING 0).put
    Reg.COL_CFG_STATUS_PARTIAL (if l.isPart then 1 else 0)
  let s := ((s.put Reg.COL_CFG_STATUS_GEN l.bank.gen).put Reg.COL_CFG_ID_ID l.bank.id).put Reg.COL_CFG_KILNS_LAST l.kilns
  let s := (s.put Reg.COL_CFG_CRC_CRC (if l.isPart then chainCrc (s.get Reg.COL_CFG_CRC_CRC) l.crcAll else l.crcAll)).put
    Reg.MEM_REGIONS_COUNT l.bank.regions.length
  if l.isPart then s
  else
    let s := (s.put Reg.COL_CFG_STATUS_SIGNED (if l.signed then 1 else 0)).put Reg.COL_CFG_STATUS_KEYSLOT l.keySlot
    (List.range 8).foldl (fun t i => t.put (Reg.COL_CFG_DIGEST_DIGEST i) (fieldAt l.digest (8 * i) 8)) s

/-- What any load clears of banking: the shard table, VERIFY and a trial (R461, R475, R476). -/
def State.forgetBanking (s : State) : State :=
  { s with step := { s.step with shards := [] }, bank := { s.bank with trial := none, ref := none } }.put
    Reg.BNK_STATUS_VERIFY 0 |>.put Reg.BNK_TRIAL_ACTIVE 0

/-- The switch (R377, R381): the bank becomes active with its tables live, and the kilns it replaces are cleared. -/
def State.switchTo (s : State) (l : Loading) : State :=
  let old := s.cfg.active
  let s := (kilnsOf l.kilns).foldl State.clearKiln s
  let s := if l.isPart then s.emptyGiven l.kilns old.given else s.emptyStores
  let s := { s with cfg := ⟨l.bank, none⟩ }
  let s := l.tables.foldl State.installTable s
  let s := if l.isPart then s else (s.loadBases l.bank).releasePins old l.bank
  (s.recordLoad l).recheckWindows.forgetBanking

/-- The audit entry of a load (R553): the first 32 bytes of COL_CFG_DIGEST, or for a partial load COL_CFG_CRC. -/
def State.auditLoad (s : State) (l : Loading) : State :=
  let arg := if l.isPart then leBytes 4 (s.get Reg.COL_CFG_CRC_CRC) else l.digest.take 32
  s.auditAfter 0x0B 0 0xFF 0 arg

/-- CONFIG_SWITCH (R377, R378): once no operation is in flight in the replaced kilns, quarantines are checked again and
the switch happens; the command completes. -/
def execConfigSwitch (s : State) : Host.Outcome State Fault Refusal :=
  match s.cfg.loading with
  | none => .next s
  | some l =>
    if s.col.runs.any fun r => !r.flight.isEmpty then .next s
    else match s.col.started.find? fun c => c.opc = 0x01 && c.sq = l.sq && c.cid = l.cid with
      | none => .next s
      | some c =>
        match if l.toBase then none else s.badRole l.bank l.kilns with
        | some k =>
          let s := { s with cfg := { s.cfg with loading := none } }.put Reg.COL_CFG_STATUS_LOADING 0
          .next (s.loadFailed c ⟨cfgTopology, 0, 16 + 4 * k, 0, 0⟩)
        | none => .next ((s.switchTo l).complete c 0 |>.auditLoad l)

end Sys2Proof.Machine
end

