-- ==== Sys2Proof/Machine/Promo.lean ====
section
/-! DEFINITION. Stat records over a step (R245-R247, R417) and promotion decisions (R248-R250). -/

namespace Sys2Proof.Machine

/-! ### Stat records -/

/-- Opens the stat records of the step that opens (R417). -/
def State.openStats (s : State) : State :=
  let s := { s with step := { s.step with extra := [] } }
  s.statKilns.foldl (fun t k => s.statLayers.foldl (fun u l => u.post (u.statAddr k l) (u.freshStat l)) t) s

/-- Two stat records together: counts add, AMAX takes the maximum, FLAGS combine by OR (R246). -/
def statPlus (a b : List Byte) : List Byte :=
  Tally.addTo { total := fieldAt b 16 8, clipped := fieldAt b 24 8, under := fieldAt b 32 8, outovf := fieldAt b 40 4
                outliers := fieldAt b 44 4, amax := fieldAt b 48 2, fl := BitVec.ofNat 14 (fieldAt b 50 2) } a

/-- The kiln whose record of a layer becomes the module's combined record: the lowest that keeps stat records. -/
def State.combinedKiln (s : State) : Nat := s.statKilns.headD 0

/-- Device address of the combined record of a layer. -/
def State.combinedAt (s : State) (layer : Nat) : Nat := s.statAddr s.combinedKiln layer

/-- The kiln records of a layer combined in index order (R245). -/
def State.combineStat (s : State) (layer : Nat) : List Byte :=
  ((s.statKilns.map fun k => s.peek (s.statAddr k layer) 128).filter s.statCurrent).foldl
    (fun a r => statPlus a r) (s.freshStat layer)

/-- Combines the kiln records of every layer (R245): the state with the combined records in place. -/
def State.combineStats (s : State) : State :=
  if s.statKilns.isEmpty then s
  else s.statLayers.foldl (fun t l => t.post (t.combinedAt l) (t.combineStat l)) s

/-- The combined records that the module holds. -/
def State.combinedStats (s : State) : List (List Byte) :=
  if s.statKilns.isEmpty then [] else s.statLayers.map fun l => s.peek (s.combinedAt l) 128

/-- The records that arrive with the global result replace the module's own (R245). -/
def State.takeStats (s : State) (rs : List (List Byte)) : State :=
  if s.statKilns.isEmpty then s
  else rs.foldl (fun t r => if t.statLayers.contains (fieldAt r 0 2) then t.post (t.combinedAt (fieldAt r 0 2)) (fitBytes 128 r) else t) s

/-! ### Promotion (R248-R250) -/

/-- A layer with a limit entry while promotions are decided: its entry, its combined record, its format in the step and
its promotion state. -/
structure LayerPromo where
  layer : Nat
  entry : List Byte
  stat  : List Byte
  was   : Nat
  p     : Promo
deriving DecidableEq, Repr

/-- Width order of a format code (R248). -/
def widthOf (f : Nat) : Nat := (formatRank f).getD 0

/-- The base format of a layer's entry. -/
def LayerPromo.base (x : LayerPromo) : Nat := fieldAt x.entry 2 1 % 16

/-- Levels above the base format. -/
def LayerPromo.levels (x : LayerPromo) : Nat := widthOf x.p.fmt - widthOf x.base

/-- The next wider format (R248). -/
def widerFmt (f : Nat) : Nat := if f = 1 then 0 else 1

/-- HOLD of the entry. -/
def LayerPromo.holdOf (x : LayerPromo) : Nat := fieldAt x.entry 6 2

/-- Step 1 of R249: a promoted layer whose HOLD runs out returns one format narrower. A layer that stays promoted after
that begins a new HOLD. -/
def LayerPromo.expire (x : LayerPromo) : LayerPromo :=
  if x.p.fmt = x.base || x.holdOf = 0 then x
  else if 1 < x.p.hold then { x with p := { x.p with hold := x.p.hold - 1 } }
  else
    let f := if x.p.fmt = 0 then (if widthOf x.base = 1 then x.base else 1) else x.base
    { x with p := { x.p with fmt := f, hold := if f = x.base then 0 else x.holdOf } }

/-- Whether a layer qualifies (R248). -/
def LayerPromo.qualifies (x : LayerPromo) : Bool :=
  decide (widthOf x.was < widthOf (fieldAt x.entry 2 1 / 16)) &&
    (decide (fieldAt x.entry 4 2 * fieldAt x.stat 16 8 < fieldAt x.stat 24 8 * 2 ^ 16) ||
      decide (fieldAt x.entry 8 4 < fieldAt x.stat 40 4))

/-- The order of step 3: share, then OUTOVF, then LAYER. -/
def LayerPromo.before (a b : LayerPromo) : Bool :=
  let x := fieldAt a.stat 24 8 * fieldAt b.stat 16 8
  let y := fieldAt b.stat 24 8 * fieldAt a.stat 16 8
  if x ≠ y then decide (y < x)
  else if fieldAt a.stat 40 4 ≠ fieldAt b.stat 40 4 then decide (fieldAt b.stat 40 4 < fieldAt a.stat 40 4)
  else decide (a.layer < b.layer)

/-- Inserts a layer into an ordered list. -/
def insertLayer (x : LayerPromo) : List LayerPromo → List LayerPromo
  | [] => [x]
  | y :: ys => if x.before y then x :: y :: ys else y :: insertLayer x ys

/-- Steps 3 and 4 of R249: grants in order within the budgets, the rest deferred. Gives the layers with whether each was
deferred. -/
def grantLayers : Int → Int → List LayerPromo → List (LayerPromo × Bool)
  | _, _, [] => []
  | mem, time, x :: xs =>
    let m : Int := fieldAt x.entry 16 4
    let t : Int := fieldAt x.entry 20 4
    if m ≤ mem ∧ t ≤ time then
      ({ x with p := ⟨widerFmt x.p.fmt, x.holdOf, 0⟩ }, false) :: grantLayers (mem - m) (time - t) xs
    else ({ x with p := { x.p with deferred := x.p.deferred + 1 } }, true) :: grantLayers mem time xs

/-- What the decision writes into a layer's combined record: QUALIFIED, PROMOTE-DEFERRED, HOLD, DEFERRED and the flag. -/
def promoRecord (x : LayerPromo) (qualified deferred : Bool) : List Byte :=
  let st := fieldAt x.stat 3 1 ||| (if qualified then 4 else 0) ||| (if deferred then 8 else 0)
  let fl := fieldAt x.stat 50 2 ||| (if deferred then fDEFERRED.toNat else 0)
  patch (patch (patch (patch x.stat 3 (leBytes 1 st)) 50 (leBytes 2 fl)) 52 (leBytes 4 x.p.hold)) 56 (leBytes 4 x.p.deferred)

/-- Lists a layer's promotion state unless it is at its base format with nothing counted. -/
def State.setPromo (s : State) (layer : Nat) (p : Promo) : State :=
  let m := if p = ⟨s.baseFmt layer, 0, 0⟩ then sdel s.step.promo layer else sput s.step.promo layer p
  { s with step := { s.step with promo := m } }

/-- Decides promotions from the combined records and makes them take effect, when a step commits or is skipped (R249,
R250). -/
def State.promote (s : State) : State :=
  let all := s.cfg.active.layers.map fun e =>
    let l := fieldAt e 0 2
    (⟨l, e, s.peek (s.combinedAt l) 128, (s.promoOf l).fmt, s.promoOf l⟩ : LayerPromo).expire
  let held := fun (cost : LayerPromo → Nat) => (all.map fun x => ((x.levels * cost x : Nat) : Int)).foldl (· + ·) 0
  let mem := (s.cfg.active.promoMem : Int) - held fun x => fieldAt x.entry 16 4
  let time := (s.cfg.active.promoTime : Int) - held fun x => fieldAt x.entry 20 4
  let rest := (all.filter fun x => !x.qualifies).map fun x => { x with p := { x.p with deferred := 0 } }
  let asked := grantLayers mem time ((all.filter LayerPromo.qualifies).foldl (fun l x => insertLayer x l) [])
  let put := fun (t : State) (x : LayerPromo) q d =>
    (if s.statKilns.isEmpty then t else t.post (s.combinedAt x.layer) (promoRecord x q d)).setPromo x.layer x.p
  let s := rest.foldl (fun t x => put t x false false) s
  let s := asked.foldl (fun t x => put t x.1 true x.2) s
  let n := (asked.filter (·.2)).length
  if n = 0 then s else (s.noteFlags fDEFERRED).raise 9 0x03 0xFFFF 0 n

/-- Whether a layer's DEFERRED count exceeds its DEFER_VETO (R250). -/
def State.deferVeto (s : State) : Bool :=
  s.cfg.active.layers.any fun e =>
    let v := fieldAt e 12 2
    v != 0 && decide (v < (s.promoOf (fieldAt e 0 2)).deferred)

end Sys2Proof.Machine
end

