-- ==== Sys2Proof/Machine/Ember.lean ====
section
/-! DEFINITION. The ember and hearth instructions: MMA, OUT, CLR, BSST, BSADD, KRED, RSTAT, HBAR and the codebook build
(R102-R136, R141-R176, R232, R236-R242, R252-R265, R619, R620, R623). -/

namespace Sys2Proof.Machine

/-! ### Fields (R142, R144) -/

/-- First slot. -/
def slotOf (w : BitVec 128) : Nat := wf w 8 8
/-- Rows. -/
def rowsOf (w : BitVec 128) : Nat := wf w 16 8
/-- Site id. -/
def siteOf (w : BitVec 128) : Nat := wf w 90 16
/-- Output descriptor index. -/
def odescOf (w : BitVec 128) : Nat := wf w 82 8
/-- MASK. -/
def maskOf (w : BitVec 128) : Nat := wf w 62 8

/-- Fields of each opcode beside those of R141. -/
def fieldsOf (opc : Nat) : List (Nat × Nat) :=
  match opc with
  | 0x01 => [(6, 1), (7, 1), (8, 8), (16, 8), (24, 12), (36, 4), (40, 4), (44, 3), (47, 1), (48, 1), (49, 3), (52, 10), (62, 10),
      (72, 10), (82, 8), (90, 16)]
  | 0x02 => [(8, 8), (16, 8), (82, 8), (90, 16)]
  | 0x03 => [(8, 8), (16, 8)]
  | 0x04 => [(8, 8), (16, 8), (62, 17)]
  | 0x05 => [(8, 8), (16, 8), (62, 17)]
  | 0x20 => [(8, 8), (16, 8), (62, 8)]
  | 0x21 => [(8, 8), (16, 8), (62, 8), (79, 17)]
  | _ => []

/-- Checks 2 and 3 of R620 for an instruction that names slots: reserved bits, zero counts, slot range. -/
def checkSlots (w : BitVec 128) (hearth : Bool) : Checked Unit := do
  let opc := opcodeOf w
  failIf (reservedSet w (fieldsOf opc) || rowsOf w = 0 || (opc = 1 && wf w 24 12 = 0) ||
    (hearth && (maskOf w = 0 || embOf w ≠ 0))) arithField
  failIf (decide (192 < slotOf w + rowsOf w)) arithSlotRange

/-- The ember that an instruction names, module-wide. -/
def emberOf (h : Nat) (w : BitVec 128) : Nat := 8 * h + embOf w

/-- Whether some slot of an ember holds an uncorrectable error (R342). -/
def State.slotsBad (s : State) (en : Nat) (slots : List Nat) : Bool := (s.ember en).bad.any slots.contains

/-- An uncorrectable error of accumulator memory is read (R344, R347): tier 3. -/
def State.accumulatorUE (s : State) (h tag : Nat) : State :=
  let s := s.errorRecord 0 memUE 3 1 h tag 0
  let s := s.bump Reg.MEM_UE_CNT_COUNT 1
  let s := s.raise 4 0x01 h memUE 0
  let s := s.memErr (asHearth s h tag) memUE
  if s.stepOpen then s.veto vMEMUE else s

/-- Stores slots of an ember; a slot written whole holds no error any more. -/
def State.putSlots (s : State) (en : Nat) (new : List (Nat × Slot)) : State :=
  let e := s.ember en
  let e := new.foldl (fun (x : Ember) p => x.setSlot p.1 p.2) e
  s.setEmber en { e with bad := e.bad.filter fun i => !(new.any fun p => p.1 = i) }

/-- The slots that an instruction names. -/
def namedSlots (w : BitVec 128) : List Nat := (List.range (rowsOf w)).map fun r => slotOf w + r

/-! ### Pairings (R102) -/

/-- Whether a format enters GL8X products. -/
def isNarrow (f : Fmt) : Bool := f == .gl8 || f == .gl4c || f == .gl4

/-- Slot mode and reduction indices per k-step of a pairing. -/
def pairing (a b : Fmt) : Option (Mode × Nat) :=
  if isNarrow a && isNarrow b then some (.gl8x, if a = .gl4 ∧ b = .gl4 then 128 else 64)
  else if a = .gl16 ∧ b = .gl16 then some (.gl16w, 64)
  else if (a = .int8 ∨ a = .int4) ∧ (b = .int8 ∨ b = .int4) then some (.int32, 64)
  else none

/-! ### MMA: issue -/

/-- An MMA that passed its issue checks. -/
structure Mma where
  h      : Nat
  w      : BitVec 128
  seq    : Nat
  mode   : Mode
  fa     : Fmt
  fb     : Fmt
  a      : Operand
  b      : Operand
  meta24 : Nat
  tiles  : List Nat
  active : List Nat
  arnd   : Rnd
  out    : Option OutDesc
deriving DecidableEq, Repr

/-- OVR. -/
def Mma.ovr (m : Mma) : Bool := wf m.w 6 1 = 1
/-- Frame top. -/
def Mma.ftop (m : Mma) : Int := signedOf 10 (wf m.w 52 10)
/-- Rows 0 to M − 1. -/
def Mma.rows (m : Mma) : List Nat := List.range (rowsOf m.w)
/-- The accumulation site of R120 and R237. -/
def Mma.site (m : Mma) : BitVec 16 := BitVec.ofNat 16 (siteOf m.w + 1)

/-- Mask bits from hearth memory: bit i at byte i div 8 (R260, R262). -/
def maskBit (bs : List Byte) (i : Nat) : Bool := bit (fieldAt bs (i / 8) 1) (i % 8)

/-- Placement and layout of an operand's sparsity metadata (R253-R255) and its extents (R148): checks that follow the
codebook in R620 item 5. `metaEnd` is the first byte past the metadata. -/
def extentCheck (misaligned sparse : Bool) (metaEnd : Nat) (o : Operand) (steps rows : List Nat) : Checked Unit := do
  failIf misaligned arithDesc
  failIf sparse arithSparse
  failIf (decide (hearthBytes < metaEnd) ||
    (!steps.isEmpty && !rows.isEmpty && decide (hearthBytes < o.extent (steps.foldl Nat.max 0) (rows.foldl Nat.max 0)))) arithDesc

/-- The issue checks of an MMA, in the order of R620. -/
def State.checkMma (s : State) (h : Nat) (w : BitVec 128) (seq : Nat) : Checked Mma := do
  checkSlots w false
  let some fa := Fmt.ofCode (wf w 36 4) | .error arithField
  let some fb := Fmt.ofCode (wf w 40 4) | .error arithField
  let some (mode, k) := pairing fa fb | .error arithField
  let some arnd := Rnd.ofCode (wf w 49 3) | .error arithField
  failIf ((mode == .gl16w && (arnd == .ru || arnd == .rd || siteOf w = 0xFFFF)) || (mode != .gl16w && wf w 49 3 != 0) ||
    (mode != .gl8x && wf w 52 10 != 0)) arithField
  let half := wf w 44 1 = 1
  let masked := wf w 45 1 = 1
  let rowMask := wf w 46 1 = 1
  failIf (half && wf w 48 1 = 1) arithSparse
  let ksteps := wf w 24 12
  let m := rowsOf w
  let logical := if half then 2 * k else k
  let a ← s.operand h (wf w 62 10) fa m logical (wf w 47 1 = 1) false
  let rowBits := if rowMask then s.bytes (hearthAddr h + a.info) 24 else []
  let active := (List.range m).filter fun r => !rowMask || maskBit rowBits r
  -- The k-steps that issue are known only once B's descriptor is read; A's extents are those of every k-step but the masked.
  let bAt := 4096 * s.get (Reg.HTH_OPD_BASE_BASE h) + 32 * wf w 72 10
  let bInfo := fieldAt (s.bytes (hearthAddr h + bAt) 32) 24 4
  let maskBytes := (ksteps + 7) / 8
  let tileBits := if masked && decide (bAt + 32 ≤ hearthBytes) then s.bytes (hearthAddr h + bInfo) maskBytes else []
  let tiles := (List.range ksteps).filter fun j => !masked || maskBit tileBits j
  extentCheck (rowMask && a.info % 32 != 0) false (if rowMask then a.info + 24 else 0) a tiles active
  let b ← s.operand h (wf w 72 10) fb 64 k (wf w 48 1 = 1) half
  let meta24 := if masked then b.info + (maskBytes + 63) / 64 * 64 else b.info
  let metaEnd := if half then meta24 + ksteps * 1024 * (k / 64) else if masked then b.info + maskBytes else 0
  extentCheck ((half || masked) && b.info % 64 != 0) (half && !b.tiled) metaEnd b tiles (List.range 64)
  let out ← if wf w 7 1 = 1 then (s.outDesc h (odescOf w) (some mode) active).map some else .ok none
  .ok { h := h, w := w, seq := seq, mode := mode, fa := fa, fb := fb, a := a, b := b, meta24 := meta24, tiles := tiles,
        active := active, arnd := arnd, out := out }

/-! ### MMA: k-steps -/

/-- The operands of one k-step: its number, the active rows of A and the 64 columns of B. -/
structure KStep where
  j : Nat
  a : List TileRow
  b : List TileRow
deriving DecidableEq, Repr

/-- Which of two failures of one k-step decides: a scale mismatch over a metadata error (R258), otherwise A's. -/
def stepCode (a b : Nat) : Nat :=
  if a = arithDesync ∨ b = arithDesync then arithDesync else if a ≠ 0 then a else b

/-- The code of a checked value, 0 when it passed. -/
def Except.code {α : Type} : Checked α → Nat
  | .error c => c
  | .ok _ => 0

/-- Reads the k-steps in order until one fails its checks: what was read, and the code (R232, R258). -/
def State.readKSteps (s : State) (m : Mma) : List Nat → State × List KStep × Nat
  | [] => (s, [], 0)
  | j :: js =>
    let tag := tagOf m.w
    let (s, ra) := s.tile m.h tag m.a 0 j m.active
    let (s, rb) := s.tile m.h tag m.b m.meta24 j (List.range 64)
    match ra, rb with
    | .ok ta, .ok tb =>
      let (s, rest, c) := State.readKSteps s m js
      (s, ⟨j, ta, tb⟩ :: rest, c)
    | ra, rb => (s, [], stepCode (Except.code ra) (Except.code rb))

/-! ### MMA: products -/

/-- An event of the first-invalid capture (R131): cause and key within the instruction, with the operand codes. -/
structure Invalid where
  cause : Nat
  j     : Nat
  row   : Nat
  col   : Nat
  ridx  : Nat
  opa   : Nat
  opb   : Nat
deriving DecidableEq, Repr

/-- The key of an event within its instruction, as one number. -/
def Invalid.key (v : Invalid) : Nat := ((v.j * 256 + v.row) * 64 + v.col) * 512 + v.ridx

/-- The event with the lower key. -/
def earlier : Option Invalid → Option Invalid → Option Invalid
  | none, y => y
  | x, none => x
  | some x, some y => if y.key < x.key then some y else some x

/-- An element at work in an MMA: the windowed element, product counts and the first invalid event. -/
structure Work where
  win   : Win
  prods : Nat
  skips : Nat
  bad   : Option Invalid
deriving DecidableEq, Repr

/-- What a product is (R107, R237). -/
inductive Product where
  | nothing
  | skip
  | exact (neg : Bool) (p : Int)
  | outlier (neg : Bool) (p : Int)
  | int (z : Int)
  | inf (neg : Bool)
  | zeroInf
  | nan
deriving DecidableEq, Repr

/-- A log magnitude in 128ths with its fine scale applied. -/
def in128 (unit e f : Int) : Int := unit * e + 128 * f

/-- The product of two operand elements. p counts eighths in GL8X and 128ths in GL16W and for outliers. -/
def product (unit : Int) (a b : Val) : Product :=
  let frac : Int := 128 / unit
  match a, b with
  | .absent, _ => .nothing
  | _, .absent => .nothing
  | .zeroBlock, _ => .nothing
  | _, .zeroBlock => .nothing
  | .nan, _ => .nan
  | _, .nan => .nan
  | .inf _, .zero => .zeroInf
  | .zero, .inf _ => .zeroInf
  | .zero, _ => .skip
  | _, .zero => .skip
  | .inf x, .inf y => .inf (x != y)
  | .inf x, .log y _ _ => .inf (x != y)
  | .inf x, .outl y _ => .inf (x != y)
  | .inf x, .int z => .inf (x != decide (z < 0))
  | .log x _ _, .inf y => .inf (x != y)
  | .outl x _, .inf y => .inf (x != y)
  | .int z, .inf y => .inf (decide (z < 0) != y)
  | .log x e f, .log y e' f' => .exact (x != y) (e + e' + frac * (f + f'))
  | .outl x e, .log y e' f' => .outlier (x != y) (e + in128 unit e' f')
  | .log x e f, .outl y e' => .outlier (x != y) (in128 unit e f + e')
  | .outl x e, .outl y e' => .outlier (x != y) (e + e')
  | .int x, .int y => .int (x * y)
  | _, _ => .nothing

/-- A non-finite product reaches the special state (R130), with the event it is (R131). -/
def Work.special (w : Work) (arriving : Special) (cause : Option Nat) (v : Nat → Invalid) : Work :=
  let have_ := w.win.e.special
  let (st, fl) := have_.combine arriving
  let opposing := decide (arriving ≠ .nan ∧ have_ ≠ .finite ∧ have_ ≠ .nan ∧ have_ ≠ arriving)
  let ev := match cause with
    | some c => some (v c)
    | none => if opposing then some (v 3) else none
  { w with win := { w.win with e := { w.win.e with special := st }, fl := w.win.fl ||| fl }, bad := earlier w.bad ev }

/-- One product enters an element, windowed terms apart (R107, R114, R130). -/
def Work.enter (spill : Bool) (mode : Mode) (v : Nat → Invalid) (w : Work) (p : Product) : Work :=
  match p with
  | .nothing => w
  | .skip => { w with skips := w.skips + 1 }
  | .nan => w.special .nan (some 2) v
  | .zeroInf => w.special .nan (some 1) v
  | .inf neg => w.special (.infOf neg) none v
  | .outlier _ _ => w
  | .int _ => { w with prods := w.prods + 1 }
  | .exact neg p =>
    let w := { w with prods := w.prods + 1 }
    if mode == .gl8x then
      let (e, fl) := w.win.e.enterExact (wideIn spill .gl8x) (p.fdiv 8) (p.fmod 8).toNat neg
      let beyond := fl &&& fOF ≠ 0
      { w with win := { w.win with e := e, fl := w.win.fl ||| fl }, bad := if beyond then earlier w.bad (some (v 4)) else w.bad }
    else w

/-- The products of one element in one k-step, with their reduction indices. -/
def productsOf (unit : Int) (a b : List Cell) : List (Nat × Cell × Cell × Product) :=
  (a.zip b).zipIdx.map fun p => (p.2, p.1.1, p.1.2, product unit p.1.1.val p.1.2.val)

/-- One k-step of one element (R103, R114, R118, R125, R237). -/
def Mma.element (m : Mma) (spill : Bool) (rnd : RandomSource) (row col : Nat) (ks : Nat × TileRow × TileRow) (w : Work) : Work :=
  let (j, ta, tb) := ks
  let ps := productsOf (logUnit m.fa) ta.cells tb.cells
  let w := ps.foldl (fun w p =>
    w.enter spill m.mode (fun c => ⟨c, j, row, col, p.1, p.2.1.code, p.2.2.1.code⟩) p.2.2.2) w
  let pos := 64 * row + col
  let raise := RaiseMode.random rnd m.site pos
  let outs := ps.filterMap fun p => match p.2.2.2 with
    | .outlier neg e => some (passesOf neg e p.1)
    | _ => none
  let w := if outs.isEmpty then w else { w with win := w.win.outlierPass raise outs.flatten }
  match m.mode with
  | .gl16w =>
    let terms := ps.filterMap fun p => match p.2.2.2 with
      | .exact neg e => some (passesOf neg e p.1)
      | _ => none
    let win := (List.range 4).foldl (fun (win : Win) pass =>
      let ts := terms.filterMap fun l => l[pass]?
      let below := if m.arnd = .sr then BelowMode.random rnd m.site pos j pass else .drop
      win.pass raise below true ts) w.win
    { w with win := win }
  | .int32 =>
    let total := ps.foldl (fun (acc : Int) p => match p.2.2.2 with
      | .int z => acc + z
      | _ => acc) 0
    let (e, fl) := w.win.e.addInt32 total
    { w with win := { w.win with e := e, fl := w.win.fl ||| fl } }
  | _ => w

/-- A row accumulated over every k-step: its slot, flags, counts of products, skips and window raises, and first invalid
event. `ri` is the row's place among the active rows. -/
def Mma.row (m : Mma) (spill : Bool) (rnd : RandomSource) (ks : List KStep) (row ri : Nat) (slot : Slot) :
    Slot × Fl × Nat × Nat × Nat × Option Invalid :=
  (List.range 64).foldl (fun acc c =>
    let (sl, fl, pr, sk, ra, bad) := acc
    let w0 : Work := ⟨⟨sl.elem c, 0, 0⟩, 0, 0, none⟩
    let w := ks.foldl (fun w k => m.element spill rnd row c (k.j, k.a.getD ri ⟨[]⟩, k.b.getD c ⟨[]⟩) w) w0
    (sl.setElem c w.win.e, fl ||| w.win.fl, pr + w.prods, sk + w.skips, ra + w.win.ord, earlier bad w.bad)) (slot, 0, 0, 0, 0, none)

/-- The key of a held capture, or of an event of an instruction with issue number `seq`: R131. -/
def captureKey (seq j slot col ridx : Nat) : Nat := (((seq * 4096 + j) * 256 + slot) * 64 + col) * 512 + ridx

/-- Records an event in the first-invalid capture when none with a lower key is held (R131, R175). -/
def State.capture (s : State) (m : Mma) (v : Invalid) : State :=
  let h := m.h
  let e := embOf m.w
  let slot := slotOf m.w + v.row
  let held := captureKey (s.get (Reg.EMB_FIC_1_ISSUE h e)) (s.get (Reg.EMB_FIC_0_KSTEP h e)) (s.get (Reg.EMB_FIC_0_SLOT h e))
    (s.get (Reg.EMB_FIC_0_COL h e)) (s.get (Reg.EMB_FIC_0_RIDX h e))
  if s.isSet (Reg.EMB_FIC_0_VALID h e) && decide (held ≤ captureKey m.seq v.j slot v.col v.ridx) then s
  else
    ([(Reg.EMB_FIC_0_VALID h e, 1), (Reg.EMB_FIC_0_CAUSE h e, v.cause), (Reg.EMB_FIC_0_TAG h e, tagOf m.w),
      (Reg.EMB_FIC_0_KSTEP h e, v.j), (Reg.EMB_FIC_0_SLOT h e, slot), (Reg.EMB_FIC_0_COL h e, v.col),
      (Reg.EMB_FIC_0_RIDX h e, v.ridx), (Reg.EMB_FIC_1_ISSUE h e, m.seq), (Reg.EMB_FIC_2_OPA h e, v.opa),
      (Reg.EMB_FIC_2_OPB h e, v.opb), (Reg.EMB_FIC_2_FMT_A h e, m.fa.code), (Reg.EMB_FIC_2_FMT_B h e, m.fb.code)]).foldl
      (fun t p => t.put p.1 p.2) s

/-- The slot that a row starts from: overwritten when OVR is set or the slot is EMPTY (R132). -/
def Mma.start (m : Mma) (s : Slot) : Slot := if m.ovr || s.mode == .empty then s.overwrite m.mode m.ftop else s

/-- Accumulates the k-steps that were read into the active rows; masked rows follow R263. -/
def State.accumulate (s : State) (m : Mma) (ks : List KStep) : State :=
  let en := emberOf m.h m.w
  let spill := s.cfg.active.spill
  let e := s.ember en
  let first := slotOf m.w
  let res := m.active.zipIdx.map fun p => (p.1, m.row spill s.random ks p.1 p.2 (m.start (e.slot (first + p.1))))
  let masked := if m.ovr then (m.rows.filter fun r => !m.active.contains r).map fun r =>
      (first + r, (e.slot (first + r)).overwrite m.mode m.ftop) else []
  let s := s.putSlots en ((res.map fun p => (first + p.1, p.2.1)) ++ masked)
  let s := s.sticky (Reg.EMB_FLAGS_flags m.h (embOf m.w)) (res.foldl (fun f p => f ||| p.2.2.1) 0)
  let prods := res.foldl (fun n p => n + p.2.2.2.1) 0
  let skips := res.foldl (fun n p => n + p.2.2.2.2.1) 0
  let s := (s.bump (Reg.EMB_PRODUCTS_COUNT m.h (embOf m.w)) prods).pmc 0x02 (kilnOf m.h) prods
  let s := (s.bump (Reg.EMB_SKIPPED_COUNT m.h (embOf m.w)) skips).pmc 0x03 (kilnOf m.h) skips
  let s := s.pmc 0x09 (kilnOf m.h) (res.foldl (fun n p => n + p.2.2.2.2.2.1) 0)
  match res.foldl (fun b p => earlier b p.2.2.2.2.2.2) none with
  | some v => s.capture m v
  | none => s

/-- The output job of an MMA (R157). -/
def Mma.job (m : Mma) : OutJob := ⟨m.h, embOf m.w, tagOf m.w, BitVec.ofNat 16 (siteOf m.w), [m.a.coarse, m.b.coarse]⟩

/-- Runs a checked MMA (R150, R171, R261). -/
def State.runMma (s : State) (m : Mma) : State :=
  let e := embOf m.w
  let en := emberOf m.h m.w
  let tag := tagOf m.w
  let clash := !m.ovr && m.active.any fun r =>
    let t := ((s.ember en).slot (slotOf m.w + r)).mode
    t != .empty && t != m.mode
  if clash then (s.sticky (Reg.EMB_FLAGS_flags m.h e) fMODE).embError m.h e arithMode tag
  else if !m.ovr && s.slotsBad en (m.active.map fun r => slotOf m.w + r) then (s.accumulatorUE m.h tag).embError m.h e memUE tag
  else
    let (s, ks, c) := s.readKSteps m m.tiles
    let s := if (ks.isEmpty && c ≠ 0) || (m.tiles.isEmpty && !m.ovr) then s else s.accumulate m ks
    if c ≠ 0 then
      let s := if c = arithDesync then s.sticky (Reg.EMB_FLAGS_flags m.h e) fDESYNC else s
      s.embError m.h e c tag
    else match m.out with
      | none => s
      | some d =>
        let (s, c) := s.outRows m.job d (slotOf m.w) m.active
        if c ≠ 0 then s.embError m.h e c tag else s

/-- MMA (R142). -/
def doMma (h : Nat) (w : BitVec 128) (s : State) : State :=
  let (s, seq) := s.issue h
  match s.checkMma h w seq with
  | .error c => s.embError h (embOf w) c (tagOf w)
  | .ok m => s.runMma m

/-! ### OUT, CLR, BSST, BSADD -/

/-- The checks of OUT (R156, R620). -/
def State.outCheck (s : State) (h : Nat) (w : BitVec 128) : Checked OutDesc := do
  checkSlots w false
  s.outDesc h (odescOf w) none (List.range (rowsOf w))

/-- OUT (R144, R156): the output stage on rows as they stand. -/
def doOut (h : Nat) (w : BitVec 128) (s : State) : State :=
  let (s, _) := s.issue h
  let e := embOf w
  let tag := tagOf w
  match s.outCheck h w with
  | .error c => s.embError h e c tag
  | .ok d =>
    if (namedSlots w).any fun i => !biasAgrees d.bias ((s.ember (emberOf h w)).slot i).mode then s.embError h e arithField tag
    else if s.slotsBad (emberOf h w) (namedSlots w) then (s.accumulatorUE h tag).embError h e memUE tag
    else
      let (s, c) := s.outRows ⟨h, e, tag, BitVec.ofNat 16 (siteOf w), []⟩ d (slotOf w) (List.range (rowsOf w))
      if c ≠ 0 then s.embError h e c tag else s

/-- CLR (R144): EMPTY with all contents zero. -/
def doClr (h : Nat) (w : BitVec 128) (s : State) : State :=
  let (s, _) := s.issue h
  match checkSlots w false with
  | .error c => s.embError h (embOf w) c (tagOf w)
  | .ok _ => s.putSlots (emberOf h w) ((namedSlots w).map fun i => (i, Slot.empty))

/-- Bytes of a row of bucket-set records (R144). -/
def bsRowBytes : Nat := 6144

/-- Whether every byte of a range of hearth h's memory may hold bucket-set records (R145). -/
def State.bucketRange (s : State) (h off n : Nat) : Bool :=
  decide (off + n ≤ hearthBytes) &&
    (piecesOf (hearthAddr h + off) n).all fun p => bit (s.ownerAt p.1).toNat 2

/-- Hearth h as BSST and BSADD act: they may touch bucket-set ranges (R145). -/
def asBucket (s : State) (h tag : Nat) : Who := { asHearth s h tag with bucket := true }

/-- Writes rows of records, stopping at the first memory error. -/
def State.bsstRows (s : State) (h tag off : Nat) : List Slot → State × Nat
  | [] => (s, 0)
  | sl :: rest =>
    let bs := (List.range 64).flatMap fun c => (sl.elem c).record sl.mode
    andWrite (s.writeMem (asBucket s h tag) (hearthAddr h + off) bs) fun s => State.bsstRows s h tag (off + bsRowBytes) rest

/-- The checks of BSST (R145, R620). -/
def State.bsstCheck (s : State) (h : Nat) (w : BitVec 128) : Checked Unit := do
  let off := 64 * wf w 62 17
  checkSlots w false
  failIf (!s.bucketRange h off (bsRowBytes * rowsOf w)) arithDesc

/-- BSST (R144, R239). -/
def doBsst (h : Nat) (w : BitVec 128) (s : State) : State :=
  let (s, _) := s.issue h
  let e := embOf w
  let tag := tagOf w
  let off := 64 * wf w 62 17
  match s.bsstCheck h w with
  | .error c => s.embError h e c tag
  | .ok _ =>
    let em := s.ember (emberOf h w)
    let slots := (namedSlots w).map em.slot
    if slots.any fun sl => sl.elems.any fun p => p.2.outSum ≠ 0 then s.embError h e arithField tag
    else if s.slotsBad (emberOf h w) (namedSlots w) then (s.accumulatorUE h tag).embError h e memUE tag
    else
      let (s, c) := s.bsstRows h tag off slots
      if c ≠ 0 then s.embError h e c tag else s

/-- Adds one record into an element of a slot: into an EMPTY slot as an overwrite, and a record in mode EMPTY adds nothing
(R129, R132, R144). -/
def addRecord (spill : Bool) (rnd : RandomSource) (pos : Nat) (sl : Slot) (c : Nat) (ord : Nat) (mode : Mode) (src : Elem) :
    Slot × Fl × Nat :=
  if mode = .empty then (sl, 0, ord)
  else
    let dst : Win := ⟨sl.elem c, ord, 0⟩
    let r := addOutSum (.random rnd 0xFFFF pos) (bucketAdd spill mode (.random rnd 0xFFFF pos) dst src) src
    (sl.setElem c r.e, r.fl, r.ord)

/-- One row of records: its mode, the records' elements; a row whose records disagree in mode takes the first that is not
EMPTY, and the others clash. -/
def rowMode (rs : List (Mode × Elem)) : Mode := ((rs.find? fun r => r.1 != .empty).map (·.1)).getD .empty

/-- Adds a row of records into a slot, counting window raises: none on a mode clash. -/
def addRow (spill : Bool) (rnd : RandomSource) (row : Nat) (sl : Slot) (rs : List (Mode × Elem)) : Option (Slot × Fl × Nat) :=
  let mode := rowMode rs
  if mode = .empty then some (sl, 0, 0)
  else if (sl.mode != .empty && sl.mode != mode) || (rs.any fun r => r.1 != .empty && r.1 != mode) then none
  else if sl.mode == .empty then
    some (rs.zipIdx.foldl (fun (x : Slot) p =>
      x.setElem p.2 (if p.1.1 = .empty then Elem.fresh mode 47 else p.1.2)) { sl with mode := mode, elems := [] }, 0, 0)
  else
    some (rs.zipIdx.foldl (fun acc p =>
      let (sl', fl, n) := addRecord spill rnd (64 * row + p.2) acc.1 p.2 0 p.1.1 p.1.2
      (sl', acc.2.1 ||| fl, acc.2.2 + n)) (sl, 0, 0))

/-- Reads rows of records, stopping at the first memory error. -/
def State.readRecords (s : State) (h tag off : Nat) : Nat → State × Nat × List (List (Mode × Elem))
  | 0 => (s, 0, [])
  | n + 1 =>
    andRead (s.readMem (asBucket s h tag) (hearthAddr h + off) bsRowBytes) (fun c => (c, [])) fun s bs =>
      let row := (List.range 64).map fun i => elemOfRecord s.cfg.active.spill ((bs.drop (96 * i)).take 96)
      let r := State.readRecords s h tag (off + bsRowBytes) n
      (r.1, r.2.1, row :: r.2.2)

/-- The checks of BSADD (R145, R620). -/
def State.bsaddCheck (s : State) (h : Nat) (w : BitVec 128) : Checked Unit := do
  let off := 64 * wf w 62 17
  checkSlots w false
  failIf (!s.bucketRange h off (bsRowBytes * rowsOf w)) arithDesc

/-- BSADD (R129, R144, R623). A clash of any row fails the instruction before it changes a slot (R133). -/
def doBsadd (h : Nat) (w : BitVec 128) (s : State) : State :=
  let (s, _) := s.issue h
  let e := embOf w
  let tag := tagOf w
  let off := 64 * wf w 62 17
  match s.bsaddCheck h w with
  | .error c => s.embError h e c tag
  | .ok _ =>
    let (s, c, rows) := s.readRecords h tag off (rowsOf w)
    if c ≠ 0 then s.embError h e c tag
    else if s.slotsBad (emberOf h w) (namedSlots w) then (s.accumulatorUE h tag).embError h e memUE tag
    else
      let em := s.ember (emberOf h w)
      let new := rows.zipIdx.map fun p => (slotOf w + p.2, addRow s.cfg.active.spill s.random p.2 (em.slot (slotOf w + p.2)) p.1)
      if new.any fun p => p.2.isNone then (s.sticky (Reg.EMB_FLAGS_flags h e) fMODE).embError h e arithMode tag
      else
        let done := new.filterMap fun p => p.2.map fun x => (p.1, x)
        let s := s.putSlots (emberOf h w) (done.map fun p => (p.1, p.2.1))
        (s.sticky (Reg.EMB_FLAGS_flags h e) (done.foldl (fun f p => f ||| p.2.2.1) 0)).pmc 0x09 (kilnOf h)
          (done.foldl (fun n p => n + p.2.2.2) 0)

/-! ### KRED, RSTAT, HBAR, codebook build -/

/-- The embers of a mask in index order. -/
def maskEmbers (m : Nat) : List Nat := (List.range 8).filter (bit m)

/-- Adds the source slots of one row into the destination's element c, in ember order, ordinals counted through (R128,
R239, R623). -/
def kredElem (spill : Bool) (rnd : RandomSource) (mode : Mode) (pos c : Nat) (dst : Elem) (srcs : List Slot) : Win :=
  srcs.foldl (fun (w : Win) sl =>
    let src := sl.elem c
    addOutSum (.random rnd 0xFFFF pos) (bucketAdd spill mode (.random rnd 0xFFFF pos) w src) src) ⟨dst, 0, 0⟩

/-- The reduction of one row: none on a mode clash. An EMPTY source adds nothing; into an EMPTY destination the first source
that is not EMPTY is an overwrite (R132). Window raises are counted. -/
def kredRow (spill : Bool) (rnd : RandomSource) (row : Nat) (dst : Slot) (srcs : List Slot) : Option (Slot × Fl × Nat) :=
  let live := srcs.filter fun sl => sl.mode != .empty
  match live with
  | [] => some (dst, 0, 0)
  | s0 :: rest =>
    let mode := s0.mode
    if (live.any fun sl => sl.mode != mode) || (dst.mode != .empty && dst.mode != mode) then none
    else
      let (base, adds) := if dst.mode == .empty then ({ dst with mode := mode, elems := s0.elems }, rest) else (dst, live)
      some ((List.range 64).foldl (fun (acc : Slot × Fl × Nat) c =>
        let w := kredElem spill rnd mode (64 * row + c) c (acc.1.elem c) adds
        (acc.1.setElem c w.e, acc.2.1 ||| w.fl, acc.2.2 + w.ord)) (base, 0, 0))

/-- KRED (R128, R144, R152). -/
def doKred (h : Nat) (w : BitVec 128) (s : State) : State :=
  let (s, _) := s.issue h
  let tag := tagOf w
  match checkSlots w true with
  | .error c => s.hearthError h c tag
  | .ok _ =>
    match maskEmbers (maskOf w) with
    | [] => s
    | [_] => s
    | e0 :: es =>
      if (e0 :: es).any fun e => s.slotsBad (8 * h + e) (namedSlots w) then (s.accumulatorUE h tag).hearthError h memUE tag
      else
        let new := (List.range (rowsOf w)).map fun r =>
          let i := slotOf w + r
          (i, kredRow s.cfg.active.spill s.random r ((s.ember (8 * h + e0)).slot i) (es.map fun e => (s.ember (8 * h + e)).slot i))
        if new.any fun p => p.2.isNone then (s.sticky (Reg.EMB_FLAGS_flags h e0) fMODE).hearthError h arithMode tag
        else
          let done := new.filterMap fun p => p.2.map fun x => (p.1, x)
          let s := s.putSlots (8 * h + e0) (done.map fun p => (p.1, p.2.1))
          (s.sticky (Reg.EMB_FLAGS_flags h e0) (done.foldl (fun f p => f ||| p.2.2.1) 0)).pmc 0x09 (kilnOf h)
            (done.foldl (fun n p => n + p.2.2.2) 0)

/-- Writes statistics records one after another, stopping at the first memory error. -/
def State.writeStats (s : State) (h tag off : Nat) : List StatRec → State × Nat
  | [] => (s, 0)
  | r :: rest =>
    let (s, c) := s.hWrite h tag off r.bytes
    if c ≠ 0 then (s, c) else State.writeStats s h tag (off + 192) rest

/-- The checks of RSTAT (R620). -/
def rstatCheck (w : BitVec 128) : Checked Unit := do
  let off := 64 * wf w 79 17
  checkSlots w true
  failIf (decide (hearthBytes < off + 192 * rowsOf w)) arithDesc

/-- RSTAT (R144, R169, R619). -/
def doRstat (h : Nat) (w : BitVec 128) (s : State) : State :=
  let (s, _) := s.issue h
  let tag := tagOf w
  let off := 64 * wf w 79 17
  match rstatCheck w with
  | .error c => s.hearthError h c tag
  | .ok _ =>
    let es := maskEmbers (maskOf w)
    if es.any fun e => s.slotsBad (8 * h + e) (namedSlots w) then (s.accumulatorUE h tag).hearthError h memUE tag
    else
      let rows := (namedSlots w).map fun i => es.map fun e => ((s.ember (8 * h + e)).slot i).stats
      let out := rows.map fun rs => (kindOf rs).map fun k => combineStats k rs
      if out.any Option.isNone then s.hearthError h arithField tag
      else
        let recs := out.filterMap id
        let (s, c) := s.writeStats h tag off recs
        let s := if recs.any (·.vclamp) then s.sticky (Reg.EMB_OFLAGS_flags h (es.headD 0)) fVCLAMP else s
        if c ≠ 0 then s.hearthError h c tag else s

/-- Ends every codebook group with rows and makes built codebooks live (R242, R243). -/
def State.swapBooks (s : State) (h : Nat) : State :=
  let pending := (s.hearth h).hist.filter fun p => p.2.rows ≠ 0
  let s := pending.foldl (fun t p => t.buildBook h p.1) s
  let s := (s.hearth h).built.foldl (fun t slot => t.setTable h kindBook slot (t.table h kindBook slot).swap) s
  let x := s.hearth h
  s.setHearth h { x with built := [] }

/-- HBAR (R153, R242): earlier instructions have finished, so the barrier completes at once. -/
def doHbar (h : Nat) (w : BitVec 128) (s : State) : State :=
  let (s, _) := s.issue h
  if reservedSet w [] || embOf w ≠ 0 then s.hearthError h arithField (tagOf w) else s.swapBooks h

/-- A reserved opcode below 0x40 (R137): ARITH_OPCODE, recorded for the ember that EMB names. -/
def doReserved (h : Nat) (w : BitVec 128) (s : State) : State :=
  let (s, _) := s.issue h
  s.embError h (embOf w) arithOpcode (tagOf w)

/-- Runs an instruction as a command when the word holds its opcode and the hearth issues; otherwise nothing happens. -/
def runWord (opc : Nat) (f : Nat → BitVec 128 → State → State) (h : Fin 384) (w : BitVec 128) (s : State) :
    Host.Outcome State Fault Refusal :=
  if opcodeOf w = opc && s.hearthRuns h then .next (f h w s) else .next s

/-- MMA. -/
def execMma (h : Fin 384) (w : BitVec 128) (s : State) : Host.Outcome State Fault Refusal := runWord 0x01 doMma h w s
/-- OUT. -/
def execOut (h : Fin 384) (w : BitVec 128) (s : State) : Host.Outcome State Fault Refusal := runWord 0x02 doOut h w s
/-- CLR. -/
def execClr (h : Fin 384) (w : BitVec 128) (s : State) : Host.Outcome State Fault Refusal := runWord 0x03 doClr h w s
/-- BSST. -/
def execBsst (h : Fin 384) (w : BitVec 128) (s : State) : Host.Outcome State Fault Refusal := runWord 0x04 doBsst h w s
/-- BSADD. -/
def execBsadd (h : Fin 384) (w : BitVec 128) (s : State) : Host.Outcome State Fault Refusal := runWord 0x05 doBsadd h w s
/-- KRED. -/
def execKred (h : Fin 384) (w : BitVec 128) (s : State) : Host.Outcome State Fault Refusal := runWord 0x20 doKred h w s
/-- RSTAT. -/
def execRstat (h : Fin 384) (w : BitVec 128) (s : State) : Host.Outcome State Fault Refusal := runWord 0x21 doRstat h w s
/-- HBAR. -/
def execHbar (h : Fin 384) (w : BitVec 128) (s : State) : Host.Outcome State Fault Refusal := runWord 0x22 doHbar h w s

/-- CODEBOOK_BUILD (R242): a group of 256 rows has ended. -/
def execCodebookBuild (h : Fin 384) (slot : Fin 64) (s : State) : Host.Outcome State Fault Refusal :=
  if 256 ≤ (sget (⟨[], 0⟩ : Histogram) (s.hearth h).hist slot).rows && s.hearthRuns h then .next (s.buildBook h slot) else .next s

end Sys2Proof.Machine
end

