-- ==== Sys2Proof/Machine/Ieee.lean ====
section
/-! DEFINITION. binary32 arithmetic of the vector engine (R75-R78, R187, R617, R618): add, multiply, fused multiply-add,
divide, square root, minimum, maximum and comparison, each with its sticky flags and IEEE status bits. -/

namespace Sys2Proof.Machine

/-- Flush-to-zero of an input (R78). -/
def ftzIn (ftz : Bool) (c : Nat) : Nat × Fl :=
  if ftz && bin32.isSub c then (c - c % 2 ^ 31, fFLUSH) else (c, 0)

/-- Flush-to-zero of a result (R78): also IX, UFL and INX. -/
def ftzOut (ftz : Bool) (r : Conv) : Conv :=
  if ftz && bin32.isSub r.code then ⟨r.code - r.code % 2 ^ 31, r.fl ||| fFLUSH ||| fIX, r.ie ||| ieUFL ||| ieINX⟩ else r

/-- A quiet NaN with the payload of a NaN operand (R77). -/
def quiet (c : Nat) : Nat := c ||| 0x400000

/-- The NaN result of an operation with NaN operands, in operand order: none when no operand is NaN (R76, R77). -/
def nanResult (ops : List Nat) : Option Conv :=
  match ops.find? bin32.isNaN with
  | none => none
  | some c => some ⟨quiet c, fNV, ieIf (ops.any bin32.isSNaN) ieIV⟩

/-- The result of an invalid operation (R77). -/
def invalidOp : Conv := ⟨bin32.qnan, fNV, ieIV⟩

/-- Sign bit of a result. -/
def signOf (neg : Bool) : Nat := if neg then 2 ^ 31 else 0

/-- The infinity of a sign. -/
def inf32 (neg : Bool) : Nat := 0x7F800000 + signOf neg

/-- Whether a code is an infinity. -/
def isInf32 (c : Nat) : Bool := bin32.mag c == bin32.infCode

/-- A finite code as an integer times a power of two; zero has the integer 0. -/
def parts32 (c : Nat) : Nat × Int :=
  match bin32.num c with
  | .fin _ m e _ => (m, e)
  | _ => (0, 0)

/-- An exact finite sum rounded once. `n1`, `n2` are the signs of the terms, which decide the sign of a zero sum. -/
def roundSum (mode : Rnd) (u : Nat) (n1 : Bool) (m1 : Nat) (e1 : Int) (n2 : Bool) (m2 : Nat) (e2 : Int) : Conv :=
  let e := if e1 < e2 then e1 else e2
  let a : Int := (m1 * 2 ^ (e1 - e).toNat : Nat)
  let b : Int := (m2 * 2 ^ (e2 - e).toNat : Nat)
  let z := (if n1 then -a else a) + (if n2 then -b else b)
  if z = 0 then ⟨signOf (if n1 = n2 then n1 else mode == .rd), 0, 0⟩
  else roundBin bin32 mode u 0 (decide (z < 0)) ⟨z.natAbs, e, false⟩

/-- A + B. -/
def fadd32 (mode : Rnd) (u a b : Nat) : Conv :=
  match nanResult [a, b] with
  | some r => r
  | none =>
    let na := bin32.isNeg a
    let nb := bin32.isNeg b
    if isInf32 a && isInf32 b then (if na = nb then ⟨a, 0, 0⟩ else invalidOp)
    else if isInf32 a then ⟨a, 0, 0⟩
    else if isInf32 b then ⟨b, 0, 0⟩
    else roundSum mode u na (parts32 a).1 (parts32 a).2 nb (parts32 b).1 (parts32 b).2

/-- The code with its sign inverted; a NaN operand of a subtraction keeps its bits, so the sign is inverted only where the
operation is not decided by a NaN. -/
def neg32 (c : Nat) : Nat := c ^^^ 2 ^ 31

/-- A − B. -/
def fsub32 (mode : Rnd) (u a b : Nat) : Conv :=
  match nanResult [a, b] with
  | some r => r
  | none => fadd32 mode u a (neg32 b)

/-- A × B. -/
def fmul32 (mode : Rnd) (u a b : Nat) : Conv :=
  match nanResult [a, b] with
  | some r => r
  | none =>
    let neg := bin32.isNeg a != bin32.isNeg b
    let (ma, ea) := parts32 a
    let (mb, eb) := parts32 b
    if isInf32 a || isInf32 b then
      if (!isInf32 a && ma == 0) || (!isInf32 b && mb == 0) then invalidOp else ⟨inf32 neg, 0, 0⟩
    else if ma * mb = 0 then ⟨signOf neg, 0, 0⟩
    else roundBin bin32 mode u 0 neg ⟨ma * mb, ea + eb, false⟩

/-- A × B + C with one rounding. Zero times infinity with a quiet NaN as C gives that NaN, with IV (R187). -/
def ffma32 (mode : Rnd) (u a b c : Nat) : Conv :=
  let (ma, ea) := parts32 a
  let (mb, eb) := parts32 b
  let anyNaN := bin32.isNaN a || bin32.isNaN b
  let zeroInf := !anyNaN && ((isInf32 a && !isInf32 b && mb == 0) || (isInf32 b && !isInf32 a && ma == 0))
  match nanResult [a, b, c] with
  | some r => { r with ie := r.ie ||| ieIf zeroInf ieIV }
  | none =>
    let neg := bin32.isNeg a != bin32.isNeg b
    let nc := bin32.isNeg c
    if zeroInf then invalidOp
    else if isInf32 a || isInf32 b then (if isInf32 c && nc != neg then invalidOp else ⟨inf32 neg, 0, 0⟩)
    else if isInf32 c then ⟨c, 0, 0⟩
    else roundSum mode u neg (ma * mb) (ea + eb) nc (parts32 c).1 (parts32 c).2

/-- Bits by which a dividend is widened, so that every quotient and root keeps all the bits that a rounding looks at. -/
def wideBits : Nat := 512

/-- A / B. -/
def fdiv32 (mode : Rnd) (u a b : Nat) : Conv :=
  match nanResult [a, b] with
  | some r => r
  | none =>
    let neg := bin32.isNeg a != bin32.isNeg b
    let (ma, ea) := parts32 a
    let (mb, eb) := parts32 b
    if isInf32 a then (if isInf32 b then invalidOp else ⟨inf32 neg, 0, 0⟩)
    else if isInf32 b then ⟨signOf neg, 0, 0⟩
    else if mb = 0 then (if ma = 0 then invalidOp else ⟨inf32 neg, 0, ieDZ⟩)
    else if ma = 0 then ⟨signOf neg, 0, 0⟩
    else
      let n := ma * 2 ^ wideBits
      roundBin bin32 mode u 0 neg ⟨n / mb, ea - eb - wideBits, decide (n % mb ≠ 0)⟩

/-- A square root as an integer times a power of two, of m × 2^e. -/
def sqrtLin (m : Nat) (e : Int) : Lin :=
  let m' := if e.emod 2 = 0 then m else 2 * m
  let e' := if e.emod 2 = 0 then e else e - 1
  let n := m' * 2 ^ (2 * wideBits)
  let r := isqrt n
  ⟨r, e' / 2 - wideBits, decide (r * r ≠ n)⟩

/-- √A. -/
def fsqrt32 (mode : Rnd) (u a : Nat) : Conv :=
  match nanResult [a] with
  | some r => r
  | none =>
    let (m, e) := parts32 a
    if m = 0 && !isInf32 a then ⟨a, 0, 0⟩
    else if bin32.isNeg a then invalidOp
    else if isInf32 a then ⟨a, 0, 0⟩
    else roundBin bin32 mode u 0 false (sqrtLin m e)

/-- A total order of codes that are not NaN, with −0 below +0. -/
def order32 (c : Nat) : Int := if bin32.isNeg c then -(bin32.mag c : Int) - 1 else bin32.mag c

/-- minimumNumber and maximumNumber of IEEE 754-2019. -/
def fminmax32 (maximum : Bool) (a b : Nat) : Conv :=
  let flags : Conv → Conv := fun r =>
    { r with fl := flagIf (bin32.isNaN a || bin32.isNaN b) fNV, ie := ieIf (bin32.isSNaN a || bin32.isSNaN b) ieIV }
  flags (if bin32.isNaN a && bin32.isNaN b then ⟨quiet a, 0, 0⟩
    else if bin32.isNaN a then ⟨b, 0, 0⟩
    else if bin32.isNaN b then ⟨a, 0, 0⟩
    else if (order32 a ≤ order32 b) != maximum then ⟨a, 0, 0⟩ else ⟨b, 0, 0⟩)

/-- The value of a code for comparison: both zeros are equal. -/
def key32 (c : Nat) : Int := if bin32.isNeg c then -(bin32.mag c : Int) else bin32.mag c

/-- The predicates of R618: the result 1 or 0 with flags. -/
def fcmp32 (pred a b : Nat) : Conv :=
  let un := bin32.isNaN a || bin32.isNaN b
  let lt := decide (key32 a < key32 b)
  let eq := decide (key32 a = key32 b)
  let holds : Bool := match pred with
    | 0 => !un && eq
    | 1 => !un && lt
    | 2 => !un && (lt || eq)
    | 3 => un
    | 4 => un || !eq
    | 5 => !un && !lt
    | 6 => !un && !lt && !eq
    | _ => !un
  let signalling := pred = 1 || pred = 2 || pred = 5 || pred = 6
  ⟨holds.toNat, flagIf un fNV, ieIf ((signalling && un) || bin32.isSNaN a || bin32.isSNaN b) ieIV⟩

/-- An operation over operands with flush-to-zero of inputs and result (R78). -/
def withFtz (ftz : Bool) (op : List Nat → Conv) (ops : List Nat) : Conv :=
  let ins := ops.map (ftzIn ftz)
  let r := ftzOut ftz (op (ins.map (·.1)))
  { r with fl := ins.foldl (fun f p => f ||| p.2) r.fl }

end Sys2Proof.Machine
end

