-- ==== Sys2Proof/Machine/VecOps.lean ====
section
/-! DEFINITION. What every vector instruction shares (R177-R184, R219-R222): fields, lane formats, issue checks in the order
of R622, conversions between lane and storage formats (R191), lane registers, flags and errors. -/

namespace Sys2Proof.Machine

/-! ### Fields (R179) -/

/-- FMT. -/
def vFmt (w : BitVec 128) : Nat := wf w 6 4
/-- FMT2. -/
def vFmt2 (w : BitVec 128) : Nat := wf w 10 4
/-- RND. -/
def vRnd (w : BitVec 128) : Nat := wf w 14 3
/-- CLIP. -/
def vClip (w : BitVec 128) : Bool := wf w 17 1 = 1
/-- DST. -/
def vDst (w : BitVec 128) : Nat := wf w 18 5
/-- SRCA. -/
def vA (w : BitVec 128) : Nat := wf w 23 5
/-- SRCB. -/
def vB (w : BitVec 128) : Nat := wf w 28 5
/-- SRCC. -/
def vC (w : BitVec 128) : Nat := wf w 33 5
/-- VL. -/
def vLen (w : BitVec 128) : Nat := wf w 38 11
/-- SITE. -/
def vSite (w : BitVec 128) : BitVec 16 := BitVec.ofNat 16 (wf w 49 16)
/-- FUNC. -/
def vFunc (w : BitVec 128) : Nat := wf w 65 5
/-- MAXSUB. -/
def vMaxsub (w : BitVec 128) : Bool := wf w 70 1 = 1
/-- ADDR as a byte offset. -/
def vAddr (w : BitVec 128) : Nat := 64 * wf w 71 17
/-- PARAM. -/
def vParam (w : BitVec 128) : Nat := wf w 88 16

/-- The fields that an opcode uses (R621), by opcode and, for CVT, FUNC. -/
def vFields (opc func : Nat) : List (Nat × Nat) :=
  let fmts := [(6, 4), (10, 4)]
  let rnd := [(14, 3), (49, 16)]
  let clip := [(17, 1)]
  let d := [(18, 5)]
  let a := [(23, 5)]
  let b := [(28, 5)]
  let c := [(33, 5)]
  let vl := [(38, 11)]
  let fn := [(65, 5)]
  let addr := [(71, 17)]
  let par := [(88, 16)]
  match opc with
  | 0x40 => fmts ++ rnd ++ clip ++ d ++ vl ++ addr ++ par
  | 0x41 => fmts ++ rnd ++ clip ++ a ++ vl ++ addr ++ par
  | 0x42 => fmts ++ rnd ++ clip ++ d ++ b ++ vl ++ addr ++ par
  | 0x43 => fmts ++ rnd ++ clip ++ a ++ b ++ vl ++ addr ++ par
  | 0x44 => fmts ++ rnd ++ clip ++ d ++ vl ++ par
  | 0x48 | 0x49 | 0x4A | 0x4E => fmts ++ rnd ++ d ++ a ++ b ++ vl
  | 0x4B => fmts ++ rnd ++ d ++ a ++ b ++ c ++ vl
  | 0x4F => fmts ++ rnd ++ d ++ a ++ vl
  | 0x4C | 0x4D => fmts ++ d ++ a ++ b ++ vl
  | 0x50 => fmts ++ d ++ a ++ b ++ vl ++ par
  | 0x51 => fmts ++ d ++ a ++ b ++ c ++ vl
  | 0x54 | 0x55 | 0x56 => fmts ++ rnd ++ d ++ a ++ b ++ vl
  | 0x58 | 0x59 | 0x5A => fmts ++ d ++ a ++ b ++ vl
  | 0x5B => fmts ++ d ++ a ++ b ++ vl ++ par
  | 0x5C => fmts ++ d ++ a ++ vl ++ par
  | 0x5E =>
    match func with
    | 1 => fmts ++ d ++ a ++ b ++ vl ++ [(49, 16)] ++ fn ++ par
    | 2 => fmts ++ d ++ a ++ b ++ vl ++ [(49, 16)] ++ fn
    | _ => fmts ++ rnd ++ clip ++ d ++ a ++ vl ++ fn
  | 0x60 => fmts ++ rnd ++ d ++ a ++ vl ++ fn
  | 0x61 => fmts ++ rnd ++ clip ++ d ++ a ++ vl ++ par
  | 0x68 => fmts ++ rnd ++ clip ++ d ++ a ++ b ++ c ++ vl ++ fn ++ addr ++ par
  | 0x69 => addr ++ par
  | 0x6A => fmts ++ rnd ++ clip ++ d ++ a ++ vl ++ [(70, 1)] ++ addr ++ par
  | _ => []

/-! ### Lane formats (R178) -/

/-- A lane format: a number format of R63, or the lane integer (none). -/
abbrev LaneFmt := Option Fmt

/-- The lane format of a code; other codes name none. -/
def laneOf : Nat → Option LaneFmt
  | 0 => some (some .gl16)
  | 1 => some (some .gl8)
  | 2 => some (some .gl4)
  | 4 => some (some .bf32)
  | 7 => some none
  | 8 => some none
  | _ => none

/-- Whether a format is bfloat16 or binary16. -/
def isHalf (f : Fmt) : Bool := f == .bf16b || f == .bf16h

/-- Whether a lane format may meet bfloat16 and binary16 in storage (R79, R191). -/
def meetsHalf (l : LaneFmt) : Bool := l == some .gl16 || l == some .bf32

/-- Whether a rounding mode may convert to a lane or storage format (R89). -/
def allowsLane (r : Rnd) (l : LaneFmt) : Bool :=
  match l with
  | some f => r.allows f
  | none => !(r == .ru || r == .rd)

/-- A value in a lane or storage format: the code with flags, under flush-to-zero for binary32. -/
def toLane (ftz : Bool) (x : CvtCtx) (l : LaneFmt) (n : Num) : Conv :=
  match l with
  | some .bf32 => ftzOut ftz (toBin bin32 x.mode x.u x.eps n)
  | some f => f.ofNum x n
  | none =>
    let (z, fl) := toIntRange (-(2 ^ 31 : Nat)) (2 ^ 31 - 1 : Nat) x.mode x.u x.eps n
    ⟨unsignedOf 32 z, fl, 0⟩

/-- The value of a code in a lane or storage format. -/
def laneNum (book : List Byte) (l : LaneFmt) (c : Nat) : Num :=
  match l with
  | some f => f.num book c
  | none => .ofInt (signedOf 32 c) 0

/-- Conversion between lane and storage formats (R96, R100, R191). -/
def vconvert (ftz : Bool) (x : CvtCtx) (book : List Byte) (src tgt : LaneFmt) (c : Nat) : Conv :=
  let (c, fl) := if src = some .bf32 then ftzIn ftz c else (c, 0)
  let r : Conv := match src, tgt with
    | some a, some b =>
      let r := cvtValue x book a b c
      if b = .bf32 then ftzOut ftz r else r
    | some a, none =>
      let r := toLane ftz x none (a.num book c)
      { r with ie := match a.bin? with
        | some f => ieIf (f.isSNaN c) ieIV
        | none => 0 }
    | none, t => toLane ftz x t (laneNum book none c)
  { r with fl := r.fl ||| fl }

/-- As vconvert, but a code moves unchanged between equal formats (R76). -/
def vcvt (ftz : Bool) (x : CvtCtx) (book : List Byte) (src tgt : LaneFmt) (c : Nat) : Conv :=
  if src = tgt then ⟨c % 2 ^ src.elim 32 Fmt.bits, 0, 0⟩ else vconvert ftz x book src tgt c

/-! ### Issue checks (R622) -/

/-- Steps 2 to 5 of R622. `fmts` is the opcode's rule for FMT and FMT2; `target` the format that RND rounds to. -/
def vCheck (w : BitVec 128) (fmts : Bool) (target : LaneFmt) : Checked Rnd := do
  let opc := opcodeOf w
  failIf (reservedSet w (vFields opc (vFunc w)) || embOf w != 0) arithField
  failIf (opc != 0x69 && (vLen w = 0 || decide (1024 < vLen w))) arithField
  failIf (!fmts) arithField
  let some r := Rnd.ofCode (vRnd w) | .error arithField
  failIf (!allowsLane r target) arithField
  .ok r

/-! ### Lanes, flags and errors -/

/-- Lane i of register r (R177). -/
def State.lane (s : State) (h r i : Nat) : Nat := (sget (0 : BitVec 32) (s.hearth h).lanes (r * 1024 + i)).toNat

/-- Stores codes into lanes 0, 1, … of a register; lanes beyond keep their values (R181). -/
def State.setLanes (s : State) (h r : Nat) (codes : List Nat) : State :=
  let x := s.hearth h
  s.setHearth h { x with
    lanes := codes.zipIdx.foldl (fun m p => sset (0 : BitVec 32) m (r * 1024 + p.2) (BitVec.ofNat 32 p.1)) x.lanes }

/-- Flush-to-zero (R78). -/
def State.ftz (s : State) (h : Nat) : Bool := s.isSet (Reg.HTH_VCTL_FTZ h)

/-- What a vector instruction computed: codes by lane, flags and status bits. -/
structure VOut where
  codes : List Nat
  fl    : Fl := 0
  ie    : Ie := 0
deriving DecidableEq, Repr

/-- Lane results together. -/
def VOut.ofConvs (rs : List Conv) : VOut :=
  ⟨rs.map (·.code), rs.foldl (fun f r => f ||| r.fl) 0, rs.foldl (fun f r => f ||| r.ie) 0⟩

/-- Sets the flags and status bits that a vector instruction left (R76, R220). -/
def State.vecFlags (s : State) (h : Nat) (fl : Fl) (ie : Ie) : State :=
  let s := s.sticky (Reg.HTH_VFLAGS_flags h) fl
  let put := fun (s : State) (b : Ie) (f : Fld) => if ie &&& b ≠ 0 then s.put f 1 else s
  let s := put s ieIV (Reg.HTH_VIEEE_IV h)
  let s := put s ieDZ (Reg.HTH_VIEEE_DZ h)
  let s := put s ieOFL (Reg.HTH_VIEEE_OFL h)
  let s := put s ieUFL (Reg.HTH_VIEEE_UFL h)
  put s ieINX (Reg.HTH_VIEEE_INX h)

/-- Completes a vector instruction of n elements with flags. -/
def State.vecEnd (s : State) (h n : Nat) (fl : Fl) (ie : Ie) : State :=
  (s.vecFlags h fl ie).bump (Reg.HTH_VOPS_COUNT h) n

/-- Completes a vector instruction that writes DST. -/
def State.vecDone (s : State) (h : Nat) (w : BitVec 128) (o : VOut) : State :=
  (s.setLanes h (vDst w) o.codes).vecEnd h o.codes.length o.fl o.ie

/-- A failed vector instruction (R219). -/
def State.vecError (s : State) (h code : Nat) (w : BitVec 128) : State :=
  (s.firstErr (Reg.HTH_VERR_VALID h) (Reg.HTH_VERR_CODE h) code [(Reg.HTH_VERR_TAG h, tagOf w)]).hearthError h code (tagOf w)

/-- Random bits of a lane (R182). -/
def State.vecRandom (s : State) (w : BitVec 128) (r : Rnd) (i : Nat) : Nat :=
  if r = .sr then roundingBits s.random (vSite w) i else 0

/-- The conversion context of lane i. -/
def State.vecCtx (s : State) (w : BitVec 128) (r : Rnd) (book : List Byte) (i : Nat) : CvtCtx :=
  { mode := r, clip := vClip w, u := s.vecRandom w r i, book := book }

/-- An instruction that computes DST from lane values: checks, then one result per lane. -/
def vecMap (h : Nat) (w : BitVec 128) (s : State) (check : Checked Rnd) (f : Rnd → Nat → Conv) : State :=
  let s := (s.issue h).1
  match check with
  | .error c => s.vecError h c w
  | .ok r => s.vecDone h w (.ofConvs ((List.range (vLen w)).map (f r)))

end Sys2Proof.Machine
end

