-- ==== Sys2Proof/Machine/Vector.lean ====
section
/-! DEFINITION. Vector loads, stores, gathers and scatters, element-wise arithmetic, conversion and random draws
(R180-R192, R443, R618). -/

namespace Sys2Proof.Machine

/-! ### Elements in hearth memory -/

/-- Bytes from one element's place to the next (in bits), and the place of element i. -/
def elemByte (base bits_ i : Nat) : Nat := base + i * bits_ / 8

/-- Reads elements one by one: codes by their indices, or the first memory error. -/
def State.readElems (s : State) (h tag base : Nat) (f : Fmt) : List Nat → State × Checked (List Nat)
  | [] => (s, .ok [])
  | i :: is =>
    let (s, c, bs) := s.hRead h tag (elemByte base f.bits i) (Nat.max 1 (f.bits / 8))
    if c ≠ 0 then (s, .error c)
    else
      let code := if f.bits = 4 then bits (fieldAt bs 0 1) (i % 2 * 4) 4 else leNat bs
      match State.readElems s h tag base f is with
      | (s, .error c) => (s, .error c)
      | (s, .ok cs) => (s, .ok (code :: cs))

/-- Writes elements one by one, a 4-bit one by reading its byte first. -/
def State.writeElems (s : State) (h tag base : Nat) (f : Fmt) : List (Nat × Nat) → State × Nat
  | [] => (s, 0)
  | (i, code) :: es =>
    let at_ := elemByte base f.bits i
    if f.bits = 4 then
      andRead (s.hRead h tag at_ 1) id fun s bs =>
        let old := fieldAt bs 0 1
        let new := if i % 2 = 0 then old / 16 * 16 + code % 16 else old % 16 + code % 16 * 16
        andWrite (s.hWrite h tag at_ (leBytes 1 new)) fun s => State.writeElems s h tag base f es
    else
      andWrite (s.hWrite h tag at_ (leBytes (f.bits / 8) code)) fun s => State.writeElems s h tag base f es

/-- The element stride of VLD and VST (R180). -/
def vStride (w : BitVec 128) : Nat := if vParam w = 0 then 1 else vParam w

/-- The element indices of a strided access. -/
def vIndices (w : BitVec 128) : List Nat := (List.range (vLen w)).map (· * vStride w)

/-- Whether the elements up to index i lie within hearth memory. -/
def elemsFit (base bits_ i : Nat) : Bool := decide (base + (i * bits_ + bits_ + 7) / 8 ≤ hearthBytes)

/-! ### Scaled tensors (R192) -/

/-- Blocks of a scaled tensor of VL elements. -/
def vBlocks (w : BitVec 128) : Nat := (vLen w + 31) / 32

/-- Where the scale records of a scaled tensor begin. -/
def vScaleAddr (w : BitVec 128) (f : Fmt) : Nat := (vAddr w + vBlocks w * 4 * f.bits + 63) / 64 * 64

/-- Whether a scaled tensor with its records lies within hearth memory. -/
def scaledFit (w : BitVec 128) (f : Fmt) : Bool :=
  let last := vBlocks w - 1
  let sa := vScaleAddr w f
  decide ((if f = .gl4 then sidecarAt sa last + 16 else recordAt f sa last + 4) ≤ hearthBytes)

/-- PARAM of a scaled load or store: bits that its format and opcode use, and OSPAN and C in range (R192). -/
def scaledParam (store : Bool) (f : Fmt) (p : Nat) : Bool :=
  let book := if f = .gl4c then 0x3F00 else 0
  let used := if !store then book else if f = .gl4 then 0x7F else book ||| 0x7
  p &&& (0xFFFF - used) = 0 &&
    (!(store && f == .gl4) || (decide (bits p 0 3 ≤ 6) && decide (1 ≤ bits p 3 3) && decide (bits p 3 3 ≤ 4)))

/-- Limits of a scaled store (R192). -/
def scaledLimits (f : Fmt) (p : Nat) : Limits :=
  ⟨if f = .gl4 then 0 else bits p 0 3, bits p 0 3, bits p 3 3, bit p 6⟩

/-- The value of an element of a loaded block (R234, R83). -/
def blockValue (f : Fmt) (book : List Byte) (b : Block) (pos c : Nat) : Num :=
  if b.zero then .zero
  else match b.outl.find? fun p => p.1 = pos with
    | some p => gl16Num p.2
    | none => (f.num book c).scale b.f

/-- Reads block k of a scaled tensor: the block and its data bytes, or the first failure (R232). -/
def State.readScaledBlock (s : State) (h tag base sa : Nat) (f : Fmt) (k : Nat) : State × Checked (Block × List Byte) :=
  andRead (s.hRead h tag (recordAt f sa k) 4) .error fun s record =>
    andRead (if f = .gl4 then s.hRead h tag (sidecarAt sa k) 16 else (s, 0, [])) .error fun s side =>
      andRead (s.hRead h tag (base + k * 4 * f.bits) (4 * f.bits)) .error fun s data =>
        (s, match blockOfRecord f k record side with
          | none => .error arithDesync
          | some x => .ok (x, data))

/-- Reads the blocks of a scaled tensor: values by element, or the first failure (R232). -/
def State.readScaled (s : State) (h tag base sa : Nat) (f : Fmt) (book : List Byte) (k : Nat) : Nat → State × Checked (List Num)
  | 0 => (s, .ok [])
  | n + 1 =>
    andChecked (s.readScaledBlock h tag base sa f k) fun s r =>
      andChecked (State.readScaled s h tag base sa f book (k + 1) n) fun s vs =>
        (s, .ok ((List.range 32).map (fun i => blockValue f book r.1 i (codeAt f r.2 i)) ++ vs))

/-- The codebook that a scaled access binds (R192, R243). -/
def State.vBook (s : State) (h : Nat) (w : BitVec 128) (f : Fmt) : List Byte :=
  if f = .gl4c then (s.table h kindBook (bits (vParam w) 8 6)).now else []

/-! ### VLD, VST, VGATH, VSCAT, VSPLAT -/

/-- The checks of VLD (R191, R192, R622). -/
def State.vldCheck (s : State) (h : Nat) (w : BitVec 128) : Checked (Rnd × LaneFmt × Fmt) := do
  let tgt := laneOf (vFmt w)
  let src := Fmt.ofCode (vFmt2 w)
  let ok := match tgt, src with
    | some l, some f => !isHalf f || meetsHalf l
    | _, _ => false
  let r ← vCheck w ok (tgt.getD none)
  let some l := tgt | .error arithField
  let some f := src | .error arithField
  if f.alwaysScaled then
    failIf (!scaledParam false f (vParam w)) arithField
    failIf (f == .gl4c && (s.vBook h w f).isEmpty) arithTable
    failIf (!scaledFit w f) arithDesc
  else failIf (!elemsFit (vAddr w) f.bits ((vLen w - 1) * vStride w)) arithDesc
  .ok (r, l, f)

/-- VLD (R180, R191, R192). -/
def doVld (h : Nat) (w : BitVec 128) (s : State) : State :=
  let s := (s.issue h).1
  let tag := tagOf w
  match s.vldCheck h w with
  | .error c => s.vecError h c w
  | .ok (r, l, f) =>
    let book := s.vBook h w f
    if f.alwaysScaled then
      match s.readScaled h tag (vAddr w) (vScaleAddr w f) f book 0 (vBlocks w) with
      | (s, .error c) =>
        let s := if c = arithDesync then s.sticky (Reg.HTH_VFLAGS_flags h) fDESYNC else s
        s.vecError h c w
      | (s, .ok vs) =>
        s.vecDone h w (.ofConvs ((vs.take (vLen w)).zipIdx.map fun p => toLane (s.ftz h) (s.vecCtx w r [] p.2) l p.1))
    else
      match s.readElems h tag (vAddr w) f (vIndices w) with
      | (s, .error c) => s.vecError h c w
      | (s, .ok cs) => s.vecDone h w (.ofConvs (cs.zipIdx.map fun p => vcvt (s.ftz h) (s.vecCtx w r [] p.2) [] (some f) l p.1))

/-- The conversion of a scaled store, as an output descriptor without the steps of the output stage. -/
def storeDesc (w : BitVec 128) (f : Fmt) (r : Rnd) (book : List Byte) : OutDesc :=
  { dst := 0, pitch := 0, fmt := f, rnd := r, clip := vClip w, act := 0, actParam := 0, bias := 0, rowScale := false
    stats := false, cb := 0, layer := 0, oscale := 0x4000, biasAddr := 0, scaleAddr := 0, statAddr := 0, clampLo := 0
    clampHi := 0, seq := 0, width := vLen w, book := book, pwl := [] }

/-- The blocks of a scaled store with the status bits of signalling NaN sources. -/
def State.storeBlocks (s : State) (h : Nat) (w : BitVec 128) (l : LaneFmt) (f : Fmt) (r : Rnd) : List OutBlock × Ie :=
  let d := storeDesc w f r (s.vBook h w f)
  let cols := (List.range (vLen w)).map fun i =>
    let c := s.lane h (vA w) i
    let (c, fl) := if l = some .bf32 then ftzIn (s.ftz h) c else (c, 0)
    (⟨⟨laneNum [] l c, fl⟩, s.vecRandom w r i, 0, []⟩ : Column)
  let ie := (List.range (vLen w)).any fun i => l == some .bf32 && bin32.isSNaN (s.lane h (vA w) i)
  (d.convertRow (scaledLimits f (vParam w)) cols, ieIf ie ieIV)

/-- The writes of a scaled store: the codes, then each block's record and, for GL4, its sidecar (R192, R230, R231). -/
def scaledWrites (w : BitVec 128) (f : Fmt) (blocks : List OutBlock) : List (Nat × List Byte) :=
  let sa := vScaleAddr w f
  (vAddr w, packCodes f (blocks.flatMap fun b => b.elems.map (·.code))) :: blocks.zipIdx.flatMap fun p =>
    (recordAt f sa p.2, leBytes 2 p.1.record ++ leBytes 2 p.2) ::
      (if f = .gl4 then [(sidecarAt sa p.2, patch p.1.side 12 (leBytes 2 p.2))] else [])

/-- The codes of a store without scales, lane by lane, with flags (R191). -/
def State.storeOut (s : State) (h : Nat) (w : BitVec 128) (l : LaneFmt) (f : Fmt) (r : Rnd) : VOut :=
  .ofConvs ((List.range (vLen w)).map fun i => vcvt (s.ftz h) (s.vecCtx w r [] i) [] l (some f) (s.lane h (vA w) i))

/-- The checks of VST (R191, R192, R622). -/
def State.vstCheck (s : State) (h : Nat) (w : BitVec 128) : Checked (Rnd × LaneFmt × Fmt) := do
  let tgt := Fmt.ofCode (vFmt w)
  let src := laneOf (vFmt2 w)
  let ok := match tgt, src with
    | some f, some l => f != .uint8 && (!isHalf f || meetsHalf l)
    | _, _ => false
  let r ← vCheck w ok tgt
  let some f := tgt | .error arithField
  let some l := src | .error arithField
  if f.alwaysScaled then
    failIf (!scaledParam true f (vParam w)) arithField
    failIf (f == .gl4c && (s.vBook h w f).isEmpty) arithTable
    failIf (!scaledFit w f) arithDesc
  else failIf (!elemsFit (vAddr w) f.bits ((vLen w - 1) * vStride w)) arithDesc
  .ok (r, l, f)

/-- VST (R180, R191, R192). -/
def doVst (h : Nat) (w : BitVec 128) (s : State) : State :=
  let s := (s.issue h).1
  let tag := tagOf w
  match s.vstCheck h w with
  | .error c => s.vecError h c w
  | .ok (r, l, f) =>
    if f.alwaysScaled then
      let p := s.storeBlocks h w l f r
      let fl := ((p.1.flatMap (·.elems)).take (vLen w)).foldl (fun a x => a ||| x.fl) 0
      orWrite (s.hWrites h tag (scaledWrites w f p.1)) (fun s c => s.vecError h c w) fun s => s.vecEnd h (vLen w) fl p.2
    else
      let o := s.storeOut h w l f r
      orWrite (s.writeElems h tag (vAddr w) f ((vIndices w).zip o.codes)) (fun s c => s.vecError h c w) fun s =>
        s.vecEnd h (vLen w) o.fl o.ie

/-- The array length of VGATH and VSCAT (R180). -/
def arrayLen (w : BitVec 128) : Nat := if vParam w = 0 then 65536 else vParam w

/-- The indices of VGATH and VSCAT, checked (R185). -/
def State.indices (s : State) (h : Nat) (w : BitVec 128) (f : Fmt) : Checked (List Nat) := do
  let is := (List.range (vLen w)).map fun i => s.lane h (vB w) i
  -- A negative index is at least 2^31 as a lane's bits, which no array reaches.
  failIf (is.any (fun i => decide (arrayLen w ≤ i)) || !elemsFit (vAddr w) f.bits (arrayLen w - 1)) arithDesc
  .ok is

/-- The checks of VGATH (R185, R191, R622). -/
def State.vgathCheck (s : State) (h : Nat) (w : BitVec 128) : Checked (Rnd × LaneFmt × Fmt × List Nat) := do
  let tgt := laneOf (vFmt w)
  let src := Fmt.ofCode (vFmt2 w)
  let ok := match tgt, src with
    | some l, some f => !f.alwaysScaled && (!isHalf f || meetsHalf l)
    | _, _ => false
  let r ← vCheck w ok (tgt.getD none)
  let some l := tgt | .error arithField
  let some f := src | .error arithField
  let is ← s.indices h w f
  .ok (r, l, f, is)

/-- VGATH (R185, R191). -/
def doVgath (h : Nat) (w : BitVec 128) (s : State) : State :=
  let s := (s.issue h).1
  match s.vgathCheck h w with
  | .error c => s.vecError h c w
  | .ok (r, l, f, is) =>
    match s.readElems h (tagOf w) (vAddr w) f is with
    | (s, .error c) => s.vecError h c w
    | (s, .ok cs) => s.vecDone h w (.ofConvs (cs.zipIdx.map fun p => vcvt (s.ftz h) (s.vecCtx w r [] p.2) [] (some f) l p.1))

/-- The checks of VSCAT (R185, R191, R622). -/
def State.vscatCheck (s : State) (h : Nat) (w : BitVec 128) : Checked (Rnd × LaneFmt × Fmt × List Nat) := do
  let tgt := Fmt.ofCode (vFmt w)
  let src := laneOf (vFmt2 w)
  let ok := match tgt, src with
    | some f, some l => !f.alwaysScaled && f != .uint8 && (!isHalf f || meetsHalf l)
    | _, _ => false
  let r ← vCheck w ok tgt
  let some f := tgt | .error arithField
  let some l := src | .error arithField
  let is ← s.indices h w f
  .ok (r, l, f, is)

/-- VSCAT (R185, R191): writes in lane order, so that the highest lane of an element stays. -/
def doVscat (h : Nat) (w : BitVec 128) (s : State) : State :=
  let s := (s.issue h).1
  match s.vscatCheck h w with
  | .error c => s.vecError h c w
  | .ok (r, l, f, is) =>
    let o := s.storeOut h w l f r
    orWrite (s.writeElems h (tagOf w) (vAddr w) f (is.zip o.codes)) (fun s c => s.vecError h c w) fun s =>
      s.vecEnd h (vLen w) o.fl o.ie

/-- VSPLAT (R180). -/
def doVsplat (h : Nat) (w : BitVec 128) (s : State) : State :=
  let l := laneOf (vFmt w)
  vecMap h w s (vCheck w (l.isSome && vFmt2 w = 0) (l.getD none)) fun r i =>
    vconvert (s.ftz h) (s.vecCtx w r [] i) [] (some .gl16) (l.getD none) (vParam w)

/-! ### binary32 -/

/-- The formats of an F-opcode (R181). -/
def bothBf32 (w : BitVec 128) : Bool := vFmt w = 4 && vFmt2 w = 4

/-- An F-opcode over the listed source registers. -/
def vecF (h : Nat) (w : BitVec 128) (s : State) (srcs : List Nat) (op : Rnd → Nat → List Nat → Conv) : State :=
  vecMap h w s (vCheck w (bothBf32 w) (some .bf32)) fun r i =>
    withFtz (s.ftz h) (op r (s.vecRandom w r i)) (srcs.map fun x => s.lane h x i)

/-- Operand i of a list. -/
def arg (l : List Nat) (i : Nat) : Nat := l.getD i 0

/-- FADD. -/
def doFadd (h : Nat) (w : BitVec 128) (s : State) : State :=
  vecF h w s [vA w, vB w] fun r u l => fadd32 r u (arg l 0) (arg l 1)
/-- FSUB. -/
def doFsub (h : Nat) (w : BitVec 128) (s : State) : State :=
  vecF h w s [vA w, vB w] fun r u l => fsub32 r u (arg l 0) (arg l 1)
/-- FMUL. -/
def doFmul (h : Nat) (w : BitVec 128) (s : State) : State :=
  vecF h w s [vA w, vB w] fun r u l => fmul32 r u (arg l 0) (arg l 1)
/-- FFMA. -/
def doFfma (h : Nat) (w : BitVec 128) (s : State) : State :=
  vecF h w s [vA w, vB w, vC w] fun r u l => ffma32 r u (arg l 0) (arg l 1) (arg l 2)
/-- FDIV. -/
def doFdiv (h : Nat) (w : BitVec 128) (s : State) : State :=
  vecF h w s [vA w, vB w] fun r u l => fdiv32 r u (arg l 0) (arg l 1)
/-- FSQRT. -/
def doFsqrt (h : Nat) (w : BitVec 128) (s : State) : State :=
  vecF h w s [vA w] fun r u l => fsqrt32 r u (arg l 0)
/-- FMIN. -/
def doFmin (h : Nat) (w : BitVec 128) (s : State) : State :=
  vecF h w s [vA w, vB w] fun _ _ l => fminmax32 false (arg l 0) (arg l 1)
/-- FMAX. -/
def doFmax (h : Nat) (w : BitVec 128) (s : State) : State :=
  vecF h w s [vA w, vB w] fun _ _ l => fminmax32 true (arg l 0) (arg l 1)

/-- The checks of FCMP (R618, R622). -/
def fcmpCheck (w : BitVec 128) : Checked Rnd := do
  let r ← vCheck w (laneOf (vFmt w) = some none && vFmt2 w = 4) none
  failIf (decide (8 ≤ vParam w)) arithField
  .ok r

/-- FCMP (R618). Its result is an integer, which flush-to-zero leaves alone. -/
def doFcmp (h : Nat) (w : BitVec 128) (s : State) : State :=
  vecMap h w s (fcmpCheck w) fun _ i =>
    let a := ftzIn (s.ftz h) (s.lane h (vA w) i)
    let b := ftzIn (s.ftz h) (s.lane h (vB w) i)
    let r := fcmp32 (vParam w) a.1 b.1
    { r with fl := r.fl ||| a.2 ||| b.2 }

/-- SEL. -/
def doSel (h : Nat) (w : BitVec 128) (s : State) : State :=
  let ok := (laneOf (vFmt w)).isSome && laneOf (vFmt w) = laneOf (vFmt2 w)
  vecMap h w s (vCheck w ok none) fun _ i =>
    ⟨if s.lane h (vC w) i ≠ 0 then s.lane h (vA w) i else s.lane h (vB w) i, 0, 0⟩

/-! ### Grendy arithmetic (R188, R189) -/

/-- A Grendy lane format. -/
def glLane (c : Nat) : Option Fmt :=
  match c with
  | 0 => some .gl16
  | 1 => some .gl8
  | 2 => some .gl4
  | _ => none

/-- Product of two values by their logarithms; the flag is an invalid operation. -/
def glMulNum (a b : Num) : Num :=
  match a, b with
  | .nan, _ => .nan
  | _, .nan => .nan
  | .inf _, .zero => .nan
  | .zero, .inf _ => .nan
  | .zero, _ => .zero
  | _, .zero => .zero
  | .inf x, .inf y => .inf (x != y)
  | .inf x, .fin y _ _ _ => .inf (x != y)
  | .fin x _ _ _, .inf y => .inf (x != y)
  | .fin x m e q, .fin y m' e' q' => .fin (x != y) (m * m') (e + e' + ((q + q') / 128 : Nat)) ((q + q') % 128)

/-- A value with its significand rounded RN to 64 bits (R189). -/
def to64 : Num → Num
  | .fin neg m e q => (round64 neg (linOf m e q)).1
  | x => x

/-- Sum of two values as GADD forms it. -/
def glAddNum (a b : Num) : Num := ((to64 a).add (to64 b)).1

/-- A G-opcode. -/
def vecG (h : Nat) (w : BitVec 128) (s : State) (op : Num → Num → Num) : State :=
  let tgt := glLane (vFmt w)
  let src := glLane (vFmt2 w)
  vecMap h w s (vCheck w (tgt.isSome && src.isSome) tgt) fun r i =>
    let f := src.getD .gl16
    glResult (tgt.getD .gl16) r (s.vecRandom w r i) (op (f.num [] (s.lane h (vA w) i)) (f.num [] (s.lane h (vB w) i)))

/-- GMUL. -/
def doGmul (h : Nat) (w : BitVec 128) (s : State) : State := vecG h w s glMulNum
/-- GADD. -/
def doGadd (h : Nat) (w : BitVec 128) (s : State) : State := vecG h w s glAddNum
/-- GSUB. -/
def doGsub (h : Nat) (w : BitVec 128) (s : State) : State := vecG h w s fun a b => glAddNum a b.neg

/-! ### Lane integers (R190) -/

/-- An integer saturated to 32 bits. -/
def satInt (z : Int) : Conv :=
  let r := toIntRange (-(2 ^ 31 : Nat)) (2 ^ 31 - 1 : Nat) .rz 0 0 (.ofInt z 0)
  ⟨unsignedOf 32 r.1, r.2 &&& fSAT, 0⟩

/-- Both formats are the lane integer. -/
def bothInt (w : BitVec 128) : Bool := laneOf (vFmt w) = some none && laneOf (vFmt2 w) = some none

/-- An I-opcode on signed lanes. -/
def vecI (h : Nat) (w : BitVec 128) (s : State) (op : Int → Int → Int) : State :=
  vecMap h w s (vCheck w (bothInt w) none) fun _ i => satInt (op (signedOf 32 (s.lane h (vA w) i)) (signedOf 32 (s.lane h (vB w) i)))

/-- IADD. -/
def doIadd (h : Nat) (w : BitVec 128) (s : State) : State := vecI h w s fun a b => a + b
/-- ISUB. -/
def doIsub (h : Nat) (w : BitVec 128) (s : State) : State := vecI h w s fun a b => a - b
/-- IMUL. -/
def doImul (h : Nat) (w : BitVec 128) (s : State) : State := vecI h w s fun a b => a * b

/-- The checks of ILOG (R190, R622). -/
def ilogCheck (w : BitVec 128) : Checked Rnd := do
  let r ← vCheck w (bothInt w) none
  failIf (decide (3 ≤ vParam w)) arithField
  .ok r

/-- ILOG. -/
def doIlog (h : Nat) (w : BitVec 128) (s : State) : State :=
  vecMap h w s (ilogCheck w) fun _ i =>
    let a := s.lane h (vA w) i
    let b := s.lane h (vB w) i
    ⟨match vParam w with
      | 0 => a &&& b
      | 1 => a ||| b
      | _ => a ^^^ b, 0, 0⟩

/-- The checks of ISHF (R190, R622). -/
def ishfCheck (w : BitVec 128) : Checked Rnd := do
  let p := vParam w
  let r ← vCheck w (bothInt w) none
  failIf (bit p 6 || decide (256 ≤ p)) arithField
  .ok r

/-- ISHF: shifts of 32 or more give 0 to the left and the sign fill to the right. -/
def doIshf (h : Nat) (w : BitVec 128) (s : State) : State :=
  let p := vParam w
  vecMap h w s (ishfCheck w) fun _ i =>
    let a := s.lane h (vA w) i
    ⟨if bit p 7 then unsignedOf 32 ((signedOf 32 a).fdiv (2 ^ (p % 64) : Nat)) else a * 2 ^ (p % 64) % 2 ^ 32, 0, 0⟩

/-! ### CVT, DRAW, RAND -/

/-- The checks of CVT (R443, R622). -/
def cvtCheck (w : BitVec 128) : Checked Rnd := do
  let tgt := laneOf (vFmt w)
  let src := laneOf (vFmt2 w)
  let r ← vCheck w (tgt.isSome && src.isSome) (tgt.getD none)
  failIf (vFunc w ≠ 0) arithField
  .ok r

/-- CVT with FUNC 0; other functions than 1 and 2 fail (R443). -/
def doCvt (h : Nat) (w : BitVec 128) (s : State) : State :=
  let tgt := laneOf (vFmt w)
  let src := laneOf (vFmt2 w)
  vecMap h w s (cvtCheck w) fun r i =>
    vconvert (s.ftz h) (s.vecCtx w r [] i) [] (src.getD none) (tgt.getD none) (s.lane h (vA w) i)

/-- Word 0 of a stream at the element index SRCB[i]:SRCA[i] (R443). -/
def State.drawWord (s : State) (h : Nat) (w : BitVec 128) (cls : BitVec 16) (i : Nat) : Nat :=
  let idx := 2 ^ 32 * s.lane h (vB w) i + s.lane h (vA w) i
  let r := s.random
  ((philox r.seed r.step cls (vSite w) (BitVec.ofNat 64 idx)).word 0).toNat

/-- DRAW (R443): in EVAL_RUN every lane is 1. -/
def doDraw (h : Nat) (w : BitVec 128) (s : State) : State :=
  vecMap h w s (vCheck w (bothInt w) none) fun _ i =>
    ⟨if s.evaluating then 1 else if s.drawWord h w classDropout i < vParam w * 2 ^ 16 then 0 else 1, 0, 0⟩

/-- RAND (R443). -/
def doRand (h : Nat) (w : BitVec 128) (s : State) : State :=
  vecMap h w s (vCheck w (bothInt w) none) fun _ i => ⟨s.drawWord h w classUser i, 0, 0⟩

/-! ### Commands -/

/-- VLD. -/
def execVld (h : Fin 384) (w : BitVec 128) (s : State) : Host.Outcome State Fault Refusal := runWord 0x40 doVld h w s
/-- VST. -/
def execVst (h : Fin 384) (w : BitVec 128) (s : State) : Host.Outcome State Fault Refusal := runWord 0x41 doVst h w s
/-- VGATH. -/
def execVgath (h : Fin 384) (w : BitVec 128) (s : State) : Host.Outcome State Fault Refusal := runWord 0x42 doVgath h w s
/-- VSCAT. -/
def execVscat (h : Fin 384) (w : BitVec 128) (s : State) : Host.Outcome State Fault Refusal := runWord 0x43 doVscat h w s
/-- VSPLAT. -/
def execVsplat (h : Fin 384) (w : BitVec 128) (s : State) : Host.Outcome State Fault Refusal := runWord 0x44 doVsplat h w s
/-- FADD. -/
def execFadd (h : Fin 384) (w : BitVec 128) (s : State) : Host.Outcome State Fault Refusal := runWord 0x48 doFadd h w s
/-- FSUB. -/
def execFsub (h : Fin 384) (w : BitVec 128) (s : State) : Host.Outcome State Fault Refusal := runWord 0x49 doFsub h w s
/-- FMUL. -/
def execFmul (h : Fin 384) (w : BitVec 128) (s : State) : Host.Outcome State Fault Refusal := runWord 0x4A doFmul h w s
/-- FFMA. -/
def execFfma (h : Fin 384) (w : BitVec 128) (s : State) : Host.Outcome State Fault Refusal := runWord 0x4B doFfma h w s
/-- FMIN. -/
def execFmin (h : Fin 384) (w : BitVec 128) (s : State) : Host.Outcome State Fault Refusal := runWord 0x4C doFmin h w s
/-- FMAX. -/
def execFmax (h : Fin 384) (w : BitVec 128) (s : State) : Host.Outcome State Fault Refusal := runWord 0x4D doFmax h w s
/-- FDIV. -/
def execFdiv (h : Fin 384) (w : BitVec 128) (s : State) : Host.Outcome State Fault Refusal := runWord 0x4E doFdiv h w s
/-- FSQRT. -/
def execFsqrt (h : Fin 384) (w : BitVec 128) (s : State) : Host.Outcome State Fault Refusal := runWord 0x4F doFsqrt h w s
/-- FCMP. -/
def execFcmp (h : Fin 384) (w : BitVec 128) (s : State) : Host.Outcome State Fault Refusal := runWord 0x50 doFcmp h w s
/-- SEL. -/
def execSel (h : Fin 384) (w : BitVec 128) (s : State) : Host.Outcome State Fault Refusal := runWord 0x51 doSel h w s
/-- GMUL. -/
def execGmul (h : Fin 384) (w : BitVec 128) (s : State) : Host.Outcome State Fault Refusal := runWord 0x54 doGmul h w s
/-- GADD. -/
def execGadd (h : Fin 384) (w : BitVec 128) (s : State) : Host.Outcome State Fault Refusal := runWord 0x55 doGadd h w s
/-- GSUB. -/
def execGsub (h : Fin 384) (w : BitVec 128) (s : State) : Host.Outcome State Fault Refusal := runWord 0x56 doGsub h w s
/-- IADD. -/
def execIadd (h : Fin 384) (w : BitVec 128) (s : State) : Host.Outcome State Fault Refusal := runWord 0x58 doIadd h w s
/-- ISUB. -/
def execIsub (h : Fin 384) (w : BitVec 128) (s : State) : Host.Outcome State Fault Refusal := runWord 0x59 doIsub h w s
/-- IMUL. -/
def execImul (h : Fin 384) (w : BitVec 128) (s : State) : Host.Outcome State Fault Refusal := runWord 0x5A doImul h w s
/-- ILOG. -/
def execIlog (h : Fin 384) (w : BitVec 128) (s : State) : Host.Outcome State Fault Refusal := runWord 0x5B doIlog h w s
/-- ISHF. -/
def execIshf (h : Fin 384) (w : BitVec 128) (s : State) : Host.Outcome State Fault Refusal := runWord 0x5C doIshf h w s
/-- CVT with FUNC neither 1 nor 2. -/
def execCvt (h : Fin 384) (w : BitVec 128) (s : State) : Host.Outcome State Fault Refusal :=
  if vFunc w = 1 ∨ vFunc w = 2 then .next s else runWord 0x5E doCvt h w s
/-- DRAW. -/
def execDraw (h : Fin 384) (w : BitVec 128) (s : State) : Host.Outcome State Fault Refusal :=
  if vFunc w = 1 then runWord 0x5E doDraw h w s else .next s
/-- RAND. -/
def execRand (h : Fin 384) (w : BitVec 128) (s : State) : Host.Outcome State Fault Refusal :=
  if vFunc w = 2 then runWord 0x5E doRand h w s else .next s

end Sys2Proof.Machine
end

