-- ==== Sys2Proof/Machine/VecFns.lean ====
section
/-! DEFINITION. Built-in functions, micro-programs, normalisation and softmax (R193-R217, R366, R367). -/

namespace Sys2Proof.Machine

/-! ### Built-in functions in Grendy formats (R194-R196) -/

/-- Fraction bits carried while a function is formed. -/
def fnBits : Nat := 256

/-- floor of a linear magnitude ± m × 2^(e + q/128) times 2^fnBits; `pow` irrational fractions are rounded down. -/
def fixedOf (neg : Bool) (m : Nat) (e : Int) (q : Nat) : Int :=
  let x := linOf m e q
  let sh := x.e + fnBits
  let v : Int := if 0 ≤ sh then (x.m * 2 ^ sh.toNat : Nat) else (x.m / 2 ^ (-sh).toNat : Nat)
  if neg then -v - 1 else v

/-- log₂ (e^x) for a finite non-zero x, in 2^-fnBits, rounded down; magnitudes far beyond any format's range are held. -/
def expLog (neg : Bool) (m : Nat) (e : Int) (q : Nat) : Int :=
  if 20 ≤ e + (Nat.log2 m : Int) then (if neg then -(2 ^ (fnBits + 18) : Nat) else (2 ^ (fnBits + 18) : Nat))
  else (fixedOf neg m e q * (log2E : Nat)).fdiv (2 ^ fixBits : Nat)

/-- A result 2^(t / 2^fnBits), t rounded down and inexact, in a Grendy format. -/
def glPow (f : Fmt) (mode : Rnd) (u : Nat) (neg : Bool) (t : Int) : Conv :=
  let g := glOf f
  glCode f mode neg (glRoundT g mode u false (t.fdiv (2 ^ (fnBits - g.lg - 32) : Nat)))

/-- EXP of a value in a Grendy format. -/
def glExp (f : Fmt) (mode : Rnd) (u : Nat) : Num → Conv
  | .nan => glNaN f
  | .zero => glResult f mode u (.ofLog false 0)
  | .inf neg => if neg then ⟨0, 0, 0⟩ else glInf f false
  | .fin neg m e q => glPow f mode u false (expLog neg m e q)

/-- The function that FUNC selects, of a Grendy code in its own format (R194, R195). -/
def glFn (func : Nat) (f : Fmt) (mode : Rnd) (u c : Nat) : Conv :=
  let x := f.num [] c
  match func with
  | 0 => if f = .gl16 ∧ c % 2 ^ 16 = 0xFFFE then ⟨0, 0, 0⟩ else glExp f mode u x
  | 1 => match x with
    | .zero => glInf f true
    | .inf false => glInf f false
    | .fin false _ e q =>
      let p := 128 * e + q
      if p = 0 then ⟨0, 0, 0⟩ else glResult f mode u (.fin (decide (p < 0)) (p.natAbs * ln2) (-fixBits - 7) 0)
    | _ => glNaN f
  | 2 => match x with
    | .zero => glInf f false
    | .inf _ => ⟨0, 0, 0⟩
    | .fin neg _ e q => glResult f mode u (.ofLog neg (-(128 * e + q)))
    | .nan => glNaN f
  | _ => match x with
    | .zero => glInf f false
    | .inf false => ⟨0, 0, 0⟩
    | .fin false _ e q =>
      let g := glOf f
      -- log₂ is −p/256, exact in the steps of every Grendy format at 32 fraction bits.
      let t := -(128 * e + q) * (2 ^ (g.lg + 32 - 8) : Nat)
      glCode f mode false (glRoundT g mode u true t)
    | _ => glNaN f

/-! ### Built-in functions in binary32 (R197) -/

/-- A positive or negative inexact result, with the freedom of R197: one of the two codes around the exact value; beyond
the finite range as IEEE 754. -/
def freeBin32 (free : Int) (mode : Rnd) (u : Nat) (neg : Bool) (x : Lin) : Conv :=
  let lo := roundBin bin32 .rz 0 0 neg x
  let hi := roundBin bin32 (if neg then .rd else .ru) 0 0 neg x
  if lo = hi then lo
  else if hi.fl &&& fOF ≠ 0 then roundBin bin32 mode u 0 neg x
  else if free % 2 = 0 then lo else hi

/-- 2^(t / 2^fnBits) as a linear magnitude, t rounded down and inexact. -/
def powLin (t : Int) : Lin :=
  let k : Int := (2 ^ fnBits : Nat)
  -- 192 fraction bits of the exponent decide every bit that a rounding looks at.
  let f := (t.emod k).toNat / 2 ^ (fnBits - 192)
  ⟨exp2Frac f 192, t.fdiv k - fixBits, true⟩

/-- The function that FUNC selects, of a binary32 code (R197). -/
def bin32Fn (func : Nat) (mode : Rnd) (u c : Nat) : Conv :=
  match nanResult [c] with
  | some r => r
  | none =>
    let neg := bin32.isNeg c
    let free := Config.functionFreedom func 4 c
    let (m, e) := parts32 c
    if isInf32 c then
      match func with
      | 0 => ⟨if neg then 0 else c, 0, 0⟩
      | 2 => ⟨signOf neg, 0, 0⟩
      | 1 => if neg then invalidOp else ⟨c, 0, 0⟩
      | _ => if neg then invalidOp else ⟨0, 0, 0⟩
    else if m = 0 then
      match func with
      | 0 => ⟨0x3F800000, 0, 0⟩
      | 1 => ⟨inf32 true, 0, ieDZ⟩
      | _ => ⟨inf32 neg, 0, ieDZ⟩
    else match func with
      | 0 => freeBin32 free mode u false (powLin (expLog neg m e 0))
      | 1 =>
        if neg then invalidOp
        else
          let l := log2Floor m 1 224 + e * (2 ^ 224 : Nat)
          if m = 2 ^ Nat.log2 m ∧ l = 0 then ⟨0, 0, 0⟩
          else freeBin32 free mode u (decide (l < 0)) ⟨l.natAbs * ln2, -224 - fixBits, true⟩
      | 2 =>
        let n := 2 ^ wideBits
        freeBin32 free mode u neg ⟨n / m, -e - wideBits, decide (n % m ≠ 0)⟩
      | _ =>
        if neg then invalidOp
        else
          let m' := if e.emod 2 = 0 then m else 2 * m
          let e' := if e.emod 2 = 0 then e else e - 1
          let n := 2 ^ (2 * wideBits)
          let r := isqrt (n / m')
          freeBin32 free mode u false ⟨r, -(e' / 2) - wideBits, decide (r * r * m' ≠ n)⟩

/-- The checks of FN (R193, R622). -/
def fnCheck (w : BitVec 128) : Checked Rnd := do
  let l := laneOf (vFmt w)
  let r ← vCheck w (vFmt w = vFmt2 w && (vFmt w = 0 || vFmt w = 1 || vFmt w = 2 || vFmt w = 4)) (l.getD none)
  failIf (decide (3 < vFunc w)) arithField
  .ok r

/-- FN (R193). -/
def doFn (h : Nat) (w : BitVec 128) (s : State) : State :=
  vecMap h w s (fnCheck w) fun r i =>
    let c := s.lane h (vA w) i
    let u := s.vecRandom w r i
    match glLane (vFmt w) with
    | some f => glFn (vFunc w) f r u c
    | none => withFtz (s.ftz h) (fun l => bin32Fn (vFunc w) r u (arg l 0)) [c]

/-! ### Micro-programs (R198-R200, R365-R367) -/

/-- A micro-program as its entry holds it: header, constants, tables and steps. -/
structure MicroProg where
  wtype  : Nat
  consts : List Nat
  tables : List (List Byte)
  steps  : List Nat
deriving DecidableEq, Repr

/-- Splits tables of 16 + 8 N bytes off a body. -/
def splitTables : Nat → List Byte → List (List Byte) × List Byte
  | 0, bs => ([], bs)
  | n + 1, bs =>
    let len := 16 + 8 * fieldAt bs 8 1
    let (ts, rest) := splitTables n (bs.drop len)
    (bs.take len :: ts, rest)

/-- Reads an entry with its 16-byte header (R365). -/
def MicroProg.ofBytes (bs : List Byte) : MicroProg :=
  let nconst := fieldAt bs 4 1
  let body := bs.drop 16
  let (ts, rest) := splitTables (fieldAt bs 3 1) (body.drop (4 * nconst))
  { wtype := fieldAt bs 5 1
    consts := (List.range nconst).map fun i => fieldAt body (4 * i) 4
    tables := ts
    steps := (List.range (fieldAt bs 2 1)).map fun i => fieldAt rest (4 * i) 4 }

/-- floor of a finite binary32 value. -/
def floor32 (c : Nat) : Int :=
  let (m, e) := parts32 c
  let z : Int := if bin32.isNeg c then -(m : Int) else m
  if 0 ≤ e then z * (2 ^ e.toNat : Nat) else z.fdiv (2 ^ (-e).toNat : Nat)

/-- Joins the flags of a first result to a second. -/
def Conv.andThen (a b : Conv) : Conv := { b with fl := a.fl ||| b.fl, ie := a.ie ||| b.ie }

/-- The table step of R367. -/
def microTable (ftz : Bool) (t : List Byte) (a : Nat) : Conv :=
  let op := fun f l => withFtz ftz f l
  let n := fieldAt t 8 1
  let d := op (fun l => fsub32 .rn 0 (arg l 0) (arg l 1)) [a, fieldAt t 0 4]
  let x := op (fun l => fmul32 .rn 0 (arg l 0) (arg l 1)) [d.code, fieldAt t 4 4]
  let i : Nat :=
    if bin32.isNaN x.code then 0
    else if isInf32 x.code then (if bin32.isNeg x.code then 0 else n - 1)
    else
      let f := floor32 x.code
      if f < 0 then 0 else if (n : Int) - 1 < f then n - 1 else f.toNat
  let iCode := (toBin bin32 .rn 0 0 (.ofInt i 0)).code
  let r := op (fun l => fsub32 .rn 0 (arg l 0) (arg l 1)) [x.code, iCode]
  let y := op (fun l => ffma32 .rn 0 (arg l 0) (arg l 1) (arg l 2)) [fieldAt t (16 + 8 * i + 4) 4, r.code, fieldAt t (16 + 8 * i) 4]
  d.andThen (x.andThen (r.andThen y))

/-- One step on the temporaries; END leaves them. -/
def MicroProg.step (p : MicroProg) (ftz : Bool) (ts : List Nat) (word : Nat) : List Nat × Fl × Ie :=
  let d := bits word 5 3
  let a := ts.getD (bits word 8 3) 0
  let b := ts.getD (bits word 11 3) 0
  let c := ts.getD (bits word 14 3) 0
  let imm := bits word 17 6
  let op := fun f l => withFtz ftz f l
  let gl := fun (r : Conv) => r
  let r : Conv := match bits word 0 5 with
    | 0x01 => op (fun l => fadd32 .rn 0 (arg l 0) (arg l 1)) [a, b]
    | 0x02 => op (fun l => fmul32 .rn 0 (arg l 0) (arg l 1)) [a, b]
    | 0x03 => op (fun l => ffma32 .rn 0 (arg l 0) (arg l 1) (arg l 2)) [a, b, c]
    | 0x04 => gl (glResult .gl16 .rn 0 (glMulNum (gl16Num a) (gl16Num b)))
    | 0x05 => gl (glResult .gl16 .rn 0 (glAddNum (gl16Num a) (gl16Num b)))
    | 0x06 =>
      let x := ftzIn ftz a
      let y := ftzIn ftz b
      let r := fcmp32 1 x.1 y.1
      { r with code := if r.code = 1 then 0x3F800000 else 0, fl := r.fl ||| x.2 ||| y.2 }
    | 0x07 => ⟨if c ≠ 0 then a else b, 0, 0⟩
    | 0x08 => ⟨if p.wtype = 0 then a % 2 ^ 31 else if a % 2 ^ 16 = 0x8000 then a else a % 2 ^ 15, 0, 0⟩
    | 0x09 => ⟨if p.wtype = 0 then neg32 a else if a % 2 ^ 15 = 0 then a else a ^^^ 2 ^ 15, 0, 0⟩
    | 0x0A =>
      op (fun l => match nanResult [arg l 0] with
        | some r => r
        | none =>
          let x := arg l 0
          let (m, e) := parts32 x
          if isInf32 x || m = 0 then ⟨x, 0, 0⟩ else roundBin bin32 .rn 0 0 (bin32.isNeg x) ⟨m, e + signedOf 6 imm, false⟩) [a]
    | 0x0B => ⟨p.consts.getD imm 0, 0, 0⟩
    | 0x0C => microTable ftz (p.tables.getD (imm % 8) []) a
    | _ => ⟨ts.getD d 0, 0, 0⟩
  (ts.zipIdx.map fun x => if x.2 = d then r.code else x.1, r.fl, r.ie)

/-- Runs a micro-program on its input temporaries: T0 with flags. -/
def MicroProg.run (p : MicroProg) (ftz : Bool) (ts : List Nat) : Nat × Fl × Ie :=
  let r := p.steps.foldl (fun (acc : List Nat × Fl × Ie) st =>
    let (ts, fl, ie) := p.step ftz acc.1 st
    (ts, acc.2.1 ||| fl, acc.2.2 ||| ie)) (ts, 0, 0)
  (r.1.getD 0 0, r.2)

/-- WTYPE as a format. -/
def MicroProg.fmt (p : MicroProg) : Fmt := if p.wtype = 0 then .bf32 else .gl16

/-- Lane-cycles that n lanes of one evaluator wait over S steps each, served round-robin (R200). -/
def waitCycles (n steps : Nat) : Nat := n * (steps - 1) * (n - 1) + n * (n - 1) / 2

/-- Lane i of FNM (R199): the micro-program on the lane's value in its working type. -/
def State.microLane (s : State) (h : Nat) (w : BitVec 128) (r : Rnd) (p : MicroProg) (i : Nat) : Conv :=
  let ftz := s.ftz h
  let x := vcvt ftz { mode := .rn } [] ((laneOf (vFmt2 w)).getD none) (some p.fmt) (s.lane h (vA w) i)
  let t := p.run ftz (x.code :: List.replicate 7 0)
  let y := vcvt ftz (s.vecCtx w r [] i) [] (some p.fmt) ((laneOf (vFmt w)).getD none) t.1
  { y with fl := x.fl ||| t.2.1 ||| y.fl, ie := x.ie ||| t.2.2 ||| y.ie }

/-- Lane-cycles that n lanes wait for their evaluators over S steps each (R200). -/
def rowWaits (n steps : Nat) : Nat :=
  ((List.range ((n + 7) / 8)).map fun j => waitCycles (Nat.min 8 (n - 8 * j)) steps).foldl (· + ·) 0

/-- The checks of FNM (R199, R622). -/
def State.fnmCheck (s : State) (h : Nat) (w : BitVec 128) : Checked (Rnd × MicroProg) := do
  let tgt := laneOf (vFmt w)
  let r ← vCheck w (tgt.isSome && (laneOf (vFmt2 w)).isSome) (tgt.getD none)
  failIf (decide (32 ≤ vParam w)) arithField
  let t := (s.table h kindProg (vParam w)).now
  failIf t.isEmpty arithTable
  .ok (r, MicroProg.ofBytes t)

/-- FNM (R199, R200, R366). -/
def doFnm (h : Nat) (w : BitVec 128) (s : State) : State :=
  let s := (s.issue h).1
  match s.fnmCheck h w with
  | .error c => s.vecError h c w
  | .ok (r, p) =>
    let n := vLen w
    let steps := p.steps.length
    ((s.vecDone h w (.ofConvs ((List.range n).map (s.microLane h w r p)))).bump (Reg.HTH_VEVAL_COUNT h) (n * steps)).bump
      (Reg.HTH_VWAIT_COUNT h) (rowWaits n steps)

/-! ### Normalisation (R202-R205) -/

/-- Reads a row statistics record at an offset. -/
def State.readStat (s : State) (h tag off : Nat) : State × Checked StatRec :=
  andRead (s.hRead h tag off 192) .error fun s bs => (s, .ok (StatRec.ofBytes bs))

/-- The value t of R203 step 2 from a record and ε in binary32, with flags. -/
def normT (ftz rms : Bool) (r : StatRec) (eps : Nat) : Conv :=
  let v := if rms then (if r.n = 0 then 0 else bucketToBin32 r.s2 r.w2 r.n) else r.var
  withFtz ftz (fun l => fadd32 .rn 0 (arg l 0) (arg l 1)) [v, eps]

/-- The checks of NORM (R202, R622): its epsilon is zero or a positive finite GL16 number. -/
def normCheck (w : BitVec 128) : Checked Rnd := do
  let tgt := laneOf (vFmt w)
  let badEps := match gl16Num (vParam w) with
    | .zero => false
    | .fin neg _ _ _ => neg
    | _ => true
  let r ← vCheck w (tgt.isSome && (laneOf (vFmt2 w)).isSome) (tgt.getD none)
  failIf (decide (8 ≤ vFunc w) || badEps) arithField
  failIf (decide (hearthBytes < vAddr w + 192)) arithDesc
  .ok r

/-- What NORM gives under a row's record (R203, R204): NaN in every lane of a row that is not finite. -/
def State.normOut (s : State) (h : Nat) (w : BitVec 128) (r : Rnd) (st : StatRec) : VOut :=
  let tgt := laneOf (vFmt w)
  let n := vLen w
  if st.nonfin then .ofConvs ((List.range n).map fun i => toLane (s.ftz h) (s.vecCtx w r [] i) (tgt.getD none) .nan)
  else
    let ftz := s.ftz h
    let rms := bit (vFunc w) 0
    let toB := fun c => vcvt ftz { mode := .rn } [] ((laneOf (vFmt2 w)).getD none) (some .bf32) c
    let e := vcvt ftz { mode := .rn } [] (some .gl16) (some .bf32) (vParam w)
    let t := normT ftz rms st e.code
    let inv := withFtz ftz (fun l => bin32Fn 3 .rn 0 (arg l 0)) [t.code]
    let one : Conv := ⟨0x3F800000, 0, 0⟩
    let zero : Conv := ⟨0, 0, 0⟩
    let lane := fun i =>
      let x := toB (s.lane h (vA w) i)
      let g := if bit (vFunc w) 1 then one else toB (s.lane h (vB w) i)
      let b := if bit (vFunc w) 2 then zero else toB (s.lane h (vC w) i)
      let d := if rms then { x with fl := 0, ie := 0 } else withFtz ftz (fun l => fsub32 .rn 0 (arg l 0) (arg l 1)) [x.code, st.mean]
      let gi := withFtz ftz (fun l => fmul32 .rn 0 (arg l 0) (arg l 1)) [inv.code, g.code]
      let y := withFtz ftz (fun l => ffma32 .rn 0 (arg l 0) (arg l 1) (arg l 2)) [d.code, gi.code, b.code]
      let z := vcvt ftz (s.vecCtx w r [] i) [] (some .bf32) (tgt.getD none) y.code
      x.andThen (g.andThen (b.andThen (d.andThen (gi.andThen (y.andThen z)))))
    let o := VOut.ofConvs ((List.range n).map lane)
    let pre := e.andThen (t.andThen inv)
    { o with fl := o.fl ||| pre.fl, ie := o.ie ||| pre.ie }

/-- NORM. -/
def doNorm (h : Nat) (w : BitVec 128) (s : State) : State :=
  let s := (s.issue h).1
  match normCheck w with
  | .error c => s.vecError h c w
  | .ok r =>
    orElse (s.readStat h (tagOf w) (vAddr w)) (fun s c => s.vecError h c w) fun s st => s.vecDone h w (s.normOut h w r st)

/-- Reads n statistics records from an offset on. -/
def State.readStats (s : State) (h tag off : Nat) : Nat → State × Checked (List StatRec)
  | 0 => (s, .ok [])
  | n + 1 =>
    andChecked (s.readStat h tag off) fun s r =>
      andChecked (State.readStats s h tag (off + 192) n) fun s rs => (s, .ok (r :: rs))

/-- The checks of STCOMB (R622). -/
def stcombCheck (w : BitVec 128) : Checked Unit := do
  let n := vParam w
  let _ ← vCheck w true none
  failIf (decide (n < 2) || decide (64 < n)) arithField
  failIf (decide (hearthBytes < vAddr w + 192 * n)) arithDesc

/-- STCOMB (R205, R619). -/
def doStcomb (h : Nat) (w : BitVec 128) (s : State) : State :=
  let s := (s.issue h).1
  let n := vParam w
  match stcombCheck w with
  | .error c => s.vecError h c w
  | .ok _ =>
    match s.readStats h (tagOf w) (vAddr w) n with
    | (s, .error c) => s.vecError h c w
    | (s, .ok rs) => match kindOf rs with
      | none => s.vecError h arithField w
      | some k =>
        let r := combineStats k rs
        let (s, c) := s.hWrite h (tagOf w) (vAddr w) r.bytes
        if c ≠ 0 then s.vecError h c w else s.vecEnd h n (flagIf r.vclamp fVCLAMP) 0

/-! ### Softmax (R206-R217) -/

/-- The sum record of R211 at work: the windowed sum and its counts. -/
structure SumRec where
  win      : Win
  unmasked : Nat
  masked   : Nat
deriving DecidableEq, Repr

/-- A fresh sum (R210). -/
def SumRec.fresh : SumRec := ⟨⟨Elem.fresh .gl16w 0, 0, 0⟩, 0, 0⟩

/-- The 128 bytes of a sum record. -/
def SumRec.bytes (r : SumRec) : List Byte :=
  r.win.e.record .gl16w ++ leBytes 4 r.unmasked ++ leBytes 4 r.masked ++ List.replicate 24 0

/-- Reads and checks a sum record (R211). -/
def sumOfBytes (bs : List Byte) : Option SumRec :=
  if fieldAt bs 82 1 = 2 && decide (fieldAt bs 83 1 < 4) && fieldAt bs 84 12 = 0 && fieldAt bs 104 24 = 0 then
    some ⟨⟨(elemOfRecord false (bs.take 96)).2, 0, 0⟩, fieldAt bs 96 4, fieldAt bs 100 4⟩
  else none

/-- Whether a logit is masked (R208). -/
def isMasked (c : Nat) : Bool := c % 2 ^ 16 = 0xFFFE || c % 2 ^ 16 = 0xFFFF

/-- The exponential of d in binary32 with MAXSUB: correctly rounded RN to GL16 but within 2^-20 of a boundary, where either
neighbour may result (R209). -/
def maxsubExp (d : Nat) : Conv :=
  match bin32.num d with
  | .fin neg m e q =>
    let t := expLog neg m e q
    let steps := t.fdiv (2 ^ (fnBits - 39) : Nat)
    let frac := (steps.emod (2 ^ 32)).toNat
    let near := decide (2 ^ 31 - 2 ^ 12 ≤ frac ∧ frac ≤ 2 ^ 31 + 2 ^ 12)
    let mode := if near && Config.functionFreedom 4 0 d % 2 = 0 then Rnd.rz else .rn
    let eps : Int := if near && !(Config.functionFreedom 4 0 d % 2 = 0) then 2 ^ 12 + 1 else 0
    glCode .gl16 (if mode == .rz then .rz else .rn) false (glRoundT glf16 mode 0 false (steps + eps))
  | x => glExp .gl16 .rn 0 x

/-- The exponentials of a row: none for a masked position (R208, R209). `mode` is RN, or RND in the partial phases. -/
def State.exponentials (s : State) (h : Nat) (w : BitVec 128) (mode : Rnd) (rmax : Option Nat) : List (Option Conv) :=
  (List.range (vLen w)).map fun i =>
    let c := s.lane h (vA w) i % 2 ^ 16
    if isMasked c then none
    else match rmax with
      | none => some (glFn 0 .gl16 mode (s.vecRandom w mode i) c)
      | some m =>
        let x := vcvt (s.ftz h) { mode := .rn } [] (some .gl16) (some .bf32) c
        let d := withFtz (s.ftz h) (fun l => fsub32 .rn 0 (arg l 0) (arg l 1)) [x.code, m]
        some (x.andThen (d.andThen (maxsubExp d.code)))

/-- Adds exponentials to a sum as one k-step of R118 (R210, R212, R215). -/
def SumRec.addRow (rnd : RandomSource) (site : BitVec 16) (r : SumRec) (es : List (Option Conv)) : SumRec :=
  let nums := es.zipIdx.filterMap fun p => p.1.map fun c => (p.2, gl16Num c.code)
  let terms := nums.filterMap fun p => match p.2 with
    | .fin neg _ e q => some (passesOf neg (128 * e + q) p.1)
    | _ => none
  let special := nums.foldl (fun (acc : Special × Fl) p => match p.2 with
    | .nan => let (st, fl) := acc.1.combine .nan; (st, acc.2 ||| fl)
    | .inf neg => let (st, fl) := acc.1.combine (.infOf neg); (st, acc.2 ||| fl)
    | _ => acc) (r.win.e.special, 0)
  let win := (List.range 4).foldl (fun (x : Win) pass =>
    x.pass (.random rnd site 0) .drop true (terms.filterMap fun l => l[pass]?)) r.win
  let cap := 2 ^ 32 - 1
  { win := { win with e := { win.e with special := special.1 }, fl := win.fl ||| special.2 }
    unmasked := Nat.min (r.unmasked + nums.length) cap
    masked := Nat.min (r.masked + (es.length - nums.length)) cap }

/-- log₂ of the sum, to 24 fraction bits under RN; none when it is zero (R213, R214). -/
def SumRec.log (r : SumRec) : Option Int :=
  match r.win.e.num false .gl16w with
  | .fin _ m e q =>
    let t := logFix m e q 56
    let lo := t.fdiv (2 ^ 32)
    let d := t.emod (2 ^ 32)
    some (if (2 ^ 31 : Int) < d ∨ (d = 2 ^ 31 ∧ (!isPow2 m ∨ lo.emod 2 = 1)) then lo + 1 else lo)
  | _ => none

/-- The logarithm of a numerator in 2^-fnBits, rounded down, and whether it is exact. -/
def numeratorLog (m : Nat) (e : Int) (q : Nat) : Int × Bool := (logFix m e q fnBits, isPow2 m)

/-- A quotient lane (R214): numerator over the sum of logarithm `ls` in 2^-24. -/
def State.quotient (s : State) (h : Nat) (w : BitVec 128) (r : Rnd) (tgt : LaneFmt) (ls : Int) (i : Nat) (n : Num) : Conv :=
  match n with
  | .fin neg m e q =>
    let (t, exact) := numeratorLog m e q
    let t := t - ls * (2 ^ (fnBits - 24) : Nat)
    let u := s.vecRandom w r i
    match tgt with
    | some .bf32 =>
      let x := if exact && t.emod (2 ^ fnBits) = 0 then ⟨1, t.fdiv (2 ^ fnBits), false⟩ else powLin t
      ftzOut (s.ftz h) (roundBin bin32 r u 0 neg x)
    | some f =>
      let g := glOf f
      let cut : Nat := 2 ^ (fnBits - g.lg - 32)
      let er := glRoundT g r u (exact && t.emod cut = 0) (t.fdiv cut)
      if f = .gl8 then glWideCode glf8 0x80 0x7F r (vClip w) true neg er else glWideCode glf16 0x8000 0x7FFF r (vClip w) true neg er
    | none => ⟨0, 0, 0⟩
  | x => toLane (s.ftz h) (s.vecCtx w r [] i) tgt x

/-- The decision of R213: numerators by lane, none for a masked lane. -/
def State.decideRow (s : State) (h : Nat) (w : BitVec 128) (r : Rnd) (tgt : LaneFmt) (sum : SumRec) (nums : List (Option Num)) : VOut :=
  let nan := fun i => toLane (s.ftz h) (s.vecCtx w r [] i) tgt .nan
  if sum.win.e.special ≠ .finite then .ofConvs ((List.range nums.length).map nan)
  else
    let isNan := fun (n : Option Num) => n == some .nan
    if sum.unmasked = 0 then
      let o := VOut.ofConvs (nums.zipIdx.map fun p => if isNan p.1 then nan p.2 else ⟨0, 0, 0⟩)
      { o with fl := o.fl ||| fEMPTYROW }
    else match sum.log with
      | none =>
        let o := VOut.ofConvs (nums.zipIdx.map fun p => if isNan p.1 then nan p.2 else ⟨0, 0, 0⟩)
        { o with fl := o.fl ||| fUF }
      | some ls => .ofConvs (nums.zipIdx.map fun p => match p.1 with
        | none => ⟨0, 0, 0⟩
        | some n => s.quotient h w r tgt ls p.2 n)

/-- RMAX of a record as binary32 (R207, R209). -/
def rmax32 (ftz : Bool) (r : StatRec) : Conv :=
  if r.bin then ⟨r.rmax, 0, 0⟩
  else if bit r.rmax 30 then ⟨0, 0, 0⟩
  else ftzOut ftz (toBin bin32 .rn 0 0 (statValue false r.rmax))

/-- Together with the flags of the row's exponentials and its sum. -/
def VOut.withRow (o : VOut) (es : List (Option Conv)) (sum : SumRec) (more : Conv) : VOut :=
  { o with
    fl := es.foldl (fun f c => match c with
      | some r => f ||| r.fl
      | none => f) (o.fl ||| sum.win.fl ||| more.fl)
    ie := es.foldl (fun f c => match c with
      | some r => f ||| r.ie
      | none => f) (o.ie ||| more.ie) }

/-- The phase of an SMAX (R206): whole row, first part, next part, decision. -/
def smaxPhase (w : BitVec 128) : Nat := vParam w % 4

/-- Bytes of the record at ADDR that an SMAX reads or writes (R209, R211). -/
def smaxRecord (w : BitVec 128) : Nat := if smaxPhase w = 0 then (if vMaxsub w then 192 else 0) else 128

/-- The checks of SMAX (R206, R622). -/
def smaxCheck (w : BitVec 128) : Checked Rnd := do
  let phase := smaxPhase w
  let f := vFmt w
  let f2 := vFmt2 w
  let fmts := (f = 0 || (f = 1 || f = 4) && (phase = 0 || phase = 3)) && (f2 = 0 || (phase = 3 && (f2 = 1 || f2 = 4)))
  let r ← vCheck w fmts ((laneOf f).getD none)
  failIf (decide (4 ≤ vParam w) || (vMaxsub w && phase ≠ 0)) arithField
  failIf (smaxRecord w ≠ 0 && decide (hearthBytes < vAddr w + smaxRecord w)) arithDesc
  .ok r

/-- SMAX over a whole row, with the record that MAXSUB names (R208-R210, R213). -/
def State.smaxWhole (s : State) (h : Nat) (w : BitVec 128) (r : Rnd) (bs : List Byte) : VOut :=
  let m := rmax32 (s.ftz h) (StatRec.ofBytes bs)
  let es := s.exponentials h w .rn (if vMaxsub w then some m.code else none)
  let sum := SumRec.fresh.addRow s.random (vSite w + 1) es
  let o := s.decideRow h w r ((laneOf (vFmt w)).getD none) sum (es.map fun e => e.map fun c => gl16Num c.code)
  o.withRow es sum (if vMaxsub w then m else ⟨0, 0, 0⟩)

/-- The decision of SMAX from numerators and a sum record (R213-R215). -/
def State.smaxDecide (s : State) (h : Nat) (w : BitVec 128) (r : Rnd) (sum : SumRec) : VOut :=
  let src := (laneOf (vFmt2 w)).getD none
  let ins := (List.range (vLen w)).map fun i =>
    if src = some .bf32 then ftzIn (s.ftz h) (s.lane h (vA w) i) else (s.lane h (vA w) i, 0)
  let o := s.decideRow h w r ((laneOf (vFmt w)).getD none) sum (ins.map fun x => some (laneNum [] src x.1))
  { o with fl := ins.foldl (fun f x => f ||| x.2) o.fl }

/-- The sum record after a part of a row, and the exponentials of the part (R212). -/
def State.smaxPart (s : State) (h : Nat) (w : BitVec 128) (r : Rnd) (start : SumRec) : SumRec × VOut :=
  let es := s.exponentials h w r none
  let sum := start.addRow s.random (vSite w + 1) es
  let o : VOut := ⟨es.map fun e => match e with
    | some c => c.code
    | none => 0, 0, 0⟩
  (sum, o.withRow es sum ⟨0, 0, 0⟩)

/-- SMAX. -/
def doSmax (h : Nat) (w : BitVec 128) (s : State) : State :=
  let s := (s.issue h).1
  match smaxCheck w with
  | .error c => s.vecError h c w
  | .ok r =>
    let found := if smaxRecord w = 0 || smaxPhase w = 1 then (s, .ok []) else checkRead (s.hRead h (tagOf w) (vAddr w) (smaxRecord w))
    orElse found (fun s c => s.vecError h c w) fun s bs =>
      match smaxPhase w with
      | 0 => s.vecDone h w (s.smaxWhole h w r bs)
      | 3 => match sumOfBytes bs with
        | none => s.vecError h arithField w
        | some sum => s.vecDone h w (s.smaxDecide h w r sum)
      | _ => match (if smaxPhase w = 1 then some SumRec.fresh else sumOfBytes bs) with
        | none => s.vecError h arithField w
        | some start =>
          let p := s.smaxPart h w r start
          orWrite (s.hWrite h (tagOf w) (vAddr w) p.1.bytes) (fun s c => s.vecError h c w) fun s => s.vecDone h w p.2

/-! ### Commands -/

/-- FN. -/
def execFn (h : Fin 384) (w : BitVec 128) (s : State) : Host.Outcome State Fault Refusal := runWord 0x60 doFn h w s
/-- FNM. -/
def execFnm (h : Fin 384) (w : BitVec 128) (s : State) : Host.Outcome State Fault Refusal := runWord 0x61 doFnm h w s
/-- NORM. -/
def execNorm (h : Fin 384) (w : BitVec 128) (s : State) : Host.Outcome State Fault Refusal := runWord 0x68 doNorm h w s
/-- STCOMB. -/
def execStcomb (h : Fin 384) (w : BitVec 128) (s : State) : Host.Outcome State Fault Refusal := runWord 0x69 doStcomb h w s
/-- SMAX. -/
def execSmax (h : Fin 384) (w : BitVec 128) (s : State) : Host.Outcome State Fault Refusal := runWord 0x6A doSmax h w s

end Sys2Proof.Machine
end

