-- ==== Sys2Proof/Machine/Norms.lean ====
section
/-! DEFINITION. Square sums (R428, R439), the streams that the update engines read (R230-R232), and the descriptors of
GNORM and UPDATE (R427, R434). -/

namespace Sys2Proof.Machine

/-! ### Square sums (R428) -/

/-- A square sum at work: its bucket set and the terms that wait for a full pass. -/
structure Squares where
  win : Win
  buf : List StatTerm
deriving DecidableEq, Repr

/-- A fresh square sum: window base -1,024. -/
def freshSum : BucketSum := Elem.fresh .gl16w 0

/-- A square sum that goes on from a bucket set. -/
def Squares.of (e : BucketSum) : Squares := ⟨⟨e, 0, 0⟩, []⟩

/-- The largest integer part among terms. -/
def topPart : List StatTerm → Option Int
  | [] => none
  | t :: ts => match topPart ts with
    | none => some t.part
    | some m => some (if m < t.part then t.part else m)

/-- One pass of R118 over square terms: raises and terms below the window round to nearest even and set no flag. -/
def Win.squarePass (w : Win) (ts : List StatTerm) : Win :=
  match topPart ts with
  | none => w
  | some top =>
    let h := headRoom (w.e.buckets.list.map fun x => (bucketVal false x).natAbs)
    let w := w.raise .nearest (Nat.max h (top - (w.e.base.toInt + 47)).toNat)
    let (sums, _) := statSum w.e.base.toInt ts
    { w with e := { w.e with
        buckets := w.e.buckets.imap fun i x => bucketOf false (bucketVal false x + sums.getD i 0) } }

/-- A value's square enters; 64 consecutive terms form a pass. `bin` tells a binary32 value from a Grendy value (R166). -/
def Squares.add (bin : Bool) (q : Squares) (v : Num) : Squares :=
  match v with
  | .zero => q
  | .nan => { q with win := { q.win with e := { q.win.e with special := (q.win.e.special.combine .nan).1 } } }
  | .inf _ => { q with win := { q.win with e := { q.win.e with special := (q.win.e.special.combine .posInf).1 } } }
  | v =>
    let buf := q.buf ++ squareTerms (statTerms bin v)
    if buf.length < 64 then { q with buf := buf } else ⟨q.win.squarePass (buf.take 64), buf.drop 64⟩

/-- The bucket set once the terms that wait have formed a last pass. -/
def Squares.flush (q : Squares) : BucketSum := (q.win.squarePass q.buf).e

/-- Square sums combined in order by the bucket-set add of R129 (R429, R439). -/
def combineSums (es : List BucketSum) : BucketSum :=
  (es.foldl (fun w e => bucketAdd false .gl16w .nearest w e) (⟨freshSum, 0, 0⟩ : Win)).e

/-- A square sum as binary32 under RN within the bound of R135 (R430, R439). -/
def sumToBin32 (e : BucketSum) : Nat :=
  match e.special with
  | .finite => bucketToBin32 (e.buckets.list.map (bucketVal false)) e.base.toInt 1
  | .posInf => inf32 false
  | .negInf => inf32 true
  | .nan => bin32.qnan

/-! ### Tensors in a kiln's own stack -/

/-- The update engine of kiln k (R39, R326). -/
def State.engine (s : State) (k : Nat) : Who := { unit := 0x200 + k, step := s.stepOpen }

/-- The collier reading descriptors of the open step, which the region table does not bind. -/
def State.stepCollier (s : State) : Who := { unit := 0xFFFF, exempt := true, step := s.stepOpen }

/-- Bytes of a tensor of n elements of b bytes, with its scale records at the next 64-byte boundary (R230, R231). -/
def tensorBytes (n b : Nat) (scaled : Bool) : Nat := if scaled then up64 (n * b) + 4 * (n / 32) else n * b

/-- The stack that holds a range kiln-locally (R330). -/
def State.ownStack (s : State) (a n : Nat) : Option Nat :=
  if n = 0 ∨ 0x40000000000 < a + n then none
  else match s.granule (a / 2 ^ 30) with
    | .kilnLocal k _ =>
      let all := (List.range ((a + n - 1) / 2 ^ 30 - a / 2 ^ 30 + 1)).all fun i =>
        match s.granule (a / 2 ^ 30 + i) with
        | .kilnLocal j _ => j == k
        | _ => false
      if all then some k else none
    | _ => none

/-- Reads block o of a tensor of n elements: its effective values, or a code (R83, R84, R232). -/
def State.readBlock (s : State) (w : Who) (base n : Nat) (f : Fmt) (scaled : Bool) (o : Nat) : State × Nat × List Num :=
  let b := f.bits / 8
  let (s, c, r) := if scaled then s.readMem w (base + up64 (n * b) + 4 * o) 4 else (s, 0, [])
  if c ≠ 0 then (s, c, [])
  else if scaled && fieldAt r 2 2 != o % 65536 then (s, arithDesync, [])
  else if scaled && fieldAt r 0 1 == 0x80 then (s, 0, List.replicate 32 .zero)
  else
    let (s, c, bs) := s.readMem w (base + 32 * b * o) (32 * b)
    if c ≠ 0 then (s, c, [])
    else
      let fine := if scaled then signedOf 8 (fieldAt r 0 1) else 0
      (s, 0, (List.range 32).map fun i => (f.num [] (fieldAt bs (b * i) b)).scale fine)

/-! ### GNORM and UPDATE descriptors (R427, R434) -/

/-- A region of a GNORM descriptor. -/
structure NormRegion where
  addr   : Nat
  count  : Nat
  scaled : Bool
deriving DecidableEq, Repr

/-- The regions of a GNORM descriptor, from the bytes after its header. -/
def normRegions (bs : List Byte) (n : Nat) : List NormRegion :=
  (List.range n).map fun i => ⟨fieldAt bs (16 * i) 8, fieldAt bs (16 * i + 8) 4, bit (fieldAt bs (16 * i + 12) 1) 0⟩

/-- Whether a GNORM header has the form of R427. -/
def gnormHeadOk (g : List Byte) : Bool :=
  let loss := bit (fieldAt g 4 1) 0
  decide (fieldAt g 0 4 ≤ 4096 ∧ fieldAt g 4 1 < 4) && zeroAt g 5 3 && zeroAt g 24 40 &&
    decide (fieldAt g 8 8 % 4 = 0 ∧ fieldAt g 16 4 % 16 = 0 ∧ fieldAt g 20 4 ≠ 0) && (loss || fieldAt g 8 8 == 0)

/-- Whether a region entry has the form of R427 and lies in the stack of one of the instance's kilns. -/
def State.normRegionOk (s : State) (kilns : Nat) (bs : List Byte) (i : Nat) : Bool :=
  let e := (bs.drop (16 * i)).take 16
  let n := fieldAt e 8 4
  fieldAt e 0 8 % 64 == 0 && n % 32 == 0 && decide (fieldAt e 12 1 < 2) && zeroAt e 13 3 &&
    (n == 0 || match s.ownStack (fieldAt e 0 8) (tensorBytes n 2 (bit (fieldAt e 12 1) 0)) with
      | some k => bit kilns k
      | none => false)

/-- Whether a binary32 code is positive. -/
def positive32 (c : Nat) : Bool :=
  match bin32.num c with
  | .fin neg _ _ _ => !neg
  | .inf neg => !neg
  | _ => false

/-- Whether an UPDATE header has the form of R434. -/
def updateHeadOk (u : List Byte) : Bool :=
  decide (fieldAt u 0 4 ≤ 65535 ∧ fieldAt u 4 1 < 8 ∧ fieldAt u 5 1 < 2) &&
    (fieldAt u 6 1 == 0 || fieldAt u 6 1 == 1 || fieldAt u 6 1 == 4) && zeroAt u 7 1 && zeroAt u 10 2 &&
    positive32 (fieldAt u 12 4) && zeroAt u 72 56

/-- A shard entry (R434). -/
structure ShardIn where
  master  : Nat
  grad    : Nat
  mom1    : Nat
  mom2    : Nat
  work    : Nat
  count   : Nat
  layer   : Nat
  gl8     : Bool
  gscaled : Bool
deriving DecidableEq, Repr

/-- A shard entry from its 64 bytes. -/
def ShardIn.ofBytes (e : List Byte) : ShardIn where
  master := fieldAt e 0 8
  grad := fieldAt e 8 8
  mom1 := fieldAt e 16 8
  mom2 := fieldAt e 24 8
  work := fieldAt e 32 8
  count := fieldAt e 40 8
  layer := fieldAt e 48 2
  gl8 := fieldAt e 50 1 % 16 == 1
  gscaled := bit (fieldAt e 50 1) 4

/-- Bytes of an element of the working copy. -/
def ShardIn.workBytes (x : ShardIn) : Nat := if x.gl8 then 1 else 2

/-- The tensors of a shard as ranges. -/
def ShardIn.ranges (x : ShardIn) : List (Nat × Nat) :=
  [(x.master, 4 * x.count), (x.grad, tensorBytes x.count 2 x.gscaled), (x.mom1, tensorBytes x.count 2 true),
    (x.mom2, tensorBytes x.count 2 true), (x.work, tensorBytes x.count x.workBytes x.gl8)]

/-- The kiln whose stack holds every tensor of a shard. -/
def State.shardKiln (s : State) (x : ShardIn) : Option Nat :=
  match s.ownStack x.master (4 * x.count) with
  | some k => if x.ranges.all fun r => s.ownStack r.1 r.2 == some k then some k else none
  | none => none

/-- Whether a shard entry has the form of R434, in a kiln of the mask whose slot holds an update micro-program. -/
def State.shardOk (s : State) (kilns slot : Nat) (e : List Byte) : Bool :=
  let x := ShardIn.ofBytes e
  let wf := fieldAt e 50 1
  decide (32 ≤ x.count ∧ x.count ≤ 2 ^ 40 ∧ x.count % 32 = 0 ∧ wf < 32 ∧ wf % 16 ≤ 1) && zeroAt e 51 13 &&
    (x.ranges.all fun r => r.1 % 64 == 0) &&
    (match s.shardKiln x with
      | some k => bit kilns k && (sfind (s.kiln k).upd slot).isSome
      | none => false)

/-- The shard entries of an UPDATE descriptor, from the bytes after its header. -/
def shardEntries (bs : List Byte) (n : Nat) : List (List Byte) := chunksOf 64 n bs

/-- An UPDATE descriptor as read: header and shard entries. -/
structure UpdateDesc where
  head   : List Byte
  shards : List (List Byte)
deriving DecidableEq, Repr

/-- Reads and checks an UPDATE descriptor (R434): a code when it cannot be read, ARITH_FIELD when it is malformed. -/
def State.readUpdate (s : State) (kilns addr : Nat) : State × Checked UpdateDesc :=
  if addr % 64 ≠ 0 then (s, .error arithField)
  else
    let (s, c, u) := s.readMem s.stepCollier addr 128
    if c ≠ 0 then (s, .error c)
    else if !updateHeadOk u then (s, .error arithField)
    else
      let n := fieldAt u 0 4
      let (s, c, bs) := s.readMem s.stepCollier (addr + 128) (64 * n)
      if c ≠ 0 then (s, .error c)
      else if (shardEntries bs n).all (s.shardOk kilns (fieldAt u 4 1)) then (s, .ok ⟨u, shardEntries bs n⟩)
      else (s, .error arithField)

/-- Reads and checks a GNORM descriptor (R427). -/
def State.readGnorm (s : State) (kilns addr : Nat) : State × Checked (List Byte × List NormRegion) :=
  if addr % 64 ≠ 0 then (s, .error arithField)
  else
    let (s, c, g) := s.readMem s.stepCollier addr 64
    if c ≠ 0 then (s, .error c)
    else if !gnormHeadOk g then (s, .error arithField)
    else
      let n := fieldAt g 0 4
      let (s, c, bs) := s.readMem s.stepCollier (addr + 64) (16 * n)
      if c ≠ 0 then (s, .error c)
      else if (List.range n).all (s.normRegionOk kilns bs) then (s, .ok (g, normRegions bs n))
      else (s, .error arithField)

/-! ### The stream of GNORM (R428) -/

/-- Streams the blocks of a region into a square sum. -/
def State.streamBlocks (k : Nat) (r : NormRegion) : List Nat → State → Squares → State × Nat × Squares
  | [], s, q => (s, 0, q)
  | o :: os, s, q =>
    let (s, c, vs) := s.readBlock (s.engine k) r.addr r.count .gl16 r.scaled o
    if c ≠ 0 then (s, c, q) else State.streamBlocks k r os s (vs.foldl (fun q v => q.add false v) q)

/-- Streams regions in descriptor order, each into its kiln's sum. -/
def State.streamRegions : List NormRegion → State → SMap Squares → State × Nat × SMap Squares
  | [], s, m => (s, 0, m)
  | r :: rs, s, m =>
    match s.ownStack r.addr (tensorBytes r.count 2 r.scaled) with
    | none => State.streamRegions rs s m
    | some k =>
      let q := (sfind m k).getD (.of ((s.kiln k).gradSum.getD freshSum))
      let (s, c, q) := State.streamBlocks k r (List.range (r.count / 32)) s q
      if c ≠ 0 then (s, c, sput m k q) else State.streamRegions rs s (sput m k q)

/-- Stores square sums into their kilns. -/
def State.storeSums (s : State) (m : SMap Squares) : State :=
  m.foldl (fun t p => t.setKiln p.1 { t.kiln p.1 with gradSum := some p.2.flush }) s

/-- The effective values of what a collective with SQSUM wrote. -/
def SquareIn.values (q : SquareIn) : List Num :=
  let b := if q.bf32 then 4 else 2
  let f : Fmt := if q.bf32 then .bf32 else .gl16
  (List.range (q.data.length / b)).map fun i =>
    let v := f.num [] (fieldAt q.data (b * i) b)
    if q.recs.isEmpty then v
    else if fieldAt q.recs (4 * (i / 32)) 1 = 0x80 then .zero
    else v.scale (signedOf 8 (fieldAt q.recs (4 * (i / 32)) 1))

/-- Inserts by order of issue. -/
def insertSquare (q : SquareIn) : List SquareIn → List SquareIn
  | [] => [q]
  | x :: xs => if q.order < x.order then q :: x :: xs else x :: insertSquare q xs

/-- The squares of collectives that have completed enter their kilns' sums, in the order of issue (R428). -/
def State.enterSquares (s : State) : State :=
  let s' := s.step.squares.foldl (fun t q =>
    let x := q.values.foldl (fun a v => a.add q.bf32 v) (Squares.of ((t.kiln q.kiln).gradSum.getD freshSum))
    t.setKiln q.kiln { t.kiln q.kiln with gradSum := some x.flush }) s
  { s' with step := { s'.step with squares := [] } }

/-- GNORM's stream: collectives' squares first, then the regions (R428). -/
def State.streamGnorm (s : State) (rs : List NormRegion) : State × Nat :=
  let (s, c, m) := State.streamRegions rs s.enterSquares []
  (s.storeSums m, c)

end Sys2Proof.Machine
end

