-- ==== Sys2Proof/Machine/Update.lean ====
section
/-! DEFINITION. The update engine (R434-R439): its micro-program over the elements of every shard, and the norms. -/

namespace Sys2Proof.Machine

/-- One step of an update micro-program (R436): the codes of R366 and FSQRT, FDIV and HYP. -/
def MicroProg.updateStep (p : MicroProg) (hyp : List Nat) (ts : List Nat) (word : Nat) : List Nat × Fl :=
  let a := ts.getD (bits word 8 3) 0
  let b := ts.getD (bits word 11 3) 0
  let put := fun (r : Conv) => (ts.zipIdx.map fun x => if x.2 = bits word 5 3 then r.code else x.1, r.fl)
  match bits word 0 5 with
  | 0x0D => put (fsqrt32 .rn 0 a)
  | 0x0E => put (fdiv32 .rn 0 a b)
  | 0x0F => put ⟨hyp.getD (bits word 17 4) 0, 0, 0⟩
  | _ => let r := p.step false ts word; (r.1, r.2.1)

/-- Runs an update micro-program on the eight temporaries. -/
def MicroProg.update (p : MicroProg) (hyp : List Nat) (ts : List Nat) : List Nat × Fl :=
  p.steps.foldl (fun acc st => let r := p.updateStep hyp acc.1 st; (r.1, acc.2 ||| r.2)) (ts, 0)

/-- What an UPDATE fixes for every element: H0 to H15, the rounding of its writes, and the first site. -/
structure UpdateEnv where
  hyp  : List Nat
  rnd  : Rnd
  site : Nat
deriving DecidableEq, Repr

/-- One element: the new master, the new moments, g as binary32, new less old master, and flags (R435). -/
structure UpdElem where
  w  : Nat
  m  : Nat
  v  : Nat
  g  : Nat
  dw : Nat
  fl : Fl
deriving DecidableEq, Repr

/-- The update of one element. -/
def updateElem (p : MicroProg) (env : UpdateEnv) (w : Nat) (g m v : Num) : UpdElem :=
  let cg := toBin bin32 .rn 0 0 g
  let cm := toBin bin32 .rn 0 0 m
  let cv := toBin bin32 .rn 0 0 v
  let t1 := fmul32 .rn 0 cg.code (env.hyp.getD 0 0)
  let (ts, fl) := p.update env.hyp [w, t1.code, cm.code, cv.code, 0, 0, 0, 0]
  let w' := ts.getD 0 0
  ⟨w', ts.getD 2 0, ts.getD 3 0, cg.code, (fsub32 .rn 0 w' w).code, cg.fl ||| cm.fl ||| cv.fl ||| t1.fl ||| fl⟩

/-- A block as the engine writes it: element codes, the scale record, and flags. -/
structure BlockOut where
  data : List Byte
  rec_ : List Byte
  fl   : Fl
deriving DecidableEq, Repr

/-- Converts 32 values to a block of a format (R224-R226, R229). -/
def convertBlock (f : Fmt) (scaled clip : Bool) (headroom : Nat) (rnd : Rnd) (u : Nat → Nat) (o : Nat) (vs : List Num) : BlockOut :=
  let b := f.bits / 8
  let conv := fun (fine : Int) => vs.zipIdx.map fun p =>
    f.ofNum { mode := rnd, clip := clip, u := if rnd = .sr then u p.2 else 0 } (p.1.scale (-fine))
  let out := fun (cs : List Conv) (exp : Nat) =>
    (⟨cs.flatMap fun c => leBytes b c.code, leBytes 1 exp ++ leBytes 1 0 ++ leBytes 2 o,
      cs.foldl (fun a c => a ||| c.fl) 0⟩ : BlockOut)
  if !scaled then out (conv 0) 0
  else match scaleNeed f ⟨headroom, 0, 0, clip⟩ vs with
    | .zeros => out (conv 0) 0x80
    | .nonfinite => out (conv 0) 0
    | .scale fine => out (conv fine) (unsignedOf 8 fine)

/-- Converts 32 binary32 codes to a block of a format (R435). -/
def updateBlock (f : Fmt) (scaled clip : Bool) (headroom : Nat) (rnd : Rnd) (u : Nat → Nat) (o : Nat) (codes : List Nat) : BlockOut :=
  convertBlock f scaled clip headroom rnd u o (codes.map bin32.num)

/-- The three norm sums of a layer at work. -/
structure NormWork where
  weight : Squares
  grad   : Squares
  diff   : Squares
deriving DecidableEq, Repr

/-- Norm sums that go on from what a kiln has. -/
def NormWork.of (n : NormSums) : NormWork := ⟨.of n.weight, .of n.grad, .of n.diff⟩

/-- Adds an element to the norm sums (R439). -/
def NormWork.add (n : NormWork) (e : UpdElem) : NormWork :=
  ⟨n.weight.add true (bin32.num e.w), n.grad.add true (bin32.num e.g), n.diff.add true (bin32.num e.dw)⟩

/-- The sums once the terms that wait have formed a last pass. -/
def NormWork.flush (n : NormWork) : NormSums := ⟨n.weight.flush, n.grad.flush, n.diff.flush⟩

/-- Writes block o of a tensor of n elements, its scale record included. -/
def State.writeBlock (s : State) (w : Who) (base n b : Nat) (scaled : Bool) (o : Nat) (x : BlockOut) : State × Nat :=
  let (s, c) := s.writeMem w (base + 32 * b * o) x.data
  if c ≠ 0 || !scaled then (s, c) else s.writeMem w (base + up64 (n * b) + 4 * o) x.rec_

/-- What the update of block o gives: the elements, the blocks of moment 1, moment 2 and working copy, and flags. -/
structure BlockUpdate where
  elems : List UpdElem
  m1    : BlockOut
  m2    : BlockOut
  work  : BlockOut
deriving DecidableEq, Repr

/-- Reads block o of a shard and computes its update (R435). -/
def State.computeBlock (s : State) (p : MicroProg) (env : UpdateEnv) (k : Nat) (x : ShardIn) (o : Nat) : State × Checked BlockUpdate :=
  let w := s.engine k
  let (s, c, gs) := s.readBlock w x.grad x.count .gl16 x.gscaled o
  if c ≠ 0 then (s, .error c)
  else
    let (s, c, ms) := s.readBlock w x.mom1 x.count .gl16 true o
    if c ≠ 0 then (s, .error c)
    else
      let (s, c, vs) := s.readBlock w x.mom2 x.count .gl16 true o
      if c ≠ 0 then (s, .error c)
      else
        let (s, c, ws) := s.readMem w (x.master + 128 * o) 128
        if c ≠ 0 then (s, .error c)
        else
          let es := (List.range 32).map fun i =>
            updateElem p env (fieldAt ws (4 * i) 4) (gs.getD i .zero) (ms.getD i .zero) (vs.getD i .zero)
          let first := (x.master + 128 * o) / 4
          let u := fun j i => roundingBits s.random (BitVec.ofNat 16 (env.site + j)) (first + i)
          let hr := (Limits.ofEntry (s.layerEntry x.layer)).headroom
          (s, .ok {
            elems := es
            m1 := updateBlock .gl16 true false 0 env.rnd (u 0) o (es.map (·.m))
            m2 := updateBlock .gl16 true false 0 env.rnd (u 1) o (es.map (·.v))
            work := updateBlock (if x.gl8 then .gl8 else .gl16) x.gl8 x.gl8 hr env.rnd (u 2) o (es.map (·.w)) })

/-- Flags of a block's update. -/
def BlockUpdate.fl (b : BlockUpdate) : Fl := b.elems.foldl (fun a e => a ||| e.fl) (b.m1.fl ||| b.m2.fl ||| b.work.fl)

/-- Writes the update of block o; stops at a write that fails. -/
def State.commitBlock (s : State) (k : Nat) (x : ShardIn) (o : Nat) (b : BlockUpdate) : State × Nat :=
  let w := s.engine k
  let (s, c) := s.writeMem w (x.master + 128 * o) (b.elems.flatMap fun e => leBytes 4 e.w)
  if c ≠ 0 then (s, c)
  else
    let (s, c) := s.writeBlock w x.mom1 x.count 2 true o b.m1
    if c ≠ 0 then (s, c)
    else
      let (s, c) := s.writeBlock w x.mom2 x.count 2 true o b.m2
      if c ≠ 0 then (s, c) else s.writeBlock w x.work x.count x.workBytes x.gl8 o b.work

/-- What the engines have gathered: flags by layer, norm sums by 32 x layer + kiln, and the kilns whose engine stopped. -/
structure UpdateAcc where
  flags   : SMap Fl
  norms   : SMap NormWork
  stopped : List Nat
deriving DecidableEq, Repr

/-- Updates the blocks of a shard in ascending order, stopping at the first that cannot be read or written (R440). -/
def State.updateBlocks (p : MicroProg) (env : UpdateEnv) (norms : Bool) (k : Nat) (x : ShardIn) : List Nat → State → UpdateAcc → State × UpdateAcc
  | [], s, a => (s, a)
  | o :: os, s, a =>
    match s.computeBlock p env k x o with
    | (s, .error _) => (s, { a with stopped := k :: a.stopped })
    | (s, .ok b) =>
      let (s, c) := s.commitBlock k x o b
      if c ≠ 0 then (s, { a with stopped := k :: a.stopped })
      else
        let key := 32 * x.layer + k
        let a := { a with flags := sput a.flags x.layer (sget 0 a.flags x.layer ||| b.fl) }
        let a := if norms then
            let n := (sfind a.norms key).getD (.of ((sfind s.step.norms key).getD ⟨freshSum, freshSum, freshSum⟩))
            { a with norms := sput a.norms key (b.elems.foldl NormWork.add n) }
          else a
        State.updateBlocks p env norms k x os s a

/-- Updates shards in descriptor order; a stopped or quarantined engine takes no further shard. -/
def State.updateShards (env : UpdateEnv) (slot : Nat) (norms : Bool) : List (List Byte) → State → UpdateAcc → State × UpdateAcc
  | [], s, a => (s, a)
  | e :: es, s, a =>
    let x := ShardIn.ofBytes e
    match s.shardKiln x with
    | none => State.updateShards env slot norms es s a
    | some k =>
      if a.stopped.contains k then State.updateShards env slot norms es s a
      else if s.quarantined k then State.updateShards env slot norms es s { a with stopped := k :: a.stopped }
      else
        let p := MicroProg.ofBytes ((sfind (s.kiln k).upd slot).getD [])
        let (s, a) := State.updateBlocks p env norms k x (List.range (x.count / 32)) s a
        State.updateShards env slot norms es s a

/-- c of R435: 1.0 when N is at most MAXNORM, RN (MAXNORM / N) otherwise. -/
def clipFactor (norm maxnorm : Nat) : Nat :=
  if (fcmp32 2 norm maxnorm).code = 1 then 0x3F800000 else (fdiv32 .rn 0 maxnorm norm).code

/-- What an UPDATE descriptor fixes (R434, R436). -/
def State.updateEnv (s : State) (u : List Byte) : UpdateEnv where
  hyp := clipFactor (s.get Reg.COL_STEP_NORM_NORM) (fieldAt u 12 4) ::
    (toBin bin32 .rn 0 0 (.ofInt (s.get Reg.COL_STEP_UPDATES_COUNT + 1 : Nat) 0)).code ::
    (List.range 14).map fun j => fieldAt u (16 + 4 * j) 4
  rnd := (Rnd.ofCode (fieldAt u 6 1 % 8)).getD .rn
  site := fieldAt u 8 2

/-- A norm of a layer: the kilns' sums combined in kiln order, converted and rooted (R439). -/
def State.layerNorm (s : State) (layer : Nat) (sel : NormSums → BucketSum) : Nat :=
  let sums := (List.range 32).filterMap fun k => (sfind s.step.norms (32 * layer + k)).map sel
  (fsqrt32 .rn 0 (sumToBin32 (combineSums sums))).code

/-- ORs flags into a layer's combined record and writes its norms (R435, R439). -/
def State.noteUpdate (s : State) (norms : Bool) (layer : Nat) (fl : Fl) : State :=
  if s.statKilns.isEmpty then s
  else
    let a := s.combinedAt layer
    let r := s.peek a 128
    let r := patch r 50 (leBytes 2 (fieldAt r 50 2 ||| fl.toNat))
    let r := if norms then
        patch r 64 (leBytes 4 (s.layerNorm layer (·.weight)) ++ leBytes 4 (s.layerNorm layer (·.grad)) ++
          leBytes 4 (s.layerNorm layer (·.diff)))
      else r
    (s.post a r).noteFlags fl

/-- Runs an UPDATE in COMMIT (R434-R439): the state, and whether an engine stopped before its shards were written. -/
def State.runUpdate (s : State) (u : UpdateWait) : State × Bool :=
  match s.readUpdate u.kilns u.addr with
  | (s, .error _) => (s, true)
  | (s, .ok d) =>
    let norms := bit (fieldAt d.head 5 1) 0
    let (s, a) := State.updateShards (s.updateEnv d.head) (fieldAt d.head 4 1) norms d.shards s ⟨[], [], []⟩
    let s := { s with step := { s.step with norms := a.norms.foldl (fun m p => sput m p.1 p.2.flush) s.step.norms } }
    (a.flags.foldl (fun t p => t.noteUpdate norms p.1 p.2) s, !a.stopped.isEmpty)

end Sys2Proof.Machine
end

