-- ==== Sys2Proof/Machine/Runs.lean ====
section
/-! DEFINITION. Runs of step programs (R396-R405): the operation that a run issues next, the limits of R40 and R45, issue,
completion, and the watched loss (R426). A run is named by 32 x branch + stage. -/

namespace Sys2Proof.Machine

/-! ### Runs and their kilns -/

/-- The run with a name. -/
def State.run (s : State) (p : Nat) : Option ProgRun := s.col.runs.find? (·.id == p)

/-- Stores a run. -/
def State.setRun (s : State) (r : ProgRun) : State :=
  { s with col := { s.col with runs := s.col.runs.map fun x => if x.id == r.id then r else x } }

/-- Compute kilns of the stage of a run, as a mask (R358). -/
def State.stageKilns (s : State) (p : Nat) : Nat :=
  s.cfg.active.kilns.foldl (fun m k =>
    if k.2.role = 1 && k.2.branch = p / 32 && k.2.stage = p % 32 then m ||| 2 ^ k.1 else m) 0

/-- The kilns that an operation of a run names (R397). -/
def State.opKilns (s : State) (p : Nat) (op : BitVec 128) : Nat := if sKilns op = 0 then s.stageKilns p else sKilns op

/-- The hearths that an operation of a run names (R397). -/
def State.opHearths (s : State) (p : Nat) (op : BitVec 128) : List Nat := hearthsOf (s.opKilns p op) (sHearths op)

/-- WAIT (R397). -/
def isWait (op : BitVec 128) : Bool := bit op.toNat 8

/-- A copy that is issued ahead (R397, R404). -/
def isPrefetch (op : BitVec 128) : Bool := bit op.toNat 9 && sOp op == 0x04

/-- Operations of an installed program. -/
def State.programOps (s : State) (id : Nat) : List (BitVec 128) :=
  match programOf s.cfg.active.programs id with
  | some p => p.ops
  | none => []

/-- The schedule table of a run's branch and stage (R401). -/
def State.schedule (s : State) (p : Nat) : Option SchedTable :=
  s.cfg.active.sched.find? fun t => t.branch == p / 32 && t.stage == p % 32

/-- Entry i of the schedule of a run. -/
def State.schedEntry (s : State) (p i : Nat) : Option SchedEntry := (s.schedule p).bind (·.entries[i]?)

/-- Whether a run executes the body of a backward entry, whose PREFETCH operations have been issued already (R404). -/
def State.inBackward (s : State) (r : ProgRun) : Bool :=
  match r.stack with
  | ⟨_, _, some i⟩ :: _ => match s.schedEntry r.id i with
    | some e => e.backward
    | none => false
  | _ => false

/-- Place of the first operation at or after `pc` that issues in turn. -/
def skipPrefetch (skip : Bool) : Nat → List (BitVec 128) → Nat
  | pc, [] => pc
  | pc, w :: ws => if skip && isPrefetch w then skipPrefetch skip (pc + 1) ws else pc

/-- The next operation of a run with its place, none after its last. -/
def State.nextOp (s : State) (r : ProgRun) : Option (Nat × BitVec 128) :=
  let ops := s.programOps r.prog
  let pc := skipPrefetch (s.inBackward r) r.pc (ops.drop r.pc)
  (ops[pc]?).map (pc, ·)

/-- Operations of a schedule body, its RET excluded, with their places. -/
def bodyOps (ops : List (BitVec 128)) (start : Nat) : List (Nat × BitVec 128) :=
  ((ops.drop start).takeWhile fun w => sOp w != 0x0D).zipIdx.map fun p => (start + p.2, p.1)

/-- The PREFETCH operations that issue when an entry of a run's schedule begins, or when SCHED itself begins. -/
def State.prefetches (s : State) (p : Nat) (entries : List Nat) : List (Nat × BitVec 128) :=
  entries.flatMap fun i => match s.schedEntry p i, s.run p with
    | some e, some r => if e.backward then (bodyOps (s.programOps r.main) (e.body / 16)).filter fun x => isPrefetch x.2 else []
    | _, _ => []

/-! ### Limits (R40, R45) -/

/-- Operations in flight in the module (R45). -/
def State.inFlight (s : State) : Nat := (s.col.runs.map fun r => r.flight.length).foldl (· + ·) 0

/-- Operations in flight in die d (R40, R396). -/
def State.dieOps (s : State) (d : Nat) : Nat :=
  (s.col.runs.map fun r => (r.flight.filter fun f => bits (s.opKilns r.id f.op) (4 * d) 4 != 0).length).foldl (· + ·) 0

/-- Whether `n` operations more stay within the limits of the module and of every die that the kilns reach. -/
def State.withinLimits (s : State) (kilns n : Nat) : Bool :=
  decide (s.inFlight + n ≤ 65536) &&
    (List.range 8).all fun d => bits kilns (4 * d) 4 == 0 || decide (s.dieOps d + n ≤ 8192)

/-! ### Issue -/

/-- Whether an operation is a fence of step programs. -/
def isFence (op : BitVec 128) : Bool := sOp op == 0x02 || sOp op == 0x03

/-- Whether a run may issue an operation with `more` prefetches: no fence of it is pending (R405), WAIT holds (R397), and
the limits leave room. -/
def State.mayIssue (s : State) (r : ProgRun) (op : BitVec 128) (more : Nat) : Bool :=
  !r.ended && !(r.flight.any fun f => isFence f.op) && !(isWait op && r.flight.any fun f => f.seq + 1 == r.count) &&
    s.withinLimits (s.opKilns r.id op) (1 + more)

/-- Operations that keep a kiln from being idle (R278). -/
def occupies (op : BitVec 128) : Bool :=
  let c := sOp op
  c = 1 || c = 2 || c = 6 || c = 7 || c = 8 || c = 9 || c = 0x12 || c = 0x13

/-- The idle count of the kilns that an operation names restarts. -/
def State.touch (s : State) (p : Nat) (op : BitVec 128) : State :=
  if occupies op then (kilnsOf (s.opKilns p op)).foldl (fun t k => t.setKiln k { t.kiln k with idle := 0 }) s else s

/-- Puts an operation in flight: the state and its place in the order of issue. -/
def State.launch (s : State) (p pc : Nat) (op : BitVec 128) : State × Nat :=
  match s.run p with
  | none => (s, 0)
  | some r => ((s.setRun { r with count := r.count + 1, flight := r.flight ++ [⟨r.prog, pc, op, r.count⟩] }).touch p op, r.count)

/-- Issues the operation with a code that is the next one of run p, and begins its work; otherwise nothing happens. -/
def State.issueOp (s : State) (code p : Nat) (op : BitVec 128) (more : State → Nat) (work : State → Nat → State) : State :=
  match s.run p with
  | none => s
  | some r => match s.nextOp r with
    | none => s
    | some (pc, w) =>
      if w ≠ op || sOp op ≠ code || !s.mayIssue r op (more s) then s
      else
        let s := (s.launch p pc op).1
        let s := match s.run p with
          | some r => s.setRun { r with pc := pc + 1 }
          | none => s
        work s r.count

/-- An operation without prefetches. -/
def alone (_ : State) : Nat := 0

/-! ### Completion -/

/-- Whether the step or the run is void (R425, R448). -/
def State.voided (s : State) (eval : Bool) : Bool :=
  if eval then s.step.evalCode != 0 else s.isSet Reg.COL_STEP_STATUS_VOID

/-- The GNORM of a program (R418). -/
def State.gnormOf (s : State) (prog : Nat) : Option (BitVec 128) := (s.programOps prog).find? fun w => sOp w == 0x12

/-- A loss is read (R426). -/
def State.readLoss (s : State) (addr : Nat) (stop : Bool) : State :=
  let (s, c, bs) := s.readMem s.stepCollier addr 4
  if c ≠ 0 then s.workFailed c
  else
    let s := { s with step := { s.step with lossRead := true } }.put Reg.COL_STEP_NORM_LOSS (leNat bs)
    if (bin32.num (leNat bs)).isFinite then s
    else
      let before := (s.stepState = 1 || s.stepState = 2) && !s.isSet Reg.COL_STEP_STATUS_CLOSED
      let s := s.veto vLOSS
      if stop && before then s.put Reg.COL_STEP_STATUS_VOID 1 else s

/-- The watch of R426 on an operation of a training run that has completed. -/
def State.watchLoss (s : State) (r : ProgRun) (f : Flight) : State :=
  if r.eval || f.prog ≠ r.main || !s.stepOpen then s
  else match s.gnormOf r.main with
    | none => s
    | some g =>
      let d := s.peek (sArg g) 64
      if bit (fieldAt d 4 1) 0 && fieldAt d 16 4 = 16 * f.pc then s.readLoss (fieldAt d 8 8) (bit (fieldAt d 4 1) 1) else s

/-- An operation completes with a code (R396, R421, R448). -/
def State.opDone (s : State) (p seq code : Nat) : State :=
  match s.run p with
  | none => s
  | some r => match r.flight.find? (·.seq == seq) with
    | none => s
    | some f =>
      let s := s.setRun { r with flight := r.flight.filter (·.seq != seq) }
      let s := if code = 0 then s else s.workFailed code
      s.watchLoss r f

end Sys2Proof.Machine
end

