-- ==== Sys2Proof/Machine/Coll.lean ====
section
/-! DEFINITION. Collectives (R498-R502): the descriptor, what each member sends and receives, reduction in ring order, and
the frames that carry them. -/

namespace Sys2Proof.Machine

/-! ### The descriptor (R498) -/

/-- A collective descriptor. -/
structure CollDesc where
  kind    : Nat
  fmt     : Fmt
  sqsum   : Bool
  oscaled : Bool
  bsr     : Bool
  iscaled : Bool
  rnd     : Rnd
  lo      : Nat
  cnt     : Nat
  src     : Nat
  dst     : Nat
  count   : Nat
  site    : Nat
  xid     : Nat
  timeout : Nat
deriving DecidableEq, Repr

/-- A descriptor from its 64 bytes, codes that are reserved read as the first of their table. -/
def CollDesc.ofBytes (d : List Byte) : CollDesc where
  kind := fieldAt d 0 1
  fmt := (Fmt.ofCode (fieldAt d 1 1)).getD .gl16
  sqsum := bit (fieldAt d 2 1) 0
  oscaled := bit (fieldAt d 2 1) 1
  bsr := bit (fieldAt d 2 1) 2
  iscaled := bit (fieldAt d 2 1) 3
  rnd := (Rnd.ofCode (fieldAt d 3 1)).getD .rn
  lo := fieldAt d 4 2
  cnt := fieldAt d 6 2
  src := fieldAt d 8 8
  dst := fieldAt d 16 8
  count := fieldAt d 24 8
  site := fieldAt d 32 2
  xid := fieldAt d 36 4
  timeout := fieldAt d 40 4

/-- Format of the output elements. -/
def CollDesc.out (d : CollDesc) : Fmt := if d.oscaled then .gl16 else d.fmt

/-- Whether the kind reduces. -/
def CollDesc.reduces (d : CollDesc) : Bool := d.kind = 0 || d.kind = 2

/-- Whether the kind has one peer. -/
def CollDesc.single (d : CollDesc) : Bool := d.kind = 4 || d.kind = 5

/-- Bytes of n elements of a format, or of n bucket-set records. -/
def CollDesc.bytes (d : CollDesc) (f : Fmt) (n : Nat) : Nat := if d.bsr then 96 * n else n * f.bits / 8

/-- Elements of the input of a member among g (R499). -/
def CollDesc.inCount (d : CollDesc) (g : Nat) : Nat :=
  if d.kind = 0 || d.kind = 3 then g * d.count else if d.kind = 5 then 0 else d.count

/-- Elements of the output of a member among g (R499). -/
def CollDesc.outCount (d : CollDesc) (g : Nat) : Nat :=
  if d.kind = 1 || d.kind = 3 then g * d.count else if d.kind = 4 then 0 else d.count

/-- Whether member i sends elements to member j; for send and receive the sender sends alone. -/
def CollDesc.feeds (d : CollDesc) (self i j : Nat) : Bool :=
  if d.kind = 4 then i = self && j != self else if d.kind = 5 then j = self && i != self else true

/-- First input element that goes to member j; COUNT elements follow. -/
def CollDesc.firstFor (d : CollDesc) (j : Nat) : Nat := if d.kind = 0 || d.kind = 3 then j * d.count else 0

/-- Bytes of a transfer of one chunk: its data, and with block scales its records at the next 64-byte boundary. -/
def CollDesc.chunkLen (d : CollDesc) : Nat :=
  if d.iscaled then up64 (d.bytes d.fmt d.count) + 4 * (d.count / 32) else d.bytes d.fmt d.count

/-- Whether a range lies wholly in hearth memory that may hold bucket-set records (R145). -/
def State.bsrRange (s : State) (a n : Nat) : Bool :=
  decide (hearthBase ≤ a ∧ a + n ≤ hearthBase + 0xC0000000) && (piecesOf a n).all fun p => bit (s.ownerAt p.1).toNat 2

/-- Whether a descriptor keeps the field rules of R498 and R501. -/
def State.collDescOk (s : State) (b : List Byte) (members : Nat) : Bool :=
  let d := CollDesc.ofBytes b
  decide (d.kind ≤ 5 ∧ fieldAt b 1 1 ≤ 8 ∧ fieldAt b 2 1 < 16 ∧ fieldAt b 3 1 ≤ 4 ∧ 1 ≤ d.cnt ∧ d.cnt ≤ 8192) &&
    (!d.single || d.cnt == 1) && (!d.reduces || d.fmt == .gl16 || d.fmt == .bf32) && d.rnd.allows d.out &&
    (!d.iscaled || d.fmt == .gl16) &&
    decide (d.src % 64 = 0 ∧ d.dst % 64 = 0 ∧ d.count % 32 = 0 ∧ 1 ≤ d.timeout) && zeroAt b 34 2 && zeroAt b 44 20 &&
    (!d.bsr || (fieldAt b 1 1 == 0 && !d.oscaled && !d.iscaled && s.bsrRange d.src (96 * d.inCount members) &&
      s.bsrRange d.dst (96 * d.outCount members))) &&
    (!d.sqsum || (d.reduces && s.stepOpen && !d.bsr &&
      (s.ownStack d.dst (tensorBytes (d.outCount members) (d.out.bits / 8) d.oscaled)).isSome))

/-- State of a rank (R491). -/
def State.rankState (s : State) (r : Nat) : Nat :=
  match s.link.table with
  | some t => match t.entries[r]? with
    | some e => e.state
    | none => 0
  | none => 0

/-- Members of a group in ring order; none when a rank of it is not live or this module is no member. -/
def State.collMembers (s : State) (d : CollDesc) : Option (List Nat) :=
  let self := s.selfRank
  let group := if d.single then (if d.lo < self then [d.lo, self] else [self, d.lo]) else (List.range d.cnt).map (d.lo + ·)
  if (group.all fun r => s.rankState r == 1) && group.contains self && (!d.single || d.lo != self) then some group else none

/-! ### Chunks -/

/-- The link engine. -/
def asLink (s : State) (bsr : Bool) : Who := { unit := 0x2A0, bucket := bsr, step := s.stepOpen }

/-- Reads the chunk that goes to member j, as it travels: a code, or its bytes. -/
def State.readChunk (s : State) (d : CollDesc) (g j : Nat) : State × Nat × List Byte :=
  let first := d.firstFor j
  let (s, c, data) := s.readMem (asLink s d.bsr) (d.src + d.bytes d.fmt first) (d.bytes d.fmt d.count)
  if c ≠ 0 || !d.iscaled then (s, c, data)
  else
    let (s, c, recs) := s.readMem (asLink s false) (d.src + up64 (d.bytes d.fmt (d.inCount g)) + 4 * (first / 32)) (4 * (d.count / 32))
    if c ≠ 0 then (s, c, [])
    else if (List.range (d.count / 32)).all fun b => fieldAt recs (4 * b + 2) 2 == (first / 32 + b) % 65536 then
      (s, 0, padUnits data ++ recs)
    else (s, arithDesync, [])

/-- Fine scales of a chunk by block; none marks a zero block. -/
def CollDesc.fine (d : CollDesc) (chunk : List Byte) (b : Nat) : Option Int :=
  if !d.iscaled then some 0
  else
    let e := fieldAt chunk (up64 (d.bytes d.fmt d.count) + 4 * b) 1
    if e = 0x80 then none else some (signedOf 8 e)

/-- The values of a chunk with their block scales applied (R500). -/
def CollDesc.values (d : CollDesc) (chunk : List Byte) : List Num :=
  (List.range d.count).map fun i => match d.fine chunk (i / 32) with
    | none => .zero
    | some f => (d.fmt.num [] (codeAt d.fmt chunk i)).scale f

/-! ### Results (R499, R500) -/

/-- An output of a collective: data, scale records and flags. -/
structure CollOut where
  data : List Byte
  recs : List Byte
  fl   : Fl
deriving DecidableEq, Repr

/-- Joins outputs. -/
def joinOuts (xs : List CollOut) : CollOut :=
  ⟨xs.flatMap (·.data), xs.flatMap (·.recs), xs.foldl (fun a x => a ||| x.fl) 0⟩

/-- Values as an output whose first element is element `e0` of the reduced vector and block `o0` of the output. -/
def State.collConvert (s : State) (d : CollDesc) (e0 o0 : Nat) (vs : List Num) : CollOut :=
  joinOuts ((List.range (vs.length / 32)).map fun b =>
    let x := convertBlock d.out d.oscaled false 0 d.rnd
      (fun i => roundingBits s.random (BitVec.ofNat 16 d.site) (e0 + 32 * b + i)) ((o0 + b) % 65536) ((vs.drop (32 * b)).take 32)
    ⟨x.data, if d.oscaled then x.rec_ else [], x.fl⟩)

/-- Binary32 codes of a chunk's values (R500 item 1); binary32 elements stand as they are. -/
def CollDesc.codes (d : CollDesc) (chunk : List Byte) : List Nat :=
  if d.fmt = .bf32 then (List.range d.count).map fun i => fieldAt chunk (4 * i) 4
  else (d.values chunk).map fun v => (toBin bin32 .rn 0 0 v).code

/-- Element by element, the chunks added in ring order (R500 item 2). -/
def addChunks : List (List Nat) → List Nat
  | [] => []
  | c :: cs => cs.foldl (fun a x => a.zipWith (fun p q => (fadd32 .rn 0 p q).code) x) c

/-- The reduction of the members' chunks, in ring order; `e0` is the first element of the chunk in the reduced vector. -/
def State.collReduce (s : State) (d : CollDesc) (e0 : Nat) (chunks : List (List Byte)) : CollOut :=
  let sums := addChunks (chunks.map d.codes)
  if d.out = .bf32 then ⟨sums.flatMap (leBytes 4), [], 0⟩ else s.collConvert d e0 0 (sums.map bin32.num)

/-- One element of a reduction of bucket-set records: none on a mode clash (R129, R133, R500). -/
def addRecords (spill : Bool) (rm : RaiseMode) (rs : List (Mode × Elem)) : Option (List Byte) :=
  let mode := rowMode rs
  if rs.any fun r => r.1 != .empty && r.1 != mode then none
  else
    let live := rs.filter fun r => r.1 != .empty
    match live with
    | [] => some (Elem.zero.record .empty)
    | r :: rest => some ((rest.foldl (fun w x => bucketAdd spill mode rm w x.2) (⟨r.2, 0, 0⟩ : Win)).e.record mode)

/-- The reduction of chunks of bucket-set records; none on a mode clash. -/
def State.collBuckets (s : State) (d : CollDesc) (e0 : Nat) (chunks : List (List Byte)) : Option CollOut :=
  ((List.range d.count).mapM fun i =>
    addRecords s.cfg.active.spill (.random s.random (BitVec.ofNat 16 d.site) (e0 + i))
      (chunks.map fun c => elemOfRecord s.cfg.active.spill ((c.drop (96 * i)).take 96))).map
    fun rs => ⟨rs.flatten, [], 0⟩

/-- A chunk as it lands at block o0 of an output: copied when the scaling stays, else converted. -/
def State.collPlace (s : State) (d : CollDesc) (o0 : Nat) (chunk : List Byte) : CollOut :=
  if d.iscaled = d.oscaled && (d.out == d.fmt) then
    let recs := if d.iscaled then
        (List.range (d.count / 32)).flatMap fun b =>
          fieldRec (fieldAt chunk (up64 (d.bytes d.fmt d.count) + 4 * b) 2) ((o0 + b) % 65536)
      else []
    ⟨chunk.take (d.bytes d.fmt d.count), recs, 0⟩
  else s.collConvert d (32 * o0) o0 (d.values chunk)
where
  /-- A scale record with another tag. -/
  fieldRec (low tag : Nat) : List Byte := leBytes 2 low ++ leBytes 2 tag

/-- The output of member `self` from every member's chunk, in ring order; none on a mode clash. -/
def State.collResult (s : State) (d : CollDesc) (self : Nat) (chunks : List (List Byte)) : Option CollOut :=
  if d.reduces then
    let e0 := if d.kind = 0 then self * d.count else 0
    if d.bsr then s.collBuckets d e0 chunks else some (s.collReduce d e0 chunks)
  else some (joinOuts (chunks.zipIdx.map fun p => s.collPlace d (p.2 * (d.count / 32)) p.1))

/-! ### A collective in flight -/

/-- Its descriptor. -/
def Coll.d (c : Coll) : CollDesc := .ofBytes c.desc

/-- Members whose chunks enter this member's output. -/
def Coll.sources (c : Coll) : List Nat := (List.range c.members.length).filter fun i => c.d.feeds c.self i c.self

/-- Members that this member sends a chunk to, itself excepted. -/
def Coll.targets (c : Coll) : List Nat := (List.range c.members.length).filter fun j => j != c.self && c.d.feeds c.self c.self j

/-- Rank of a member. -/
def Coll.rank (c : Coll) (i : Nat) : Nat := c.members.getD i 0xFFFF

/-- Index of a rank among the members. -/
def Coll.indexOf (c : Coll) (r : Nat) : Option Nat := c.members.findIdx? (· == r)

/-- Stores a collective. -/
def State.setColl (s : State) (c : Coll) : State :=
  { s with link := { s.link with colls := s.link.colls.map fun x => if x.order = c.order then c else x } }

/-- Takes a collective out of flight and completes its operation with a code. -/
def State.endColl (s : State) (c : Coll) (code : Nat) : State :=
  { s with link := { s.link with colls := s.link.colls.filter fun x => x.order != c.order } }.opDone c.run c.seq code

/-- A collective fails (R502). -/
def State.failColl (s : State) (c : Coll) (code port : Nat) : State :=
  let s := if code / 0x1000 = 5 then s.odnErr code port else s
  s.endColl c code

/-- Sends a payload to a rank in DATA frames of at most 64 units, from an offset on. -/
def State.sendData (s : State) (rank xid : Nat) : Nat → Nat → List Byte → State
  | 0, _, _ => s
  | n + 1, off, bs =>
    let s := s.sendTo rank tDATA off xid (bs.take 4096)
    if bs.length ≤ 4096 then s else State.sendData s rank xid n (off + 4096) (bs.drop 4096)

/-- Serves the targets whose READY has arrived; a chunk that cannot be read fails the collective. -/
def State.serve (c : Coll) : List Nat → State → State × Coll × Nat
  | [], s => (s, c, 0)
  | j :: js, s =>
    let (s, code, bs) := s.readChunk c.d c.members.length j
    if code ≠ 0 then (s, c, code)
    else
      let s := if bs.isEmpty then s else State.sendData s (c.rank j) c.xid (bs.length / 4096 + 1) 0 bs
      State.serve { c with served := c.served ++ [j] } js s

/-- Whether a collective has served every target and has every chunk. -/
def Coll.complete (c : Coll) : Bool :=
  (c.targets.all c.served.contains) &&
    c.sources.all fun i => i == c.self || decide (c.d.chunkLen ≤ ((sfind c.recv i).getD []).length)

/-- Writes the output of a collective, notes its flags, and keeps its squares when SQSUM asks (R500, R501). -/
def State.collWrite (s : State) (c : Coll) (x : CollOut) : State × Nat :=
  let d := c.d
  let (s, code) := s.writeMem (asLink s d.bsr) d.dst x.data
  if code ≠ 0 then (s, code)
  else
    let (s, code) := if x.recs.isEmpty then (s, 0) else s.writeMem (asLink s false) (d.dst + up64 x.data.length) x.recs
    if code ≠ 0 then (s, code)
    else
      let s := s.sticky Reg.ODN_FLAGS_flags x.fl
      if !d.sqsum || !s.stepOpen then (s, 0)
      else match s.ownStack d.dst (Nat.max x.data.length 1) with
        | none => (s, 0)
        | some k => ({ s with step := { s.step with
            squares := insertSquare ⟨c.order, k, d.out == .bf32, x.data, x.recs⟩ s.step.squares } }, 0)

/-- Finishes a collective whose chunks are all here (R499-R501). -/
def State.finishColl (s : State) (c : Coll) : State :=
  let (s, code, own) := if c.sources.contains c.self then s.readChunk c.d c.members.length c.self else (s, 0, [])
  if code ≠ 0 then s.failColl c code 31
  else
    let chunks := c.sources.map fun i => if i = c.self then own else ((sfind c.recv i).getD []).take c.d.chunkLen
    if c.d.outCount c.members.length = 0 then s.endColl c 0
    else match s.collResult c.d c.self chunks with
      | none => s.failColl c arithMode 31
      | some x =>
        let (s, code) := s.collWrite c x
        if code ≠ 0 then s.failColl c code 31 else s.endColl c 0

/-- Moves a collective on: serves who is ready, and finishes it when everything is here. -/
def State.moveColl (s : State) (c : Coll) : State :=
  let due := c.targets.filter fun j => c.ready.contains j && !c.served.contains j
  let (s, c, code) := State.serve c due s
  if code ≠ 0 then s.failColl c code 31
  else
    let s := s.setColl c
    if c.complete then s.finishColl c else s

/-! ### Issue and voids (R425, R498, R502) -/

/-- Sends VOID to the other members of a group. -/
def State.voidMembers (s : State) (xid : Nat) (members : List Nat) : State :=
  (members.filter (· != s.selfRank)).foldl (fun t r => t.sendVoid xid r) s

/-- Early notices for a collective of the work at hand. -/
def State.noticesFor (s : State) (xid : Nat) : List Notice :=
  s.link.early.filter fun n => n.xid == xid && n.step == s.frameStep && n.eval == s.evaluating

/-- Forgets the notices that have been used. -/
def State.dropNotices (s : State) (ns : List Notice) : State :=
  { s with link := { s.link with early := s.link.early.filter fun n => !ns.contains n } }

/-- The work of COLL at issue: the operation fails, is void, or its collective is in flight and READY goes to the members
that send to this one. -/
def State.startColl (s : State) (void : Bool) (p seq addr : Nat) : State :=
  if addr % 64 ≠ 0 then (s.odnErr linkDesc 31).opDone p seq linkDesc
  else
    let (s, code, b) := s.readMem s.stepCollier addr 64
    if code ≠ 0 then s.opDone p seq code
    else
      let d := CollDesc.ofBytes b
      if !s.collDescOk b (if d.single then 2 else d.cnt) then (s.odnErr linkDesc 31).opDone p seq linkDesc
      else match s.collMembers d with
        | none => (s.odnErr linkRank 31).opDone p seq linkRank
        | some ms =>
          let others := ms.filter (· != s.selfRank)
          let notices := s.noticesFor d.xid
          let s := s.dropNotices notices
          if void then (s.voidMembers d.xid ms).opDone p seq 0
          else if !others.all s.reachable then (s.odnErr linkLost 31).opDone p seq linkLost
          else if notices.any (·.void.isSome) then s.opDone p seq 0
          else
            let c : Coll := {
              run := p, seq := seq, xid := d.xid, desc := b, members := ms, self := (ms.findIdx? (· == s.selfRank)).getD 0
              ready := (notices.map (·.rank)).filterMap fun r => ms.findIdx? (· == r)
              served := [], recv := [], issued := s.now, order := s.link.issued }
            let s := { s with link := { s.link with colls := s.link.colls ++ [c], issued := s.link.issued + 1 } }
            let s := (c.sources.filter (· != c.self)).foldl (fun t i => t.sendTo (c.rank i) tREADY 0 d.xid []) s
            s.moveColl c

/-- Ends the collectives in flight of a void step or run: their members that have not been served are told (R425). -/
def State.voidColls (s : State) (eval : Bool) : State :=
  if !s.voided eval then s
  else
    let cs := s.link.colls.filter fun c => match s.run c.run with
      | some r => r.eval == eval
      | none => false
    cs.foldl (fun t c =>
      ((t.voidMembers c.xid ((c.members.zipIdx.filter fun m => !c.served.contains m.2).map (·.1)))).endColl c 0) s

/-! ### Frames of collectives -/

/-- Whether a frame belongs to the step or run at hand (R485). -/
def State.frameCurrent (s : State) (f : Frame) : Bool :=
  (s.stepOpen || s.evaluating) && fStep f == s.frameStep && fEval f == s.evaluating

/-- The collective of a frame. -/
def State.collOf (s : State) (f : Frame) : Option Coll := s.link.colls.find? fun c => c.xid == fXid f

/-- Keeps a notice until its collective is issued. -/
def State.keepNotice (s : State) (f : Frame) (void : Option Nat) : State :=
  { s with link := { s.link with early := s.link.early ++ [⟨fStep f, fEval f, fXid f, fSrc f, void⟩] } }

/-- A READY frame (R498). -/
def State.takeReady (s : State) (f : Frame) : State :=
  match if s.frameCurrent f then s.collOf f else none with
  | none => s.keepNotice f none
  | some c => match c.indexOf (fSrc f) with
    | none => s
    | some i => s.moveColl { c with ready := c.ready ++ [i] }

/-- A DATA frame (R502): one of another step is discarded with LINK_STEP and FAULT. -/
def State.takeData (s : State) (f : Frame) (port : Nat) : State :=
  if !s.frameCurrent f then
    let s := (s.odnErr linkStep port).veto vFAULT
    if s.evaluating then s.workFailed linkStep else s
  else match s.collOf f with
    | none => s
    | some c => match c.indexOf (fSrc f) with
      | none => s
      | some i =>
        let got := (sfind c.recv i).getD []
        if fOffset f ≠ got.length then s
        else s.moveColl { c with recv := sput c.recv i (got ++ f.payload) }

/-- Whether a training run's GNORM asks to stop on a bad loss (R425, R426). -/
def State.lossStops (s : State) : Bool :=
  s.col.runs.any fun r => !r.eval && match s.gnormOf r.main with
    | some g => bit (s.peekByte (sArg g + 4)).toNat 0 && bit (s.peekByte (sArg g + 4)).toNat 1
    | none => false

/-- Vote reasons of another member enter the local vote, and void the step when R425 says so. -/
def State.hearReasons (s : State) (reasons : Nat) : State :=
  let before := (s.stepState = 1 || s.stepState = 2) && !s.isSet Reg.COL_STEP_STATUS_CLOSED
  let s := if reasons = 0 then s else s.veto reasons
  if before && reasons &&& vLOSS ≠ 0 && s.lossStops then s.put Reg.COL_STEP_STATUS_VOID 1 else s

/-- A void notice (R425, R502): its reasons enter the local vote, and its collective completes without writing. -/
def State.takeVoid (s : State) (f : Frame) : State :=
  let reasons := fieldAt f.payload 0 4 &&& 0x1FF
  let current := s.frameCurrent f
  let target := s.collOf f
  let s := if current && !s.evaluating then s.hearReasons reasons else s
  match if current then target else none with
  | none => s.keepNotice f (some reasons)
  | some c => s.endColl c 0

end Sys2Proof.Machine
end

