-- ==== Sys2Proof/Machine/StepEnd.lean ====
section
/-! DEFINITION. How steps and evaluation runs end (R416, R420, R432, R433, R440, R448): commit, skip, tear and the end of a
run. Aborts stand in Machine/Collier.lean. -/

namespace Sys2Proof.Machine

/-- Removes the runs of training or of an evaluation, with their collectives, held operations and requests to the host. -/
def State.clearRuns (s : State) (eval : Bool) : State :=
  let gone := (s.col.runs.filter (·.eval == eval)).map (·.id)
  let keeps := fun (r : HostReq) => match r with
    | .operation p _ => !gone.contains p
    | _ => true
  { s with
    col := { s.col with runs := s.col.runs.filter (·.eval != eval) }
    link := { s.link with colls := s.link.colls.filter fun c => !gone.contains c.run }
    kilns := (s.kilns.map fun p => (p.1, { p.2 with heldOps := p.2.heldOps.filter fun h => !gone.contains h.1 })).filter
      fun p => p.2 != Kiln.empty
    hif := { s.hif with waiting := s.hif.waiting.filter keeps, granted := s.hif.granted.filter keeps } }

/-- Lets go of what a held COMMIT_STEP holds: it no longer waits for the global result (R419). -/
def State.releaseHolds (s : State) : State :=
  { s with col := { s.col with started := s.col.started.map fun (c : Started) => { c with hold := false } } }.put
    Reg.COL_STEP_STATUS_COMMITREQ 0

/-- What a commit and a skip share (R433, R461): promotions take effect, the step counter and the data position advance,
the shards that the step's UPDATEs named become the shard table, and an automatic bank may be due (R465). -/
def State.stepDone (s : State) : State :=
  let n := s.get Reg.COL_STEP_NUM_STEP
  let s := ((s.promote).bump Reg.COL_STEP_NEXT_NEXT 1).freeSteps n
  let every := s.get Reg.BNK_CTL_INTERVAL
  let due := s.isSet Reg.BNK_CTL_AUTO && every != 0 && s.get Reg.COL_STEP_NEXT_NEXT != 0 &&
    s.get Reg.COL_STEP_NEXT_NEXT % every == 0
  { s with
    step := { s.step with shards := s.step.shardsIn, shardsIn := [], updates := [], deadline := none }
    bank := { s.bank with due := due }
    link := { s.link with mirror := none, digestIn := none } }

/-- The step has committed (R416, R420, R433). -/
def State.commitDone (s : State) : State :=
  let s := s.stepDone.bump Reg.COL_STEP_UPDATES_COUNT 1
  let s := ((s.setLast 1).enter 5).clearRuns false
  let s := s.completeEvery 0x03 0 0 s.voteDetail s.step.flags
  s.completeEvery 0x02 0 (s.get Reg.COL_STEP_NUM_STEP) s.voteDetail s.step.flags

/-- The commit has torn (R416, R420, R440). -/
def State.tear (s : State) : State :=
  let s := { s with step := { s.step with updates := [], shardsIn := [] } }
  let s := (((s.releaseHolds).setLast 4).enter 7).clearRuns false
  let s := s.completeEvery 0x03 stepTorn 0 s.voteDetail s.step.flags
  s.completeEvery 0x02 stepTorn (s.get Reg.COL_STEP_NUM_STEP) s.voteDetail s.step.flags

/-- The step is skipped (R416, R418, R420, R433): UPDATEs that wait complete without effect. -/
def State.skipStep (s : State) : State :=
  let waiting := s.step.updates
  let s := s.stepDone.bump Reg.COL_STEP_SKIPS_COUNT 1
  let s := ((s.releaseHolds).setLast 2).enter 5
  let s := waiting.foldl (fun t u => t.opDone u.run u.seq 0) s
  let s := s.completeEvery 0x03 stepSkipped 0 s.voteDetail s.step.flags
  s.completeEvery 0x02 stepSkipped (s.get Reg.COL_STEP_NUM_STEP) s.voteDetail s.step.flags

/-- Runs UPDATEs in their order of issue; whether an engine stopped. The other engines finish their shards (R440). -/
def State.runUpdates : List UpdateWait → State → State × Bool
  | [], s => (s, false)
  | u :: us, s =>
    let (s, stopped) := s.runUpdate u
    let (s, more) := State.runUpdates us (s.opDone u.run u.seq 0)
    (s, stopped || more)

/-- Runs the UPDATEs that wait in COMMIT; the commit tears when an engine stopped (R416, R440). -/
def State.commitUpdates (s : State) : State :=
  let us := s.step.updates
  let (s, stopped) := State.runUpdates us { s with step := { s.step with updates := [] } }
  if stopped then s.tear else s

/-- COMMIT begins (R416). -/
def State.beginCommit (s : State) : State :=
  ((s.releaseHolds).enter 4).commitUpdates

/-- The step becomes REDUCED, and COMMIT begins when AUTO is set or a COMMIT_STEP is held (R416, R419, R420). -/
def State.reduce (s : State) : State :=
  let s := s.enter 3
  let auto := s.isSet Reg.COL_STEP_STATUS_AUTO
  let s := if auto then s else
    let t := s.completeEvery 0x02 0 (s.get Reg.COL_STEP_NUM_STEP) s.voteDetail s.step.flags
    { t with step := { t.step with flags := 0 } }
  if auto || s.isSet Reg.COL_STEP_STATUS_COMMITREQ then s.beginCommit else s

/-- Decision of R432 from a vote: 0 commit, 1 skip, 2 abort. -/
def decideVote (v : Nat) : Nat :=
  if v &&& faultMask ≠ 0 then 2
  else if v &&& 3 ≠ 0 then (if bit v 31 then 2 else 1)
  else 0

/-- Takes a decided outcome (R416, R432). -/
def State.takeOutcome (s : State) (outcome : Nat) : State :=
  let s := { s with step := { s.step with deadline := none } }
  match outcome with
  | 0 => s.reduce
  | 1 => s.skipStep
  | _ => s.abortStep

/-- The end of an evaluation run (R447, R448): the region table returns, and on success the cursor advances. -/
def State.evalDone (s : State) : State :=
  let code := s.step.evalCode
  let s := { s with cfg := { s.cfg with active := { s.cfg.active with regions := s.step.regions } } }
  let s := (s.clearRuns true).put Reg.COL_STATUS_EVALRUN 0
  let s := if code = 0 && s.isSet Reg.RIK_STATUS_BOUND1 then
      let pos := s.get Reg.RIK_EVAL_POS_CURSOR
      (s.setPrepared 1 ((s.prepared 1).filter (·.step != pos))).put Reg.RIK_EVAL_POS_CURSOR (pos + (s.bind 1).batch)
    else s
  match s.col.started.find? fun c => c.opc = 0x05 with
  | some c => s.complete c code
  | none => s

end Sys2Proof.Machine
end

