-- ==== Sys2Proof/Machine/Program.lean ====
section
/-! DEFINITION. Step-program operations of control (R397-R405): what completes by itself as a step or run moves on, fences,
copies, schedules, calls, timers, pins, table swaps and owner changes. -/

namespace Sys2Proof.Machine

/-! ### Fences (R405) -/

/-- Whether an operation in flight may still write what a fence of the given kilns must see. -/
def State.stillWrites (s : State) (p kilns : Nat) (op : BitVec 128) : Bool :=
  match sOp op with
  | 0x01 | 0x06 | 0x07 | 0x08 | 0x13 => s.opKilns p op &&& kilns != 0
  | 0x04 | 0x05 => true
  | _ => false

/-- Whether a kiln of a mask is quarantined. -/
def State.anyQuarantined (s : State) (kilns : Nat) : Bool := kilns &&& s.get Reg.PWR_QUAR_KILNS != 0

/-- Whether every kiln of a run's stage is quarantined. -/
def State.stageGone (s : State) (r : ProgRun) : Bool :=
  let m := s.stageKilns r.id
  m != 0 && m &&& s.get Reg.PWR_QUAR_KILNS == m

/-- Runs that take part in an MFENCE of run r: those of the branches in its mask, and r itself. -/
def State.fenceGroup (s : State) (r : ProgRun) (op : BitVec 128) : List ProgRun :=
  s.col.runs.filter fun x => x.eval == r.eval && !x.ended && (x.id == r.id || bit (sArg op) (x.id / 32))

/-- The MFENCE with a mask at which a run stands. -/
def ProgRun.atFence (r : ProgRun) (mask : Nat) : Option Flight := r.flight.find? fun f => sOp f.op == 0x03 && sArg f.op == mask

/-- How a fence in flight completes now, if it does: its code, and the runs with their fences. -/
def State.fenceDue (s : State) (r : ProgRun) (f : Flight) : Option (Nat × List (ProgRun × Flight)) :=
  match sOp f.op with
  | 0x02 =>
    let ks := s.opKilns r.id f.op
    if s.anyQuarantined ks then some (memFenced, [(r, f)])
    else if r.flight.any fun x => decide (x.seq < f.seq) && s.stillWrites r.id ks x.op then none
    else some (0, [(r, f)])
  | 0x03 =>
    let group := s.fenceGroup r f.op
    let ready := group.all fun x => s.stageGone x ||
      ((x.atFence (sArg f.op)).isSome && !x.flight.any fun y => s.stillWrites x.id (2 ^ 32 - 1) y.op)
    if ready then
      some (if group.any s.stageGone then memFenced else 0, group.filterMap fun x => (x.atFence (sArg f.op)).map (x, ·))
    else none
  | _ => none

/-- The first fence that completes now. -/
def State.nextFence (s : State) : Option (Nat × List (ProgRun × Flight)) :=
  s.col.runs.findSome? fun r => r.flight.findSome? fun f => s.fenceDue r f

/-- A table swap that a run asked for (R398); HEARTHS 0 names every hearth of the kilns. -/
def State.runSwap (s : State) (p : Nat) (op : BitVec 128) : State :=
  s.swapTable (bits (sArg op) 0 8) (bits (sArg op) 16 8) (s.opKilns p op) (if sHearths op = 0 then 0xFFF else sHearths op)

/-- An owner change (R327, R398). -/
def State.runOwner (s : State) (op : BitVec 128) : State :=
  let i := bits (sArg op) 0 14
  match s.cfg.active.regions[i]? with
  | some r => { s with cfg := { s.cfg with active := { s.cfg.active with
      regions := s.cfg.active.regions.set i { r with owner := BitVec.ofNat 32 (sArg op / 2 ^ 32) } } } }
  | none => s

/-- A fence completes in a run: waiting swaps take effect, and at an MFENCE waiting owner changes (R405). -/
def State.passFence (s : State) (code : Nat) (x : ProgRun × Flight) : State :=
  match s.run x.1.id with
  | none => s
  | some r =>
    let s := r.swaps.foldl (fun t op => t.runSwap r.id op) s
    let full := sOp x.2.op == 0x03
    let s := if full then r.owners.foldl (fun t op => t.runOwner op) s else s
    let s := s.setRun { r with swaps := [], owners := if full then [] else r.owners }
    s.opDone r.id x.2.seq code

/-! ### What completes by itself -/

/-- Number of the step or cursor of the run at hand whose micro-batches WAITMB waits for (R313, R315). -/
def State.waitStep (s : State) (eval : Bool) : Nat × Nat :=
  if eval then (1, s.get Reg.RIK_EVAL_POS_CURSOR) else (0, s.get Reg.COL_STEP_NUM_STEP)

/-- A WAITMB whose micro-batch is ready. -/
def State.nextBatch (s : State) : Option (Nat × Nat) :=
  s.col.runs.findSome? fun r => (r.flight.find? fun f =>
    let w := s.waitStep r.eval
    sOp f.op == 0x0B && s.batchReady w.1 w.2 (bits (sArg f.op) 0 16)).map fun f => (r.id, f.seq)

/-- Whether a void step or run still has collectives in flight. -/
def State.collsToVoid (s : State) (eval : Bool) : Bool :=
  s.voided eval && s.link.colls.any fun c => match s.run c.run with
    | some r => r.eval == eval
    | none => false

/-- Runs of training or evaluation. -/
def State.runsOf (s : State) (eval : Bool) : List ProgRun := s.col.runs.filter (·.eval == eval)

/-- Whether every run of a kind has ended with nothing in flight. -/
def State.runsDone (s : State) (eval : Bool) : Bool := (s.runsOf eval).all fun r => r.ended && r.flight.isEmpty

/-- One thing that completes or changes by itself now, if there is one: collectives of a void step end, a fence or a WAITMB
completes, OPEN becomes RUNNING, COMMIT becomes COMMITTED, an evaluation run completes (R405, R416, R425, R447). -/
def State.advance (s : State) : Option State :=
  if s.collsToVoid false then some (s.voidColls false)
  else if s.collsToVoid true then some (s.voidColls true)
  else match s.nextFence with
    | some (code, xs) => some (xs.foldl (fun t x => t.passFence code x) s)
    | none => match s.nextBatch with
      | some (p, seq) => some (s.opDone p seq 0)
      | none =>
        if s.stepState = 1 && (s.runsOf false).all (fun r => decide (1 ≤ r.count)) then some (s.enter 2)
        else if s.stepState = 4 && s.step.updates.isEmpty && s.runsDone false then some s.commitDone
        else if s.evaluating && s.runsDone true then some s.evalDone
        else none

/-- Advances until nothing completes by itself. Each advance ends an operation in flight, a collective or a state, of which
there are at most 65,536 and a few. -/
def State.progressGo : Nat → State → State
  | 0, s => s
  | n + 1, s => match s.advance with
    | some t => State.progressGo n t
    | none => s

/-- Everything that completes by itself, and the commands that waited for it. -/
def State.progress (s : State) : State := (State.progressGo 131200 s).settle

/-- Issues an operation of a run, and lets follow what completes by itself. -/
def State.runOp (s : State) (code : Nat) (p : Fin 512) (op : BitVec 128) (more : State → Nat) (work : State → Nat → State) :
    Host.Outcome State Fault Refusal := .next ((s.issueOp code p op more work).progress)

/-- Whether a run belongs to an evaluation. -/
def State.isEval (s : State) (p : Nat) : Bool :=
  match s.run p with
  | some r => r.eval
  | none => false

/-- Whether operations of a run behave as in a void step (R425). -/
def State.runVoid (s : State) (p : Nat) : Bool := s.voided (s.isEval p)

/-- Changes a run. -/
def State.onRun (s : State) (p : Nat) (f : ProgRun → ProgRun) : State :=
  match s.run p with
  | some r => s.setRun (f r)
  | none => s

/-! ### COPYOP (R338, R398) -/

/-- The copy engine in a step program. -/
def asCopier (s : State) : Who := { unit := 0x2C0, step := s.stepOpen }

/-- Copies what a record asks for: SRC, DST and LEN; the code. -/
def State.copyRecord (s : State) (r : List Byte) : State × Nat :=
  let (s, c, bs) := s.readMem (asCopier s) (fieldAt r 0 8) (fieldAt r 16 8)
  if c ≠ 0 then (s, c) else s.writeMem (asCopier s) (fieldAt r 8 8) bs

/-- The work of COPYOP once what it reads from the host is there. -/
def State.copyOpWork (s : State) (p seq addr : Nat) : State :=
  let (s, c, r) := s.readMem (asCopier s) addr 32
  if c ≠ 0 then s.opDone p seq c
  else
    let (s, c) := s.copyRecord r
    s.opDone p seq c

/-- COPYOP at issue: a copy out of the host window, or a record there, waits for the host. -/
def State.startCopy (s : State) (p seq addr : Nat) : State :=
  if s.runVoid p then s.opDone p seq 0
  else
    let r := s.peek addr 32
    if (touchesWindow addr 32 || touchesWindow (fieldAt r 0 8) (fieldAt r 16 8)) && s.windowOpen then s.askHost (.operation p seq)
    else s.copyOpWork p seq addr

/-- COPYOP (R338, R398). -/
def execCopyop (p : Fin 512) (op : BitVec 128) (s : State) : Host.Outcome State Fault Refusal :=
  s.runOp 0x04 p op alone fun s seq => s.startCopy p seq (sArg op)

/-! ### END, fences, swaps and owners -/

/-- END (R398). -/
def execProgEnd (p : Fin 512) (op : BitVec 128) (s : State) : Host.Outcome State Fault Refusal :=
  s.runOp 0x00 p op alone fun s seq => (s.onRun p fun r => { r with ended := true }).opDone p seq 0

/-- DFENCE (R398, R405): in flight until progress completes it. -/
def execDfence (p : Fin 512) (op : BitVec 128) (s : State) : Host.Outcome State Fault Refusal :=
  s.runOp 0x02 p op alone fun s _ => s

/-- MFENCE (R398, R405): in flight until progress completes it. -/
def execMfence (p : Fin 512) (op : BitVec 128) (s : State) : Host.Outcome State Fault Refusal :=
  s.runOp 0x03 p op alone fun s _ => s

/-- TSWAP (R398): waits for the next fence of the run; a kind or slot that no table has fails. -/
def execTswap (p : Fin 512) (op : BitVec 128) (s : State) : Host.Outcome State Fault Refusal :=
  s.runOp 0x09 p op alone fun s seq =>
    let kind := bits (sArg op) 0 8
    if decide (1 ≤ kind ∧ kind ≤ 5 ∧ bits (sArg op) 16 8 < slotLimit kind) then
      (s.onRun p fun r => { r with swaps := r.swaps ++ [op] }).opDone p seq 0
    else s.opDone p seq cfgTable

/-- OWNER (R327, R398): waits for the run's next MFENCE; a region or owner word that R325 does not know fails. -/
def execOwner (p : Fin 512) (op : BitVec 128) (s : State) : Host.Outcome State Fault Refusal :=
  s.runOp 0x0A p op alone fun s seq =>
    match s.cfg.active.regions[bits (sArg op) 0 14]? with
    | none => s.opDone p seq cfgMemory
    | some r =>
      if ownerOk r.base r.len (sArg op / 2 ^ 32) then
        (s.onRun p fun r => { r with owners := r.owners ++ [op] }).opDone p seq 0
      else s.opDone p seq cfgMemory

/-- WAITMB (R313, R398): in flight until progress finds the micro-batch ready; a void step does not wait (R425). -/
def execWaitmb (p : Fin 512) (op : BitVec 128) (s : State) : Host.Outcome State Fault Refusal :=
  s.runOp 0x0B p op alone fun s seq => if s.runVoid p then s.opDone p seq 0 else s

/-! ### SCHED, RET and CALL (R398, R401-R404) -/

/-- Issues prefetch copies ahead of their entries. The place after them stays free, so that WAIT does not wait for them
(R404). -/
def State.issuePrefetches (p : Nat) (xs : List (Nat × BitVec 128)) (s : State) : State :=
  if xs.isEmpty then s
  else (xs.foldl (fun t x =>
    let y := t.launch p x.1 x.2
    y.1.startCopy p y.2 (sArg x.2)) s).onRun p fun r => { r with count := r.count + 1 }

/-- Entries whose prefetches issue when SCHED begins: the backward ones below PREF, and the one that entry 0 asks for. -/
def State.firstPrefetches (s : State) (p : Nat) : List (Nat × BitVec 128) :=
  match s.schedule p with
  | some t => s.prefetches p (List.range (t.pref + 1))
  | none => []

/-- Prefetches that issue when entry i begins. -/
def State.entryPrefetches (s : State) (p i : Nat) : List (Nat × BitVec 128) :=
  match s.schedule p with
  | some t => s.prefetches p [i + t.pref]
  | none => []

/-- Goes to the body of schedule entry i, or past the schedule after its last entry; `back` is where SCHED returns. -/
def State.enterEntry (s : State) (p i : Nat) (back : ReturnPoint) (rest : List ReturnPoint) : State :=
  match s.schedEntry p i with
  | some e => s.onRun p fun r => { r with prog := back.prog, pc := e.body / 16, stack := { back with entry := some i } :: rest }
  | none => s.onRun p fun r => { r with prog := back.prog, pc := back.pc, stack := rest }

/-- SCHED (R403, R404). -/
def execSched (p : Fin 512) (op : BitVec 128) (s : State) : Host.Outcome State Fault Refusal :=
  s.runOp 0x0C p op (fun s => (s.firstPrefetches p).length) fun s seq =>
    let s := s.opDone p seq 0
    match s.run p with
    | none => s
    | some r =>
      let xs := s.firstPrefetches p
      (s.enterEntry p 0 ⟨r.prog, r.pc, none⟩ r.stack).issuePrefetches p xs

/-- Prefetches that the RET at hand sets off. -/
def State.retPrefetches (s : State) (p : Nat) : List (Nat × BitVec 128) :=
  match s.run p with
  | some r => match r.stack with
    | ⟨_, _, some i⟩ :: _ => if (s.schedEntry p (i + 1)).isSome then s.entryPrefetches p (i + 1) else []
    | _ => []
  | none => []

/-- RET (R398, R403, R404). A RET without a caller changes nothing; no load accepts one (R400). -/
def execRet (p : Fin 512) (op : BitVec 128) (s : State) : Host.Outcome State Fault Refusal :=
  s.runOp 0x0D p op (fun s => (s.retPrefetches p).length) fun s seq =>
    let s := s.opDone p seq 0
    match s.run p with
    | none => s
    | some r => match r.stack with
      | [] => s
      | b :: rest => match b.entry with
        | none => s.onRun p fun r => { r with prog := b.prog, pc := b.pc, stack := rest }
        | some i =>
          let xs := s.retPrefetches p
          (s.enterEntry p (i + 1) b rest).issuePrefetches p xs

/-- CALL (R398). -/
def execCall (p : Fin 512) (op : BitVec 128) (s : State) : Host.Outcome State Fault Refusal :=
  s.runOp 0x0E p op alone fun s seq =>
    (s.opDone p seq 0).onRun p fun r =>
      { r with prog := bits (sArg op) 0 32, pc := 0, stack := ⟨r.prog, r.pc, none⟩ :: r.stack }

/-! ### Timers and pins -/

/-- TIMER (R398). -/
def execTimer (p : Fin 512) (op : BitVec 128) (s : State) : Host.Outcome State Fault Refusal :=
  s.runOp 0x0F p op alone fun s seq =>
    let t := bits (sArg op) 0 6
    let s := { s with col := { s.col with
        timers := sput s.col.timers t (s.now + bits (sArg op) 32 32, !s.isEval p)
        expired := s.col.expired.filter (· != t) } }
    s.opDone p seq 0

/-- TWAITs in flight on a timer. -/
def State.timerWaits (s : State) (t : Nat) : List (Nat × Nat) :=
  s.col.runs.flatMap fun r => (r.flight.filter fun f => sOp f.op == 0x10 && bits (sArg f.op) 0 6 == t).map fun f => (r.id, f.seq)

/-- TIMER_EXPIRY (R398): the stoke of an armed timer has come, and TWAITs on it complete. -/
def execTimerExpiry (t : Fin 64) (s : State) : Host.Outcome State Fault Refusal :=
  match sfind s.col.timers t with
  | none => .next s
  | some (at_, _) =>
    if s.now < at_ then .next s
    else
      let s := { s with col := { s.col with timers := sdel s.col.timers t, expired := t.val :: s.col.expired } }
      .next ((s.timerWaits t).foldl (fun u x => u.opDone x.1 x.2 0) s).progress

/-- TWAIT (R398): in flight until its timer expires; a timer that is not armed does not hold it. -/
def execTwait (p : Fin 512) (op : BitVec 128) (s : State) : Host.Outcome State Fault Refusal :=
  s.runOp 0x10 p op alone fun s seq =>
    if (sfind s.col.timers (bits (sArg op) 0 6)).isSome then s else s.opDone p seq 0

/-- PIN (R398, R606): the level takes effect at the next stoke edge. -/
def execPin (p : Fin 512) (op : BitVec 128) (s : State) : Host.Outcome State Fault Refusal :=
  s.runOp 0x11 p op alone fun s seq =>
    let s := { s with pins := { s.pins with next := sput s.pins.next (bits (sArg op) 0 4) (bit (sArg op) 8) } }
    s.opDone p seq 0

end Sys2Proof.Machine
end

