-- ==== Sys2Proof/Machine/IngestCmds.lean ====
section
/-! DEFINITION. The commands and events of ingest (R281-R317); a micro-batch that becomes ready lets a WAITMB complete. -/

namespace Sys2Proof.Machine

/-- INGEST_BIND (R282, R315, R379, R394). It waits during a LOAD_CONFIG, and while the binding that it names is in use. -/
def execIngestBind (sq : Fin 64) (d : BitVec 512) (s : State) : Host.Outcome State Fault Refusal :=
  .next (s.hostCommand 0x0C sq d
    (fun s => s.loading || (!inWindow (dField d 8 8) && s.bindWaits (s.peekByte (dField d 8 8)).toNat))
    fun s c => s.afterRead c (dField d 8 8) 128 bindWork)

/-- STEP_PREPARATION (R285, R310, R315): the lowest step that is missing is drawn; prepared steps outside the steps ahead,
which a write of COL_STEP_NEXT left behind, go. Micro-batches whose writes failed are tried again. -/
def execStepPreparation (b : Fin 2) (s : State) : Host.Outcome State Fault Refusal :=
  if !s.isSet (boundReg b) then .next s
  else
    let x := s.bind b
    let next := if b.val = 0 then s.get Reg.COL_STEP_NEXT_NEXT else s.get Reg.RIK_EVAL_POS_CURSOR
    let s := s.setPrepared b ((s.prepared b).filter fun p =>
      (b.val == 0 && s.isOpened p) || decide (next ≤ p.step ∧ p.step < next + x.ahead))
    match s.toPrepare b with
    | none => .next ((s.prepared b).foldl (fun t p => (List.range x.batches).foldl (fun u m => u.closeBatch b p.step m) t) s).progress
    | some n =>
      let p := s.drawStep x b n
      .next (((s.setPrepared b (s.prepared b ++ [p])).bump Reg.RIK_DRAWS_COUNT x.batch).openPrepared b p).progress

/-- DEMAND_ISSUE (R289): the first clip in position order that waits. -/
def execDemandIssue (b : Fin 2) (s : State) : Host.Outcome State Fault Refusal :=
  match (s.clips b).find? fun x => x.clip.state == .waiting with
  | some x => .next (s.issueDemand x)
  | none => .next s

/-- RING_TAIL_DOORBELL (R290, R520-R522). -/
def execRingTailDoorbell (ring : Fin 32) (a : DoorbellWrite) (s : State) : Host.Outcome State Fault Refusal :=
  .next (s.doorbell (0x80000 + ring * 0x1000) 40 a fun s => s.ringTail ring a.value.toNat)

/-- CHUNK (R291-R295). A ring in host memory is read over the host link first (R529). -/
def execChunk (ring : Fin 32) (s : State) : Host.Outcome State Fault Refusal :=
  if s.isSet (Reg.ING_KR_CTL_EN ring) && decide (32 ≤ s.ringHeld ring) && inWindow (s.ringHeadAt ring) && s.windowOpen then
    .next (if s.hif.waiting.contains (.chunk ring) then s else s.askHost (.chunk ring))
  else .next (s.takeChunk ring).progress

/-- DEMAND_TIMEOUT (R294, R295): a demand in flight for TIMEOUT stokes fails, unless a chunk is there to be taken first. -/
def execDemandTimeout (b : Fin 2) (demand : BitVec 32) (s : State) : Host.Outcome State Fault Refusal :=
  match (s.clips b).find? fun x => x.clip.demand = some demand.toNat && x.clip.state == .fetching with
  | none => .next s
  | some x =>
    let ring := (s.bind b).ringOf x.k
    if s.now < x.clip.issued + s.get Reg.ING_TIMEOUT_STOKES || s.chunkThere ring then .next s
    else .next ((s.ingErr ingTimeout ring).retryDemand x 5).progress

/-- CLIP_DECODE (R300): the clip of a demand whose bytes are covered. -/
def execClipDecode (b : Fin 2) (demand : BitVec 32) (s : State) : Host.Outcome State Fault Refusal :=
  match (s.clips b).find? fun x => x.clip.demand = some demand.toNat && x.clip.state == .covered with
  | some x => .next (s.decode x).progress
  | none => .next s

end Sys2Proof.Machine
end

