-- ==== Sys2Proof/Machine/Stream.lean ====
section
/-! DEFINITION. The hearth sequencers (R137, R138): instruction streams in hearth memory, decoded and run in order. -/

namespace Sys2Proof.Machine

/-- A reserved vector opcode (R180, R622). -/
def doReservedVector (h : Nat) (w : BitVec 128) (s : State) : State := (s.issue h).1.vecError h arithOpcode w

/-- CVT, DRAW and RAND share an opcode, and FUNC tells them apart (R180, R443). -/
def doCvtFamily (h : Nat) (w : BitVec 128) (s : State) : State :=
  match vFunc w with
  | 1 => doDraw h w s
  | 2 => doRand h w s
  | _ => doCvt h w s

/-- Runs one instruction by its opcode (R137, R142, R180). -/
def doWord (h : Nat) (w : BitVec 128) (s : State) : State :=
  match opcodeOf w with
  | 0x01 => doMma h w s
  | 0x02 => doOut h w s
  | 0x03 => doClr h w s
  | 0x04 => doBsst h w s
  | 0x05 => doBsadd h w s
  | 0x20 => doKred h w s
  | 0x21 => doRstat h w s
  | 0x22 => doHbar h w s
  | 0x40 => doVld h w s
  | 0x41 => doVst h w s
  | 0x42 => doVgath h w s
  | 0x43 => doVscat h w s
  | 0x44 => doVsplat h w s
  | 0x48 => doFadd h w s
  | 0x49 => doFsub h w s
  | 0x4A => doFmul h w s
  | 0x4B => doFfma h w s
  | 0x4C => doFmin h w s
  | 0x4D => doFmax h w s
  | 0x4E => doFdiv h w s
  | 0x4F => doFsqrt h w s
  | 0x50 => doFcmp h w s
  | 0x51 => doSel h w s
  | 0x54 => doGmul h w s
  | 0x55 => doGadd h w s
  | 0x56 => doGsub h w s
  | 0x58 => doIadd h w s
  | 0x59 => doIsub h w s
  | 0x5A => doImul h w s
  | 0x5B => doIlog h w s
  | 0x5C => doIshf h w s
  | 0x5E => doCvtFamily h w s
  | 0x60 => doFn h w s
  | 0x61 => doFnm h w s
  | 0x68 => doNorm h w s
  | 0x69 => doStcomb h w s
  | 0x6A => doSmax h w s
  | o => if o < 0x40 then doReserved h w s else doReservedVector h w s

/-- Fetches one instruction: its bytes, or the code that ends the stream. -/
def State.fetch (s : State) (h at_ : Nat) : State × Checked (List Byte) :=
  if hearthBytes < at_ + 16 then (s, .error arithDesc) else checkRead (s.hRead h 0 at_ 16)

/-- Runs n instructions of a stream in order (R138). An instruction that fails leaves the rest to run; one that cannot be
fetched ends the stream. -/
def runWords (h : Nat) : Nat → Nat → State → State
  | 0, _, s => s
  | n + 1, at_, s =>
    orElse (s.fetch h at_) (fun s c => s.hearthError h c 0) fun s bs =>
      runWords h n (at_ + 16) (doWord h (BitVec.ofNat 128 (leNat bs)) s)

/-- Runs a stream on each of the hearths, in hearth order: hearths share no state that an order could show (R28). -/
def State.runStreams (s : State) (hs : List Nat) (at_ n : Nat) : State := hs.foldl (fun t h => runWords h n at_ t) s

end Sys2Proof.Machine
end

