-- ==== Sys2Proof/Machine/Routing.lean ====
section
/-! DEFINITION. Routing (R266-R277): dispatch descriptors and expert maps, choosing experts, the exchange, the return and
route records. One DISPATCH or COMBINE is this module's whole part in an exchange of its layer. -/

namespace Sys2Proof.Machine

/-! ### Descriptors and maps (R268, R269) -/

/-- A dispatch descriptor. -/
structure DispDesc where
  layer    : Nat
  first    : Nat
  count    : Nat
  k        : Nat
  gnorm    : Bool
  policy   : Bool
  nexp     : Nat
  ovf      : Nat
  scores   : Nat
  spitch   : Nat
  tokens   : Nat
  tpitch   : Nat
  rowBytes : Nat
  ret      : Nat
  result   : Nat
  map      : Nat
  rrec     : Nat
deriving DecidableEq, Repr

/-- A descriptor from its 64 bytes. -/
def DispDesc.ofBytes (b : List Byte) : DispDesc where
  layer := fieldAt b 0 2
  first := fieldAt b 2 2
  count := fieldAt b 4 2
  k := fieldAt b 6 1
  gnorm := bit (fieldAt b 7 1) 0
  policy := bit (fieldAt b 7 1) 1
  nexp := fieldAt b 8 2
  ovf := fieldAt b 10 2
  scores := fieldAt b 12 4
  spitch := fieldAt b 16 4
  tokens := fieldAt b 20 4
  tpitch := fieldAt b 24 4
  rowBytes := fieldAt b 28 2
  ret := fieldAt b 32 4
  result := fieldAt b 36 4
  map := fieldAt b 40 8
  rrec := fieldAt b 48 8

/-- Whether every field of a descriptor lies in its range (R268); the map lies in the stack of the hearth's kiln. -/
def State.dispOk (s : State) (h : Nat) (b : List Byte) : Bool :=
  let d := DispDesc.ofBytes b
  decide (1 ≤ d.count ∧ d.count ≤ 8192 ∧ d.first + d.count ≤ 8192 ∧ 1 ≤ d.k ∧ d.k ≤ 8 ∧ fieldAt b 7 1 < 4) &&
    decide (1 ≤ d.nexp ∧ d.nexp ≤ 4096 ∧ 64 ≤ d.rowBytes ∧ d.rowBytes ≤ 65472) && (!d.policy || decide (d.ovf < d.nexp)) &&
    ([d.scores, d.tokens, d.ret, d.result].all fun o => o % 64 == 0 && decide (o < hearthBytes)) &&
    zeroAt b 30 2 && zeroAt b 56 8 && s.ownStack d.map (16 * d.nexp) == some (kilnOf h)

/-- Reads and checks the descriptor at an offset of hearth h's memory. -/
def State.readDisp (s : State) (h off : Nat) : State × Checked DispDesc :=
  if hearthBytes < off + 64 then (s, .error arithDesc)
  else
    andRead (s.hRead h 0 off 64) .error fun s b => (s, if s.dispOk h b then .ok (.ofBytes b) else .error arithField)

/-- An expert as its map entry places it. -/
structure Expert where
  rank   : Nat
  hearth : Nat
  cap    : Nat
  buf    : Nat
  out    : Nat
deriving DecidableEq, Repr

/-- Expert x of a map; none when it has no entry there, VALID is clear, or its place does not exist. -/
def expertOf (map : List Byte) (x : Nat) : Option Expert :=
  let e := (map.drop (16 * x)).take 16
  let dk := fieldAt e 2 1
  let hv := fieldAt e 3 1
  if e.length = 16 && bit hv 7 && decide (hv % 128 < 12 ∧ dk < 32 ∧ 1 ≤ fieldAt e 4 2) then
    some ⟨fieldAt e 0 2, (bits dk 0 3 * 4 + bits dk 3 2) * 12 + hv % 16, fieldAt e 4 2, fieldAt e 8 4, fieldAt e 12 4⟩
  else none

/-- Own rank in keys and maps: ODN_FAB_STATUS.SELF, which is 0 without a rank table. -/
def State.ownRank (s : State) : Nat := s.get Reg.ODN_FAB_STATUS_SELF

/-- An exchange failed on hearth h's kiln (R276, R280). -/
def State.dispError (s : State) (k layer code : Nat) : State :=
  s.firstErr (Reg.KLN_DSP_ERR_VALID k) (Reg.KLN_DSP_ERR_CODE k) code [(Reg.KLN_DSP_ERR_LAYER k, layer)]

/-! ### ROUTE (R271) -/

/-- Inserts a (score, expert) pair by descending value; pairs come in ascending expert order, so ties keep it. -/
def insertScore (x : Num × Nat) : List (Num × Nat) → List (Num × Nat)
  | [] => [x]
  | y :: ys => if y.1.lt x.1 then x :: y :: ys else y :: insertScore x ys

/-- The sum of values as an exact bucket set whose window is set once (R167, R271, R275). -/
def windowedSum (vs : List Num) : Elem :=
  let ts := vs.flatMap (statTerms false)
  let w := statWindow ts
  { Elem.fresh .gl16w 0 with
    base := BitVec.ofInt 16 w
    buckets := Elem.zero.buckets.imap fun i _ => bucketOf false ((statSum w ts).1.getD i 0) }

/-- A chosen score over the sum of the chosen scores, rounded RN to GL16 (R214, R271). -/
def State.gateOf (s : State) (h : Nat) (sum : Elem) (v : Num) : Nat :=
  match (SumRec.mk ⟨sum, 0, 0⟩ 0 0).log with
  | none => 0
  | some ls =>
    let neg := (sum.num false .gl16w).lt .zero
    (s.quotient h 0 .rn (some .gl16) ls 0 (if neg then glMulNum v (.ofInt (-1) 0) else v)).code

/-- The 32 bytes of a route entry (R266). -/
def routeEntry (nan : Bool) (chosen : List (Nat × Nat)) : List Byte :=
  let ids := chosen.zipIdx.foldl (fun m p => m + p.1.1 * 2 ^ (12 * p.2)) 0
  leBytes 1 (chosen.length + 16 + if nan then 32 else 0) ++ leBytes 3 0 ++ leBytes 12 ids ++
    fitBytes 16 (chosen.flatMap fun p => leBytes 2 p.2)

/-- The entry that a row of scores gives, and whether the row holds a NaN or +∞. -/
def State.routeRow (s : State) (h : Nat) (d : DispDesc) (row : List Byte) : List Byte × Bool :=
  let codes := (List.range d.nexp).map fun x => fieldAt row (2 * x) 2
  let vals := codes.map gl16Num
  if vals.any fun v => v == .nan || v == .inf false then (routeEntry true [], true)
  else
    let sel := (codes.zip vals).zipIdx.filterMap fun p => if p.1.1 = 0xFFFE || !p.1.2.isFinite then none else some (p.1.2, p.2)
    let best := (sel.foldl (fun l x => insertScore x l) []).take d.k
    let sum := windowedSum (best.map (·.1))
    (routeEntry false (best.map fun b => (b.2, if d.gnorm then s.gateOf h sum b.1 else codes.getD b.2 0)), false)

/-- Writes shadow route entries of hearth h's kiln from the score rows of its tokens: a code. -/
def State.routeTokens (h : Nat) (d : DispDesc) : List Nat → State → State × Nat
  | [], s => (s, 0)
  | t :: ts, s =>
    let (s, c, row) := s.hRead h 0 (d.scores + t * d.spitch) (2 * d.nexp)
    if c ≠ 0 then (s, c)
    else
      let (e, nan) := s.routeRow h d row
      let s := if nan then s.sticky (Reg.HTH_VFLAGS_flags h) fNV else s
      let x := s.kiln (kilnOf h)
      let s := s.setKiln (kilnOf h) (x.loadRoute (sput x.routeShadow (d.first + t) (BitVec.ofNat 256 (leNat e))))
      State.routeTokens h d ts s

/-- ROUTE on one hearth. -/
def State.routeHearth (s : State) (h off : Nat) : State × Nat :=
  match s.readDisp h off with
  | (s, .error c) => (s.dispError (kilnOf h) 0 c, c)
  | (s, .ok d) =>
    let (s, c) := State.routeTokens h d (List.range d.count) s
    if c ≠ 0 then (s.dispError (kilnOf h) d.layer c, c) else (s, 0)

/-- ROUTE on every named hearth; the first code. -/
def State.routeAll (s : State) (hs : List Nat) (off : Nat) : State × Nat :=
  hs.foldl (fun acc h =>
    let r := acc.1.routeHearth h off
    (r.1, if acc.2 ≠ 0 then acc.2 else r.2)) (s, 0)

/-! ### The exchange (R272-R276) -/

/-- A hearth that takes part in an exchange: its descriptor and its map. -/
structure Source where
  h   : Nat
  d   : DispDesc
  map : List Byte
deriving DecidableEq, Repr

/-- A pair of an exchange: its key, the expert it names, and for an own pair its source hearth and token. -/
structure XPair where
  rank   : Nat
  kiln   : Nat
  entry  : Nat
  slot   : Nat
  expert : Nat
  own    : Option (Nat × Nat)
  row    : List Byte
deriving DecidableEq, Repr

/-- The key as one number, in the order of comparison (R271). -/
def XPair.key (p : XPair) : Nat := ((p.rank * 32 + p.kiln) * 8192 + p.entry) * 8 + p.slot

/-- Inserts by key. -/
def insertPair (p : XPair) : List XPair → List XPair
  | [] => [p]
  | q :: qs => if p.key < q.key then p :: q :: qs else q :: insertPair p qs

/-- Sorts by key. -/
def sortPairs (ps : List XPair) : List XPair := ps.foldl (fun l p => insertPair p l) []

/-- A pair that got a position at an expert. -/
structure Placed where
  pair   : XPair
  expert : Nat
  pos    : Nat
  ovf    : Bool
deriving DecidableEq, Repr

/-- The origin word (R270). -/
def Placed.origin (x : Placed) : Nat :=
  x.pair.rank + 2 ^ 16 * x.pair.kiln + 2 ^ 21 * x.pair.entry + 2 ^ 34 * x.pair.slot + if x.ovf then 2 ^ 37 else 0

/-- An expert's share of the pairs, in key order. -/
def pairsOf (ps : List XPair) (x : Nat) : List XPair := ps.filter fun p => p.expert = x

/-- Capacity of an expert. -/
def capOf (map : List Byte) (x : Nat) : Nat := ((expertOf map x).map (·.cap)).getD 0

/-- Pairs that overflow their own expert, in key order (R272 item 3). -/
def overflowing (map : List Byte) (ps : List XPair) (nexp : Nat) : List XPair :=
  sortPairs ((List.range nexp).flatMap fun x => (pairsOf ps x).drop (capOf map x))

/-- Every placed pair of an exchange (R272 items 2 to 4); `ps` in key order. -/
def placePairs (d : DispDesc) (map : List Byte) (ps : List XPair) : List Placed :=
  let direct := (List.range d.nexp).flatMap fun x =>
    ((pairsOf ps x).take (capOf map x)).zipIdx.map fun p => (⟨p.1, x, p.2, false⟩ : Placed)
  if d.policy then
    let base := (pairsOf ps d.ovf).length
    direct ++ ((overflowing map ps d.nexp).take (capOf map d.ovf - base)).zipIdx.map fun p => ⟨p.1, d.ovf, base + p.2, true⟩
  else direct

/-- Demand of an expert: the pairs that name it, and those that overflow to it (R272). -/
def demandOfExpert (d : DispDesc) (map : List Byte) (ps : List XPair) (x : Nat) : Nat :=
  (pairsOf ps x).length + if d.policy && x = d.ovf then (overflowing map ps d.nexp).length else 0

/-- Pairs of a live route entry of a source's token t. -/
def entryPairs (rank : Nat) (x : Source) (e : Nat) (t : Nat) : List XPair :=
  if bit e 4 then
    (List.range (Nat.min (bits e 0 4) x.d.k)).map fun k =>
      ⟨rank, kilnOf x.h, x.d.first + t, k, bits e (32 + 12 * k) 12, some (x.h, t), []⟩
  else []

/-- Live route entry of a kiln. -/
def State.routeLive (s : State) (k i : Nat) : Nat := (sget 0 (s.kiln k).route i).toNat

/-- The own pairs of the sources. -/
def State.ownPairs (s : State) (xs : List Source) : List XPair :=
  xs.flatMap fun x => (List.range x.d.count).flatMap fun t =>
    entryPairs s.ownRank x (s.routeLive (kilnOf x.h) (x.d.first + t)) t

/-- Pairs of other modules. -/
def State.otherPairs (s : State) (rs : List RemotePair) : List XPair :=
  (rs.filter fun r => r.rank.toNat ≠ s.ownRank).map fun r =>
    ⟨r.rank.toNat, r.kiln, r.entry.toNat, r.slot, r.expert.toNat, none, r.row⟩

/-- Reads the sources of an exchange: descriptor and map of every named hearth. -/
def State.readSources (off : Nat) : List Nat → State → State × Checked (List Source)
  | [], s => (s, .ok [])
  | h :: hs, s =>
    match s.readDisp h off with
    | (s, .error c) => (s.dispError (kilnOf h) 0 c, .error c)
    | (s, .ok d) =>
      let (s, c, map) := s.readMem (asHearth s h 0) d.map (16 * d.nexp)
      if c ≠ 0 then (s.dispError (kilnOf h) d.layer c, .error c)
      else match State.readSources off hs s with
        | (s, .error c) => (s, .error c)
        | (s, .ok xs) => (s, .ok (⟨h, d, map⟩ :: xs))

/-- What fails an exchange before any row is sent (R276): a slice without a table, an expert that the map does not give, a
quarantined kiln, a module that cannot be reached. -/
def State.exchangeCode (s : State) (xs : List Source) (d : DispDesc) (map : List Byte) (ps : List XPair) : Nat :=
  let named := (ps.filter fun p => p.own.isSome).map (·.expert)
  let named := if d.policy && !(overflowing map ps d.nexp).isEmpty then d.ovf :: named else named
  if xs.any fun x => (s.kiln (kilnOf x.h)).route.isEmpty then arithTable
  else if named.any fun x => decide (d.nexp ≤ x) || (expertOf map x).isNone then arithSparse
  else
    let es := named.filterMap (expertOf map)
    if es.any fun e => e.rank = s.ownRank && s.quarantined (kilnOf e.hearth) then memFenced
    else if es.any fun e => e.rank ≠ s.ownRank && s.rankState e.rank != 1 then linkRank
    else if es.any fun e => e.rank ≠ s.ownRank && !s.reachable e.rank then linkLost
    else 0

/-- An exchange fails: KLN_DSP_ERR of every source kiln, and the veto of R276. -/
def State.exchangeFailed (s : State) (xs : List Source) (code : Nat) : State :=
  let s := xs.foldl (fun t x => t.dispError (kilnOf x.h) x.d.layer code) s
  let s := if code / 0x1000 = 5 then s.odnErr code 31 else s
  if !s.stepOpen then s
  else if code = memFenced then s.veto vFAULT
  else if code = linkLost then s.veto vLINK
  else s

/-- Reads the token rows of the own placed pairs. -/
def State.readRows (d : DispDesc) : List Placed → State → State × Checked (List Placed)
  | [], s => (s, .ok [])
  | x :: xs, s =>
    let (s, c, row) := match x.pair.own with
      | some (h, t) => s.hRead h 0 (d.tokens + t * d.tpitch) d.rowBytes
      | none => (s, 0, x.pair.row)
    if c ≠ 0 then (s, .error c)
    else match State.readRows d xs s with
      | (s, .error c) => (s, .error c)
      | (s, .ok ys) => (s, .ok ({ x with pair := { x.pair with row := row } } :: ys))

/-- Offset of the origin array of an expert, and of its row-mask chunks (R269). -/
def Expert.originAt (e : Expert) (rowBytes : Nat) : Nat := e.buf + e.cap * rowBytes

/-- Offset of the row-mask chunks. -/
def Expert.masksAt (e : Expert) (rowBytes : Nat) : Nat := up64 (e.originAt rowBytes + 8 * e.cap)

/-- Row-mask chunks of an expert with n rows filled (R262, R269). -/
def maskChunks (cap n : Nat) : List Byte :=
  (List.range ((cap + 191) / 192)).flatMap fun i =>
    leBytes 24 (2 ^ Nat.min (n - 192 * i) 192 - 1) ++ List.replicate 8 0

/-- Writes into hearth memories, in order; the first code. -/
def State.hearthWrites : List (Nat × Nat × List Byte) → State → State × Nat
  | [], s => (s, 0)
  | (h, off, bs) :: ws, s =>
    let (s, c) := s.hWrite h 0 off bs
    if c ≠ 0 then (s, c) else State.hearthWrites ws s

/-- Experts that this module hosts, with their ids. -/
def State.hosted (s : State) (d : DispDesc) (map : List Byte) : List (Nat × Expert) :=
  (List.range d.nexp).filterMap fun x => match expertOf map x with
    | some e => if e.rank = s.ownRank && !s.quarantined (kilnOf e.hearth) then some (x, e) else none
    | none => none

/-- What the destinations on this module write: masks of the final fill, then origin words and rows (R272 item 5). -/
def State.destWrites (s : State) (d : DispDesc) (map : List Byte) (xs : List Placed) : List (Nat × Nat × List Byte) :=
  let here := s.hosted d map
  (here.map fun p =>
    (p.2.hearth, p.2.masksAt d.rowBytes, maskChunks p.2.cap (xs.filter fun x => x.expert = p.1).length)) ++
  here.flatMap fun p => (xs.filter fun x => x.expert = p.1).flatMap fun x =>
    [(p.2.hearth, p.2.originAt d.rowBytes + 8 * x.pos, leBytes 8 x.origin),
      (p.2.hearth, p.2.buf + x.pos * d.rowBytes, fitBytes d.rowBytes x.pair.row)]

/-- A placed pair as it goes to another module. -/
def Placed.outward (x : Placed) : RemotePair where
  rank := BitVec.ofNat 16 x.pair.rank
  kiln := Fin.ofNat 32 x.pair.kiln
  entry := BitVec.ofNat 13 x.pair.entry
  slot := Fin.ofNat 8 x.pair.slot
  expert := BitVec.ofNat 12 x.expert
  row := x.pair.row

/-! ### Route records (R277) -/

/-- What an exchange adds to the route record of a kiln. -/
structure RouteTally where
  pairs   : Nat
  beyond   : Nat
  passed  : Nat
  unrouted : Nat
  idle    : Nat
  maxload : Nat
  fl      : Fl
deriving DecidableEq, Repr

/-- Adds to a route record: counts add, MAXLOAD takes the maximum, FLAGS combine by OR. -/
def RouteTally.addTo (t : RouteTally) (r : List Byte) : List Byte :=
  let add := fun lo n v r => patch r lo (leBytes n (fieldAt r lo n + v))
  let r := add 16 8 t.pairs (add 24 8 t.beyond (add 32 8 t.passed (add 40 4 t.unrouted (add 44 4 t.idle r))))
  let r := patch r 48 (leBytes 4 (Nat.max (fieldAt r 48 4) t.maxload))
  patch r 52 (leBytes 2 (fieldAt r 52 2 ||| t.fl.toNat))

/-- A fresh route record of a layer. -/
def State.freshRoute (s : State) (layer : Nat) : List Byte :=
  leBytes 2 layer ++ List.replicate 6 0 ++ leBytes 8 (s.get Reg.COL_STEP_NUM_STEP) ++ List.replicate 48 0

/-- Adds to the route record at an address; the first time in a step it starts afresh. Nothing in an evaluation (R448). -/
def State.addRoute (s : State) (layer at_ : Nat) (t : RouteTally) : State :=
  if !s.stepOpen then s
  else if s.step.routes.contains (layer, at_) then s.post at_ (t.addTo (s.peek at_ 64))
  else
    let s := s.post at_ (t.addTo (s.freshRoute layer))
    { s with step := { s.step with routes := s.step.routes ++ [(layer, at_)] } }

/-- The route records of an exchange, kiln by kiln of its sources. -/
def State.addRoutes (s : State) (xs : List Source) (d : DispDesc) (map : List Byte) (ps : List XPair) (placed : List Placed) : State :=
  let kilns := (List.range 32).filter fun k => xs.any fun x => kilnOf x.h = k
  kilns.foldl (fun t k =>
    let mine := xs.filter fun x => kilnOf x.h = k
    let own := ps.filter fun p => p.own.isSome && p.kiln = k
    let put := placed.filter fun x => x.pair.own.isSome && x.pair.kiln = k
    let loads := (s.hosted d map).filterMap fun e =>
      if kilnOf e.2.hearth = k then some (demandOfExpert d map ps e.1) else none
    let empty := mine.flatMap fun x => (List.range x.d.count).filter fun i => bits (s.routeLive k (x.d.first + i)) 0 4 = 0
    let t := t.bump (Reg.KLN_DSP_CNT_PAIRS k) put.length
    t.addRoute d.layer ((mine.map (·.d.rrec)).headD 0) {
      pairs := own.length, beyond := (put.filter (·.ovf)).length, passed := own.length - put.length
      unrouted := empty.length, idle := (loads.filter (· == 0)).length, maxload := loads.foldl Nat.max 0, fl := 0 }) s

/-- The combined route records of the module's layers at close (R277). -/
def State.combinedRoutes (s : State) : List (List Byte) :=
  let layers := s.step.routes.foldl (fun l r => if l.contains r.1 then l else l ++ [r.1]) []
  layers.map fun l => ((s.step.routes.filter fun r => r.1 = l).map fun r => s.peek r.2 64).foldl (fun a r =>
    RouteTally.addTo ⟨fieldAt r 16 8, fieldAt r 24 8, fieldAt r 32 8, fieldAt r 40 4, fieldAt r 44 4, fieldAt r 48 4,
      BitVec.ofNat 14 (fieldAt r 52 2)⟩ a) (s.freshRoute l)

/-! ### DISPATCH and COMBINE -/

/-- DISPATCH on the named hearths, with the pairs of the other modules: a code. -/
def State.dispatchAll (s : State) (p : Nat) (hs : List Nat) (off : Nat) (remote : List RemotePair) : State × Nat :=
  match State.readSources off hs s with
  | (s, .error c) => (s, c)
  | (s, .ok []) => (s, 0)
  | (s, .ok (x :: rest)) =>
    let xs := x :: rest
    let ps := sortPairs (s.ownPairs xs ++ s.otherPairs remote)
    let code := s.exchangeCode xs x.d x.map ps
    if code ≠ 0 then (s.exchangeFailed xs code, code)
    else match State.readRows x.d (placePairs x.d x.map ps) s with
      | (s, .error c) => (s.exchangeFailed xs c, c)
      | (s, .ok placed) =>
        let (s, c) := State.hearthWrites (s.destWrites x.d x.map placed) s
        if c ≠ 0 then (s.exchangeFailed xs c, c)
        else
          let out := placed.filter fun y => y.pair.own.isSome && match expertOf x.map y.expert with
            | some e => e.rank != s.ownRank
            | none => false
          let s := if out.isEmpty then s else s.emit (.pairs p (out.map Placed.outward))
          (s.addRoutes xs x.d x.map ps placed, 0)

/-- A row that an expert returns: the key of its pair and its bytes. -/
structure Returned where
  rank  : Nat
  kiln  : Nat
  entry : Nat
  slot  : Nat
  row   : List Byte
deriving DecidableEq, Repr

/-- Rows filled in an expert's buffer, by its mask chunks. -/
def filledRows (cap : Nat) (masks : List Byte) : List Nat :=
  (List.range cap).filter fun r => bit (fieldAt masks (32 * (r / 192)) 24) (r % 192)

/-- Reads the output rows of the filled positions of one expert. -/
def State.returnRows (d : DispDesc) (e : Expert) : List Nat → State → State × Checked (List Returned)
  | [], s => (s, .ok [])
  | r :: rs, s =>
    andRead (s.hRead e.hearth 0 (e.originAt d.rowBytes + 8 * r) 8) .error fun s w =>
      andRead (s.hRead e.hearth 0 (e.out + r * d.rowBytes) d.rowBytes) .error fun s row =>
        andChecked (State.returnRows d e rs s) fun s xs =>
          let o := leNat w
          (s, .ok (⟨bits o 0 16, bits o 16 5, bits o 21 13, bits o 34 3, row⟩ :: xs))

/-- Reads what every hosted expert returns (R275 item 1). -/
def State.returnAll (d : DispDesc) : List Expert → State → State × Checked (List Returned)
  | [], s => (s, .ok [])
  | e :: es, s =>
    let (s, c, masks) := s.hRead e.hearth 0 (e.masksAt d.rowBytes) ((e.cap + 191) / 192 * 32)
    if c ≠ 0 then (s, .error c)
    else match State.returnRows d e (filledRows e.cap masks) s with
      | (s, .error c) => (s, .error c)
      | (s, .ok xs) => match State.returnAll d es s with
        | (s, .error c) => (s, .error c)
        | (s, .ok ys) => (s, .ok (xs ++ ys))

/-- One element of a token's result: gates times outputs, as one windowed sum (R275 item 2). -/
def combineElem (terms : List (Num × Num)) : Conv :=
  let ps := terms.map fun t => glMulNum t.1 t.2
  let nv : Fl := if (terms.zip ps).any fun x => x.2 == .nan && x.1.1 != .nan && x.1.2 != .nan then fNV else 0
  let special := ps.foldl (fun (acc : Special × Fl) v => match v with
    | .nan => let (st, fl) := acc.1.combine .nan; (st, acc.2 ||| fl)
    | .inf n => let (st, fl) := acc.1.combine (.infOf n); (st, acc.2 ||| fl)
    | _ => acc) (Special.finite, nv)
  let e := { windowedSum (ps.filter Num.isFinite) with special := special.1 }
  let r := Fmt.gl16.ofNum { mode := .rn } (e.num false .gl16w)
  { r with fl := r.fl ||| special.2 }

/-- Result row of a token from its gates and the rows that came back. -/
def combineRow (n : Nat) (rows : List (Nat × List Byte)) : List Byte × Fl :=
  let cs := (List.range n).map fun i => combineElem (rows.map fun r => (gl16Num r.1, gl16Num (fieldAt r.2 (2 * i) 2)))
  (cs.flatMap fun c => leBytes 2 c.code, cs.foldl (fun a c => a ||| c.fl) 0)

/-- Writes what came back for the tokens of a source, and their results; the first code. -/
def State.combineTokens (x : Source) (back : List Returned) : List Nat → State → State × Nat
  | [], s => (s, 0)
  | t :: ts, s =>
    let e := s.routeLive (kilnOf x.h) (x.d.first + t)
    let mine := back.filter fun r => r.kiln = kilnOf x.h && r.entry = x.d.first + t && decide (r.slot < x.d.k)
    let (s, c) := State.hearthWrites (mine.map fun r =>
      (x.h, x.d.ret + (t * x.d.k + r.slot) * x.d.rowBytes, fitBytes x.d.rowBytes r.row)) s
    if c ≠ 0 then (s, c)
    else
      let rows := (List.range x.d.k).filterMap fun k => (mine.find? fun r => r.slot = k).map fun r => (bits e (128 + 16 * k) 16, r.row)
      let (bs, fl) := combineRow (x.d.rowBytes / 2) rows
      let (s, c) := s.hWrite x.h 0 (x.d.result + t * x.d.rowBytes) (fitBytes x.d.rowBytes bs)
      if c ≠ 0 then (s, c) else State.combineTokens x back ts (s.sticky (Reg.HTH_VFLAGS_flags x.h) fl)

/-- Combines for every source; the first code. -/
def State.combineSources (back : List Returned) : List Source → State → State × Nat
  | [], s => (s, 0)
  | x :: xs, s =>
    let (s, c) := State.combineTokens x back (List.range x.d.count) s
    if c ≠ 0 then (s, c) else State.combineSources back xs s

/-- COMBINE on the named hearths, with the rows that other modules return: a code. -/
def State.combineAll (s : State) (p : Nat) (hs : List Nat) (off : Nat) (returned : List RemotePair) : State × Nat :=
  match State.readSources off hs s with
  | (s, .error c) => (s, c)
  | (s, .ok []) => (s, 0)
  | (s, .ok (x :: rest)) =>
    let xs := x :: rest
    let code := s.exchangeCode xs { x.d with policy := false } x.map (s.ownPairs xs)
    if code ≠ 0 then (s.exchangeFailed xs code, code)
    else match State.returnAll x.d ((s.hosted x.d x.map).map (·.2)) s with
      | (s, .error c) => (s.exchangeFailed xs c, c)
      | (s, .ok rows) =>
        let away := rows.filter fun r => r.rank ≠ s.ownRank
        let s := if away.isEmpty then s else
          s.emit (.pairs p (away.map fun r => ⟨BitVec.ofNat 16 r.rank, Fin.ofNat 32 r.kiln, BitVec.ofNat 13 r.entry,
            Fin.ofNat 8 r.slot, 0, r.row⟩))
        let back := rows.filter (fun r => r.rank = s.ownRank) ++
          returned.map fun r => (⟨s.ownRank, r.kiln, r.entry.toNat, r.slot, r.row⟩ : Returned)
        let (s, c) := State.combineSources back xs s
        if c ≠ 0 then (s.exchangeFailed xs c, c) else (s, 0)

/-! ### RUNH, ROUTE, DISPATCH and COMBINE as operations; gated kilns (R278, R279) -/

/-- The work of an operation on hearths that issues: a code. Quarantined kilns take no part, and fail it (R38, R341). -/
def State.hearthWork (s : State) (p : Nat) (op : BitVec 128) (remote : List RemotePair) : State × Nat :=
  let ks := s.opKilns p op
  let hs := (s.opHearths p op).filter fun h => !s.quarantined (kilnOf h)
  let off := bits (sArg op) 0 23
  match sOp op with
  | 0x01 => (s.runStreams hs off (bits (sArg op) 32 24), if s.anyQuarantined ks then memFenced else 0)
  | 0x06 =>
    let (s, c) := s.routeAll hs off
    (s, if c ≠ 0 then c else if s.anyQuarantined ks then memFenced else 0)
  | c =>
    if s.anyQuarantined ks then
      ((kilnsOf ks).foldl (fun t k => t.dispError k 0 memFenced) (if s.stepOpen then s.veto vFAULT else s), memFenced)
    else if c = 0x07 then s.dispatchAll p hs off remote
    else s.combineAll p hs off remote

/-- Runs an operation on hearths and completes it. -/
def State.runHearths (s : State) (p seq : Nat) (op : BitVec 128) (remote : List RemotePair) : State :=
  let (s, c) := s.hearthWork p op remote
  s.opDone p seq c

/-- Whether a kiln of a mask is gated. -/
def State.anyGated (s : State) (kilns : Nat) : Bool := (kilnsOf kilns).any fun k => (s.kiln k).gated

/-- Holds an operation for the gated kilns that it wakes: 25 stokes from now (R279). -/
def State.holdFor (s : State) (p seq : Nat) (op : BitVec 128) : State :=
  ((kilnsOf (s.opKilns p op)).filter fun k => (s.kiln k).gated).foldl (fun t k =>
    let x := t.kiln k
    t.setKiln k { x with heldOps := x.heldOps ++ [(p, seq)], wakeAt := some (x.wakeAt.getD (t.now + 25)) }) s

/-- An operation on hearths at issue. -/
def State.startHearths (s : State) (p seq : Nat) (op : BitVec 128) (remote : List RemotePair) : State :=
  if s.runVoid p then s.opDone p seq 0
  else if s.anyGated (s.opKilns p op) then s.holdFor p seq op
  else s.runHearths p seq op remote

/-- RUNH (R137, R138, R398). -/
def execRunh (p : Fin 512) (op : BitVec 128) (s : State) : Host.Outcome State Fault Refusal :=
  s.runOp 0x01 p op alone fun s seq => s.startHearths p seq op []

/-- ROUTE (R271, R398). -/
def execRoute (p : Fin 512) (op : BitVec 128) (s : State) : Host.Outcome State Fault Refusal :=
  s.runOp 0x06 p op alone fun s seq => s.startHearths p seq op []

/-- DISPATCH (R272-R274, R398). -/
def execDispatch (p : Fin 512) (op : BitVec 128) (remote : List RemotePair) (s : State) : Host.Outcome State Fault Refusal :=
  s.runOp 0x07 p op alone fun s seq => s.startHearths p seq op remote

/-- COMBINE (R275, R398). -/
def execCombine (p : Fin 512) (op : BitVec 128) (returned : List RemotePair) (s : State) : Host.Outcome State Fault Refusal :=
  s.runOp 0x08 p op alone fun s seq => s.startHearths p seq op returned

/-- Whether an operation for kiln k is in flight (R278). -/
def State.kilnBusy (s : State) (k : Nat) : Bool :=
  s.col.runs.any fun r => r.flight.any fun f => occupies f.op && bit (s.opKilns r.id f.op) k

/-- Whether the die collier may gate kiln k now (R278): enabled, idle long enough, empty, not quarantined, and named by no
operation in flight, fences included. -/
def State.mayGate (s : State) (k : Nat) : Bool :=
  s.isSet (Reg.KLN_GATE_CTL_EN k) && decide (s.get (Reg.KLN_GATE_CTL_THRESH k) ≤ (s.kiln k).idle) && s.kilnEmpty k &&
    !s.quarantined k && !(s.kiln k).gated && !s.kilnBusy k &&
    !s.col.runs.any fun r => r.flight.any fun f => sOp f.op == 0x03 && bit (s.stageKilns r.id) k

/-- KILN_GATING (R278); with the last kiln the module is in P1 when it was asked for (R569). -/
def execKilnGating (k : Fin 32) (s : State) : Host.Outcome State Fault Refusal :=
  if s.mayGate k then
    .next ((s.setKiln k { s.kiln k with gated := true }).bump (Reg.KLN_GATE_CNT_COUNT k) 1).settleIdle
  else .next s

/-- Runs the operations that a kiln held and that no gated kiln still holds. -/
def State.releaseHeld (s : State) : List (Nat × Nat) → State
  | [] => s
  | (p, seq) :: rest =>
    let s := match s.run p with
      | none => s
      | some r => match r.flight.find? (·.seq == seq) with
        | none => s
        | some f => if s.anyGated (s.opKilns p f.op) then s else if s.runVoid p then s.opDone p seq 0 else s.runHearths p seq f.op []
    State.releaseHeld s rest

/-- KILN_WAKE (R279): the wake of 25 stokes has passed; the module is in P0 then (R571). -/
def execKilnWake (k : Fin 32) (s : State) : Host.Outcome State Fault Refusal :=
  match (s.kiln k).wakeAt with
  | none => .next s
  | some t =>
    if s.now < t then .next s
    else
      let held := (s.kiln k).heldOps
      let s := s.setKiln k { s.kiln k with gated := false, wakeAt := none, idle := 0, heldOps := [] }
      let s := if s.get Reg.PWR_STATUS_PSTATE = 1 then s.put Reg.PWR_STATUS_PSTATE 0 else s
      .next ((s.releaseHeld held).progress)

end Sys2Proof.Machine
end

