-- ==== Sys2Proof/Machine/StepCmds.lean ====
section
/-! DEFINITION. The commands and operations of the step transaction (R414-R448): RUN_STEP, COMMIT_STEP, ABORT_STEP, EVAL_RUN,
GNORM, the close of the vote, the global result with the replay check (R475, R476), UPDATE, and mirrored mode's digests
(R505, R506). -/

namespace Sys2Proof.Machine

/-! ### Starting runs (R399) -/

/-- Whether a program, or a service program that it calls, holds WAITMB (R417, R447). -/
def State.usesWaitmb (s : State) : Nat → Nat → Bool
  | 0, _ => false
  | n + 1, id => (s.programOps id).any fun w =>
    sOp w == 0x0B || (sOp w == 0x0E && State.usesWaitmb s n (bits (sArg w) 0 32))

/-- The runs of one branch, one for each of its stages. -/
def runsOfBranch (eval : Bool) (prog b nstage : Nat) : List ProgRun :=
  (List.range nstage).map fun st => ⟨32 * b + st, eval, prog, prog, 0, [], [], 0, [], [], false⟩

/-- Branches with their index. -/
def State.branches (s : State) : List (Branch × Nat) := s.cfg.active.branches.zipIdx

/-- Branches that run their evaluation program (R394, R447). -/
def State.evalBranches (s : State) (mask : Nat) : List (Branch × Nat) :=
  s.branches.filter fun b => b.1.evalProg != 0xFFFFFFFF && (mask == 0 || bit mask b.2)

/-- Starts runs; each sequencer of their kilns starts its issue numbers at 0 (R138). -/
def State.startRuns (s : State) (rs : List ProgRun) : State :=
  let kilns := rs.foldl (fun m r => m ||| s.stageKilns r.id) 0
  let s := (hearthsOf kilns 0xFFF).foldl (fun t h => t.put (Reg.HTH_ISSUE_NEXT h) 0) s
  { s with col := { s.col with runs := rs } }

/-! ### RUN_STEP (R417) -/

/-- Fixes the pair mode of the step (R505). -/
def State.fixPairMode (s : State) : State :=
  let own := s.get Reg.PAIR_CTL_MODE
  let up := s.get Reg.PAIR_STATUS_STATE = 2
  let both := own = 2 && s.link.peerMode = 2
  let ranks := decide (s.get Reg.ODN_FAB_STATUS_NRANK ≤ 1)
  (s.put Reg.PAIR_STATUS_MODE (if !up then 0 else if both && ranks then 2 else 1)).put Reg.PAIR_STATUS_MODEMISMATCH
    (if up && (own != s.link.peerMode || (both && !ranks)) then 1 else 0)

/-- Notices of the opening step that came early take effect; those of other steps go (R425). -/
def State.openNotices (s : State) : State :=
  let mine := s.link.early.filter fun n => !n.eval && n.step == s.get Reg.COL_STEP_NUM_STEP
  let s := { s with link := { s.link with early := mine } }
  mine.foldl (fun t n => match n.void with
    | some r => t.hearReasons r
    | none => t) s

/-- The step registers and records as a step opens (R417). -/
def State.openRecords (s : State) (number : Nat) (auto : Bool) : State :=
  let s := (s.clearRuns false).clearRuns true
  let s := ((s.put Reg.COL_STEP_NUM_STEP number).put Reg.COL_STEP_STATUS_AUTO (if auto then 1 else 0)).put
    Reg.COL_STEP_STATUS_VOID 0
  let s := ((s.put Reg.COL_STEP_STATUS_CLOSED 0).put Reg.COL_STEP_STATUS_COMMITREQ 0).put Reg.COL_STEP_LOCAL_LOCAL 0
  let s := s.put Reg.COL_STEP_VOTE_LATE 0
  let digest := match s.link.digestIn with
    | some d => if fieldAt d 0 8 = number then some d else none
    | none => none
  let step := { s.step with
    regions := s.cfg.active.regions, gnorms := [], updates := [], squares := [], deadline := none, flags := 0
    routes := [], shardsIn := [], norms := [], lossRead := false }
  let kilns : SMap Kiln := (s.kilns.map fun p => (p.1, { p.2 with gradSum := none })).filter fun p => p.2 != Kiln.empty
  { s with
    kilns := kilns
    step := step
    link := { s.link with mirror := none, digestIn := digest } }.openStats

/-- The step opens (R417). -/
def State.openTraining (s : State) (number : Nat) (auto : Bool) : State :=
  let s := ((s.openRecords number auto).enter 1).fixPairMode
  let s := if s.deferVeto then s.veto vDEFER else s
  (s.startRuns (s.branches.flatMap fun b => runsOfBranch false b.1.stepProg b.2 b.1.nstage)).openNotices

/-- The work of RUN_STEP: the rows of R417 after those that wait. -/
def runStepWork (s : State) (c : Started) : State :=
  let number := dField c.desc 8 8
  let st := s.stepState
  if st = 7 then s.complete c stepTorn
  else if st ≠ 0 && st ≠ 5 then s.complete c stepStateErr
  else if number ≠ s.get Reg.COL_STEP_NEXT_NEXT then s.complete c stepNumber
  else if (s.branches.any fun b => s.usesWaitmb 16 b.1.stepProg) && !s.isSet Reg.RIK_STATUS_BOUND0 then s.complete c stepUnbound
  else (s.openTraining number (bit (dField c.desc 16 1) 0)).progress

/-- Whether RUN_STEP and EVAL_RUN wait: a load or an evaluation is in progress, an automatic bank is about to capture (R462),
or a rekindle or adoption may write the model (DESIGN CHOICE, log entry 30). -/
def State.runsWait (s : State) : Bool := s.loading || s.evaluating || s.bank.due || s.bank.rekindle.isSome

/-- RUN_STEP (R417, R420). -/
def execRunStep (sq : Fin 64) (d : BitVec 512) (s : State) : Host.Outcome State Fault Refusal :=
  .next (s.hostCommand 0x02 sq d State.runsWait runStepWork)

/-! ### COMMIT_STEP and ABORT_STEP (R419) -/

/-- Whether COL_STEP_LAST tells that the step of COL_STEP_NUM ended with an outcome. -/
def State.lastWas (s : State) (outcome : Nat) : Bool :=
  s.get Reg.COL_STEP_LAST_OUTCOME = outcome && s.get Reg.COL_STEP_LAST_STEP = s.get Reg.COL_STEP_NUM_STEP % 2 ^ 56

/-- The command waits for the global result and holds its queue. -/
def State.holdCommand (s : State) (c : Started) : State :=
  { s with col := { s.col with started := s.col.started.map fun (x : Started) =>
      if x.order = c.order then { x with hold := true } else x } }.put Reg.COL_STEP_STATUS_COMMITREQ 1

/-- The work of COMMIT_STEP. -/
def commitWork (s : State) (c : Started) : State :=
  let st := s.stepState
  if dField c.desc 8 8 ≠ s.get Reg.COL_STEP_NUM_STEP then s.complete c stepNumber
  else if st = 7 then s.complete c stepTorn
  else if st = 1 || st = 2 then s.holdCommand c
  else if st = 3 then s.beginCommit.progress
  else if st = 6 || (st = 0 && s.lastWas 3) then s.complete c stepVetoed 0 s.voteDetail
  else if st = 5 && s.lastWas 2 then s.complete c stepSkipped 0 s.voteDetail
  else s.complete c stepStateErr

/-- COMMIT_STEP (R419). -/
def execCommitStep (sq : Fin 64) (d : BitVec 512) (s : State) : Host.Outcome State Fault Refusal :=
  .next (s.hostCommand 0x03 sq d noWait commitWork)

/-- The work of ABORT_STEP; it completes when the step reaches IDLE. -/
def abortWork (s : State) (c : Started) : State :=
  let st := s.stepState
  if dField c.desc 8 8 ≠ s.get Reg.COL_STEP_NUM_STEP then s.complete c stepNumber
  else if st = 7 then s.complete c stepTorn
  else if st = 1 || st = 2 || st = 3 then (s.veto vHOST).progress
  else if st = 6 then s
  else s.complete c stepStateErr

/-- ABORT_STEP (R419, R424). -/
def execAbortStep (sq : Fin 64) (d : BitVec 512) (s : State) : Host.Outcome State Fault Refusal :=
  .next (s.hostCommand 0x04 sq d noWait abortWork)

/-! ### EVAL_RUN (R447, R448) -/

/-- Whether BRANCHES names a branch without an evaluation program. -/
def State.evalMissing (s : State) (mask : Nat) : Bool :=
  mask != 0 && ((s.evalBranches mask).map fun b => 2 ^ b.2).foldl (· + ·) 0 != mask

/-- The evaluation starts. -/
def State.openEval (s : State) (mask : Nat) : State :=
  let s := (s.clearRuns false).clearRuns true
  let early := s.link.early.filter fun n => n.eval && n.step == s.get Reg.COL_STEP_NEXT_NEXT
  let s := { s with
    step := { s.step with regions := s.cfg.active.regions, evalCode := 0 }
    link := { s.link with early := early } }.put Reg.COL_STATUS_EVALRUN 1
  s.startRuns ((s.evalBranches mask).flatMap fun b => runsOfBranch true b.1.evalProg b.2 b.1.nstage)

/-- The work of EVAL_RUN. -/
def evalWork (s : State) (c : Started) : State :=
  let mask := dField c.desc 8 4
  let st := s.stepState
  if s.evalMissing mask then s.complete c stepInvalid
  else if st = 7 then s.complete c stepTorn
  else if st ≠ 0 && st ≠ 5 then s.complete c stepStateErr
  else if ((s.evalBranches mask).any fun b => s.usesWaitmb 16 b.1.evalProg) && !s.isSet Reg.RIK_STATUS_BOUND1 then
    s.complete c stepUnbound
  else (s.openEval mask).progress

/-- EVAL_RUN (R447): it waits while a load or another run is in progress. -/
def execEvalRun (sq : Fin 64) (d : BitVec 512) (s : State) : Host.Outcome State Fault Refusal :=
  .next (s.hostCommand 0x05 sq d State.runsWait evalWork)

/-! ### GNORM and the close of the vote (R427-R431) -/

/-- The UPDATE of a program. -/
def State.updateOf (s : State) (prog : Nat) : Option (BitVec 128) := (s.programOps prog).find? fun w => sOp w == 0x13

/-- Checks the UPDATE descriptor of the same run (R427). -/
def State.checkUpdate (s : State) (p : Nat) : State × Nat :=
  match s.run p with
  | none => (s, 0)
  | some r => match s.updateOf r.main with
    | none => (s, 0)
    | some u => match s.readUpdate (s.opKilns p u) (sArg u) with
      | (s, .error c) => (s, c)
      | (s, .ok _) => (s, 0)

/-- GNORM has issued, with the TIMEOUT that its descriptor gives, 0 where it could not be read. -/
def State.gnormIssued (s : State) (p timeout : Nat) : State :=
  { s with step := { s.step with gnorms := s.step.gnorms ++ [⟨p, timeout⟩] } }

/-- The work of GNORM: both descriptors are checked; a void step streams nothing (R425). -/
def State.gnormWork (s : State) (p seq : Nat) (op : BitVec 128) : State :=
  match s.readGnorm (s.opKilns p op) (sArg op) with
  | (s, .error c) => (s.gnormIssued p 0).opDone p seq c
  | (s, .ok (g, rs)) =>
    let s := s.gnormIssued p (fieldAt g 20 4)
    let (s, c) := s.checkUpdate p
    if c ≠ 0 then s.opDone p seq c
    else if s.isSet Reg.COL_STEP_STATUS_VOID then s.opDone p seq 0
    else
      let (s, c) := s.streamGnorm rs
      s.opDone p seq c

/-- GNORM (R427, R428). -/
def execGnorm (p : Fin 512) (op : BitVec 128) (s : State) : Host.Outcome State Fault Refusal :=
  s.runOp 0x12 p op alone fun s seq => if s.isEval p then s.opDone p seq 0 else s.gnormWork p seq op

/-- The module's combined square sum (R429); zero in a void step (R425). -/
def State.ownSum (s : State) : BucketSum :=
  if s.isSet Reg.COL_STEP_STATUS_VOID then freshSum
  else combineSums ((List.range 32).filterMap fun k => (s.kiln k).gradSum)

/-- Whether the vote closes now: every training run has issued its GNORM, and no collective still adds squares. -/
def State.closesNow (s : State) : Bool :=
  s.stepState = 2 && !s.isSet Reg.COL_STEP_STATUS_CLOSED &&
    ((s.runsOf false).all fun r => s.step.gnorms.any (·.run == r.id)) && s.link.colls.all fun c => !c.d.sqsum

/-- Combined route records go to the first place of their layer, as stat records do (R277). -/
def State.placeRoutes (s : State) (rs : List (List Byte)) : State :=
  rs.foldl (fun t r => match t.step.routes.find? (·.1 == fieldAt r 0 2) with
    | some x => t.post x.2 (fitBytes 64 r)
    | none => t) s

/-- VOTE_CLOSE (R422, R429): square sums, stat and route records combine, and the contribution leaves. -/
def execVoteClose (s : State) : Host.Outcome State Fault Refusal :=
  if !s.closesNow then .next s
  else
    let s := s.enterSquares
    let sum := s.ownSum
    let s := if sum.special = .finite then s else s.veto vGRAD
    let s := if s.isSet Reg.COL_STEP_CTL_NUMABORT then s.orInto Reg.COL_STEP_LOCAL_LOCAL (2 ^ 31) else s
    let s := s.combineStats
    let s := s.placeRoutes s.combinedRoutes
    let s := s.emit (.contribution {
      step := BitVec.ofNat 64 (s.get Reg.COL_STEP_NUM_STEP), sum := BitVec.ofNat 768 (leNat (sum.record .gl16w))
      vote := BitVec.ofNat 32 (s.get Reg.COL_STEP_LOCAL_LOCAL)
      stats := s.combinedStats.map fun r => BitVec.ofNat 1024 (leNat r)
      routes := s.combinedRoutes.map fun r => BitVec.ofNat 512 (leNat r) })
    let timeout := (s.step.gnorms.map (·.timeout)).foldl Nat.max 0
    let s := s.put Reg.COL_STEP_STATUS_CLOSED 1
    .next ({ s with step := { s.step with deadline := if timeout = 0 then none else some (s.now + timeout) } }.progress)

/-- REDUCTION_TIMEOUT (R431). -/
def execReductionTimeout (s : State) : Host.Outcome State Fault Refusal :=
  match s.step.deadline with
  | none => .next s
  | some t =>
    if s.stepState = 2 && s.isSet Reg.COL_STEP_STATUS_CLOSED && decide (t ≤ s.now) && s.link.mirror.isNone then
      .next (s.veto vLINK).progress
    else .next s

/-! ### The replay check (R475, R476) -/

/-- The first banking-class error; level 7 names none (R479). -/
def State.bnkErr (s : State) (code level : Nat) : State :=
  s.firstErr Reg.BNK_ERR_VALID Reg.BNK_ERR_CODE code [(Reg.BNK_ERR_LEVEL, level)]

/-- Whether the step's NL word matches a reference. -/
def State.replayMatches (s : State) (ref : BitVec 64) : Bool :=
  let loss := ref.toNat / 2 ^ 32
  s.get Reg.COL_STEP_NORM_NORM == ref.toNat % 2 ^ 32 &&
    (!s.step.lossRead || loss == 0 || s.get Reg.COL_STEP_NORM_LOSS == loss)

/-- The candidate under trial, 0 or 1, if one is untried. -/
def State.underTrial (s : State) : Option Nat :=
  if !s.isSet Reg.BNK_TRIAL_ACTIVE then none
  else if s.get Reg.BNK_TRIAL_RES0 = 0 then some 0
  else if s.get Reg.BNK_TRIAL_RES1 = 0 then some 1
  else none

/-- Ends a trial. -/
def State.endTrial (s : State) : State := { s with bank := { s.bank with trial := none } }.put Reg.BNK_TRIAL_ACTIVE 0

/-- Level of a candidate of the trial, 7 for none. -/
def State.trialLevel (s : State) : Option Nat → Nat
  | some 0 => s.get Reg.BNK_TRIAL_LV0
  | some _ => s.get Reg.BNK_TRIAL_LV1
  | none => 7

/-- A replay that does not match (R475): the error, an event, and the late reason. -/
def State.replayFailed (s : State) (level : Nat) : State :=
  (((s.bnkErr 0x9008 level).raise 9 0x01 0x2B0 0x9008 (s.get Reg.COL_STEP_NUM_STEP))).veto vFAULT

/-- The replay check, when VERIFY is set and the step is the one to verify. -/
def State.replayCheck (s : State) : State :=
  match s.bank.ref with
  | none => s
  | some ref =>
    if !s.isSet Reg.BNK_STATUS_VERIFY || s.bank.refStep ≠ s.get Reg.COL_STEP_NUM_STEP then s
    else
      let ok := s.replayMatches ref
      let tried := s.underTrial
      let level := s.trialLevel tried
      let s := if ok then s.put Reg.BNK_STATUS_VERIFY 0 else s
      let s := match tried with
        | some 0 => s.put Reg.BNK_TRIAL_RES0 (if ok then 1 else 2)
        | some _ => s.put Reg.BNK_TRIAL_RES1 (if ok then 1 else 2)
        | none => s
      if !ok then s.replayFailed level
      else match tried with
        | none => s
        | some i => if i = 1 && s.get Reg.BNK_TRIAL_RES0 = 2 then s.endTrial else s.veto vFAULT

/-! ### Mirrored mode (R506) -/

/-- Payload of a DIGEST frame. -/
def digestPayload (step crc outcome : Nat) (digest : BitVec 64) : List Byte :=
  leBytes 8 step ++ leBytes 4 crc ++ leBytes 1 (outcome + 1) ++ leBytes 3 0 ++ leBytes 8 digest.toNat ++ List.replicate 40 0

/-- The module's own DIGEST payload. -/
def State.ownDigest (s : State) (m : Mirror) : List Byte :=
  digestPayload (s.get Reg.COL_STEP_NUM_STEP) (s.get Reg.COL_CFG_CRC_CRC) m.outcome (m.digest.getD 0)

/-- Compares both DIGEST frames once both exist; the step takes its outcome or diverges. -/
def State.compareDigests (s : State) : State :=
  match s.link.mirror, s.link.digestIn with
  | some m, some d =>
    if m.digest.isNone then s
    else
      let own := s.ownDigest m
      let s := ((s.put Reg.PAIR_DIGEST_DIGEST (fieldAt own 16 8)).put Reg.PAIR_PDIGEST_DIGEST (fieldAt d 16 8)).put
        Reg.PAIR_DSTEP_STEP (s.get Reg.COL_STEP_NUM_STEP)
      let same := own.take 13 == d.take 13 && fieldAt own 16 8 == fieldAt d 16 8
      let s := s.put Reg.PAIR_STATUS_DIVERGED (if same then 0 else 1)
      if same then s.takeOutcome m.outcome else s.veto vDIVERGE
  | _, _ => s

/-- Sends the own DIGEST frame and compares if the partner's is here. -/
def State.sendDigest (s : State) (m : Mirror) (digest : BitVec 64) : State :=
  let m := { m with digest := some digest, sentAt := s.now }
  ({ s with link := { s.link with mirror := some m } }.sendPair tDIGEST 0 0 (s.ownDigest m)).compareDigests

/-- Takes the outcome of a vote, or in mirrored mode holds it: an outcome other than commit needs no digest pass. -/
def State.settleVote (s : State) (g : GlobalRed) : State :=
  let outcome := decideVote s.voteDetail
  if s.get Reg.PAIR_STATUS_MODE = 2 then
    let m : Mirror := ⟨g, outcome, none, 0⟩
    let s := { s with step := { s.step with deadline := none }, link := { s.link with mirror := some m } }
    if outcome = 0 then s else s.sendDigest m 0
  else s.takeOutcome outcome

/-! ### The global result (R429, R430, R432) -/

/-- Forms S, N and the vote from the global result, and takes its records; a result of another step number brings FAULT in
place of its content. -/
def State.takeResult (s : State) (g : GlobalRed) : State :=
  let mine := g.step.toNat = s.get Reg.COL_STEP_NUM_STEP
  let sum := if mine then (elemOfRecord false (leBytes 96 g.sum.toNat)).2 else s.ownSum
  let n := (fsqrt32 .rn 0 (sumToBin32 sum)).code
  let vote := s.get Reg.COL_STEP_LOCAL_LOCAL ||| (if mine then g.vote.toNat else vFAULT) |||
    (if (bin32.num n).isFinite then 0 else vGRAD)
  let s := (s.put Reg.COL_STEP_NORM_NORM n).put Reg.COL_STEP_VOTE_GLOBAL vote
  if mine then
    (s.takeStats (g.stats.map fun r => leBytes 128 r.toNat)).placeRoutes (g.routes.map fun r => leBytes 64 r.toNat)
  else s

/-- GLOBAL_RESULT (R432): an error that the replay check finds has already aborted the step. -/
def execGlobalResult (g : GlobalRed) (s : State) : Host.Outcome State Fault Refusal :=
  if s.stepState ≠ 2 || !s.isSet Reg.COL_STEP_STATUS_CLOSED || s.link.mirror.isSome then .next s
  else
    let s := (s.takeResult g).replayCheck
    .next (if s.stepState = 2 then s.settleVote g else s).progress

/-! ### The digest pass (R506) -/

/-- New tensors of a shard as an update would write them. -/
structure ShardNew where
  master : List Byte
  m1     : List Byte
  r1     : List Byte
  m2     : List Byte
  r2     : List Byte
  work   : List Byte
  rw     : List Byte
deriving DecidableEq, Repr

/-- A shard's bytes in the order of the digest: each tensor followed by its scale records. -/
def ShardNew.bytes (n : ShardNew) : List Byte := n.master ++ n.m1 ++ n.r1 ++ n.m2 ++ n.r2 ++ n.work ++ n.rw

/-- Computes the blocks of a shard without writing; none when an engine cannot read, with the code. -/
def State.dryBlocks (p : MicroProg) (env : UpdateEnv) (k : Nat) (x : ShardIn) :
    List Nat → State → ShardNew → State × Checked ShardNew
  | [], s, n => (s, .ok n)
  | o :: os, s, n =>
    match s.computeBlock p env k x o with
    | (s, .error c) => (s, .error c)
    | (s, .ok b) =>
      State.dryBlocks p env k x os s {
        master := n.master ++ b.elems.flatMap fun e => leBytes 4 e.w
        m1 := n.m1 ++ b.m1.data, r1 := n.r1 ++ b.m1.rec_, m2 := n.m2 ++ b.m2.data, r2 := n.r2 ++ b.m2.rec_
        work := n.work ++ b.work.data, rw := if x.gl8 then n.rw ++ b.work.rec_ else n.rw }

/-- Runs the shards of an UPDATE without writing; `r` is the CRC register so far. -/
def State.dryShards (env : UpdateEnv) (slot : Nat) : List (List Byte) → State → Nat → State × Checked Nat
  | [], s, r => (s, .ok r)
  | e :: es, s, r =>
    let x := ShardIn.ofBytes e
    match s.shardKiln x with
    | none => (s, .error arithField)
    | some k =>
      let p := MicroProg.ofBytes ((sfind (s.kiln k).upd slot).getD [])
      match State.dryBlocks p env k x (List.range (x.count / 32)) s ⟨[], [], [], [], [], [], []⟩ with
      | (s, .error c) => (s, .error c)
      | (s, .ok n) => State.dryShards env slot es s (crcBytes crc64 r n.bytes)

/-- Runs UPDATEs in their order of issue without writing. -/
def State.dryUpdates : List UpdateWait → State → Nat → State × Checked Nat
  | [], s, r => (s, .ok (crcOut crc64 r))
  | u :: us, s, r =>
    match s.readUpdate u.kilns u.addr with
    | (s, .error c) => (s, .error c)
    | (s, .ok d) => match State.dryShards (s.updateEnv d.head) (fieldAt d.head 4 1) d.shards s r with
      | (s, .error c) => (s, .error c)
      | (s, .ok r) => State.dryUpdates us s r

/-- Whether every training run has issued its UPDATE. -/
def State.updatesIssued (s : State) : Bool := (s.runsOf false).all fun r => s.step.updates.any (·.run == r.id)

/-- DIGEST_PASS (R506): with the outcome commit and every UPDATE issued, the pass forms the digest and the frame leaves. A
pass that cannot read fails like the operation that it runs. -/
def execDigestPass (s : State) : Host.Outcome State Fault Refusal :=
  match s.link.mirror with
  | none => .next s
  | some m =>
    if s.stepState ≠ 2 || m.outcome ≠ 0 || m.digest.isSome || !s.updatesIssued then .next s
    else match State.dryUpdates s.step.updates s crc64.init with
      | (s, .error c) => .next (s.workFailed c).progress
      | (s, .ok d) => .next (s.sendDigest m (BitVec.ofNat 64 d)).progress

/-- DIGEST_TIMEOUT (R506). -/
def execDigestTimeout (s : State) : Host.Outcome State Fault Refusal :=
  match s.link.mirror with
  | none => .next s
  | some m =>
    if s.stepState = 2 && m.digest.isSome && s.link.digestIn.isNone &&
        decide (m.sentAt + s.get Reg.PAIR_CTL_DTIMEOUT ≤ s.now) then .next (s.veto vLINK).progress
    else .next s

/-! ### UPDATE (R418, R434-R440) and the drain of an aborted step -/

/-- The shards that an UPDATE descriptor names, with their kilns, none where it is malformed. -/
def State.shardsOf (s : State) (kilns addr : Nat) : List Shard :=
  match (s.readUpdate kilns addr).2 with
  | .ok d => d.shards.map fun e => ⟨(s.shardKiln (ShardIn.ofBytes e)).getD 0, e⟩
  | .error _ => []

/-- The work of UPDATE at issue: it waits for COMMIT, runs at once in COMMIT, and completes without effect once the step
was skipped. -/
def State.updateWork (s : State) (p seq : Nat) (op : BitVec 128) : State :=
  let ks := s.opKilns p op
  let named := s.shardsOf ks (sArg op)
  if s.stepState = 5 then
    { s with step := { s.step with shards := s.step.shards ++ named } }.opDone p seq 0
  else
    let s := { s with step := { s.step with
      updates := s.step.updates ++ [⟨p, seq, sArg op, ks⟩], shardsIn := s.step.shardsIn ++ named } }
    if s.stepState = 4 then s.commitUpdates else s

/-- UPDATE (R418, R435). -/
def execUpdate (p : Fin 512) (op : BitVec 128) (s : State) : Host.Outcome State Fault Refusal :=
  s.runOp 0x13 p op alone fun s seq => if s.isEval p then s.opDone p seq 0 else s.updateWork p seq op

/-- Whether an aborted step has no operation in flight. -/
def State.drained (s : State) : Bool := s.stepState = 6 && (s.runsOf false).all fun r => r.flight.isEmpty

/-- STEP_DRAIN (R416, R419, R420): IDLE; RUN_STEP with AUTO and every ABORT_STEP complete. -/
def execStepDrain (s : State) : Host.Outcome State Fault Refusal :=
  if !s.drained then .next s
  else
    let s := (s.enter 0).clearRuns false
    let s := s.completeEvery 0x02 stepVetoed (s.get Reg.COL_STEP_NUM_STEP) s.voteDetail s.step.flags
    .next (s.completeEvery 0x04 0 0 0 0)

end Sys2Proof.Machine
end

