-- ==== Sys2Proof/Machine/Ranks.lean ====
section
/-! DEFINITION. The rank table (R491, R492) and its updates (R497). -/

namespace Sys2Proof.Machine

/-! ### The table as it lies in memory (R491) -/

/-- An entry from its 16 bytes. -/
def RankEntry.ofBytes (e : List Byte) : RankEntry := ⟨fieldAt e 0 8, fieldAt e 8 1, fieldAt e 9 1, fieldAt e 10 2⟩

/-- A table from its bytes. -/
def RankTable.ofBytes (b : List Byte) : RankTable where
  self := fieldAt b 6 2
  fabric := fieldAt b 8 8
  gen := fieldAt b 16 4
  portMap := (List.range 12).map fun p => fieldAt b (64 + 4 * p) 4
  entries := (chunksOf 16 (fieldAt b 4 2) (b.drop 128)).map RankEntry.ofBytes

/-- Whether the port map uses an Odnil port. -/
def RankTable.uses (t : RankTable) (p : Nat) : Bool := bit (t.portMap.getD p 0) 24

/-- Rank at the other end of a port. -/
def RankTable.peerRank (t : RankTable) (p : Nat) : Nat := t.portMap.getD p 0xFFFF % 2 ^ 16

/-- Port at the other end of a port. -/
def RankTable.peerPort (t : RankTable) (p : Nat) : Nat := bits (t.portMap.getD p 0) 16 8

/-- Whether a header of 128 bytes has the form of R491. -/
def rankHeadOk (b : List Byte) : Bool :=
  let n := fieldAt b 4 2
  fieldAt b 0 4 == 0x4B524E4B && decide (1 ≤ n ∧ n ≤ 8192 ∧ fieldAt b 6 2 < n) && zeroAt b 20 44 && zeroAt b 112 16 &&
    (List.range 12).all fun p => decide (fieldAt b (64 + 4 * p + 3) 1 ≤ 1)

/-- Whether a whole table passes the second row of R495. A NEXTHOP of 0xFF names no port. -/
def rankTableOk (b : List Byte) : Bool :=
  let t := RankTable.ofBytes b
  rankHeadOk b && ((chunksOf 16 t.entries.length (b.drop 128)).all fun e => zeroAt e 12 4) &&
    (t.entries.all fun e => decide (e.state ≤ 3) && (e.nextHop == 0xFF || (decide (e.nextHop < 12) && t.uses e.nextHop))) &&
    (match t.entries[t.self]? with
      | some e => e.state == 1
      | none => false)

/-- The table digest (R492). -/
def rankDigest (b : List Byte) : Nat :=
  let head := patch (patch (b.take 128) 6 (leBytes 2 0)) 64 (List.replicate 48 0)
  let entries := (chunksOf 16 (fieldAt b 4 2) (b.drop 128)).flatMap fun e => patch e 9 [0]
  crc crc64 (head ++ entries)

/-! ### Updates (R497) -/

/-- What a RANKUPD frame asks for. -/
inductive RankUpdate where
  | down (r : Nat)
  | adopt (r s : Nat)
deriving DecidableEq, Repr

/-- Payload of a RANKUPD frame: the kind in byte 0 (1 down, 2 adopt), the rank in bytes 2-3, the spare's in bytes 4-5
(DESIGN CHOICE, log entry 31). -/
def RankUpdate.payload : RankUpdate → List Byte
  | .down r => fitBytes 64 ([1, 0] ++ leBytes 2 r)
  | .adopt r s => fitBytes 64 ([2, 0] ++ leBytes 2 r ++ leBytes 2 s)

/-- Reads the payload of a RANKUPD frame. -/
def RankUpdate.ofPayload (p : List Byte) : Option RankUpdate :=
  match fieldAt p 0 1 with
  | 1 => some (.down (fieldAt p 2 2))
  | 2 => some (.adopt (fieldAt p 2 2) (fieldAt p 4 2))
  | _ => none

/-- A table after an update, none where it is refused: a rank outside the table, or a live rank that would be adopted. -/
def RankTable.update (t : RankTable) : RankUpdate → Option RankTable
  | .down r => match t.entries[r]? with
    | some e => some { t with entries := t.entries.set r { e with state := 3 } }
    | none => none
  | .adopt r s => match t.entries[r]?, t.entries[s]? with
    | some e, some x =>
      if e.state = 1 || r = s then none
      else some { t with
        self := if t.self = s then r else t.self
        entries := (t.entries.set r ⟨x.moduleId, 1, x.nextHop, 0xFFFF⟩).set s { x with state := 0 } }
    | _, _ => none

/-- Applies an update to the installed table; a refused one is recorded (R508). -/
def State.rankUpdate (s : State) (u : RankUpdate) : State :=
  match s.link.table.bind (·.update u) with
  | some t => { s with link := { s.link with table := some t } }.put Reg.ODN_FAB_STATUS_SELF t.self
  | none => s.odnErr linkRank 31

/-- Live ranks other than this module's. -/
def State.liveOthers (s : State) : List Nat :=
  match s.link.table with
  | some t => (List.range t.entries.length).filter fun r => r != t.self && s.rankState r == 1
  | none => []

/-- Sends an update to every live rank. -/
def State.tellRanks (s : State) (u : RankUpdate) : State :=
  s.liveOthers.foldl (fun t r => t.sendTo r tRANKUPD 0 0 u.payload) s

/-- Whether frames of a type wait for their acknowledgement, or for room, at a port. -/
def State.unacked (s : State) (type p : Nat) : Bool :=
  ((s.port p).replay.any fun e => fType e.frame == type) || (s.port p).waiting.any fun f => fType f == type

end Sys2Proof.Machine
end

