-- ==== Sys2Proof/Machine/Banking.lean ====
section
/-! DEFINITION. Banks (R451-R465): the stream of segments, the levels, the receive area and the partner's frames. -/

namespace Sys2Proof.Machine

/-- The banking engine. What it reads and writes of the training state is not subject to the region table. -/
def asBank : Who := { unit := 0x2B0, exempt := true }

/-- Codes of the banking class (R479). -/
def bnkState : Nat := 0x9001
/-- R479. -/
def bnkNothing : Nat := 0x9002
/-- R479. -/
def bnkLevel : Nat := 0x9003
/-- R479. -/
def bnkWrite : Nat := 0x9004
/-- R479. -/
def bnkStore : Nat := 0x9005
/-- R479. -/
def bnkNoCopy : Nat := 0x9006
/-- R479. -/
def bnkConfig : Nat := 0x9007
/-- R479. -/
def bnkRank : Nat := 0x9009
/-- R479. -/
def bnkFormat : Nat := 0x900A
/-- R480. -/
def bnkPartial : Nat := 0x0004
/-- R480. -/
def bnkNoRef : Nat := 0x0005
/-- R480. -/
def bnkTrial : Nat := 0x0006

/-! ### Records (R457-R460) -/

/-- One part of the stream: its record type, its offset in the record body, and its bytes. -/
structure BankPart where
  type   : Nat
  offset : Nat
  bytes  : List Byte
deriving DecidableEq, Repr

/-- The STEP record (R460). -/
def State.stepRecord (s : State) : List Byte :=
  let bound := s.isSet Reg.RIK_STATUS_BOUND0
  fitBytes 64 (leBytes 8 (s.get Reg.COL_STEP_NEXT_NEXT) ++ leBytes 8 (s.get Reg.COL_STEP_UPDATES_COUNT) ++
      leBytes 8 (s.get Reg.COL_STEP_SKIPS_COUNT) ++ leBytes 8 (s.get Reg.COL_STEP_SEED_SEED) ++
      leBytes 1 (s.get Reg.COL_STEP_LAST_OUTCOME) ++ leBytes 1 (if bound then 1 else 0) ++ List.replicate 6 0 ++
      leBytes 8 (s.get Reg.RIK_EVAL_POS_CURSOR)) ++
    (if bound then s.bindBytes 0 else List.replicate 128 0) ++ fitBytes 1536 s.step.history.flatten

/-- The CONFIG record (R459). -/
def State.configRecord (s : State) : List Byte :=
  fitBytes 64 (leBytes 8 (s.get Reg.COL_CFG_ID_ID) ++ leBytes 4 (s.get Reg.COL_CFG_STATUS_GEN) ++ leBytes 4 (s.get Reg.COL_CFG_CRC_CRC))

/-- The 64-byte header and the shard table of STATE (R459). -/
def State.shardTable (s : State) : List Byte :=
  fitBytes 64 (leBytes 4 s.step.shards.length) ++ s.step.shards.flatMap fun x => patch (fitBytes 64 x.bytes) 51 (leBytes 1 x.kiln)

/-- A promotion entry (R459). -/
def State.promoEntry (s : State) (layer : Nat) : List Byte :=
  let p := s.promoOf layer
  leBytes 2 layer ++ leBytes 1 p.fmt ++ [0] ++ leBytes 4 p.hold ++ leBytes 4 p.deferred ++ leBytes 4 0

/-- The captured part of SCALES (R459). -/
def State.capturedScales (s : State) : List Byte :=
  let ls := s.statLayers
  fitBytes 64 (leBytes 4 ls.length) ++ ls.flatMap s.promoEntry ++
    (ls.flatMap fun l => if s.statKilns.isEmpty then List.replicate 128 0 else s.peek (s.combinedAt l) 128) ++
    (List.range 384).flatMap fun h => (List.range 64).flatMap fun i => fitBytes 16 (s.table h kindBook i).now

/-- Bytes of the STATE data of a shard, and of its scale records. -/
def ShardIn.dataBytes (x : ShardIn) : Nat := up64 (4 * x.count) + 2 * up64 (2 * x.count) + up64 (x.workBytes * x.count)

/-- Bytes of the scale records of a shard. -/
def ShardIn.scaleBytes (x : ShardIn) : Nat := 4 * (x.count / 32) * (if x.gl8 then 3 else 2)

/-- The tensors of a shard in bank order: address and bytes. -/
def ShardIn.tensors (x : ShardIn) : List (Nat × Nat) :=
  [(x.master, 4 * x.count), (x.mom1, 2 * x.count), (x.mom2, 2 * x.count), (x.work, x.workBytes * x.count)]

/-- The scale records of a shard in bank order: address and bytes. -/
def ShardIn.records (x : ShardIn) : List (Nat × Nat) :=
  let n := 4 * (x.count / 32)
  let two := [(x.mom1 + up64 (2 * x.count), n), (x.mom2 + up64 (2 * x.count), n)]
  if x.gl8 then two ++ [(x.work + up64 x.count, n)] else two

/-- Reads ranges one after another, each padded to 64 bytes when `pad` asks. -/
def State.readRanges (w : Who) (pad : Bool) : List (Nat × Nat) → State → State × Nat × List Byte
  | [], s => (s, 0, [])
  | (a, n) :: rs, s =>
    let (s, c, bs) := s.readMem w a n
    if c ≠ 0 then (s, c, [])
    else
      let (s, c, rest) := State.readRanges w pad rs s
      (s, c, (if pad then padUnits bs else bs) ++ rest)

/-- Reads the shards' parts, at the given offsets of STATE and SCALES. -/
def State.readShards : List Shard → Nat → Nat → State → State × Checked (List BankPart)
  | [], _, _, s => (s, .ok [])
  | x :: xs, at1, at2, s =>
    let i := ShardIn.ofBytes x.bytes
    let (s, c, data) := State.readRanges asBank true i.tensors s
    if c ≠ 0 then (s, .error c)
    else
      let (s, c, recs) := State.readRanges asBank false i.records s
      if c ≠ 0 then (s, .error c)
      else match State.readShards xs (at1 + data.length) (at2 + recs.length) s with
        | (s, .error c) => (s, .error c)
        | (s, .ok ps) => (s, .ok (⟨1, at1, data⟩ :: ⟨2, at2, recs⟩ :: ps))

/-- The parts of a native bank in stream order (R457). -/
def State.bankParts (s : State) : State × Checked (List BankPart) :=
  let step := s.stepRecord
  let cfg := s.configRecord
  let table := s.shardTable
  let scales := s.capturedScales
  match State.readShards s.step.shards table.length scales.length s with
  | (s, .error c) => (s, .error c)
  | (s, .ok ps) => (s, .ok (⟨3, 0, step⟩ :: ⟨4, 0, cfg⟩ :: ⟨1, 0, table⟩ :: ⟨2, 0, scales⟩ :: ps))

/-! ### Segments and header (R457, R458) -/

/-- Payload of a full segment: 64 MiB. -/
def segmentBytes : Nat := 2 ^ 26

/-- Cuts a part into segments' payloads. -/
def cutPart (size : Nat) : Nat → BankPart → List BankPart
  | 0, _ => []
  | n + 1, p =>
    if p.bytes.isEmpty then []
    else ⟨p.type, p.offset, p.bytes.take size⟩ :: cutPart size n ⟨p.type, p.offset + size, p.bytes.drop size⟩

/-- All segments' payloads of a stream. -/
def cutParts (ps : List BankPart) : List BankPart := ps.flatMap fun p => cutPart segmentBytes (p.bytes.length / segmentBytes + 1) p

/-- A segment: its header and its padded payload. -/
def segmentOf (bnext index : Nat) (p : BankPart) : List Byte :=
  let h := leBytes 2 p.type ++ leBytes 2 0 ++ leBytes 4 index ++ leBytes 8 bnext ++ leBytes 8 p.offset ++
    leBytes 4 p.bytes.length ++ leBytes 4 0 ++ leBytes 8 (crc crc64 p.bytes) ++ List.replicate 16 0
  h ++ leBytes 8 (crc crc64 h) ++ padUnits p.bytes

/-- Segments in stream order; `seen` are the pieces before them. -/
def segmentsOf (bnext : Nat) : List BankPart → List BankPart → List Byte
  | _, [] => []
  | seen, p :: ps => segmentOf bnext (seen.filter (·.type == p.type)).length p ++ segmentsOf bnext (p :: seen) ps

/-- The body of a record of a type, from the pieces of a stream. -/
def recordBody (ps : List BankPart) (type : Nat) : List Byte := (ps.filter (·.type == type)).flatMap (·.bytes)

/-- Record types of a bank, ascending. -/
def recordTypes : List Nat := [1, 2, 3, 4, 0x11, 0x12]

/-- DIGEST of a bank (R457). -/
def bankDigest (ps : List BankPart) : Nat := crcOut crc64 (recordTypes.foldl (fun r t => crcBytes crc64 r (recordBody ps t)) crc64.init)

/-- A directory entry. -/
def dirEntry (ps : List BankPart) (type : Nat) : List Byte :=
  leBytes 2 type ++ leBytes 2 0 ++ leBytes 4 (ps.filter (·.type == type)).length ++ leBytes 8 (recordBody ps type).length

/-- The header of a bank for a level (R457). -/
def State.bankHeader (s : State) (ps : List BankPart) (bnext level : Nat) : List Byte :=
  let b := leBytes 4 0x4B424E4B ++ leBytes 1 0 ++ leBytes 1 level ++ leBytes 2 s.selfRank ++ leBytes 8 bnext ++ leBytes 8 s.bank.seq ++
    leBytes 8 s.now ++ leBytes 8 (bankDigest ps) ++ leBytes 4 ps.length ++ leBytes 1 (s.get Reg.BNK_STATUS_FEED) ++
    List.replicate 3 0 ++ leBytes 8 ((ps.map fun p => p.bytes.length).foldl (· + ·) 0) ++ leBytes 8 0 ++
    fitBytes 128 ((([1, 2, 3, 4] : List Nat)).flatMap (dirEntry ps)) ++ List.replicate 56 0
  b ++ leBytes 8 (crc crc64 b)

/-- Bytes that a part takes up in the stream. -/
def partSize (n : Nat) : Nat := up64 n + 64 * ((n + segmentBytes - 1) / segmentBytes)

/-- Bytes of the whole bank, header included. -/
def State.bankSize (s : State) : Nat :=
  let shard := fun (x : Shard) =>
    let i := ShardIn.ofBytes x.bytes
    partSize i.dataBytes + partSize i.scaleBytes
  partSize 1728 + partSize 64 + partSize (64 + 64 * s.step.shards.length) +
    partSize (64 + 144 * s.statLayers.length + 393216) + (s.step.shards.map shard).foldl (· + ·) 0 + 256

/-! ### Levels (R451-R455) -/

/-- The receive area lies within one region of the banking engine in the peat tier (R452). -/
def State.rcvOk (s : State) : Bool :=
  let a := 4096 * s.get Reg.BNK_RCV_BASE_ADDR
  let n := 4096 * s.get Reg.BNK_RCV_LEN_LEN
  decide (0 < n ∧ n ≤ 12 * 2 ^ 40 ∧ peatBase ≤ a ∧ a + n ≤ peatBase + s.get Reg.PEAT_SIZE_BYTES) &&
    s.cfg.active.regions.any fun r => decide (r.base ≤ a ∧ a + n ≤ r.base + r.len) && r.owner.toNat % 4 == 2 &&
      r.owner.toNat / 65536 == 0x2B0

/-- Whether a bank can go to the partner, apart from its size (R452). -/
def State.partnerUp (s : State) : Bool := s.get Reg.PAIR_STATUS_STATE = 2 && s.rcvOk && s.link.peerLen != 0

/-- Bytes of the flash banking area (R453). -/
def flashBytes : Nat := 32704 * 2 ^ 30

/-- Bytes of a bank in flash. -/
def BankCopy.size (c : BankCopy) : Nat := c.body.length + c.header.length

/-- Whether a bank of a size fits beside the latest complete one (R453). -/
def State.flashFits (s : State) (size : Nat) : Bool :=
  match s.bank.flash.getLast? with
  | some c => decide (c.size + size ≤ flashBytes)
  | none => decide (size ≤ flashBytes)

/-- Drops the oldest banks, the latest excepted, until a bank of a size fits. -/
def reclaim (size : Nat) : Nat → List BankCopy → List BankCopy
  | 0, cs => cs
  | n + 1, cs =>
    if cs.length ≤ 1 || (cs.map BankCopy.size).foldl (· + ·) 0 + size ≤ flashBytes then cs else reclaim size n cs.tail

/-- Whether STORE and STORE_LEN keep R454. -/
def storeOk (a n : Nat) : Bool :=
  decide (a % 4096 = 0 ∧ windowBase ≤ a ∧ a + n ≤ 0xC00000000000 ∧ 2 ^ 26 ≤ n ∧ n ≤ 2 ^ 36) && 2 ^ Nat.log2 n == n

/-- The named levels with flash beside partner when feeds are correlated (R455). -/
def State.namedLevels (s : State) (levels : Nat) : Nat :=
  if bit levels 0 && s.isSet Reg.BNK_STATUS_CORRELATED then levels ||| 2 else levels

/-- The levels of a mask that are available for a bank of a size. -/
def State.openLevels (s : State) (levels size : Nat) : Nat :=
  (if bit levels 0 && s.partnerUp && decide (2 * size ≤ s.link.peerLen) then 1 else 0) +
    (if bit levels 1 && s.flashFits size then 2 else 0) + (if bit levels 2 && s.windowOpen then 4 else 0)

/-! ### The bank in progress (R462-R464) -/

/-- Completes the banking command with an order, if it is one of a queue; an error is recorded. -/
def State.bankReply (s : State) (order code result detail : Nat) : State :=
  let s := if code / 0x1000 = 9 then s.bnkErr code 7 else s
  match s.col.started.find? fun c => c.order = order with
  | some c => s.complete c code result detail
  | none => s

/-- The bank ends: its counts, and its completion or its event (R462, R464, R465). -/
def State.endBank (s : State) (r : BankRun) (code : Nat) : State :=
  let s := ({ s with bank := { s.bank with run := none } }.put Reg.BNK_STATUS_BUSY 0).put Reg.BNK_STATUS_PHASE 0
  let s := if r.done = 0 then s else (s.put Reg.BNK_LAST_BNEXT r.bnext).bump Reg.BNK_CNT_BANKS 1
  let detail := r.done ||| (r.failed <<< 8)
  match r.order with
  | some o => s.bankReply o code r.bnext detail
  | none => (if code / 0x1000 = 9 then s.bnkErr code 7 else s).raise 9 0x01 0x2B0 code detail

/-- Moves a bank on: the partner level completes once every frame is acknowledged, the store level once the ring has taken
everything; the bank ends when nothing is left. -/
def State.bankAdvance (s : State) : State :=
  match s.bank.run with
  | none => s
  | some r =>
    let sent := r.partner && !(([12, 13, 14, 15] : List Nat).any (s.unacked tBANKSEG))
    let r := if sent then { r with partner := false, done := r.done ||| 1 } else r
    let r := if r.store && r.left.isEmpty then { r with store := false, done := r.done ||| 4 } else r
    if r.partner || r.store then { s with bank := { s.bank with run := some r } }
    else s.endBank r (if r.done = 0 then bnkWrite else if r.failed = 0 then 0 else bnkPartial)

/-- A level fails to take the bank (R464). -/
def State.abandonLevel (s : State) (level : Nat) : State :=
  match s.bank.run with
  | none => s
  | some r =>
    let r := if level = 0 then { r with partner := false } else { r with store := false, left := [] }
    { s with bank := { s.bank with run := some { r with failed := r.failed ||| 2 ^ level } } }.bankAdvance

/-- Room in the shared-store ring (R454). -/
def State.ringRoom (s : State) (len : Nat) : Nat :=
  len - (s.get Reg.BNK_STORE_MTAIL_COUNT + 2 ^ 40 - s.get Reg.BNK_STORE_HHEAD_COUNT) % 2 ^ 40

/-- Writes into the ring what fits, and moves the bank on; a write that fails abandons the level. -/
def State.ringWrite (s : State) : State :=
  match s.bank.run with
  | none => s
  | some r =>
    let n := Nat.min (s.ringRoom r.len) r.left.length
    if !r.store || n = 0 then s.bankAdvance
    else
      let pos := s.get Reg.BNK_STORE_MTAIL_COUNT % r.len
      let first := Nat.min n (r.len - pos)
      let (s, c) := s.writeMem asBank (r.at_ + pos) (r.left.take first)
      let (s, c) := if c ≠ 0 then (s, c) else s.writeMem asBank r.at_ ((r.left.drop first).take (n - first))
      if c ≠ 0 then (s.bnkErr bnkStore 2).abandonLevel 2
      else
        let s := { s with bank := { s.bank with run := some { r with left := r.left.drop n, moved := s.now } } }
        (s.bump Reg.BNK_STORE_MTAIL_COUNT n).bankAdvance

/-- Sends bytes to the partner in BANKSEG frames of at most 64 units. XID: 0 segments of a bank, 1 its header, 2 a request
for the banks held, and in answer 4 segments, 5 a header, 3 the end (DESIGN CHOICE, log entry 32). -/
def sendSegs (send : State → Nat → List Byte → State) : Nat → Nat → List Byte → State → State
  | 0, _, _, s => s
  | n + 1, off, bs, s =>
    if bs.isEmpty then s else sendSegs send n (off + 4096) (bs.drop 4096) (send s off (bs.take 4096))

/-- Sends bytes over the pair. -/
def State.sendPairSegs (s : State) (xid off : Nat) (bs : List Byte) : State :=
  sendSegs (fun t o p => t.sendPair tBANKSEG o xid p) (bs.length / 4096 + 1) off bs s

/-- Starts a bank on levels that are available (R462): the whole state is read, then each level takes it. -/
def State.startBank (s : State) (order : Option Nat) (named levels at_ len : Nat) : State :=
  let bnext := s.get Reg.COL_STEP_NEXT_NEXT
  let s := { s with bank := { s.bank with seq := s.bank.seq + 1 } }
  let run : BankRun := {
    order := order, bnext := bnext, done := 0, failed := named - levels, partner := false, store := false, left := []
    at_ := at_, len := len, moved := s.now }
  match s.bankParts with
  | (s, .error c) => s.endBank { run with failed := named } c
  | (s, .ok parts) =>
    let ps := cutParts parts
    let body := segmentsOf bnext [] ps
    let s := (s.put Reg.BNK_STATUS_BUSY 1).put Reg.BNK_STATUS_PHASE 2
    let s := s.bump Reg.CHK_BYTES_COUNT ((ps.map fun p => p.bytes.length).foldl (· + ·) 0)
    let s := if bit levels 0 then (s.sendPairSegs 0 0 body).sendPairSegs 1 body.length (s.bankHeader ps bnext 0) else s
    let s := if bit levels 1 then
        let size := body.length + 256
        { s with bank := { s.bank with
            flash := reclaim size s.bank.flash.length s.bank.flash ++ [⟨bnext, body, s.bankHeader ps bnext 1⟩] } }
      else s
    { s with bank := { s.bank with run := some { run with
        done := levels &&& 2, partner := bit levels 0, store := bit levels 2
        left := if bit levels 2 then body ++ s.bankHeader ps bnext 2 else [] } } }.ringWrite

/-! ### BANK and automatic banks -/

/-- The work of BANK: the rows of R462 after those that wait. -/
def bankWork (s : State) (c : Started) : State :=
  let named := s.namedLevels (dField c.desc 8 1)
  let a := dField c.desc 16 8
  let n := dField c.desc 24 8
  let levels := s.openLevels named s.bankSize
  if s.stepState = 7 || s.get Reg.COL_STEP_LAST_OUTCOME = 4 then s.bankReply c.order bnkState 0 0
  else if s.get Reg.COL_STEP_NEXT_NEXT = 0 || s.step.shards.isEmpty then s.bankReply c.order bnkNothing 0 0
  else if bit named 2 && !storeOk a n then (s.bnkErr bnkStore 2).bankReply c.order bnkStore 0 0
  else if levels = 0 then s.bankReply c.order bnkLevel 0 (named <<< 8)
  else s.startBank (some c.order) named levels a n

/-- Whether the module is between steps with no evaluation. -/
def State.quiet (s : State) : Bool := (s.stepState = 0 || s.stepState = 5) && !s.evaluating

/-- BANK (R462). -/
def execBank (sq : Fin 64) (d : BitVec 512) (s : State) : Host.Outcome State Fault Refusal :=
  .next (s.hostCommand 0x06 sq d
    (fun s => s.stepState != 7 && s.get Reg.COL_STEP_LAST_OUTCOME != 4 && (s.isSet Reg.BNK_STATUS_BUSY || !s.quiet)) bankWork)

/-- AUTOMATIC_BANK (R465). -/
def execAutomaticBank (s : State) : Host.Outcome State Fault Refusal :=
  if !s.bank.due then .next s
  else
    let s := { s with bank := { s.bank with due := false } }
    if s.isSet Reg.BNK_STATUS_BUSY then .next (s.bump Reg.BNK_CNT_SKIPPED 1)
    else
      let named := s.namedLevels (s.get Reg.BNK_CTL_ALEVELS % 4)
      let levels := s.openLevels named s.bankSize
      if s.step.shards.isEmpty then .next ((s.bnkErr bnkNothing 7).raise 9 0x01 0x2B0 bnkNothing 0)
      else if levels = 0 then .next ((s.bnkErr bnkLevel 7).raise 9 0x01 0x2B0 bnkLevel (named <<< 8))
      else .next (s.startBank none named levels 0 0)

/-! ### The receive area (R452) -/

/-- Bytes of a slot of the receive area. -/
def State.rcvHalf (s : State) : Nat := 4096 * s.get Reg.BNK_RCV_LEN_LEN / 2

/-- Device address of a slot. -/
def State.rcvSlotAt (s : State) (i : Nat) : Nat := 4096 * s.get Reg.BNK_RCV_BASE_ADDR + i * s.rcvHalf

/-- A slot of the receive area. -/
def State.rcvSlot (s : State) (i : Nat) : Option RcvSlot := if i = 0 then s.bank.slot0 else s.bank.slot1

/-- Stores a slot. -/
def State.setRcvSlot (s : State) (i : Nat) (x : Option RcvSlot) : State :=
  if i = 0 then { s with bank := { s.bank with slot0 := x } } else { s with bank := { s.bank with slot1 := x } }

/-- Age of the bank in a slot, 0 for none. -/
def State.rcvAge (s : State) (i : Nat) : Nat := ((s.rcvSlot i).map (·.age)).getD 0

/-- The slot that a new bank goes into: the one that does not hold the latest complete bank. -/
def State.nextRcv (s : State) : Nat := if s.rcvAge 0 ≤ s.rcvAge 1 then 0 else 1

/-- The banking engine as the writer of its own region. -/
def asReceiver : Who := { unit := 0x2B0 }

/-- Names the slot being written. -/
def State.fillRcv (s : State) (i : Option Nat) : State := { s with bank := { s.bank with filling := i } }

/-- Begins a slot: its old header goes. -/
def State.beginRcv (s : State) : State :=
  let i := s.nextRcv
  let s := match s.rcvSlot i with
    | some x => (s.writeMem asReceiver (s.rcvSlotAt i + x.header) (List.replicate 256 0)).1
    | none => s
  (s.setRcvSlot i none).fillRcv (some i)

/-- Writes a frame's payload into the slot being filled; a write that fails ends the filling. -/
def State.storeRcv (s : State) (off : Nat) (p : List Byte) : State :=
  match s.bank.filling with
  | none => s
  | some i =>
    if s.rcvHalf < off + p.length then s.fillRcv none
    else
      let (s, c) := s.writeMem asReceiver (s.rcvSlotAt i + off) p
      if c ≠ 0 then s.fillRcv none else s

/-- A frame of the partner's bank: segments, then the header that completes it. -/
def State.takeSegment (s : State) (f : Frame) : State :=
  let off := fOffset f
  if !s.rcvOk then s
  else if fXid f = 0 then (if off = 0 then s.beginRcv else s).storeRcv off f.payload
  else
    let s := s.storeRcv off f.payload
    match s.bank.filling with
    | none => s
    | some i =>
      let age := Nat.max (s.rcvAge 0) (s.rcvAge 1) + 1
      (s.setRcvSlot i (some ⟨fieldAt f.payload 8 8, off, age⟩)).fillRcv none

/-- Serves a request for the banks held: each complete one, then the end. -/
def State.serveBanks (s : State) (send : State → Nat → Nat → List Byte → State) : State :=
  let one := fun (t : State) (i : Nat) => match t.rcvSlot i with
    | none => t
    | some x =>
      let (t, c, bs) := t.readMem asReceiver (t.rcvSlotAt i) (x.header + 256)
      if c ≠ 0 then t
      else
        let t := sendSegs (fun t o p => send t 4 o p) (x.header / 4096 + 1) 0 (bs.take x.header) t
        send t 5 x.header (bs.drop x.header)
  send (one (one s 0) 1) 3 0 []

end Sys2Proof.Machine
end

