-- ==== Sys2Proof/Machine/Rekindle.lean ====
section
/-! DEFINITION. REKINDLE and ADOPT (R470-R478): reading copies, eligibility, selection, the write pass, trials and takeover,
with the shared-store ring's other side (R454). -/

namespace Sys2Proof.Machine

/-! ### Parsing a stream (R457, R458) -/

/-- A segment as read: its piece, its index and position, and whether both CRCs match. -/
structure SegIn where
  piece : BankPart
  index : Nat
  bnext : Nat
  sound : Bool
deriving DecidableEq, Repr

/-- A segment from its header and what follows. -/
def SegIn.ofBytes (h rest : List Byte) : SegIn :=
  let p := rest.take (fieldAt h 24 4)
  ⟨⟨fieldAt h 0 2, fieldAt h 16 8, p⟩, fieldAt h 4 4, fieldAt h 8 8,
    fieldAt h 56 8 == crc crc64 (h.take 56) && fieldAt h 32 8 == crc crc64 p && p.length == fieldAt h 24 4⟩

/-- The segments of a body; a tail that is no whole segment becomes an unsound one. -/
def segsOf : Nat → List Byte → List SegIn
  | 0, _ => []
  | n + 1, bs =>
    if bs.isEmpty then []
    else
      let h := bs.take 64
      let len := fieldAt h 24 4
      if bs.length < 64 + up64 len || segmentBytes < len then [{ SegIn.ofBytes h [] with sound := false }]
      else SegIn.ofBytes h (bs.drop 64) :: segsOf n (bs.drop (64 + up64 len))

/-- The segments of a body. -/
def parseBody (bs : List Byte) : List SegIn := segsOf (bs.length / 64 + 1) bs

/-- Offset of the header in a streamed copy: `none` while more bytes are needed; a length that no segment has ends the
copy. -/
def headerAt (bs : List Byte) : Nat → Nat → Option Nat
  | 0, _ => none
  | n + 1, at_ =>
    if bs.length < at_ + 64 then none
    else if fieldAt bs at_ 4 = 0x4B424E4B then (if bs.length < at_ + 256 then none else some at_)
    else
      let len := fieldAt bs (at_ + 24) 4
      if segmentBytes < len then some at_ else headerAt bs n (at_ + 64 + up64 len)

/-- A whole streamed copy, once its header is here. -/
def streamedCopy (bs : List Byte) : Option BankCopy :=
  match headerAt bs (bs.length / 64 + 1) 0 with
  | some n => some ⟨fieldAt bs (n + 8) 8, bs.take n, (bs.drop n).take 256⟩
  | none => none

/-! ### Eligibility (R471) -/

/-- Whether the segments of a record type cover it as the directory says. -/
def coversRecord (segs : List SegIn) (dir : List Byte) (type : Nat) : Bool :=
  let mine := segs.filter (·.piece.type == type)
  let e := (List.range 8).find? fun i => fieldAt dir (16 * i) 2 == type
  match e with
  | none => mine.isEmpty
  | some i =>
    fieldAt dir (16 * i + 4) 4 == mine.length &&
      mine.zipIdx.foldl (fun (a : Option Nat) x =>
        match a with
        | some n => if x.1.index = x.2 && x.1.piece.offset = n then some (n + x.1.piece.bytes.length) else none
        | none => none) (some 0) == some (fieldAt dir (16 * i + 8) 8)

/-- Pieces of the segments. -/
def piecesIn (segs : List SegIn) : List BankPart := segs.map (·.piece)

/-- Whether header and segments agree, but for CONFIG and FORMAT. -/
def copySound (c : BankCopy) (segs : List SegIn) : Bool :=
  let h := c.header
  let ps := piecesIn segs
  fieldAt h 0 4 == 0x4B424E4B && fieldAt h 248 8 == crc crc64 (h.take 248) && fieldAt h 40 4 == segs.length &&
    (segs.all fun x => x.sound && x.bnext == fieldAt h 8 8 && recordTypes.contains x.piece.type) &&
    (recordTypes.all fun t => coversRecord segs ((h.drop 64).take 128) t) &&
    fieldAt h 48 8 == (ps.map fun p => p.bytes.length).foldl (· + ·) 0 && fieldAt h 32 8 == bankDigest ps

/-- Whether the records that a bank of a format must hold are there, with at least their fixed parts (R459). -/
def recordsOk (ps : List BankPart) (kx1 : Bool) : Bool :=
  let len := fun t => (recordBody ps t).length
  let st := recordBody ps 1
  let sc := recordBody ps 2
  decide (64 ≤ st.length ∧ 64 + 64 * fieldAt st 0 4 ≤ st.length ∧ 64 ≤ sc.length ∧
      64 + 144 * fieldAt sc 0 4 + 393216 ≤ sc.length) && len 3 == 1728 && len 4 == 64 &&
    (if kx1 then len 0x11 == 64 && len 0x12 == 136 else len 0x11 == 0 && len 0x12 == 0)

/-- What keeps a copy from being eligible. -/
inductive CopyVerdict where
  | eligible | config | format | broken
deriving DecidableEq, Repr

/-- The verdict on a copy (R471, R479). -/
def State.verdict (s : State) (c : Candidate) : CopyVerdict :=
  let segs := parseBody c.copy.body
  let ps := piecesIn segs
  let kx1 := fieldAt c.copy.header 4 1 = 1
  if !copySound c.copy segs then .broken
  else if (kx1 && c.level != 2) || (kx1 && !recordsOk ps true) then .format
  else if 1 < fieldAt c.copy.header 4 1 || !recordsOk ps kx1 then .broken
  else
    let cfg := recordBody ps 4
    if fieldAt cfg 0 8 = s.get Reg.COL_CFG_ID_ID && fieldAt cfg 12 4 = s.get Reg.COL_CFG_CRC_CRC then .eligible else .config

/-- DIGEST of a candidate. -/
def Candidate.digest (c : Candidate) : Nat := fieldAt c.copy.header 32 8

/-! ### The write pass (R473, R477) -/

/-- Writes pieces of a record to ranges, each padded to 64 bytes in the record when `pad` asks: the state, a code (or
BNK_NOCOPY when the record ends early), whether anything was written, and what remains of the record. -/
def State.writeRanges (pad : Bool) : List (Nat × Nat) → List Byte → State → State × Nat × Bool × List Byte
  | [], bs, s => (s, 0, false, bs)
  | (a, n) :: rs, bs, s =>
    let m := if pad then up64 n else n
    if bs.length < m then (s, bnkNoCopy, false, bs)
    else
      let (s, c) := s.writeMem asBank a (bs.take n)
      if c ≠ 0 then (s, if c = memUE then memUE else bnkNoCopy, true, bs)
      else
        let (s, c, _, rest) := State.writeRanges pad rs (bs.drop m) s
        (s, c, true, rest)

/-- Writes the shards of a bank: the state, a code, and whether anything was written. -/
def State.writeShards : List Shard → List Byte → List Byte → State → State × Nat × Bool
  | [], _, _, s => (s, 0, false)
  | x :: xs, data, recs, s =>
    let i := ShardIn.ofBytes x.bytes
    let (s, c, w1, data) := State.writeRanges true i.tensors data s
    if c ≠ 0 then (s, c, w1)
    else
      let (s, c, _, recs) := State.writeRanges false i.records recs s
      if c ≠ 0 then (s, c, true)
      else
        let (s, c, _) := State.writeShards xs data recs s
        (s, c, true)

/-- The shard table of a STATE record. -/
def shardsOfRecord (st : List Byte) : List Shard :=
  (chunksOf 64 (fieldAt st 0 4) (st.drop 64)).map fun e => ⟨fieldAt e 51 1, patch e 51 [0]⟩

/-- Installs the promotion entries of a SCALES record. -/
def State.restorePromo (s : State) (sc : List Byte) : State :=
  (chunksOf 16 (fieldAt sc 0 4) (sc.drop 64)).foldl (fun t e =>
    t.setPromo (fieldAt e 0 2) ⟨fieldAt e 2 1, fieldAt e 4 4, fieldAt e 8 4⟩) { s with step := { s.step with promo := [] } }

/-- Installs the codebooks of a SCALES record as live generations, shadows empty; sixteen zero bytes are no codebook. -/
def State.restoreBooks (s : State) (sc : List Byte) : State :=
  let books := (sc.drop (64 + 144 * fieldAt sc 0 4)).take 393216
  (List.range 384).foldl (fun t h => (List.range 64).foldl (fun u i =>
    let b := (books.drop (16 * (64 * h + i))).take 16
    let live := (u.table h kindBook i).live
    let b := if leNat b = 0 then [] else b
    u.setTable h kindBook i (if live then ⟨[], b, true⟩ else ⟨b, [], false⟩)) t) s

/-- Restores counters, binding 0 and the evaluation cursor from a STEP record. -/
def State.restoreStep (s : State) (st : List Byte) : State :=
  let s := ((s.put Reg.COL_STEP_NEXT_NEXT (fieldAt st 0 8)).put Reg.COL_STEP_UPDATES_COUNT (fieldAt st 8 8)).put
    Reg.COL_STEP_SKIPS_COUNT (fieldAt st 16 8)
  let s := ((s.put Reg.COL_STEP_SEED_SEED (fieldAt st 24 8)).put Reg.COL_STEP_LAST_OUTCOME (fieldAt st 32 1)).put
    Reg.COL_STEP_LAST_STEP ((fieldAt st 0 8 + 2 ^ 56 - 1) % 2 ^ 56)
  let s := if bit (fieldAt st 33 1) 0 then s.loadBind 0 ((st.drop 64).take 128) else s.unbind 0
  (s.setPrepared 1 []).put Reg.RIK_EVAL_POS_CURSOR (fieldAt st 40 8)

/-- What a KX1 compatibility bank restores besides (R477). -/
def State.restoreKx1 (s : State) (ps : List BankPart) (bnext : Nat) : State :=
  let pos := fieldAt (recordBody ps 0x11) 0 8
  let s := s.put Reg.COL_STEP_SEED_SEED (fieldAt (recordBody ps 0x12) 0 8)
  if s.isSet Reg.RIK_STATUS_BOUND0 then s.loadBind 0 (patch (s.bindBytes 0) 32 (leBytes 8 bnext ++ leBytes 8 pos))
  else { s with bank := { s.bank with kx1 := some (bnext, pos) } }.put Reg.BNK_STATUS_KX1PEND 1

/-- The write pass (R473): the state and a code; one that stops after its first write leaves the state TORN. Bytes from the
first unsound segment on are not used. -/
def State.restore (s : State) (c : BankCopy) : State × Nat :=
  let segs := (parseBody c.body).takeWhile (·.sound)
  let ps := piecesIn segs
  let whole := copySound c (parseBody c.body)
  let st := recordBody ps 1
  let sc := recordBody ps 2
  if st.length < 64 || st.length < 64 + 64 * fieldAt st 0 4 then (s, bnkNoCopy)
  else
    let shards := shardsOfRecord st
    let (s, code, wrote) := State.writeShards shards (st.drop (64 + 64 * fieldAt st 0 4))
      (sc.drop (64 + 144 * fieldAt sc 0 4 + 393216)) s
    let code := if code = 0 && !whole then bnkNoCopy else code
    if code ≠ 0 then (if wrote then s.enter 7 else s, code)
    else
      let s := { s with step := { s.step with shards := shards } }
      let s := ((s.restorePromo sc).restoreBooks sc).restoreStep (recordBody ps 3)
      let s := if fieldAt c.header 4 1 = 1 then s.restoreKx1 ps (fieldAt c.header 8 8) else s
      ((s.clearRuns false).enter 0, 0)

/-! ### Selection (R472, R474, R476) -/

/-- Eligible copies in level order, the newest first within a level. -/
def State.eligible (s : State) (cs : List Candidate) : List Candidate :=
  (([0, 1, 2] : List Nat)).flatMap fun l => (cs.filter fun c => c.level == l && s.verdict c == .eligible).reverse

/-- Candidates of a position, one for each digest. -/
def candidatesOf (es : List Candidate) (target : Nat) : List Candidate :=
  es.foldl (fun l c => if c.copy.bnext ≠ target || l.any (·.digest == c.digest) then l else l ++ [c]) []

/-- NL word of a step in the history of a copy: that of its last entry for the step. -/
def historyNl (c : BankCopy) (step : Nat) : Option (BitVec 64) :=
  let st := recordBody (piecesIn (parseBody c.body)) 3
  let es := (chunksOf 24 64 (st.drop 192)).filter fun e => fieldAt e 0 8 == step && fieldAt e 20 1 != 0
  es.getLast?.map fun e => BitVec.ofNat 64 (fieldAt e 8 8)

/-- The references that BNK_REF and the copies give for a position. -/
def State.references (s : State) (es : List Candidate) (target : Nat) : Option (BitVec 64) × Option (BitVec 64) :=
  (if s.isSet Reg.BNK_REF_CTL_VALID && s.get Reg.BNK_REF_STEP_STEP = target then
      some (BitVec.ofNat 64 (s.get Reg.BNK_REF_VAL_NL)) else none,
    (es.filter fun c => decide (target < c.copy.bnext)).findSome? fun c => historyNl c.copy target)

/-- What selection decides: a copy to restore, whether it stands under trial, and the divergences met. -/
structure Choice where
  copy  : Option Candidate
  trial : Option (Candidate × Candidate)
  fresh : Bool
  rounds : Nat
deriving DecidableEq, Repr

/-- Selection among candidates; `trial` is the trial that goes on, with both results. -/
def choose (hasRef : Bool) (trial : Option Trial) (res0 res1 : Nat) : Nat → List Candidate → Nat → Choice
  | 0, _, n => ⟨none, none, false, n⟩
  | k + 1, cs, n =>
    match cs with
    | [] => ⟨none, none, false, n⟩
    | [c] => ⟨some c, none, false, n⟩
    | c :: r :: _ =>
      let later := cs.filter fun x => decide (r.level < x.level)
      if !hasRef then choose hasRef trial res0 res1 k later (n + 1)
      else
        let same := match trial with
          | some t => t.cand0 == (c.level, c.digest) && t.cand1 == (r.level, r.digest)
          | none => false
        if !same then ⟨some c, some (c, r), true, n⟩
        else if res0 = 0 then ⟨some c, some (c, r), false, n⟩
        else if res1 = 0 then ⟨some r, some (c, r), false, n⟩
        else if res0 = 1 && res1 != 1 then ⟨some c, none, false, n⟩
        else if res1 = 1 && res0 != 1 then ⟨some r, none, false, n⟩
        else choose hasRef trial res0 res1 k later (n + 1)

/-- The target position (R471). -/
def targetOf (r : RekindleRun) : Nat :=
  if r.target ≠ 0 then r.target
  else match (r.copies.filter (·.level != 2)).map (·.copy.bnext) with
    | [] => ((r.copies.map (·.copy.bnext)).head?).getD 0
    | ns => ns.foldl Nat.max 0

/-- Stores the work in progress. -/
def State.setRekindle (s : State) (r : Option RekindleRun) : State := { s with bank := { s.bank with rekindle := r } }

/-- Neither pass runs any more. -/
def State.rekindleIdle (s : State) : State :=
  (((s.setRekindle none).put Reg.BNK_STATUS_BUSY 0).put Reg.BNK_STATUS_PHASE 0).put Reg.BNK_STATUS_PASS 0

/-- Ends REKINDLE or ADOPT without a restored copy. -/
def State.rekindleFailed (s : State) (r : RekindleRun) (code : Nat) : State := s.rekindleIdle.bankReply r.order code 0 0

/-- Ends REKINDLE or ADOPT with a restored copy, recorded in the audit log (R553). -/
def State.rekindleDone (s : State) (r : RekindleRun) (c : Candidate) : State :=
  let s := s.rekindleIdle.bankReply r.order r.code c.copy.bnext c.level
  s.auditAfter 0x0C 0 0xFF r.code (leBytes 8 c.copy.bnext ++ leBytes 2 (r.rank.getD 0))

/-- After the write pass of ADOPT: the module tells every live rank, and waits for their acknowledgements (R478, R497). -/
def State.tellAdopt (s : State) (r : RekindleRun) (c : Candidate) (rank : Nat) : State :=
  let u : RankUpdate := .adopt rank s.selfRank
  let s := (s.tellRanks u).rankUpdate u
  s.setRekindle (some { r with telling := true, chosen := some c })

/-- Whether RANKUPD frames wait for their acknowledgement at an Odnil port. -/
def State.tellingRanks (s : State) : Bool := (List.range 12).any (s.unacked tRANKUPD)

/-- The write pass and what follows it. -/
def State.writePass (s : State) (r : RekindleRun) (c : Candidate) (copy : BankCopy) : State :=
  let (s, code) := (s.put Reg.BNK_STATUS_PHASE 4).restore copy
  if code ≠ 0 then { s with bank := { s.bank with ref := none } }.put Reg.BNK_STATUS_VERIFY 0 |>.rekindleFailed r code
  else match r.rank with
    | none => s.rekindleDone r c
    | some rank =>
      let s := s.tellAdopt r c rank
      if s.tellingRanks then s else s.rekindleDone r c

/-- Bytes of the ring that REKINDLE and ADOPT read: neither carries STORE_LEN, and every ring has 64 MiB (DESIGN CHOICE, log
entry 33). -/
def rekindleRing : Nat := 2 ^ 26

/-- Asks the host for the bytes that it has put into the ring. -/
def State.askStore (s : State) : State :=
  if s.get Reg.BNK_STORE_HTAIL_COUNT = s.get Reg.BNK_STORE_MHEAD_COUNT || s.hif.waiting.contains .store || !s.windowOpen then s
  else s.askHost .store

/-- Begins a pass over the shared-store copy. -/
def State.beginStore (s : State) (r : RekindleRun) (writing : Bool) : State :=
  let r := { r with store := !writing, writing := writing, storeIn := [], moved := s.now }
  ((s.setRekindle (some r)).put Reg.BNK_STATUS_PASS (if writing then 1 else 0)).askStore

/-- Sets the reference of the position restored, VERIFY and REFCONFLICT (R474). -/
def State.setReference (s : State) (refs : Option (BitVec 64) × Option (BitVec 64)) (target : Nat) : State :=
  let s := match refs with
    | (some a, some b) => if a = b then s else s.put Reg.BNK_STATUS_REFCONFLICT 1
    | _ => s
  match refs.1.or refs.2 with
  | some v => { s with bank := { s.bank with ref := some v, refStep := target } }.put Reg.BNK_STATUS_VERIFY 1
  | none => s

/-- Starts a trial, or goes on with one (R476). -/
def State.setTrial (s : State) (r : RekindleRun) (x : Candidate × Candidate) (fresh : Bool) (target : Nat) : State :=
  if !fresh then s
  else
    let t : Trial := ⟨r.levels, (x.1.level, x.1.digest), (x.2.level, x.2.digest)⟩
    let s := { s with bank := { s.bank with trial := some t } }.put Reg.BNK_TRIAL_ACTIVE 1
    let s := (s.put Reg.BNK_TRIAL_LV0 x.1.level).put Reg.BNK_TRIAL_LV1 x.2.level
    ((s.put Reg.BNK_TRIAL_RES0 0).put Reg.BNK_TRIAL_RES1 0).put Reg.BNK_TRIAL_STEP_STEP target

/-- Records the first copy of the target that is a misplaced or malformed KX1 bank. -/
def State.noteFormat (s : State) (r : RekindleRun) (target : Nat) : State :=
  match r.copies.find? fun c => c.copy.bnext == target && s.verdict c == .format with
  | some c => s.bnkErr bnkFormat c.level
  | none => s

/-- Selects after the check pass, and begins the write pass (R472). -/
def State.rekindleSelect (s : State) (r : RekindleRun) : State :=
  let target := targetOf r
  let s := s.noteFormat r target
  let es := s.eligible r.copies
  let refs := s.references es target
  let x := choose (refs.1.or refs.2).isSome s.bank.trial (s.get Reg.BNK_TRIAL_RES0) (s.get Reg.BNK_TRIAL_RES1) 4
    (candidatesOf es target) 0
  let s := (List.range x.rounds).foldl (fun t _ => t.raise 9 0x01 0x2B0 0 target) s
  match x.copy with
  | none =>
    let config := r.copies.any fun c => c.copy.bnext == target && s.verdict c == .config
    s.endTrial.rekindleFailed r (if config then bnkConfig else bnkNoCopy)
  | some c =>
    let s := s.setReference refs target
    let s := match x.trial with
      | some t => s.setTrial r t x.fresh target
      | none => s.endTrial
    let code := if x.trial.isSome then bnkTrial else if (refs.1.or refs.2).isNone then bnkNoRef else 0
    let r := { r with code := code, chosen := some c }
    if c.level = 2 then s.beginStore r true else s.writePass r c c.copy

/-- Moves on once the partner's copies are here: the store's check pass, or selection. -/
def State.afterPeer (s : State) (r : RekindleRun) : State :=
  let r := { r with peer := false }
  if bit r.levels 2 && s.windowOpen then s.beginStore r false else s.rekindleSelect r

/-! ### REKINDLE and ADOPT -/

/-- Whether a REKINDLE goes on with the trial (R476). -/
def State.trialGoesOn (s : State) (levels step : Nat) : Bool :=
  s.isSet Reg.BNK_TRIAL_ACTIVE && (step == 0 || step == s.get Reg.BNK_TRIAL_STEP_STEP) &&
    match s.bank.trial with
    | some t => t.levels == levels
    | none => false

/-- What both commands do at their start: VERIFY goes, flash copies are read, and the partner is asked over `send`. -/
def State.beginRekindle (s : State) (r : RekindleRun) (send : Option (State → State)) : State :=
  let s := { s with bank := { s.bank with ref := none } }.put Reg.BNK_STATUS_VERIFY 0 |>.put Reg.BNK_STATUS_REFCONFLICT 0
  let s := ((s.put Reg.BNK_STATUS_BUSY 1).put Reg.BNK_STATUS_PHASE 3).put Reg.BNK_STATUS_PASS 0
  let flash := if bit r.levels 1 then s.bank.flash.map (⟨1, ·⟩) else []
  let r := { r with copies := flash }
  match send with
  | some f => f (s.setRekindle (some { r with peer := true }))
  | none => s.afterPeer r

/-- The work of REKINDLE: the rows of R470 after those that wait. -/
def rekindleWork (s : State) (c : Started) : State :=
  let levels := dField c.desc 8 1
  let step := dField c.desc 24 8
  if (s.stepState ≠ 7 && s.stepState ≠ 0 && s.stepState ≠ 5) || s.evaluating then s.bankReply c.order bnkState 0 0
  else
    let on := s.trialGoesOn levels step
    let target := if on then s.get Reg.BNK_TRIAL_STEP_STEP else step
    let s := if on then s else s.endTrial
    let usable := decide (dField c.desc 16 8 % 4096 = 0 ∧ windowBase ≤ dField c.desc 16 8 ∧
      dField c.desc 16 8 + rekindleRing ≤ 0xC00000000000)
    let s := if bit levels 2 && !usable then s.bnkErr bnkStore 2 else s
    let r : RekindleRun := {
      order := c.order, rank := none, levels := if usable then levels else levels % 4, target := target, at_ := dField c.desc 16 8
      copies := [], peer := false, store := false, writing := false, telling := false, peerIn := [], storeIn := []
      chosen := none, code := 0, moved := s.now }
    s.beginRekindle r (if bit levels 0 && s.get Reg.PAIR_STATUS_STATE = 2 then
      some fun t => t.sendPair tBANKSEG 0 2 [] else none)

/-- REKINDLE (R470-R476). -/
def execRekindle (sq : Fin 64) (d : BitVec 512) (s : State) : Host.Outcome State Fault Refusal :=
  .next (s.hostCommand 0x07 sq d (fun s => s.isSet Reg.BNK_STATUS_BUSY) rekindleWork)

/-- Entry of a rank. -/
def State.rankEntry (s : State) (r : Nat) : Option RankEntry := s.link.table.bind fun t => t.entries[r]?

/-- The work of ADOPT (R478). -/
def adoptWork (s : State) (c : Started) : State :=
  let rank := dField c.desc 8 2
  let at_ := dField c.desc 16 8
  if (s.stepState ≠ 7 && s.stepState ≠ 0 && s.stepState ≠ 5) || s.evaluating then s.bankReply c.order bnkState 0 0
  else match s.rankEntry rank with
    | none => s.bankReply c.order bnkRank 0 0
    | some e =>
      if e.state = 1 || (e.pair = 0xFFFF && at_ = 0) then s.bankReply c.order bnkRank 0 0
      else
        let s := s.endTrial
        let usable := decide (at_ ≠ 0 ∧ at_ % 4096 = 0 ∧ windowBase ≤ at_ ∧ at_ + rekindleRing ≤ 0xC00000000000)
        let s := if at_ ≠ 0 && !usable then s.bnkErr bnkStore 2 else s
        let r : RekindleRun := {
          order := c.order, rank := some rank, levels := if usable then 4 else 0, target := 0, at_ := at_
          copies := [], peer := false, store := false, writing := false, telling := false, peerIn := [], storeIn := []
          chosen := none, code := 0, moved := s.now }
        s.beginRekindle r (if e.pair ≠ 0xFFFF && s.reachable e.pair then
          some fun t => t.sendTo e.pair tBANKSEG 0 2 [] else none)

/-- ADOPT (R478). -/
def execAdopt (sq : Fin 64) (d : BitVec 512) (s : State) : Host.Outcome State Fault Refusal :=
  .next (s.hostCommand 0x08 sq d (fun s => s.isSet Reg.BNK_STATUS_BUSY) adoptWork)

/-! ### Answers of the partner -/

/-- A frame that answers a request for the banks held. -/
def State.takeBankAnswer (s : State) (f : Frame) : State :=
  match s.bank.rekindle with
  | none => s
  | some r =>
    if !r.peer then s
    else match fXid f with
      | 4 => if fOffset f = r.peerIn.length then s.setRekindle (some { r with peerIn := r.peerIn ++ f.payload }) else s
      | 5 =>
        let copy : BankCopy := ⟨fieldAt f.payload 8 8, r.peerIn.take (fOffset f), f.payload.take 256⟩
        s.setRekindle (some { r with peerIn := [], copies := r.copies ++ [⟨0, copy⟩] })
      | 3 => s.afterPeer r
      | _ => s

/-- The partner can no longer answer: its level gives what it gave. -/
def State.peerGone (s : State) : State :=
  match s.bank.rekindle with
  | some r => if r.peer then s.afterPeer { r with peerIn := [] } else s
  | none => s

/-- Completes ADOPT once every live rank has acknowledged its update. -/
def State.tellAdvance (s : State) : State :=
  match s.bank.rekindle with
  | some r => match r.chosen with
    | some c => if r.telling && !s.tellingRanks then s.rekindleDone r c else s
    | none => s
  | none => s

/-! ### The shared-store ring (R454) -/

/-- The bytes that a pass has now: a whole copy ends the pass. -/
def State.storeAdvance (s : State) (r : RekindleRun) : State :=
  match streamedCopy r.storeIn with
  | none => s.setRekindle (some r) |>.askStore
  | some copy =>
    if r.writing then match r.chosen with
      | some c => s.writePass r c copy
      | none => s
    else s.rekindleSelect { r with store := false, copies := r.copies ++ [⟨2, copy⟩] }

/-- Takes the bytes that the host has put into the ring, up to `n` of them. -/
def State.takeStore (s : State) (n : Nat) : State :=
  match s.bank.rekindle with
  | none => s
  | some r =>
    if !(r.store || r.writing) then s
    else
      let have_ := (s.get Reg.BNK_STORE_HTAIL_COUNT + 2 ^ 40 - s.get Reg.BNK_STORE_MHEAD_COUNT) % 2 ^ 40
      let pos := s.get Reg.BNK_STORE_MHEAD_COUNT % rekindleRing
      let m := Nat.min (Nat.min n have_) (rekindleRing - pos)
      let (s, c, bs) := s.readMem asBank (r.at_ + pos) m
      if c ≠ 0 then s
      else (s.bump Reg.BNK_STORE_MHEAD_COUNT m).storeAdvance { r with storeIn := r.storeIn ++ bs, moved := s.now }

/-- The host's side of the ring gives nothing more: a check pass goes on without the level, a write pass stops. -/
def State.storeGone (s : State) : State :=
  match s.bank.rekindle with
  | none => s
  | some r =>
    if r.store then (s.bnkErr bnkStore 2).rekindleSelect { r with store := false }
    else if r.writing then match r.chosen with
      | some c => (s.bnkErr bnkStore 2).writePass { r with writing := false } c ⟨c.copy.bnext, r.storeIn, []⟩
      | none => s
    else s

/-- STORE_STALL (R454): 12,500,000 stokes without progress of the ring. -/
def execStoreStall (s : State) : Host.Outcome State Fault Refusal :=
  let late := fun moved => decide (moved + 12500000 ≤ s.now)
  match s.bank.run with
  | some r => if r.store && late r.moved then .next ((s.bnkErr bnkStore 2).abandonLevel 2) else .next s
  | none => match s.bank.rekindle with
    | some r => if (r.store || r.writing) && late r.moved then .next s.storeGone else .next s
    | none => .next s

/-- BNK_STORE_HOST_COUNT_WRITE (R454): HHEAD frees room for a bank, HTAIL brings bytes to a rekindle pass. -/
def execBnkStoreHostCountWrite (a : StoreCount) (v : BitVec 64) (s : State) : Host.Outcome State Fault Refusal :=
  match a with
  | .hhead =>
    let s := s.put Reg.BNK_STORE_HHEAD_COUNT v.toNat
    match s.bank.run with
    | some r => .next ({ s with bank := { s.bank with run := some { r with moved := s.now } } }.ringWrite)
    | none => .next s
  | .htail =>
    let s := s.put Reg.BNK_STORE_HTAIL_COUNT v.toNat
    match s.bank.rekindle with
    | some r => if r.store || r.writing then .next s.askStore else .next s
    | none => .next s

end Sys2Proof.Machine
end

