-- ==== Sys2Proof/Machine/LinkCmds.lean ====
section
/-! DEFINITION. The commands of the links (R482-R510): COLL, received frames, idle frames, timeouts, loss, training, rank
updates, the pair and cord presence. -/

namespace Sys2Proof.Machine

/-! ### Collectives -/

/-- COLL (R425, R498-R502). -/
def execColl (p : Fin 512) (op : BitVec 128) (s : State) : Host.Outcome State Fault Refusal :=
  s.runOp 0x05 p op alone fun s seq => s.startColl (s.runVoid p) p seq (sArg op)

/-- COLLECTIVE_TIMEOUT (R502). -/
def execCollectiveTimeout (xid : BitVec 32) (s : State) : Host.Outcome State Fault Refusal :=
  match s.link.colls.find? fun c => c.xid == xid.toNat && decide (c.issued + c.d.timeout ≤ s.now) with
  | some c => .next ((s.veto vLINK).failColl c linkTimeout 31).progress
  | none => .next s

/-! ### Received frames (R486-R488) -/

/-- Receives a frame; acknowledgements that it carries may complete a bank or an adoption. -/
def State.rx (s : State) (type : Nat) (p : Fin 16) (f : Frame) (deliver : State → State) : Host.Outcome State Fault Refusal :=
  .next (((s.receive type p f deliver).bankAdvance).tellAdvance).progress

/-- DATA (R487, R502). -/
def execRxData (port : Fin 16) (f : Frame) (s : State) : Host.Outcome State Fault Refusal :=
  s.rx tDATA port f fun s => s.takeData f (portReg port)

/-- VOID (R425, R502). -/
def execRxVoid (port : Fin 16) (f : Frame) (s : State) : Host.Outcome State Fault Refusal :=
  s.rx tVOID port f fun s => s.takeVoid f

/-- ACK (R488): its ACKSEQ does the work. -/
def execRxAck (port : Fin 16) (f : Frame) (s : State) : Host.Outcome State Fault Refusal := s.rx tACK port f fun s => s

/-- NAK (R488). -/
def execRxNak (port : Fin 16) (f : Frame) (s : State) : Host.Outcome State Fault Refusal :=
  s.rx tNAK port f fun s => s.resend port

/-- READY (R498). -/
def execRxReady (port : Fin 16) (f : Frame) (s : State) : Host.Outcome State Fault Refusal :=
  s.rx tREADY port f fun s => s.takeReady f

/-- RANKUPD (R497): it adds LINK to an open step. -/
def execRxRankupd (port : Fin 16) (f : Frame) (s : State) : Host.Outcome State Fault Refusal :=
  s.rx tRANKUPD port f fun s =>
    let s := if s.stepOpen then s.veto vLINK else s
    match RankUpdate.ofPayload f.payload with
    | some u => s.rankUpdate u
    | none => s.odnErr linkRank (portReg port)

/-- BANKSEG (R452, R458, R478): the partner's bank, a request for the banks held, or the answer to one. -/
def execRxBankseg (port : Fin 16) (f : Frame) (s : State) : Host.Outcome State Fault Refusal :=
  s.rx tBANKSEG port f fun s =>
    if fXid f ≤ 1 then (if 12 ≤ port.val then s.takeSegment f else s)
    else if fXid f = 2 then
      s.serveBanks fun t xid off p =>
        if 12 ≤ port.val then t.sendPair tBANKSEG off xid p else t.sendTo (fSrc f) tBANKSEG off xid p
    else s.takeBankAnswer f

/-- DIGEST (R506): kept until the own digest exists, then compared. -/
def execRxDigest (port : Fin 16) (f : Frame) (s : State) : Host.Outcome State Fault Refusal :=
  s.rx tDIGEST port f fun s => { s with link := { s.link with digestIn := some f.payload } }.compareDigests

/-- IDLE (R486, R505). -/
def execRxIdle (port : Fin 16) (f : Frame) (s : State) : Host.Outcome State Fault Refusal :=
  s.rx tIDLE port f fun s =>
    if 12 ≤ port.val then { s with link := { s.link with peerMode := bits (fOffset f) 0 2 } } else s

/-- IDLE_SEND (R486): a port with nothing to send for 12 stokes. -/
def execIdleSend (port : Fin 16) (s : State) : Host.Outcome State Fault Refusal :=
  if s.portUp port && (s.port port).waiting.isEmpty && decide ((s.port port).spokeAt + 12 ≤ s.now) then
    .next (s.sendPlain port tIDLE (s.get Reg.PAIR_CTL_MODE) [])
  else .next s

/-- Whether the oldest frame of a port has waited ACKTO stokes for its acknowledgement (R488). -/
def State.ackLate (s : State) (p : Nat) : Option SentFrame :=
  match (s.port p).replay with
  | e :: _ => if e.sentAt + s.get Reg.ODN_LINK_CTL_ACKTO ≤ s.now then some e else none
  | [] => none

/-- ACK_TIMEOUT (R488, R489): the port resends, unless the frame has been resent RETRY times. -/
def execAckTimeout (port : Fin 16) (s : State) : Host.Outcome State Fault Refusal :=
  match if s.portUp port then s.ackLate port else none with
  | some e => if e.resends < s.get Reg.ODN_LINK_CTL_RETRY then .next (s.resend port) else .next s
  | none => .next s

/-! ### Loss (R489, R490, R504) -/

/-- Whether a collective's frames use a port. -/
def State.collUses (s : State) (p : Nat) (c : Coll) : Bool :=
  (c.targets.any fun j => !c.served.contains j && s.route (c.rank j) == some p) ||
    (c.sources.any fun i => i != c.self && s.route (c.rank i) == some p) ||
    (c.targets.any fun j => s.route (c.rank j) == some p)

/-- Fails the transfers whose frames use a port. -/
def State.failTransfers (s : State) (p : Nat) : State :=
  (s.link.colls.filter (s.collUses p)).foldl (fun t c => t.failColl c linkLost (portReg p)) s

/-- The pair ports that are up, as PAIR_STATUS shows them. -/
def State.showPairPorts (s : State) : State :=
  s.put Reg.PAIR_STATUS_PORTS ((s.pairPorts.map fun p => 2 ^ (p - 12)).foldl (· + ·) 0)

/-- A pair port is gone: frames of a bank on it are lost with it, and with the last port the pair is down (R464, R504). -/
def State.pairPortGone (s : State) (lostBank : Bool) : State :=
  let s := s.showPairPorts
  let down := s.pairPorts.isEmpty
  let banking := match s.bank.run with
    | some r => r.partner
    | none => false
  let s := if banking && (lostBank || down) then s.abandonLevel 0 else s
  if down then
    let s := (s.put Reg.PAIR_STATUS_STATE 3).veto vLINK
    match s.bank.rekindle with
    | some r => if r.rank.isNone then s.peerGone else s
    | none => s
  else s

/-- A port leaves state UP for another state: its transfers fail, an open step takes LINK, and an event is raised. -/
def State.losePort (s : State) (p st : Nat) : State :=
  let lostBank := s.unacked tBANKSEG p
  let s := (s.put (Reg.ODN_PORT_STAT_STATE (portReg p)) st).raise 5 0x07 0x2A0 linkLost (portReg p)
  if p < 12 then
    let s := (s.veto vLINK).failTransfers p
    let s := s.setPort p ⟨0, 0, [], [], 0, 0⟩
    match s.bank.rekindle with
    | some r => match r.rank with
      | some x => match s.rankEntry x with
        | some e => if s.reachable e.pair then s else s.peerGone
        | none => s
      | none => s
    | none => s
  else (s.setPort p ⟨0, 0, [], [], 0, 0⟩).pairPortGone lostBank

/-- Whether a cause of loss holds now (R489); lost FEC alignment is told from outside. -/
def State.lossHolds (s : State) (p : Nat) : LossCause → Bool
  | .retry => match s.ackLate p with
    | some e => decide (s.get Reg.ODN_LINK_CTL_RETRY ≤ e.resends)
    | none => false
  | .alignment => true
  | .silence => decide ((s.port p).heardAt + s.get Reg.ODN_LINK_CTL_LOSSTO ≤ s.now)

/-- PORT_LOST (R489, R490, R504). -/
def execPortLost (port : Fin 16) (c : LossCause) (s : State) : Host.Outcome State Fault Refusal :=
  if s.portUp port && s.lossHolds port c then .next (s.losePort port 3).progress else .next s

/-! ### Training (R483, R493-R495) -/

/-- The HELLO of an Odnil port: MODULE_ID in bytes 0-7, the port in byte 8, FABRIC in bytes 16-23, the table digest in bytes
24-31; of a pair port: the serial in bytes 0-7, PAIR_ID in bytes 8-9, the role in byte 10, the feed identity in byte 11 and
the receive length in bytes 16-23 (DESIGN CHOICE, log entry 31). -/
def State.helloPayload (s : State) (p fabric digest : Nat) : List Byte :=
  if p < 12 then
    fitBytes 64 (leBytes 8 s.sec.serial.toNat ++ leBytes 8 p ++ leBytes 8 fabric ++ leBytes 8 digest)
  else
    fitBytes 64 (leBytes 8 s.sec.serial.toNat ++ leBytes 2 (s.get Reg.PAIR_ID_ID) ++
      leBytes 1 (s.get Reg.PAIR_STATUS_ROLE) ++ leBytes 1 (s.get Reg.BNK_STATUS_FEED) ++ leBytes 4 0 ++
      leBytes 8 (4096 * s.get Reg.BNK_RCV_LEN_LEN))

/-- What a HELLO payload says. -/
def helloOf (p : Fin 16) (b : List Byte) : PeerHello where
  port := p
  trained := true
  moduleId := BitVec.ofNat 64 (fieldAt b 0 8)
  peerPort := BitVec.ofNat 8 (fieldAt b 8 1)
  fabric := BitVec.ofNat 64 (fieldAt b 16 8)
  digest := BitVec.ofNat 64 (fieldAt b 24 8)
  pairId := BitVec.ofNat 16 (fieldAt b 8 2)
  role := bit (fieldAt b 10 1) 0
  feed := BitVec.ofNat 4 (fieldAt b 11 1)
  rcvLen := BitVec.ofNat 64 (fieldAt b 16 8)

/-- A port's lanes have trained: both directions start at SEQ 0. -/
def State.portTrained (s : State) (p : Nat) : State :=
  (s.setPort p ⟨0, 0, [], [], s.now, s.now⟩).put (Reg.ODN_PORT_STAT_STATE (portReg p)) 2

/-- Sends a HELLO. -/
def State.sendHello (s : State) (p fabric digest : Nat) : State := s.sendPlain p tHELLO 0 (s.helloPayload p fabric digest)

/-- Whether a peer is the one that a table describes at a port (R495). -/
def RankTable.fits (t : RankTable) (p digest : Nat) (h : PeerHello) : Bool :=
  h.moduleId.toNat == ((t.entries[t.peerRank p]?).map (·.moduleId)).getD (2 ^ 64) && h.peerPort.toNat == t.peerPort p &&
    h.fabric.toNat == t.fabric && h.digest.toNat == digest

/-- What training finds at a port; none when its lanes do not train or it is held down. -/
def State.peerAt (s : State) (peers : List PeerHello) (p : Nat) : Option PeerHello :=
  if s.isSet (Reg.ODN_PORT_CTL_DISABLE (portReg p)) then none else peers.find? fun h => h.port.val == p && h.trained

/-- Trains one used Odnil port for a table: up, mismatch or down. -/
def State.trainPort (s : State) (t : RankTable) (digest : Nat) (peers : List PeerHello) (p : Nat) : State :=
  let stat := portReg p
  match s.peerAt peers p with
  | none => s.put (Reg.ODN_PORT_STAT_STATE stat) 3
  | some h =>
    let s := (s.portTrained p).sendHello p t.fabric digest
    let s := s.put (Reg.ODN_PORT_STAT_PEERPORT stat) h.peerPort.toNat
    if t.fits p digest h then s.put (Reg.ODN_PORT_STAT_PEERRANK stat) (t.peerRank p)
    else (s.put (Reg.ODN_PORT_STAT_STATE stat) 4).put (Reg.ODN_PORT_STAT_PEERRANK stat) 0xFFFF

/-- Discards the rank table. -/
def State.dropTable (s : State) : State :=
  (({ s with link := { s.link with table := none } }.put Reg.ODN_FAB_STATUS_STATE 0).put Reg.ODN_FAB_STATUS_NRANK 0).put
    Reg.ODN_FAB_STATUS_SELF 0

/-- Fabric training fails (R495). -/
def State.trainFailed (s : State) : State := (s.put Reg.ODN_FAB_STATUS_STATE 3).odnErr linkTrain 31

/-- Reads the rank table at ODN_RT_BASE; none when it cannot be read or breaks R491. -/
def State.readRanks (s : State) : State × Option (List Byte) :=
  let who : Who := { unit := 0x2A0, exempt := true }
  let at_ := s.get Reg.ODN_RT_BASE_ADDR * 64
  let (s, c, h) := s.readMem who at_ 128
  if c ≠ 0 || !rankHeadOk h then (s, none)
  else
    let (s, c, es) := s.readMem who (at_ + 128) (16 * fieldAt h 4 2)
    if c ≠ 0 || !rankTableOk (h ++ es) then (s, none) else (s, some (h ++ es))

/-- Whether the trained partner is not the one that a table names (R495). -/
def State.pairMisfit (s : State) (t : RankTable) : Bool :=
  match t.entries[t.self]? with
  | some e => e.pair != 0xFFFF && s.get Reg.PAIR_STATUS_STATE == 2 &&
    ((t.entries[e.pair]?).map (·.moduleId)).getD (2 ^ 64) != s.get Reg.PAIR_PEER_SERIAL
  | none => false

/-- Installs a table. -/
def State.installTableOf (s : State) (t : RankTable) (digest : Nat) : State :=
  let s := { s with link := { s.link with table := some t } }
  let s := ((s.put Reg.ODN_FAB_STATUS_STATE 2).put Reg.ODN_FAB_STATUS_NRANK t.entries.length).put Reg.ODN_FAB_STATUS_SELF t.self
  (s.put Reg.ODN_RT_DIGEST_DIGEST digest).raise 9 0x07 0x2A0 0 0

/-- FABRIC_TRAIN (R494, R495). -/
def execFabricTrain (peers : List PeerHello) (s : State) : Host.Outcome State Fault Refusal :=
  if s.stepOpen || s.evaluating || s.isSet Reg.BNK_STATUS_BUSY then .next (s.odnErr linkBusy 31)
  else match s.dropTable.readRanks with
    | (s, none) => .next s.trainFailed
    | (s, some b) =>
      let t := RankTable.ofBytes b
      let used := (List.range 12).filter t.uses
      let s := used.foldl (fun u p => u.trainPort t (rankDigest b) peers p) s
      if !(used.all s.portUp) || s.pairMisfit t then .next s.trainFailed
      else .next (s.installTableOf t (rankDigest b))

/-- Takes over the partner's serial, feed and receive length (R455, R503). -/
def State.pairIdentity (s : State) (h : PeerHello) : State :=
  let s := (s.put Reg.PAIR_PEER_SERIAL h.moduleId.toNat).put Reg.BNK_STATUS_PFEED h.feed.toNat
  let own := s.get Reg.BNK_STATUS_FEED
  let s := s.put Reg.BNK_STATUS_CORRELATED (if own = h.feed.toNat || own = 0xF || h.feed.toNat = 0xF then 1 else 0)
  { s with link := { s.link with peerLen := h.rcvLen.toNat } }

/-- HELLO (R495, R503) on a port that is up: an Odnil peer that the table does not describe takes the port to MISMATCH; a
partner's identity is taken over, or fails the pair. -/
def State.takeHello (s : State) (p : Fin 16) (f : Frame) : State :=
  let h := helloOf p f.payload
  if p.val < 12 then match s.link.table with
    | none => s.put (Reg.ODN_PORT_STAT_PEERPORT (portReg p)) h.peerPort.toNat
    | some t =>
      if !t.uses p || t.fits p (s.get Reg.ODN_RT_DIGEST_DIGEST) h then s
      else (s.odnErr linkTrain (portReg p)).losePort p 4
  else if h.pairId.toNat ≠ s.get Reg.PAIR_ID_ID || h.role == s.isSet Reg.PAIR_STATUS_ROLE then
    (s.odnErr linkPair (portReg p)).losePort p 4
  else s.pairIdentity h

/-- HELLO (R495, R503). -/
def execRxHello (port : Fin 16) (f : Frame) (s : State) : Host.Outcome State Fault Refusal :=
  s.rx tHELLO port f fun s => s.takeHello port f

/-- A port is retrained alone (R490): it leaves UP, its lanes train, and the table stays. -/
def State.retrainPort (s : State) (p : Nat) : State :=
  let s := if s.portUp p then s.losePort p 3 else s
  match s.peerAt s.board.links p with
  | none => s.put (Reg.ODN_PORT_STAT_STATE (portReg p)) (if s.isSet (Reg.ODN_PORT_STAT_CORD (portReg p)) then 3 else 0)
  | some h =>
    let s := s.portTrained p
    if p < 12 then match s.link.table with
      | none => (s.sendHello p 0 0).put (Reg.ODN_PORT_STAT_PEERPORT (portReg p)) h.peerPort.toNat
      | some t =>
        let digest := s.get Reg.ODN_RT_DIGEST_DIGEST
        let s := (s.sendHello p t.fabric digest).put (Reg.ODN_PORT_STAT_PEERPORT (portReg p)) h.peerPort.toNat
        if !t.uses p || t.fits p digest h then s.put (Reg.ODN_PORT_STAT_PEERRANK (portReg p)) (t.peerRank p)
        else s.put (Reg.ODN_PORT_STAT_STATE (portReg p)) 4
    else (s.sendHello p 0 0).showPairPorts

/-- PORT_RETRAIN (R490, R509): a write of ODN_PORT_CTL; DISABLE holds the port down. -/
def execPortRetrain (port : Fin 16) (v : BitVec 64) (s : State) : Host.Outcome State Fault Refusal :=
  let s := s.put (Reg.ODN_PORT_CTL_DISABLE (portReg port)) (bits v.toNat 1 1)
  if bit v.toNat 0 then .next (s.retrainPort port).progress
  else if bit v.toNat 1 && s.portUp port then .next (s.losePort port 3).progress
  else .next s

/-- RANK_DOWN (R497): a write of ODN_RANK_CTL; with DOWN every live rank is told, this module's own table among them. -/
def execRankDown (v : BitVec 64) (s : State) : Host.Outcome State Fault Refusal :=
  let s := s.put Reg.ODN_RANK_CTL_RANK (bits v.toNat 0 16)
  if !bit v.toNat 16 then .next s
  else
    let u : RankUpdate := .down (bits v.toNat 0 16)
    match s.link.table.bind (·.update u) with
    | none => .next (s.odnErr linkRank 31)
    | some _ =>
      let s := (s.tellRanks u).rankUpdate u
      .next (if s.stepOpen then s.veto vLINK else s).progress

/-! ### The pair (R503, R505) -/

/-- Trains the pair: at least one port, equal identities and different roles (R503). Until the partner's first IDLE frame it
counts as asking for partnered mode. -/
def State.trainPair (s : State) (peers : List PeerHello) : State :=
  let found := (([12, 13, 14, 15] : List Nat)).filterMap fun p => (s.peerAt peers p).map (p, ·)
  let down := (([12, 13, 14, 15] : List Nat)).filter fun p => !found.any (·.1 == p)
  let s := down.foldl (fun t p => if t.portUp p then t.losePort p 3 else t) s
  let s := { s with link := { s.link with peerMode := 1 } }
  let fits := fun (h : PeerHello) => h.pairId.toNat == s.get Reg.PAIR_ID_ID && h.role != s.isSet Reg.PAIR_STATUS_ROLE
  match found with
  | [] => s.put Reg.PAIR_STATUS_STATE (if s.get Reg.PAIR_STATUS_STATE = 3 then 3 else 0)
  | (_, h) :: _ =>
    let s := found.foldl (fun t x => (t.portTrained x.1).sendHello x.1 0 0) s
    if found.all fun x => fits x.2 then ((s.pairIdentity h).put Reg.PAIR_STATUS_STATE 2).showPairPorts
    else
      let s := found.foldl (fun t x => t.put (Reg.ODN_PORT_STAT_STATE (portReg x.1)) 4) s
      ((s.put Reg.PAIR_STATUS_STATE 3).showPairPorts).odnErr linkPair 31

/-- The fields of PAIR_CTL: MODE is discarded outside IDLE and COMMITTED and during an EVAL_RUN (R505). -/
def State.writePairCtl (s : State) (v : Nat) : State :=
  let s := s.put Reg.PAIR_CTL_DTIMEOUT (bits v 32 32)
  if s.quiet then s.put Reg.PAIR_CTL_MODE (bits v 0 2) else s

/-- PAIR_RETRAIN (R503): a write of PAIR_CTL with RETRAIN; nothing trains during a bank. -/
def execPairRetrain (v : BitVec 64) (peers : List PeerHello) (s : State) : Host.Outcome State Fault Refusal :=
  let s := s.writePairCtl v.toNat
  if bit v.toNat 2 && s.bank.run.isNone then .next (s.trainPair peers).progress else .next s

/-- PAIR_MODE_REQUEST (R505): a write of PAIR_CTL. -/
def execPairModeRequest (v : BitVec 64) (s : State) : Host.Outcome State Fault Refusal := .next (s.writePairCtl v.toNat)

/-! ### Cords (R509) -/

/-- CORD_PRESENCE_CHANGE (R509): without a cord a port is in state 0; a cord put in leaves it down until it trains. -/
def execCordPresenceChange (cage : Fin 16) (present : Bool) (s : State) : Host.Outcome State Fault Refusal :=
  let r := portReg cage
  let cords := s.board.cords.filter (· != cage.val)
  let s := { s with board := { s.board with cords := if present then cage.val :: cords else cords } }.put
    (Reg.ODN_PORT_STAT_CORD r) (if present then 1 else 0)
  if present then .next (if s.get (Reg.ODN_PORT_STAT_STATE r) = 0 then s.put (Reg.ODN_PORT_STAT_STATE r) 3 else s)
  else if s.portUp cage then .next (s.losePort cage 0).progress
  else .next (s.put (Reg.ODN_PORT_STAT_STATE r) 0)

end Sys2Proof.Machine
end

