-- ==== Sys2Proof/Machine/Quarantine.lean ====
section
/-! DEFINITION. Faults that fence (R38, R51, R582), the power errors (R583, R584) and what clears a kiln (R110, R174, R220, R251,
R280). -/

namespace Sys2Proof.Machine

/-- Codes of the power and start-up class (R583). -/
def pwrTinder : Nat := 0x7001
/-- R583. -/
def pwrImage : Nat := 0x7002
/-- R583. -/
def pwrRail : Nat := 0x7003
/-- R583. -/
def pwrSelftest : Nat := 0x7004
/-- R583. -/
def pwrHbm : Nat := 0x7005
/-- R583. -/
def pwrDdr : Nat := 0x7006
/-- R583. -/
def pwrPcie : Nat := 0x7007
/-- R583. -/
def pwrLinks : Nat := 0x7008
/-- R583. -/
def pwrState : Nat := 0x7009
/-- R583. -/
def pwrCap : Nat := 0x700A
/-- R583. -/
def pwrThermal : Nat := 0x700B
/-- R583. -/
def pwrInput : Nat := 0x700C
/-- R583. -/
def pwrWdog : Nat := 0x700D

/-- The first power error, with the start-up step or 0 (R584). -/
def State.pwrErr (s : State) (code step : Nat) : State :=
  s.firstErr Reg.PWR_ERR_VALID Reg.PWR_ERR_CODE code [(Reg.PWR_ERR_STEP, step)]

/-- The power state (R569). -/
def State.powerState (s : State) : Nat := s.get Reg.PWR_STATUS_PSTATE

/-- Whether the dies of the module have their power: start-up has passed step 7 and the state is P0 to P2 (R569, R574). -/
def State.powered (s : State) : Bool :=
  (s.pwr.phase == .starting || s.pwr.phase == .ready) && decide (s.powerState ≤ 2)

/-! ### Quarantine -/

/-- Cause of a kiln's quarantine, 0 for none (R584). -/
def State.causeOf (s : State) (k : Nat) : Nat := bits (s.get Reg.PWR_QCAUSE_CAUSE) (2 * k) 2

/-- Stores a cause. -/
def State.setCause (s : State) (k cause : Nat) : State :=
  s.put Reg.PWR_QCAUSE_CAUSE (withBits (s.get Reg.PWR_QCAUSE_CAUSE) (2 * k) 2 cause)

/-- Marks a kiln quarantined. The first cause stays, but cause 3, which only a module reset clears, takes its place (R582). -/
def State.mark (s : State) (k cause : Nat) : State :=
  (if s.causeOf k = 0 || cause = 3 then s.setCause k cause else s).orInto Reg.PWR_QUAR_KILNS (2 ^ k)

/-- Where a training run stands in its main program. -/
def ProgRun.mainPc (r : ProgRun) : Nat :=
  match r.stack.getLast? with
  | some b => b.pc
  | none => r.pc

/-- Whether the UPDATE of a run has yet to issue and names kiln k: its update engine has not written its shards. -/
def State.updateAhead (s : State) (k : Nat) (r : ProgRun) : Bool :=
  !r.eval && !r.ended && (s.programOps r.main).zipIdx.any fun x =>
    sOp x.1 == 0x13 && decide (r.mainPc ≤ x.2) && bit (s.opKilns r.id x.1) k

/-- What a fault does to the open step (R38, R440): the fault veto, and in COMMIT a tear when the kiln's update engine still
had shards to write. -/
def State.faultStep (s : State) (ks : List Nat) : State :=
  if s.stepState = 4 && ks.any (fun k => s.col.runs.any (s.updateAhead k)) then s.tear else s.veto vFAULT

/-- Quarantines kilns (R38). -/
def State.quarantine (s : State) (ks : List Nat) (cause : Nat) : State :=
  ((ks.foldl (fun t k => t.mark k cause) s).faultStep ks).progress

/-- KILN_QUARANTINE (R38, R582): a fault within the kiln; the fault that is no watchdog's and no self-test's is its stack
controller's, cause 3. -/
def execKilnQuarantine (k : Fin 32) (s : State) : Host.Outcome State Fault Refusal := .next (s.quarantine [k.val] 3)

/-- WATCHDOG (R582). -/
def execWatchdog (k : Fin 32) (s : State) : Host.Outcome State Fault Refusal :=
  .next ((s.pwrErr pwrWdog 0).quarantine [k.val] 2)

/-- The kilns of a die (R517). -/
def dieKilns (d : Nat) : List Nat := [4 * d, 4 * d + 1, 4 * d + 2, 4 * d + 3]

/-- The kilns that a fault above them fences: those of the die, or every kiln of the module (R51). -/
def siteKilns : FaultSite → List Nat
  | .dieCollier d => dieKilns d.val
  | .dieMesh d => dieKilns d.val
  | .diePort d => dieKilns d.val
  | .portDie _ => List.range 32
  | .moduleCollier => List.range 32
  | .timebase => List.range 32

/-- DIE_FAULT (R51): the fenced kilns are quarantined with cause 3. -/
def execDieFault (site : FaultSite) (s : State) : Host.Outcome State Fault Refusal := .next (s.quarantine (siteKilns site) 3)

/-! ### Clearing registers, memory and kilns -/

/-- Returns the registers whose offset is in a set to their reset values. -/
def State.dropRegs (s : State) (p : Nat → Bool) : State := { s with regs := s.regs.filter fun r => !p r.1 }

/-- Clears the memory, and its errors, whose key is in a set. -/
def State.dropMem (s : State) (p : Nat → Bool) : State :=
  { s with mem := s.mem.filter fun c => !p c.1, ecc := s.ecc.filter fun e => !p e.1 }

/-- Whether a key lies in the hearth memories of a kiln. -/
def inKilnMemory (k key : Nat) : Bool := decide (hearthAddr (12 * k) ≤ key ∧ key < hearthAddr (12 * k + 12))

/-- Whether a register offset lies in the block of a kiln. -/
def inKilnBlock (k off : Nat) : Bool := decide (kilnBlock k ≤ off ∧ off < kilnBlock k + 0x40000)

/-- Everything that a kiln holds: slots, tables, lanes, hearth memory, its own state and the registers of its block. -/
def State.emptyKiln (s : State) (k : Nat) : State :=
  let s := (s.dropRegs (inKilnBlock k)).dropMem (inKilnMemory k)
  { s with
    embers := s.embers.filter fun p => p.1 / 96 != k
    hearths := s.hearths.filter fun p => p.1 / 12 != k
    kilns := s.kilns.filter fun p => p.1 != k }

/-- Writes an entry of the module error log for start-up or a thermal trip (R597). -/
def State.logFailure (s : State) (origin code step unit : Nat) : State :=
  s.elog origin step (leBytes 8 s.now ++ leBytes 2 code ++ leBytes 1 unit)

/-- A compute die loses its rail (R561): the event, PWR_RAIL, the die off with what it held, and its kilns quarantined. -/
def State.dieOff (s : State) (d step : Nat) : State :=
  let s := (s.raise 1 0x09 0xFFFF pwrRail d).pwrErr pwrRail step
  let s := (dieKilns d).foldl (fun t k => t.emptyKiln k) s
  { s with pwr := { s.pwr with diesOff := d :: s.pwr.diesOff } }.quarantine (dieKilns d) 3

/-- COMPUTE_RAIL_FAULT (R561): of a die that has its power. -/
def execComputeRailFault (die : Fin 8) (s : State) : Host.Outcome State Fault Refusal :=
  if s.powered && decide (s.powerState ≤ 1) && !s.pwr.diesOff.contains die.val then .next (s.dieOff die 0) else .next s

end Sys2Proof.Machine
end

