-- ==== Sys2Proof/Machine/StartUp.lean ====
section
/-! DEFINITION. Start-up (R574-R576): its steps, its failures, PCIe training and READY. A step's work is done at once; what
the board decides stands in State.board, and PERST#, the link and the timeouts are commands (log entry 40). -/

namespace Sys2Proof.Machine

/-- A start-up step begins. -/
def State.beginStep (s : State) (n : Nat) : State :=
  { s with pwr := { s.pwr with began := s.now } }.put Reg.PWR_STATUS_STEP n

/-- A failure of start-up: PWR_ERR and the module error log (R574, R597). -/
def State.startFail (s : State) (code step unit : Nat) : State := (s.pwrErr code step).logFailure 2 code step unit

/-- A halt leaves only the management controller powered (R574). -/
def State.halt (s : State) (code step : Nat) : State :=
  let s := ((s.startFail code step 0).put Reg.PWR_STATUS_HALTED 1).put Reg.PWR_STATUS_PENDING 0
  { s with pwr := { s.pwr with phase := .halted, training := false } }

/-- Draws SEC_NONCE afresh (R538). -/
def State.drawNonce (s : State) : State :=
  (List.range 4).foldl (fun t i =>
    (t.put (Reg.SEC_NONCE_NONCE i) (Config.randomWord t.rand).toNat).nextRand) s

/-! ### Steps 2 and 3 -/

/-- The straps are read (R455, R600, R601, R616). -/
def State.readStraps (s : State) : State :=
  let s := ((s.put Reg.MC_STRAPS_FEED s.board.feed.toNat).put Reg.MC_STRAPS_SLOT s.board.slot.toNat).put Reg.MC_STRAPS_ROLE
    (if s.board.pairRole then 1 else 0)
  ((s.put Reg.MC_STRAPS_VALID 1).put Reg.BNK_STATUS_FEED s.board.feed.toNat).put Reg.PAIR_STATUS_ROLE
    (if s.board.pairRole then 1 else 0)

/-- The stored policy goes to the guard registers, which are locked (R543, R544); the power cap starts at the guard's (R584);
a strapped feed identity that is not the expected one is a violation (R546). -/
def State.applyPolicy (s : State) : State :=
  let p := s.sec.policy
  let s := ((s.put Reg.SEC_GUARD_POLICY_SIGNED_BS (fieldAt p 1 1)).put Reg.SEC_GUARD_POLICY_OPAUTH (bits (fieldAt p 1 1) 1 1)).put
    Reg.SEC_GUARD_POLICY_B4OFF (bits (fieldAt p 1 1) 2 1)
  let s := ((s.put Reg.SEC_GUARD_POLICY_DBGMAX (fieldAt p 2 1)).put Reg.SEC_GUARD_POLICY_PCAP (fieldAt p 4 2)).put
    Reg.PAIR_ID_ID (fieldAt p 6 2)
  let s := ((s.put Reg.SEC_GUARD_FEED_FEED (fieldAt p 8 1)).put Reg.SEC_GUARD_FEED_FEXP_EN (bits (fieldAt p 8 1) 4 1)).put
    Reg.SEC_GUARD_LOCK_LOCK 1
  let s := s.put Reg.PWR_CAP_CAP (fieldAt p 4 2)
  if s.isSet Reg.SEC_GUARD_FEED_FEXP_EN && s.get Reg.SEC_GUARD_FEED_FEED != s.board.feed.toNat then
    (s.put Reg.SEC_STATUS_FEEDMISMATCH 1).violation 3
  else s

/-- Whether the image in the slot is valid (R548). -/
def State.imageValid (s : State) : Bool := s.sec.image.sound && decide (s.get Reg.SEC_SVN_MINIMUM ≤ s.sec.image.svn)

/-- Recovery (R533, R548). -/
def State.enterRecovery (s : State) : State :=
  let s := (s.startFail pwrImage 3 0).put Reg.SEC_STATUS_RECOVERY 1
  { s with
    pwr := { s.pwr with phase := .recovery, training := !s.pwr.perst, began := s.now }
    hif := { s.hif with recovery := true } }

/-- The firmware of the slot starts. -/
def State.startFirmware (s : State) : State :=
  { s with sec := { s.sec with runDigest := s.sec.image.digest } }.put Reg.SEC_SVN_RUNNING s.sec.image.svn

/-! ### Steps 4 to 7 -/

/-- Compute dies whose rails come up (step 4): those that do not are switched off (R561). -/
def State.powerDies (s : State) : State :=
  (s.board.badRails.filter fun d => decide (d < 8) && !s.pwr.diesOff.contains d).foldl (fun t d =>
    (t.dieOff d 4).logFailure 2 pwrRail 4 d) s

/-- Whether the die of kiln k has its power. -/
def State.dieUp (s : State) (k : Nat) : Bool := !s.pwr.diesOff.contains (k / 4)

/-- Self-test of kilns (step 5, R577, R582): those that fail are quarantined with cause 1. -/
def State.testKilns (s : State) (ks : List Nat) (step : Nat) : State :=
  let bad := ks.filter fun k => s.board.badKilns.contains k
  bad.foldl (fun t k => ((t.startFail pwrSelftest step k).mark k 1)) s

/-- HBM4 training of one stack (R334): 0 to 2 is the rate reached, 3 none. The stack of a die that is off does not train. -/
def State.trainStack (s : State) (k : Nat) : State :=
  let r := sget 0 s.board.hbmRate k
  if !s.dieUp k then s
  else if r < 3 then
    ((s.put (Reg.MEM_HBM_STAT_TRAINED k) 1).put (Reg.MEM_HBM_STAT_RATE k) r).orInto Reg.MEM_STATUS_STACKS (2 ^ k)
  else ((s.put (Reg.MEM_HBM_STAT_FAILED k) 1).startFail pwrHbm 6 k).mark k 3

/-- The base configuration becomes active (R382). -/
def State.installBase (s : State) : State := { s with cfg := ⟨s.baseBank, none⟩ }

/-- Speed of a supported population (R335): DIMM type, two per channel, GiB. -/
def peatSpeed (kind : Nat) (two : Bool) (gib : Nat) : Option Nat :=
  match kind with
  | 1 => if gib = 32 || gib = 64 || gib = 96 || gib = 128 || gib = 256 then some (if two then 5600 else 6400) else none
  | 2 => if gib = 64 || gib = 128 || gib = 256 || gib = 512 then some (if two then 6400 else 8800) else none
  | _ => none

/-- DIMMs of the slots of the 24 channels, by 2 x channel + slot. -/
def State.fitted (s : State) : List (Nat × Dimm) := s.board.dimms.filter fun p => decide (p.1 < 48)

/-- Channels that a condition on a DIMM picks. -/
def dimmChannels (ds : List (Nat × Dimm)) (p : Dimm → Bool) : List Nat := (ds.filter fun x => p x.2).map fun x => x.1 / 2

/-- The peat tier is absent with a reason (R336, R574). -/
def State.peatAbsent (s : State) (reason : Nat) (failed : List Nat) : State :=
  let s := failed.foldl (fun t c => t.put (Reg.PEAT_CH_FAILED c) 1) (s.put Reg.PEAT_STATUS_REASON reason)
  if 2 ≤ reason then s.startFail pwrDdr 7 0 else s

/-- The peat tier is up. -/
def State.peatUp (s : State) (x : Dimm) (two : Bool) (speed : Nat) : State :=
  let s := ((s.put Reg.PEAT_STATUS_TYPE x.kind).put Reg.PEAT_STATUS_DPC2 (if two then 1 else 0)).put Reg.PEAT_STATUS_SIZE (x.gib / 32)
  let s := ((s.put Reg.PEAT_STATUS_SPEED speed).put Reg.PEAT_STATUS_REASON 0).put Reg.MEM_STATUS_PEAT_UP 1
  (List.range 24).foldl (fun t c => t.put (Reg.PEAT_CH_TRAINED c) 1)
    (s.put Reg.PEAT_SIZE_BYTES ((if two then 48 else 24) * x.gib * 2 ^ 30))

/-- SPD read and DDR5 training: the first row of R336 that holds. -/
def State.trainPeat (s : State) : State :=
  let ds := s.fitted
  let s := ds.foldl (fun t x => t.put (if x.1 % 2 = 0 then Reg.PEAT_CH_SLOT0 (x.1 / 2) else Reg.PEAT_CH_SLOT1 (x.1 / 2)) 1) s
  let two := ds.length == 48
  let regular := ds.length == 48 || (ds.length == 24 && ds.all fun x => x.1 % 2 == 0)
  match ds with
  | [] => s.peatAbsent 1 []
  | (_, x) :: _ =>
    if ds.any fun y => !y.2.spdOk then s.peatAbsent 4 (dimmChannels ds fun y => !y.spdOk)
    else if !regular || ds.any fun y => y.2.kind != x.kind || y.2.gib != x.gib then s.peatAbsent 2 []
    else match peatSpeed x.kind two x.gib with
      | none => s.peatAbsent 3 []
      | some v =>
        if ds.any fun y => !y.2.trains then s.peatAbsent 5 (dimmChannels ds fun y => !y.trains)
        else s.peatUp x two (ds.foldl (fun m y => Nat.min m y.2.speed) v)

/-- Cords in the cages (R509). -/
def State.showCords (s : State) : State :=
  (List.range 16).foldl (fun t p =>
    let c := s.board.cords.contains p
    (t.put (Reg.ODN_PORT_STAT_CORD (portReg p)) (if c then 1 else 0)).put (Reg.ODN_PORT_STAT_STATE (portReg p)) (if c then 3 else 0)) s

/-- Step 7 has ended: step 8 begins once PERST# is released (R574, R575). -/
def State.awaitPerst (s : State) : State :=
  let s := { s with pwr := { s.pwr with phase := .starting, training := !s.pwr.perst } }
  if s.pwr.perst then s else s.beginStep 8

/-- Steps 6 and 7. -/
def State.startMemory (s : State) : State :=
  let s := (List.range 32).foldl State.trainStack (s.beginStep 6)
  if s.get Reg.MEM_STATUS_STACKS = 0 then s.halt pwrHbm 6
  else (((s.beginStep 7).trainPeat).installBase).showCords.awaitPerst

/-- Steps 4 to 7. Without its main supply the module stays in step 4 until the timeout. -/
def State.startDies (s : State) : State :=
  let s := s.beginStep 4
  if !s.board.mainOk then { s with pwr := { s.pwr with phase := .stuck } }
  else if !s.board.portRails then s.halt pwrRail 4
  else
    let s := s.powerDies
    if (List.range 8).all fun d => s.pwr.diesOff.contains d then s.halt pwrRail 4
    else
      let s := s.beginStep 5
      if s.board.badDies then s.halt pwrSelftest 5
      else (s.testKilns ((List.range 32).filter s.dieUp) 5).startMemory

/-- Start-up from step 2 (R574). Without MOD_REFCLK it does not pass step 2 (R602). -/
def State.startUp (s : State) : State :=
  let s := { s with pwr := { s.pwr with phase := .stuck } }.beginStep 2
  if !s.board.refClk then s
  else if !s.board.tinderOk then s.halt pwrTinder 2
  else
    let s := (s.readStraps.beginStep 3).applyPolicy
    if s.imageValid then s.startFirmware.startDies else s.enterRecovery

/-! ### Steps 8 to 10 -/

/-- Step 9 (R493, R503): the ports with cords and the pair train. -/
def State.startLinks (s : State) : State :=
  let s := s.beginStep 9
  let used := ((List.range 12).filter fun p => s.board.cords.contains p)
  let s := used.foldl (fun t p => t.retrainPort p) s
  let pair := s.board.cords.any fun p => decide (12 ≤ p ∧ p < 16)
  let s := if pair then s.trainPair s.board.links else s
  let failed := (used.any fun p => !s.portUp p) || (pair && (s.get Reg.PAIR_STATUS_STATE != 2 ||
    (List.range 16).any fun p => decide (12 ≤ p) && s.board.cords.contains p && !s.portUp p))
  if failed then s.startFail pwrLinks 9 0 else s

/-- Entry to P2 (R555, R569): the debug ceiling falls to 2. -/
def State.enterHold (s : State) : State :=
  let s := (s.put Reg.PWR_STATUS_PSTATE 2).put Reg.PWR_STATUS_PENDING 0
  if 2 < s.get Reg.SEC_DBG_LEVEL_LEVEL then s.setLevel 2 0 0xFF else s

/-- Goes from P0 to the state that PWR_CTL.TARGET asks for, P0 to P2. -/
def State.towardTarget (s : State) (target : Nat) : State :=
  if target = 2 then s.enterHold
  else if target = 1 then (s.put Reg.PWR_STATUS_PENDING 1).settleIdle
  else s.put Reg.PWR_STATUS_PENDING 0

/-- READY (R548, R574): a firmware with a higher SVN raises the fused minimum. -/
def State.becomeReady (s : State) : State :=
  let s := (((s.beginStep 10).put Reg.PWR_STATUS_READY 1).put Reg.PWR_READY_STOKE s.now).put Reg.SEC_SVN_MINIMUM
    (Nat.max (s.get Reg.SEC_SVN_MINIMUM) (s.get Reg.SEC_SVN_RUNNING))
  { s with pwr := { s.pwr with phase := .ready } }

/-- Steps 9 and 10, and then the state that a request to leave P3 named. -/
def State.finishStart (s : State) : State := (s.startLinks.becomeReady).towardTarget (s.get Reg.PWR_CTL_TARGET)

/-- PERST_RELEASE (R574): training begins. -/
def execPerstRelease (s : State) : Host.Outcome State Fault Refusal :=
  if !s.pwr.perst then .next s
  else
    let s := { s with pwr := { s.pwr with perst := false } }
    match s.pwr.phase with
    | .starting | .ready => .next ({ s with pwr := { s.pwr with training := decide (s.powerState ≤ 2) } }.beginStep 8)
    | .recovery => .next { s with pwr := { s.pwr with training := true, began := s.now } }
    | _ => .next s

/-- Whether a link can come up: PERST# is released, the function has its power, and the link is down. -/
def State.linkMayRise (s : State) : Bool :=
  !s.pwr.perst && !s.isSet Reg.HIF_LINK_UP && (s.powered || s.pwr.phase == .recovery)

/-- PCIE_LINK_UP (R512, R535, R574): a link of a width and rate that R511 and R512 know; start-up goes on to step 9. -/
def execPcieLinkUp (speed : Fin 8) (width : BitVec 5) (s : State) : Host.Outcome State Fault Refusal :=
  let w := width.toNat
  if !s.linkMayRise || speed.val = 0 || !([1, 2, 4, 8, 16] : List Nat).contains w then .next s
  else
    let s := (((s.put Reg.HIF_LINK_SPEED speed.val).put Reg.HIF_LINK_WIDTH w).put Reg.HIF_LINK_FLIT
      (if 6 ≤ speed.val then 1 else 0)).put Reg.HIF_LINK_DEGRADED (if w < 8 then 1 else 0)
    let s := { s with pwr := { s.pwr with training := false } }.put Reg.HIF_LINK_UP 1
    .next (if s.pwr.phase == .starting then s.finishStart else s)

/-- STARTUP_STEP_TIMEOUT (R574): a step whose work does not end takes its failure outcome. In step 2 no stoke is counted
without the reference clock, so the management controller's own time decides. -/
def execStartupStepTimeout (s : State) : Host.Outcome State Fault Refusal :=
  if s.pwr.phase == .stuck then
    if s.get Reg.PWR_STATUS_STEP = 2 then .next (s.halt pwrTinder 2)
    else if s.pwr.began + 37500 ≤ s.now then .next (s.halt pwrRail 4) else .next s
  else if s.pwr.training && decide (s.pwr.began + 12500000 ≤ s.now) then
    let s := { s with pwr := { s.pwr with training := false } }.startFail pwrPcie 8 0
    .next (if s.pwr.phase == .starting then s.finishStart else s)
  else .next s

end Sys2Proof.Machine
end

