-- ==== Sys2Proof/Machine/HostIf.lean ====
section
/-! DEFINITION. The host interface (R514-R533): what the host answers to requests of the module, configuration-space
writes, MSI-X masks, and accesses through BAR4. -/

namespace Sys2Proof.Machine

/-! ### Answers from the host (R516, R529) -/

/-- Places the bytes that the host gives for a range from address `a` on; the part of a range below the window is the
module's own. -/
def State.placeData (s : State) (a : Nat) (data : List Byte) : State :=
  match s.place (Nat.max a windowBase) with
  | some k => if hostKey ≤ k then s.setBytes k data else s
  | none => s

/-- Address that a host command reads first. -/
def commandSource (d : BitVec 512) : Nat := if dOpc d = 0x0D then dField d 16 8 else dField d 8 8

/-- The work of a host command that waited for the host. -/
def commandWork (s : State) (c : Started) : State :=
  match c.opc with
  | 0x01 => loadWork s c
  | 0x09 => scanWork s c
  | 0x0A => copyWork s c
  | 0x0C => bindWork s c
  | 0x0D => tableLoadWork s c
  | _ => s

/-- A started command by its queue and id. -/
def State.startedAs (s : State) (sq cid : Nat) : Option Started := s.col.started.find? fun c => c.sq = sq && c.cid = cid

/-- An operation in flight. -/
def State.flightAt (s : State) (p seq : Nat) : Option Flight := (s.run p).bind fun r => r.flight.find? (·.seq == seq)

/-- Marks a request as answered while its work waits for a second one. -/
def State.grant (s : State) (r : HostReq) : State := { s with hif := { s.hif with granted := s.hif.granted ++ [r] } }

/-- Forgets an answer. -/
def State.ungrant (s : State) (r : HostReq) : State := { s with hif := { s.hif with granted := s.hif.granted.erase r } }

/-- COPYOP with an answer: its record in the window comes first, then its source. -/
def State.copyAnswered (s : State) (p seq : Nat) (data : List Byte) : State :=
  match s.flightAt p seq with
  | none => s
  | some f =>
    let addr := sArg f.op
    let r := HostReq.operation p seq
    if touchesWindow addr 32 && !s.hif.granted.contains r then
      let s := s.placeData addr data
      let x := s.peek addr 32
      if touchesWindow (fieldAt x 0 8) (fieldAt x 16 8) && s.windowOpen then (s.grant r).askHost r else s.copyOpWork p seq addr
    else ((s.ungrant r).placeData (fieldAt (s.peek addr 32) 0 8) data).copyOpWork p seq addr

/-- What a request does with the bytes that the host gives. -/
def State.hostGave (s : State) (r : HostReq) (data : List Byte) : State :=
  match r with
  | .descriptor q => (((s.placeData (s.sqEntryAt q) data).linkRx 64).grant r).settle
  | .command sq cid => match s.startedAs sq cid with
    | some c => commandWork (s.placeData (commandSource c.desc) data) c
    | none => s
  | .operation p seq => s.copyAnswered p seq data
  | .chunk ring => (s.placeData (s.ringHeadAt ring) data).takeChunk ring
  | .store => match s.bank.rekindle with
    | some x => (s.placeData (x.at_ + s.get Reg.BNK_STORE_MHEAD_COUNT % rekindleRing) data).takeStore data.length
    | none => s

/-- A request that fails: MEM_HOST for its transfer (R339, R529); a queue whose descriptor cannot be fetched stops (R387). -/
def State.hostRefused (s : State) (r : HostReq) : State :=
  match r with
  | .descriptor q => (s.faultQueue q).settle
  | .command sq cid => match s.startedAs sq cid with
    | some c => ((s.memErr { asHost with tag := cid } memHost).complete c memHost)
    | none => s
  | .operation p seq => ((s.ungrant r).accessFailed (asCopier s) memHost).opDone p seq memHost
  | .chunk _ => s.accessFailed asRing memHost
  | .store => (s.accessFailed asBank memHost).storeGone

/-- Takes the first request that waits. -/
def State.withoutFirst (s : State) : State := { s with hif := { s.hif with waiting := s.hif.waiting.drop 1 } }

/-- HOST_LINK_COMPLETION (R529): the host answers the oldest request. An error is also told to Advanced Error Reporting. -/
def execHostLinkCompletion (r : LinkReply) (s : State) : Host.Outcome State Fault Refusal :=
  match s.hif.waiting with
  | [] => .next s
  | q :: _ => match r with
    | .success data => .next (s.withoutFirst.hostGave q data).progress
    | e => .next ((s.withoutFirst.emit (.linkError e)).hostRefused q).progress

/-! ### MSI-X (R530, R531) -/

/-- Sends the message of a vector whose pending bit is set and whose masks are clear. -/
def State.sendPending (s : State) (v : Nat) : State :=
  if s.hif.pba.contains v && s.msixMay && !s.hif.msixMask && !bit (s.msixVec v) 96 then
    { s with hif := { s.hif with pba := s.hif.pba.filter (· != v) } }.msix v
  else s

/-- Sends every message that a cleared mask lets go. -/
def State.sendAllPending (s : State) : State := s.hif.pba.foldl State.sendPending s

/-- Stores a vector's table entry; a mask that goes sends the pending message. -/
def State.setVector (s : State) (v : Nat) (x : BitVec 128) : State :=
  { s with hif := { s.hif with msixTable := sset (BitVec.ofNat 128 (2 ^ 96)) s.hif.msixTable v x } }.sendPending v

/-- MSIX_UNMASK (R531). -/
def execMsixUnmask (u : MsixUnmask) (s : State) : Host.Outcome State Fault Refusal :=
  match u with
  | .vector n => .next (s.setVector n (BitVec.ofNat 128 (withBits (s.msixVec n) 96 1 0)))
  | .function => .next { s with hif := { s.hif with msixMask := false } }.sendAllPending

/-! ### Configuration space (R515, R516, R523, R530) -/

/-- Every BAR4 segment as a size of 2^n bytes resets it: BASE = n x S with EN set (R524). -/
def State.resetSegments (s : State) (log2 : Nat) : State :=
  (List.range 64).foldl (fun t n => (t.put (Reg.HIF_B4_SEG_EN n) 1).put (Reg.HIF_B4_SEG_BASE n) (n * 2 ^ (log2 - 6) / 2 ^ 28)) s

/-- A new size of BAR4 (R523): taken only while Memory Space Enable is clear, from 16 GiB to 32 TiB; in recovery it is fixed
(R533). -/
def State.sizeBar4 (s : State) (log2 : Nat) : State :=
  if s.hif.memSpace || s.hif.recovery || log2 < 34 || 45 < log2 || log2 = s.get Reg.HIF_B4_STATUS_LOG2SIZE then s
  else ((s.put Reg.HIF_B4_STATUS_LOG2SIZE log2).put Reg.HIF_B4_STATUS_LOG2SEG (log2 - 6)).resetSegments log2

/-- PCIE_CONFIGURATION_WRITE (R515, R516, R523, R530). -/
def execPcieConfigurationWrite (c : CfgSpaceWrite) (s : State) : Host.Outcome State Fault Refusal :=
  match c with
  | .powerState d3hot => .next { s with hif := { s.hif with d3hot := d3hot } }.sendAllPending
  | .busMaster enable => .next { s with hif := { s.hif with busMaster := enable } }.sendAllPending
  | .memorySpace enable => .next { s with hif := { s.hif with memSpace := enable } }
  | .barSize log2 => .next (s.sizeBar4 log2.toNat)
  | .msixControl enable mask => .next { s with hif := { s.hif with msixOn := enable, msixMask := mask } }.sendAllPending

/-! ### BAR4 (R523-R526, R533) -/

/-- The host reading or writing through BAR4. -/
def asBar4 : Who := { unit := 0x300, host := true }

/-- Bytes of a segment. -/
def State.segmentSize (s : State) : Nat := 2 ^ s.get Reg.HIF_B4_STATUS_LOG2SEG

/-- Device address of a BAR4 offset; none where its segment is not enabled or policy closes BAR4 (R524, R546). -/
def State.segmentAddr (s : State) (off : Nat) : Option Nat :=
  let n := off / s.segmentSize
  if s.isSet Reg.SEC_GUARD_POLICY_B4OFF || !s.isSet (Reg.HIF_B4_SEG_EN n) then none
  else some (2 ^ 28 * s.get (Reg.HIF_B4_SEG_BASE n) / s.segmentSize * s.segmentSize + off % s.segmentSize)

/-- The pieces of an access that segments divide: offset and length. -/
def segmentPieces (size : Nat) : Nat → Nat → Nat → List (Nat × Nat)
  | 0, _, _ => []
  | f + 1, off, n =>
    if n = 0 then []
    else
      let m := Nat.min n (size - off % size)
      (off, m) :: segmentPieces size f (off + m) (n - m)

/-- Reads pieces through BAR4; the first refusal ends the access. -/
def State.bar4Read : List (Nat × Nat) → State → State × Nat × List Byte
  | [], s => (s, 0, [])
  | (off, n) :: ps, s =>
    match s.segmentAddr off with
    | none => (s.memErr asBar4 memUnmapped, memUnmapped, [])
    | some a =>
      let (s, c, bs) := s.readMem asBar4 a n
      if c ≠ 0 then (s, c, [])
      else
        let (s, c, rest) := State.bar4Read ps s
        (s, c, bs ++ rest)

/-- Writes pieces through BAR4; the first refusal ends the access. -/
def State.bar4Write : List (Nat × Nat) → List Byte → State → State
  | [], _, s => s
  | (off, n) :: ps, bs, s =>
    match s.segmentAddr off with
    | none => s.memErr asBar4 memUnmapped
    | some a =>
      let (s, c) := s.writeMem asBar4 a (bs.take n)
      if c ≠ 0 then s else State.bar4Write ps (bs.drop n) s

/-- Bytes of the recovery buffer (R533). -/
def recoveryBytes : Nat := 2 ^ 28

/-- An access to the recovery buffer. -/
def State.recoveryAccess (s : State) (off : Nat) (acc : BusAccess) : State :=
  match acc with
  | .read n => if off + n ≤ recoveryBytes then (s.emit (.readData (s.bytes (recoveryKey + off) n))).linkTx n else s
  | .write bs => if off + bs.length ≤ recoveryBytes then (s.setBytes (recoveryKey + off) bs).linkRx bs.length else s

/-- Whether the function takes accesses: its port die or the management controller in recovery serves it, and it is in D0. -/
def State.functionUp (s : State) : Bool := (s.powered || s.pwr.phase == .recovery) && !s.hif.d3hot

/-- BAR4_ACCESS (R524-R526, R533). An offset beyond the BAR reaches nothing. -/
def execBar4Access (off : BitVec 46) (acc : BusAccess) (s : State) : Host.Outcome State Fault Refusal :=
  let o := off.toNat
  if !s.functionUp then .next s
  else if s.hif.recovery then .next (s.recoveryAccess o acc)
  else match acc with
    | .read n =>
      if 2 ^ s.get Reg.HIF_B4_STATUS_LOG2SIZE < o + n then .next s
      else match State.bar4Read (segmentPieces s.segmentSize 65 o n) s with
        | (t, 0, bs) => .next ((t.emit (.readData bs)).linkTx n)
        | (t, _, _) => .next (t.emit .completerAbort)
    | .write bs =>
      if 2 ^ s.get Reg.HIF_B4_STATUS_LOG2SIZE < o + bs.length then .next s
      else .next (State.bar4Write (segmentPieces s.segmentSize 65 o bs.length) bs (s.linkRx bs.length))

end Sys2Proof.Machine
end

