-- ==== Sys2Proof/Machine/Attest.lean ====
section
/-! DEFINITION. Data Object Exchange and attestation (R532, R550, R551). -/

namespace Sys2Proof.Machine

/-- Whether every installer slot is empty (R542). -/
def State.unclaimed (s : State) : Bool := s.sec.keys.all fun k => decide (k.1 < 8)

/-- Answers a data object. -/
def State.doeReply (s : State) (bs : List Byte) : State :=
  ({ s with hif := { s.hif with doeAnswer := bs } }.emit (.doe bs)).linkTx bs.length

/-- GET_CERTS (R551), answered in recovery as well. -/
def execGetCerts (s : State) : Host.Outcome State Fault Refusal :=
  if s.functionUp then .next (s.doeReply Config.certChain) else .next s

/-- The policy record that the guard registers hold (R544). -/
def State.guardRecord (s : State) : List Byte :=
  leBytes 1 1 ++ leBytes 1 (s.get Reg.SEC_GUARD_POLICY_SIGNED_BS + 2 * s.get Reg.SEC_GUARD_POLICY_OPAUTH +
    4 * s.get Reg.SEC_GUARD_POLICY_B4OFF) ++ leBytes 1 (s.get Reg.SEC_GUARD_POLICY_DBGMAX) ++ leBytes 1 0 ++
    leBytes 2 (s.get Reg.SEC_GUARD_POLICY_PCAP) ++ leBytes 2 (s.get Reg.PAIR_ID_ID) ++
    leBytes 1 (s.get Reg.SEC_GUARD_FEED_FEED + 16 * s.get Reg.SEC_GUARD_FEED_FEXP_EN) ++ List.replicate 55 0

/-- FLAGS of a report. -/
def State.reportFlags (s : State) : Nat :=
  s.get Reg.SEC_STATUS_TAINT + (if s.unclaimed then 2 else 0) + 4 * s.get Reg.SEC_GUARD_POLICY_SIGNED_BS +
    8 * s.get Reg.SEC_GUARD_POLICY_OPAUTH

/-- Bytes 0 to 271 of a report (R551). -/
def State.reportBody (s : State) (nonce : BitVec 256) : List Byte :=
  leBytes 4 0x4B324154 ++ leBytes 2 1 ++ leBytes 2 s.reportFlags ++ leBytes 8 s.sec.serial.toNat ++ leBytes 8 s.now ++
    leBytes 32 nonce.toNat ++ leBytes 8 (s.get Reg.SEC_AUDIT_CNT_COUNT) ++
    ((List.range 4).flatMap fun i => leBytes 8 (s.get (Reg.SEC_AUDIT_HEAD_HASH i))) ++
    shake256 32 s.sec.bootRom ++ fitBytes 32 s.sec.runDigest ++ shake256 32 s.guardRecord ++
    ((List.range 8).flatMap fun i => leBytes 8 (s.get (Reg.COL_CFG_DIGEST_DIGEST i))) ++
    leBytes 4 (s.get Reg.COL_CFG_CRC_CRC) ++ leBytes 4 (s.get Reg.COL_CFG_STATUS_GEN) ++ leBytes 4 (s.get Reg.SEC_SVN_RUNNING) ++
    leBytes 1 (s.get Reg.SEC_DBG_LEVEL_LEVEL) ++ leBytes 1 (s.get Reg.PWR_STATUS_PSTATE) ++ leBytes 2 0

/-- A report with its signature, 3,584 bytes. -/
def State.report (s : State) (nonce : BitVec 256) : List Byte :=
  let body := s.reportBody nonce
  body ++ fitBytes 3309 (Config.mldsaSign [0x4B, 0x58, 0x32, 0x2D, 0x41, 0x54, 0x54] body) ++ List.replicate 3 0

/-- GET_REPORT (R551). In recovery it is not answered, which DOE Error shows. -/
def execGetReport (nonce : BitVec 256) (s : State) : Host.Outcome State Fault Refusal :=
  if !s.functionUp then .next s
  else if s.hif.recovery then .next { s with hif := { s.hif with doeError := true } }
  else .next (s.doeReply (s.report nonce))

/-- The answer of DOE Discovery (PRESUMED, log entry 41: as the PCI Express specification lays it out): vendor, protocol and
the next index, for discovery itself and the one Hythal protocol; 0xFFFF for an index beyond them. -/
def discoveryAnswer : Nat → List Byte
  | 0 => [0x01, 0x00, 0x00, 0x01]
  | 1 => [0x6D, 0x1F, 0x01, 0x00]
  | _ => [0xFF, 0xFF, 0x00, 0x00]

/-- DOE_DISCOVERY (R532). -/
def execDoeDiscovery (index : BitVec 8) (s : State) : Host.Outcome State Fault Refusal :=
  if s.functionUp then .next (s.doeReply (discoveryAnswer index.toNat)) else .next s

/-- DOE_ABORT (R532): the object in progress and any response to it go, and the error with them. -/
def execDoeAbort (s : State) : Host.Outcome State Fault Refusal :=
  .next { s with hif := { s.hif with doeAnswer := [], doeError := false } }

end Sys2Proof.Machine
end

