-- ==== Sys2Proof/Machine/Reset.lean ====
section
/-! DEFINITION. The resets (R573, R576-R582): what each leaves, and the commands that start them. -/

namespace Sys2Proof.Machine

/-- The start-up step that an error belongs to, or 0 once READY is set (R584). -/
def State.errStep (s : State) : Nat := if s.isSet Reg.PWR_STATUS_READY then 0 else s.get Reg.PWR_STATUS_STEP

/-- Work in progress ends without a completion record (R579): an open step in COMMIT is torn (R440), any other open step is
recorded as aborted. -/
def State.endWork (s : State) : State :=
  let st := s.stepState
  let s := if st = 4 then s.setLast 4 else if st = 1 || st = 2 || st = 3 then s.setLast 3 else s
  { s.put Reg.COL_STEP_STATUS_STATE 0 with col := .empty }

/-! ### Module and power-on reset -/

/-- Registers that module flash and fuses hold (R558, R598), by offset. -/
def flashReg (off : Nat) : Bool :=
  off == 0x700058 || off == 0x700060 || off == 0x700068 || off == 0x700070 || off == 0x700078 || off == 0x700090 ||
    off == 0x700098 || off == 0x900020 || off == 0x900070

/-- The module without power: what flash and fuses hold stays (R569), with the board, host memory, the queue and what has
left the module. -/
def State.blank (s : State) : State :=
  { State.reset with
    pending := s.pending
    regs := s.regs.filter fun r => flashReg r.1
    mem := s.mem.filter fun c => decide (hostKey ≤ c.1 ∧ c.1 < recoveryKey)
    bank := { Banking.empty with flash := s.bank.flash }
    sec := { s.sec with
      sessions := [], runDigest := [], lockouts := [], levelOwner := none, violAt := [], mbAt := none }
    pwr := { State.reset.pwr with perst := s.pwr.perst }
    dbg := { State.reset.dbg with elog := s.dbg.elog }
    board := s.board
    out := s.out
    rand := s.rand }

/-- A reset that reruns start-up (R577, R578): everything returns to its reset value, the resets since manufacture advance,
and start-up begins. Fields kept through warm reset only, COL_STEP_LAST among them, are cleared. -/
def State.restart (s : State) : State :=
  let s := (s.releasePinsIf fun _ => true).blank
  ({ s with sec := { s.sec with boots := s.sec.boots + 1 } }.drawNonce).startUp

/-- A module reset: sessions end first (R537). -/
def State.moduleReset (s : State) : State := (s.endSessions 1 allRoles).restart

/-- POWER_ON_RESET (R574, R577): from P4, step 1 has ended. -/
def execPowerOnReset (s : State) : Host.Outcome State Fault Refusal :=
  if s.pwr.phase == .off then .next s.restart else .next s

/-! ### Warm reset -/

/-- A word after a reset that keeps some fields: every other bit returns to its reset value. -/
def keptWord (r : RegSpec) (off : Nat) (keeps : FieldSpec → Bool) (v : BitVec 64) : BitVec 64 :=
  let m := BitVec.ofNat 64 ((r.fields.filter keeps).foldl (fun a f => a ||| (2 ^ f.w - 1) * 2 ^ f.lo) 0)
  (v &&& m) ||| (BitVec.ofNat 64 (r.resetAt off) &&& ~~~m)

/-- Returns every register field that does not keep its value to its reset value (R16). -/
def State.resetRegs (s : State) (whole : Nat → Bool) (keeps : FieldSpec → Bool) : State :=
  { s with regs := s.regs.filterMap fun x =>
      if whole x.1 then some x
      else match regAt x.1 with
        | none => none
        | some r =>
          let w := keptWord r x.1 keeps x.2
          if w = BitVec.ofNat 64 (r.resetAt x.1) then none else some (x.1, w) }

/-- Clears hearth memory, slots, tables, route slices and what else the compute dies hold (R572, R578). -/
def State.emptyDies (s : State) : State :=
  { s.dropMem (fun k => decide (hearthBase ≤ k ∧ k < hostKey)) with embers := [], hearths := [], kilns := [] }

/-- What a warm reset leaves of the units that keep something (R16, R578): promotion state, the shard table and the history
of steps; ports and the pair; banks in flash and in the receive area. -/
def State.warmUnits (s : State) : State :=
  { s with
    step := { StepTx.empty with promo := s.step.promo, shards := s.step.shards, history := s.step.history }
    ing := .empty
    link := { Links.empty with ports := s.link.ports, peerMode := s.link.peerMode, peerLen := s.link.peerLen }
    bank := { Banking.empty with
      flash := s.bank.flash, slot0 := s.bank.slot0, slot1 := s.bank.slot1, seq := s.bank.seq }
    hif := { s.hif with waiting := [], granted := [] }
    sec := { s.sec with lockouts := [], levelOwner := none, mbAt := none }
    dbg := { State.reset.dbg with
      elog := s.dbg.elog, ceSecond := s.dbg.ceSecond, ceRaised := s.dbg.ceRaised, ceRecord := s.dbg.ceRecord } }

/-- Step 5 of a warm start: in P2 the compute dies have no power and are not tested. -/
def State.warmTest (s : State) : State :=
  if s.powerState ≤ 1 then s.testKilns ((List.range 32).filter fun k => s.dieUp k && !s.quarantined k) 5 else s

/-- A warm reset (R577-R579): work is abandoned, the base configuration installed, and after step 5 the module is READY. P1
ends, since no kiln is gated. -/
def State.warmReset (s : State) : State :=
  let s := ((s.endSessions 1 allRoles).endWork).releasePinsIf fun _ => true
  let s := (((s.resetRegs (fun _ => false) (·.keep)).emptyDies).warmUnits).installBase
  let s := (s.drawNonce).beginStep 5
  if s.board.badDies then s.halt pwrSelftest 5
  else
    let s := s.warmTest
    let s := if s.powerState = 1 then s.put Reg.PWR_STATUS_PSTATE 0 else s
    ((s.beginStep 10).put Reg.PWR_STATUS_READY 1).put Reg.PWR_READY_STOKE s.now

/-- A warm reset that is asked for: discarded before READY (R576), refused in P3, where the compute dies cannot be tested. -/
def State.askWarm (s : State) : State :=
  if !s.isSet Reg.PWR_STATUS_READY then s
  else if 2 < s.powerState then s.pwrErr pwrState 0
  else s.warmReset

/-! ### Writes of PWR_RESET (R577) -/

/-- Whether a session with a right to reset the module is open. -/
def State.mayReset (s : State) : Bool := (s.sessionOf .installer).isSome || (s.sessionOf .maker).isSome

/-- A write of PWR_RESET; a module reset that meets a warm reset wins (R580). -/
def State.writePwrReset (s : State) (v : Nat) : State :=
  if bit v 0 then (if s.mayReset then s.moduleReset else s.pwrErr secRole s.errStep)
  else if bit v 1 then (if s.sec.sessions.isEmpty then s.pwrErr secRole s.errStep else s.askWarm)
  else s

/-- Whether the management controller runs. -/
def State.alive (s : State) : Bool := s.pwr.phase != .off

/-- MODULE_RESET (R577, R580): by its pin, by a write of PWR_RESET, or by tinder once the recovery image stands in its slot. -/
def execModuleReset (c : ModResetCause) (s : State) : Host.Outcome State Fault Refusal :=
  if !s.alive then .next s
  else match c with
    | .pin => .next s.moduleReset
    | .register v => .next (s.writePwrReset v.toNat)
    | .tinder =>
      if s.pwr.phase == .recovery && s.get Reg.HIF_RCV_STAT_STATE = 2 then .next s.moduleReset else .next s

/-- WARM_RESET (R576-R579). -/
def execWarmReset (c : WarmResetCause) (s : State) : Host.Outcome State Fault Refusal :=
  if !s.alive then .next s
  else match c with
    | .pin => .next s.askWarm
    | .register v => .next (s.writePwrReset v.toNat)

/-! ### PCIe reset (R515, R578, R579) -/

/-- Disables every queue and the event interrupt; a queue with started commands drains. -/
def State.disableQueues (s : State) : State :=
  let s := (List.range 64).foldl (fun t q =>
    let t := if t.isSet (Reg.COL_SQ_CTL_EN q) then
        (t.put (Reg.COL_SQ_CTL_EN q) 0).put (Reg.COL_SQ_CTL_DRAIN q) (if t.sqBusy q then 1 else 0)
      else t
    t.put (Reg.COL_CQ_CTL_EN q) 0) s
  s.put Reg.COL_EVT_CTL_IEN 0

/-- Started commands run on, but their completion records and those that wait are discarded (R579). -/
def State.muteCommands (s : State) : State :=
  { s with col := { s.col with started := s.col.started.map (fun (c : Started) => { c with mute := true }), cqWait := [] } }

/-- Requests into the host window that were waiting fail (R516); those for descriptors go with their queues. -/
def State.failRequests (s : State) : State :=
  let rs := s.hif.waiting
  rs.foldl (fun t r => match r with
    | .descriptor _ => t
    | _ => t.hostRefused r) { s with hif := { s.hif with waiting := [] } }

/-- Returns the host interface to its reset values (R535). -/
def State.resetHostInterface (s : State) : State :=
  { s.dropRegs (fun o => decide (0x100000 ≤ o ∧ o < 0x200000)) with
    hif := { Hif.empty with recovery := s.hif.recovery } }

/-- A PCIe reset: then the link trains again, unless PERST# holds it. -/
def State.pcieReset (s : State) (held : Bool) : State :=
  let s := ((s.muteCommands).failRequests).disableQueues
  let s := ((s.resetHostInterface).endSessions 1 allRoles).drawNonce
  let s := { s with pwr := { s.pwr with perst := held, training := false } }
  if held then s
  else if s.pwr.phase == .recovery then { s with pwr := { s.pwr with training := true, began := s.now } }
  else if s.powered then { s.beginStep 8 with pwr := { s.pwr with training := true, began := s.now } }
  else s

/-- PCIE_RESET (R515, R577): a Function Level Reset and a DL_Down need a link that is up. -/
def execPcieReset (c : PcieResetCause) (s : State) : Host.Outcome State Fault Refusal :=
  if !s.alive then .next { s with pwr := { s.pwr with perst := s.pwr.perst || c == .perst } }
  else match c with
    | .perst => .next (s.pcieReset true).progress
    | _ => if s.isSet Reg.HIF_LINK_UP then .next (s.pcieReset false).progress else .next s

/-! ### Kiln reset (R577, R581, R582) -/

/-- Whether a kiln is quiesced (R37): no operation in flight names it. -/
def State.quiesced (s : State) (k : Nat) : Bool :=
  !s.col.runs.any fun r => r.flight.any fun f => bit (s.opKilns r.id f.op) k

/-- Reloads the registers of a kiln that the installed configuration gives (R172, R280). -/
def State.reloadKiln (s : State) (k : Nat) : State :=
  let n := s.cfg.active
  let s := (List.range 12).foldl (fun t i =>
    let h := 12 * k + i
    (t.put (Reg.HTH_OPD_BASE_BASE h) (sget 0 n.opdPage h)).put (Reg.HTH_ODESC_BASE_BASE h) (sget 0 n.odescPage h)) s
  (s.put (Reg.KLN_GATE_CTL_EN k) (bits n.gateEn k 1)).put (Reg.KLN_GATE_CTL_THRESH k) n.gateThresh

/-- The self-test that ends a kiln reset: one that passes clears causes 1 and 2. A die that is off is not tested. -/
def State.retestKiln (s : State) (k : Nat) : State :=
  if !s.dieUp k then s
  else if s.board.badKilns.contains k then (s.pwrErr pwrSelftest 0).quarantine [k] 1
  else if s.causeOf k = 1 || s.causeOf k = 2 then
    (s.setCause k 0).put Reg.PWR_QUAR_KILNS (s.get Reg.PWR_QUAR_KILNS - 2 ^ k)
  else s

/-- Resets one kiln, or refuses to. -/
def State.resetKiln (s : State) (k : Nat) : State :=
  if !s.quarantined k && !s.quiesced k then s.pwrErr pwrState 0
  else if (sget ⟨0, 0, 0⟩ s.cfg.active.kilns k).role = 1 && (s.stepOpen || s.evaluating) then s.pwrErr pwrState 0
  else
    let s := s.emptyKiln k
    (({ s with cfg := { s.cfg with active := s.cfg.active.without (2 ^ k) } }).reloadKiln k).retestKiln k

/-- A write of PWR_KILN_RST: it needs a session (R577), READY (R576), and a state in which compute dies have power. A kiln that a
reset leaves ungated ends P1. -/
def State.writeKilnReset (s : State) (v : Nat) : State :=
  if s.sec.sessions.isEmpty then s.pwrErr secRole s.errStep
  else if !s.isSet Reg.PWR_STATUS_READY then s
  else if 1 < s.powerState then (if bits v 0 32 = 0 then s else s.pwrErr pwrState 0)
  else
    let s := (kilnsOf (bits v 0 32)).foldl State.resetKiln s
    if s.powerState = 1 && !s.allGated then s.put Reg.PWR_STATUS_PSTATE 0 else s

/-- KILN_RESET (R581). -/
def execKilnReset (v : BitVec 64) (s : State) : Host.Outcome State Fault Refusal :=
  if s.alive then .next (s.writeKilnReset v.toNat).progress else .next s

end Sys2Proof.Machine
end

