-- ==== Sys2Proof/Machine/Power.lean ====
section
/-! DEFINITION. Power states, supply faults, thermal trips, the cap and the governor (R559-R573). -/

namespace Sys2Proof.Machine

/-! ### Entry to P3 and its end (R569, R573) -/

/-- Registers that the management controller keeps whole through P3: its own blocks, the stoke counter and the log counts. -/
def keptInP3 (off : Nat) : Bool :=
  decide (off < 0x100000) || decide (0x700000 ≤ off ∧ off < 0x900000) || off == 0x200010 || off == 0x900020 || off == 0x900070

/-- Whether a field is RWS or BL, which P3 keeps in every block (R573). -/
def stickyField (f : FieldSpec) : Bool :=
  match f.acc with
  | .rws => true
  | .bl => true
  | _ => false

/-- Strap values that registers outside the management controller show (R455, R503). -/
def State.showStraps (s : State) : State :=
  (s.put Reg.BNK_STATUS_FEED (s.get Reg.MC_STRAPS_FEED)).put Reg.PAIR_STATUS_ROLE (s.get Reg.MC_STRAPS_ROLE)

/-- What loses power in P3 beside registers: every memory of the module, units, links and the host interface; banks in flash
stay. -/
def State.dropPower (s : State) : State :=
  { s.dropMem (fun k => decide (k < hostKey)) with
    embers := []
    hearths := []
    kilns := []
    step := .empty
    ing := .empty
    link := .empty
    bank := { Banking.empty with flash := s.bank.flash }
    hif := .empty
    dbg := { State.reset.dbg with elog := s.dbg.elog } }

/-- Entry to P3. PCIe goes down, so sessions end as at its reset (R515, R537), and the debug ceiling falls to 1 (R555, R556). -/
def State.enterP3 (s : State) : State :=
  let s := ((s.endSessions 1 allRoles).endWork).releasePinsIf fun _ => true
  let s := (((s.resetRegs keptInP3 stickyField).dropPower).installBase).showStraps
  let s := { s with pwr := { s.pwr with training := false } }
  let s := ((s.put Reg.PWR_STATUS_PSTATE 3).put Reg.PWR_STATUS_PENDING 0).put Reg.PWR_VOLT_TARGET 0
  let s := ((s.put Reg.PWR_STATUS_CAPPED 0).put Reg.PWR_STATUS_THROTTLE 0).put Reg.PWR_STATUS_FLOOR 0
  if 1 < s.get Reg.SEC_DBG_LEVEL_LEVEL then s.setLevel 1 0 0xFF else s

/-- Leaving P3: start-up runs again from step 4 and ends in the state asked for (R569). -/
def State.leaveP3 (s : State) : State :=
  let s := { s with pwr := { s.pwr with thermTrip := false } }
  (((s.put Reg.PWR_STATUS_PSTATE 0).put Reg.PWR_STATUS_PENDING 1).put Reg.PWR_STATUS_READY 0).startDies

/-- Leaving P2: the base configuration, and nothing in the compute dies (R572). -/
def State.leaveHold (s : State) : State :=
  let s := (s.dropRegs fun o => decide (0x1000000 ≤ o ∧ o < 0x2000000) || decide (0x200800 ≤ o ∧ o < 0x200880) ||
    o == 0x500040)
  ((s.emptyDies.installBase).releasePinsIf fun _ => true).put Reg.PWR_STATUS_PSTATE 0

/-- Ends P1: every kiln wakes (R279). -/
def State.wakeAll (s : State) : State :=
  (List.range 32).foldl (fun t k => if (t.kiln k).gated then
    t.setKiln k { t.kiln k with gated := false, wakeAt := none, idle := 0 } else t) (s.put Reg.PWR_STATUS_PSTATE 0)

/-! ### POWER_STATE_REQUEST (R570) -/

/-- Work that holds off P2 and P3. -/
def State.workHolds (s : State) : Bool :=
  s.stepOpen || s.evaluating || s.isSet Reg.BNK_STATUS_BUSY || s.col.started.any fun c => c.opc != 0x10

/-- Whether every slot of every kiln is EMPTY. -/
def State.slotsEmpty (s : State) : Bool := (List.range 32).all s.kilnEmpty

/-- Goes to a state, through those between (R570). -/
def State.goTo (s : State) (target : Nat) : State :=
  match s.powerState, target with
  | 3, 3 => s
  | 3, _ => s.leaveP3
  | _, 3 => s.enterP3
  | 2, 2 => s
  | 2, t => s.leaveHold.towardTarget t
  | 1, 1 => s
  | 1, 0 => s.wakeAll.put Reg.PWR_STATUS_PENDING 0
  | _, t => s.towardTarget t

/-- A write of PWR_CTL.TARGET: the first row of R570 that holds. -/
def State.requestPower (s : State) (target : Nat) : State :=
  if !s.isSet Reg.PWR_STATUS_READY then s.pwrErr pwrState s.errStep
  else if s.sec.sessions.isEmpty then s.pwrErr secRole 0
  else
    let s := s.put Reg.PWR_CTL_TARGET target
    if 3 < target then s.pwrErr pwrState 0
    else if target = 1 && !s.slotsEmpty then s.pwrErr pwrState 0
    else if (target = 2 || target = 3) && s.workHolds then s.pwrErr pwrState 0
    else if s.powerState = 3 && target ≠ 3 && s.pwr.hot then s.pwrErr pwrThermal 0
    else s.goTo target

/-- POWER_STATE_REQUEST (R570). -/
def execPowerStateRequest (v : BitVec 64) (s : State) : Host.Outcome State Fault Refusal :=
  if s.alive then .next (s.requestPower (bits v.toNat 0 3)).progress else .next s

/-! ### Faults and trips (R561, R566, R568) -/

/-- Code of a supply fault. -/
def supplyCode : SupplyFault → Nat
  | .mainRange => pwrInput
  | _ => pwrRail

/-- MAIN_SUPPLY_FAULT (R561): a class 1 event, and P3. -/
def execMainSupplyFault (c : SupplyFault) (s : State) : Host.Outcome State Fault Refusal :=
  if s.powered then
    .next ((((s.raise 1 0x09 0xFFFF (supplyCode c) 0).pwrErr (supplyCode c) s.errStep).enterP3))
  else .next s

/-- AUX_SUPPLY_LOSS (R561, R569): P4; flash and fuses stay. -/
def execAuxSupplyLoss (s : State) : Host.Outcome State Fault Refusal :=
  if s.alive then
    .next ((((s.endSessions 2 allRoles).releasePinsIf fun _ => true).blank).put Reg.PWR_STATUS_PSTATE 4)
  else .next s

/-- THERMAL_TRIP (R568, R580, R605): logged and recorded, and P3; a trip that meets a power fault is recorded. -/
def execThermalTrip (_sensor : Sensor) (idx : BitVec 8) (s : State) : Host.Outcome State Fault Refusal :=
  if s.powered || s.powerState = 3 then
    let t := ((s.raise 2 0x06 0xFFFF pwrThermal idx.toNat).logFailure 3 pwrThermal 0 idx.toNat).pwrErr pwrThermal s.errStep
    let t := { t with pwr := { t.pwr with thermTrip := true, hot := true } }
    .next (if s.powered then t.enterP3 else t)
  else .next s

/-! ### The cap and the governor (R562, R563, R565) -/

/-- A write of PWR_CAP: discarded out of the bounds of R562. -/
def State.writeCap (s : State) (v : Nat) : State :=
  if v < s.get Reg.SEC_BOUNDS_PCAP_MIN || s.get Reg.SEC_GUARD_POLICY_PCAP < v then s.pwrErr pwrCap s.errStep
  else s.put Reg.PWR_CAP_CAP v

/-- CAP_WRITE (R562). -/
def execCapWrite (v : BitVec 64) (s : State) : Host.Outcome State Fault Refusal :=
  if s.alive then .next (s.writeCap (bits v.toNat 0 16)) else .next s

/-- The cap in force (R562). -/
def State.capInForce (s : State) : Nat :=
  Nat.min (Nat.min (s.get Reg.PWR_CAP_CAP) (s.get Reg.SEC_GUARD_POLICY_PCAP)) 3000

/-- The sensors as the registers show them. -/
def State.sense (s : State) (g : PowerReading) : State :=
  let s := (s.put Reg.PWR_INPUT_VIN g.vin.toNat).put Reg.PWR_INPUT_PAVG g.pavg.toNat
  let s := (s.put Reg.PWR_THERM_TJ g.tj.toNat).put Reg.PWR_THERM_THBM g.thbm.toNat
  let s := (s.put Reg.PWR_THERM_TIN g.tin.toNat).put Reg.PWR_THERM_TOUT g.tout.toNat
  { s with pwr := { s.pwr with hot := decide (95 ≤ g.tj.toInt) || decide (90 ≤ g.thbm.toInt) } }

/-- The governor's next voltage in mV: at most 10 down or 5 up, and never below 600 (R563). -/
def nextVoltage (now target : Nat) : Nat :=
  if now < 600 then 600
  else if target < now then Nat.max 600 (now - Nat.min 10 (now - target))
  else now + Nat.min 5 (target - now)

/-- One evaluation in P0 or P1. -/
def State.govern (s : State) (g : PowerReading) : State :=
  let vmax := Nat.max 600 (Nat.min 900 (s.get Reg.PWR_VOLT_VMAX))
  let capV := g.capVolt.toNat
  let hotV := g.hotVolt.toNat
  let target := Nat.min vmax (Nat.min capV hotV)
  let s := s.put Reg.PWR_VOLT_TARGET (nextVoltage (s.get Reg.PWR_VOLT_TARGET) target)
  let s := s.put Reg.PWR_STATUS_CAPPED (if capV < vmax && decide (capV ≤ hotV) then 1 else 0)
  let s := s.put Reg.PWR_STATUS_THROTTLE (if s.pwr.hot || (hotV < vmax && decide (hotV ≤ capV)) then 1 else 0)
  let floor := s.get Reg.PWR_VOLT_TARGET = 600 && decide (s.capInForce < g.pavg.toNat)
  let had := s.isSet Reg.PWR_STATUS_FLOOR
  let s := s.put Reg.PWR_STATUS_FLOOR (if floor then 1 else 0)
  if floor && !had then s.raise 9 0x09 0xFFFF 0 g.pavg.toNat else s

/-- GOVERNOR_EVALUATION (R563-R567): every 125 stokes; in P2 and P3 only the sensors are read. -/
def execGovernorEvaluation (g : PowerReading) (s : State) : Host.Outcome State Fault Refusal :=
  if !s.alive || s.now < s.pwr.govAt then .next s
  else
    let s := { s with pwr := { s.pwr with govAt := s.now + 125 } }.sense g
    .next (if s.powered && decide (s.powerState ≤ 1) then s.govern g else s)

end Sys2Proof.Machine
end

