-- ==== Sys2Proof/Machine/Mailbox.lean ====
section
/-! DEFINITION. The security mailbox (R536-R549, R555), lockouts, the guard lock, and the recovery load (R534). -/

namespace Sys2Proof.Machine

/-- Codes of the security class (R557). -/
def secAuth : Nat := 0x6002
/-- R557. -/
def secLockout : Nat := 0x6003
/-- R557. -/
def secKey : Nat := 0x6004
/-- R557. -/
def secPolicy : Nat := 0x6005
/-- R557. -/
def secImage : Nat := 0x6006
/-- R557. -/
def secRollback : Nat := 0x6007
/-- R557. -/
def secDebug : Nat := 0x6009
/-- R557. -/
def secAudit : Nat := 0x600A
/-- R557. -/
def secBusy : Nat := 0x600B

/-! ### Requests and responses (R541) -/

/-- Bytes of the mailbox buffer, a multiple of 8 from a multiple of 8. -/
def State.mbWords (s : State) (lo n : Nat) : List Byte :=
  (List.range (n / 8)).flatMap fun i => leBytes 8 (s.get (Reg.SEC_MB_BUF_DATA (lo / 8 + i)))

/-- A request: its operation, role code, key slot, session key and body, and whether its header is as R541 states. -/
structure MbRequest where
  op   : Nat
  role : Nat
  slot : Nat
  key  : BitVec 256
  body : List Byte
  ok   : Bool
deriving DecidableEq, Repr

/-- The request in the buffer. -/
def State.mbRequest (s : State) : MbRequest :=
  let h := s.mbWords 0 64
  let len := fieldAt h 4 4
  { op := fieldAt h 0 2, role := fieldAt h 2 1, slot := fieldAt h 3 1, key := BitVec.ofNat 256 (fieldAt h 8 32)
    body := if len ≤ 16320 then (s.mbWords 64 ((len + 7) / 8 * 8)).take len else []
    ok := decide (len ≤ 16320) && fieldAt h 40 24 == 0 && (fieldAt h 0 2 == 1 || fieldAt h 3 1 == 0) }

/-- Overwrites the buffer with a response and shows its code (R541, R558). -/
def State.mbRespond (s : State) (code : Nat) (body : List Byte) : State :=
  let bs := leBytes 2 code ++ leBytes 2 0 ++ leBytes 4 body.length ++ List.replicate 56 0 ++ body
  let s := s.dropRegs fun o => decide (0x701000 ≤ o ∧ o < 0x705000)
  let s := (List.range ((bs.length + 7) / 8)).foldl (fun t i => t.put (Reg.SEC_MB_BUF_DATA i) (fieldAt bs (8 * i) 8)) s
  ((s.put Reg.SEC_MB_RESULT_CODE code).put Reg.SEC_MB_RESULT_DONE 1).put Reg.SEC_MB_RESULT_BUSY 0

/-- Whether a port reaches the mailbox: BAR0 while the function is up, the management interfaces in P0 to P3. -/
def State.mbOpen (s : State) (port : MbPort) : Bool :=
  match port with
  | .bar0 => s.functionUp
  | .management => s.alive && decide (s.powerState ≤ 3)

/-- What a request comes to: the state, its code and the body of its response. -/
abbrev MbResult := State × Nat × List Byte

/-- Takes the request in the buffer: a management request in the stoke of a BAR0 request completes with SEC_BUSY, and a
malformed header with SEC_ROLE. -/
def State.mbTake (s : State) (port : MbPort) (work : MbRequest → State → MbResult) : State :=
  if !s.mbOpen port then s
  else if port == .management && s.sec.mbAt == some s.now then s.emit (.mailbox secBusy)
  else
    let s := if port == .bar0 then { s with sec := { s.sec with mbAt := some s.now } } else s
    let r := s.mbRequest
    let (s, code, body) := if r.ok then work r s else (s, secRole, [])
    s.mbRespond code body

/-- A command of the mailbox: nothing while the buffer holds a request of another operation. -/
def State.mailbox (s : State) (op : Nat) (port : MbPort) (work : MbRequest → State → MbResult) : State :=
  if s.mbRequest.op = op then s.mbTake port work else s

/-- Who acts in an audit entry: role code and key slot. -/
structure Actor where
  role : Nat
  slot : Nat
deriving DecidableEq, Repr

/-- No role (R552). -/
def nobody : Actor := ⟨0, 0xFF⟩

/-- The actor of a session. -/
def Session.actor (x : Session) : Actor := ⟨roleCode x.role, x.slot⟩

/-- An audited action: the entry first, then its effect; without the entry nothing happens (R554). -/
def State.act (s : State) (action : Nat) (a : Actor) (code : Nat) (arg : List Byte) (effect : State → State × List Byte) :
    MbResult :=
  match s.audit action a.role a.slot code arg with
  | (t, false) => (t, secAudit, [])
  | (t, true) =>
    if code ≠ 0 then (t, code, [])
    else
      let (t, body) := effect t
      (t, 0, body)

/-- An effect without a response body. -/
def quietly (f : State → State) (s : State) : State × List Byte := (f s, [])

/-- The session whose key a request carries (R537). -/
def State.sessionBy (s : State) (key : BitVec 256) : Option Session := s.sec.sessions.find? (·.key == key)

/-- An audited operation of a session: SEC_ROLE when the key matches none or its role has no right. -/
def State.sessionAct (s : State) (action : Nat) (r : MbRequest) (rights : Role → Bool) (work : Session → State → MbResult) :
    MbResult :=
  match s.sessionBy r.key with
  | none => s.act action nobody secRole [] (quietly id)
  | some x => if rights x.role then work x s else s.act action x.actor secRole [] (quietly id)

/-! ### OPEN and CLOSE (R537-R540) -/

/-- The failure count of a role. -/
def failField : Role → Fld
  | .operator => Reg.SEC_FAILS_OPFAIL
  | .installer => Reg.SEC_FAILS_INSTFAIL
  | .maker => Reg.SEC_FAILS_MAKFAIL

/-- The role of a code. -/
def roleOf : Nat → Option Role
  | 1 => some .operator
  | 2 => some .installer
  | 3 => some .maker
  | _ => none

/-- A lockout whose time has passed ends (R539). -/
def State.endLockout (s : State) (r : Role) : State :=
  match sfind s.sec.lockouts (roleCode r) with
  | some t => if s.now < t then s else { s with sec := { s.sec with lockouts := sdel s.sec.lockouts (roleCode r) } }.put (failField r) 0
  | none => s

/-- LOCKOUT_EXPIRY (R539). -/
def execLockoutExpiry (r : Role) (s : State) : Host.Outcome State Fault Refusal := .next (s.endLockout r)

/-- The message that OPEN signs (R538). -/
def State.openMessage (s : State) (role : Nat) : List Byte :=
  ((List.range 4).flatMap fun i => leBytes 8 (s.get (Reg.SEC_NONCE_NONCE i))) ++ leBytes 1 role ++ leBytes 8 s.sec.serial.toNat

/-- The context string KX2-OPEN. -/
def ctxOpen : List Byte := [0x4B, 0x58, 0x32, 0x2D, 0x4F, 0x50, 0x45, 0x4E]

/-- Verification under a slot's key; an empty slot proves nothing. -/
def State.slotProves (s : State) (r : MbRequest) (key : Option (List Byte)) : Bool :=
  match key with
  | some k => Config.mldsaVerify k ctxOpen (s.openMessage r.role) r.body
  | none => false

/-- Whether an OPEN proves its role (R536, R538). -/
def State.proves (s : State) (r : MbRequest) (role : Role) : Bool :=
  match role with
  | .operator => !s.isSet Reg.SEC_GUARD_POLICY_OPAUTH || s.slotProves r (sfind s.sec.keys r.slot)
  | .installer => s.slotProves r (sfind s.sec.keys (8 + r.slot))
  | .maker => shake256 32 (r.body.take 1952) == s.sec.makerHash &&
    Config.mldsaVerify (r.body.take 1952) ctxOpen (s.openMessage 3) (r.body.drop 1952)

/-- A failed proof is counted; the fourth starts a lockout of 10 s, a violation of kind 4 (R539, R553). -/
def State.openFailed (s : State) (role : Role) : State :=
  let s := s.bumpSat (failField role) 1
  if s.get (failField role) = 4 then
    { s with sec := { s.sec with lockouts := sput s.sec.lockouts (roleCode role) (s.now + 125000000) } }.violation 4
  else s

/-- Opens a session with a fresh key, which the response carries. -/
def State.openSession (s : State) (role : Role) (slot : Nat) : State × List Byte :=
  let words := (List.range 4).map fun i => (Config.randomWord (s.rand + i)).toNat
  let bytes := words.flatMap (leBytes 8)
  let x : Session := ⟨role, BitVec.ofNat 256 (leNat bytes), slot⟩
  (({ s with rand := s.rand + 4, sec := { s.sec with sessions := s.sec.sessions ++ [x] } }.sessionBits).put (failField role) 0, bytes)

/-- The key slot that an OPEN names in its audit entry: none for the maker and for an operator without proof. -/
def State.openSlot (s : State) (r : MbRequest) (role : Role) : Nat :=
  if role == .maker || (role == .operator && !s.isSet Reg.SEC_GUARD_POLICY_OPAUTH) then 0xFF else r.slot

/-- OPEN up to the nonce (R537-R539). -/
def State.openWork (s : State) (r : MbRequest) : MbResult :=
  match roleOf r.role with
  | none => s.act 0x01 ⟨r.role, 0xFF⟩ secRole [] (quietly id)
  | some role =>
    let s := s.endLockout role
    let a : Actor := ⟨r.role, s.openSlot r role⟩
    let arg := if role == .maker then shake256 32 (r.body.take 1952) else []
    if (sfind s.sec.lockouts r.role).isSome then s.act 0x01 a secLockout arg (quietly id)
    else if (s.sessionOf role).isSome then s.act 0x01 a secRole arg (quietly id)
    else if 7 < r.slot then s.act 0x01 a secKey arg (quietly id)
    else if s.proves r role then s.act 0x01 a 0 arg fun t => t.openSession role a.slot
    else match s.act 0x01 a secAuth arg (quietly id) with
      | (t, c, b) => (if c = secAuth then t.openFailed role else t, c, b)

/-- OPEN (R537-R539); SEC_NONCE is drawn afresh whatever it comes to. -/
def execSecOpen (port : MbPort) (s : State) : Host.Outcome State Fault Refusal :=
  .next (s.mailbox 0x01 port fun r s =>
    let (s, c, b) := s.openWork r
    (s.drawNonce, c, b))

/-- CLOSE (R537, R542). -/
def execSecClose (port : MbPort) (s : State) : Host.Outcome State Fault Refusal :=
  .next (s.mailbox 0x02 port fun r s => s.sessionAct 0x02 r (fun _ => true) fun x s =>
    s.act 0x02 x.actor 0 [0] (quietly fun t => t.dropSession x.role))

/-! ### Keys and policy (R542-R546) -/

/-- Bytes of an ML-DSA-65 public key. -/
def keyBytes : Nat := 1952

/-- ARG of CLAIM, KEY_SET and KEY_CLEAR (R553). -/
def keyArg (kind slot : Nat) (key : List Byte) : List Byte :=
  [BitVec.ofNat 8 kind, BitVec.ofNat 8 slot] ++ (if key.isEmpty then [] else (shake256 32 key).take 30)

/-- Place of a slot among the keys. -/
def keyPlace (kind slot : Nat) : Nat := 8 * kind + slot

/-- Stores a key. -/
def State.setKey (s : State) (place : Nat) (key : List Byte) : State :=
  { s with sec := { s.sec with keys := sput s.sec.keys place key } }

/-- CLAIM (R542): the first installer key of a module whose installer slots are empty. -/
def execClaim (port : MbPort) (s : State) : Host.Outcome State Fault Refusal :=
  .next (s.mailbox 0x03 port fun r s =>
    let code := if s.unclaimed && r.body.length == keyBytes then 0 else secKey
    s.act 0x03 nobody code (keyArg 1 0 r.body) (quietly fun t => t.setKey (keyPlace 1 0) r.body))

/-- Whether kind and slot of a key operation are valid. -/
def slotNamed (b : List Byte) : Bool := decide (fieldAt b 0 1 ≤ 1 ∧ fieldAt b 1 1 ≤ 7)

/-- Only the installer. -/
def byInstaller : Role → Bool
  | .installer => true
  | _ => false

/-- KEY_SET (R542). -/
def execKeySet (port : MbPort) (s : State) : Host.Outcome State Fault Refusal :=
  .next (s.mailbox 0x04 port fun r s => s.sessionAct 0x04 r byInstaller fun x s =>
    let key := r.body.drop 8
    let code := if slotNamed r.body && fieldAt r.body 2 6 == 0 && r.body.length == 8 + keyBytes then 0 else secKey
    s.act 0x04 x.actor code (keyArg (fieldAt r.body 0 1) (fieldAt r.body 1 1) key)
      (quietly fun t => t.setKey (keyPlace (fieldAt r.body 0 1) (fieldAt r.body 1 1)) key))

/-- Whether clearing a slot would empty the last installer slot. -/
def State.lastInstaller (s : State) (place : Nat) : Bool :=
  decide (8 ≤ place) && (sfind s.sec.keys place).isSome && (s.sec.keys.filter fun k => decide (8 ≤ k.1)).length == 1

/-- KEY_CLEAR (R542). -/
def execKeyClear (port : MbPort) (s : State) : Host.Outcome State Fault Refusal :=
  .next (s.mailbox 0x05 port fun r s => s.sessionAct 0x05 r byInstaller fun x s =>
    let place := keyPlace (fieldAt r.body 0 1) (fieldAt r.body 1 1)
    let code := if slotNamed r.body && decide (2 ≤ r.body.length) && !s.lastInstaller place then 0 else secKey
    s.act 0x05 x.actor code (keyArg (fieldAt r.body 0 1) (fieldAt r.body 1 1) [])
      (quietly fun t => { t with sec := { t.sec with keys := sdel t.sec.keys place } }))

/-- Whether a policy record keeps the ranges of R544. -/
def State.policyOk (s : State) (b : List Byte) : Bool :=
  b.length == 64 && fieldAt b 0 1 == 1 && decide (fieldAt b 1 1 < 8) && decide (fieldAt b 2 1 ≤ 2) && fieldAt b 3 1 == 0 &&
    decide (s.get Reg.SEC_BOUNDS_PCAP_MIN ≤ fieldAt b 4 2 ∧ fieldAt b 4 2 ≤ s.get Reg.SEC_BOUNDS_PCAP_MAX) &&
    decide (fieldAt b 8 1 < 32) && fieldAt b 9 55 == 0

/-- POLICY_SET (R544): the record waits for the next module reset. -/
def execPolicySet (port : MbPort) (s : State) : Host.Outcome State Fault Refusal :=
  .next (s.mailbox 0x06 port fun r s => s.sessionAct 0x06 r byInstaller fun x s =>
    s.act 0x06 x.actor (if s.policyOk r.body then 0 else secPolicy) (r.body.take 32)
      (quietly fun t => { t with sec := { t.sec with policy := r.body } }))

/-- POLICY_GET (R542): not audited. -/
def execPolicyGet (port : MbPort) (s : State) : Host.Outcome State Fault Refusal :=
  .next (s.mailbox 0x07 port fun r s =>
    if (s.sessionBy r.key).isSome then (s, 0, s.sec.policy) else (s, secRole, []))

/-- UNCLAIM (R542, R545). -/
def execUnclaim (port : MbPort) (s : State) : Host.Outcome State Fault Refusal :=
  .next (s.mailbox 0x0B port fun r s => s.sessionAct 0x09 r (· == .maker) fun x s =>
    s.act 0x09 x.actor 0 [] (quietly fun t =>
      { t with sec := { t.sec with
          keys := [], policy := patch factoryPolicy 4 (leBytes 2 (t.get Reg.SEC_BOUNDS_PCAP_MAX)) } }))

/-! ### Firmware images (R534, R547-R549) -/

/-- The context string KX2-FW. -/
def ctxFirmware : List Byte := [0x4B, 0x58, 0x32, 0x2D, 0x46, 0x57]

/-- What an image says of itself, by its header (R547). -/
def imageOf (b : List Byte) : FwImage := ⟨fieldAt b 8 4, (b.drop 24).take 64, true⟩

/-- Whether an image is valid (R548): header, key, minimum SVN, digest and signature. -/
def State.validImage (s : State) (b : List Byte) : Bool :=
  fieldAt b 0 4 == 0x4B324657 && fieldAt b 4 2 == 1 && fieldAt b 6 2 == 0 && fieldAt b 12 4 == 0 && fieldAt b 16 8 == b.length &&
    decide (16384 ≤ b.length ∧ b.length ≤ 2 ^ 28 ∧ fieldAt b 8 4 < 64) && fieldAt b 5349 2843 == 0 &&
    shake256 32 ((b.drop 88).take keyBytes) == s.sec.fwKeyHash && decide (s.get Reg.SEC_SVN_MINIMUM ≤ fieldAt b 8 4) &&
    shake256 64 (b.take 24 ++ b.drop 8192) == (b.drop 24).take 64 &&
    Config.mldsaVerify ((b.drop 88).take keyBytes) ctxFirmware ((b.drop 24).take 64) ((b.drop 2040).take 3309)

/-- ARG of FW_UPDATE and RECOVERY (R553). -/
def imageArg (b : List Byte) : List Byte := leBytes 4 (fieldAt b 8 4) ++ (b.drop 24).take 28

/-- Stores an image in the slot. -/
def State.setImage (s : State) (b : List Byte) : State := { s with sec := { s.sec with image := imageOf b } }

/-- Code of an update with an image that could be read (R549). -/
def State.imageCode (s : State) (b : List Byte) : Nat :=
  if !s.validImage b then secImage
  else if fieldAt b 8 4 < s.get Reg.SEC_SVN_RUNNING then secRollback
  else 0

/-- FW_UPDATE (R549): the image is read for the host; it runs from the next module reset. -/
def execFwUpdate (port : MbPort) (s : State) : Host.Outcome State Fault Refusal :=
  .next (s.mailbox 0x08 port fun r s => s.sessionAct 0x07 r (· != .operator) fun x s =>
    if 1 < s.powerState || s.pwr.phase != .ready then s.act 0x07 x.actor secPower [] (quietly id)
    else if 2 ^ 28 < fieldAt r.body 8 8 then s.act 0x07 x.actor secImage [] (quietly id)
    else
      let (s, c, b) := s.readMem asHost (fieldAt r.body 0 8) (fieldAt r.body 8 8)
      if c ≠ 0 then s.act 0x07 x.actor c [] (quietly id)
      else s.act 0x07 x.actor (s.imageCode b) (imageArg b) (quietly fun t => t.setImage b))

/-- The recovery load fails with a code (R534). -/
def State.recoveryFailed (s : State) (code : Nat) : State :=
  (s.put Reg.HIF_RCV_STAT_STATE 3).put Reg.HIF_RCV_STAT_CODE code

/-- A write of 1 to HIF_RCV_CTL.GO (R534). A verified image is written, and tinder's module reset follows. -/
def State.recoveryLoad (s : State) : State :=
  let n := s.get Reg.HIF_RCV_LEN_BYTES
  let st := s.get Reg.HIF_RCV_STAT_STATE
  if s.pwr.phase != .recovery then s
  else if s.sec.sessions.isEmpty then s.recoveryFailed secRole
  else if n = 0 || recoveryBytes < n then s.recoveryFailed secImage
  else if st = 1 || st = 2 then s.recoveryFailed secBusy
  else
    let b := s.bytes recoveryKey n
    let a := (s.sec.sessions.head?.map Session.actor).getD nobody
    let code := if s.validImage b then 0 else secImage
    match s.act 0x0A a code (imageArg b) (quietly fun t => t.setImage b) with
    | (t, 0, _) => t.put Reg.HIF_RCV_STAT_STATE 2
    | (t, c, _) => t.recoveryFailed c

/-- RECOVERY_GO (R534). -/
def execRecoveryGo (s : State) : Host.Outcome State Fault Refusal := .next s.recoveryLoad

/-! ### Debug levels (R555) -/

/-- The debug ceiling of a power state (R556). -/
def debugCeiling : Nat → Nat
  | 0 => 3
  | 1 => 3
  | 2 => 2
  | 3 => 1
  | _ => 0

/-- Code of a DEBUG_SET: the first row of R555 that holds. -/
def State.debugCode (s : State) (role : Role) (level : Nat) : Nat :=
  if debugCeiling s.powerState < level then secPower
  else if level = 3 then (if role == .maker then 0 else secDebug)
  else if role != .maker && decide (s.get Reg.SEC_GUARD_POLICY_DBGMAX < level) then secDebug
  else 0

/-- Grants a level. Entering invasive debug closes operator and installer sessions and sets TAINT. -/
def State.grantLevel (s : State) (x : Session) (level : Nat) : MbResult :=
  let s := if level = 3 then (s.endSessions 3 [.operator, .installer]).put Reg.SEC_STATUS_TAINT 1 else s
  let old := s.get Reg.SEC_DBG_LEVEL_LEVEL
  s.act 0x08 x.actor 0 [BitVec.ofNat 8 old, BitVec.ofNat 8 level] (quietly fun t =>
    { t with sec := { t.sec with levelOwner := some x.role } }.levelIs level)

/-- DEBUG_SET (R555). -/
def execDebugSet (port : MbPort) (s : State) : Host.Outcome State Fault Refusal :=
  .next (s.mailbox 0x09 port fun r s => s.sessionAct 0x08 r (fun _ => true) fun x s =>
    let level := fieldAt r.body 0 1
    let code := s.debugCode x.role level
    if code ≠ 0 then
      s.act 0x08 x.actor code [BitVec.ofNat 8 (s.get Reg.SEC_DBG_LEVEL_LEVEL), BitVec.ofNat 8 level] (quietly id)
    else if !s.board.flashOk then (s, secAudit, [])
    else s.grantLevel x level)

/-! ### AUDIT_READ and the guard lock -/

/-- An audit entry by index; zeros where the log no longer or not yet holds it (DESIGN CHOICE, log entry 42). -/
def State.auditAt (s : State) (i : Nat) : List Byte :=
  let n := s.get Reg.SEC_AUDIT_CNT_COUNT
  if i < n && decide (n ≤ i + 4096) then (sfind s.sec.audit (i % 4096)).getD (List.replicate 128 0) else List.replicate 128 0

/-- AUDIT_READ (R542): not audited; a count outside 1 to 120 is a malformed request (DESIGN CHOICE, log entry 42). -/
def execAuditRead (port : MbPort) (s : State) : Host.Outcome State Fault Refusal :=
  .next (s.mailbox 0x0A port fun r s =>
    let n := fieldAt r.body 8 4
    if (s.sessionBy r.key).isNone || n = 0 || 120 < n then (s, secRole, [])
    else (s, 0, (List.range n).flatMap fun i => s.auditAt (fieldAt r.body 0 8 + i)))

/-- GUARD_LOCK (R543): only a module reset clears the lock. -/
def execGuardLock (v : BitVec 64) (s : State) : Host.Outcome State Fault Refusal :=
  .next (if bit v.toNat 0 then s.put Reg.SEC_GUARD_LOCK_LOCK 1 else s)

end Sys2Proof.Machine
end

