-- ==== Sys2Proof/Machine/Debug.lean ====
section
/-! DEFINITION. Debug and telemetry (R585-R597): trace windows, event counters, the telemetry stream, pace monitors, the rate of
corrected errors, scrubbing, and the pins of the signal mezzanine that events change (R605, R607). -/

namespace Sys2Proof.Machine

/-! ### Trace windows (R592, R595) -/

/-- Whether the configuration claims a window for another feature than trace or the telemetry stream. -/
def State.windowClaimed (s : State) (n : Nat) : Bool :=
  s.cfg.active.claims.any fun c => c.covers 4 n && bits c.claimant 16 8 != 3 && bits c.claimant 16 8 != 4

/-- Whether a buffer of 2^log bytes is mapped and aligned to its size; sizes outside the register's range are not (R598). -/
def State.bufferMapped (s : State) (a log : Nat) : Bool :=
  let n := 2 ^ log
  decide (12 ≤ log ∧ log ≤ 36) && a % n == 0 && (s.place (a + n - 1)).isSome &&
    (List.range ((n - 1) / 2 ^ 30 + 1)).all fun i => (s.place (a + 2 ^ 30 * i)).isSome

/-- Whether a buffer overlaps a region of mode 1 or 2, the hearth memories that no region covers included (R325, R592). -/
def State.bufferOwned (s : State) (a log : Nat) : Bool :=
  s.overOwned a (2 ^ log) || decide (hearthBase ≤ a ∧ a < hearthBase + 0xC0000000)

/-- What refuses a request for window n: the first row of R592 that holds, 0 for none. -/
def State.windowCode (s : State) (n : Nat) : Nat :=
  let a := s.get (Reg.DBG_TW_BASE_ADDR n) * 64
  let log := s.get (Reg.DBG_TW_SIZE_LOG2SIZE n)
  let needed := if s.get (Reg.DBG_TW_CTL_SOURCE n) = 6 then 1 else 2
  if s.get Reg.SEC_DBG_LEVEL_LEVEL < needed then secDebug
  else if s.windowClaimed n then cfgClaimed
  else if !s.bufferMapped a log then memUnmapped
  else if s.bufferOwned a log then memAccess
  else 0

/-- Window n is armed, with nothing written and nothing dropped. -/
def State.arm (s : State) (n : Nat) : State :=
  let s := ((s.put (Reg.DBG_TW_CTL_EN n) 1).put (Reg.DBG_TW_CTL_FULL n) 0).orInto Reg.DBG_STATUS_ARMED (2 ^ n)
  let s := (s.put (Reg.DBG_TW_WPTR_COUNT n) 0).put (Reg.DBG_TW_DROPS_COUNT n) 0
  { s with dbg := { s.dbg with drops := sdel s.dbg.drops n, twStoke := sdel s.dbg.twStoke n } }

/-- A write of DBG_TW_CTL of window n: a refused request leaves EN at 0 and its code in DBG_ERR. -/
def State.writeWindow (s : State) (n v : Nat) : State :=
  let s := ((s.put (Reg.DBG_TW_CTL_STOP n) (bits v 1 1)).put (Reg.DBG_TW_CTL_SOURCE n) (bits v 3 4)).put
    (Reg.DBG_TW_CTL_CLASSMASK n) (bits v 7 9)
  let s := s.put (Reg.DBG_TW_CTL_UNIT n) (bits v 16 16)
  if !bit v 0 then s.disarm [n]
  else
    let code := s.windowCode n
    if code = 0 then s.arm n
    else (s.disarm [n]).firstErr Reg.DBG_ERR_VALID Reg.DBG_ERR_CODE code [(Reg.DBG_ERR_WINDOW, n)]

/-- TRACE_WINDOW_ARM (R592). -/
def execTraceWindowArm (n : Fin 16) (v : BitVec 64) (s : State) : Host.Outcome State Fault Refusal :=
  .next (s.writeWindow n v.toNat)

/-! ### Event counters (R591) -/

/-- A write of DBG_PMC_CTL: FREEZE is stored, CLEAR sets every count to 0. -/
def State.writePmcCtl (s : State) (v : Nat) : State :=
  let s := s.put Reg.DBG_PMC_CTL_FREEZE (bits v 0 1)
  if bit v 1 then (List.range 16).foldl (fun t n => t.put (Reg.DBG_PMC_CNT_COUNT n) 0) s else s

/-- PMC_FREEZE (R591). -/
def execPmcFreeze (v : BitVec 64) (s : State) : Host.Outcome State Fault Refusal := .next (s.writePmcCtl v.toNat)

/-- PMC_CLEAR (R591). -/
def execPmcClear (v : BitVec 64) (s : State) : Host.Outcome State Fault Refusal := .next (s.writePmcCtl v.toNat)

/-! ### Telemetry and pace (R590, R596) -/

/-- The lowest of a list, 0 for an empty one. -/
def lowest : List Nat → Nat
  | [] => 0
  | x :: xs => xs.foldl Nat.min x

/-- The 64 bytes of a telemetry record (R596). -/
def State.telemetry (s : State) : List Byte :=
  leBytes 8 s.now ++ leBytes 2 (s.get Reg.PWR_INPUT_PAVG) ++ leBytes 2 (s.get Reg.PWR_INPUT_VIN) ++
    leBytes 2 (s.get Reg.PWR_VOLT_TARGET) ++ leBytes 1 (s.get Reg.PWR_THERM_TJ) ++ leBytes 1 (s.get Reg.PWR_THERM_THBM) ++
    leBytes 1 (s.get Reg.PWR_THERM_TIN) ++ leBytes 1 (s.get Reg.PWR_THERM_TOUT) ++ leBytes 1 (s.get Reg.PWR_STATUS_PSTATE) ++
    leBytes 1 s.stepState ++
    ((List.range 8).flatMap fun d => leBytes 4 (lowest ((dieKilns d).map fun k => s.get (Reg.DBG_PACE_LAST k)) / 4)) ++
    leBytes 4 (s.get Reg.COL_STEP_NUM_STEP) ++ List.replicate 8 0

/-- Whether the telemetry stream runs: enabled, at level 1 or above. -/
def State.telemetryOn (s : State) : Bool := s.isSet Reg.DBG_TEL_CTL_EN && decide (1 ≤ s.get Reg.SEC_DBG_LEVEL_LEVEL)

/-- Stokes between telemetry records; a PERIOD below 125 counts as 125. -/
def State.telemetryPeriod (s : State) : Nat := Nat.max 125 (s.get Reg.DBG_TEL_CTL_PERIOD)

/-- TELEMETRY_RECORD (R596): due every PERIOD stokes; it is written into its window if that is armed with source 6. -/
def execTelemetryRecord (s : State) : Host.Outcome State Fault Refusal :=
  if !s.telemetryOn || s.now < s.dbg.telAt then .next s
  else
    let rec64 := s.telemetry
    let n := s.get Reg.DBG_TEL_CTL_WINDOW
    let s := { s with dbg := { s.dbg with telAt := s.now + s.telemetryPeriod } }
    if bit (s.get Reg.DBG_STATUS_ARMED) n && s.get (Reg.DBG_TW_CTL_SOURCE n) = 6 then
      .next (s.twWrite n [rec64.take 32, rec64.drop 32])
    else .next s

/-- The pace monitor of kiln k at the end of a window: a gated or quarantined kiln writes 0. -/
def State.writePace (s : State) (k count : Nat) : State :=
  let c := if s.quarantined k || (s.kiln k).gated then 0 else count % 2 ^ 32
  let s := s.put (Reg.DBG_PACE_LAST k) c
  let low := s.get (Reg.DBG_PACE_LOW k)
  if c ≠ 0 ∧ (low = 0 ∨ c < low) then s.put (Reg.DBG_PACE_LOW k) c else s

/-- PACE_WINDOW (R590): the end of a window of 1,250 stokes, while the compute dies have power. -/
def execPaceWindow (counts : List (BitVec 32)) (s : State) : Host.Outcome State Fault Refusal :=
  if !s.powered || 1 < s.powerState || s.now < s.dbg.paceAt then .next s
  else
    let s := { s with dbg := { s.dbg with paceAt := s.now + 1250 } }
    .next ((List.range 32).foldl (fun t k => t.writePace k (counts.getD k 0).toNat) s)

/-! ### Corrected errors and scrubbing (R343, R345, R346) -/

/-- Tier and index of a source, and its key in the counts of a second. -/
def ceKey : CeSource → Nat × Nat
  | .stack n => (1, n)
  | .channel n => (2, n)

/-- CORRECTED_ERROR_RATE (R343): one event of class 9, kind 0x04, for a source that has passed the threshold in this second;
DATA holds tier and index. -/
def execCorrectedErrorRate (src : CeSource) (s : State) : Host.Outcome State Fault Refusal :=
  let k := ceKey src
  let key := k.1 * 1024 + k.2
  if s.get Reg.MEM_CE_THRESH_THRESH < sget 0 s.dbg.ceSecond key && !s.dbg.ceRaised.contains key then
    .next ({ s with dbg := { s.dbg with ceRaised := key :: s.dbg.ceRaised } }.raise 9 0x04 0xFFFF 0 (k.1 * 256 + k.2))
  else .next s

/-- The scrubber (R326). -/
def asScrubber : Who := { unit := 0xFFFF, exempt := true }

/-- What the scrubber does about one marked block of a line at device address `a`, key `k`. -/
def State.scrubMark (s : State) (a k : Nat) (m : Nat × EccMark) : State :=
  match m.2 with
  | .corrected => { s with ecc := s.ecc.filter (· != m) }.correctedError asScrubber (a + (m.1 - k)) (Nat.max k m.1) true
  | .uncorrectable => (s.ueFound asScrubber (a + (m.1 - k)) (Nat.max k m.1) true).settle

/-- Whether the scrubber reads a key: live tier or peat tier, as MEM_SCRUB_CTL enables them. -/
def State.scrubs (s : State) (k : Nat) : Bool :=
  if k < 2 ^ 42 then s.isSet Reg.MEM_SCRUB_CTL_LIVE && !s.quarantined (k / stackBytes)
  else decide (k < hearthBase) && s.isSet Reg.MEM_SCRUB_CTL_PEAT

/-- SCRUB (R345, R346): the 64-byte line at an address; no value changes and no step is vetoed. -/
def execScrub (addr : BitVec 48) (s : State) : Host.Outcome State Fault Refusal :=
  let a := addr.toNat / 64 * 64
  match s.place a with
  | none => .next s
  | some k =>
    if s.powered && decide (s.powerState ≤ 1) && s.scrubs k then .next ((s.marks k 64).foldl (fun t m => t.scrubMark a k m) s)
    else .next s

/-! ### Status outputs and feature pins (R605-R607) -/

/-- MOD_ALERT_N_RELEASE (R605). -/
def execModAlertNRelease (s : State) : Host.Outcome State Fault Refusal := .next { s with dbg := { s.dbg with alert := false } }

/-- MOD_READY (R575, R605). -/
def State.modReady (s : State) : Bool :=
  match s.pwr.phase with
  | .starting => true
  | .ready => true
  | .recovery => true
  | _ => false

/-- MOD_ALERT_N (R605); false is low. -/
def State.modAlertN (s : State) : Bool := !s.dbg.alert

/-- MOD_THERM_N (R605). -/
def State.modThermN (s : State) : Bool := !(s.pwr.thermTrip || s.isSet Reg.PWR_STATUS_THROTTLE)

/-- MOD_FAULT_N (R605). -/
def State.modFaultN (s : State) : Bool := !s.isSet Reg.PWR_STATUS_HALTED

/-- FEATURE_PIN_INPUT_CHANGE (R607): the level at the pin; each stoke edge samples it. -/
def execFeaturePinInputChange (pin : Fin 16) (level : Bool) (s : State) : Host.Outcome State Fault Refusal :=
  .next { s with board := { s.board with
    pins := BitVec.ofNat 16 (withBits s.board.pins.toNat pin.val 1 (if level then 1 else 0)) } }

end Sys2Proof.Machine
end

