-- ==== Sys2Proof/Machine/RegAccess.lean ====
section
/-! DEFINITION. Register accesses (R12-R18, R517-R521, R533, R586): what a read returns, what a write does, and the MSI-X table. -/

namespace Sys2Proof.Machine

/-! ### Places -/

/-- Whether a BAR0 offset lies in a reserved range (R517). -/
def reservedOffset (off : Nat) : Bool := decide (0xB00000 ≤ off ∧ off < 0x1000000) || decide (0x2000000 ≤ off)

/-- Whether the function serves a BAR0 offset: in recovery only the host interface, security and power blocks (R533). -/
def State.serves (s : State) (off : Nat) : Bool :=
  !s.hif.recovery || decide (0x100000 ≤ off ∧ off < 0x200000) || decide (0x700000 ≤ off ∧ off < 0x900000)

/-- Whether an access lies in the MSI-X table or the PBA (R530). -/
def msixPlace (off : Nat) : Bool := decide (0x110000 ≤ off ∧ off < 0x118100)

/-- Whether an access has a form that its place takes: 64 bits aligned, or in the MSI-X table also 32 (R12, R13, R519). -/
def accessFits (off size : Nat) : Bool :=
  (size == 8 && off % 8 == 0) || (msixPlace off && size == 4 && off % 4 == 0)

/-- Whether an access through BAR0 is a bad access (R518). -/
def State.isBad (s : State) (off size : Nat) : Bool := reservedOffset off || !s.serves off || !accessFits off size

/-- The debug level that a register belongs to (R585), by the base of its table row. -/
def levelOf (base : Nat) : Nat :=
  if base = 0x1010450 then 3 else if base = 0x900100 || base = 0x900200 || base = 0x900208 then 1 else 0

/-! ### Values that the module computes when they are read -/

/-- The live marks of the slots of a table kind in a hearth, one bit each (R251). -/
def State.liveMarks (s : State) (h kind n : Nat) : Nat :=
  (List.range n).foldl (fun m i => if (s.table h kind i).live then m + 2 ^ i else m) 0

/-- Operations in flight, those of a die or all. -/
def State.opsInFlight (s : State) (die : Option Nat) : Nat :=
  (s.col.runs.map fun r => (r.flight.filter fun f => match die with
    | some d => s.opKilns r.id f.op / 2 ^ (4 * d) % 16 != 0
    | none => true).length).foldl (· + ·) 0

/-- Stokes left in the longest lockout, in units of 4,096 rounded up (R558). -/
def State.lockoutLeft (s : State) : Nat :=
  (s.sec.lockouts.map fun x => (x.2 - s.now + 4095) / 4096).foldl Nat.max 0

/-- Steps ahead of the one to be opened with every micro-batch ready (R321). -/
def State.readySteps (s : State) : Nat :=
  Nat.min 8 ((s.prepared 0).filter fun p => !s.isOpened p && decide (s.get Reg.COL_STEP_NEXT_NEXT ≤ p.step) &&
    p.ready.length == (s.bind 0).batches).length

/-- The word that EMB_DBG_DATA selects at level invasive (R112, R176). -/
def State.inspect (s : State) (h e : Nat) : Nat :=
  let slot := s.get (Reg.EMB_DBG_CTL_SLOT h e)
  let word := s.get (Reg.EMB_DBG_CTL_WORD h e)
  if 192 ≤ slot || 12 ≤ word then 0
  else match sfind (s.ember (8 * h + e)).slots slot with
    | none => 0
    | some x => match sfind x.elems (s.get (Reg.EMB_DBG_CTL_ELEM h e)) with
      | none => 0
      | some y => fieldAt (y.record x.mode) (8 * word) 8

/-- A word of the module error log entry that DBG_ELOG_IDX names (R597). -/
def State.elogWord (s : State) (i : Nat) : Nat :=
  match sfind s.dbg.elog (s.get Reg.DBG_ELOG_IDX_INDEX) with
  | some e => fieldAt e (8 * i) 8
  | none => 0

/-- MC_FP_OUT (R616): driven pins with their levels; an open-drain output that is released is not driven. -/
def State.pinsOut (s : State) : Nat :=
  s.pins.driven.foldl (fun m p => m + 2 ^ (16 + p.1) + if p.2 then 2 ^ p.1 else 0) 0

/-- Clock-gating view of a kiln (R280). -/
def State.gateView (s : State) (k : Nat) : Nat :=
  let x := s.kiln k
  (if x.gated then 1 else 0) + (if x.wakeAt.isSome then 2 else 0) + (if s.kilnEmpty k then 0 else 4) + 2 ^ 32 * (x.idle % 2 ^ 32)

/-- Entries of the live route slice with VALID set (R266). -/
def State.validRoutes (s : State) (k : Nat) : Nat := ((s.kiln k).route.filter fun r => bit r.2.toNat 4).length

/-- What a read of copy i of the register at table base `base` returns, where `w` is its stored word. -/
def State.viewOf (s : State) (base i w : Nat) : Nat :=
  match base with
  | 0x20 => s.pinsOut
  | 0x100200 => if s.isSet Reg.SEC_GUARD_POLICY_B4OFF then withBits w 0 1 0 else w
  | 0x200000 => withBits (withBits w 0 9 s.col.started.length) 9 1 (if s.stepOpen then 1 else 0)
  | 0x200008 => s.opsInFlight none
  | 0x200040 => s.opsInFlight (some i)
  | 0x400008 => s.get Reg.COL_STEP_NEXT_NEXT
  | 0x400010 => s.readySteps
  | 0x700000 => withBits w 3 1 (if s.unclaimed then 1 else 0)
  | 0x700088 => withBits w 32 32 s.lockoutLeft
  | 0x900000 => withBits w 0 2 (s.get Reg.SEC_DBG_LEVEL_LEVEL)
  | 0x900030 => s.elogWord i
  | 0xA00100 => withBits w 6 1 (if s.partnerUp then 1 else 0)
  | 0x1000408 => s.gateView i
  | 0x1000418 => withBits (withBits w 0 1 (if (s.kiln i).routeLive then 1 else 0)) 16 14 (s.validRoutes i)
  | 0x1010060 => s.liveMarks i kindBook 64
  | 0x1010068 => s.liveMarks i kindPwl 32 + 2 ^ 32 * s.liveMarks i kindProg 32
  | 0x1010070 => match (s.hearth i).built with
    | [] => w
    | slot :: _ => withBits (withBits w 1 1 1) 2 6 slot
  | 0x1010400 => withBits w 6 1 (if s.quarantined (kilnOf (i / 8)) then 1 else 0)
  | 0x1010450 => s.inspect (i / 8) (i % 8)
  | _ => w

/-- A word with its write-only fields reading as 0 (R14). -/
def hideWo (r : RegSpec) (w : Nat) : Nat :=
  r.fields.foldl (fun x f => if f.acc = .wo then withBits x f.lo f.w 0 else x) w

/-- Reads the register at a BAR0 offset: 0 where the tables give none, and a violation above the debug level in effect
(R15, R586). -/
def State.readReg (s : State) (off : Nat) : State × Nat :=
  match regAt off with
  | none => (s, 0)
  | some r =>
    if s.get Reg.SEC_DBG_LEVEL_LEVEL < levelOf r.base then (s.violation 2, 0)
    else (s, hideWo r (s.viewOf r.base ((copyOf (off - r.base) r.dims).getD 0) (s.word off (r.resetAt off))))

/-! ### The MSI-X table (R519, R530) -/

/-- Bytes of the table or the PBA from an offset on. -/
def State.readMsix (s : State) (off size : Nat) : Nat :=
  if off < 0x118000 then bits (s.msixVec ((off - 0x110000) / 16)) (off % 16 * 8) (size * 8)
  else bits (s.hif.pba.foldl (fun m v => m ||| 2 ^ v) 0) ((off - 0x118000) * 8) (size * 8)

/-- A write to the table; the pending bits are read-only. -/
def State.writeMsix (s : State) (off size v : Nat) : State :=
  if off < 0x118000 then
    let n := (off - 0x110000) / 16
    let x := withBits (s.msixVec n) (off % 16 * 8) (size * 8) v
    -- of the vector control word only the mask bit exists
    s.setVector n (BitVec.ofNat 128 (withBits x 97 31 0))
  else s

/-! ### Writes -/

/-- A written word by the access type of each field (R14); `locked` is the guard lock. -/
def writtenWord (r : RegSpec) (locked : Bool) (old v : Nat) : Nat :=
  r.fields.foldl (fun w f =>
    let x := bits v f.lo f.w
    match f.acc with
    | .ro => w
    | .wo => w
    | .rw => withBits w f.lo f.w x
    | .rws => withBits w f.lo f.w x
    | .bl => if locked then w else withBits w f.lo f.w x
    | .w1c => withBits w f.lo f.w (bits w f.lo f.w &&& (2 ^ f.w - 1 - x))
    | .w1s => withBits w f.lo f.w (bits w f.lo f.w ||| x)
    | .w1cTop n => if x % 2 = 1 then withBits (withBits w 0 n 0) f.lo f.w 0 else w) old

/-- Whether a register has a BL field. -/
def RegSpec.hasBl (r : RegSpec) : Bool := r.fields.any fun f => f.acc = .bl

/-- Writes a register without behaviour of its own; one with BL fields after the lock is a violation (R543). -/
def State.writePlain (s : State) (r : RegSpec) (off v : Nat) : State :=
  let locked := s.isSet Reg.SEC_GUARD_LOCK_LOCK
  let s := s.setWord off (r.resetAt off) (writtenWord r locked (s.word off (r.resetAt off)) v)
  if locked && r.hasBl then s.violation 1 else s

/-- The state that a command leads to. -/
def after (s : State) : Host.Outcome State Fault Refusal → State
  | .next t => t
  | _ => s

/-- Starts the request in the mailbox buffer (R541): an operation that R542 does not know completes with SEC_ROLE. -/
def State.mailboxGo (s : State) (port : MbPort) : State :=
  match s.mbRequest.op with
  | 0x01 => after s (execSecOpen port s)
  | 0x02 => after s (execSecClose port s)
  | 0x03 => after s (execClaim port s)
  | 0x04 => after s (execKeySet port s)
  | 0x05 => after s (execKeyClear port s)
  | 0x06 => after s (execPolicySet port s)
  | 0x07 => after s (execPolicyGet port s)
  | 0x08 => after s (execFwUpdate port s)
  | 0x09 => after s (execDebugSet port s)
  | 0x0A => after s (execAuditRead port s)
  | 0x0B => after s (execUnclaim port s)
  | _ => s.mbTake port fun _ t => (t, secRole, [])

/-- A write of copy i of a register with an effect of its own, by the base of its table row; none for the others. -/
def State.writeActing (s : State) (r : RegSpec) (off i v : Nat) : Option State :=
  let b := BitVec.ofNat 64 v
  let plain := s.writePlain r off v
  match r.base with
  | 0x100040 => some (if bit v 0 then after s (execRecoveryGo s) else s)
  | 0x100200 => some (if s.isSet Reg.SEC_GUARD_POLICY_B4OFF then plain.put (Reg.HIF_B4_SEG_EN i) (s.get (Reg.HIF_B4_SEG_EN i)) else plain)
  | 0x200410 => some (if s.quiet then plain else s)
  | 0x200420 => some (if s.quiet then plain else s)
  | 0x201008 => some (after s (execSqEnableWrite (Fin.ofNat 64 i) b s))
  | 0x201028 => some (after s (execCqEnableWrite (Fin.ofNat 64 i) b s))
  | 0x301018 => some (s.ringTail i (bits v 0 40))
  | 0x600000 => some (if bit v 0 then after s (execFabricTrain s.board.links s) else s)
  | 0x600028 => some (after s (execRankDown b s))
  | 0x600808 => some (after s (execPairRetrain b s.board.links s))
  | 0x601008 => some (after s (execPortRetrain (Fin.ofNat 16 i) b s))
  | 0x601408 => some (after s (execPortRetrain (Fin.ofNat 16 (12 + i)) b s))
  | 0x700028 => some (if bit v 0 then s.mailboxGo .bar0 else s)
  | 0x700040 => some (after s (execGuardLock b s))
  | 0x800008 => some (after s (execPowerStateRequest b s))
  | 0x800010 => some (s.writePwrReset v)
  | 0x800018 => some (after s (execKilnReset b s))
  | 0x800030 => some (after s (execCapWrite b s))
  | 0x900010 => some (s.writePmcCtl v)
  | 0x900018 => some (if !s.isSet Reg.DBG_TEL_CTL_EN && bit v 0 then
      { plain with dbg := { plain.dbg with telAt := plain.now + plain.telemetryPeriod } } else plain)
  | 0x901000 => some (s.writeWindow i v)
  | 0xA00158 => some (after s (execBnkStoreHostCountWrite .hhead b s))
  | 0xA00160 => some (after s (execBnkStoreHostCountWrite .htail b s))
  | 0x1010420 => some (if bit v 0 then
      (plain.dropRegs fun o => o == off + 8 || o == off + 16) else plain)
  | _ => none

/-- Writes the register at a BAR0 offset; a write above the debug level in effect is discarded as a violation (R586). -/
def State.writeReg (s : State) (off v : Nat) : State :=
  match regAt off with
  | none => s
  | some r =>
    if s.get Reg.SEC_DBG_LEVEL_LEVEL < levelOf r.base then s.violation 2
    else (s.writeActing r off ((copyOf (off - r.base) r.dims).getD 0) v).getD (s.writePlain r off v)

/-! ### Accesses through BAR0 and BAR2 -/

/-- A read that returns bytes to the host. -/
def State.giveRead (s : State) (size v : Nat) : State := (s.emit (.readData (leBytes size v))).linkTx size

/-- A bad read returns all ones (R13, R518). -/
def State.badRead (s : State) (bar off size : Nat) : State := (s.badAccess bar off size false).giveRead size (2 ^ (8 * size) - 1)

/-- A read through BAR0. -/
def State.bar0Read (s : State) (off size : Nat) : State :=
  if s.isBad off size then s.badRead 0 off size
  else if msixPlace off then s.giveRead size (s.readMsix off size)
  else
    let (t, v) := s.readReg off
    t.giveRead size v

/-- A write through BAR0. -/
def State.bar0Write (s : State) (off size v : Nat) : State :=
  let s := s.linkRx size
  if s.isBad off size then s.badAccess 0 off size true
  else if msixPlace off then s.writeMsix off size v
  else s.writeReg off v

/-- What a doorbell page of BAR2 returns to a read; none for other offsets (R520). -/
def State.doorbellView (s : State) (off : Nat) : Option Nat :=
  let n := off / 0x1000 % 64
  if off % 0x1000 ≠ 0 then none
  else if off < 0x40000 then some (s.get (Reg.COL_SQ_TAIL_TAIL n))
  else if off < 0x80000 then some (s.get (Reg.COL_CQ_HEAD_HEAD n))
  else if off < 0xA0000 then some (s.get (Reg.ING_KR_TAIL_TAIL n))
  else none

/-- A read through BAR2. -/
def State.bar2Read (s : State) (off size : Nat) : State :=
  match if size = 8 then s.doorbellView off else none with
  | some v => s.giveRead 8 v
  | none => s.badRead 1 off size

/-- A write through BAR2: a doorbell (R520, R521), or a bad access. -/
def State.bar2Write (s : State) (off size v : Nat) : State :=
  let a : DoorbellWrite := ⟨BitVec.ofNat 12 off, BitVec.ofNat 8 size, BitVec.ofNat 64 v⟩
  let n := off / 0x1000 % 64
  if off < 0x40000 then after s (execSqTailDoorbell (Fin.ofNat 64 n) a s)
  else if off < 0x80000 then after s (execCqHeadDoorbell (Fin.ofNat 64 n) a s)
  else if off < 0xA0000 then after s (execRingTailDoorbell (Fin.ofNat 32 n) a s)
  else (s.linkRx size).badAccess 1 off size true

/-- Whether the function takes an access through a BAR: BAR2 has 1 MiB and is absent in recovery (R520, R533). -/
def State.takesAccess (s : State) (a : RegAccess) : Bool :=
  s.functionUp && (a.bar == .bar0 || (!s.hif.recovery && decide (a.offset.toNat < 0x100000)))

/-- REGISTER_WRITE (R14). -/
def execRegisterWrite (a : RegAccess) (v : BitVec 64) (s : State) : Host.Outcome State Fault Refusal :=
  if !s.takesAccess a then .next s
  else match a.bar with
    | .bar0 => .next (s.bar0Write a.offset.toNat a.size.toNat v.toNat)
    | .bar2 => .next (s.bar2Write a.offset.toNat a.size.toNat v.toNat)

/-- REGISTER_READ (R13, R518, R520, R586). -/
def execRegisterRead (a : RegAccess) (s : State) : Host.Outcome State Fault Refusal :=
  if !s.takesAccess a then .next s
  else match a.bar with
    | .bar0 => .next (s.bar0Read a.offset.toNat a.size.toNat)
    | .bar2 => .next (s.bar2Read a.offset.toNat a.size.toNat)

/-! ### JTAG (R588, R589) -/

/-- An instruction that the level does not permit selects the bypass register and is a violation. -/
def State.jtagDenied (s : State) : State :=
  { s.violation 2 with jtag := { s.jtag with ir := 0xFF, dr := 0, driving := false } }

/-- Loads an instruction with its data register, which leaves at TDO. -/
def State.jtagLoad (s : State) (ir : BitVec 8) (width : Nat) (dr : BitVec 112) : State :=
  { s with jtag := { s.jtag with ir := ir, dr := dr, driving := false } }.emit (.tdo width dr)

/-- IDCODE (R588): the first stepping. -/
def execIdcode (s : State) : Host.Outcome State Fault Refusal :=
  if s.alive then .next (s.jtagLoad 0x01 32 0x1A320D6D) else .next s

/-- The codes of the TAP's other instructions. -/
def tapCodes : List (BitVec 8) := [0x01, 0x02, 0x03, 0x10]

/-- BYPASS (R588): 0xFF and every code that is no other instruction's. -/
def execBypass (ir : BitVec 8) (s : State) : Host.Outcome State Fault Refusal :=
  if s.alive && !tapCodes.contains ir then .next (s.jtagLoad 0xFF 1 0) else .next s

/-- SAMPLE/PRELOAD (R588): captures the boundary register, whose width the manual leaves open, and preloads it. -/
def execSamplePreload (preload : BitVec 64) (s : State) : Host.Outcome State Fault Refusal :=
  if !s.alive then .next s
  else if s.get Reg.SEC_DBG_LEVEL_LEVEL < 2 then .next s.jtagDenied
  else
    let t := s.jtagLoad 0x02 64 ((Config.boundarySample s.rand).setWidth 112)
    .next ({ t with jtag := { t.jtag with boundary := preload } }.nextRand)

/-- EXTEST (R588): the boundary register drives the pins until another instruction is loaded. -/
def execExtest (pins : BitVec 64) (s : State) : Host.Outcome State Fault Refusal :=
  if !s.alive then .next s
  else if s.get Reg.SEC_DBG_LEVEL_LEVEL < 3 || 1 < s.powerState then .next s.jtagDenied
  else
    let t := s.jtagLoad 0x03 64 (pins.setWidth 112)
    .next { t with jtag := { t.jtag with boundary := pins, driving := true } }

/-- The data register that DBGACC returns: DATA, the address and WRITE as given, DONE, and CODE. -/
def dbgResult (dr : BitVec 112) (data code : Nat) : BitVec 112 :=
  BitVec.ofNat 112 (data + 2 ^ 64 * bits dr.toNat 64 25 + 2 ^ 89 + 2 ^ 90 * code)

/-- Code of a DBGACC access before it is made (R588, R589): in P3 only the power and security blocks answer, a write needs
level 3, and a register its level. -/
def State.dbgCode (s : State) (off : Nat) (write : Bool) : Nat :=
  let level := s.get Reg.SEC_DBG_LEVEL_LEVEL
  if s.powerState = 3 && !decide (0x700000 ≤ off ∧ off < 0x900000) then secPower
  else if write && decide (level < 3) then secDebug
  else match regAt off with
    | some r => if level < levelOf r.base then secDebug else 0
    | none => 0

/-- The register access of DBGACC. -/
def State.dbgAccess (s : State) (dr : BitVec 112) : State × BitVec 112 :=
  let off := bits dr.toNat 64 24 * 8
  let data := bits dr.toNat 0 64
  let write := bit dr.toNat 88
  let code := s.dbgCode off write
  if code = secDebug then
    (if write && decide (s.get Reg.SEC_DBG_LEVEL_LEVEL < 3) then s else s.violation 2, dbgResult dr 0 code)
  else if code ≠ 0 then (s, dbgResult dr 0 code)
  else if reservedOffset off || !s.serves off then
    (s.badAccess 0 (off % 2 ^ 26) 8 write, dbgResult dr (2 ^ 64 - 1) 0)
  else if write then (if msixPlace off then s.writeMsix off 8 data else s.writeReg off data, dbgResult dr data 0)
  else if msixPlace off then (s, dbgResult dr (s.readMsix off 8) 0)
  else
    let (t, v) := s.readReg off
    (t, dbgResult dr v 0)

/-- DBGACC (R588, R589). -/
def execDbgacc (dr : BitVec 112) (s : State) : Host.Outcome State Fault Refusal :=
  if !s.alive then .next s
  else if s.get Reg.SEC_DBG_LEVEL_LEVEL < 2 then .next s.jtagDenied
  else
    let (t, r) := s.dbgAccess dr
    .next (t.jtagLoad 0x10 112 r)

end Sys2Proof.Machine
end

