-- ==== Sys2Proof/Machine/Dispatch.lean ====
section
/-! DEFINITION. The dispatch: one arm per command, each one call of its meaning. -/

namespace Sys2Proof.Machine

/-- The effect of a command on everything but the queue. -/
def exec (i : Instr) (s : State) : Host.Outcome State Fault Refusal :=
  match i with
  | .loadConfig sq d => Sys2Proof.Machine.execLoadConfig sq d s
  | .configSwitch => Sys2Proof.Machine.execConfigSwitch s
  | .runStep sq d => Sys2Proof.Machine.execRunStep sq d s
  | .commitStep sq d => Sys2Proof.Machine.execCommitStep sq d s
  | .abortStep sq d => Sys2Proof.Machine.execAbortStep sq d s
  | .evalRun sq d => Sys2Proof.Machine.execEvalRun sq d s
  | .bank sq d => Sys2Proof.Machine.execBank sq d s
  | .automaticBank => Sys2Proof.Machine.execAutomaticBank s
  | .rekindle sq d => Sys2Proof.Machine.execRekindle sq d s
  | .adopt sq d => Sys2Proof.Machine.execAdopt sq d s
  | .scanCrc sq d => Sys2Proof.Machine.execScanCrc sq d s
  | .copy sq d => Sys2Proof.Machine.execCopy sq d s
  | .fill sq d => Sys2Proof.Machine.execFill sq d s
  | .ingestBind sq d => Sys2Proof.Machine.execIngestBind sq d s
  | .tableLoad sq d => Sys2Proof.Machine.execTableLoad sq d s
  | .tableSwap sq d => Sys2Proof.Machine.execTableSwap sq d s
  | .fence sq d => Sys2Proof.Machine.execFence sq d s
  | .eventWait sq d => Sys2Proof.Machine.execEventWait sq d s
  | .sqTailDoorbell sq a => Sys2Proof.Machine.execSqTailDoorbell sq a s
  | .cqHeadDoorbell cq a => Sys2Proof.Machine.execCqHeadDoorbell cq a s
  | .sqEnableWrite sq v => Sys2Proof.Machine.execSqEnableWrite sq v s
  | .sqDrainEnd sq => Sys2Proof.Machine.execSqDrainEnd sq s
  | .cqEnableWrite cq v => Sys2Proof.Machine.execCqEnableWrite cq v s
  | .ringTailDoorbell ring a => Sys2Proof.Machine.execRingTailDoorbell ring a s
  | .chunk ring => Sys2Proof.Machine.execChunk ring s
  | .demandIssue b => Sys2Proof.Machine.execDemandIssue b s
  | .demandTimeout b demand => Sys2Proof.Machine.execDemandTimeout b demand s
  | .stepPreparation b => Sys2Proof.Machine.execStepPreparation b s
  | .clipDecode b demand => Sys2Proof.Machine.execClipDecode b demand s
  | .mma h w => Sys2Proof.Machine.execMma h w s
  | .out h w => Sys2Proof.Machine.execOut h w s
  | .clr h w => Sys2Proof.Machine.execClr h w s
  | .bsst h w => Sys2Proof.Machine.execBsst h w s
  | .bsadd h w => Sys2Proof.Machine.execBsadd h w s
  | .kred h w => Sys2Proof.Machine.execKred h w s
  | .rstat h w => Sys2Proof.Machine.execRstat h w s
  | .hbar h w => Sys2Proof.Machine.execHbar h w s
  | .codebookBuild h slot => Sys2Proof.Machine.execCodebookBuild h slot s
  | .vld h w => Sys2Proof.Machine.execVld h w s
  | .vst h w => Sys2Proof.Machine.execVst h w s
  | .vgath h w => Sys2Proof.Machine.execVgath h w s
  | .vscat h w => Sys2Proof.Machine.execVscat h w s
  | .vsplat h w => Sys2Proof.Machine.execVsplat h w s
  | .fadd h w => Sys2Proof.Machine.execFadd h w s
  | .fsub h w => Sys2Proof.Machine.execFsub h w s
  | .fmul h w => Sys2Proof.Machine.execFmul h w s
  | .ffma h w => Sys2Proof.Machine.execFfma h w s
  | .fmin h w => Sys2Proof.Machine.execFmin h w s
  | .fmax h w => Sys2Proof.Machine.execFmax h w s
  | .fdiv h w => Sys2Proof.Machine.execFdiv h w s
  | .fsqrt h w => Sys2Proof.Machine.execFsqrt h w s
  | .fcmp h w => Sys2Proof.Machine.execFcmp h w s
  | .sel h w => Sys2Proof.Machine.execSel h w s
  | .gmul h w => Sys2Proof.Machine.execGmul h w s
  | .gadd h w => Sys2Proof.Machine.execGadd h w s
  | .gsub h w => Sys2Proof.Machine.execGsub h w s
  | .iadd h w => Sys2Proof.Machine.execIadd h w s
  | .isub h w => Sys2Proof.Machine.execIsub h w s
  | .imul h w => Sys2Proof.Machine.execImul h w s
  | .ilog h w => Sys2Proof.Machine.execIlog h w s
  | .ishf h w => Sys2Proof.Machine.execIshf h w s
  | .cvt h w => Sys2Proof.Machine.execCvt h w s
  | .draw h w => Sys2Proof.Machine.execDraw h w s
  | .rand h w => Sys2Proof.Machine.execRand h w s
  | .fn h w => Sys2Proof.Machine.execFn h w s
  | .fnm h w => Sys2Proof.Machine.execFnm h w s
  | .norm h w => Sys2Proof.Machine.execNorm h w s
  | .stcomb h w => Sys2Proof.Machine.execStcomb h w s
  | .smax h w => Sys2Proof.Machine.execSmax h w s
  | .progEnd p op => Sys2Proof.Machine.execProgEnd p op s
  | .runh p op => Sys2Proof.Machine.execRunh p op s
  | .dfence p op => Sys2Proof.Machine.execDfence p op s
  | .mfence p op => Sys2Proof.Machine.execMfence p op s
  | .copyop p op => Sys2Proof.Machine.execCopyop p op s
  | .coll p op => Sys2Proof.Machine.execColl p op s
  | .collectiveTimeout xid => Sys2Proof.Machine.execCollectiveTimeout xid s
  | .route p op => Sys2Proof.Machine.execRoute p op s
  | .dispatch p op remote => Sys2Proof.Machine.execDispatch p op remote s
  | .combine p op returned => Sys2Proof.Machine.execCombine p op returned s
  | .tswap p op => Sys2Proof.Machine.execTswap p op s
  | .owner p op => Sys2Proof.Machine.execOwner p op s
  | .waitmb p op => Sys2Proof.Machine.execWaitmb p op s
  | .sched p op => Sys2Proof.Machine.execSched p op s
  | .ret p op => Sys2Proof.Machine.execRet p op s
  | .call p op => Sys2Proof.Machine.execCall p op s
  | .timer p op => Sys2Proof.Machine.execTimer p op s
  | .timerExpiry t => Sys2Proof.Machine.execTimerExpiry t s
  | .twait p op => Sys2Proof.Machine.execTwait p op s
  | .pin p op => Sys2Proof.Machine.execPin p op s
  | .gnorm p op => Sys2Proof.Machine.execGnorm p op s
  | .voteClose => Sys2Proof.Machine.execVoteClose s
  | .globalResult g => Sys2Proof.Machine.execGlobalResult g s
  | .reductionTimeout => Sys2Proof.Machine.execReductionTimeout s
  | .update p op => Sys2Proof.Machine.execUpdate p op s
  | .stepDrain => Sys2Proof.Machine.execStepDrain s
  | .digestPass => Sys2Proof.Machine.execDigestPass s
  | .digestTimeout => Sys2Proof.Machine.execDigestTimeout s
  | .rxData port f => Sys2Proof.Machine.execRxData port f s
  | .rxVoid port f => Sys2Proof.Machine.execRxVoid port f s
  | .rxAck port f => Sys2Proof.Machine.execRxAck port f s
  | .rxNak port f => Sys2Proof.Machine.execRxNak port f s
  | .rxHello port f => Sys2Proof.Machine.execRxHello port f s
  | .rxRankupd port f => Sys2Proof.Machine.execRxRankupd port f s
  | .rxBankseg port f => Sys2Proof.Machine.execRxBankseg port f s
  | .rxDigest port f => Sys2Proof.Machine.execRxDigest port f s
  | .rxIdle port f => Sys2Proof.Machine.execRxIdle port f s
  | .rxReady port f => Sys2Proof.Machine.execRxReady port f s
  | .idleSend port => Sys2Proof.Machine.execIdleSend port s
  | .ackTimeout port => Sys2Proof.Machine.execAckTimeout port s
  | .portLost port c => Sys2Proof.Machine.execPortLost port c s
  | .fabricTrain peers => Sys2Proof.Machine.execFabricTrain peers s
  | .portRetrain port v => Sys2Proof.Machine.execPortRetrain port v s
  | .rankDown v => Sys2Proof.Machine.execRankDown v s
  | .pairRetrain v peers => Sys2Proof.Machine.execPairRetrain v peers s
  | .pairModeRequest v => Sys2Proof.Machine.execPairModeRequest v s
  | .storeStall => Sys2Proof.Machine.execStoreStall s
  | .kilnQuarantine k => Sys2Proof.Machine.execKilnQuarantine k s
  | .dieFault site => Sys2Proof.Machine.execDieFault site s
  | .watchdog k => Sys2Proof.Machine.execWatchdog k s
  | .kilnGating k => Sys2Proof.Machine.execKilnGating k s
  | .kilnWake k => Sys2Proof.Machine.execKilnWake k s
  | .governorEvaluation g => Sys2Proof.Machine.execGovernorEvaluation g s
  | .thermalTrip sensor idx => Sys2Proof.Machine.execThermalTrip sensor idx s
  | .mainSupplyFault c => Sys2Proof.Machine.execMainSupplyFault c s
  | .computeRailFault die => Sys2Proof.Machine.execComputeRailFault die s
  | .auxSupplyLoss => Sys2Proof.Machine.execAuxSupplyLoss s
  | .powerOnReset => Sys2Proof.Machine.execPowerOnReset s
  | .moduleReset c => Sys2Proof.Machine.execModuleReset c s
  | .warmReset c => Sys2Proof.Machine.execWarmReset c s
  | .pcieReset c => Sys2Proof.Machine.execPcieReset c s
  | .perstRelease => Sys2Proof.Machine.execPerstRelease s
  | .pcieLinkUp speed width => Sys2Proof.Machine.execPcieLinkUp speed width s
  | .startupStepTimeout => Sys2Proof.Machine.execStartupStepTimeout s
  | .kilnReset v => Sys2Proof.Machine.execKilnReset v s
  | .powerStateRequest v => Sys2Proof.Machine.execPowerStateRequest v s
  | .capWrite v => Sys2Proof.Machine.execCapWrite v s
  | .secOpen port => Sys2Proof.Machine.execSecOpen port s
  | .secClose port => Sys2Proof.Machine.execSecClose port s
  | .claim port => Sys2Proof.Machine.execClaim port s
  | .keySet port => Sys2Proof.Machine.execKeySet port s
  | .keyClear port => Sys2Proof.Machine.execKeyClear port s
  | .policySet port => Sys2Proof.Machine.execPolicySet port s
  | .policyGet port => Sys2Proof.Machine.execPolicyGet port s
  | .fwUpdate port => Sys2Proof.Machine.execFwUpdate port s
  | .debugSet port => Sys2Proof.Machine.execDebugSet port s
  | .auditRead port => Sys2Proof.Machine.execAuditRead port s
  | .unclaim port => Sys2Proof.Machine.execUnclaim port s
  | .lockoutExpiry r => Sys2Proof.Machine.execLockoutExpiry r s
  | .guardLock v => Sys2Proof.Machine.execGuardLock v s
  | .recoveryGo => Sys2Proof.Machine.execRecoveryGo s
  | .getCerts => Sys2Proof.Machine.execGetCerts s
  | .getReport nonce => Sys2Proof.Machine.execGetReport nonce s
  | .doeDiscovery index => Sys2Proof.Machine.execDoeDiscovery index s
  | .doeAbort => Sys2Proof.Machine.execDoeAbort s
  | .bar4Access off acc => Sys2Proof.Machine.execBar4Access off acc s
  | .msixUnmask u => Sys2Proof.Machine.execMsixUnmask u s
  | .traceWindowArm n v => Sys2Proof.Machine.execTraceWindowArm n v s
  | .pmcFreeze v => Sys2Proof.Machine.execPmcFreeze v s
  | .pmcClear v => Sys2Proof.Machine.execPmcClear v s
  | .telemetryRecord => Sys2Proof.Machine.execTelemetryRecord s
  | .paceWindow counts => Sys2Proof.Machine.execPaceWindow counts s
  | .correctedErrorRate src => Sys2Proof.Machine.execCorrectedErrorRate src s
  | .scrub addr => Sys2Proof.Machine.execScrub addr s
  | .dbgacc dr => Sys2Proof.Machine.execDbgacc dr s
  | .extest pins => Sys2Proof.Machine.execExtest pins s
  | .samplePreload preload => Sys2Proof.Machine.execSamplePreload preload s
  | .idcode => Sys2Proof.Machine.execIdcode s
  | .bypass ir => Sys2Proof.Machine.execBypass ir s
  | .modAlertNRelease => Sys2Proof.Machine.execModAlertNRelease s
  | .registerWrite a v => Sys2Proof.Machine.execRegisterWrite a v s
  | .waitExpired sq cid => Sys2Proof.Machine.execWaitExpired sq cid s
  | .hostLinkCompletion r => Sys2Proof.Machine.execHostLinkCompletion r s
  | .pcieConfigurationWrite c => Sys2Proof.Machine.execPcieConfigurationWrite c s
  | .registerRead a => Sys2Proof.Machine.execRegisterRead a s
  | .featurePinInputChange pin level => Sys2Proof.Machine.execFeaturePinInputChange pin level s
  | .cordPresenceChange cage present => Sys2Proof.Machine.execCordPresenceChange cage present s
  | .bnkStoreHostCountWrite a v => Sys2Proof.Machine.execBnkStoreHostCountWrite a v s

end Sys2Proof.Machine
end

