-- ==== Sys2Proof/Machine/Tick.lean ====
section
/-! DEFINITION. What one stoke does when no command waits: the stoke counter advances (R10), the feature pins take the levels
of PIN operations and their inputs move along the two-stoke pipeline (R606, R607), idle kilns count (R278), and the event
counters that count stokes or cycles advance (R591). Timeouts and periods are commands of their own that act once the counter
has reached them. -/

namespace Sys2Proof.Machine

/-- Whether the stoke counter runs: from the end of start-up step 1 on, also in P3, while the reference clock runs (R10, R573,
R574). -/
def State.counting (s : State) : Bool := s.pwr.phase != .off && s.board.refClk

/-- Whether the kilns run: P0 and P1 (R569). -/
def State.kilnsRun (s : State) : Bool := s.powered && decide (s.powerState ≤ 1)

/-- Adds one to the idle count of every kiln that runs no operation (R278, R280); the count saturates. -/
def State.idleKilns (s : State) : State :=
  (List.range 32).foldl (fun (t : State) k =>
    if s.kilnBusy k then t else t.setKiln k { t.kiln k with idle := Nat.min ((t.kiln k).idle + 1) (2 ^ 32 - 1) }) s

/-- Levels at the pins that the installed configuration claims as inputs (R606). -/
def State.inputLevels (s : State) : BitVec 16 :=
  (List.range 16).foldl (fun v n =>
    match s.cfg.active.pinClaim n with
    | some (0, _) => v ||| (s.board.pins &&& BitVec.ofNat 16 (2 ^ n))
    | _ => v) 0

/-- Input pipeline: a level sampled at this edge appears in MC_FP_IN two stokes later (R607). -/
def State.samplePins (s : State) : State :=
  let t := s.put Reg.MC_FP_IN_LEVEL s.pins.in2.toNat
  { t with pins := { t.pins with in2 := s.pins.in1, in1 := s.inputLevels } }

/-- Drives one pin as its claim says: push-pull to the level, open-drain low or released; a pin not claimed as an output stays
high-impedance (R606). -/
def State.drivePin (s : State) (n : Nat) (level : Bool) : State :=
  let set (s : State) (l : Option Bool) : State :=
    { s with pins := { s.pins with driven := match l with | some b => sput s.pins.driven n b | none => sdel s.pins.driven n } }.emit (.pin n l)
  match s.cfg.active.pinClaim n with
  | some (1, _) => set s (some level)
  | some (2, _) => set s (if level then none else some false)
  | _ => s

/-- PIN operations issued since the last edge take effect (R398, R606). -/
def State.drivePins (s : State) : State :=
  s.pins.next.foldl (fun t p => t.drivePin p.1 p.2) { s with pins := { s.pins with next := [] } }

/-- Gated kilns count in GATEDST, and the counters of cycles take what the stoke gave them (R591). -/
def State.countStoke (s : State) : State :=
  let s := (List.range 32).foldl (fun (t : State) k => if (t.kiln k).gated then t.pmc 0x0A k 1 else t) s
  if s.get Reg.SEC_DBG_LEVEL_LEVEL = 0 || s.isSet Reg.DBG_PMC_CTL_FREEZE then s
  else (List.range 16).foldl (fun (t : State) i =>
    let ev := t.get (Reg.DBG_PMC_SEL_EVENT i)
    if ev = 0x01 || ev = 0x04 || ev = 0x05 then
      (t.bumpSat (Reg.DBG_PMC_CNT_COUNT i) (Config.cycleCount ev (t.get (Reg.DBG_PMC_SEL_KILNS i)) t.rand)).nextRand
    else t) s

/-- A new span of 12,500,000 stokes for the rate of corrected errors (R343). -/
def State.newSecond (s : State) : State :=
  if s.now % 12500000 = 0 then { s with dbg := { s.dbg with ceSecond := [], ceRaised := [] } } else s

/-- One stoke. -/
def tick (s : State) : State :=
  if s.counting then
    let s := ((s.bump Reg.COL_STOKE_COUNT 1).samplePins).drivePins
    let s := if s.kilnsRun then s.idleKilns.countStoke else s
    s.newSecond
  else s

end Sys2Proof.Machine
end

