-- ==== Sys2Proof/WellFormed.lean ====
section
/-! DEFINITION. Which commands are well formed: a row whose operand is an encoded instruction, operation, descriptor or frame
holds that row's code, and the other operands have the form that their rows give them. Commands that are not well formed
have no effect of their own. -/

namespace Sys2Proof

/-- OPC of a command descriptor (R390). -/
def descriptorCode (d : BitVec 512) : Nat := d.toNat % 256

/-- The opcode of an instruction: OPC6 above OPC (R137, R141). -/
def wordOpcode (w : BitVec 128) : Nat := w.toNat / 2 ^ 125 % 2 * 64 + w.toNat % 64

/-- FUNC of a vector instruction (R621). -/
def wordFunc (w : BitVec 128) : Nat := w.toNat / 2 ^ 65 % 32

/-- OP of a step-program operation (R397). -/
def operationCode (op : BitVec 128) : Nat := op.toNat % 256

/-- TYPE of a frame (R486). -/
def frameType (f : Frame) : Nat := f.header.toNat % 256

/-- Bytes of an access through BAR4. -/
def BusAccess.size : BusAccess → Nat
  | .read len => len
  | .write bytes => bytes.length

/-- Training finds each port once. -/
def onePerPort (peers : List PeerHello) : Bool := decide (peers.map (·.port)).Nodup

/-- Whether a command is well formed. -/
def Instr.wellFormed : Instr → Bool
  | .loadConfig _ d => descriptorCode d == 0x01
  | .configSwitch => true
  | .runStep _ d => descriptorCode d == 0x02
  | .commitStep _ d => descriptorCode d == 0x03
  | .abortStep _ d => descriptorCode d == 0x04
  | .evalRun _ d => descriptorCode d == 0x05
  | .bank _ d => descriptorCode d == 0x06
  | .automaticBank => true
  | .rekindle _ d => descriptorCode d == 0x07
  | .adopt _ d => descriptorCode d == 0x08
  | .scanCrc _ d => descriptorCode d == 0x09
  | .copy _ d => descriptorCode d == 0x0A
  | .fill _ d => descriptorCode d == 0x0B
  | .ingestBind _ d => descriptorCode d == 0x0C
  | .tableLoad _ d => descriptorCode d == 0x0D
  | .tableSwap _ d => descriptorCode d == 0x0E
  | .fence _ d => descriptorCode d == 0x0F
  | .eventWait _ d => descriptorCode d == 0x10
  | .sqTailDoorbell _ a => a.size != 0
  | .cqHeadDoorbell _ a => a.size != 0
  | .sqEnableWrite _ _ => true
  | .sqDrainEnd _ => true
  | .cqEnableWrite _ _ => true
  | .ringTailDoorbell _ a => a.size != 0
  | .chunk _ => true
  | .demandIssue _ => true
  | .demandTimeout _ _ => true
  | .stepPreparation _ => true
  | .clipDecode _ _ => true
  | .mma _ w => wordOpcode w == 0x01
  | .out _ w => wordOpcode w == 0x02
  | .clr _ w => wordOpcode w == 0x03
  | .bsst _ w => wordOpcode w == 0x04
  | .bsadd _ w => wordOpcode w == 0x05
  | .kred _ w => wordOpcode w == 0x20
  | .rstat _ w => wordOpcode w == 0x21
  | .hbar _ w => wordOpcode w == 0x22
  | .codebookBuild _ _ => true
  | .vld _ w => wordOpcode w == 0x40
  | .vst _ w => wordOpcode w == 0x41
  | .vgath _ w => wordOpcode w == 0x42
  | .vscat _ w => wordOpcode w == 0x43
  | .vsplat _ w => wordOpcode w == 0x44
  | .fadd _ w => wordOpcode w == 0x48
  | .fsub _ w => wordOpcode w == 0x49
  | .fmul _ w => wordOpcode w == 0x4A
  | .ffma _ w => wordOpcode w == 0x4B
  | .fmin _ w => wordOpcode w == 0x4C
  | .fmax _ w => wordOpcode w == 0x4D
  | .fdiv _ w => wordOpcode w == 0x4E
  | .fsqrt _ w => wordOpcode w == 0x4F
  | .fcmp _ w => wordOpcode w == 0x50
  | .sel _ w => wordOpcode w == 0x51
  | .gmul _ w => wordOpcode w == 0x54
  | .gadd _ w => wordOpcode w == 0x55
  | .gsub _ w => wordOpcode w == 0x56
  | .iadd _ w => wordOpcode w == 0x58
  | .isub _ w => wordOpcode w == 0x59
  | .imul _ w => wordOpcode w == 0x5A
  | .ilog _ w => wordOpcode w == 0x5B
  | .ishf _ w => wordOpcode w == 0x5C
  | .cvt _ w => wordOpcode w == 0x5E && wordFunc w != 1 && wordFunc w != 2
  | .draw _ w => wordOpcode w == 0x5E && wordFunc w == 1
  | .rand _ w => wordOpcode w == 0x5E && wordFunc w == 2
  | .fn _ w => wordOpcode w == 0x60
  | .fnm _ w => wordOpcode w == 0x61
  | .norm _ w => wordOpcode w == 0x68
  | .stcomb _ w => wordOpcode w == 0x69
  | .smax _ w => wordOpcode w == 0x6A
  | .progEnd _ op => operationCode op == 0x00
  | .runh _ op => operationCode op == 0x01
  | .dfence _ op => operationCode op == 0x02
  | .mfence _ op => operationCode op == 0x03
  | .copyop _ op => operationCode op == 0x04
  | .coll _ op => operationCode op == 0x05
  | .collectiveTimeout _ => true
  | .route _ op => operationCode op == 0x06
  | .dispatch _ op _ => operationCode op == 0x07
  | .combine _ op _ => operationCode op == 0x08
  | .tswap _ op => operationCode op == 0x09
  | .owner _ op => operationCode op == 0x0A
  | .waitmb _ op => operationCode op == 0x0B
  | .sched _ op => operationCode op == 0x0C
  | .ret _ op => operationCode op == 0x0D
  | .call _ op => operationCode op == 0x0E
  | .timer _ op => operationCode op == 0x0F
  | .timerExpiry _ => true
  | .twait _ op => operationCode op == 0x10
  | .pin _ op => operationCode op == 0x11
  | .gnorm _ op => operationCode op == 0x12
  | .voteClose => true
  | .globalResult _ => true
  | .reductionTimeout => true
  | .update _ op => operationCode op == 0x13
  | .stepDrain => true
  | .digestPass => true
  | .digestTimeout => true
  | .rxData _ f => frameType f == 0x01
  | .rxVoid _ f => frameType f == 0x02
  | .rxAck _ f => frameType f == 0x03
  | .rxNak _ f => frameType f == 0x04
  | .rxHello _ f => frameType f == 0x05
  | .rxRankupd _ f => frameType f == 0x06
  | .rxBankseg _ f => frameType f == 0x07
  | .rxDigest _ f => frameType f == 0x08
  | .rxIdle _ f => frameType f == 0x09
  | .rxReady _ f => frameType f == 0x0A
  | .idleSend _ => true
  | .ackTimeout _ => true
  | .portLost _ _ => true
  | .fabricTrain peers => onePerPort peers && peers.all fun p => decide (p.port.val < 12)
  | .portRetrain port _ => decide (port.val < 12)
  | .rankDown _ => true
  | .pairRetrain _ peers => onePerPort peers && peers.all fun p => decide (12 ≤ p.port.val)
  | .pairModeRequest _ => true
  | .storeStall => true
  | .kilnQuarantine _ => true
  | .dieFault _ => true
  | .watchdog _ => true
  | .kilnGating _ => true
  | .kilnWake _ => true
  | .governorEvaluation _ => true
  | .thermalTrip _ _ => true
  | .mainSupplyFault _ => true
  | .computeRailFault _ => true
  | .auxSupplyLoss => true
  | .powerOnReset => true
  | .moduleReset _ => true
  | .warmReset _ => true
  | .pcieReset _ => true
  | .perstRelease => true
  | .pcieLinkUp speed width => speed.val != 0 && ([1, 2, 4, 8, 16] : List Nat).contains width.toNat
  | .startupStepTimeout => true
  | .kilnReset _ => true
  | .powerStateRequest _ => true
  | .capWrite _ => true
  | .secOpen _ => true
  | .secClose _ => true
  | .claim _ => true
  | .keySet _ => true
  | .keyClear _ => true
  | .policySet _ => true
  | .policyGet _ => true
  | .fwUpdate _ => true
  | .debugSet _ => true
  | .auditRead _ => true
  | .unclaim _ => true
  | .lockoutExpiry _ => true
  | .guardLock _ => true
  | .recoveryGo => true
  | .getCerts => true
  | .getReport _ => true
  | .doeDiscovery _ => true
  | .doeAbort => true
  | .bar4Access _ acc => acc.size != 0
  | .msixUnmask _ => true
  | .traceWindowArm _ _ => true
  | .pmcFreeze _ => true
  | .pmcClear _ => true
  | .telemetryRecord => true
  | .paceWindow counts => counts.length == 32
  | .correctedErrorRate _ => true
  | .scrub _ => true
  | .dbgacc _ => true
  | .extest _ => true
  | .samplePreload _ => true
  | .idcode => true
  | .bypass ir => !([0x01, 0x02, 0x03, 0x10] : List (BitVec 8)).contains ir
  | .modAlertNRelease => true
  | .registerWrite a _ => a.size != 0
  | .waitExpired _ _ => true
  | .hostLinkCompletion _ => true
  | .pcieConfigurationWrite _ => true
  | .registerRead a => a.size != 0
  | .featurePinInputChange _ _ => true
  | .cordPresenceChange _ _ => true
  | .bnkStoreHostCountWrite _ _ => true

end Sys2Proof
end

