-- ==== Sys2Proof/Safety.lean ====
section
/-! DEFINITION. What counts as a sound state of the module, in the terms that statements use. -/

namespace Sys2Proof.Machine

/-- The keys of a sparse map rise strictly. -/
def SMap.sorted {α : Type} (m : SMap α) : Prop := m.Pairwise fun a b => a.1 < b.1

/-- The registers as data: offsets rise strictly. -/
def State.regsSound (s : State) : Prop := SMap.sorted s.regs

/-- A state whose memory and registers are in canonical form. -/
structure State.Sound (s : State) : Prop where
  mem  : Memory.wf s.mem
  regs : s.regsSound

/-! ### Hearth instructions -/

/-- Registers outside a list of offsets hold what they held. -/
def State.WordsKept (s t : State) (offs : List Nat) : Prop := ∀ off rst, off ∉ offs → t.word off rst = s.word off rst

/-- Registers that an access may count in. -/
def countWords : List Nat := Reg.HIF_TXB_COUNT.off :: Reg.HIF_RXB_COUNT.off :: (List.range 16).map fun i => (Reg.DBG_PMC_CNT_COUNT i).off

/-- What a vector instruction w of hearth h that completes leaves: its results o in lanes 0, 1, … of DST, its flags and
status bits added to the sticky ones, its elements counted, and everything else as it was. -/
structure LaneResult (h : Nat) (w : BitVec 128) (s t : State) (o : VOut) : Prop where
  lanes  : ∀ i, i < o.codes.length → t.lane h (vDst w) i = o.codes.getD i 0 % 2 ^ 32
  kept   : ∀ r i, i < 1024 → (r ≠ vDst w ∨ o.codes.length ≤ i) → t.lane h r i = s.lane h r i
  count  : t.get (Reg.HTH_VOPS_COUNT h) = (s.get (Reg.HTH_VOPS_COUNT h) + o.codes.length) % 2 ^ 64
  flags  : t.get (Reg.HTH_VFLAGS_flags h) = s.get (Reg.HTH_VFLAGS_flags h) ||| o.fl.toNat
  status : ∀ p ∈ [(ieIV, Reg.HTH_VIEEE_IV h), (ieDZ, Reg.HTH_VIEEE_DZ h), (ieOFL, Reg.HTH_VIEEE_OFL h),
    (ieUFL, Reg.HTH_VIEEE_UFL h), (ieINX, Reg.HTH_VIEEE_INX h)], t.get p.2 = if o.ie &&& p.1 ≠ 0 then 1 else s.get p.2
  words  : s.WordsKept t [(Reg.HTH_VFLAGS_flags h).off, (Reg.HTH_VIEEE_IV h).off, (Reg.HTH_VOPS_COUNT h).off]
  tables : t.hearth h = { s.hearth h with lanes := (t.hearth h).lanes }
  others : ∀ g, g ≠ h → t.hearth g = s.hearth g
  rest   : t = { s with
    regs := t.regs, hearths := t.hearths, step := { s.step with flags := t.step.flags }
    col := { s.col with started := t.col.started } }

/-- Lane results computed one by one. -/
def laneOut (w : BitVec 128) (f : Nat → Conv) : VOut := .ofConvs ((List.range (vLen w)).map f)

/-- An integer saturated to the lane range [−2³¹, 2³¹ − 1], with SAT when it lies outside (R190). -/
def saturated (z : Int) : Conv :=
  ⟨unsignedOf 32 (max (-(2 ^ 31)) (min (2 ^ 31 - 1) z)), if z < -(2 ^ 31) ∨ 2 ^ 31 - 1 < z then fSAT else 0, 0⟩

/-- Lane i of a register as a signed integer. -/
def State.int (s : State) (h r i : Nat) : Int := signedOf 32 (s.lane h r i)

/-- The state in which an instruction of hearth h does its work: its issue number is taken (R138). -/
def State.issued (s : State) (h : Nat) : State := (s.issue h).1

/-! ### Operations of a step program -/

/-- Run r when its operation op at pc has issued and is in flight. -/
def ProgRun.issued (r : ProgRun) (pc : Nat) (op : BitVec 128) : ProgRun :=
  { r with count := r.count + 1, pc := pc + 1, flight := r.flight ++ [⟨r.prog, pc, op, r.count⟩] }

/-- Run r when its operation at pc has issued and completed. -/
def ProgRun.past (r : ProgRun) (pc : Nat) : ProgRun :=
  { r with count := r.count + 1, pc := pc + 1, flight := r.flight.filter (·.seq != r.count) }

/-- Operation op with the given code stands at pc in run r of program place p, is the next one and may issue; its completion
reads no watched loss (R427). -/
structure State.Issues (s : State) (p code : Nat) (op : BitVec 128) (r : ProgRun) (pc : Nat) : Prop where
  run  : s.run p = some r
  next : s.nextOp r = some (pc, op)
  code : sOp op = code
  may  : s.mayIssue r op 0 = true
  loss : r.eval = true ∨ s.gnormOf r.main = none

/-- The state in which an operation that has issued begins its work. -/
def State.begun (s : State) (p : Nat) (op : BitVec 128) (r : ProgRun) (pc : Nat) : State :=
  (s.launch p pc op).1.setRun (r.issued pc op)

/-- Nothing differs but the runs and the idle counts of kilns. -/
def State.OnlyRuns (s t : State) : Prop := t = { s with kilns := t.kilns, col := { s.col with runs := t.col.runs } }

/-! ### Commands of submission queues -/

/-- Descriptor d stands at the head of submission queue q, the queue may start it, its opcode is opc and no check refuses it
(R388, R391 to R393). -/
structure State.Accepts (s : State) (q : Nat) (d : BitVec 512) (opc : Nat) : Prop where
  opcode : dOpc d = opc
  takes  : s.canTake q d = true
  sound  : s.refusal d = 0

/-! ### Mailbox requests -/

/-- A request for operation op waits in the mailbox of a port that takes it, and is well formed (R541). -/
structure State.Mails (s : State) (port : MbPort) (op : Nat) : Prop where
  op   : s.mbRequest.op = op
  up   : s.mbOpen port = true
  free : port = .management → s.sec.mbAt ≠ some s.now
  ok   : s.mbRequest.ok = true

/-- The state in which a mailbox request from a port is worked on. -/
def State.mailed (s : State) (port : MbPort) : State :=
  if port == .bar0 then { s with sec := { s.sec with mbAt := some s.now } } else s

/-- The code with which a check failed. -/
def Checked.failure {α : Type} (c : Checked α) : Option Nat :=
  match c with
  | .error e => some e
  | .ok _ => none

end Sys2Proof.Machine
end

