-- ==== Sys2Proof/Certificates/Slice0/Obligations.lean ====
section
/-! DEFINITION. The statements for the provers, family by family. -/

open Sys2Proof Sys2Proof.Machine

/-! ### The module -/

/-- 11_commands_scheduling_events.md: A step with a command in front runs that command on the queue's rest. -/
def Obligations.StepRunsFront : Prop :=
  ∀ (s : State) (c : Instr) (rest : List Instr), s.pending = c :: rest → step s = exec c { s with pending := rest }

/-- 00_scope.md, 11_commands_scheduling_events.md: On an empty queue a step is one stoke of the module's clock (DESIGN CHOICE, log
1): the stoke counter of a module that counts moves by one, and a module that does not count stays as it is. -/
def Obligations.EmptyQueueTicks : Prop :=
  ∀ (s : State), s.pending = [] →
    (s.counting = false → step s = .next s) ∧
    (s.counting = true → ∃ t, step s = .next t ∧ t.pending = [] ∧ t.get Reg.COL_STOKE_COUNT =
      (s.get Reg.COL_STOKE_COUNT + 1) % 2 ^ Reg.COL_STOKE_COUNT.w ∧ t.out = s.out ∧ t.mem = s.mem ∧ t.embers = s.embers)

/-- 11_commands_scheduling_events.md: Every command answers a next state, changes no command that waits, and takes back nothing that
the module has sent. -/
def Obligations.CommandsAnswer : Prop :=
  ∀ (c : Instr) (s : State), ∃ t, exec c s = .next t ∧ t.pending = s.pending ∧ ∃ l, t.out = s.out ++ l

/-- 00_scope.md, 17_power_startup_reset.md, 10_configuration_bitstream.md: The state right after reset is sound: no byte of memory
is listed, no register differs from its reset value, no command waits, no session is open and the base configuration is in
force. -/
def Obligations.ResetSound : Prop :=
  State.reset.Sound ∧ State.reset.mem = [] ∧ (∀ f : Fld, State.reset.word f.off f.rst = f.rst) ∧ State.reset.pending = [] ∧
    State.reset.sec.sessions = [] ∧ State.reset.cfg.active = ConfigBank.base ∧ State.reset.out = []

/-- 09_memory_tiers.md, 00_scope.md: Every step keeps memory and registers in canonical form: addresses and offsets rise strictly,
and no byte is listed that an unlisted address reads as. -/
def Obligations.StepKeepsSound : Prop :=
  ∀ s t : State, s.Sound → step s = .next t → t.Sound

/-! ### Memory -/

/-- R323: An access whose first byte lies outside every range, at or beyond PEAT_SIZE in the peat tier, or in an unmapped granule of
the live tier, is refused with MEM_UNMAPPED. -/
def Obligations.UnmappedIsRefused : Prop :=
  ∀ (s : State) (u : Who) (wr : Bool) (a n : Nat), 0 < n →
    ((0x40000000000 ≤ a ∧ a < peatBase) ∨ (peatBase + s.get Reg.PEAT_SIZE_BYTES ≤ a ∧ a < hearthBase) ∨
      (hearthBase + 0xC0000000 ≤ a ∧ a < windowBase) ∨ 0xC00000000000 ≤ a ∨
      (a < 0x40000000000 ∧ liveKey (s.granule (a / 2 ^ 30)) a = none)) →
    peatBase + s.get Reg.PEAT_SIZE_BYTES ≤ hearthBase →
    s.rangeCode u wr a n = memUnmapped ∧ (s.readMem u a n).2.1 = memUnmapped ∧
      ∀ bs, bs.length = n → (s.writeMem u a bs).2 = memUnmapped

/-- 09_memory_tiers.md: An access that is refused before any data moves, other than by the host link, changes neither memory nor
anything else but the first-error register MEM_ERR, and answers its code. -/
def Obligations.RefusedAccessHasNoEffect : Prop :=
  ∀ (s : State) (u : Who) (a c : Nat) (bs : List Byte), c ≠ 0 → c ≠ memHost →
    (s.rangeCode u false a bs.length = c → ∃ t, s.readMem u a bs.length = (t, c, []) ∧ t = { s with regs := t.regs } ∧
      s.WordsKept t [Reg.MEM_ERR_VALID.off]) ∧
    (s.rangeCode u true a bs.length = c → ∃ t, s.writeMem u a bs = (t, c) ∧ t = { s with regs := t.regs } ∧
      s.WordsKept t [Reg.MEM_ERR_VALID.off])

/-- 09_memory_tiers.md: Bytes written to a hearth's memory are read back from there, and every other byte of memory is as before.
Bytes read from a hearth's memory are the bytes that lie there; where no memory holds an error, reading changes no byte. -/
def Obligations.HearthMemoryReadsBack : Prop :=
  (∀ (s t : State) (u : Who) (h off : Nat) (bs : List Byte), h < 384 → off + bs.length ≤ hearthBytes →
    s.writeMem u (hearthAddr h + off) bs = (t, 0) →
    t.bytes (hearthAddr h + off) bs.length = bs ∧
      ∀ x, x < hearthAddr h + off ∨ hearthAddr h + off + bs.length ≤ x → t.byte x = s.byte x) ∧
  (∀ (s t : State) (u : Who) (h off n : Nat) (bs : List Byte), h < 384 → off + n ≤ hearthBytes → s.ecc = [] →
    s.readMem u (hearthAddr h + off) n = (t, 0, bs) →
    bs = s.bytes (hearthAddr h + off) n ∧ t = { s with regs := t.regs } ∧ s.WordsKept t countWords)

/-! ### Vector instructions -/

/-- R190: The integer lane instructions, lane by lane; IADD, ISUB and IMUL saturate, ILOG and ISHF set no flag. -/
def Obligations.IntegerLanes : Prop :=
  ∀ (h : Fin 384) (w : BitVec 128) (s : State) (r : Rnd), s.hearthRuns h = true →
    (opcodeOf w = 0x58 → vCheck w (bothInt w) none = .ok r → ∃ t, exec (.iadd h w) s = .next t ∧
      LaneResult h w (s.issued h) t (laneOut w fun i => saturated (s.int h (vA w) i + s.int h (vB w) i))) ∧
    (opcodeOf w = 0x59 → vCheck w (bothInt w) none = .ok r → ∃ t, exec (.isub h w) s = .next t ∧
      LaneResult h w (s.issued h) t (laneOut w fun i => saturated (s.int h (vA w) i - s.int h (vB w) i))) ∧
    (opcodeOf w = 0x5A → vCheck w (bothInt w) none = .ok r → ∃ t, exec (.imul h w) s = .next t ∧
      LaneResult h w (s.issued h) t (laneOut w fun i => saturated (s.int h (vA w) i * s.int h (vB w) i))) ∧
    (opcodeOf w = 0x5B → ilogCheck w = .ok r → ∃ t, exec (.ilog h w) s = .next t ∧
      LaneResult h w (s.issued h) t (laneOut w fun i =>
        let a := s.lane h (vA w) i
        let b := s.lane h (vB w) i
        ⟨if vParam w = 0 then a &&& b else if vParam w = 1 then a ||| b else a ^^^ b, 0, 0⟩)) ∧
    (opcodeOf w = 0x5C → ishfCheck w = .ok r → ∃ t, exec (.ishf h w) s = .next t ∧
      LaneResult h w (s.issued h) t (laneOut w fun i =>
        let n := vParam w % 64
        ⟨if bit (vParam w) 7 then unsignedOf 32 ((s.int h (vA w) i).fdiv (2 ^ n)) else s.lane h (vA w) i * 2 ^ n % 2 ^ 32, 0, 0⟩))

/-- 05_vector_engine_functions.md: The binary32 arithmetic lane instructions, lane by lane, under flush-to-zero and RND. -/
def Obligations.FloatLanes : Prop :=
  ∀ (h : Fin 384) (w : BitVec 128) (s : State) (r : Rnd), s.hearthRuns h = true →
    vCheck w (bothBf32 w) (some .bf32) = .ok r →
    (opcodeOf w = 0x48 → ∃ t, exec (.fadd h w) s = .next t ∧ LaneResult h w (s.issued h) t (laneOut w fun i =>
      withFtz (s.ftz h) (fun l => fadd32 r (s.vecRandom w r i) (arg l 0) (arg l 1)) [s.lane h (vA w) i, s.lane h (vB w) i])) ∧
    (opcodeOf w = 0x49 → ∃ t, exec (.fsub h w) s = .next t ∧ LaneResult h w (s.issued h) t (laneOut w fun i =>
      withFtz (s.ftz h) (fun l => fsub32 r (s.vecRandom w r i) (arg l 0) (arg l 1)) [s.lane h (vA w) i, s.lane h (vB w) i])) ∧
    (opcodeOf w = 0x4A → ∃ t, exec (.fmul h w) s = .next t ∧ LaneResult h w (s.issued h) t (laneOut w fun i =>
      withFtz (s.ftz h) (fun l => fmul32 r (s.vecRandom w r i) (arg l 0) (arg l 1)) [s.lane h (vA w) i, s.lane h (vB w) i])) ∧
    (opcodeOf w = 0x4B → ∃ t, exec (.ffma h w) s = .next t ∧ LaneResult h w (s.issued h) t (laneOut w fun i =>
      withFtz (s.ftz h) (fun l => ffma32 r (s.vecRandom w r i) (arg l 0) (arg l 1) (arg l 2))
        [s.lane h (vA w) i, s.lane h (vB w) i, s.lane h (vC w) i])) ∧
    (opcodeOf w = 0x4E → ∃ t, exec (.fdiv h w) s = .next t ∧ LaneResult h w (s.issued h) t (laneOut w fun i =>
      withFtz (s.ftz h) (fun l => fdiv32 r (s.vecRandom w r i) (arg l 0) (arg l 1)) [s.lane h (vA w) i, s.lane h (vB w) i])) ∧
    (opcodeOf w = 0x4F → ∃ t, exec (.fsqrt h w) s = .next t ∧ LaneResult h w (s.issued h) t (laneOut w fun i =>
      withFtz (s.ftz h) (fun l => fsqrt32 r (s.vecRandom w r i) (arg l 0)) [s.lane h (vA w) i]))

/-- 05_vector_engine_functions.md: Minimum, maximum, comparison and selection, lane by lane. -/
def Obligations.MinMaxCompareSelect : Prop :=
  ∀ (h : Fin 384) (w : BitVec 128) (s : State) (r : Rnd), s.hearthRuns h = true →
    (opcodeOf w = 0x4C → vCheck w (bothBf32 w) (some .bf32) = .ok r → ∃ t, exec (.fmin h w) s = .next t ∧
      LaneResult h w (s.issued h) t (laneOut w fun i =>
        withFtz (s.ftz h) (fun l => fminmax32 false (arg l 0) (arg l 1)) [s.lane h (vA w) i, s.lane h (vB w) i])) ∧
    (opcodeOf w = 0x4D → vCheck w (bothBf32 w) (some .bf32) = .ok r → ∃ t, exec (.fmax h w) s = .next t ∧
      LaneResult h w (s.issued h) t (laneOut w fun i =>
        withFtz (s.ftz h) (fun l => fminmax32 true (arg l 0) (arg l 1)) [s.lane h (vA w) i, s.lane h (vB w) i])) ∧
    (opcodeOf w = 0x50 → fcmpCheck w = .ok r → ∃ t, exec (.fcmp h w) s = .next t ∧
      LaneResult h w (s.issued h) t (laneOut w fun i =>
        let a := ftzIn (s.ftz h) (s.lane h (vA w) i)
        let b := ftzIn (s.ftz h) (s.lane h (vB w) i)
        { fcmp32 (vParam w) a.1 b.1 with fl := (fcmp32 (vParam w) a.1 b.1).fl ||| a.2 ||| b.2 })) ∧
    (opcodeOf w = 0x51 → vCheck w ((laneOf (vFmt w)).isSome && laneOf (vFmt w) = laneOf (vFmt2 w)) none = .ok r →
      ∃ t, exec (.sel h w) s = .next t ∧ LaneResult h w (s.issued h) t (laneOut w fun i =>
        ⟨if s.lane h (vC w) i = 0 then s.lane h (vB w) i else s.lane h (vA w) i, 0, 0⟩))

/-- 05_vector_engine_functions.md: Grendy products, sums and differences, lane by lane. -/
def Obligations.GrendyLanes : Prop :=
  ∀ (h : Fin 384) (w : BitVec 128) (s : State) (r : Rnd) (f g : Fmt), s.hearthRuns h = true →
    glLane (vFmt w) = some f → glLane (vFmt2 w) = some g → vCheck w true (some f) = .ok r →
    (opcodeOf w = 0x54 → ∃ t, exec (.gmul h w) s = .next t ∧ LaneResult h w (s.issued h) t (laneOut w fun i =>
      glResult f r (s.vecRandom w r i) (glMulNum (g.num [] (s.lane h (vA w) i)) (g.num [] (s.lane h (vB w) i))))) ∧
    (opcodeOf w = 0x55 → ∃ t, exec (.gadd h w) s = .next t ∧ LaneResult h w (s.issued h) t (laneOut w fun i =>
      glResult f r (s.vecRandom w r i) (glAddNum (g.num [] (s.lane h (vA w) i)) (g.num [] (s.lane h (vB w) i))))) ∧
    (opcodeOf w = 0x56 → ∃ t, exec (.gsub h w) s = .next t ∧ LaneResult h w (s.issued h) t (laneOut w fun i =>
      glResult f r (s.vecRandom w r i) (glAddNum (g.num [] (s.lane h (vA w) i)) (g.num [] (s.lane h (vB w) i)).neg)))

/-- 05_vector_engine_functions.md, 12_training_step.md: CVT and VSPLAT, lane by lane. DRAW keeps a lane unless its stream word lies
below PARAM × 2¹⁶, and keeps every lane in an EVAL_RUN; RAND gives the stream word itself. -/
def Obligations.ConvertedAndRandomLanes : Prop :=
  (∀ (h : Fin 384) (w : BitVec 128) (s : State) (r : Rnd) (f : LaneFmt), s.hearthRuns h = true → laneOf (vFmt w) = some f →
    (∀ g, opcodeOf w = 0x5E → laneOf (vFmt2 w) = some g → cvtCheck w = .ok r → ∃ t, exec (.cvt h w) s = .next t ∧
      LaneResult h w (s.issued h) t (laneOut w fun i =>
        vconvert (s.ftz h) (s.vecCtx w r [] i) [] g f (s.lane h (vA w) i))) ∧
    (opcodeOf w = 0x44 → vFmt2 w = 0 → vCheck w true f = .ok r → ∃ t, exec (.vsplat h w) s = .next t ∧
      LaneResult h w (s.issued h) t (laneOut w fun i => vconvert (s.ftz h) (s.vecCtx w r [] i) [] (some .gl16) f (vParam w)))) ∧
  (∀ (h : Fin 384) (w : BitVec 128) (s : State) (r : Rnd), s.hearthRuns h = true → opcodeOf w = 0x5E →
    vCheck w (bothInt w) none = .ok r →
    (vFunc w = 1 → ∃ t, exec (.draw h w) s = .next t ∧ LaneResult h w (s.issued h) t (laneOut w fun i =>
      ⟨if s.evaluating = true ∨ vParam w * 2 ^ 16 ≤ s.drawWord h w classDropout i then 1 else 0, 0, 0⟩)) ∧
    (vFunc w = 2 → ∃ t, exec (.rand h w) s = .next t ∧
      LaneResult h w (s.issued h) t (laneOut w fun i => ⟨s.drawWord h w classUser i, 0, 0⟩)))

/-- 05_vector_engine_functions.md: FN and FNM, lane by lane; FNM counts its evaluator steps and waits (R200). -/
def Obligations.FunctionLanes : Prop :=
  ∀ (h : Fin 384) (w : BitVec 128) (s : State) (r : Rnd), s.hearthRuns h = true →
    (opcodeOf w = 0x60 → fnCheck w = .ok r → ∃ t, exec (.fn h w) s = .next t ∧ LaneResult h w (s.issued h) t (laneOut w fun i =>
      match glLane (vFmt w) with
      | some f => glFn (vFunc w) f r (s.vecRandom w r i) (s.lane h (vA w) i)
      | none => withFtz (s.ftz h) (fun l => bin32Fn (vFunc w) r (s.vecRandom w r i) (arg l 0)) [s.lane h (vA w) i])) ∧
    (∀ p, opcodeOf w = 0x61 → (s.issued h).fnmCheck h w = .ok (r, p) → ∃ t u, exec (.fnm h w) s = .next t ∧
      LaneResult h w (s.issued h) u (laneOut w fun i => (s.issued h).microLane h w r p i) ∧
      t = (u.bump (Reg.HTH_VEVAL_COUNT h) (vLen w * p.steps.length)).bump (Reg.HTH_VWAIT_COUNT h) (rowWaits (vLen w) p.steps.length))

/-- 05_vector_engine_functions.md: VLD and VGATH put the elements they read, converted, into the lanes of DST. A load of scaled
blocks takes its values from the blocks. -/
def Obligations.LoadedLanes : Prop :=
  ∀ (h : Fin 384) (w : BitVec 128) (s u : State) (r : Rnd) (l : LaneFmt) (f : Fmt), s.hearthRuns h = true →
    (∀ cs, opcodeOf w = 0x40 → (s.issued h).vldCheck h w = .ok (r, l, f) → f.alwaysScaled = false →
      (s.issued h).readElems h (tagOf w) (vAddr w) f (vIndices w) = (u, .ok cs) →
      cs.length = vLen w ∧ ∃ t, exec (.vld h w) s = .next t ∧ LaneResult h w u t (laneOut w fun i =>
        vcvt (u.ftz h) (u.vecCtx w r [] i) [] (some f) l (cs.getD i 0))) ∧
    (∀ vs, opcodeOf w = 0x40 → (s.issued h).vldCheck h w = .ok (r, l, f) → f.alwaysScaled = true →
      (s.issued h).readScaled h (tagOf w) (vAddr w) (vScaleAddr w f) f ((s.issued h).vBook h w f) 0 (vBlocks w) = (u, .ok vs) →
      vLen w ≤ vs.length ∧ ∃ t, exec (.vld h w) s = .next t ∧ LaneResult h w u t (laneOut w fun i =>
        toLane (u.ftz h) (u.vecCtx w r [] i) l (vs.getD i .zero))) ∧
    (∀ is cs, opcodeOf w = 0x42 → (s.issued h).vgathCheck h w = .ok (r, l, f, is) →
      (s.issued h).readElems h (tagOf w) (vAddr w) f is = (u, .ok cs) →
      is = (List.range (vLen w)).map (fun i => s.lane h (vB w) i) ∧ cs.length = vLen w ∧
      ∃ t, exec (.vgath h w) s = .next t ∧ LaneResult h w u t (laneOut w fun i =>
        vcvt (u.ftz h) (u.vecCtx w r [] i) [] (some f) l (cs.getD i 0)))

/-- 05_vector_engine_functions.md: VST and VSCAT store the lanes of SRCA, converted, and change no byte outside the elements, or the
blocks and their records, that they store; the lanes stay. -/
def Obligations.StoredElements : Prop :=
  ∀ (h : Fin 384) (w : BitVec 128) (s u : State) (r : Rnd) (l : LaneFmt) (f : Fmt), s.hearthRuns h = true → s.ecc = [] →
    (opcodeOf w = 0x41 → (s.issued h).vstCheck h w = .ok (r, l, f) → f.alwaysScaled = false →
      let o := (s.issued h).storeOut h w l f r
      (s.issued h).writeElems h (tagOf w) (vAddr w) f ((vIndices w).zip o.codes) = (u, 0) →
      ∃ t, exec (.vst h w) s = .next t ∧ t = u.vecEnd h (vLen w) o.fl o.ie ∧ t.hearths = s.hearths ∧
        ∀ x, (∀ i ∈ vIndices w, x < hearthAddr h + elemByte (vAddr w) f.bits i ∨
          hearthAddr h + elemByte (vAddr w) f.bits i + Nat.max 1 (f.bits / 8) ≤ x) → t.byte x = s.byte x) ∧
    (opcodeOf w = 0x41 → (s.issued h).vstCheck h w = .ok (r, l, f) → f.alwaysScaled = true →
      let p := (s.issued h).storeBlocks h w l f r
      (s.issued h).hWrites h (tagOf w) (scaledWrites w f p.1) = (u, 0) →
      ∃ t fl, exec (.vst h w) s = .next t ∧ t = u.vecEnd h (vLen w) fl p.2 ∧ t.hearths = s.hearths ∧
        ∀ x, (∀ q ∈ scaledWrites w f p.1, x < hearthAddr h + q.1 ∨ hearthAddr h + q.1 + q.2.length ≤ x) → t.byte x = s.byte x) ∧
    (∀ is, opcodeOf w = 0x43 → (s.issued h).vscatCheck h w = .ok (r, l, f, is) →
      let o := (s.issued h).storeOut h w l f r
      (s.issued h).writeElems h (tagOf w) (vAddr w) f (is.zip o.codes) = (u, 0) →
      ∃ t, exec (.vscat h w) s = .next t ∧ t = u.vecEnd h (vLen w) o.fl o.ie ∧ t.hearths = s.hearths ∧
        is = (List.range (vLen w)).map (fun i => s.lane h (vB w) i) ∧
        ∀ x, (∀ i ∈ is, x < hearthAddr h + elemByte (vAddr w) f.bits i ∨
          hearthAddr h + elemByte (vAddr w) f.bits i + Nat.max 1 (f.bits / 8) ≤ x) → t.byte x = s.byte x)

/-- 05_vector_engine_functions.md: NORM gives its row under the record at ADDR, NaN in every lane of a row that is not finite;
STCOMB combines PARAM records into the first one's place. -/
def Obligations.NormAndCombine : Prop :=
  ∀ (h : Fin 384) (w : BitVec 128) (s u : State), s.hearthRuns h = true →
    (∀ r st, opcodeOf w = 0x68 → normCheck w = .ok r → (s.issued h).readStat h (tagOf w) (vAddr w) = (u, .ok st) →
      ∃ t, exec (.norm h w) s = .next t ∧ LaneResult h w u t (u.normOut h w r st) ∧ (u.normOut h w r st).codes.length = vLen w ∧
        (st.nonfin = true → u.normOut h w r st =
          laneOut w fun i => toLane (u.ftz h) (u.vecCtx w r [] i) ((laneOf (vFmt w)).getD none) .nan)) ∧
    (∀ rs k v, opcodeOf w = 0x69 → stcombCheck w = .ok () →
      (s.issued h).readStats h (tagOf w) (vAddr w) (vParam w) = (u, .ok rs) → kindOf rs = some k →
      u.hWrite h (tagOf w) (vAddr w) (combineStats k rs).bytes = (v, 0) →
      ∃ t, exec (.stcomb h w) s = .next t ∧
        t = v.vecEnd h (vParam w) (flagIf (combineStats k rs).vclamp fVCLAMP) 0 ∧
        t.bytes (hearthAddr h + vAddr w) 192 = (combineStats k rs).bytes)

/-- 05_vector_engine_functions.md: SMAX over a whole row, over a part of a row, and in its decision. -/
def Obligations.SoftmaxRows : Prop :=
  ∀ (h : Fin 384) (w : BitVec 128) (s u : State) (r : Rnd), s.hearthRuns h = true → opcodeOf w = 0x6A → smaxCheck w = .ok r →
    (smaxPhase w = 0 → vMaxsub w = false → ∃ t, exec (.smax h w) s = .next t ∧
      LaneResult h w (s.issued h) t ((s.issued h).smaxWhole h w r []) ∧
      ((s.issued h).smaxWhole h w r []).codes.length = vLen w) ∧
    (∀ bs, smaxPhase w = 0 → vMaxsub w = true → (s.issued h).hRead h (tagOf w) (vAddr w) 192 = (u, 0, bs) →
      ∃ t, exec (.smax h w) s = .next t ∧ LaneResult h w u t (u.smaxWhole h w r bs)) ∧
    (∀ v, smaxPhase w = 1 →
      let p := (s.issued h).smaxPart h w r SumRec.fresh
      (s.issued h).hWrite h (tagOf w) (vAddr w) p.1.bytes = (v, 0) →
      ∃ t, exec (.smax h w) s = .next t ∧ LaneResult h w v t p.2 ∧ t.bytes (hearthAddr h + vAddr w) 128 = p.1.bytes) ∧
    (∀ v bs start, smaxPhase w = 2 → (s.issued h).hRead h (tagOf w) (vAddr w) 128 = (u, 0, bs) → sumOfBytes bs = some start →
      let p := u.smaxPart h w r start
      u.hWrite h (tagOf w) (vAddr w) p.1.bytes = (v, 0) →
      ∃ t, exec (.smax h w) s = .next t ∧ LaneResult h w v t p.2 ∧ t.bytes (hearthAddr h + vAddr w) 128 = p.1.bytes) ∧
    (∀ bs sum, smaxPhase w = 3 → (s.issued h).hRead h (tagOf w) (vAddr w) 128 = (u, 0, bs) → sumOfBytes bs = some sum →
      ∃ t, exec (.smax h w) s = .next t ∧ LaneResult h w u t (u.smaxDecide h w r sum))

/-- 05_vector_engine_functions.md: A vector instruction of any opcode but STCOMB with VL zero or above 1,024 fails with ARITH_FIELD:
it changes no lane, table, ember or byte, and enters HTH_VERR and HTH_ERR when they hold no earlier error. -/
def Obligations.VectorLengthChecked : Prop :=
  ∀ (h : Fin 384) (w : BitVec 128) (s : State), s.hearthRuns h = true → vLen w = 0 ∨ 1024 < vLen w → s.stepOpen = false →
    ∀ p ∈ ([(0x40, .vld h w), (0x41, .vst h w), (0x42, .vgath h w), (0x43, .vscat h w), (0x44, .vsplat h w), (0x48, .fadd h w),
      (0x49, .fsub h w), (0x4A, .fmul h w), (0x4B, .ffma h w), (0x4C, .fmin h w), (0x4D, .fmax h w), (0x4E, .fdiv h w),
      (0x4F, .fsqrt h w), (0x50, .fcmp h w), (0x51, .sel h w), (0x54, .gmul h w), (0x55, .gadd h w), (0x56, .gsub h w),
      (0x58, .iadd h w), (0x59, .isub h w), (0x5A, .imul h w), (0x5B, .ilog h w), (0x5C, .ishf h w), (0x60, .fn h w),
      (0x61, .fnm h w), (0x68, .norm h w), (0x6A, .smax h w)] : List (Nat × Instr)), opcodeOf w = p.1 →
    ∃ t, exec p.2 s = .next t ∧ t.hearths = s.hearths ∧ t.embers = s.embers ∧ t.mem = s.mem ∧
      (s.isSet (Reg.HTH_VERR_VALID h) = false → t.get (Reg.HTH_VERR_CODE h) = arithField ∧
        t.get (Reg.HTH_VERR_TAG h) = tagOf w ∧ t.get (Reg.HTH_VERR_VALID h) = 1) ∧
      (s.isSet (Reg.HTH_ERR_VALID h) = false → t.get (Reg.HTH_ERR_CODE h) = arithField ∧
        t.get (Reg.HTH_ERR_TAG h) = tagOf w ∧ t.get (Reg.HTH_ERR_VALID h) = 1)

/-! ### Ember and reduction instructions -/

/-- 04_ember_instructions.md: CLR leaves each slot it names EMPTY with all contents zero and takes one issue number; every other
slot and everything else stays. -/
def Obligations.ClearedSlots : Prop :=
  ∀ (h : Fin 384) (w : BitVec 128) (s : State), s.hearthRuns h = true → opcodeOf w = 0x03 → checkSlots w false = .ok () →
    ∃ t, exec (.clr h w) s = .next t ∧
      (∀ i, (t.ember (emberOf h w)).slot i = if i ∈ namedSlots w then Slot.empty else (s.ember (emberOf h w)).slot i) ∧
      (∀ e, e ≠ emberOf h w → t.ember e = s.ember e) ∧
      t.get (Reg.HTH_ISSUE_NEXT h) = (s.get (Reg.HTH_ISSUE_NEXT h) + 1) % 2 ^ (Reg.HTH_ISSUE_NEXT h).w ∧
      t = { s with regs := t.regs, embers := t.embers } ∧ s.WordsKept t [(Reg.HTH_ISSUE_NEXT h).off]

/-- 03_log_accumulation.md, 04_ember_instructions.md: MMA whose checks and reads succeed enters its products into the active rows of
its ember, and touches no other slot but the masked rows that it overwrites. An MMA that accumulates into a slot of another mode
fails with ARITH_MODE, sets MODE in EMB_FLAGS and changes no slot and no byte. -/
def Obligations.MmaAccumulates : Prop :=
  (∀ (h : Fin 384) (w : BitVec 128) (s u : State) (m : Mma) (ks : List KStep), s.hearthRuns h = true → opcodeOf w = 0x01 →
    (s.issued h).checkMma h w (s.get (Reg.HTH_ISSUE_NEXT h)) = .ok m → m.out = none → m.tiles ≠ [] → s.ecc = [] →
    (m.ovr = true ∨ (∀ r ∈ m.active, ((s.ember (emberOf h w)).slot (slotOf w + r)).mode ∈ [.empty, m.mode]) ∧
      s.slotsBad (emberOf h w) (m.active.map fun r => slotOf w + r) = false) →
    (s.issued h).readKSteps m m.tiles = (u, ks, 0) →
    ∃ t, exec (.mma h w) s = .next t ∧ t.mem = s.mem ∧ t.hearths = s.hearths ∧
      (∀ p ∈ m.active.zipIdx, (t.ember (emberOf h w)).slot (slotOf w + p.1) =
        (m.row u.cfg.active.spill u.random ks p.1 p.2 (m.start ((s.ember (emberOf h w)).slot (slotOf w + p.1)))).1) ∧
      (∀ i, (∀ r ∈ m.active, i ≠ slotOf w + r) → (m.ovr = true → ∀ r ∈ m.rows, i ≠ slotOf w + r) →
        (t.ember (emberOf h w)).slot i = (s.ember (emberOf h w)).slot i) ∧
      (∀ e, e ≠ emberOf h w → t.ember e = s.ember e)) ∧
  (∀ (h : Fin 384) (w : BitVec 128) (s : State) (m : Mma), s.hearthRuns h = true → opcodeOf w = 0x01 → s.stepOpen = false →
    (s.issued h).checkMma h w (s.get (Reg.HTH_ISSUE_NEXT h)) = .ok m → m.ovr = false →
    (∃ r ∈ m.active, ((s.ember (emberOf h w)).slot (slotOf w + r)).mode ∉ [.empty, m.mode]) →
    s.isSet (Reg.EMB_ERR_VALID h (embOf w)) = false →
    ∃ t, exec (.mma h w) s = .next t ∧ t.embers = s.embers ∧ t.mem = s.mem ∧ t.hearths = s.hearths ∧
      t.get (Reg.EMB_ERR_VALID h (embOf w)) = 1 ∧ t.get (Reg.EMB_ERR_CODE h (embOf w)) = arithMode ∧
      t.get (Reg.EMB_ERR_TAG h (embOf w)) = tagOf w)

/-- 04_ember_instructions.md, 06_scaling_narrow_formats.md: OUT of one row converts the slot's row under its output descriptor,
stores the blocks; the slot keeps its buckets and takes the row's statistics. -/
def Obligations.OutOneRow : Prop :=
  ∀ (h : Fin 384) (w : BitVec 128) (s u v : State) (d : OutDesc) (bias : List Byte), s.hearthRuns h = true →
    opcodeOf w = 0x02 → rowsOf w = 1 → (s.issued h).outCheck h w = .ok d → s.ecc = [] →
    d.stats = false → biasAgrees d.bias ((s.ember (emberOf h w)).slot (slotOf w)).mode = true → s.slotsBad (emberOf h w) [slotOf w] = false →
    (if d.bias = 0 then (s.issued h, 0, []) else
      (s.issued h).hRead h (tagOf w) d.biasAddr (64 * (if d.bias = 2 then 2 else 4))) = (u, 0, bias) →
    let slot := (s.ember (emberOf h w)).slot (slotOf w)
    let job : OutJob := ⟨h, embOf w, tagOf w, BitVec.ofNat 16 (siteOf w), []⟩
    let blocks := d.convertRow (Limits.ofEntry (u.layerEntry d.layer)) (d.columns job u.random u.cfg.active.spill bias 0 slot)
    let elems := (blocks.flatMap (·.elems)).take d.width
    let stats := rowStats (!d.fmt.isGrendy) (elems.map (·.eff)) (elems.filter fun y => y.fl &&& fCLIP ≠ 0).length
    u.hWrites h (tagOf w) (d.writes 0 blocks) = (v, 0) →
    ∃ t, exec (.out h w) s = .next t ∧ t.mem = v.mem ∧
      (∀ y, (∀ q ∈ d.writes 0 blocks, y < hearthAddr h + q.1 ∨ hearthAddr h + q.1 + q.2.length ≤ y) → t.byte y = s.byte y) ∧
      (t.ember (emberOf h w)).slot (slotOf w) = slot.setStats stats ∧
      (∀ i, i ≠ slotOf w → (t.ember (emberOf h w)).slot i = (s.ember (emberOf h w)).slot i) ∧
      (∀ e, e ≠ emberOf h w → t.ember e = s.ember e)

/-- 04_ember_instructions.md, 06_scaling_narrow_formats.md: BSST stores the bucket-set records of its rows one after another at its
address; the slots stay, and so does every byte outside them. RSTAT of one row stores the combined statistics record of the slot
over the embers that MASK names; the slots stay, and so does every byte outside the record. -/
def Obligations.RecordsStored : Prop :=
  (∀ (h : Fin 384) (w : BitVec 128) (s u : State), s.hearthRuns h = true → opcodeOf w = 0x04 → s.ecc = [] →
    (s.issued h).bsstCheck h w = .ok () → s.slotsBad (emberOf h w) (namedSlots w) = false →
    let slots := (namedSlots w).map (s.ember (emberOf h w)).slot
    let bytes := slots.flatMap fun sl => (List.range 64).flatMap fun c => (sl.elem c).record sl.mode
    let off := 64 * wf w 62 17
    (slots.all fun sl => sl.elems.all fun p => p.2.outSum = 0) = true →
    (s.issued h).bsstRows h (tagOf w) off slots = (u, 0) →
    ∃ t, exec (.bsst h w) s = .next t ∧ bytes.length = 6144 * rowsOf w ∧ t.bytes (hearthAddr h + off) bytes.length = bytes ∧
      (∀ x, x < hearthAddr h + off ∨ hearthAddr h + off + bytes.length ≤ x → t.byte x = s.byte x) ∧
      t.embers = s.embers ∧ t.hearths = s.hearths) ∧
  (∀ (h : Fin 384) (w : BitVec 128) (s u : State) (k : Bool), s.hearthRuns h = true → opcodeOf w = 0x21 → s.ecc = [] →
    rstatCheck w = .ok () → rowsOf w = 1 →
    (∀ e ∈ maskEmbers (maskOf w), s.slotsBad (8 * h + e) (namedSlots w) = false) →
    let recs := (maskEmbers (maskOf w)).map fun e => ((s.ember (8 * h + e)).slot (slotOf w)).stats
    let off := 64 * wf w 79 17
    kindOf recs = some k → (s.issued h).hWrite h (tagOf w) off (combineStats k recs).bytes = (u, 0) →
    ∃ t, exec (.rstat h w) s = .next t ∧ t.embers = s.embers ∧
      t.bytes (hearthAddr h + off) 192 = (combineStats k recs).bytes ∧
      (∀ x, x < hearthAddr h + off ∨ hearthAddr h + off + 192 ≤ x → t.byte x = s.byte x))

/-- 03_log_accumulation.md, 04_ember_instructions.md: BSADD adds each row of records into the slot it names; every other slot and
every byte stays. A clash of modes in any row fails with ARITH_MODE before a slot changes (R133). -/
def Obligations.BucketsAdded : Prop :=
  ∀ (h : Fin 384) (w : BitVec 128) (s u : State) (rows : List (List (Mode × Elem))), s.hearthRuns h = true →
    opcodeOf w = 0x05 → s.ecc = [] → (s.issued h).bsaddCheck h w = .ok () → s.slotsBad (emberOf h w) (namedSlots w) = false →
    (s.issued h).readRecords h (tagOf w) (64 * wf w 62 17) (rowsOf w) = (u, 0, rows) →
    let old := fun r => (s.ember (emberOf h w)).slot (slotOf w + r)
    let new := fun r => addRow u.cfg.active.spill u.random r (old r) (rows.getD r [])
    ((∀ r, r < rowsOf w → new r ≠ none) →
      ∃ t, exec (.bsadd h w) s = .next t ∧ t.mem = s.mem ∧
        (∀ r, r < rowsOf w → some ((t.ember (emberOf h w)).slot (slotOf w + r)) = (new r).map (·.1)) ∧
        (∀ i, i ∉ namedSlots w → (t.ember (emberOf h w)).slot i = (s.ember (emberOf h w)).slot i) ∧
        (∀ e, e ≠ emberOf h w → t.ember e = s.ember e)) ∧
    ((∃ r, r < rowsOf w ∧ new r = none) → s.stepOpen = false → u.isSet (Reg.EMB_ERR_VALID h (embOf w)) = false →
      ∃ t, exec (.bsadd h w) s = .next t ∧ t.mem = s.mem ∧ t.embers = s.embers ∧
        t.get (Reg.EMB_ERR_CODE h (embOf w)) = arithMode)

/-- 03_log_accumulation.md, 04_ember_instructions.md: KRED adds the slots of the embers that MASK names, in ember order, into those
of the first; every other slot and every byte stays. -/
def Obligations.EmbersReduced : Prop :=
  ∀ (h : Fin 384) (w : BitVec 128) (s : State) (e0 : Nat) (es : List Nat), s.hearthRuns h = true → opcodeOf w = 0x20 →
    checkSlots w true = .ok () → maskEmbers (maskOf w) = e0 :: es → es ≠ [] →
    (∀ e ∈ e0 :: es, s.slotsBad (8 * h + e) (namedSlots w) = false) →
    let old := fun e r => (s.ember (8 * h + e)).slot (slotOf w + r)
    let new := fun r => kredRow s.cfg.active.spill (s.issued h).random r (old e0 r) (es.map fun e => old e r)
    (∀ r, r < rowsOf w → new r ≠ none) →
    ∃ t, exec (.kred h w) s = .next t ∧ t.mem = s.mem ∧ t.hearths = s.hearths ∧
      (∀ r, r < rowsOf w → some ((t.ember (8 * h + e0)).slot (slotOf w + r)) = (new r).map (·.1)) ∧
      (∀ i, i ∉ namedSlots w → (t.ember (8 * h + e0)).slot i = (s.ember (8 * h + e0)).slot i) ∧
      (∀ e, e ≠ 8 * h + e0 → t.ember e = s.ember e)

/-- 06_scaling_narrow_formats.md: CODEBOOK_BUILD ends the histogram group of a slot that has 256 rows: the table built from its
counts waits as the slot's next generation, and the counts are empty. HBAR makes waiting tables live, after ending every group
that has rows; where nothing waits it changes no table. -/
def Obligations.CodebooksBuilt : Prop :=
  ∀ (h : Fin 384) (s : State), s.hearthRuns h = true →
    (∀ slot : Fin 64, 256 ≤ (sget (⟨[], 0⟩ : Histogram) (s.hearth h).hist slot).rows →
      ∃ t, exec (.codebookBuild h slot) s = .next t ∧ t = { s with hearths := t.hearths } ∧
        t.table h kindBook slot =
          (s.table h kindBook slot).load (bookOf (sget (⟨[], 0⟩ : Histogram) (s.hearth h).hist slot).counts) ∧
        sfind (t.hearth h).hist slot = none ∧ slot.val ∈ (t.hearth h).built ∧ (t.hearth h).lanes = (s.hearth h).lanes) ∧
    (∀ w, opcodeOf w = 0x22 → reservedSet w [] = false → embOf w = 0 →
      ∃ t, exec (.hbar h w) s = .next t ∧ (t.hearth h).built = [] ∧ t.mem = s.mem ∧ t.embers = s.embers ∧
        ((∀ p ∈ (s.hearth h).hist, p.2.rows = 0) → (s.hearth h).built = [] →
          (t.hearth h).tables = (s.hearth h).tables) ∧
        (∀ slot, (∀ p ∈ (s.hearth h).hist, p.2.rows = 0) → (s.hearth h).built = [slot] →
          t.table h kindBook slot = (s.table h kindBook slot).swap))

/-! ### Step programs -/

/-- 11_commands_scheduling_events.md: When the next operation of a run issues, the run's operation is in flight under the next issue
number and its program counter stands behind it; nothing else changes but idle counts of kilns. An operation that may not issue
leaves the module as it is but for what is due anyway. -/
def Obligations.OperationIssues : Prop :=
  (∀ (s : State) (p code : Nat) (op : BitVec 128) (r : ProgRun) (pc : Nat) (work : State → Nat → State), s.Issues p code op r pc →
    s.issueOp code p op alone work = work (s.begun p op r pc) r.count ∧
    (s.begun p op r pc).run p = some (r.issued pc op) ∧ s.OnlyRuns (s.begun p op r pc) ∧
    (∀ q, q ≠ p → (s.begun p op r pc).run q = s.run q)) ∧
  (∀ (s : State) (p : Nat) (code : Nat) (op : BitVec 128) (r : ProgRun) (work : State → Nat → State), s.run p = some r →
    (r.ended = true ∨ (∃ f ∈ r.flight, isFence f.op = true)) → s.issueOp code p op alone work = s)

/-- 11_commands_scheduling_events.md: END ends its run; CALL goes to the start of the program it names and remembers where to
return; RET without a schedule entry returns there; SCHED without prefetches goes to the body of entry 0. RET from the body of
schedule entry i goes to the body of entry i + 1 and, after the last entry, to where SCHED stood. -/
def Obligations.ControlOperations : Prop :=
  (∀ (p : Fin 512) (op : BitVec 128) (s : State) (r : ProgRun) (pc : Nat),
    (s.Issues p 0x00 op r pc → ∃ u : State, exec (.progEnd p op) s = .next u.progress ∧ s.OnlyRuns u ∧
      u.run p = some { r.past pc with ended := true }) ∧
    (s.Issues p 0x0E op r pc → ∃ u : State, exec (.call p op) s = .next u.progress ∧ s.OnlyRuns u ∧
      u.run p = some { r.past pc with prog := bits (sArg op) 0 32, pc := 0, stack := ⟨r.prog, pc + 1, none⟩ :: r.stack }) ∧
    (∀ b rest, s.Issues p 0x0D op r pc → r.stack = b :: rest → b.entry = none →
      ∃ u : State, exec (.ret p op) s = .next u.progress ∧ s.OnlyRuns u ∧
        u.run p = some { r.past pc with prog := b.prog, pc := b.pc, stack := rest }) ∧
    (∀ e, s.Issues p 0x0C op r pc → s.firstPrefetches p = [] → s.schedEntry p 0 = some e →
      ∃ u : State, exec (.sched p op) s = .next u.progress ∧ s.OnlyRuns u ∧
        u.run p = some { r.past pc with pc := e.body / 16, stack := ⟨r.prog, pc + 1, some 0⟩ :: r.stack })) ∧
  (∀ (p : Fin 512) (op : BitVec 128) (s : State) (r : ProgRun) (pc i : Nat) (b : ReturnPoint) (rest : List ReturnPoint),
    s.Issues p 0x0D op r pc → r.stack = b :: rest → b.entry = some i →
    (∀ e, s.schedEntry p (i + 1) = some e → s.entryPrefetches p (i + 1) = [] →
      ∃ u : State, exec (.ret p op) s = .next u.progress ∧ s.OnlyRuns u ∧
        u.run p = some { r.past pc with prog := b.prog, pc := e.body / 16, stack := { b with entry := some (i + 1) } :: rest }) ∧
    (s.schedEntry p (i + 1) = none → ∃ u : State, exec (.ret p op) s = .next u.progress ∧ s.OnlyRuns u ∧
      u.run p = some { r.past pc with prog := b.prog, pc := b.pc, stack := rest }))

/-- 11_commands_scheduling_events.md: DFENCE, MFENCE, a WAITMB of a step that is not void and a TWAIT on an armed timer stay in
flight; a WAITMB of a void step and a TWAIT on a timer that is not armed (DESIGN CHOICE, log 57) complete at once. -/
def Obligations.WaitingOperations : Prop :=
  ∀ (p : Fin 512) (op : BitVec 128) (s : State) (r : ProgRun) (pc : Nat),
    (s.Issues p 0x02 op r pc → ∃ u : State, exec (.dfence p op) s = .next u.progress ∧ s.OnlyRuns u ∧
      u.run p = some (r.issued pc op)) ∧
    (s.Issues p 0x03 op r pc → ∃ u : State, exec (.mfence p op) s = .next u.progress ∧ s.OnlyRuns u ∧
      u.run p = some (r.issued pc op)) ∧
    (s.Issues p 0x0B op r pc → ∃ u : State, exec (.waitmb p op) s = .next u.progress ∧ s.OnlyRuns u ∧
      u.run p = some (if s.runVoid p then r.past pc else r.issued pc op)) ∧
    (s.Issues p 0x10 op r pc → ∃ u : State, exec (.twait p op) s = .next u.progress ∧ s.OnlyRuns u ∧
      u.run p = some (if (sfind s.col.timers (bits (sArg op) 0 6)).isSome then r.issued pc op else r.past pc))

/-- 11_commands_scheduling_events.md: TIMER arms its timer for the stoke it names from now; TIMER_EXPIRY at that stoke disarms it
and completes the waits on it; PIN sets the level that its pin takes at the next stoke. -/
def Obligations.TimersAndPins : Prop :=
  ∀ (p : Fin 512) (op : BitVec 128) (s : State) (r : ProgRun) (pc : Nat),
    (s.Issues p 0x0F op r pc → ∃ u : State, exec (.timer p op) s = .next u.progress ∧ u.run p = some (r.past pc) ∧
      sfind u.col.timers (bits (sArg op) 0 6) = some (s.now + bits (sArg op) 32 32, !r.eval) ∧
      (∀ k, k ≠ bits (sArg op) 0 6 → sfind u.col.timers k = sfind s.col.timers k) ∧
      bits (sArg op) 0 6 ∉ u.col.expired ∧ u.regs = s.regs ∧ u.mem = s.mem ∧ u.pins = s.pins) ∧
    (s.Issues p 0x11 op r pc → ∃ u : State, exec (.pin p op) s = .next u.progress ∧ u.run p = some (r.past pc) ∧
      sfind u.pins.next (bits (sArg op) 0 4) = some (bit (sArg op) 8) ∧
      (∀ k, k ≠ bits (sArg op) 0 4 → sfind u.pins.next k = sfind s.pins.next k) ∧
      u.regs = s.regs ∧ u.mem = s.mem ∧ u.col.timers = s.col.timers) ∧
    (∀ (i : Fin 64) at_ st, sfind s.col.timers i = some (at_, st) → at_ ≤ s.now →
      ∃ t, ∃ u : State, exec (.timerExpiry i) s = .next t ∧ t = ((s.timerWaits i).foldl (fun v x => v.opDone x.1 x.2 0) u).progress ∧
        sfind u.col.timers i = none ∧ i.val ∈ u.col.expired ∧ u.regs = s.regs ∧ u.mem = s.mem ∧
        (∀ k, k ≠ i.val → sfind u.col.timers k = sfind s.col.timers k)) ∧
    (∀ (i : Fin 64) at_ st, sfind s.col.timers i = some (at_, st) → s.now < at_ → exec (.timerExpiry i) s = .next s)

/-- 11_commands_scheduling_events.md, 09_memory_tiers.md: TSWAP and OWNER with a legal kind, slot, region and owner wait for the
run's next fence. When a run passes its MFENCE, the owner of each region that its waiting OWNER operations name changes to the
word they give, and no other region changes. -/
def Obligations.SwapsAndOwners : Prop :=
  (∀ (p : Fin 512) (op : BitVec 128) (s : State) (r : ProgRun) (pc : Nat),
    (s.Issues p 0x09 op r pc → 1 ≤ bits (sArg op) 0 8 → bits (sArg op) 0 8 ≤ 5 →
      bits (sArg op) 16 8 < slotLimit (bits (sArg op) 0 8) →
      ∃ u : State, exec (.tswap p op) s = .next u.progress ∧ s.OnlyRuns u ∧
        u.run p = some { r.past pc with swaps := r.swaps ++ [op] }) ∧
    (∀ g, s.Issues p 0x0A op r pc → s.cfg.active.regions[bits (sArg op) 0 14]? = some g →
      ownerOk g.base g.len (sArg op / 2 ^ 32) = true →
      ∃ u : State, exec (.owner p op) s = .next u.progress ∧ s.OnlyRuns u ∧
        u.run p = some { r.past pc with owners := r.owners ++ [op] })) ∧
  (∀ (s : State) (x : ProgRun × Flight) (r : ProgRun) (op : BitVec 128) (g : Region), s.run x.1.id = some r → sOp x.2.op = 0x03 →
    r.swaps = [] → r.owners = [op] → (r.eval = true ∨ s.gnormOf r.main = none) →
    s.cfg.active.regions[bits (sArg op) 0 14]? = some g →
    let t := s.passFence 0 x
    t.cfg.active.regions = s.cfg.active.regions.set (bits (sArg op) 0 14)
      { g with owner := BitVec.ofNat 32 (sArg op / 2 ^ 32) } ∧ t.regs = s.regs ∧ t.mem = s.mem)

/-- 11_commands_scheduling_events.md, 07_sparsity_routing.md, 04_ember_instructions.md: RUNH, ROUTE, DISPATCH and COMBINE of a step
that is void complete at once and do nothing; else, where no kiln of theirs is gated, they do their work on their hearths in
order and complete with its code. RUNH runs, on each hearth of its kilns that is not quarantined, the words at OFFSET one after
another. -/
def Obligations.HearthOperations : Prop :=
  (∀ (p : Fin 512) (op : BitVec 128) (l : List RemotePair) (s : State) (r : ProgRun) (pc : Nat),
    ∀ i ∈ ([(0x01, .runh p op, []), (0x06, .route p op, []), (0x07, .dispatch p op l, l), (0x08, .combine p op l, l)] :
      List (Nat × Instr × List RemotePair)), s.Issues p i.1 op r pc →
      (s.runVoid p = true → ∃ u : State, exec i.2.1 s = .next u.progress ∧ s.OnlyRuns u ∧ u.run p = some (r.past pc)) ∧
      (s.runVoid p = false → s.anyGated (s.opKilns p op) = false →
        ∃ t, ∃ w : State, ∃ c, exec i.2.1 s = .next t ∧ (s.begun p op r pc).hearthWork p op i.2.2 = (w, c) ∧ t = (w.opDone p r.count c).progress)) ∧
  (∀ (s : State) (p : Nat) (op : BitVec 128), sOp op = 0x01 →
    (s.hearthWork p op []).1 = ((s.opHearths p op).filter fun h => !s.quarantined (kilnOf h)).foldl
      (fun t h => runWords h (bits (sArg op) 32 24) (bits (sArg op) 0 23) t) s ∧
    ∀ (h n at_ : Nat) (u : State) (bs : List Byte), at_ + 16 ≤ hearthBytes → s.hRead h 0 at_ 16 = (u, 0, bs) →
      runWords h (n + 1) at_ s = runWords h n (at_ + 16) (doWord h (BitVec.ofNat 128 (leNat bs)) u))

/-- 11_commands_scheduling_events.md, 14_odnil_links_pair.md: COPYOP of a step that is not void reads its record and copies; outside
the host window it completes at once with the code of its accesses. COLL that is not void, aligned and sound joins the
collectives in flight and sends READY to the members whose data it needs. A collective whose TIMEOUT has passed takes LINK and
fails with LINK_TIMEOUT. -/
def Obligations.CopiesAndCollectives : Prop :=
  (∀ (p : Fin 512) (op : BitVec 128) (s v w : State) (r : ProgRun) (pc c : Nat) (rec : List Byte), s.Issues p 0x04 op r pc →
    (s.runVoid p = true → ∃ u : State, exec (.copyop p op) s = .next u.progress ∧ s.OnlyRuns u ∧ u.run p = some (r.past pc)) ∧
    (s.runVoid p = false → s.windowOpen = false → (s.begun p op r pc).readMem (asCopier s) (sArg op) 32 = (v, 0, rec) →
      v.copyRecord rec = (w, c) → ∃ t, exec (.copyop p op) s = .next t ∧ t = (w.opDone p r.count c).progress)) ∧
  (∀ (p : Fin 512) (op : BitVec 128) (s v : State) (r : ProgRun) (pc : Nat) (b : List Byte) (ms : List Nat),
    s.Issues p 0x05 op r pc → s.runVoid p = false → sArg op % 64 = 0 →
    (s.begun p op r pc).readMem (s.begun p op r pc).stepCollier (sArg op) 64 = (v, 0, b) →
    let d := CollDesc.ofBytes b
    v.collDescOk b (if d.single then 2 else d.cnt) = true → v.collMembers d = some ms → v.noticesFor d.xid = [] →
    (∀ m ∈ ms, m ≠ v.selfRank → v.reachable m = true) →
    ∃ t, ∃ u : State, ∃ c, exec (.coll p op) s = .next t ∧ t = (u.moveColl c).progress ∧ c.xid = d.xid ∧ c.members = ms ∧ c.run = p.val ∧
      c.seq = r.count ∧ c.issued = v.now ∧ c.served = [] ∧ c.recv = [] ∧ c ∈ u.link.colls) ∧
  (∀ (xid : BitVec 32) (s : State),
    (∀ c, s.link.colls.find? (fun c => c.xid == xid.toNat && decide (c.issued + c.d.timeout ≤ s.now)) = some c →
      ∃ t, exec (.collectiveTimeout xid) s = .next t ∧ t = ((s.veto vLINK).failColl c linkTimeout 31).progress) ∧
    ((∀ c ∈ s.link.colls, c.xid = xid.toNat → s.now < c.issued + c.d.timeout) → exec (.collectiveTimeout xid) s = .next s))

/-- 11_commands_scheduling_events.md, 12_training_step.md: GNORM and UPDATE of an evaluation complete at once and do nothing; UPDATE
of an open step waits for COMMIT. -/
def Obligations.NormAndUpdateIssue : Prop :=
  ∀ (p : Fin 512) (op : BitVec 128) (s : State) (r : ProgRun) (pc : Nat),
    (s.Issues p 0x12 op r pc → r.eval = true →
      ∃ u : State, exec (.gnorm p op) s = .next u.progress ∧ s.OnlyRuns u ∧ u.run p = some (r.past pc)) ∧
    (s.Issues p 0x13 op r pc → r.eval = true →
      ∃ u : State, exec (.update p op) s = .next u.progress ∧ s.OnlyRuns u ∧ u.run p = some (r.past pc)) ∧
    (∀ v g rs x w c, s.Issues p 0x12 op r pc → r.eval = false →
      (s.begun p op r pc).readGnorm (s.opKilns p op) (sArg op) = (v, .ok (g, rs)) →
      (v.gnormIssued p (fieldAt g 20 4)).checkUpdate p = (x, 0) → x.isSet Reg.COL_STEP_STATUS_VOID = false →
      x.streamGnorm rs = (w, c) → ∃ t, exec (.gnorm p op) s = .next t ∧ t = (w.opDone p r.count c).progress) ∧
    (s.Issues p 0x13 op r pc → r.eval = false → s.stepState ≠ 5 → s.stepState ≠ 4 →
      ∃ u : State, exec (.update p op) s = .next u.progress ∧ u.run p = some (r.issued pc op) ∧ u.mem = s.mem ∧
        u.regs = s.regs ∧ u.step.updates = s.step.updates ++ [⟨p, r.count, sArg op, s.opKilns p op⟩])

/-! ### Host commands -/

/-- 11_commands_scheduling_events.md: Taking the command at the head of a submission queue moves its head by one and adds it to the
commands started; memory, configuration and the step stay. A command that a check refuses is taken and completes with the code
of the first such check, and does nothing else; a command that is not at the head of its queue or may not start does nothing
(the row's condition, log 27). -/
def Obligations.CommandsTakenOrRefused : Prop :=
  (∀ (s : State) (q : Fin 64) (d : BitVec 512),
    let t := s.takeHead q d
    t.col.started = s.col.started ++ [s.startOf q d] ∧ t.mem = s.mem ∧ t.cfg = s.cfg ∧ t.step = s.step ∧
      t.embers = s.embers ∧ t.hearths = s.hearths ∧
      t.get (Reg.COL_SQ_HEAD_HEAD q) = (s.get (Reg.COL_SQ_HEAD_HEAD q) + 1) % 2 ^ (Reg.COL_SQ_HEAD_HEAD q).w ∧
      s.WordsKept t [(Reg.COL_SQ_HEAD_HEAD q).off]) ∧
  (∀ (q : Fin 64) (d : BitVec 512) (s : State),
    ∀ p ∈ ([(0x01, .loadConfig q d), (0x02, .runStep q d), (0x03, .commitStep q d), (0x04, .abortStep q d), (0x05, .evalRun q d),
      (0x06, .bank q d), (0x07, .rekindle q d), (0x08, .adopt q d), (0x09, .scanCrc q d), (0x0A, .copy q d), (0x0B, .fill q d),
      (0x0C, .ingestBind q d), (0x0D, .tableLoad q d), (0x0E, .tableSwap q d), (0x0F, .fence q d), (0x10, .eventWait q d)] :
      List (Nat × Instr)), dOpc d = p.1 →
      (s.canTake q d = false → exec p.2 s = .next s) ∧
      (s.canTake q d = true → s.refusal d ≠ 0 →
        exec p.2 s = .next ((s.takeHead q d).complete (s.startOf q d) (s.refusal d))))

/-- R383: In the base configuration LOAD_CONFIG, COPY, FILL, SCAN_CRC, FENCE and EVENT_WAIT operate, and every other command fails
with CFG_NONE: of the descriptors that are sound, under an open session and outside P2. -/
def Obligations.BaseConfigurationCommands : Prop :=
  ∀ (q : Fin 64) (d : BitVec 512) (s : State), s.cfg.active.loaded = false → descriptorOk d = true → s.sec.sessions ≠ [] →
    s.get Reg.PWR_STATUS_PSTATE ≠ 2 → s.canTake q d = true →
    ∀ p ∈ ([(0x01, true, .loadConfig q d), (0x02, false, .runStep q d), (0x03, false, .commitStep q d), (0x04, false, .abortStep q d),
      (0x05, false, .evalRun q d), (0x06, false, .bank q d), (0x07, false, .rekindle q d), (0x08, false, .adopt q d),
      (0x09, true, .scanCrc q d), (0x0A, true, .copy q d), (0x0B, true, .fill q d), (0x0C, false, .ingestBind q d),
      (0x0D, false, .tableLoad q d), (0x0E, false, .tableSwap q d), (0x0F, true, .fence q d), (0x10, true, .eventWait q d)] :
      List (Nat × Bool × Instr)), dOpc d = p.1 →
      (p.2.1 = true → s.Accepts q d p.1) ∧
      (p.2.1 = false → exec p.2.2 s = .next ((s.takeHead q d).complete (s.startOf q d) cfgNone))

/-- 11_commands_scheduling_events.md, 13_banking_recovery.md: COPY reads its source and then writes its destination, FILL writes its
pattern, SCAN_CRC answers the CRC of the bytes that it reads; each completes with the code of its accesses. A COPY or SCAN_CRC
of the host window asks the host first. The pattern of FILL repeats its eight bytes, least significant first. -/
def Obligations.DataCommands : Prop :=
  (∀ (q : Fin 64) (d : BitVec 512) (s u v : State) (c : Nat) (bs : List Byte),
    (s.Accepts q d 0x0A → (touchesWindow (dField d 8 8) (dField d 24 8) = false ∨ (s.takeHead q d).windowOpen = false) →
      (s.takeHead q d).readMem (hostCopier d) (dField d 8 8) (dField d 24 8) = (u, 0, bs) →
      u.writeMem (hostCopier d) (dField d 16 8) bs = (v, c) →
      exec (.copy q d) s = .next (v.complete (s.startOf q d) c).settle) ∧
    (s.Accepts q d 0x0A → touchesWindow (dField d 8 8) (dField d 24 8) = true → (s.takeHead q d).windowOpen = true →
      exec (.copy q d) s = .next ((s.takeHead q d).askHost (.command q (dCid d))).settle) ∧
    (s.Accepts q d 0x0B → (s.takeHead q d).writeMem (hostCopier d) (dField d 8 8) (patternBytes (dField d 24 8) (dField d 16 8)) = (v, c) →
      exec (.fill q d) s = .next (v.complete (s.startOf q d) c).settle) ∧
    (s.Accepts q d 0x09 → (touchesWindow (dField d 8 8) (dField d 16 8) = false ∨ (s.takeHead q d).windowOpen = false) →
      (∀ p ∈ piecesOf (dField d 8 8) (dField d 16 8), (s.takeHead q d).scanPiece d p.1 p.2 = 0) →
      State.scanRead (dCid d) (piecesOf (dField d 8 8) (dField d 16 8)) (s.takeHead q d) = (u, 0, bs) →
      exec (.scanCrc q d) s = .next ((u.bump Reg.CHK_BYTES_COUNT bs.length).complete (s.startOf q d) 0
        (if bit (dField d 25 1) 0 then crcChain (crcKind (dField d 24 1)) (dField d 32 8) bs
          else crc (crcKind (dField d 24 1)) bs)).settle)) ∧
  (∀ (pattern n i : Nat), i < n → (patternBytes pattern n).length = n ∧
    ((patternBytes pattern n).getD i 0).toNat = pattern / 2 ^ (8 * (i % 8)) % 256)

/-- 12_training_step.md: RUN_STEP with the step's number opens a training step from IDLE or COMMITTED; with another number, in
another state or without the dataset that its programs wait for it completes with that code and changes nothing of the step.
EVAL_RUN opens an evaluation of the branches that its mask names, in IDLE or COMMITTED only. -/
def Obligations.StepsOpen : Prop :=
  (∀ (q : Fin 64) (d : BitVec 512) (s : State), s.Accepts q d 0x02 → s.runsWait = false →
    let u := s.takeHead q d
    let c := s.startOf q d
    let n := dField d 8 8
    (s.stepState = 7 → exec (.runStep q d) s = .next (u.complete c stepTorn).settle) ∧
    (s.stepState ∉ [0, 5, 7] → exec (.runStep q d) s = .next (u.complete c stepStateErr).settle) ∧
    (s.stepState ∈ [0, 5] → n ≠ s.get Reg.COL_STEP_NEXT_NEXT → exec (.runStep q d) s = .next (u.complete c stepNumber).settle) ∧
    (s.stepState ∈ [0, 5] → n = s.get Reg.COL_STEP_NEXT_NEXT → (u.branches.all fun b => !u.usesWaitmb 16 b.1.stepProg) = true →
      exec (.runStep q d) s = .next ((u.openTraining n (bit (dField d 16 1) 0)).progress).settle)) ∧
  (∀ (q : Fin 64) (d : BitVec 512) (s : State), s.Accepts q d 0x05 → s.runsWait = false →
    let u := s.takeHead q d
    let c := s.startOf q d
    let mask := dField d 8 4
    (u.evalMissing mask = true → exec (.evalRun q d) s = .next (u.complete c stepInvalid).settle) ∧
    (u.evalMissing mask = false → s.stepState = 7 → exec (.evalRun q d) s = .next (u.complete c stepTorn).settle) ∧
    (u.evalMissing mask = false → s.stepState ∉ [0, 5, 7] → exec (.evalRun q d) s = .next (u.complete c stepStateErr).settle) ∧
    (u.evalMissing mask = false → s.stepState ∈ [0, 5] →
      ((u.evalBranches mask).all fun b => !u.usesWaitmb 16 b.1.evalProg) = true →
      exec (.evalRun q d) s = .next (u.openEval mask).progress.settle))

/-- 12_training_step.md: What COMMIT_STEP and ABORT_STEP do in each state of the step. -/
def Obligations.CommitAndAbort : Prop :=
  ∀ (q : Fin 64) (d : BitVec 512) (s : State),
    let u := s.takeHead q d
    let c := s.startOf q d
    (s.Accepts q d 0x03 → dField d 8 8 = s.get Reg.COL_STEP_NUM_STEP →
      (s.stepState = 1 ∨ s.stepState = 2 → exec (.commitStep q d) s = .next (u.holdCommand c).settle) ∧
      (s.stepState = 3 → exec (.commitStep q d) s = .next u.beginCommit.progress.settle) ∧
      (s.stepState = 7 → exec (.commitStep q d) s = .next (u.complete c stepTorn).settle) ∧
      (s.stepState = 6 → exec (.commitStep q d) s = .next (u.complete c stepVetoed 0 u.voteDetail).settle)) ∧
    (s.Accepts q d 0x03 → dField d 8 8 ≠ s.get Reg.COL_STEP_NUM_STEP →
      exec (.commitStep q d) s = .next (u.complete c stepNumber).settle) ∧
    (s.Accepts q d 0x04 → dField d 8 8 = s.get Reg.COL_STEP_NUM_STEP →
      (s.stepState ∈ [1, 2, 3] → exec (.abortStep q d) s = .next (u.veto vHOST).progress.settle) ∧
      (s.stepState = 7 → exec (.abortStep q d) s = .next (u.complete c stepTorn).settle) ∧
      (s.stepState ∈ [0, 4, 5] → exec (.abortStep q d) s = .next (u.complete c stepStateErr).settle)) ∧
    (s.Accepts q d 0x04 → dField d 8 8 ≠ s.get Reg.COL_STEP_NUM_STEP →
      exec (.abortStep q d) s = .next (u.complete c stepNumber).settle)

/-- 10_configuration_bitstream.md: LOAD_CONFIG during a step or an evaluation completes with CFG_BUSY; with BASE set it begins to
load the base configuration; else it reads the image, checks it, and begins to load it or fails with the code of the first check
that fails. When no operation is in flight, CONFIG_SWITCH makes the loaded configuration active, completes its LOAD_CONFIG and
records the load. -/
def Obligations.ConfigurationCommands : Prop :=
  (∀ (q : Fin 64) (d : BitVec 512) (s u v : State) (h img : List Byte), s.Accepts q d 0x01 →
    s.loading = false → s.isSet Reg.BNK_STATUS_BUSY = false →
    (touchesWindow (dField d 8 8) 64 = false ∨ (s.takeHead q d).windowOpen = false) →
    let w := s.takeHead q d
    let c := s.startOf q d
    (w.stepOpen = true ∨ w.evaluating = true → exec (.loadConfig q d) s = .next (w.complete c cfgBusy).settle) ∧
    (w.stepOpen = false → w.evaluating = false → bit (dField d 16 1) 0 = true →
      ∃ l, exec (.loadConfig q d) s = .next (w.beginLoad l).settle ∧ l.toBase = true ∧ l.bank = w.baseBank) ∧
    (w.stepOpen = false → w.evaluating = false → bit (dField d 16 1) 0 = false →
      w.readMem { asHost with tag := dCid d } (dField d 8 8) 64 = (u, 0, h) →
      (∀ e, checkHeader h = .error e → exec (.loadConfig q d) s = .next (u.loadFailed c e).settle) ∧
      (∀ x, checkHeader h = .ok x →
        u.readMem { asHost with tag := dCid d } (dField d 8 8) (fieldAt h 24 8) = (v, 0, img) →
        (∀ e, checkImage v img = .error e → exec (.loadConfig q d) s = .next (v.loadFailed c e).settle) ∧
        (∀ bank tables, checkImage v img = .ok (bank, tables) →
          exec (.loadConfig q d) s = .next (v.beginLoad (loadingOf c (dField d 8 8) img bank tables)).settle)))) ∧
  (∀ (s : State) (l : Loading) (c : Started), s.cfg.loading = some l → (∀ r ∈ s.col.runs, r.flight = []) →
    (s.col.started.find? fun c => c.opc = 0x01 && c.sq = l.sq && c.cid = l.cid) = some c →
    (l.toBase = true ∨ s.badRole l.bank l.kilns = none) →
    exec .configSwitch s = .next (((s.switchTo l).complete c 0).auditLoad l))

/-- 06_scaling_narrow_formats.md, 10_configuration_bitstream.md, 11_commands_scheduling_events.md: TABLE_LOAD of a sound table loads
it; one that is malformed completes with CFG_TABLE. TABLE_SWAP swaps the generations that it names. Swapping a table makes its
other generation live, and swapping it twice gives back the first. -/
def Obligations.TableCommands : Prop :=
  (∀ (q : Fin 64) (d : BitVec 512) (s u v : State) (bs : List Byte) (k : Nat), s.loading = false →
    let c := s.startOf q d
    (s.Accepts q d 0x0D → (touchesWindow (dField d 16 8) (dField d 24 4) = false ∨ (s.takeHead q d).windowOpen = false) →
      (s.takeHead q d).readMem { asHost with tag := dCid d } (dField d 16 8) (dField d 24 4) = (u, 0, bs) →
      (tableOk (dField d 8 1) bs = false → exec (.tableLoad q d) s = .next (u.complete c cfgTable).settle) ∧
      (tableOk (dField d 8 1) bs = true →
        u.loadTable (dField d 8 1) (dField d 10 2) (dField d 12 4) (dField d 28 4) bs = (v, k) →
        exec (.tableLoad q d) s = .next (v.complete c k).settle)) ∧
    (s.Accepts q d 0x0E → s.stepOpen = false → s.evaluating = false → exec (.tableSwap q d) s =
      .next (((s.takeHead q d).swapTable (dField d 8 1) (dField d 10 2) (dField d 12 4) 0xFFF).complete c 0).settle)) ∧
  (∀ (s : State) (h : Fin 384) (kind slot : Nat), kind = kindPwl ∨ kind = kindProg → slot < 64 →
    let t := s.swapTable kind slot (2 ^ (h.val / 12)) (2 ^ (h.val % 12))
    t.table h kind slot = (s.table h kind slot).swap ∧ (∀ g, g ≠ h.val → t.hearth g = s.hearth g) ∧
      (∀ k, k ≠ kind * 64 + slot → sget TwoGen.empty (t.hearth h).tables k = sget TwoGen.empty (s.hearth h).tables k) ∧
      t.mem = s.mem ∧ t.regs = s.regs)

/-- 11_commands_scheduling_events.md, 08_ingest_decode_shuffle.md: FENCE and EVENT_WAIT are taken and wait among the commands
started; WAIT_EXPIRED completes an EVENT_WAIT whose TIMEOUT has passed with OK_TIMEOUT. INGEST_BIND of a sound descriptor binds
its dataset; a malformed one completes with ING_BIND. -/
def Obligations.WaitsAndBindings : Prop :=
  (∀ (q : Fin 64) (d : BitVec 512) (s : State),
    (s.Accepts q d 0x0F → exec (.fence q d) s = .next (s.takeHead q d).settle) ∧
    (s.Accepts q d 0x10 → exec (.eventWait q d) s = .next (s.takeHead q d).settle) ∧
    (∀ (cid : BitVec 16) (c : Started), (s.col.started.find? fun c => c.opc = 0x10 && c.sq = q.val && c.cid = cid.toNat &&
        dField c.desc 24 8 != 0 && decide (c.start + dField c.desc 24 8 ≤ s.now)) = some c →
      exec (.waitExpired q cid) s = .next (s.complete c 2))) ∧
  (∀ (q : Fin 64) (d : BitVec 512) (s u : State) (r : List Byte), s.Accepts q d 0x0C → s.loading = false →
    touchesWindow (dField d 8 8) 128 = false → s.bindWaits (s.peekByte (dField d 8 8)).toNat = false →
    (s.takeHead q d).readMem { asHost with tag := dCid d } (dField d 8 8) 128 = (u, 0, r) → u.bindWaits (fieldAt r 0 1) = false →
    u.bank.kx1 = none →
    (bindOk r = false → exec (.ingestBind q d) s = .next (u.complete (s.startOf q d) ingBind).settle) ∧
    (bindOk r = true → (fieldAt r 0 1 = 0 → fieldAt r 32 8 ≤ u.get Reg.COL_STEP_NEXT_NEXT) →
      exec (.ingestBind q d) s = .next ((u.loadBind (fieldAt r 0 1) r).complete (s.startOf q d) 0).settle))

/-- 13_banking_recovery.md: BANK starts a bank of the levels that are open, and fails with BNK_STATE in a torn step and BNK_NOTHING
without a committed shard; AUTOMATIC_BANK starts one when a bank is due. REKINDLE and ADOPT in a step or an evaluation fail with
BNK_STATE; ADOPT of a rank that the table does not hold fails with BNK_RANK; otherwise they begin to look for copies of the
levels that they name. The host's store counters: a new HHEAD or HTAIL is kept, and lets a store bank or rekindle move on.
STORE_STALL gives up a store that has not moved for 1 s (12,500,000 stokes). -/
def Obligations.BankCommands : Prop :=
  (∀ (q : Fin 64) (d : BitVec 512) (s : State), s.isSet Reg.BNK_STATUS_BUSY = false →
    (s.Accepts q d 0x06 → s.quiet = true →
      let u := s.takeHead q d
      let named := u.namedLevels (dField d 8 1)
      let levels := u.openLevels named u.bankSize
      (s.stepState = 7 ∨ s.get Reg.COL_STEP_LAST_OUTCOME = 4 →
        exec (.bank q d) s = .next (u.bankReply s.col.order bnkState 0 0).settle) ∧
      (s.stepState ≠ 7 → s.get Reg.COL_STEP_LAST_OUTCOME ≠ 4 → (s.get Reg.COL_STEP_NEXT_NEXT = 0 ∨ s.step.shards = []) →
        exec (.bank q d) s = .next (u.bankReply s.col.order bnkNothing 0 0).settle) ∧
      (s.stepState ≠ 7 → s.get Reg.COL_STEP_LAST_OUTCOME ≠ 4 → s.get Reg.COL_STEP_NEXT_NEXT ≠ 0 → s.step.shards ≠ [] →
        bit named 2 = false → levels ≠ 0 →
        exec (.bank q d) s = .next (u.startBank (some s.col.order) named levels (dField d 16 8) (dField d 24 8)).settle)) ∧
    (s.bank.due = false → exec .automaticBank s = .next s) ∧
    (s.bank.due = true → s.step.shards ≠ [] →
      let u := { s with bank := { s.bank with due := false } }
      let named := u.namedLevels (u.get Reg.BNK_CTL_ALEVELS % 4)
      let levels := u.openLevels named u.bankSize
      levels ≠ 0 → exec .automaticBank s = .next (u.startBank none named levels 0 0))) ∧
  (∀ (q : Fin 64) (d : BitVec 512) (s : State), s.isSet Reg.BNK_STATUS_BUSY = false →
    let u := s.takeHead q d
    (s.Accepts q d 0x07 → (s.stepState ∉ [0, 5, 7] ∨ u.evaluating = true) →
      exec (.rekindle q d) s = .next (u.bankReply s.col.order bnkState 0 0).settle) ∧
    (s.Accepts q d 0x07 → s.stepState ∈ [0, 5, 7] → u.evaluating = false → bit (dField d 8 1) 0 = false →
      bit (dField d 8 1) 2 = false → u.trialGoesOn (dField d 8 1) (dField d 24 8) = false →
      ∃ r, exec (.rekindle q d) s = .next (u.endTrial.beginRekindle r none).settle ∧ r.order = s.col.order ∧ r.rank = none ∧
        r.levels % 4 = dField d 8 1 % 4 ∧ r.target = dField d 24 8) ∧
    (s.Accepts q d 0x08 → (s.stepState ∉ [0, 5, 7] ∨ u.evaluating = true) →
      exec (.adopt q d) s = .next (u.bankReply s.col.order bnkState 0 0).settle) ∧
    (s.Accepts q d 0x08 → s.stepState ∈ [0, 5, 7] → u.evaluating = false →
      (u.rankEntry (dField d 8 2) = none → exec (.adopt q d) s = .next (u.bankReply s.col.order bnkRank 0 0).settle) ∧
      (∀ e, u.rankEntry (dField d 8 2) = some e → e.state ≠ 1 → e.pair ≠ 0xFFFF → u.endTrial.reachable e.pair = false →
        dField d 16 8 = 0 →
        ∃ r, exec (.adopt q d) s = .next (u.endTrial.beginRekindle r none).settle ∧ r.order = s.col.order ∧
          r.rank = some (dField d 8 2) ∧ r.levels = 0))) ∧
  (∀ (s : State) (v : BitVec 64),
    (s.bank.run = none → ∃ t, exec (.bnkStoreHostCountWrite .hhead v) s = .next t ∧
      t.get Reg.BNK_STORE_HHEAD_COUNT = v.toNat ∧ t = { s with regs := t.regs } ∧ s.WordsKept t [Reg.BNK_STORE_HHEAD_COUNT.off]) ∧
    (s.bank.rekindle = none → ∃ t, exec (.bnkStoreHostCountWrite .htail v) s = .next t ∧
      t.get Reg.BNK_STORE_HTAIL_COUNT = v.toNat ∧ t = { s with regs := t.regs } ∧ s.WordsKept t [Reg.BNK_STORE_HTAIL_COUNT.off]) ∧
    (∀ r, s.bank.run = some r → r.store = true →
      exec .storeStall s = .next (if r.moved + 12500000 ≤ s.now then (s.bnkErr bnkStore 2).abandonLevel 2 else s)) ∧
    (∀ r, s.bank.run = none → s.bank.rekindle = some r → r.store = true →
      exec .storeStall s = .next (if r.moved + 12500000 ≤ s.now then s.storeGone else s)))

/-- 12_training_step.md, 14_odnil_links_pair.md: VOTE_CLOSE closes the vote and sends the module's contribution when its step is
ready to close; a reduction that is late takes LINK; the global result decides the step. An aborted step ends when it has
drained: it is IDLE, its RUN_STEP completes with STEP_VETOED and its ABORT_STEP with success. In mirrored mode the digest pass
computes the update without storing it and sends its digest; a partner's digest that does not come takes LINK. -/
def Obligations.StepEnds : Prop :=
  (∀ (s : State),
    (s.closesNow = false → exec .voteClose s = .next s) ∧
    (s.closesNow = true →
      ∃ u c, exec .voteClose s = .next (State.progress u) ∧ u.isSet Reg.COL_STEP_STATUS_CLOSED = true ∧
        u.out.getLast? = some (.contribution c) ∧ c.vote = BitVec.ofNat 32 (u.get Reg.COL_STEP_LOCAL_LOCAL) ∧
        c.step = BitVec.ofNat 64 (u.get Reg.COL_STEP_NUM_STEP)) ∧
    (∀ t, s.step.deadline = some t → s.stepState = 2 → s.isSet Reg.COL_STEP_STATUS_CLOSED = true → s.link.mirror = none →
      exec .reductionTimeout s = .next (if t ≤ s.now then (s.veto vLINK).progress else s)) ∧
    (s.step.deadline = none → exec .reductionTimeout s = .next s) ∧
    (∀ g, s.stepState = 2 → s.isSet Reg.COL_STEP_STATUS_CLOSED = true → s.link.mirror = none →
      let u := (s.takeResult g).replayCheck
      exec (.globalResult g) s = .next (if u.stepState = 2 then u.settleVote g else u).progress) ∧
    (∀ g, s.stepState ≠ 2 → exec (.globalResult g) s = .next s)) ∧
  (∀ (s : State), (s.drained = false → exec .stepDrain s = .next s) ∧
    (s.drained = true → ∃ u, exec .stepDrain s = .next (u.completeEvery 0x04 0 0 0 0) ∧
      u = ((s.enter 0).clearRuns false).completeEvery 0x02 stepVetoed (((s.enter 0).clearRuns false).get Reg.COL_STEP_NUM_STEP)
        ((s.enter 0).clearRuns false).voteDetail ((s.enter 0).clearRuns false).step.flags)) ∧
  (∀ (s : State) (m : Mirror), s.link.mirror = some m →
    (∀ u d, s.stepState = 2 → m.outcome = 0 → m.digest = none → s.updatesIssued = true →
      State.dryUpdates s.step.updates s crc64.init = (u, .ok d) →
      exec .digestPass s = .next (u.sendDigest m (BitVec.ofNat 64 d)).progress) ∧
    (m.digest.isSome = true → exec .digestPass s = .next s) ∧
    (s.stepState = 2 → m.digest.isSome = true → s.link.digestIn = none →
      exec .digestTimeout s = .next (if m.sentAt + s.get Reg.PAIR_CTL_DTIMEOUT ≤ s.now then (s.veto vLINK).progress else s)))

/-! ### Queues and ingest -/

/-- 11_commands_scheduling_events.md, 15_host_interface.md, 08_ingest_decode_shuffle.md: A doorbell of an enabled submission queue
moves its tail and lets commands be fetched; one that names more entries than the queue holds faults the queue; a doorbell of a
queue that is disabled, faulted or draining does nothing (DESIGN CHOICE, log 28). A completion queue's doorbell moves its head
and lets records waiting for room be written. A doorbell write that is not 8 bytes at the doorbell's own offset, or is too large
a value, is a bad access and nothing else; in recovery or in D3hot no doorbell has effect. A ring's tail doorbell moves the tail
where the ring has room for it, and disables the ring with ING_RING where it has not. -/
def Obligations.Doorbells : Prop :=
  (∀ (q : Fin 64) (a : DoorbellWrite) (s : State), s.bar2Open = true → doorbellFits a 32 = true →
    let u := s.linkRx a.size.toNat
    let v := a.value.toNat
    let size := 2 ^ u.get (Reg.COL_SQ_CTL_LOG2ENT q)
    ((u.isSet (Reg.COL_SQ_CTL_EN q) = false ∨ u.isSet (Reg.COL_SQ_CTL_FAULT q) = true ∨ u.isSet (Reg.COL_SQ_CTL_DRAIN q) = true) →
      exec (.sqTailDoorbell q a) s = .next u) ∧
    (u.isSet (Reg.COL_SQ_CTL_EN q) = true → u.isSet (Reg.COL_SQ_CTL_FAULT q) = false → u.isSet (Reg.COL_SQ_CTL_DRAIN q) = false →
      4 ≤ u.get (Reg.COL_SQ_CTL_LOG2ENT q) → u.get (Reg.COL_SQ_CTL_LOG2ENT q) ≤ 16 →
      ((v + 2 ^ 32 - u.get (Reg.COL_SQ_TAIL_TAIL q)) % 2 ^ 32 ≤ size → (v + 2 ^ 32 - u.get (Reg.COL_SQ_HEAD_HEAD q)) % 2 ^ 32 ≤ size →
        exec (.sqTailDoorbell q a) s = .next ((u.put (Reg.COL_SQ_TAIL_TAIL q) v).fetchHead q).settle) ∧
      (size < (v + 2 ^ 32 - u.get (Reg.COL_SQ_HEAD_HEAD q)) % 2 ^ 32 → exec (.sqTailDoorbell q a) s = .next (u.faultQueue q).settle)) ∧
    exec (.cqHeadDoorbell q a) s = .next ((u.put (Reg.COL_CQ_HEAD_HEAD q) v).cqFlush q)) ∧
  (∀ (q : Fin 64) (r : Fin 32) (a : DoorbellWrite) (s : State),
    (s.bar2Open = false → exec (.sqTailDoorbell q a) s = .next s ∧ exec (.cqHeadDoorbell q a) s = .next s ∧
      exec (.ringTailDoorbell r a) s = .next s) ∧
    (s.bar2Open = true → doorbellFits a 32 = false →
      exec (.sqTailDoorbell q a) s =
        .next ((s.linkRx a.size.toNat).badAccess 1 (q * 0x1000 + a.offset.toNat) a.size.toNat true) ∧
      exec (.cqHeadDoorbell q a) s =
        .next ((s.linkRx a.size.toNat).badAccess 1 (0x40000 + q * 0x1000 + a.offset.toNat) a.size.toNat true))) ∧
  (∀ (r : Fin 32) (a : DoorbellWrite) (s : State), s.bar2Open = true → doorbellFits a 40 = true →
    let u := s.linkRx a.size.toNat
    let v := a.value.toNat
    (u.ringBad r = false → (v + 2 ^ 40 - u.get (Reg.ING_KR_TAIL_TAIL r)) % 2 ^ 40 ≤ u.ringSize r →
      (v + 2 ^ 40 - u.get (Reg.ING_KR_HEAD_HEAD r)) % 2 ^ 40 ≤ u.ringSize r →
      exec (.ringTailDoorbell r a) s = .next (u.put (Reg.ING_KR_TAIL_TAIL r) v)) ∧
    (u.ringSize r < (v + 2 ^ 40 - u.get (Reg.ING_KR_HEAD_HEAD r)) % 2 ^ 40 →
      exec (.ringTailDoorbell r a) s = .next (u.stopRing r ingRing)))

/-- 11_commands_scheduling_events.md: Writing EN = 1 to a submission queue that is disabled and has no command started resets its
head, tail and fault; SQ_DRAIN_END does so once the last started command of a draining queue has completed; writing EN = 0 keeps
DRAIN set while a command is started. -/
def Obligations.QueuesEnable : Prop :=
  ∀ (q : Fin 64) (v : BitVec 64) (s : State),
    (bit v.toNat 8 = true → s.isSet (Reg.COL_SQ_CTL_EN q) = false → s.sqBusy q = false →
      ∃ t, exec (.sqEnableWrite q v) s = .next t ∧ t.get (Reg.COL_SQ_HEAD_HEAD q) = 0 ∧ t.get (Reg.COL_SQ_TAIL_TAIL q) = 0 ∧
        t.isSet (Reg.COL_SQ_CTL_EN q) = true ∧ t.isSet (Reg.COL_SQ_CTL_FAULT q) = false ∧
        t.isSet (Reg.COL_SQ_CTL_DRAIN q) = false ∧ t.get (Reg.COL_SQ_CTL_LOG2ENT q) = bits v.toNat 0 5 ∧
        t.get (Reg.COL_SQ_CTL_CQ q) = bits v.toNat 16 6 ∧ t.mem = s.mem ∧
        s.WordsKept t [(Reg.COL_SQ_HEAD_HEAD q).off, (Reg.COL_SQ_TAIL_TAIL q).off, (Reg.COL_SQ_CTL_EN q).off]) ∧
    (bit v.toNat 8 = false → s.isSet (Reg.COL_SQ_CTL_EN q) = true → s.sqBusy q = true →
      ∃ t, exec (.sqEnableWrite q v) s = .next t ∧ t.isSet (Reg.COL_SQ_CTL_EN q) = false ∧
        t.isSet (Reg.COL_SQ_CTL_DRAIN q) = true ∧ t.mem = s.mem) ∧
    (s.isSet (Reg.COL_SQ_CTL_EN q) = true → s.isSet (Reg.COL_SQ_CTL_DRAIN q) = true → s.sqBusy q = false →
      ∃ t, exec (.sqDrainEnd q) s = .next t ∧ t.get (Reg.COL_SQ_HEAD_HEAD q) = 0 ∧ t.get (Reg.COL_SQ_TAIL_TAIL q) = 0 ∧
        t.isSet (Reg.COL_SQ_CTL_DRAIN q) = false ∧ t.isSet (Reg.COL_SQ_CTL_FAULT q) = false ∧ t.mem = s.mem) ∧
    (bit v.toNat 8 = true → s.isSet (Reg.COL_CQ_CTL_EN q) = true →
      ∃ t, exec (.cqEnableWrite q v) s = .next t ∧ t.get (Reg.COL_CQ_CTL_LOG2ENT q) = bits v.toNat 0 5 ∧
        t.get (Reg.COL_CQ_CTL_VECTOR q) = bits v.toNat 16 11 ∧ t = { s with regs := t.regs } ∧
        s.WordsKept t [(Reg.COL_CQ_CTL_EN q).off])

/-- 08_ingest_decode_shuffle.md: DEMAND_ISSUE writes the demand record of a waiting clip at its queue's tail, moves the tail by one
and lets the clip fetch. CHUNK takes the sound chunk at a ring's head, moves the head behind it and gives its payload to the
clip that it belongs to; one that names no demand or breaks its bounds disables the ring. A ring's doorbell moves its tail. A
demand that is not covered by its TIMEOUT is issued again, or its clip dropped after RETRY repeats; STEP_PREPARATION draws the
clips of the next step to prepare; CLIP_DECODE decodes a covered clip. -/
def Obligations.IngestMoves : Prop :=
  (∀ (b : Fin 2) (s u : State) (x : ClipAt) (slot : Nat), ((s.clips b).find? fun x => x.clip.state == .waiting) = some x →
    let ring := (s.bind x.b).ringOf x.k
    let id := x.clip.demand.getD (s.nextDemand x.b)
    s.isSet (Reg.ING_DQ_CTL_EN ring) = true → s.demandQueueBad ring = false → s.demandQueueFull ring = false →
    s.freeSlot x.b x.clip = some slot → x.clip.demand.isSome = true →
    s.writeMem asRing (s.get (Reg.ING_DQ_BASE_ADDR ring) * 64 +
      s.get (Reg.ING_DQ_TAIL_TAIL ring) % 2 ^ s.get (Reg.ING_DQ_CTL_LOG2ENT ring) * 32) (demandRecord x id ring) = (u, 0) →
    exec (.demandIssue b) s = .next ((u.put (Reg.ING_DQ_TAIL_TAIL ring) (s.get (Reg.ING_DQ_TAIL_TAIL ring) + 1)).setClip
      { x with clip := { x.clip with
        state := if fieldAt x.clip.desc 12 4 = 0 then .covered else .fetching, demand := some id, issued := u.now, staging := slot } })) ∧
  (∀ (r : Fin 32) (s u : State) (h : List Byte), s.isSet (Reg.ING_KR_CTL_EN r) = true → 32 ≤ s.ringHeld r → s.ringBad r = false →
    (inWindow (s.ringHeadAt r) = false ∨ s.windowOpen = false) → s.readMem asRing (s.ringHeadAt r) 32 = (u, 0, h) →
    (u.chunkOk r h = false → exec (.chunk r) s = .next (u.stopRing r ingChunk).progress) ∧
    (u.chunkOk r h = true → chunkBytes h ≤ u.ringHeld r → bit (fieldAt h 3 1) 1 = true →
      exec (.chunk r) s = .next (u.put (Reg.ING_KR_HEAD_HEAD r) (u.get (Reg.ING_KR_HEAD_HEAD r) + chunkBytes h)).progress) ∧
    (∀ v rest, u.chunkOk r h = true → chunkBytes h ≤ u.ringHeld r → bit (fieldAt h 3 1) 1 = false → bit (fieldAt h 3 1) 0 = true →
      u.readMem asRing (u.ringHeadAt r + 32) (fieldAt h 12 4 + 4) = (v, 0, rest) →
      fieldAt rest (fieldAt h 12 4) 4 = crc crc32c (h ++ rest.take (fieldAt h 12 4)) →
      exec (.chunk r) s = .next ((v.put (Reg.ING_KR_HEAD_HEAD r) (u.get (Reg.ING_KR_HEAD_HEAD r) + chunkBytes h)).takePayload r h
        (rest.take (fieldAt h 12 4))).progress)) ∧
  (∀ (b : Fin 2) (s : State),
    (∀ (id : BitVec 32) x, ((s.clips b).find? fun x => x.clip.demand = some id.toNat && x.clip.state == .fetching) = some x →
      (s.now < x.clip.issued + s.get Reg.ING_TIMEOUT_STOKES → exec (.demandTimeout b id) s = .next s) ∧
      (x.clip.issued + s.get Reg.ING_TIMEOUT_STOKES ≤ s.now → s.chunkThere ((s.bind b).ringOf x.k) = false →
        exec (.demandTimeout b id) s = .next ((s.ingErr ingTimeout ((s.bind b).ringOf x.k)).retryDemand x 5).progress)) ∧
    (∀ x reason, s.get Reg.ING_TIMEOUT_RETRY ≤ x.clip.repeats → s.retryDemand x reason = s.dropClip x reason) ∧
    (∀ (id : BitVec 32) x, ((s.clips b).find? fun x => x.clip.demand = some id.toNat && x.clip.state == .covered) = some x →
      exec (.clipDecode b id) s = .next (s.decode x).progress) ∧
    (s.isSet (boundReg b) = false → exec (.stepPreparation b) s = .next s) ∧
    (∀ n u, s.isSet (boundReg b) = true →
      u = s.setPrepared b ((s.prepared b).filter fun p => (b.val == 0 && s.isOpened p) ||
        decide ((if b.val = 0 then s.get Reg.COL_STEP_NEXT_NEXT else s.get Reg.RIK_EVAL_POS_CURSOR) ≤ p.step ∧
          p.step < (if b.val = 0 then s.get Reg.COL_STEP_NEXT_NEXT else s.get Reg.RIK_EVAL_POS_CURSOR) + (s.bind b).ahead)) →
      u.toPrepare b = some n →
      exec (.stepPreparation b) s = .next (((u.setPrepared b (u.prepared b ++ [u.drawStep (s.bind b) b n])).bump
        Reg.RIK_DRAWS_COUNT (s.bind b).batch).openPrepared b (u.drawStep (s.bind b) b n)).progress))

/-! ### Links -/

/-- 14_odnil_links_pair.md: A frame on a port that is not up is not received; one that is unsound, of a reserved type or not carried
by its port is answered by NAK; a sequenced frame out of order is answered by NAK and not delivered. -/
def Obligations.FramesChecked : Prop :=
  ∀ (p : Fin 16) (f : Frame) (s : State) (type : Nat) (deliver : State → State),
    (s.portUp p = false → s.receive type p f deliver = s) ∧
    (s.portUp p = true →
      let u := s.setPort p { s.port p with heardAt := s.now }
      ((frameSound f = false ∨ isReservedType (fType f) = true ∨ portCarries p (fType f) = false) →
        s.receive type p f deliver = u.sendNak p) ∧
      (frameSound f = true → isReservedType (fType f) = false → portCarries p (fType f) = true → fType f = type →
        let v := u.acknowledge p (fAck f)
        (isSequenced type = false → s.receive type p f deliver = deliver v) ∧
        (isSequenced type = true → fSeq f ≠ (v.port p).rxSeq → s.receive type p f deliver = v.sendNak p) ∧
        (isSequenced type = true → fSeq f = (v.port p).rxSeq →
          let w := ((v.setPort p { v.port p with rxSeq := (fSeq f + 1) % 2 ^ 32 }).bump (Reg.ODN_PORT_RXB_COUNT (portReg p))
            f.payload.length).sendAck p
          ((fDst f = 0xFFFF ∨ fDst f = w.selfRank) → s.receive type p f deliver = deliver w) ∧
          (fDst f ≠ 0xFFFF → fDst f ≠ w.selfRank → s.receive type p f deliver = w.forward p f))))

/-- 14_odnil_links_pair.md: What each frame does once received: DATA and READY move their collective, VOID voids it, NAK resends,
RANKUPD updates the rank table (and takes LINK in an open step), DIGEST compares digests, IDLE of a pair port tells the
partner's mode, HELLO tells the peer, BANKSEG carries banks. -/
def Obligations.FramesDelivered : Prop :=
  ∀ (p : Fin 16) (f : Frame) (s : State),
    let done := fun (t : State) => ((t.bankAdvance).tellAdvance).progress
    exec (.rxData p f) s = .next (done (s.receive tDATA p f fun u => u.takeData f (portReg p))) ∧
    exec (.rxVoid p f) s = .next (done (s.receive tVOID p f fun u => u.takeVoid f)) ∧
    exec (.rxAck p f) s = .next (done (s.receive tACK p f fun u => u)) ∧
    exec (.rxNak p f) s = .next (done (s.receive tNAK p f fun u => u.resend p)) ∧
    exec (.rxReady p f) s = .next (done (s.receive tREADY p f fun u => u.takeReady f)) ∧
    exec (.rxHello p f) s = .next (done (s.receive tHELLO p f fun u => u.takeHello p f)) ∧
    (∀ x, RankUpdate.ofPayload f.payload = some x → exec (.rxRankupd p f) s =
      .next (done (s.receive tRANKUPD p f fun u => (if u.stepOpen then u.veto vLINK else u).rankUpdate x))) ∧
    exec (.rxDigest p f) s =
      .next (done (s.receive tDIGEST p f fun u => { u with link := { u.link with digestIn := some f.payload } }.compareDigests)) ∧
    exec (.rxIdle p f) s = .next (done (s.receive tIDLE p f fun u =>
      if 12 ≤ p.val then { u with link := { u.link with peerMode := bits (fOffset f) 0 2 } } else u)) ∧
    (fXid f ≤ 1 → exec (.rxBankseg p f) s =
      .next (done (s.receive tBANKSEG p f fun u => if 12 ≤ p.val then u.takeSegment f else u))) ∧
    (3 ≤ fXid f → exec (.rxBankseg p f) s = .next (done (s.receive tBANKSEG p f fun u => u.takeBankAnswer f)))

/-- 14_odnil_links_pair.md: A port that has been silent sends IDLE; a frame not acknowledged in time is sent again until RETRY is
used up; a port that is lost goes down. FABRIC_TRAIN during a step, an evaluation or a bank is refused with LINK_BUSY and
changes nothing but that record; else it trains the ports that its rank table uses and installs the table when all of them come
up. Retraining or disabling a port, declaring a rank down, and what the pair registers do. A cord that comes shows in CORD and
leaves its port DOWN until it is trained; one that goes takes its port away. -/
def Obligations.LinksTrain : Prop :=
  (∀ (p : Fin 16) (s : State),
    (s.portUp p = true → (s.port p).waiting = [] → (s.port p).spokeAt + 12 ≤ s.now →
      exec (.idleSend p) s = .next (s.sendPlain p tIDLE (s.get Reg.PAIR_CTL_MODE) [])) ∧
    ((s.portUp p = false ∨ (s.port p).waiting ≠ [] ∨ s.now < (s.port p).spokeAt + 12) → exec (.idleSend p) s = .next s) ∧
    (∀ e, s.portUp p = true → s.ackLate p = some e → exec (.ackTimeout p) s =
      .next (if e.resends < s.get Reg.ODN_LINK_CTL_RETRY then s.resend p else s)) ∧
    (s.portUp p = false → exec (.ackTimeout p) s = .next s ∧ ∀ c, exec (.portLost p c) s = .next s) ∧
    (∀ c, s.portUp p = true → s.lossHolds p c = true → exec (.portLost p c) s = .next (s.losePort p 3).progress)) ∧
  (∀ (s u : State) (peers : List PeerHello) (b : List Byte),
    ((s.stepOpen = true ∨ s.evaluating = true ∨ s.isSet Reg.BNK_STATUS_BUSY = true) →
      exec (.fabricTrain peers) s = .next (s.odnErr linkBusy 31)) ∧
    (s.stepOpen = false → s.evaluating = false → s.isSet Reg.BNK_STATUS_BUSY = false → s.dropTable.readRanks = (u, some b) →
      let t := RankTable.ofBytes b
      let used := (List.range 12).filter t.uses
      let v := used.foldl (fun x p => x.trainPort t (rankDigest b) peers p) u
      ((∀ p ∈ used, v.portUp p = true) → v.pairMisfit t = false → exec (.fabricTrain peers) s = .next (v.installTableOf t (rankDigest b))) ∧
      ((∃ p ∈ used, v.portUp p = false) → exec (.fabricTrain peers) s = .next v.trainFailed)) ∧
    (s.stepOpen = false → s.evaluating = false → s.isSet Reg.BNK_STATUS_BUSY = false → s.dropTable.readRanks = (u, none) →
      exec (.fabricTrain peers) s = .next u.trainFailed)) ∧
  (∀ (p : Fin 16) (v : BitVec 64) (peers : List PeerHello) (s : State),
    let u := s.put (Reg.ODN_PORT_CTL_DISABLE (portReg p)) (bits v.toNat 1 1)
    (bit v.toNat 0 = true → exec (.portRetrain p v) s = .next (u.retrainPort p).progress) ∧
    (bit v.toNat 0 = false → bit v.toNat 1 = true → u.portUp p = true →
      exec (.portRetrain p v) s = .next (u.losePort p 3).progress) ∧
    (bit v.toNat 0 = false → bit v.toNat 1 = false → ∃ t, exec (.portRetrain p v) s = .next t ∧ t = { s with regs := t.regs } ∧
      t.isSet (Reg.ODN_PORT_CTL_DISABLE (portReg p)) = false) ∧
    (bit v.toNat 16 = false → ∃ t, exec (.rankDown v) s = .next t ∧ t = { s with regs := t.regs } ∧
      t.get Reg.ODN_RANK_CTL_RANK = bits v.toNat 0 16 ∧ s.WordsKept t [Reg.ODN_RANK_CTL_RANK.off]) ∧
    (∀ x, bit v.toNat 16 = true → s.link.table.bind (fun t => t.update (.down (bits v.toNat 0 16))) = some x →
      let w := ((s.put Reg.ODN_RANK_CTL_RANK (bits v.toNat 0 16)).tellRanks (.down (bits v.toNat 0 16))).rankUpdate
        (.down (bits v.toNat 0 16))
      exec (.rankDown v) s = .next (if w.stepOpen then w.veto vLINK else w).progress) ∧
    exec (.pairModeRequest v) s = .next (s.writePairCtl v.toNat) ∧
    (bit v.toNat 2 = true → (s.writePairCtl v.toNat).bank.run = none →
      exec (.pairRetrain v peers) s = .next ((s.writePairCtl v.toNat).trainPair peers).progress) ∧
    (bit v.toNat 2 = false → exec (.pairRetrain v peers) s = .next (s.writePairCtl v.toNat))) ∧
  (∀ (p : Fin 16) (s : State),
    (∃ t, exec (.cordPresenceChange p true) s = .next t ∧ t.get (Reg.ODN_PORT_STAT_CORD (portReg p)) = 1 ∧
      p.val ∈ t.board.cords ∧ t.mem = s.mem ∧ t.get (Reg.ODN_PORT_STAT_STATE (portReg p)) =
        if s.get (Reg.ODN_PORT_STAT_STATE (portReg p)) = 0 then 3 else s.get (Reg.ODN_PORT_STAT_STATE (portReg p))) ∧
    (s.portUp p = false → ∃ t, exec (.cordPresenceChange p false) s = .next t ∧
      t.get (Reg.ODN_PORT_STAT_CORD (portReg p)) = 0 ∧ p.val ∉ t.board.cords ∧ t.mem = s.mem ∧
      t.get (Reg.ODN_PORT_STAT_STATE (portReg p)) = 0))

/-! ### Security -/

/-- 16_security.md: A malformed mailbox request, whose header is well known but not sound, answers SEC_ROLE and does nothing else;
an operation other than the row's, or a closed port, does nothing. An operation that needs a session answers SEC_ROLE, with
nothing done but its audit entry, when the key of the request belongs to no session; and any audited operation answers SEC_AUDIT
and does nothing when the audit log cannot be written. -/
def Obligations.MailboxAnswers : Prop :=
  (∀ (s : State) (op : Nat) (port : MbPort) (work : MbRequest → State → MbResult),
    (s.mbRequest.op ≠ op → s.mailbox op port work = s) ∧
    (s.mbRequest.op = op → s.mbOpen port = false → s.mailbox op port work = s) ∧
    (s.mbRequest.op = op → s.mbOpen port = true → (port = .management → s.sec.mbAt ≠ some s.now) → s.mbRequest.ok = false →
      s.mailbox op port work = (s.mailed port).mbRespond secRole []) ∧
    (s.Mails port op → s.mailbox op port work = (work s.mbRequest (s.mailed port)).1.mbRespond
      (work s.mbRequest (s.mailed port)).2.1 (work s.mbRequest (s.mailed port)).2.2) ∧
    (∀ code body, code < 2 ^ 16 → (s.mbRespond code body).get Reg.SEC_MB_RESULT_CODE = code ∧
      (s.mbRespond code body).isSet Reg.SEC_MB_RESULT_DONE = true ∧ (s.mbRespond code body).isSet Reg.SEC_MB_RESULT_BUSY = false ∧
      (s.mbRespond code body).mem = s.mem ∧ (s.mbRespond code body).sec = s.sec)) ∧
  (∀ (s : State) (port : MbPort),
    ∀ p ∈ ([(0x02, 0x02, .secClose port), (0x04, 0x04, .keySet port), (0x05, 0x05, .keyClear port), (0x06, 0x06, .policySet port),
      (0x08, 0x07, .fwUpdate port), (0x09, 0x08, .debugSet port), (0x0B, 0x09, .unclaim port)] : List (Nat × Nat × Instr)),
      s.Mails port p.1 → s.sessionBy s.mbRequest.key = none →
      let t := (s.mailed port).audit p.2.1 nobody.role nobody.slot secRole []
      exec p.2.2 s = .next (t.1.mbRespond (if t.2 then secRole else secAudit) []))

/-- 16_security.md: SEC_OPEN of a role whose key proves it opens a session; a wrong proof counts a failure and answers SEC_AUTH; a
role that is locked out answers SEC_LOCKOUT. SEC_CLOSE ends the session of its key. LOCKOUT_EXPIRY ends a lockout whose time has
passed and clears its failure count; SEC_GUARD_LOCK can be set and not cleared. -/
def Obligations.SessionsAndLocks : Prop :=
  (∀ (s u : State) (port : MbPort) (c : Nat) (b : List Byte),
    (s.Mails port 0x01 → (s.mailed port).openWork s.mbRequest = (u, c, b) →
      exec (.secOpen port) s = .next (u.drawNonce.mbRespond c b)) ∧
    (∀ role, roleOf s.mbRequest.role = some role → (sfind (s.endLockout role).sec.lockouts s.mbRequest.role).isSome = true →
      s.board.flashOk = true → (s.openWork s.mbRequest).2.1 = secLockout) ∧
    (∀ role, roleOf s.mbRequest.role = some role → (sfind (s.endLockout role).sec.lockouts s.mbRequest.role) = none →
      (s.endLockout role).sessionOf role = none → s.mbRequest.slot ≤ 7 → (s.endLockout role).proves s.mbRequest role = true →
      s.board.flashOk = true →
      let t := (s.openWork s.mbRequest).1
      (s.openWork s.mbRequest).2.1 = 0 ∧ ∃ x ∈ t.sec.sessions, x.role = role) ∧
    (∀ x, s.Mails port 0x02 → s.sessionBy s.mbRequest.key = some x → s.board.flashOk = true →
      ∃ t, exec (.secClose port) s = .next (State.mbRespond t 0 []) ∧ ∀ y ∈ t.sec.sessions, y.role ≠ x.role)) ∧
  (∀ (s : State) (r : Role) (v : BitVec 64),
    (∀ t, sfind s.sec.lockouts (roleCode r) = some t → s.now < t → exec (.lockoutExpiry r) s = .next s) ∧
    (∀ t, sfind s.sec.lockouts (roleCode r) = some t → t ≤ s.now → ∃ u, exec (.lockoutExpiry r) s = .next u ∧
      sfind u.sec.lockouts (roleCode r) = none ∧ u.get (failField r) = 0 ∧ u.mem = s.mem) ∧
    (∃ u, exec (.guardLock v) s = .next u ∧ (s.isSet Reg.SEC_GUARD_LOCK_LOCK = true → u.isSet Reg.SEC_GUARD_LOCK_LOCK = true) ∧
      (bit v.toNat 0 = true → u.isSet Reg.SEC_GUARD_LOCK_LOCK = true) ∧ s.WordsKept u [Reg.SEC_GUARD_LOCK_LOCK.off] ∧
      u = { s with regs := u.regs }))

/-- 16_security.md: What CLAIM, KEY_SET, KEY_CLEAR, POLICY_SET and UNCLAIM store when they are permitted and the audit log takes
their entry. POLICY_GET answers the stored policy and AUDIT_READ up to 120 entries to any session, and SEC_ROLE to none.
FW_UPDATE in P0 and P1 of a ready module stores an image that verifies and answers the code of one that does not; DEBUG_SET
grants the level that its role and policy allow and answers the code of one they do not. -/
def Obligations.SecurityOperations : Prop :=
  (∀ (s : State) (port : MbPort), s.board.flashOk = true →
    let r := s.mbRequest
    (s.Mails port 0x03 → s.unclaimed = true → r.body.length = keyBytes →
      ∃ t, exec (.claim port) s = .next (State.mbRespond t 0 []) ∧ sfind t.sec.keys (keyPlace 1 0) = some r.body ∧
        ∀ k, k ≠ keyPlace 1 0 → sfind t.sec.keys k = sfind s.sec.keys k) ∧
    (∀ x, s.sessionBy r.key = some x → byInstaller x.role = true →
      (s.Mails port 0x04 → slotNamed r.body = true → fieldAt r.body 2 6 = 0 → r.body.length = 8 + keyBytes →
        let k := keyPlace (fieldAt r.body 0 1) (fieldAt r.body 1 1)
        ∃ t, exec (.keySet port) s = .next (State.mbRespond t 0 []) ∧ sfind t.sec.keys k = some (r.body.drop 8) ∧
          ∀ j, j ≠ k → sfind t.sec.keys j = sfind s.sec.keys j) ∧
      (s.Mails port 0x05 → slotNamed r.body = true → 2 ≤ r.body.length →
        (s.mailed port).lastInstaller (keyPlace (fieldAt r.body 0 1) (fieldAt r.body 1 1)) = false →
        let k := keyPlace (fieldAt r.body 0 1) (fieldAt r.body 1 1)
        ∃ t, exec (.keyClear port) s = .next (State.mbRespond t 0 []) ∧ sfind t.sec.keys k = none ∧
          ∀ j, j ≠ k → sfind t.sec.keys j = sfind s.sec.keys j) ∧
      (s.Mails port 0x06 → (s.mailed port).policyOk r.body = true →
        ∃ t, exec (.policySet port) s = .next (State.mbRespond t 0 []) ∧ t.sec.policy = r.body ∧ t.sec.keys = s.sec.keys)) ∧
    (∀ x, s.Mails port 0x0B → s.sessionBy r.key = some x → x.role = .maker →
      ∃ t, exec (.unclaim port) s = .next (State.mbRespond t 0 []) ∧ t.sec.keys = [])) ∧
  (∀ (s : State) (port : MbPort),
    (s.Mails port 0x07 → exec (.policyGet port) s = .next (if (s.sessionBy s.mbRequest.key).isSome
      then (s.mailed port).mbRespond 0 s.sec.policy else (s.mailed port).mbRespond secRole [])) ∧
    (s.Mails port 0x0A → (s.sessionBy s.mbRequest.key).isSome = true → 0 < fieldAt s.mbRequest.body 8 4 →
      fieldAt s.mbRequest.body 8 4 ≤ 120 → exec (.auditRead port) s = .next ((s.mailed port).mbRespond 0
        ((List.range (fieldAt s.mbRequest.body 8 4)).flatMap fun i => (s.mailed port).auditAt (fieldAt s.mbRequest.body 0 8 + i)))) ∧
    (s.Mails port 0x0A → s.sessionBy s.mbRequest.key = none → exec (.auditRead port) s = .next ((s.mailed port).mbRespond secRole []))) ∧
  (∀ (s u : State) (port : MbPort) (x : Session) (img : List Byte), s.board.flashOk = true → s.sessionBy s.mbRequest.key = some x →
    let r := s.mbRequest
    let m := s.mailed port
    (s.Mails port 0x08 → x.role ≠ .operator → s.powerState ≤ 1 → s.pwr.phase = .ready → fieldAt r.body 8 8 ≤ 2 ^ 28 →
      m.readMem asHost (fieldAt r.body 0 8) (fieldAt r.body 8 8) = (u, 0, img) → u.board.flashOk = true →
      (u.imageCode img = 0 → ∃ t, exec (.fwUpdate port) s = .next ((State.setImage t img).mbRespond 0 [])) ∧
      (u.imageCode img ≠ 0 → ∃ t, exec (.fwUpdate port) s = .next (State.mbRespond t (u.imageCode img) []))) ∧
    (s.Mails port 0x09 → m.debugCode x.role (fieldAt r.body 0 1) ≠ 0 →
      ∃ t, exec (.debugSet port) s = .next (State.mbRespond t (m.debugCode x.role (fieldAt r.body 0 1)) [])) ∧
    (s.Mails port 0x09 → m.debugCode x.role (fieldAt r.body 0 1) = 0 →
      exec (.debugSet port) s = .next ((m.grantLevel x (fieldAt r.body 0 1)).1.mbRespond
        (m.grantLevel x (fieldAt r.body 0 1)).2.1 (m.grantLevel x (fieldAt r.body 0 1)).2.2)))

/-- 15_host_interface.md, 16_security.md: RECOVERY_GO in recovery loads a verified image from the recovery window; it needs a
session and a length. The DOE mailbox answers discovery, the certificate chain and, outside recovery, the report over the nonce;
each answer replaces the one that waits, and abort drops it. -/
def Obligations.RecoveryAndAttestation : Prop :=
  (∀ (s : State),
    (s.pwr.phase ≠ .recovery → exec .recoveryGo s = .next s) ∧
    (s.pwr.phase = .recovery → s.sec.sessions = [] → exec .recoveryGo s = .next (s.recoveryFailed secRole)) ∧
    (s.pwr.phase = .recovery → s.sec.sessions ≠ [] → s.get Reg.HIF_RCV_LEN_BYTES = 0 →
      exec .recoveryGo s = .next (s.recoveryFailed secImage)) ∧
    (s.pwr.phase = .recovery → s.sec.sessions ≠ [] → s.get Reg.HIF_RCV_LEN_BYTES ≠ 0 → s.get Reg.HIF_RCV_LEN_BYTES ≤ recoveryBytes →
      s.get Reg.HIF_RCV_STAT_STATE = 0 → s.board.flashOk = true →
      s.validImage (s.bytes recoveryKey (s.get Reg.HIF_RCV_LEN_BYTES)) = true →
      ∃ t, exec .recoveryGo s = .next t ∧ t.get Reg.HIF_RCV_STAT_STATE = 2)) ∧
  (∀ (s : State) (nonce : BitVec 256) (i : BitVec 8),
    (s.functionUp = true → exec .getCerts s = .next (s.doeReply Config.certChain) ∧
      exec (.doeDiscovery i) s = .next (s.doeReply (discoveryAnswer i.toNat)) ∧
      (s.hif.recovery = false → exec (.getReport nonce) s = .next (s.doeReply (s.report nonce)))) ∧
    (s.functionUp = false → exec .getCerts s = .next s ∧ exec (.doeDiscovery i) s = .next s ∧ exec (.getReport nonce) s = .next s) ∧
    (∀ bs, (s.doeReply bs).hif.doeAnswer = bs ∧ (s.doeReply bs).out = s.out ++ [.doe bs] ∧ (s.doeReply bs).mem = s.mem) ∧
    (∃ t, exec .doeAbort s = .next t ∧ t.hif.doeAnswer = [] ∧ t.hif.doeError = false ∧ t.regs = s.regs ∧ t.mem = s.mem))

/-! ### Power, resets and quarantine -/

/-- 17_power_startup_reset.md: A module reset blanks the module and starts it up anew: it keeps the flash-held registers, the
flash-held banks, keys and logs and the host's memory, and counts the boot; from POWER_ON_RESET too, but only while the module
is off. A warm reset is refused with PWR_STATE in P3 and discarded before READY; it ends at step 10 with READY set and the stoke
of it recorded, unless the self-test halts it. KILN_RESET without a session gives SEC_ROLE; before READY it is discarded; in P2
and P3 it gives PWR_STATE; else each kiln that it names is reset. -/
def Obligations.Resets : Prop :=
  (∀ (s : State),
    (s.pwr.phase = .off → exec .powerOnReset s = .next s.restart) ∧ (s.pwr.phase ≠ .off → exec .powerOnReset s = .next s) ∧
    (s.pwr.phase ≠ .off → exec (.moduleReset .pin) s = .next (s.endSessions 1 allRoles).restart) ∧
    (∀ v : BitVec 64, s.pwr.phase ≠ .off → bit v.toNat 0 = true →
      exec (.moduleReset (.register v)) s = .next (if s.mayReset then (s.endSessions 1 allRoles).restart else s.pwrErr secRole s.errStep)) ∧
    s.blank.embers = [] ∧ s.blank.hearths = [] ∧ s.blank.kilns = [] ∧ s.blank.sec.sessions = [] ∧
    s.blank.bank.flash = s.bank.flash ∧ s.blank.sec.keys = s.sec.keys ∧ s.blank.sec.audit = s.sec.audit ∧
    s.blank.cfg.active = ConfigBank.base ∧
    (∀ k, hostKey ≤ k → k < recoveryKey → s.blank.byte k = s.byte k) ∧
    (∀ k, (k < hostKey ∨ recoveryKey ≤ k) → s.blank.byte k = 0) ∧
    (∀ off rst, s.blank.word off rst = if flashReg off then s.word off rst else rst)) ∧
  (∀ (s : State), s.pwr.phase ≠ .off →
    (s.isSet Reg.PWR_STATUS_READY = false → exec (.warmReset .pin) s = .next s) ∧
    (s.isSet Reg.PWR_STATUS_READY = true → 2 < s.powerState → exec (.warmReset .pin) s = .next (s.pwrErr pwrState 0)) ∧
    (s.isSet Reg.PWR_STATUS_READY = true → s.powerState ≤ 2 → s.board.badDies = false →
      ∃ t, exec (.warmReset .pin) s = .next t ∧ t.isSet Reg.PWR_STATUS_READY = true ∧ t.get Reg.PWR_STATUS_STEP = 10 ∧
        t.get Reg.PWR_READY_STOKE = t.now % 2 ^ Reg.PWR_READY_STOKE.w) ∧
    (∀ v : BitVec 64, bit v.toNat 0 = false → bit v.toNat 1 = true →
      exec (.warmReset (.register v)) s = .next (if s.sec.sessions.isEmpty then s.pwrErr secRole s.errStep else s.askWarm))) ∧
  (∀ (v : BitVec 64) (s : State), s.pwr.phase ≠ .off →
    (s.sec.sessions = [] → exec (.kilnReset v) s = .next (s.pwrErr secRole s.errStep).progress) ∧
    (s.sec.sessions ≠ [] → s.isSet Reg.PWR_STATUS_READY = false → exec (.kilnReset v) s = .next s.progress) ∧
    (s.sec.sessions ≠ [] → s.isSet Reg.PWR_STATUS_READY = true → 1 < s.powerState → bits v.toNat 0 32 ≠ 0 →
      exec (.kilnReset v) s = .next (s.pwrErr pwrState 0).progress) ∧
    (s.sec.sessions ≠ [] → s.isSet Reg.PWR_STATUS_READY = true → s.powerState = 0 →
      let u := (kilnsOf (bits v.toNat 0 32)).foldl State.resetKiln s
      u.powerState = 0 → exec (.kilnReset v) s = .next u.progress))

/-- 17_power_startup_reset.md, 15_host_interface.md: PERST holds the module's host interface in reset until it is released; the link
rises only where it may, with a speed and a width that exist, and shows them; a width below 8 is DEGRADED. A start-up step that
does not end halts start-up with its code: step 2 with PWR_TINDER, step 4 with PWR_RAIL after 37,500 stokes; a host link that
does not train in 12,500,000 stokes is given up. -/
def Obligations.StartUpAndHostLink : Prop :=
  (∀ (s : State),
    (s.pwr.phase ≠ .off → exec (.pcieReset .perst) s = .next (s.pcieReset true).progress) ∧
    (s.pwr.phase = .off → exec (.pcieReset .perst) s = .next { s with pwr := { s.pwr with perst := true } }) ∧
    (s.pwr.perst = false → exec .perstRelease s = .next s) ∧
    (s.pwr.perst = true → s.pwr.phase = .ready → s.powerState ≤ 2 →
      ∃ t, exec .perstRelease s = .next t ∧ t.pwr.perst = false ∧ t.pwr.training = true ∧ t.get Reg.PWR_STATUS_STEP = 8 ∧
        t.mem = s.mem ∧ s.WordsKept t [Reg.PWR_STATUS_STEP.off]) ∧
    (∀ (v : Fin 8) (w : BitVec 5), s.linkMayRise = true → v.val ≠ 0 → w.toNat ∈ [1, 2, 4, 8, 16] → s.pwr.phase = .ready →
      ∃ t, exec (.pcieLinkUp v w) s = .next t ∧ t.isSet Reg.HIF_LINK_UP = true ∧ t.get Reg.HIF_LINK_SPEED = v.val ∧
        t.get Reg.HIF_LINK_WIDTH = w.toNat ∧ (t.isSet Reg.HIF_LINK_DEGRADED = true ↔ w.toNat < 8) ∧
        (t.isSet Reg.HIF_LINK_FLIT = true ↔ 6 ≤ v.val) ∧ t.pwr.training = false ∧ s.WordsKept t [Reg.HIF_LINK_UP.off]) ∧
    (∀ (v : Fin 8) (w : BitVec 5), s.linkMayRise = false → exec (.pcieLinkUp v w) s = .next s)) ∧
  (∀ (s : State),
    (s.pwr.phase = .stuck → s.get Reg.PWR_STATUS_STEP = 2 → exec .startupStepTimeout s = .next (s.halt pwrTinder 2)) ∧
    (s.pwr.phase = .stuck → s.get Reg.PWR_STATUS_STEP ≠ 2 →
      exec .startupStepTimeout s = .next (if s.pwr.began + 37500 ≤ s.now then s.halt pwrRail 4 else s)) ∧
    (s.pwr.phase = .ready → s.pwr.training = true → s.pwr.began + 12500000 ≤ s.now →
      exec .startupStepTimeout s = .next ({ s with pwr := { s.pwr with training := false } }.startFail pwrPcie 8 0)) ∧
    (s.pwr.phase = .ready → s.pwr.training = false → exec .startupStepTimeout s = .next s) ∧
    (∀ code step, (s.halt code step).isSet Reg.PWR_STATUS_HALTED = true ∧ (s.halt code step).pwr.phase = .halted))

/-- 17_power_startup_reset.md: A power state request before READY gives PWR_STATE, without a session SEC_ROLE, and above 3
PWR_STATE; a cap outside its bounds gives PWR_CAP and is not stored. Each evaluation of the governor moves the voltage towards
the least of VMAX, the cap's and the temperature's voltage, never out of 600 to 900 mV where that is where it stood, and never
by more than 10 mV. A main supply fault raises its event, is recorded and puts the module into P3; a thermal trip does so with
PWR_THERMAL and latches THERM; loss of the auxiliary supply blanks the module. -/
def Obligations.PowerAndSupplies : Prop :=
  (∀ (s : State) (v : BitVec 64), s.pwr.phase ≠ .off →
    (s.isSet Reg.PWR_STATUS_READY = false → exec (.powerStateRequest v) s = .next (s.pwrErr pwrState s.errStep).progress) ∧
    (s.isSet Reg.PWR_STATUS_READY = true → s.sec.sessions = [] →
      exec (.powerStateRequest v) s = .next (s.pwrErr secRole 0).progress) ∧
    (s.isSet Reg.PWR_STATUS_READY = true → s.sec.sessions ≠ [] → s.powerState = 0 → bits v.toNat 0 3 = 0 →
      exec (.powerStateRequest v) s = .next ((s.put Reg.PWR_CTL_TARGET 0).towardTarget 0).progress) ∧
    (s.isSet Reg.PWR_STATUS_READY = true → s.sec.sessions ≠ [] → 3 < bits v.toNat 0 3 →
      exec (.powerStateRequest v) s = .next ((s.put Reg.PWR_CTL_TARGET (bits v.toNat 0 3)).pwrErr pwrState 0).progress) ∧
    (s.get Reg.SEC_BOUNDS_PCAP_MIN ≤ bits v.toNat 0 16 → bits v.toNat 0 16 ≤ s.get Reg.SEC_GUARD_POLICY_PCAP →
      ∃ t, exec (.capWrite v) s = .next t ∧ t.get Reg.PWR_CAP_CAP = bits v.toNat 0 16 % 2 ^ Reg.PWR_CAP_CAP.w ∧
        t = { s with regs := t.regs } ∧ s.WordsKept t [Reg.PWR_CAP_CAP.off]) ∧
    ((bits v.toNat 0 16 < s.get Reg.SEC_BOUNDS_PCAP_MIN ∨ s.get Reg.SEC_GUARD_POLICY_PCAP < bits v.toNat 0 16) →
      exec (.capWrite v) s = .next (s.pwrErr pwrCap s.errStep))) ∧
  (∀ (s : State) (g : PowerReading), s.pwr.phase ≠ .off → s.pwr.govAt ≤ s.now →
    (∃ t, exec (.governorEvaluation g) s = .next t) ∧
    (∀ v target, 600 ≤ v → v ≤ 900 → target ≤ 900 →
      600 ≤ nextVoltage v target ∧ nextVoltage v target ≤ 900 ∧ nextVoltage v target ≤ v + 5 ∧ v ≤ nextVoltage v target + 10)) ∧
  (∀ (s : State),
    (∀ c, s.powered = true → exec (.mainSupplyFault c) s =
      .next (((s.raise 1 0x09 0xFFFF (supplyCode c) 0).pwrErr (supplyCode c) s.errStep).enterP3)) ∧
    (∀ c, s.powered = false → exec (.mainSupplyFault c) s = .next s) ∧
    (s.pwr.phase ≠ .off → ∃ t, exec .auxSupplyLoss s = .next t ∧ t.sec.sessions = [] ∧ t.embers = [] ∧ t.hearths = [] ∧
      t.get Reg.PWR_STATUS_PSTATE = 4) ∧
    (∀ x i, s.powered = false → s.powerState = 3 → ∃ t, exec (.thermalTrip x i) s = .next t ∧ t.pwr.thermTrip = true ∧ t.pwr.hot = true) ∧
    (∀ (d : Fin 8), s.powered = true → s.powerState ≤ 1 → d.val ∉ s.pwr.diesOff →
      exec (.computeRailFault d) s = .next (s.dieOff d 0)) ∧
    (∀ (d : Fin 8), d.val ∈ s.pwr.diesOff → exec (.computeRailFault d) s = .next s))

/-- 17_power_startup_reset.md, 07_sparsity_routing.md: Quarantine of kilns by command, watchdog or die fault: the kilns are marked
with their cause, and an open step faults. An idle, empty kiln whose threshold has passed gates and counts it; at its wake stoke
it runs again and the operations held for it go on. -/
def Obligations.KilnsQuarantineAndGate : Prop :=
  (∀ (k : Fin 32) (s : State),
    exec (.kilnQuarantine k) s = .next (((s.mark k 3).faultStep [k.val]).progress) ∧
    exec (.watchdog k) s = .next ((((s.pwrErr pwrWdog 0).mark k 2).faultStep [k.val]).progress) ∧
    (∀ site, exec (.dieFault site) s =
      .next ((((siteKilns site).foldl (fun t j => t.mark j 3) s).faultStep (siteKilns site)).progress)) ∧
    (∀ ks, s.stepState ≠ 4 → s.faultStep ks = s.veto vFAULT)) ∧
  (∀ (k : Fin 32) (s : State),
    (s.mayGate k = false → exec (.kilnGating k) s = .next s) ∧
    (s.mayGate k = true → ∃ u : State, exec (.kilnGating k) s = .next u.settleIdle ∧ (u.kiln k).gated = true ∧
      u.get (Reg.KLN_GATE_CNT_COUNT k) = (s.get (Reg.KLN_GATE_CNT_COUNT k) + 1) % 2 ^ (Reg.KLN_GATE_CNT_COUNT k).w ∧
      (∀ j, j ≠ k.val → u.kiln j = s.kiln j) ∧ u.mem = s.mem ∧ s.WordsKept u [(Reg.KLN_GATE_CNT_COUNT k).off]) ∧
    ((s.kiln k).wakeAt = none → exec (.kilnWake k) s = .next s) ∧
    (∀ t, (s.kiln k).wakeAt = some t → s.now < t → exec (.kilnWake k) s = .next s) ∧
    (∀ t, (s.kiln k).wakeAt = some t → t ≤ s.now → ∃ u : State, exec (.kilnWake k) s = .next (u.releaseHeld (s.kiln k).heldOps).progress ∧
      (u.kiln k).gated = false ∧ (u.kiln k).wakeAt = none ∧ (u.kiln k).heldOps = [] ∧ u.mem = s.mem ∧
      (∀ j, j ≠ k.val → u.kiln j = s.kiln j)))

/-! ### Host interface and debug -/

/-- 15_host_interface.md: A register access that is reserved, misaligned or of the wrong size is a bad access: a write changes
nothing but that record, a read gives all ones; an access while the function does not answer does nothing. An access through
BAR4 beyond its size does nothing; a read within it gives the bytes of its segments or a completer abort; in recovery it reaches
the recovery window. What configuration writes and unmasking change; pending vectors are sent as soon as nothing holds them. The
host's answer to the module's oldest waiting access gives it its data or refuses it, and the access no longer waits. -/
def Obligations.HostInterface : Prop :=
  (∀ (a : RegAccess) (v : BitVec 64) (s : State),
    (s.takesAccess a = false → exec (.registerWrite a v) s = .next s ∧ exec (.registerRead a) s = .next s) ∧
    (s.takesAccess a = true → a.bar = .bar0 →
      let u := s.linkRx a.size.toNat
      (u.isBad a.offset.toNat a.size.toNat = true →
        exec (.registerWrite a v) s = .next (u.badAccess 0 a.offset.toNat a.size.toNat true)) ∧
      (u.isBad a.offset.toNat a.size.toNat = false → msixPlace a.offset.toNat = false →
        exec (.registerWrite a v) s = .next (u.writeReg a.offset.toNat v.toNat)) ∧
      (s.isBad a.offset.toNat a.size.toNat = true →
        exec (.registerRead a) s = .next (s.badRead 0 a.offset.toNat a.size.toNat)) ∧
      (s.isBad a.offset.toNat a.size.toNat = false → msixPlace a.offset.toNat = false →
        exec (.registerRead a) s = .next ((s.readReg a.offset.toNat).1.giveRead a.size.toNat (s.readReg a.offset.toNat).2))) ∧
    (s.takesAccess a = true → a.bar = .bar2 →
      exec (.registerWrite a v) s = .next (s.bar2Write a.offset.toNat a.size.toNat v.toNat) ∧
      exec (.registerRead a) s = .next (s.bar2Read a.offset.toNat a.size.toNat)) ∧
    (∀ off size, (s.badRead 0 off size).out.getLast? = some (.readData (leBytes size (2 ^ (8 * size) - 1))))) ∧
  (∀ (off : BitVec 46) (s : State),
    (∀ acc, s.functionUp = false → exec (.bar4Access off acc) s = .next s) ∧
    (∀ acc, s.functionUp = true → s.hif.recovery = true → exec (.bar4Access off acc) s = .next (s.recoveryAccess off.toNat acc)) ∧
    (s.functionUp = true → s.hif.recovery = false →
      let size := 2 ^ s.get Reg.HIF_B4_STATUS_LOG2SIZE
      (∀ n, size < off.toNat + n → exec (.bar4Access off (.read n)) s = .next s) ∧
      (∀ n t bs, off.toNat + n ≤ size → State.bar4Read (segmentPieces s.segmentSize 65 off.toNat n) s = (t, 0, bs) →
        exec (.bar4Access off (.read n)) s = .next ((t.emit (.readData bs)).linkTx n)) ∧
      (∀ n t c bs, off.toNat + n ≤ size → c ≠ 0 → State.bar4Read (segmentPieces s.segmentSize 65 off.toNat n) s = (t, c, bs) →
        exec (.bar4Access off (.read n)) s = .next (t.emit .completerAbort)) ∧
      (∀ bs, off.toNat + bs.length ≤ size → exec (.bar4Access off (.write bs)) s =
        .next (State.bar4Write (segmentPieces s.segmentSize 65 off.toNat bs.length) bs (s.linkRx bs.length))))) ∧
  (∀ (s : State),
    (∀ b, exec (.pcieConfigurationWrite (.powerState b)) s = .next { s with hif := { s.hif with d3hot := b } }.sendAllPending) ∧
    (∀ b, exec (.pcieConfigurationWrite (.busMaster b)) s = .next { s with hif := { s.hif with busMaster := b } }.sendAllPending) ∧
    (∀ b, exec (.pcieConfigurationWrite (.memorySpace b)) s = .next { s with hif := { s.hif with memSpace := b } }) ∧
    (∀ b, exec (.pcieConfigurationWrite (.barSize b)) s = .next (s.sizeBar4 b.toNat)) ∧
    (∀ e m, exec (.pcieConfigurationWrite (.msixControl e m)) s =
      .next { s with hif := { s.hif with msixOn := e, msixMask := m } }.sendAllPending) ∧
    exec (.msixUnmask .function) s = .next { s with hif := { s.hif with msixMask := false } }.sendAllPending ∧
    (∀ v, exec (.msixUnmask (.vector v)) s = .next (s.setVector v (BitVec.ofNat 128 (withBits (s.msixVec v) 96 1 0)))) ∧
    (s.hif.pba = [] → s.sendAllPending = s)) ∧
  (∀ (s : State) (q : HostReq) (rest : List HostReq),
    (s.hif.waiting = [] → ∀ r, exec (.hostLinkCompletion r) s = .next s) ∧
    (s.hif.waiting = q :: rest →
      (∀ bs, exec (.hostLinkCompletion (.success bs)) s = .next (s.withoutFirst.hostGave q bs).progress) ∧
      s.withoutFirst.hif.waiting = rest ∧
      (∀ r, (∀ bs, r ≠ .success bs) →
        exec (.hostLinkCompletion r) s = .next ((s.withoutFirst.emit (.linkError r)).hostRefused q).progress)))

/-- 18_debug_telemetry.md, 19_signals_mechanical.md, 09_memory_tiers.md: The TAP: IDCODE gives its 32 bits and BYPASS one bit of
zero to any reader; SAMPLE/PRELOAD and DBGACC need level 2 and EXTEST level 3, and are denied below. Arming a trace window that
may be armed and disarming one; freezing and clearing the performance counters; telemetry records at their period; pace windows
every 1,250 stokes, whose last and lowest counts are kept. Corrected errors above the threshold raise one event in their span;
scrubbing visits memory that it may; releasing MOD_ALERT_N and changing an input pin. -/
def Obligations.DebugAndPins : Prop :=
  (∀ (s : State) (ir : BitVec 8) (b : BitVec 64) (dr : BitVec 112), s.pwr.phase ≠ .off →
    (∃ t, exec .idcode s = .next t ∧ t.out = s.out ++ [.tdo 32 0x1A320D6D] ∧ t.jtag.ir = 0x01 ∧ t.regs = s.regs ∧ t.mem = s.mem) ∧
    (tapCodes.contains ir = false → ∃ t, exec (.bypass ir) s = .next t ∧ t.out = s.out ++ [.tdo 1 0] ∧ t.jtag.ir = 0xFF ∧
      t.regs = s.regs ∧ t.mem = s.mem) ∧
    (2 ≤ s.get Reg.SEC_DBG_LEVEL_LEVEL → ∃ t, exec (.samplePreload b) s = .next t ∧ t.jtag.boundary = b ∧ t.jtag.driving = false ∧
      t.regs = s.regs ∧ t.mem = s.mem) ∧
    (3 ≤ s.get Reg.SEC_DBG_LEVEL_LEVEL → s.powerState ≤ 1 → ∃ t, exec (.extest b) s = .next t ∧ t.jtag.boundary = b ∧
      t.jtag.driving = true ∧ t.regs = s.regs ∧ t.mem = s.mem) ∧
    (2 ≤ s.get Reg.SEC_DBG_LEVEL_LEVEL →
      exec (.dbgacc dr) s = .next ((s.dbgAccess dr).1.jtagLoad 0x10 112 (s.dbgAccess dr).2)) ∧
    (s.get Reg.SEC_DBG_LEVEL_LEVEL < 2 → exec (.samplePreload b) s = .next s.jtagDenied ∧
      exec (.extest b) s = .next s.jtagDenied ∧ exec (.dbgacc dr) s = .next s.jtagDenied)) ∧
  (∀ (s : State) (n : Fin 16) (v : BitVec 64),
    exec (.traceWindowArm n v) s = .next (s.writeWindow n v.toNat) ∧
    (∃ t, exec (.pmcFreeze v) s = .next t ∧ t.get Reg.DBG_PMC_CTL_FREEZE = bits v.toNat 0 1 ∧
      (bit v.toNat 1 = false → s.WordsKept t [Reg.DBG_PMC_CTL_FREEZE.off]) ∧ t = { s with regs := t.regs }) ∧
    (bit v.toNat 1 = true → ∃ t, exec (.pmcClear v) s = .next t ∧ (∀ i, i < 16 → t.get (Reg.DBG_PMC_CNT_COUNT i) = 0) ∧
      t = { s with regs := t.regs } ∧
      s.WordsKept t (Reg.DBG_PMC_CTL_FREEZE.off :: (List.range 16).map fun i => (Reg.DBG_PMC_CNT_COUNT i).off)) ∧
    ((s.telemetryOn = false ∨ s.now < s.dbg.telAt) → exec .telemetryRecord s = .next s) ∧
    (s.telemetryOn = true → s.dbg.telAt ≤ s.now → ∃ t, exec .telemetryRecord s = .next t ∧ t.dbg.telAt = s.now + s.telemetryPeriod) ∧
    (∀ cs, (s.powered = false ∨ 1 < s.powerState ∨ s.now < s.dbg.paceAt) → exec (.paceWindow cs) s = .next s) ∧
    (∀ cs, s.powered = true → s.powerState ≤ 1 → s.dbg.paceAt ≤ s.now → ∃ t, exec (.paceWindow cs) s = .next t ∧
      t.dbg.paceAt = s.now + 1250 ∧ t.mem = s.mem ∧
      ∀ k, k < 32 → t.get (Reg.DBG_PACE_LAST k) =
        if s.quarantined k ∨ (s.kiln k).gated = true then 0 else (cs.getD k 0).toNat)) ∧
  (∀ (s : State),
    (∀ src, (s.dbg.ceRaised.contains ((ceKey src).1 * 1024 + (ceKey src).2) = true ∨
      sget 0 s.dbg.ceSecond ((ceKey src).1 * 1024 + (ceKey src).2) ≤ s.get Reg.MEM_CE_THRESH_THRESH) →
      exec (.correctedErrorRate src) s = .next s) ∧
    (∀ src, s.dbg.ceRaised.contains ((ceKey src).1 * 1024 + (ceKey src).2) = false →
      s.get Reg.MEM_CE_THRESH_THRESH < sget 0 s.dbg.ceSecond ((ceKey src).1 * 1024 + (ceKey src).2) →
      ∃ u : State, exec (.correctedErrorRate src) s = .next (u.raise 9 0x04 0xFFFF 0 ((ceKey src).1 * 256 + (ceKey src).2)) ∧
        u.regs = s.regs ∧ u.mem = s.mem ∧ ((ceKey src).1 * 1024 + (ceKey src).2) ∈ u.dbg.ceRaised) ∧
    (∀ addr k, s.place (addr.toNat / 64 * 64) = some k → s.powered = true → s.powerState ≤ 1 → s.scrubs k = true →
      exec (.scrub addr) s = .next ((s.marks k 64).foldl (fun t m => t.scrubMark (addr.toNat / 64 * 64) k m) s)) ∧
    (∀ addr, s.powered = false → exec (.scrub addr) s = .next s) ∧
    (∃ t, exec .modAlertNRelease s = .next t ∧ t.dbg.alert = false ∧ t.regs = s.regs ∧ t.mem = s.mem) ∧
    (∀ (pin : Fin 16) l, ∃ t, exec (.featurePinInputChange pin l) s = .next t ∧ t.board.pins.getLsbD pin = l ∧
      (∀ j, j < 16 → j ≠ pin.val → t.board.pins.getLsbD j = s.board.pins.getLsbD j) ∧ t.regs = s.regs ∧ t.mem = s.mem))
end

