-- ==== Sys2Proof/Laws/Maps.lean ====
section
/-! SUPPORT. Laws of sparse maps and of memory: read after write, and the canonical form that every write keeps. -/

namespace Sys2Proof.Machine

/-! ### Sparse maps -/

@[simp] theorem sfind_nil {α : Type} (x : Nat) : sfind ([] : SMap α) x = none := rfl

theorem sfind_cons {α : Type} (k : Nat) (v : α) (m : SMap α) (x : Nat) :
    sfind ((k, v) :: m) x = if k = x then some v else sfind m x := rfl

/-- A key that was put is found. -/
@[simp] theorem sfind_sput_self {α : Type} (m : SMap α) (k : Nat) (v : α) : sfind (sput m k v) k = some v := by
  induction m with
  | nil => simp [sput, sfind_cons]
  | cons p m ih =>
    obtain ⟨x, w⟩ := p
    simp only [sput]
    split
    · simp [sfind_cons]
    · split
      · simp [sfind_cons]
      · rename_i h
        rw [sfind_cons, if_neg (fun e => h e.symm), ih]

/-- A put leaves every other key. -/
theorem sfind_sput_ne {α : Type} (m : SMap α) {k x : Nat} (v : α) (h : k ≠ x) : sfind (sput m k v) x = sfind m x := by
  induction m with
  | nil => simp [sput, sfind_cons, h]
  | cons p m ih =>
    obtain ⟨y, w⟩ := p
    simp only [sput]
    split
    · simp [sfind_cons, h]
    · split
      · rename_i e
        subst e
        simp [sfind_cons, h]
      · simp [sfind_cons, ih]

/-- A deletion leaves every other key. -/
theorem sfind_sdel_ne {α : Type} (m : SMap α) {k x : Nat} (h : k ≠ x) : sfind (sdel m k) x = sfind m x := by
  induction m with
  | nil => rfl
  | cons p m ih =>
    obtain ⟨y, w⟩ := p
    unfold sdel at ih ⊢
    by_cases e : y = k
    · rw [List.filter_cons_of_neg (by simpa using e), ih, sfind_cons, if_neg (fun g => h (e.symm.trans g))]
    · rw [List.filter_cons_of_pos (by simpa using e), sfind_cons, sfind_cons, ih]

/-- A deleted key is gone. -/
@[simp] theorem sfind_sdel_self {α : Type} (m : SMap α) (k : Nat) : sfind (sdel m k) k = none := by
  induction m with
  | nil => rfl
  | cons p m ih =>
    obtain ⟨y, w⟩ := p
    unfold sdel at ih ⊢
    by_cases e : y = k
    · rw [List.filter_cons_of_neg (by simpa using e), ih]
    · rw [List.filter_cons_of_pos (by simpa using e), sfind_cons, if_neg e, ih]

theorem mem_sput {α : Type} {m : SMap α} {k : Nat} {v : α} {p : Nat × α} (h : p ∈ sput m k v) : p = (k, v) ∨ p ∈ m := by
  induction m with
  | nil => simpa [sput] using h
  | cons q m ih =>
    obtain ⟨x, w⟩ := q
    simp only [sput] at h
    split at h
    · simpa using h
    · split at h
      · rcases List.mem_cons.mp h with h | h
        · exact .inl h
        · exact .inr (by simp [h])
      · rcases List.mem_cons.mp h with h | h
        · exact .inr (by simp [h])
        · rcases ih h with h | h
          · exact .inl h
          · exact .inr (by simp [h])

theorem mem_sdel {α : Type} {m : SMap α} {k : Nat} {p : Nat × α} (h : p ∈ sdel m k) : p ∈ m := (List.mem_filter.mp h).1

/-- A put keeps the keys rising. -/
theorem sput_sorted {α : Type} {m : SMap α} (h : SMap.sorted m) (k : Nat) (v : α) : SMap.sorted (sput m k v) := by
  induction m with
  | nil => simp [sput, SMap.sorted]
  | cons q m ih =>
    obtain ⟨x, w⟩ := q
    have hp := List.pairwise_cons.mp h
    simp only [sput]
    split
    · rename_i hk
      refine List.pairwise_cons.mpr ⟨fun p hpm => ?_, h⟩
      rcases List.mem_cons.mp hpm with e | e
      · subst e; exact hk
      · exact Nat.lt_trans hk (hp.1 p e)
    · split
      · rename_i e
        subst e
        exact List.pairwise_cons.mpr ⟨fun p hpm => hp.1 p hpm, hp.2⟩
      · refine List.pairwise_cons.mpr ⟨fun p hpm => ?_, ih hp.2⟩
        rcases mem_sput hpm with e | e
        · subst e; simp only; omega
        · exact hp.1 p e

/-- A deletion keeps the keys rising. -/
theorem sdel_sorted {α : Type} {m : SMap α} (h : SMap.sorted m) (k : Nat) : SMap.sorted (sdel m k) := List.Pairwise.filter _ h

/-- Setting a key keeps the keys rising. -/
theorem sset_sorted {α : Type} [DecidableEq α] {m : SMap α} (h : SMap.sorted m) (d : α) (k : Nat) (v : α) :
    SMap.sorted (sset d m k v) := by
  unfold sset
  split
  · exact sdel_sorted h k
  · exact sput_sorted h k v

theorem filter_sorted {α : Type} {m : SMap α} (h : SMap.sorted m) (p : Nat × α → Bool) : SMap.sorted (m.filter p) :=
  List.Pairwise.filter p h

/-- Dropping or rewriting entries without changing their keys keeps the keys rising. -/
theorem filterMap_sorted {α : Type} {m : SMap α} (h : SMap.sorted m) (f : Nat × α → Option (Nat × α))
    (hf : ∀ x y, f x = some y → y.1 = x.1) : SMap.sorted (m.filterMap f) := by
  unfold SMap.sorted at *
  rw [List.pairwise_filterMap]
  refine h.imp ?_
  intro a b hab c hc d hd
  rw [hf a c hc, hf b d hd]
  exact hab

/-- Reading a key after it was set gives the value set. -/
@[simp] theorem sget_sset_self {α : Type} [DecidableEq α] (m : SMap α) (d : α) (k : Nat) (v : α) :
    sget d (sset d m k v) k = v := by
  unfold sget sset
  split
  · rename_i e
    rw [sfind_sdel_self m, e]
    rfl
  · simp

/-- Setting a key leaves what every other key reads as. -/
theorem sget_sset_ne {α : Type} [DecidableEq α] (m : SMap α) (d : α) {k x : Nat} (v : α) (h : k ≠ x) :
    sget d (sset d m k v) x = sget d m x := by
  unfold sget sset
  split
  · rw [sfind_sdel_ne m h]
  · rw [sfind_sput_ne m v h]

/-! ### Memory -/

theorem Memory.wf_nil : Memory.wf [] := ⟨List.Pairwise.nil, by simp⟩

/-- Storing a byte keeps the memory canonical. -/
theorem Memory.wf_sset {m : List Host.Cell} (h : Memory.wf m) (k : Nat) (b : Byte) : Memory.wf (sset 0 m k b) := by
  refine ⟨sset_sorted (m := m) h.1 0 k b, ?_⟩
  intro c hc
  unfold sset at hc
  split at hc
  · exact h.2 c (mem_sdel hc)
  · rcases mem_sput hc with e | e
    · subst e; assumption
    · exact h.2 c e

theorem Memory.wf_filter {m : List Host.Cell} (h : Memory.wf m) (p : Host.Cell → Bool) : Memory.wf (m.filter p) :=
  ⟨List.Pairwise.filter p h.1, fun c hc => h.2 c (List.mem_filter.mp hc).1⟩

/-- A byte reads as what was stored. -/
@[simp] theorem State.byte_setByte_self (s : State) (k : Nat) (b : Byte) : (s.setByte k b).byte k = b :=
  sget_sset_self s.mem 0 k b

/-- Storing a byte leaves every other byte. -/
theorem State.byte_setByte_ne (s : State) {k x : Nat} (b : Byte) (h : k ≠ x) : (s.setByte k b).byte x = s.byte x :=
  sget_sset_ne s.mem 0 b h

/-- Storing bytes leaves every byte outside them. -/
theorem State.byte_setBytes_out (s : State) (k x : Nat) (bs : List Byte) (h : x < k ∨ k + bs.length ≤ x) :
    (s.setBytes k bs).byte x = s.byte x := by
  induction bs generalizing s k with
  | nil => rfl
  | cons b bs ih =>
    simp only [State.setBytes]
    rw [ih, State.byte_setByte_ne]
    · simp only [List.length_cons] at h; omega
    · simp only [List.length_cons] at h; omega

end Sys2Proof.Machine
end

