-- ==== Sys2Proof/Laws/Keeps.lean ====
section
/-! SUPPORT. What every operation of the module keeps: the queue of waiting commands, what has left the module, and the
canonical form of memory and registers. -/

namespace Sys2Proof.Machine

/-- What no operation on the way from s to t spoils. -/
structure Keeps (s t : State) : Prop where
  pending : t.pending = s.pending
  out     : s.out <+: t.out
  mem     : Memory.wf s.mem → Memory.wf t.mem
  regs    : SMap.sorted s.regs → SMap.sorted t.regs

theorem Keeps.rfl {s : State} : Keeps s s := ⟨by rfl, List.prefix_refl _, id, id⟩

theorem Keeps.trans {s t u : State} (h : Keeps s t) (g : Keeps t u) : Keeps s u :=
  ⟨g.pending.trans h.pending, h.out.trans g.out, fun w => g.mem (h.mem w), fun w => g.regs (h.regs w)⟩

/-- An update of fields other than these four. -/
theorem Keeps.fields {s t : State} {ecc embers hearths kilns cfg col step ing link bank hif sec pwr dbg jtag pins board rand}
    (h : Keeps s t) : Keeps s (State.mk t.pending t.regs t.mem ecc embers hearths kilns cfg col step ing link bank hif sec pwr
      dbg jtag pins board t.out rand) := ⟨h.pending, h.out, h.mem, h.regs⟩

/-- From what a result keeps to what its state keeps. -/
theorem Keeps.of_eq {α : Type} {s u : State} {p : State × α} {r : α} (e : p = (u, r)) (h : Keeps s p.1) : Keeps s u := by
  rw [e] at h
  exact h

/-- A command's answer keeps what every operation keeps. -/
def KeepsO (s : State) : Host.Outcome State Fault Refusal → Prop
  | .next t => Keeps s t
  | _ => True

theorem Keeps.next {s t : State} (h : Keeps s t) : KeepsO s (.next t) := h

theorem Keeps.ite {s a b : State} {c : Prop} [Decidable c] (ha : Keeps s a) (hb : Keeps s b) :
    Keeps s (if c then a else b) := by
  split <;> assumption

theorem Keeps.foldl {α : Type} {s t : State} (xs : List α) {f : State → α → State} (ht : Keeps s t)
    (hf : ∀ u x, Keeps u (f u x)) : Keeps s (xs.foldl f t) := by
  induction xs generalizing t with
  | nil => exact ht
  | cons x xs ih => exact ih (ht.trans (hf t x))

theorem Keeps.foldlPair {α β : Type} {s : State} {t : State × β} (xs : List α) {f : State × β → α → State × β}
    (ht : Keeps s t.1) (hf : ∀ u x, Keeps u.1 (f u x).1) : Keeps s (xs.foldl f t).1 := by
  induction xs generalizing t with
  | nil => exact ht
  | cons x xs ih => exact ih (ht.trans (hf t x))

theorem andWrite_keeps {s : State} {r : State × Nat} {f : State → State × Nat} (hr : Keeps s r.1)
    (hf : ∀ u, Keeps s u → Keeps s (f u).1) : Keeps s (andWrite r f).1 := by
  unfold andWrite
  split
  · exact hr
  · exact hf _ hr

theorem andRead_keeps {α : Type} {s : State} {r : State × Nat × List Byte} {e : Nat → α} {f : State → List Byte → State × α}
    (hr : Keeps s r.1) (hf : ∀ u b, Keeps s u → Keeps s (f u b).1) : Keeps s (andRead r e f).1 := by
  unfold andRead
  split
  · exact hr
  · exact hf _ _ hr

theorem andChecked_keeps {α β : Type} {s : State} {r : State × Except Nat α} {f : State → α → State × Except Nat β}
    (hr : Keeps s r.1) (hf : ∀ u x, Keeps s u → Keeps s (f u x).1) : Keeps s (andChecked r f).1 := by
  rcases r with ⟨u, _ | x⟩
  · exact hr
  · exact hf _ _ hr

theorem checkRead_keeps {s : State} {r : State × Nat × List Byte} (hr : Keeps s r.1) : Keeps s (checkRead r).1 := hr

theorem orElse_keeps {α : Type} {s : State} {r : State × Except Nat α} {g : State → Nat → State} {f : State → α → State}
    (hr : Keeps s r.1) (hg : ∀ u c, Keeps s u → Keeps s (g u c)) (hf : ∀ u x, Keeps s u → Keeps s (f u x)) :
    Keeps s (orElse r g f) := by
  rcases r with ⟨u, _ | x⟩
  · exact hg _ _ hr
  · exact hf _ _ hr

theorem orWrite_keeps {s : State} {r : State × Nat} {g : State → Nat → State} {f : State → State} (hr : Keeps s r.1)
    (hg : ∀ u c, Keeps s u → Keeps s (g u c)) (hf : ∀ u, Keeps s u → Keeps s (f u)) : Keeps s (orWrite r g f) := by
  unfold orWrite
  split
  · exact hg _ _ hr
  · exact hf _ hr

theorem id_keeps {s : State} : Keeps s (id s) := Keeps.rfl

theorem State.setWord_keeps {s t : State} (off rst v : Nat) (h : Keeps s t) : Keeps s (t.setWord off rst v) :=
  ⟨h.pending, h.out, h.mem, fun w => sset_sorted (h.regs w) _ _ _⟩

theorem State.setByte_keeps {s t : State} (k : Nat) (b : Byte) (h : Keeps s t) : Keeps s (t.setByte k b) :=
  ⟨h.pending, h.out, fun w => Memory.wf_sset (h.mem w) k b, h.regs⟩

theorem State.emit_keeps {s t : State} (o : Out) (h : Keeps s t) : Keeps s (t.emit o) :=
  ⟨h.pending, h.out.trans (List.prefix_append _ _), h.mem, h.regs⟩

end Sys2Proof.Machine
end

