-- ==== Sys2Proof/Laws/KeepsOps.lean ====
section
/-! SUPPORT. What the shared operations over memory, registers and the Collier keep. One lemma for each operation, in the order of the definitions. -/

namespace Sys2Proof.Machine

/-! ### Ops -/

theorem State.put_keeps {s t : State} (a1) (a2) (h : Keeps s t) : Keeps s (State.put t a1 a2) := by
  unfold State.put
  repeat' (with_reducible first | exact h | apply State.setWord_keeps)

theorem State.bump_keeps {s t : State} (a1) (a2) (h : Keeps s t) : Keeps s (State.bump t a1 a2) := by
  unfold State.bump
  repeat' (with_reducible first | exact h | apply State.put_keeps)

theorem State.linkTx_keeps {s t : State} (a1) (h : Keeps s t) : Keeps s (State.linkTx t a1) := by
  unfold State.linkTx
  repeat' (with_reducible first | exact h | apply State.bump_keeps)

theorem State.setBytes_keeps {s t : State} (a1) (a2) (h : Keeps s t) : Keeps s (State.setBytes t a1 a2) := by
  fun_induction State.setBytes t a1 a2 <;> repeat' (with_reducible first
      | exact h | refine ‹_ → _› ?_ | apply State.setByte_keeps)

theorem State.post_keeps {s t : State} (a1) (a2) (h : Keeps s t) : Keeps s (State.post t a1 a2) := by
  unfold State.post
  repeat' (with_reducible first | exact h | apply State.linkTx_keeps | apply State.setBytes_keeps | apply Keeps.ite | split)

theorem State.twSlot_keeps {s t : State} (a1) (a2) (h : Keeps s t) : Keeps s (State.twSlot t a1 a2) := by
  unfold State.twSlot
  dsimp only
  repeat' (with_reducible first | exact h | apply State.put_keeps | apply State.post_keeps | apply Keeps.ite)

theorem State.twWrite_keeps {s t : State} (a1) (a2) (h : Keeps s t) : Keeps s (State.twWrite t a1 a2) := by
  unfold State.twWrite
  dsimp only
  repeat' (with_reducible first
      | exact h | exact Keeps.rfl | apply State.bump_keeps | apply State.twSlot_keeps
      | fail_if_no_progress apply Keeps.fields | apply Keeps.foldl | apply Keeps.ite | intro _ _)

theorem State.trace_keeps {s t : State} (a1) (a2) (a3) (a4) (h : Keeps s t) : Keeps s (State.trace t a1 a2 a3 a4) := by
  unfold State.trace
  dsimp only
  repeat' (with_reducible first
      | exact h | exact Keeps.rfl | apply State.twWrite_keeps | apply Keeps.foldl | apply Keeps.ite | intro _ _)

theorem State.msix_keeps {s t : State} (a1) (h : Keeps s t) : Keeps s (t.msix a1) := by
  unfold State.msix
  repeat' (with_reducible first | exact h | split)
  · exact Keeps.fields h
  · exact h.trans ⟨rfl, List.prefix_append _ _, id, id⟩

theorem State.elog_keeps {s t : State} (a1) (a2) (a3) (h : Keeps s t) : Keeps s (State.elog t a1 a2 a3) := by
  unfold State.elog
  dsimp only
  repeat' (with_reducible first
      | exact h | apply State.bump_keeps | apply State.put_keeps | fail_if_no_progress apply Keeps.fields
      | apply Keeps.ite)

theorem State.event_keeps {s t : State} (a1) (a2) (a3) (a4) (a5)
    (h : Keeps s t) : Keeps s (State.event t a1 a2 a3 a4 a5) := by
  unfold State.event
  dsimp only
  repeat' (with_reducible first
      | exact h | apply State.post_keeps | apply State.put_keeps | apply State.elog_keeps | apply State.msix_keeps
      | apply State.trace_keeps | fail_if_no_progress apply Keeps.fields | apply Keeps.ite)

theorem State.errorRecord_keeps {s t : State} (a1) (a2) (a3) (a4) (a5) (a6) (a7)
    (h : Keeps s t) : Keeps s (State.errorRecord t a1 a2 a3 a4 a5 a6 a7) := by
  unfold State.errorRecord
  dsimp only
  repeat' (with_reducible first
      | exact h | apply State.post_keeps | apply State.elog_keeps | apply State.put_keeps | apply Keeps.ite)

theorem State.ueFound_keeps {s t : State} (a1) (a2) (a3) (a4) (h : Keeps s t) : Keeps s (State.ueFound t a1 a2 a3 a4) := by
  unfold State.ueFound
  dsimp only
  repeat' (with_reducible first | exact h | apply State.errorRecord_keeps | apply State.event_keeps | apply State.bump_keeps)

theorem State.firstErr_keeps {s t : State} (a1) (a2) (a3) (a4)
    (h : Keeps s t) : Keeps s (State.firstErr t a1 a2 a3 a4) := by
  unfold State.firstErr
  repeat' (with_reducible first
      | exact h | exact Keeps.rfl | apply State.put_keeps | apply Keeps.foldl | apply Keeps.ite | intro _ _)

theorem State.memErr_keeps {s t : State} (a1) (a2) (h : Keeps s t) : Keeps s (State.memErr t a1 a2) := by
  unfold State.memErr
  repeat' (with_reducible first | exact h | apply State.firstErr_keeps)

theorem State.orInto_keeps {s t : State} (a1) (a2) (h : Keeps s t) : Keeps s (State.orInto t a1 a2) := by
  unfold State.orInto
  repeat' (with_reducible first | exact h | apply State.put_keeps)

theorem State.linkRx_keeps {s t : State} (a1) (h : Keeps s t) : Keeps s (State.linkRx t a1) := by
  unfold State.linkRx
  repeat' (with_reducible first | exact h | apply State.bump_keeps)

theorem State.bumpSat_keeps {s t : State} (a1) (a2) (h : Keeps s t) : Keeps s (State.bumpSat t a1 a2) := by
  unfold State.bumpSat
  repeat' (with_reducible first | exact h | apply State.put_keeps)

theorem State.pmc_keeps {s t : State} (a1) (a2) (a3) (h : Keeps s t) : Keeps s (State.pmc t a1 a2 a3) := by
  unfold State.pmc
  repeat' (with_reducible first
      | exact h | exact Keeps.rfl | apply State.bumpSat_keeps | apply Keeps.foldl | apply Keeps.ite | intro _ _)

theorem State.pmcAccess_keeps {s t : State} (a1) (a2) (a3) (a4)
    (h : Keeps s t) : Keeps s (State.pmcAccess t a1 a2 a3 a4) := by
  unfold State.pmcAccess
  dsimp only
  repeat' (with_reducible first | exact h | apply State.pmc_keeps | apply Keeps.ite | split)

theorem State.correctedError_keeps {s t : State} (a1) (a2) (a3) (a4)
    (h : Keeps s t) : Keeps s (State.correctedError t a1 a2 a3 a4) := by
  unfold State.correctedError
  dsimp only
  repeat' (with_reducible first
      | exact h | apply State.bump_keeps | apply State.bumpSat_keeps | apply State.errorRecord_keeps
      | fail_if_no_progress apply Keeps.fields | apply Keeps.ite | split)

theorem State.setKiln_keeps {s t : State} (a1) (a2) (h : Keeps s t) : Keeps s (State.setKiln t a1 a2) := by
  unfold State.setKiln
  repeat' (with_reducible first | exact h | fail_if_no_progress apply Keeps.fields)

theorem State.setHearth_keeps {s t : State} (a1) (a2) (h : Keeps s t) : Keeps s (State.setHearth t a1 a2) := by
  unfold State.setHearth
  repeat' (with_reducible first | exact h | fail_if_no_progress apply Keeps.fields)

theorem State.setEmber_keeps {s t : State} (a1) (a2) (h : Keeps s t) : Keeps s (State.setEmber t a1 a2) := by
  unfold State.setEmber
  repeat' (with_reducible first | exact h | fail_if_no_progress apply Keeps.fields)

theorem State.settleIdle_keeps {s t : State} (h : Keeps s t) : Keeps s (State.settleIdle t) := by
  unfold State.settleIdle
  repeat' (with_reducible first | exact h | apply State.put_keeps | apply Keeps.ite)

theorem State.nextRand_keeps {s t : State} (h : Keeps s t) : Keeps s (State.nextRand t) := by
  unfold State.nextRand
  repeat' (with_reducible first | exact h | fail_if_no_progress apply Keeps.fields)

/-! ### Collier -/

theorem State.cqWrite_keeps {s t : State} (a1) (h : Keeps s t) : Keeps s (State.cqWrite t a1) := by
  unfold State.cqWrite
  dsimp only
  repeat' (with_reducible first
      | exact h | apply State.post_keeps | apply State.put_keeps | apply State.msix_keeps
      | fail_if_no_progress apply Keeps.fields | apply Keeps.ite)

theorem State.finish_keeps {s t : State} (a1) (a2) (a3) (a4) (h : Keeps s t) : Keeps s (State.finish t a1 a2 a3 a4) := by
  unfold State.finish
  dsimp only
  repeat' (with_reducible first
      | exact h | apply State.put_keeps | apply State.trace_keeps | apply State.cqWrite_keeps
      | fail_if_no_progress apply Keeps.fields | apply Keeps.ite)

theorem State.faultQueue_keeps {s t : State} (a1) (h : Keeps s t) : Keeps s (State.faultQueue t a1) := by
  unfold State.faultQueue
  repeat' (with_reducible first | exact h | apply State.event_keeps | apply State.put_keeps)

theorem State.fetchHead_keeps {s t : State} (a1) (h : Keeps s t) : Keeps s (State.fetchHead t a1) := by
  unfold State.fetchHead
  dsimp only
  repeat' (with_reducible first
      | exact h | apply State.faultQueue_keeps | apply State.ueFound_keeps | fail_if_no_progress apply Keeps.fields
      | apply Keeps.ite | split)

theorem State.dropFetch_keeps {s t : State} (a1) (h : Keeps s t) : Keeps s (State.dropFetch t a1) := by
  unfold State.dropFetch
  dsimp only
  repeat' (with_reducible first | exact h | fail_if_no_progress apply Keeps.fields)

theorem State.takeHead_keeps {s t : State} (a1) (a2) (h : Keeps s t) : Keeps s (State.takeHead t a1 a2) := by
  unfold State.takeHead
  dsimp only
  repeat' (with_reducible first
      | exact h | apply State.fetchHead_keeps | apply State.put_keeps | apply State.dropFetch_keeps
      | fail_if_no_progress apply Keeps.fields)

theorem State.settleGo_keeps {s t : State} (a1) (h : Keeps s t) : Keeps s (State.settleGo a1 t) := by
  fun_induction State.settleGo a1 t <;> repeat' (with_reducible first
      | exact h | refine ‹_ → _› ?_ | apply State.finish_keeps | apply State.takeHead_keeps)

theorem State.settle_keeps {s t : State} (h : Keeps s t) : Keeps s (State.settle t) := by
  unfold State.settle
  repeat' (with_reducible first | exact h | apply State.settleGo_keeps)

theorem State.raise_keeps {s t : State} (a1) (a2) (a3) (a4) (a5)
    (h : Keeps s t) : Keeps s (State.raise t a1 a2 a3 a4 a5) := by
  unfold State.raise
  repeat' (with_reducible first | exact h | apply State.settle_keeps | apply State.event_keeps)

theorem State.markStats_keeps {s t : State} (a1) (h : Keeps s t) : Keeps s (State.markStats t a1) := by
  unfold State.markStats
  dsimp only
  repeat' (with_reducible first | exact h | exact Keeps.rfl | apply State.post_keeps | apply Keeps.foldl | intro _ _)

theorem State.enter_keeps {s t : State} (a1) (h : Keeps s t) : Keeps s (State.enter t a1) := by
  unfold State.enter
  dsimp only
  repeat' (with_reducible first | exact h | apply State.trace_keeps | apply State.put_keeps)

theorem State.setLast_keeps {s t : State} (a1) (h : Keeps s t) : Keeps s (State.setLast t a1) := by
  unfold State.setLast
  dsimp only
  repeat' (with_reducible first | exact h | apply State.put_keeps | fail_if_no_progress apply Keeps.fields | apply Keeps.ite)

theorem State.endRuns_keeps {s t : State} (a1) (h : Keeps s t) : Keeps s (State.endRuns t a1) := by
  unfold State.endRuns
  dsimp only
  repeat' (with_reducible first | exact h | fail_if_no_progress apply Keeps.fields)

theorem State.completeEvery_keeps {s t : State} (a1) (a2) (a3) (a4) (a5)
    (h : Keeps s t) : Keeps s (State.completeEvery t a1 a2 a3 a4 a5) := by
  unfold State.completeEvery
  repeat' (with_reducible first
      | exact h | exact Keeps.rfl | apply State.settle_keeps | apply State.finish_keeps | apply Keeps.foldl | intro _ _)

theorem State.abortStep_keeps {s t : State} (h : Keeps s t) : Keeps s (State.abortStep t) := by
  unfold State.abortStep
  dsimp only
  repeat' (with_reducible first
      | exact h | apply State.markStats_keeps | apply State.enter_keeps | apply State.setLast_keeps
      | apply State.endRuns_keeps | apply State.put_keeps | apply State.completeEvery_keeps
      | fail_if_no_progress apply Keeps.fields | apply Keeps.ite)

theorem State.veto_keeps {s t : State} (a1) (h : Keeps s t) : Keeps s (State.veto t a1) := by
  unfold State.veto
  dsimp only
  repeat' (with_reducible first
      | exact h | apply State.orInto_keeps | apply State.put_keeps | apply State.abortStep_keeps | apply Keeps.ite)

theorem State.accessFailed_keeps {s t : State} (a1) (a2) (h : Keeps s t) : Keeps s (State.accessFailed t a1 a2) := by
  unfold State.accessFailed
  dsimp only
  repeat' (with_reducible first | exact h | apply State.memErr_keeps | apply State.veto_keeps | apply Keeps.ite)

theorem State.uncorrectable_keeps {s t : State} (a1) (a2) (a3) (a4)
    (h : Keeps s t) : Keeps s (State.uncorrectable t a1 a2 a3 a4) := by
  unfold State.uncorrectable
  dsimp only
  repeat' (with_reducible first
      | exact h | apply State.settle_keeps | apply State.ueFound_keeps | apply State.veto_keeps | apply Keeps.ite)

theorem State.readPiece_keeps {s t : State} (a1) (a2) (a3) (h : Keeps s t) : Keeps s (State.readPiece t a1 a2 a3).1 := by
  unfold State.readPiece
  dsimp only
  repeat' (with_reducible first
      | exact h | exact Keeps.rfl | apply State.accessFailed_keeps | apply State.memErr_keeps
      | apply State.uncorrectable_keeps | apply State.linkRx_keeps | apply State.pmcAccess_keeps
      | apply State.correctedError_keeps | apply Keeps.foldl | apply Keeps.ite | split | intro _ _)

theorem State.readPieces_keeps {s t : State} (a1) (a2) (h : Keeps s t) : Keeps s (State.readPieces a1 a2 t).1 := by
  fun_induction State.readPieces a1 a2 t <;> (try dsimp only) <;> repeat' (with_reducible first
      | exact h | refine ‹_ → _› ?_ | apply State.readPiece_keeps | refine Keeps.of_eq ‹_› ?_)

theorem State.readMem_keeps {s t : State} (a1) (a2) (a3) (h : Keeps s t) : Keeps s (State.readMem t a1 a2 a3).1 := by
  unfold State.readMem
  dsimp only
  repeat' (with_reducible first | exact h | apply State.accessFailed_keeps | apply State.readPieces_keeps | split)

theorem State.complete_keeps {s t : State} (a1) (a2) (a3) (a4)
    (h : Keeps s t) : Keeps s (State.complete t a1 a2 a3 a4) := by
  unfold State.complete
  repeat' (with_reducible first | exact h | apply State.settle_keeps | apply State.finish_keeps)

theorem State.writePiece_keeps {s t : State} (a1) (a2) (a3) (h : Keeps s t) : Keeps s (State.writePiece t a1 a2 a3).1 := by
  unfold State.writePiece
  dsimp only
  repeat' (with_reducible first
      | exact h | apply State.accessFailed_keeps | apply State.memErr_keeps | apply State.uncorrectable_keeps
      | apply State.pmcAccess_keeps | apply State.linkTx_keeps | apply State.setBytes_keeps
      | fail_if_no_progress apply Keeps.fields | apply Keeps.ite | split)

theorem State.writePieces_keeps {s t : State} (a1) (a2) (a3)
    (h : Keeps s t) : Keeps s (State.writePieces a1 a2 a3 t).1 := by
  fun_induction State.writePieces a1 a2 a3 t <;> (try dsimp only) <;> repeat' (with_reducible first
      | exact h | refine ‹_ → _› ?_ | apply State.writePiece_keeps | refine Keeps.of_eq ‹_› ?_)

theorem State.writeMem_keeps {s t : State} (a1) (a2) (a3) (h : Keeps s t) : Keeps s (State.writeMem t a1 a2 a3).1 := by
  unfold State.writeMem
  dsimp only
  repeat' (with_reducible first | exact h | apply State.accessFailed_keeps | apply State.writePieces_keeps | split)

theorem State.cqFlushGo_keeps {s t : State} (a1) (a2) (a3) (h : Keeps s t) : Keeps s (State.cqFlushGo a1 a2 a3 t) := by
  fun_induction State.cqFlushGo a1 a2 a3 t <;> (try dsimp only) <;> repeat' (with_reducible first
      | exact h | refine ‹_ → _› ?_ | apply State.cqWrite_keeps | fail_if_no_progress apply Keeps.fields)

theorem State.cqFlush_keeps {s t : State} (a1) (h : Keeps s t) : Keeps s (State.cqFlush t a1) := by
  unfold State.cqFlush
  repeat' (with_reducible first | exact h | apply State.cqFlushGo_keeps)

/-! ### Operands -/

theorem State.setTable_keeps {s t : State} (a1) (a2) (a3) (a4)
    (h : Keeps s t) : Keeps s (State.setTable t a1 a2 a3 a4) := by
  unfold State.setTable
  dsimp only
  repeat' (with_reducible first | exact h | apply State.setHearth_keeps)

theorem State.hRead_keeps {s t : State} (a1) (a2) (a3) (a4) (h : Keeps s t) : Keeps s (State.hRead t a1 a2 a3 a4).1 := by
  unfold State.hRead
  repeat' (with_reducible first | exact h | apply State.readMem_keeps)

theorem State.opBlock_keeps {s t : State} (a1 a2 a3 a4 a5 a6) (h : Keeps s t) : Keeps s (t.opBlock a1 a2 a3 a4 a5 a6).1 := by
  unfold State.opBlock
  split
  · exact h
  · refine andRead_keeps (State.hRead_keeps _ _ _ _ h) fun _ _ g => andRead_keeps ?_ fun _ _ g => g
    split
    · exact State.hRead_keeps _ _ _ _ g
    · exact g

theorem State.rowBlocks_keeps {s t : State} (a1) (a2) (a3) (a4) (a5) (a6) (a7)
    (h : Keeps s t) : Keeps s (State.rowBlocks t a1 a2 a3 a4 a5 a6 a7).1 := by
  fun_induction State.rowBlocks t a1 a2 a3 a4 a5 a6 a7 <;> (try dsimp only) <;> repeat' (with_reducible first
      | exact h | refine ‹_ → _› ?_ | apply State.opBlock_keeps | refine Keeps.of_eq ‹_› ?_)

theorem State.rowCodes_keeps {s t : State} (a1 a2 a3 a4 a5) (h : Keeps s t) : Keeps s (t.rowCodes a1 a2 a3 a4 a5).1 := by
  unfold State.rowCodes
  split
  · refine Keeps.foldlPair _ h ?_
    intro u x
    split
    · exact Keeps.rfl
    · extract_lets n
      split
      rename_i e
      have h1 := Keeps.of_eq e (State.hRead_keeps _ _ _ _ Keeps.rfl)
      split <;> exact h1
  · split
    rename_i e
    have h1 := Keeps.of_eq e (State.hRead_keeps _ _ _ _ h)
    split <;> exact h1

theorem State.tileRow_keeps {s t : State} (a1 a2 a3 a4 a5 a6) (h : Keeps s t) : Keeps s (t.tileRow a1 a2 a3 a4 a5 a6).1 := by
  unfold State.tileRow
  refine andChecked_keeps (State.rowBlocks_keeps _ _ _ _ _ _ _ h) fun _ _ g => ?_
  refine andChecked_keeps (State.rowCodes_keeps _ _ _ _ _ g) fun _ _ g => ?_
  split
  · refine andRead_keeps (State.hRead_keeps _ _ _ _ g) fun _ _ g => andRead_keeps ?_ fun _ _ g => g
    split
    · exact State.hRead_keeps _ _ _ _ g
    · exact g
  · exact g

theorem State.tile_keeps {s t : State} (a1) (a2) (a3) (a4) (a5) (a6)
    (h : Keeps s t) : Keeps s (State.tile t a1 a2 a3 a4 a5 a6).1 := by
  fun_induction State.tile t a1 a2 a3 a4 a5 a6 <;> (try dsimp only) <;> repeat' (with_reducible first
      | exact h | refine ‹_ → _› ?_ | apply State.tileRow_keeps | refine Keeps.of_eq ‹_› ?_)

theorem State.hWrite_keeps {s t : State} (a1) (a2) (a3) (a4) (h : Keeps s t) : Keeps s (State.hWrite t a1 a2 a3 a4).1 := by
  unfold State.hWrite
  repeat' (with_reducible first | exact h | apply State.writeMem_keeps)

/-! ### Work -/

theorem State.workFailed_keeps {s t : State} (a1) (h : Keeps s t) : Keeps s (State.workFailed t a1) := by
  unfold State.workFailed
  dsimp only
  repeat' (with_reducible first
      | exact h | apply State.veto_keeps | fail_if_no_progress apply Keeps.fields | apply Keeps.ite)

theorem State.noteFlags_keeps {s t : State} (a1) (h : Keeps s t) : Keeps s (State.noteFlags t a1) := by
  unfold State.noteFlags
  dsimp only
  repeat' (with_reducible first | exact h | fail_if_no_progress apply Keeps.fields | apply Keeps.ite)

theorem State.sticky_keeps {s t : State} (a1) (a2) (h : Keeps s t) : Keeps s (State.sticky t a1 a2) := by
  unfold State.sticky
  dsimp only
  repeat' (with_reducible first | exact h | apply State.noteFlags_keeps | apply State.orInto_keeps | apply Keeps.ite)

theorem State.issue_keeps {s t : State} (a1) (h : Keeps s t) : Keeps s (State.issue t a1).1 := by
  unfold State.issue
  dsimp only
  repeat' (with_reducible first | exact h | apply State.bump_keeps)

theorem State.embError_keeps {s t : State} (a1) (a2) (a3) (a4)
    (h : Keeps s t) : Keeps s (State.embError t a1 a2 a3 a4) := by
  unfold State.embError
  dsimp only
  repeat' (with_reducible first | exact h | apply State.firstErr_keeps | apply State.workFailed_keeps)

theorem State.addStat_keeps {s t : State} (a1) (a2) (a3) (h : Keeps s t) : Keeps s (State.addStat t a1 a2 a3) := by
  unfold State.addStat
  dsimp only
  repeat' (with_reducible first
      | exact h | apply State.post_keeps | fail_if_no_progress apply Keeps.fields | apply Keeps.ite)

theorem State.hearthError_keeps {s t : State} (a1) (a2) (a3) (h : Keeps s t) : Keeps s (State.hearthError t a1 a2 a3) := by
  unfold State.hearthError
  repeat' (with_reducible first | exact h | apply State.workFailed_keeps | apply State.firstErr_keeps)

end Sys2Proof.Machine
end

