-- ==== Sys2Proof/Laws/KeepsCompute.lean ====
section
/-! SUPPORT. What the ember, hearth and vector instructions keep. One lemma for each operation, in the order of the definitions. -/

namespace Sys2Proof.Machine

/-! ### OutStage -/

theorem State.hWrites_keeps {s t : State} (a1) (a2) (a3) (h : Keeps s t) : Keeps s (State.hWrites t a1 a2 a3).1 := by
  fun_induction State.hWrites t a1 a2 a3 <;> (try dsimp only) <;> repeat' (with_reducible first
      | exact h | refine ‹_ → _› ?_ | apply State.hWrite_keeps | refine Keeps.of_eq ‹_› ?_)

theorem State.buildBook_keeps {s t : State} (a1) (a2) (h : Keeps s t) : Keeps s (State.buildBook t a1 a2) := by
  unfold State.buildBook
  dsimp only
  repeat' (with_reducible first | exact h | apply State.setTable_keeps | apply State.setHearth_keeps)

theorem State.addHistogram_keeps {s t : State} (a1) (a2) (a3)
    (h : Keeps s t) : Keeps s (State.addHistogram t a1 a2 a3) := by
  unfold State.addHistogram
  dsimp only
  repeat' (with_reducible first
      | exact h | apply State.buildBook_keeps | apply State.setHearth_keeps | apply State.put_keeps | apply Keeps.ite)

theorem State.outRow_keeps {s t : State} (a1 a2 a3 a4) (h : Keeps s t) : Keeps s (t.outRow a1 a2 a3 a4).1 := by
  unfold State.outRow
  extract_lets spill en slot bias
  have hb : Keeps s bias.1 := by
    dsimp only [bias]
    split
    · exact h
    · exact State.hRead_keeps _ _ _ _ h
  refine andRead_keeps hb fun _ _ g => andWrite_keeps (State.hWrites_keeps _ _ _ g) fun _ g => ?_
  repeat' (with_reducible first
      | exact g | apply State.hWrite_keeps | apply State.addStat_keeps | apply State.addHistogram_keeps
      | apply State.sticky_keeps | apply State.setEmber_keeps | split)

theorem State.outRows_keeps {s t : State} (a1) (a2) (a3) (a4)
    (h : Keeps s t) : Keeps s (State.outRows t a1 a2 a3 a4).1 := by
  fun_induction State.outRows t a1 a2 a3 a4 <;> (try dsimp only) <;> repeat' (with_reducible first
      | exact h | refine ‹_ → _› ?_ | apply State.outRow_keeps | refine Keeps.of_eq ‹_› ?_)

/-! ### VecOps -/

theorem State.vecError_keeps {s t : State} (a1) (a2) (a3) (h : Keeps s t) : Keeps s (State.vecError t a1 a2 a3) := by
  unfold State.vecError
  repeat' (with_reducible first | exact h | apply State.hearthError_keeps | apply State.firstErr_keeps)

theorem State.vecFlags_keeps {s t : State} (a1) (a2) (a3) (h : Keeps s t) : Keeps s (State.vecFlags t a1 a2 a3) := by
  unfold State.vecFlags
  dsimp only
  repeat' (with_reducible first | exact h | apply State.sticky_keeps | apply State.put_keeps | apply Keeps.ite)

theorem State.vecEnd_keeps {s t : State} (a1) (a2) (a3) (a4) (h : Keeps s t) : Keeps s (State.vecEnd t a1 a2 a3 a4) := by
  unfold State.vecEnd
  repeat' (with_reducible first | exact h | apply State.bump_keeps | apply State.vecFlags_keeps)

theorem State.setLanes_keeps {s t : State} (a1) (a2) (a3) (h : Keeps s t) : Keeps s (State.setLanes t a1 a2 a3) := by
  unfold State.setLanes
  dsimp only
  repeat' (with_reducible first | exact h | apply State.setHearth_keeps)

theorem State.vecDone_keeps {s t : State} (a1) (a2) (a3) (h : Keeps s t) : Keeps s (State.vecDone t a1 a2 a3) := by
  unfold State.vecDone
  repeat' (with_reducible first | exact h | apply State.vecEnd_keeps | apply State.setLanes_keeps)

theorem vecMap_keeps {s t : State} (a1) (a2) (a3) (a4) (h : Keeps s t) : Keeps s (vecMap a1 a2 t a3 a4) := by
  unfold vecMap
  dsimp only
  repeat' (with_reducible first
      | exact h | apply State.issue_keeps | apply State.vecError_keeps | apply State.vecDone_keeps | split)

/-! ### Ember -/

theorem runWord_keeps {s t : State} (a1) {f} (a2 a3) (hf : ∀ u, Keeps u (f a2 a3 u)) (h : Keeps s t) :
    KeepsO s (runWord a1 f a2 a3 t) := by
  unfold runWord
  split
  · exact Keeps.next (h.trans (hf _))
  · exact Keeps.next h

theorem State.accumulatorUE_keeps {s t : State} (a1) (a2) (h : Keeps s t) : Keeps s (State.accumulatorUE t a1 a2) := by
  unfold State.accumulatorUE
  dsimp only
  repeat' (with_reducible first
      | exact h | apply State.errorRecord_keeps | apply State.bump_keeps | apply State.raise_keeps
      | apply State.memErr_keeps | apply State.veto_keeps | apply Keeps.ite)

theorem State.readKSteps_keeps {s t : State} (a1) (a2) (h : Keeps s t) : Keeps s (State.readKSteps t a1 a2).1 := by
  fun_induction State.readKSteps t a1 a2 <;> (try dsimp only) <;> repeat' (with_reducible first
      | exact h | refine ‹_ → _› ?_ | apply State.tile_keeps | refine Keeps.of_eq ‹_› ?_)

theorem State.putSlots_keeps {s t : State} (a1) (a2) (h : Keeps s t) : Keeps s (State.putSlots t a1 a2) := by
  unfold State.putSlots
  dsimp only
  repeat' (with_reducible first | exact h | apply State.setEmber_keeps)

theorem State.capture_keeps {s t : State} (a1) (a2) (h : Keeps s t) : Keeps s (State.capture t a1 a2) := by
  unfold State.capture
  dsimp only
  repeat' (with_reducible first
      | exact h | exact Keeps.rfl | apply State.put_keeps | apply Keeps.foldl | apply Keeps.ite | intro _ _)

theorem State.accumulate_keeps {s t : State} (a1) (a2) (h : Keeps s t) : Keeps s (State.accumulate t a1 a2) := by
  unfold State.accumulate
  dsimp only
  repeat' (with_reducible first
      | exact h | apply State.putSlots_keeps | apply State.sticky_keeps | apply State.pmc_keeps | apply State.bump_keeps
      | apply State.capture_keeps | split)

theorem State.runMma_keeps {s t : State} (a1) (h : Keeps s t) : Keeps s (State.runMma t a1) := by
  unfold State.runMma
  dsimp only
  repeat' (with_reducible first
      | exact h | apply State.embError_keeps | apply State.sticky_keeps | apply State.accumulatorUE_keeps
      | apply State.readKSteps_keeps | apply State.accumulate_keeps | apply State.outRows_keeps | apply Keeps.ite
      | split)

theorem doMma_keeps {s t : State} (a1) (a2) (h : Keeps s t) : Keeps s (doMma a1 a2 t) := by
  unfold doMma
  dsimp only
  repeat' (with_reducible first
      | exact h | apply State.issue_keeps | apply State.embError_keeps | apply State.runMma_keeps | split)

theorem execMma_keeps {s t : State} (a1) (a2) (h : Keeps s t) : KeepsO s (execMma a1 a2 t) := by
  unfold execMma
  repeat' (with_reducible first | exact h | exact Keeps.rfl | apply runWord_keeps | apply doMma_keeps | intro _)

theorem doOut_keeps {s t : State} (a1) (a2) (h : Keeps s t) : Keeps s (doOut a1 a2 t) := by
  unfold doOut
  dsimp only
  repeat' (with_reducible first
      | exact h | apply State.issue_keeps | apply State.embError_keeps | apply State.accumulatorUE_keeps
      | apply State.outRows_keeps | apply Keeps.ite | split)

theorem execOut_keeps {s t : State} (a1) (a2) (h : Keeps s t) : KeepsO s (execOut a1 a2 t) := by
  unfold execOut
  repeat' (with_reducible first | exact h | exact Keeps.rfl | apply runWord_keeps | apply doOut_keeps | intro _)

theorem doClr_keeps {s t : State} (a1) (a2) (h : Keeps s t) : Keeps s (doClr a1 a2 t) := by
  unfold doClr
  dsimp only
  repeat' (with_reducible first
      | exact h | apply State.issue_keeps | apply State.embError_keeps | apply State.putSlots_keeps | split)

theorem execClr_keeps {s t : State} (a1) (a2) (h : Keeps s t) : KeepsO s (execClr a1 a2 t) := by
  unfold execClr
  repeat' (with_reducible first | exact h | exact Keeps.rfl | apply runWord_keeps | apply doClr_keeps | intro _)

theorem State.bsstRows_keeps {s t : State} (a1 a2 a3 a4) (h : Keeps s t) : Keeps s (t.bsstRows a1 a2 a3 a4).1 := by
  induction a4 generalizing t a3 with
  | nil => exact h
  | cons x xs ih =>
    rw [State.bsstRows]
    exact andWrite_keeps (State.writeMem_keeps _ _ _ h) fun _ g => ih _ g

theorem doBsst_keeps {s t : State} (a1) (a2) (h : Keeps s t) : Keeps s (doBsst a1 a2 t) := by
  unfold doBsst
  dsimp only
  repeat' (with_reducible first
      | exact h | apply State.issue_keeps | apply State.embError_keeps | apply State.accumulatorUE_keeps
      | apply State.bsstRows_keeps | apply Keeps.ite | split)

theorem execBsst_keeps {s t : State} (a1) (a2) (h : Keeps s t) : KeepsO s (execBsst a1 a2 t) := by
  unfold execBsst
  repeat' (with_reducible first | exact h | exact Keeps.rfl | apply runWord_keeps | apply doBsst_keeps | intro _)

theorem State.readRecords_keeps {s t : State} (a1 a2 a3 a4) (h : Keeps s t) : Keeps s (t.readRecords a1 a2 a3 a4).1 := by
  induction a4 generalizing t a3 with
  | zero => exact h
  | succ n ih => exact andRead_keeps (State.readMem_keeps _ _ _ h) fun _ _ g => ih _ g

theorem doBsadd_keeps {s t : State} (a1) (a2) (h : Keeps s t) : Keeps s (doBsadd a1 a2 t) := by
  unfold doBsadd
  dsimp only
  repeat' (with_reducible first
      | exact h | apply State.issue_keeps | apply State.embError_keeps | apply State.readRecords_keeps
      | apply State.accumulatorUE_keeps | apply State.sticky_keeps | apply State.putSlots_keeps | apply State.pmc_keeps
      | apply Keeps.ite | split)

theorem execBsadd_keeps {s t : State} (a1) (a2) (h : Keeps s t) : KeepsO s (execBsadd a1 a2 t) := by
  unfold execBsadd
  repeat' (with_reducible first | exact h | exact Keeps.rfl | apply runWord_keeps | apply doBsadd_keeps | intro _)

theorem doKred_keeps {s t : State} (a1) (a2) (h : Keeps s t) : Keeps s (doKred a1 a2 t) := by
  unfold doKred
  dsimp only
  repeat' (with_reducible first
      | exact h | apply State.issue_keeps | apply State.hearthError_keeps | apply State.accumulatorUE_keeps
      | apply State.sticky_keeps | apply State.putSlots_keeps | apply State.pmc_keeps | apply Keeps.ite | split)

theorem execKred_keeps {s t : State} (a1) (a2) (h : Keeps s t) : KeepsO s (execKred a1 a2 t) := by
  unfold execKred
  repeat' (with_reducible first | exact h | exact Keeps.rfl | apply runWord_keeps | apply doKred_keeps | intro _)

theorem State.writeStats_keeps {s t : State} (a1) (a2) (a3) (a4)
    (h : Keeps s t) : Keeps s (State.writeStats t a1 a2 a3 a4).1 := by
  fun_induction State.writeStats t a1 a2 a3 a4 <;> (try dsimp only) <;> repeat' (with_reducible first
      | exact h | refine ‹_ → _› ?_ | apply State.hWrite_keeps | refine Keeps.of_eq ‹_› ?_)

theorem doRstat_keeps {s t : State} (a1) (a2) (h : Keeps s t) : Keeps s (doRstat a1 a2 t) := by
  unfold doRstat
  dsimp only
  repeat' (with_reducible first
      | exact h | apply State.issue_keeps | apply State.hearthError_keeps | apply State.accumulatorUE_keeps
      | apply State.writeStats_keeps | apply State.sticky_keeps | apply Keeps.ite | split)

theorem execRstat_keeps {s t : State} (a1) (a2) (h : Keeps s t) : KeepsO s (execRstat a1 a2 t) := by
  unfold execRstat
  repeat' (with_reducible first | exact h | exact Keeps.rfl | apply runWord_keeps | apply doRstat_keeps | intro _)

theorem State.swapBooks_keeps {s t : State} (a1) (h : Keeps s t) : Keeps s (State.swapBooks t a1) := by
  unfold State.swapBooks
  dsimp only
  repeat' (with_reducible first
      | exact h | exact Keeps.rfl | apply State.buildBook_keeps | apply State.setTable_keeps
      | apply State.setHearth_keeps | apply Keeps.foldl | intro _ _)

theorem doHbar_keeps {s t : State} (a1) (a2) (h : Keeps s t) : Keeps s (doHbar a1 a2 t) := by
  unfold doHbar
  dsimp only
  repeat' (with_reducible first
      | exact h | apply State.issue_keeps | apply State.hearthError_keeps | apply State.swapBooks_keeps
      | apply Keeps.ite)

theorem execHbar_keeps {s t : State} (a1) (a2) (h : Keeps s t) : KeepsO s (execHbar a1 a2 t) := by
  unfold execHbar
  repeat' (with_reducible first | exact h | exact Keeps.rfl | apply runWord_keeps | apply doHbar_keeps | intro _)

theorem execCodebookBuild_keeps {s t : State} (a1) (a2) (h : Keeps s t) : KeepsO s (execCodebookBuild a1 a2 t) := by
  unfold execCodebookBuild
  repeat' (with_reducible first | exact h | apply State.buildBook_keeps | apply Keeps.next | split)

theorem doReserved_keeps {s t : State} (a1) (a2) (h : Keeps s t) : Keeps s (doReserved a1 a2 t) := by
  unfold doReserved
  dsimp only
  repeat' (with_reducible first | exact h | apply State.issue_keeps | apply State.embError_keeps)

/-! ### Vector -/

theorem State.readScaledBlock_keeps {s t : State} (a1 a2 a3 a4 a5 a6) (h : Keeps s t) :
    Keeps s (t.readScaledBlock a1 a2 a3 a4 a5 a6).1 := by
  unfold State.readScaledBlock
  refine andRead_keeps (State.hRead_keeps _ _ _ _ h) fun _ _ g => ?_
  refine andRead_keeps ?_ fun _ _ g => andRead_keeps (State.hRead_keeps _ _ _ _ g) fun _ _ g => g
  split
  · exact State.hRead_keeps _ _ _ _ g
  · exact g

theorem State.readScaled_keeps {s t : State} (a1 a2 a3 a4 a5 a6 a7 a8) (h : Keeps s t) :
    Keeps s (t.readScaled a1 a2 a3 a4 a5 a6 a7 a8).1 := by
  induction a8 generalizing t a7 with
  | zero => exact h
  | succ n ih =>
    refine andChecked_keeps (State.readScaledBlock_keeps _ _ _ _ _ _ h) fun _ _ g => ?_
    exact andChecked_keeps (ih _ g) fun _ _ g => g

theorem State.readElems_keeps {s t : State} (a1) (a2) (a3) (a4) (a5)
    (h : Keeps s t) : Keeps s (State.readElems t a1 a2 a3 a4 a5).1 := by
  fun_induction State.readElems t a1 a2 a3 a4 a5 <;> (try dsimp only) <;> repeat' (with_reducible first
      | exact h | refine ‹_ → _› ?_ | apply State.hRead_keeps | refine Keeps.of_eq ‹_› ?_)

theorem doVld_keeps {s t : State} (a1) (a2) (h : Keeps s t) : Keeps s (doVld a1 a2 t) := by
  unfold doVld
  dsimp only
  repeat' (with_reducible first
      | exact h | apply State.issue_keeps | apply State.vecError_keeps | apply State.readScaled_keeps
      | apply State.sticky_keeps | apply State.vecDone_keeps | apply State.readElems_keeps | refine Keeps.of_eq ‹_› ?_
      | apply Keeps.ite | split)

theorem execVld_keeps {s t : State} (a1) (a2) (h : Keeps s t) : KeepsO s (execVld a1 a2 t) := by
  unfold execVld
  repeat' (with_reducible first | exact h | exact Keeps.rfl | apply runWord_keeps | apply doVld_keeps | intro _)

theorem State.writeElems_keeps {s t : State} (a1 a2 a3 a4 a5) (h : Keeps s t) : Keeps s (t.writeElems a1 a2 a3 a4 a5).1 := by
  induction a5 generalizing t with
  | nil => exact h
  | cons x xs ih =>
    rw [State.writeElems]
    split
    · refine andRead_keeps (State.hRead_keeps _ _ _ _ h) fun _ _ g => ?_
      exact andWrite_keeps (State.hWrite_keeps _ _ _ _ g) fun _ g => ih g
    · exact andWrite_keeps (State.hWrite_keeps _ _ _ _ h) fun _ g => ih g

theorem doVst_keeps {s t : State} (a1) (a2) (h : Keeps s t) : Keeps s (doVst a1 a2 t) := by
  unfold doVst
  dsimp only
  repeat' (with_reducible first
      | exact h | assumption | apply State.issue_keeps | apply State.vecError_keeps | apply orWrite_keeps
      | apply State.hWrites_keeps | apply State.vecEnd_keeps | apply State.writeElems_keeps | apply Keeps.ite | split
      | intro _ _)

theorem execVst_keeps {s t : State} (a1) (a2) (h : Keeps s t) : KeepsO s (execVst a1 a2 t) := by
  unfold execVst
  repeat' (with_reducible first | exact h | exact Keeps.rfl | apply runWord_keeps | apply doVst_keeps | intro _)

theorem doVgath_keeps {s t : State} (a1) (a2) (h : Keeps s t) : Keeps s (doVgath a1 a2 t) := by
  unfold doVgath
  dsimp only
  repeat' (with_reducible first
      | exact h | apply State.issue_keeps | apply State.vecError_keeps | apply State.readElems_keeps
      | apply State.vecDone_keeps | refine Keeps.of_eq ‹_› ?_ | split)

theorem execVgath_keeps {s t : State} (a1) (a2) (h : Keeps s t) : KeepsO s (execVgath a1 a2 t) := by
  unfold execVgath
  repeat' (with_reducible first | exact h | exact Keeps.rfl | apply runWord_keeps | apply doVgath_keeps | intro _)

theorem doVscat_keeps {s t : State} (a1) (a2) (h : Keeps s t) : Keeps s (doVscat a1 a2 t) := by
  unfold doVscat
  dsimp only
  repeat' (with_reducible first
      | exact h | assumption | apply State.issue_keeps | apply State.vecError_keeps | apply orWrite_keeps
      | apply State.writeElems_keeps | apply State.vecEnd_keeps | split | intro _ _)

theorem execVscat_keeps {s t : State} (a1) (a2) (h : Keeps s t) : KeepsO s (execVscat a1 a2 t) := by
  unfold execVscat
  repeat' (with_reducible first | exact h | exact Keeps.rfl | apply runWord_keeps | apply doVscat_keeps | intro _)

theorem doVsplat_keeps {s t : State} (a1) (a2) (h : Keeps s t) : Keeps s (doVsplat a1 a2 t) := by
  unfold doVsplat
  dsimp only
  repeat' (with_reducible first | exact h | apply vecMap_keeps)

theorem execVsplat_keeps {s t : State} (a1) (a2) (h : Keeps s t) : KeepsO s (execVsplat a1 a2 t) := by
  unfold execVsplat
  repeat' (with_reducible first | exact h | exact Keeps.rfl | apply runWord_keeps | apply doVsplat_keeps | intro _)

theorem vecF_keeps {s t : State} (a1) (a2) (a3) (a4) (h : Keeps s t) : Keeps s (vecF a1 a2 t a3 a4) := by
  unfold vecF
  repeat' (with_reducible first | exact h | apply vecMap_keeps)

theorem doFadd_keeps {s t : State} (a1) (a2) (h : Keeps s t) : Keeps s (doFadd a1 a2 t) := by
  unfold doFadd
  repeat' (with_reducible first | exact h | apply vecF_keeps)

theorem execFadd_keeps {s t : State} (a1) (a2) (h : Keeps s t) : KeepsO s (execFadd a1 a2 t) := by
  unfold execFadd
  repeat' (with_reducible first | exact h | exact Keeps.rfl | apply runWord_keeps | apply doFadd_keeps | intro _)

theorem doFsub_keeps {s t : State} (a1) (a2) (h : Keeps s t) : Keeps s (doFsub a1 a2 t) := by
  unfold doFsub
  repeat' (with_reducible first | exact h | apply vecF_keeps)

theorem execFsub_keeps {s t : State} (a1) (a2) (h : Keeps s t) : KeepsO s (execFsub a1 a2 t) := by
  unfold execFsub
  repeat' (with_reducible first | exact h | exact Keeps.rfl | apply runWord_keeps | apply doFsub_keeps | intro _)

theorem doFmul_keeps {s t : State} (a1) (a2) (h : Keeps s t) : Keeps s (doFmul a1 a2 t) := by
  unfold doFmul
  repeat' (with_reducible first | exact h | apply vecF_keeps)

theorem execFmul_keeps {s t : State} (a1) (a2) (h : Keeps s t) : KeepsO s (execFmul a1 a2 t) := by
  unfold execFmul
  repeat' (with_reducible first | exact h | exact Keeps.rfl | apply runWord_keeps | apply doFmul_keeps | intro _)

theorem doFfma_keeps {s t : State} (a1) (a2) (h : Keeps s t) : Keeps s (doFfma a1 a2 t) := by
  unfold doFfma
  repeat' (with_reducible first | exact h | apply vecF_keeps)

theorem execFfma_keeps {s t : State} (a1) (a2) (h : Keeps s t) : KeepsO s (execFfma a1 a2 t) := by
  unfold execFfma
  repeat' (with_reducible first | exact h | exact Keeps.rfl | apply runWord_keeps | apply doFfma_keeps | intro _)

theorem doFmin_keeps {s t : State} (a1) (a2) (h : Keeps s t) : Keeps s (doFmin a1 a2 t) := by
  unfold doFmin
  repeat' (with_reducible first | exact h | apply vecF_keeps)

theorem execFmin_keeps {s t : State} (a1) (a2) (h : Keeps s t) : KeepsO s (execFmin a1 a2 t) := by
  unfold execFmin
  repeat' (with_reducible first | exact h | exact Keeps.rfl | apply runWord_keeps | apply doFmin_keeps | intro _)

theorem doFmax_keeps {s t : State} (a1) (a2) (h : Keeps s t) : Keeps s (doFmax a1 a2 t) := by
  unfold doFmax
  repeat' (with_reducible first | exact h | apply vecF_keeps)

theorem execFmax_keeps {s t : State} (a1) (a2) (h : Keeps s t) : KeepsO s (execFmax a1 a2 t) := by
  unfold execFmax
  repeat' (with_reducible first | exact h | exact Keeps.rfl | apply runWord_keeps | apply doFmax_keeps | intro _)

theorem doFdiv_keeps {s t : State} (a1) (a2) (h : Keeps s t) : Keeps s (doFdiv a1 a2 t) := by
  unfold doFdiv
  repeat' (with_reducible first | exact h | apply vecF_keeps)

theorem execFdiv_keeps {s t : State} (a1) (a2) (h : Keeps s t) : KeepsO s (execFdiv a1 a2 t) := by
  unfold execFdiv
  repeat' (with_reducible first | exact h | exact Keeps.rfl | apply runWord_keeps | apply doFdiv_keeps | intro _)

theorem doFsqrt_keeps {s t : State} (a1) (a2) (h : Keeps s t) : Keeps s (doFsqrt a1 a2 t) := by
  unfold doFsqrt
  repeat' (with_reducible first | exact h | apply vecF_keeps)

theorem execFsqrt_keeps {s t : State} (a1) (a2) (h : Keeps s t) : KeepsO s (execFsqrt a1 a2 t) := by
  unfold execFsqrt
  repeat' (with_reducible first | exact h | exact Keeps.rfl | apply runWord_keeps | apply doFsqrt_keeps | intro _)

theorem doFcmp_keeps {s t : State} (a1) (a2) (h : Keeps s t) : Keeps s (doFcmp a1 a2 t) := by
  unfold doFcmp
  dsimp only
  repeat' (with_reducible first | exact h | apply vecMap_keeps)

theorem execFcmp_keeps {s t : State} (a1) (a2) (h : Keeps s t) : KeepsO s (execFcmp a1 a2 t) := by
  unfold execFcmp
  repeat' (with_reducible first | exact h | exact Keeps.rfl | apply runWord_keeps | apply doFcmp_keeps | intro _)

theorem doSel_keeps {s t : State} (a1) (a2) (h : Keeps s t) : Keeps s (doSel a1 a2 t) := by
  unfold doSel
  dsimp only
  repeat' (with_reducible first | exact h | apply vecMap_keeps)

theorem execSel_keeps {s t : State} (a1) (a2) (h : Keeps s t) : KeepsO s (execSel a1 a2 t) := by
  unfold execSel
  repeat' (with_reducible first | exact h | exact Keeps.rfl | apply runWord_keeps | apply doSel_keeps | intro _)

theorem vecG_keeps {s t : State} (a1) (a2) (a3) (h : Keeps s t) : Keeps s (vecG a1 a2 t a3) := by
  unfold vecG
  dsimp only
  repeat' (with_reducible first | exact h | apply vecMap_keeps)

theorem doGmul_keeps {s t : State} (a1) (a2) (h : Keeps s t) : Keeps s (doGmul a1 a2 t) := by
  unfold doGmul
  repeat' (with_reducible first | exact h | apply vecG_keeps)

theorem execGmul_keeps {s t : State} (a1) (a2) (h : Keeps s t) : KeepsO s (execGmul a1 a2 t) := by
  unfold execGmul
  repeat' (with_reducible first | exact h | exact Keeps.rfl | apply runWord_keeps | apply doGmul_keeps | intro _)

theorem doGadd_keeps {s t : State} (a1) (a2) (h : Keeps s t) : Keeps s (doGadd a1 a2 t) := by
  unfold doGadd
  repeat' (with_reducible first | exact h | apply vecG_keeps)

theorem execGadd_keeps {s t : State} (a1) (a2) (h : Keeps s t) : KeepsO s (execGadd a1 a2 t) := by
  unfold execGadd
  repeat' (with_reducible first | exact h | exact Keeps.rfl | apply runWord_keeps | apply doGadd_keeps | intro _)

theorem doGsub_keeps {s t : State} (a1) (a2) (h : Keeps s t) : Keeps s (doGsub a1 a2 t) := by
  unfold doGsub
  repeat' (with_reducible first | exact h | apply vecG_keeps)

theorem execGsub_keeps {s t : State} (a1) (a2) (h : Keeps s t) : KeepsO s (execGsub a1 a2 t) := by
  unfold execGsub
  repeat' (with_reducible first | exact h | exact Keeps.rfl | apply runWord_keeps | apply doGsub_keeps | intro _)

theorem vecI_keeps {s t : State} (a1) (a2) (a3) (h : Keeps s t) : Keeps s (vecI a1 a2 t a3) := by
  unfold vecI
  repeat' (with_reducible first | exact h | apply vecMap_keeps)

theorem doIadd_keeps {s t : State} (a1) (a2) (h : Keeps s t) : Keeps s (doIadd a1 a2 t) := by
  unfold doIadd
  repeat' (with_reducible first | exact h | apply vecI_keeps)

theorem execIadd_keeps {s t : State} (a1) (a2) (h : Keeps s t) : KeepsO s (execIadd a1 a2 t) := by
  unfold execIadd
  repeat' (with_reducible first | exact h | exact Keeps.rfl | apply runWord_keeps | apply doIadd_keeps | intro _)

theorem doIsub_keeps {s t : State} (a1) (a2) (h : Keeps s t) : Keeps s (doIsub a1 a2 t) := by
  unfold doIsub
  repeat' (with_reducible first | exact h | apply vecI_keeps)

theorem execIsub_keeps {s t : State} (a1) (a2) (h : Keeps s t) : KeepsO s (execIsub a1 a2 t) := by
  unfold execIsub
  repeat' (with_reducible first | exact h | exact Keeps.rfl | apply runWord_keeps | apply doIsub_keeps | intro _)

theorem doImul_keeps {s t : State} (a1) (a2) (h : Keeps s t) : Keeps s (doImul a1 a2 t) := by
  unfold doImul
  repeat' (with_reducible first | exact h | apply vecI_keeps)

theorem execImul_keeps {s t : State} (a1) (a2) (h : Keeps s t) : KeepsO s (execImul a1 a2 t) := by
  unfold execImul
  repeat' (with_reducible first | exact h | exact Keeps.rfl | apply runWord_keeps | apply doImul_keeps | intro _)

theorem doIlog_keeps {s t : State} (a1) (a2) (h : Keeps s t) : Keeps s (doIlog a1 a2 t) := by
  unfold doIlog
  dsimp only
  repeat' (with_reducible first | exact h | apply vecMap_keeps)

theorem execIlog_keeps {s t : State} (a1) (a2) (h : Keeps s t) : KeepsO s (execIlog a1 a2 t) := by
  unfold execIlog
  repeat' (with_reducible first | exact h | exact Keeps.rfl | apply runWord_keeps | apply doIlog_keeps | intro _)

theorem doIshf_keeps {s t : State} (a1) (a2) (h : Keeps s t) : Keeps s (doIshf a1 a2 t) := by
  unfold doIshf
  dsimp only
  repeat' (with_reducible first | exact h | apply vecMap_keeps)

theorem execIshf_keeps {s t : State} (a1) (a2) (h : Keeps s t) : KeepsO s (execIshf a1 a2 t) := by
  unfold execIshf
  repeat' (with_reducible first | exact h | exact Keeps.rfl | apply runWord_keeps | apply doIshf_keeps | intro _)

theorem doCvt_keeps {s t : State} (a1) (a2) (h : Keeps s t) : Keeps s (doCvt a1 a2 t) := by
  unfold doCvt
  dsimp only
  repeat' (with_reducible first | exact h | apply vecMap_keeps)

theorem execCvt_keeps {s t : State} (a1) (a2) (h : Keeps s t) : KeepsO s (execCvt a1 a2 t) := by
  unfold execCvt
  repeat' (with_reducible first
      | exact h | exact Keeps.rfl | apply runWord_keeps | apply doCvt_keeps | apply Keeps.next | split | intro _)

theorem doDraw_keeps {s t : State} (a1) (a2) (h : Keeps s t) : Keeps s (doDraw a1 a2 t) := by
  unfold doDraw
  repeat' (with_reducible first | exact h | apply vecMap_keeps)

theorem execDraw_keeps {s t : State} (a1) (a2) (h : Keeps s t) : KeepsO s (execDraw a1 a2 t) := by
  unfold execDraw
  repeat' (with_reducible first
      | exact h | exact Keeps.rfl | apply runWord_keeps | apply doDraw_keeps | apply Keeps.next | split | intro _)

theorem doRand_keeps {s t : State} (a1) (a2) (h : Keeps s t) : Keeps s (doRand a1 a2 t) := by
  unfold doRand
  repeat' (with_reducible first | exact h | apply vecMap_keeps)

theorem execRand_keeps {s t : State} (a1) (a2) (h : Keeps s t) : KeepsO s (execRand a1 a2 t) := by
  unfold execRand
  repeat' (with_reducible first
      | exact h | exact Keeps.rfl | apply runWord_keeps | apply doRand_keeps | apply Keeps.next | split | intro _)

/-! ### VecFns -/

theorem doFn_keeps {s t : State} (a1) (a2) (h : Keeps s t) : Keeps s (doFn a1 a2 t) := by
  unfold doFn
  dsimp only
  repeat' (with_reducible first | exact h | apply vecMap_keeps)

theorem execFn_keeps {s t : State} (a1) (a2) (h : Keeps s t) : KeepsO s (execFn a1 a2 t) := by
  unfold execFn
  repeat' (with_reducible first | exact h | exact Keeps.rfl | apply runWord_keeps | apply doFn_keeps | intro _)

theorem doFnm_keeps {s t : State} (a1) (a2) (h : Keeps s t) : Keeps s (doFnm a1 a2 t) := by
  unfold doFnm
  dsimp only
  repeat' (with_reducible first
      | exact h | apply State.issue_keeps | apply State.vecError_keeps | apply State.bump_keeps
      | apply State.vecDone_keeps | split)

theorem execFnm_keeps {s t : State} (a1) (a2) (h : Keeps s t) : KeepsO s (execFnm a1 a2 t) := by
  unfold execFnm
  repeat' (with_reducible first | exact h | exact Keeps.rfl | apply runWord_keeps | apply doFnm_keeps | intro _)

theorem State.readStat_keeps {s t : State} (a1 a2 a3) (h : Keeps s t) : Keeps s (t.readStat a1 a2 a3).1 :=
  andRead_keeps (State.hRead_keeps _ _ _ _ h) fun _ _ g => g

theorem doNorm_keeps {s t : State} (a1) (a2) (h : Keeps s t) : Keeps s (doNorm a1 a2 t) := by
  unfold doNorm
  dsimp only
  repeat' (with_reducible first
      | exact h | apply State.issue_keeps | apply State.vecError_keeps | apply orElse_keeps | apply State.readStat_keeps
      | apply State.vecDone_keeps | split | intro _ _)

theorem execNorm_keeps {s t : State} (a1) (a2) (h : Keeps s t) : KeepsO s (execNorm a1 a2 t) := by
  unfold execNorm
  repeat' (with_reducible first | exact h | exact Keeps.rfl | apply runWord_keeps | apply doNorm_keeps | intro _)

theorem State.readStats_keeps {s t : State} (a1 a2 a3 a4) (h : Keeps s t) : Keeps s (t.readStats a1 a2 a3 a4).1 := by
  induction a4 generalizing t a3 with
  | zero => exact h
  | succ n ih =>
    refine andChecked_keeps (State.readStat_keeps _ _ _ h) fun _ _ g => ?_
    exact andChecked_keeps (ih _ g) fun _ _ g => g

theorem doStcomb_keeps {s t : State} (a1) (a2) (h : Keeps s t) : Keeps s (doStcomb a1 a2 t) := by
  unfold doStcomb
  dsimp only
  repeat' (with_reducible first
      | exact h | apply State.issue_keeps | apply State.vecError_keeps | apply State.readStats_keeps
      | apply State.hWrite_keeps | apply State.vecEnd_keeps | refine Keeps.of_eq ‹_› ?_ | apply Keeps.ite | split)

theorem execStcomb_keeps {s t : State} (a1) (a2) (h : Keeps s t) : KeepsO s (execStcomb a1 a2 t) := by
  unfold execStcomb
  repeat' (with_reducible first | exact h | exact Keeps.rfl | apply runWord_keeps | apply doStcomb_keeps | intro _)

theorem doSmax_keeps {s t : State} (a1) (a2) (h : Keeps s t) : Keeps s (doSmax a1 a2 t) := by
  unfold doSmax
  dsimp only
  repeat' (with_reducible first
      | exact h | assumption | apply State.issue_keeps | apply State.vecError_keeps | apply checkRead_keeps
      | apply State.hRead_keeps | apply orElse_keeps | apply State.vecDone_keeps | apply orWrite_keeps
      | apply State.hWrite_keeps | split | intro _ _ | intro _)

theorem execSmax_keeps {s t : State} (a1) (a2) (h : Keeps s t) : KeepsO s (execSmax a1 a2 t) := by
  unfold execSmax
  repeat' (with_reducible first | exact h | exact Keeps.rfl | apply runWord_keeps | apply doSmax_keeps | intro _)

end Sys2Proof.Machine
end

