-- ==== Sys2Proof/Laws/KeepsConfig.lean ====
section
/-! SUPPORT. What the queues, the data commands, table loads and the loading of a configuration keep. One lemma for each operation, in the order of the definitions. -/

namespace Sys2Proof.Machine

/-! ### Queue -/

theorem State.hostCommand_keeps {s t : State} {f} (a1 a2 a3 a4) (hf : ∀ u c, Keeps u (f u c)) (h : Keeps s t) :
    Keeps s (t.hostCommand a1 a2 a3 a4 f) := by
  unfold State.hostCommand
  repeat' (with_reducible first
      | exact h | apply State.settle_keeps | apply State.takeHead_keeps | apply State.complete_keeps | split)
  exact (State.takeHead_keeps _ _ h).trans (hf _ _)

theorem State.askHost_keeps {s t : State} (a1) (h : Keeps s t) : Keeps s (State.askHost t a1) := by
  unfold State.askHost
  dsimp only
  repeat' (with_reducible first | exact h | fail_if_no_progress apply Keeps.fields)

theorem State.afterRead_keeps {s t : State} {f} (a1 a2 a3) (hf : ∀ u c, Keeps u (f u c)) (h : Keeps s t) :
    Keeps s (t.afterRead a1 a2 a3 f) := by
  unfold State.afterRead
  split
  · exact State.askHost_keeps _ h
  · exact h.trans (hf _ _)

theorem execFence_keeps {s t : State} (a1) (a2) (h : Keeps s t) : KeepsO s (execFence a1 a2 t) := by
  unfold execFence
  repeat' (with_reducible first | exact h | exact Keeps.rfl | apply State.hostCommand_keeps | apply Keeps.next | intro _ _)

theorem execEventWait_keeps {s t : State} (a1) (a2) (h : Keeps s t) : KeepsO s (execEventWait a1 a2 t) := by
  unfold execEventWait
  repeat' (with_reducible first | exact h | exact Keeps.rfl | apply State.hostCommand_keeps | apply Keeps.next | intro _ _)

theorem State.badAccess_keeps {s t : State} (a1) (a2) (a3) (a4)
    (h : Keeps s t) : Keeps s (State.badAccess t a1 a2 a3 a4) := by
  unfold State.badAccess
  dsimp only
  repeat' (with_reducible first | exact h | apply State.bump_keeps | apply State.put_keeps | apply Keeps.ite)

theorem State.doorbell_keeps {s t : State} {f} (a1 a2 a3) (hf : ∀ u, Keeps u (f u)) (h : Keeps s t) :
    Keeps s (t.doorbell a1 a2 a3 f) := by
  unfold State.doorbell
  split
  · exact h
  · have h1 := State.linkRx_keeps a3.size.toNat h
    split
    · exact h1.trans (hf _)
    · exact State.badAccess_keeps _ _ _ _ h1

theorem State.sqTail_keeps {s t : State} (a1) (a2) (h : Keeps s t) : Keeps s (State.sqTail t a1 a2) := by
  unfold State.sqTail
  dsimp only
  repeat' (with_reducible first
      | exact h | apply State.settle_keeps | apply State.faultQueue_keeps | apply State.fetchHead_keeps
      | apply State.put_keeps | apply Keeps.ite)

theorem execSqTailDoorbell_keeps {s t : State} (a1) (a2) (h : Keeps s t) : KeepsO s (execSqTailDoorbell a1 a2 t) := by
  unfold execSqTailDoorbell
  repeat' (with_reducible first
      | exact h | exact Keeps.rfl | apply State.doorbell_keeps | apply State.sqTail_keeps | apply Keeps.next | intro _)

theorem execCqHeadDoorbell_keeps {s t : State} (a1) (a2) (h : Keeps s t) : KeepsO s (execCqHeadDoorbell a1 a2 t) := by
  unfold execCqHeadDoorbell
  repeat' (with_reducible first
      | exact h | exact Keeps.rfl | apply State.doorbell_keeps | apply State.cqFlush_keeps | apply State.put_keeps
      | apply Keeps.next | intro _)

theorem State.sqReset_keeps {s t : State} (a1) (h : Keeps s t) : Keeps s (State.sqReset t a1) := by
  unfold State.sqReset
  repeat' (with_reducible first | exact h | apply State.put_keeps | apply State.dropFetch_keeps)

theorem execSqEnableWrite_keeps {s t : State} (a1) (a2) (h : Keeps s t) : KeepsO s (execSqEnableWrite a1 a2 t) := by
  unfold execSqEnableWrite
  dsimp only
  repeat' (with_reducible first
      | exact h | apply State.put_keeps | apply State.sqReset_keeps | apply State.dropFetch_keeps | apply Keeps.ite
      | apply Keeps.next | split)

theorem execSqDrainEnd_keeps {s t : State} (a1) (h : Keeps s t) : KeepsO s (execSqDrainEnd a1 t) := by
  unfold execSqDrainEnd
  repeat' (with_reducible first | exact h | apply State.sqReset_keeps | apply Keeps.next | split)

theorem execCqEnableWrite_keeps {s t : State} (a1) (a2) (h : Keeps s t) : KeepsO s (execCqEnableWrite a1 a2 t) := by
  unfold execCqEnableWrite
  dsimp only
  repeat' (with_reducible first
      | exact h | apply State.put_keeps | apply State.cqFlush_keeps | fail_if_no_progress apply Keeps.fields
      | apply Keeps.next | split)

theorem execWaitExpired_keeps {s t : State} (a1) (a2) (h : Keeps s t) : KeepsO s (execWaitExpired a1 a2 t) := by
  unfold execWaitExpired
  repeat' (with_reducible first | exact h | apply State.complete_keeps | apply Keeps.next | split)

/-! ### DataCmds -/

theorem copyWork_keeps {s t : State} (a1) (h : Keeps s t) : Keeps s (copyWork t a1) := by
  unfold copyWork
  dsimp only
  repeat' (with_reducible first
      | exact h | apply State.readMem_keeps | apply State.complete_keeps | apply State.writeMem_keeps | apply Keeps.ite)

theorem execCopy_keeps {s t : State} (a1) (a2) (h : Keeps s t) : KeepsO s (execCopy a1 a2 t) := by
  unfold execCopy
  repeat' (with_reducible first
      | exact h | exact Keeps.rfl | apply State.hostCommand_keeps | apply State.afterRead_keeps | apply copyWork_keeps
      | apply Keeps.next | intro _ _)

theorem execFill_keeps {s t : State} (a1) (a2) (h : Keeps s t) : KeepsO s (execFill a1 a2 t) := by
  unfold execFill
  dsimp only
  repeat' (with_reducible first
      | exact h | exact Keeps.rfl | apply State.hostCommand_keeps | apply State.writeMem_keeps
      | apply State.complete_keeps | apply Keeps.next | intro _ _)

theorem State.scanRead_keeps {s t : State} (a1) (a2) (h : Keeps s t) : Keeps s (State.scanRead a1 a2 t).1 := by
  fun_induction State.scanRead a1 a2 t <;> (try dsimp only) <;> repeat' (with_reducible first
      | exact h | refine ‹_ → _› ?_ | apply State.readPiece_keeps | refine Keeps.of_eq ‹_› ?_)

theorem scanWork_keeps {s t : State} (a1) (h : Keeps s t) : Keeps s (scanWork t a1) := by
  unfold scanWork
  dsimp only
  repeat' (with_reducible first
      | exact h | apply State.complete_keeps | apply State.memErr_keeps | apply State.scanRead_keeps
      | apply State.bump_keeps | apply Keeps.ite)

theorem execScanCrc_keeps {s t : State} (a1) (a2) (h : Keeps s t) : KeepsO s (execScanCrc a1 a2 t) := by
  unfold execScanCrc
  repeat' (with_reducible first
      | exact h | exact Keeps.rfl | apply State.hostCommand_keeps | apply State.afterRead_keeps | apply scanWork_keeps
      | apply Keeps.next | intro _ _)

/-! ### Tables -/

theorem State.dropPrepared_keeps {s t : State} (a1) (h : Keeps s t) : Keeps s (State.dropPrepared t a1) := by
  unfold State.dropPrepared
  dsimp only
  repeat' (with_reducible first | exact h | fail_if_no_progress apply Keeps.fields)

theorem State.swapTable_keeps {s t : State} (a1) (a2) (a3) (a4)
    (h : Keeps s t) : Keeps s (State.swapTable t a1 a2 a3 a4) := by
  unfold State.swapTable
  dsimp only
  repeat' (with_reducible first
      | exact h | exact Keeps.rfl | apply State.setKiln_keeps | apply State.dropPrepared_keeps | apply State.put_keeps
      | apply State.setTable_keeps | apply State.setHearth_keeps | apply Keeps.foldl | split | intro _ _)

theorem State.loadShuffle_keeps {s t : State} (a1) (a2) (h : Keeps s t) : Keeps s (State.loadShuffle t a1 a2).1 := by
  unfold State.loadShuffle
  dsimp only
  repeat' (with_reducible first
      | exact h | apply State.writeMem_keeps | apply State.put_keeps | fail_if_no_progress apply Keeps.fields | split)

theorem State.loadTable_keeps {s t : State} (a1) (a2) (a3) (a4) (a5)
    (h : Keeps s t) : Keeps s (State.loadTable t a1 a2 a3 a4 a5).1 := by
  unfold State.loadTable
  repeat' (with_reducible first
      | exact h | exact Keeps.rfl | apply State.setKiln_keeps | apply State.loadShuffle_keeps
      | apply State.setTable_keeps | apply Keeps.foldl | split | intro _ _)

theorem tableLoadWork_keeps {s t : State} (a1) (h : Keeps s t) : Keeps s (tableLoadWork t a1) := by
  unfold tableLoadWork
  dsimp only
  repeat' (with_reducible first
      | exact h | apply State.readMem_keeps | apply State.complete_keeps | apply State.loadTable_keeps
      | apply Keeps.ite)

theorem execTableLoad_keeps {s t : State} (a1) (a2) (h : Keeps s t) : KeepsO s (execTableLoad a1 a2 t) := by
  unfold execTableLoad
  repeat' (with_reducible first
      | exact h | exact Keeps.rfl | apply State.hostCommand_keeps | apply State.afterRead_keeps
      | apply tableLoadWork_keeps | apply Keeps.next | intro _ _)

theorem execTableSwap_keeps {s t : State} (a1) (a2) (h : Keeps s t) : KeepsO s (execTableSwap a1 a2 t) := by
  unfold execTableSwap
  repeat' (with_reducible first
      | exact h | exact Keeps.rfl | apply State.hostCommand_keeps | apply State.complete_keeps
      | apply State.swapTable_keeps | apply Keeps.next | intro _ _)

/-! ### Audit -/

theorem State.audit_keeps {s t : State} (a1) (a2) (a3) (a4) (a5)
    (h : Keeps s t) : Keeps s (State.audit t a1 a2 a3 a4 a5).1 := by
  unfold State.audit
  dsimp only
  repeat' (with_reducible first
      | exact h | exact Keeps.rfl | apply State.put_keeps | fail_if_no_progress apply Keeps.fields | apply Keeps.foldl
      | split | intro _ _)

theorem State.auditAfter_keeps {s t : State} (a1) (a2) (a3) (a4) (a5)
    (h : Keeps s t) : Keeps s (State.auditAfter t a1 a2 a3 a4 a5) := by
  unfold State.auditAfter
  repeat' (with_reducible first
      | exact h | apply State.audit_keeps | apply State.raise_keeps | apply State.put_keeps | refine Keeps.of_eq ‹_› ?_
      | split)

theorem State.violation_keeps {s t : State} (a1) (h : Keeps s t) : Keeps s (State.violation t a1) := by
  unfold State.violation
  dsimp only
  repeat' (with_reducible first
      | exact h | apply State.raise_keeps | apply State.bump_keeps | apply State.auditAfter_keeps
      | fail_if_no_progress apply Keeps.fields | apply Keeps.ite)

theorem State.sessionBits_keeps {s t : State} (h : Keeps s t) : Keeps s (State.sessionBits t) := by
  unfold State.sessionBits
  dsimp only
  repeat' (with_reducible first | exact h | apply State.put_keeps)

theorem State.disarm_keeps {s t : State} (a1) (h : Keeps s t) : Keeps s (State.disarm t a1) := by
  unfold State.disarm
  repeat' (with_reducible first | exact h | exact Keeps.rfl | apply State.put_keeps | apply Keeps.foldl | intro _ _)

theorem State.levelIs_keeps {s t : State} (a1) (h : Keeps s t) : Keeps s (State.levelIs t a1) := by
  unfold State.levelIs
  dsimp only
  repeat' (with_reducible first | exact h | apply State.put_keeps | apply State.disarm_keeps | apply Keeps.ite)

theorem State.setLevel_keeps {s t : State} (a1) (a2) (a3) (h : Keeps s t) : Keeps s (State.setLevel t a1 a2 a3) := by
  unfold State.setLevel
  dsimp only
  repeat' (with_reducible first | exact h | apply State.auditAfter_keeps | apply State.levelIs_keeps | apply Keeps.ite)

theorem State.dropSession_keeps {s t : State} (a1) (h : Keeps s t) : Keeps s (State.dropSession t a1) := by
  unfold State.dropSession
  dsimp only
  repeat' (with_reducible first
      | exact h | apply State.sessionBits_keeps | apply State.setLevel_keeps | fail_if_no_progress apply Keeps.fields
      | apply Keeps.ite)

theorem State.endSessions_keeps {s t : State} (a1) (a2) (h : Keeps s t) : Keeps s (State.endSessions t a1 a2) := by
  unfold State.endSessions
  repeat' (with_reducible first
      | exact h | exact Keeps.rfl | apply State.auditAfter_keeps | apply State.dropSession_keeps | apply Keeps.foldl
      | split | intro _ _)

/-! ### Load -/

theorem State.beginLoad_keeps {s t : State} (a1) (h : Keeps s t) : Keeps s (State.beginLoad t a1) := by
  unfold State.beginLoad
  dsimp only
  repeat' (with_reducible first | exact h | apply State.put_keeps | fail_if_no_progress apply Keeps.fields)

theorem State.loadFailed_keeps {s t : State} (a1) (a2) (h : Keeps s t) : Keeps s (State.loadFailed t a1 a2) := by
  unfold State.loadFailed
  dsimp only
  repeat' (with_reducible first
      | exact h | apply State.put_keeps | apply State.setWord_keeps | apply State.complete_keeps | apply Keeps.ite)

theorem loadWork_keeps {s t : State} (a1) (h : Keeps s t) : Keeps s (loadWork t a1) := by
  unfold loadWork
  dsimp only
  repeat' (with_reducible first
      | exact h | apply State.complete_keeps | apply State.beginLoad_keeps | apply State.readMem_keeps
      | apply State.loadFailed_keeps | apply Keeps.ite | split)

theorem execLoadConfig_keeps {s t : State} (a1) (a2) (h : Keeps s t) : KeepsO s (execLoadConfig a1 a2 t) := by
  unfold execLoadConfig
  repeat' (with_reducible first
      | exact h | exact Keeps.rfl | apply State.hostCommand_keeps | apply State.afterRead_keeps | apply loadWork_keeps
      | apply Keeps.next | intro _ _)

theorem State.auditLoad_keeps {s t : State} (a1) (h : Keeps s t) : Keeps s (State.auditLoad t a1) := by
  unfold State.auditLoad
  dsimp only
  repeat' (with_reducible first | exact h | apply State.auditAfter_keeps)

theorem State.clearKiln_keeps {s t : State} (a1) (h : Keeps s t) : Keeps s (State.clearKiln t a1) := by
  unfold State.clearKiln
  dsimp only
  repeat' (with_reducible first | exact h | fail_if_no_progress apply Keeps.fields)

theorem State.emptyGiven_keeps {s t : State} (a1) (a2) (h : Keeps s t) : Keeps s (State.emptyGiven t a1 a2) := by
  unfold State.emptyGiven
  dsimp only
  repeat' (with_reducible first
      | exact h | exact Keeps.rfl | apply State.setKiln_keeps | apply State.setTable_keeps | apply Keeps.foldl | split
      | intro _ _)

theorem State.emptyStores_keeps {s t : State} (h : Keeps s t) : Keeps s (State.emptyStores t) := by
  unfold State.emptyStores
  dsimp only
  repeat' (with_reducible first | exact h | fail_if_no_progress apply Keeps.fields)

theorem State.installTable_keeps {s t : State} (a1) (h : Keeps s t) : Keeps s (State.installTable t a1) := by
  unfold State.installTable
  dsimp only
  repeat' (with_reducible first
      | exact h | exact Keeps.rfl | apply State.setKiln_keeps | apply State.swapTable_keeps
      | apply State.loadTable_keeps | apply Keeps.foldl | split | intro _ _)

theorem State.releasePinsIf_keeps {s t : State} (a1) (h : Keeps s t) : Keeps s (State.releasePinsIf t a1) := by
  unfold State.releasePinsIf
  dsimp only
  repeat' (with_reducible first
      | exact h | exact Keeps.rfl | apply State.emit_keeps | fail_if_no_progress apply Keeps.fields | apply Keeps.foldl
      | intro _ _)

theorem State.releasePins_keeps {s t : State} (a1) (a2) (h : Keeps s t) : Keeps s (State.releasePins t a1 a2) := by
  unfold State.releasePins
  repeat' (with_reducible first | exact h | apply State.releasePinsIf_keeps)

theorem State.loadBases_keeps {s t : State} (a1) (h : Keeps s t) : Keeps s (State.loadBases t a1) := by
  unfold State.loadBases
  dsimp only
  repeat' (with_reducible first | exact h | exact Keeps.rfl | apply State.put_keeps | apply Keeps.foldl | intro _ _)

theorem State.forgetBanking_keeps {s t : State} (h : Keeps s t) : Keeps s (State.forgetBanking t) := by
  unfold State.forgetBanking
  dsimp only
  repeat' (with_reducible first | exact h | apply State.put_keeps | fail_if_no_progress apply Keeps.fields)

theorem State.recheckWindows_keeps {s t : State} (h : Keeps s t) : Keeps s (State.recheckWindows t) := by
  unfold State.recheckWindows
  repeat' (with_reducible first
      | exact h | exact Keeps.rfl | apply State.firstErr_keeps | apply State.put_keeps | apply Keeps.foldl
      | apply Keeps.ite | intro _ _)

theorem State.recordLoad_keeps {s t : State} (a1) (h : Keeps s t) : Keeps s (State.recordLoad t a1) := by
  unfold State.recordLoad
  dsimp only
  repeat' (with_reducible first
      | exact h | exact Keeps.rfl | apply State.put_keeps | apply Keeps.foldl | apply Keeps.ite | intro _ _)

theorem State.switchTo_keeps {s t : State} (a1) (h : Keeps s t) : Keeps s (State.switchTo t a1) := by
  unfold State.switchTo
  dsimp only
  repeat' (with_reducible first
      | exact h | exact Keeps.rfl | apply State.clearKiln_keeps | apply State.emptyGiven_keeps
      | apply State.emptyStores_keeps | apply State.installTable_keeps | apply State.releasePins_keeps
      | apply State.loadBases_keeps | apply State.forgetBanking_keeps | apply State.recheckWindows_keeps
      | apply State.recordLoad_keeps | fail_if_no_progress apply Keeps.fields | apply Keeps.foldl | apply Keeps.ite
      | intro _ _)

theorem execConfigSwitch_keeps {s t : State} (h : Keeps s t) : KeepsO s (execConfigSwitch t) := by
  unfold execConfigSwitch
  dsimp only
  repeat' (with_reducible first
      | exact h | apply State.put_keeps | apply State.loadFailed_keeps | apply State.auditLoad_keeps
      | apply State.complete_keeps | apply State.switchTo_keeps | fail_if_no_progress apply Keeps.fields
      | apply Keeps.next | split)

/-! ### Promo -/

theorem State.setPromo_keeps {s t : State} (a1) (a2) (h : Keeps s t) : Keeps s (State.setPromo t a1 a2) := by
  unfold State.setPromo
  dsimp only
  repeat' (with_reducible first | exact h | fail_if_no_progress apply Keeps.fields)

theorem State.promote_keeps {s t : State} (h : Keeps s t) : Keeps s (State.promote t) := by
  unfold State.promote
  dsimp only
  repeat' (with_reducible first
      | exact h | exact Keeps.rfl | apply State.setPromo_keeps | apply State.post_keeps | apply State.raise_keeps
      | apply State.noteFlags_keeps | apply Keeps.foldl | apply Keeps.ite | split | intro _ _)

theorem State.openStats_keeps {s t : State} (h : Keeps s t) : Keeps s (State.openStats t) := by
  unfold State.openStats
  dsimp only
  repeat' (with_reducible first
      | exact h | exact Keeps.rfl | apply State.post_keeps | fail_if_no_progress apply Keeps.fields | apply Keeps.foldl
      | intro _ _)

theorem State.combineStats_keeps {s t : State} (h : Keeps s t) : Keeps s (State.combineStats t) := by
  unfold State.combineStats
  repeat' (with_reducible first
      | exact h | exact Keeps.rfl | apply State.post_keeps | apply Keeps.foldl | apply Keeps.ite | intro _ _)

theorem State.takeStats_keeps {s t : State} (a1) (h : Keeps s t) : Keeps s (State.takeStats t a1) := by
  unfold State.takeStats
  repeat' (with_reducible first
      | exact h | exact Keeps.rfl | apply State.post_keeps | apply Keeps.foldl | apply Keeps.ite | intro _ _)

end Sys2Proof.Machine
end

