-- ==== Sys2Proof/Laws/KeepsStep.lean ====
section
/-! SUPPORT. What the ingest, the collectives, the routing and a training step keep. One lemma for each operation, in the order of the definitions. -/

namespace Sys2Proof.Machine

/-! ### Norms -/

theorem State.readUpdate_keeps {s t : State} (a1) (a2) (h : Keeps s t) : Keeps s (State.readUpdate t a1 a2).1 := by
  unfold State.readUpdate
  dsimp only
  repeat' (with_reducible first | exact h | apply State.readMem_keeps | split)

theorem State.readBlock_keeps {s t : State} (a1) (a2) (a3) (a4) (a5) (a6)
    (h : Keeps s t) : Keeps s (State.readBlock t a1 a2 a3 a4 a5 a6).1 := by
  unfold State.readBlock
  dsimp only
  repeat' (with_reducible first | exact h | apply State.readMem_keeps | split)

theorem State.readGnorm_keeps {s t : State} (a1) (a2) (h : Keeps s t) : Keeps s (State.readGnorm t a1 a2).1 := by
  unfold State.readGnorm
  dsimp only
  repeat' (with_reducible first | exact h | apply State.readMem_keeps | split)

theorem State.streamBlocks_keeps {s t : State} (a1) (a2) (a3) (a4)
    (h : Keeps s t) : Keeps s (State.streamBlocks a1 a2 a3 t a4).1 := by
  fun_induction State.streamBlocks a1 a2 a3 t a4 <;> (try dsimp only) <;> repeat' (with_reducible first
      | exact h | refine ‹_ → _› ?_ | apply State.readBlock_keeps | refine Keeps.of_eq ‹_› ?_)

theorem State.streamRegions_keeps {s t : State} (a1) (a2) (h : Keeps s t) : Keeps s (State.streamRegions a1 t a2).1 := by
  fun_induction State.streamRegions a1 t a2 <;> (try dsimp only) <;> repeat' (with_reducible first
      | exact h | refine ‹_ → _› ?_ | apply State.streamBlocks_keeps | refine Keeps.of_eq ‹_› ?_)

theorem State.enterSquares_keeps {s t : State} (h : Keeps s t) : Keeps s (State.enterSquares t) := by
  unfold State.enterSquares
  dsimp only
  repeat' (with_reducible first
      | exact h | exact Keeps.rfl | apply State.setKiln_keeps | fail_if_no_progress apply Keeps.fields
      | apply Keeps.foldl | intro _ _)

theorem State.storeSums_keeps {s t : State} (a1) (h : Keeps s t) : Keeps s (State.storeSums t a1) := by
  unfold State.storeSums
  dsimp only
  repeat' (with_reducible first | exact h | exact Keeps.rfl | apply State.setKiln_keeps | apply Keeps.foldl | intro _ _)

theorem State.streamGnorm_keeps {s t : State} (a1) (h : Keeps s t) : Keeps s (State.streamGnorm t a1).1 := by
  unfold State.streamGnorm
  dsimp only
  repeat' (with_reducible first
      | exact h | apply State.streamRegions_keeps | apply State.enterSquares_keeps | apply State.storeSums_keeps)

/-! ### Update -/

theorem State.computeBlock_keeps {s t : State} (a1) (a2) (a3) (a4) (a5)
    (h : Keeps s t) : Keeps s (State.computeBlock t a1 a2 a3 a4 a5).1 := by
  unfold State.computeBlock
  dsimp only
  repeat' (with_reducible first | exact h | apply State.readBlock_keeps | apply State.readMem_keeps | split)

theorem State.writeBlock_keeps {s t : State} (a1) (a2) (a3) (a4) (a5) (a6) (a7)
    (h : Keeps s t) : Keeps s (State.writeBlock t a1 a2 a3 a4 a5 a6 a7).1 := by
  unfold State.writeBlock
  dsimp only
  repeat' (with_reducible first | exact h | apply State.writeMem_keeps | split)

theorem State.commitBlock_keeps {s t : State} (a1) (a2) (a3) (a4)
    (h : Keeps s t) : Keeps s (State.commitBlock t a1 a2 a3 a4).1 := by
  unfold State.commitBlock
  dsimp only
  repeat' (with_reducible first | exact h | apply State.writeMem_keeps | apply State.writeBlock_keeps | split)

theorem State.updateBlocks_keeps {s t : State} (a1) (a2) (a3) (a4) (a5) (a6) (a7)
    (h : Keeps s t) : Keeps s (State.updateBlocks a1 a2 a3 a4 a5 a6 t a7).1 := by
  fun_induction State.updateBlocks a1 a2 a3 a4 a5 a6 t a7 <;> (try dsimp only) <;> repeat' (with_reducible first
      | exact h | refine ‹_ → _› ?_ | apply State.computeBlock_keeps | apply State.commitBlock_keeps
      | refine Keeps.of_eq ‹_› ?_)

theorem State.updateShards_keeps {s t : State} (a1) (a2) (a3) (a4) (a5)
    (h : Keeps s t) : Keeps s (State.updateShards a1 a2 a3 a4 t a5).1 := by
  fun_induction State.updateShards a1 a2 a3 a4 t a5 <;> (try dsimp only) <;> repeat' (with_reducible first
      | exact h | refine ‹_ → _› ?_ | apply State.updateBlocks_keeps | refine Keeps.of_eq ‹_› ?_)

theorem State.noteUpdate_keeps {s t : State} (a1) (a2) (a3) (h : Keeps s t) : Keeps s (State.noteUpdate t a1 a2 a3) := by
  unfold State.noteUpdate
  dsimp only
  repeat' (with_reducible first | exact h | apply State.noteFlags_keeps | apply State.post_keeps | apply Keeps.ite)

theorem State.runUpdate_keeps {s t : State} (a1) (h : Keeps s t) : Keeps s (State.runUpdate t a1).1 := by
  unfold State.runUpdate
  dsimp only
  repeat' (with_reducible first
      | exact h | exact Keeps.rfl | apply State.readUpdate_keeps | apply State.updateShards_keeps
      | apply State.noteUpdate_keeps | refine Keeps.of_eq ‹_› ?_ | fail_if_no_progress apply Keeps.fields
      | apply Keeps.foldl | split | intro _ _)

/-! ### Ingest -/

theorem State.setPrepared_keeps {s t : State} (a1) (a2) (h : Keeps s t) : Keeps s (State.setPrepared t a1 a2) := by
  unfold State.setPrepared
  dsimp only
  repeat' (with_reducible first | exact h | fail_if_no_progress apply Keeps.fields | apply Keeps.ite)

theorem State.freeSteps_keeps {s t : State} (a1) (h : Keeps s t) : Keeps s (State.freeSteps t a1) := by
  unfold State.freeSteps
  repeat' (with_reducible first | exact h | apply State.setPrepared_keeps)

theorem State.loadBind_keeps {s t : State} (a1) (a2) (h : Keeps s t) : Keeps s (State.loadBind t a1 a2) := by
  unfold State.loadBind
  dsimp only
  repeat' (with_reducible first
      | exact h | exact Keeps.rfl | apply State.put_keeps | apply State.setPrepared_keeps | apply Keeps.foldl
      | apply Keeps.ite | intro _ _)

theorem State.unbind_keeps {s t : State} (a1) (h : Keeps s t) : Keeps s (State.unbind t a1) := by
  unfold State.unbind
  dsimp only
  repeat' (with_reducible first
      | exact h | exact Keeps.rfl | apply State.put_keeps | apply State.setPrepared_keeps | apply Keeps.foldl
      | intro _ _)

theorem bindWork_keeps {s t : State} (a1) (h : Keeps s t) : Keeps s (bindWork t a1) := by
  unfold bindWork
  dsimp only
  repeat' (with_reducible first
      | exact h | apply State.readMem_keeps | apply State.complete_keeps | apply State.askHost_keeps
      | apply State.loadBind_keeps | apply State.put_keeps | fail_if_no_progress apply Keeps.fields | apply Keeps.ite)

theorem State.ingErr_keeps {s t : State} (a1) (a2) (h : Keeps s t) : Keeps s (State.ingErr t a1 a2) := by
  unfold State.ingErr
  repeat' (with_reducible first | exact h | apply State.firstErr_keeps)

theorem State.stopRing_keeps {s t : State} (a1) (a2) (h : Keeps s t) : Keeps s (State.stopRing t a1 a2) := by
  unfold State.stopRing
  repeat' (with_reducible first | exact h | apply State.ingErr_keeps | apply State.put_keeps)

theorem State.ringTail_keeps {s t : State} (a1) (a2) (h : Keeps s t) : Keeps s (State.ringTail t a1 a2) := by
  unfold State.ringTail
  dsimp only
  repeat' (with_reducible first | exact h | apply State.stopRing_keeps | apply State.put_keeps | apply Keeps.ite)

theorem State.setStep_keeps {s t : State} (a1) (a2) (h : Keeps s t) : Keeps s (State.setStep t a1 a2) := by
  unfold State.setStep
  repeat' (with_reducible first | exact h | apply State.setPrepared_keeps)

theorem State.setClip_keeps {s t : State} (a1) (h : Keeps s t) : Keeps s (State.setClip t a1) := by
  unfold State.setClip
  repeat' (with_reducible first | exact h | apply State.setStep_keeps | split)

theorem State.takePayload_keeps {s t : State} (a1) (a2) (a3) (h : Keeps s t) : Keeps s (State.takePayload t a1 a2 a3) := by
  unfold State.takePayload
  dsimp only
  repeat' (with_reducible first
      | exact h | apply State.bump_keeps | apply State.ingErr_keeps | apply State.writeMem_keeps
      | apply State.setClip_keeps | apply Keeps.ite | split)

theorem State.writeAll_keeps {s t : State} (a1) (a2) (h : Keeps s t) : Keeps s (State.writeAll t a1 a2).1 := by
  fun_induction State.writeAll t a1 a2 <;> (try dsimp only) <;> repeat' (with_reducible first
      | exact h | refine ‹_ → _› ?_ | apply State.writeMem_keeps | refine Keeps.of_eq ‹_› ?_)

theorem State.closeBatch_keeps {s t : State} (a1) (a2) (a3) (h : Keeps s t) : Keeps s (State.closeBatch t a1 a2 a3) := by
  unfold State.closeBatch
  dsimp only
  repeat' (with_reducible first
      | exact h | apply State.writeAll_keeps | apply State.raise_keeps | apply State.setStep_keeps | apply Keeps.ite
      | split)

theorem State.settleClip_keeps {s t : State} (a1) (h : Keeps s t) : Keeps s (State.settleClip t a1) := by
  unfold State.settleClip
  repeat' (with_reducible first | exact h | apply State.closeBatch_keeps | apply State.setClip_keeps)

theorem State.logDrop_keeps {s t : State} (a1) (a2) (a3) (h : Keeps s t) : Keeps s (State.logDrop t a1 a2 a3) := by
  unfold State.logDrop
  dsimp only
  repeat' (with_reducible first | exact h | apply State.writeMem_keeps | apply State.put_keeps | apply Keeps.ite)

theorem State.dropClip_keeps {s t : State} (a1) (a2) (h : Keeps s t) : Keeps s (State.dropClip t a1 a2) := by
  unfold State.dropClip
  dsimp only
  repeat' (with_reducible first | exact h | apply State.settleClip_keeps | apply State.logDrop_keeps)

theorem State.takeDemand_keeps {s t : State} (a1) (h : Keeps s t) : Keeps s (State.takeDemand t a1) := by
  unfold State.takeDemand
  dsimp only
  repeat' (with_reducible first | exact h | fail_if_no_progress apply Keeps.fields | apply Keeps.ite)

theorem State.issueDemand_keeps {s t : State} (a1) (h : Keeps s t) : Keeps s (State.issueDemand t a1) := by
  unfold State.issueDemand
  dsimp only
  repeat' (with_reducible first
      | exact h | apply State.stopRing_keeps | apply State.writeMem_keeps | apply State.takeDemand_keeps
      | apply State.setClip_keeps | apply State.put_keeps | apply Keeps.ite | split)

theorem State.retryDemand_keeps {s t : State} (a1) (a2) (h : Keeps s t) : Keeps s (State.retryDemand t a1 a2) := by
  unfold State.retryDemand
  dsimp only
  repeat' (with_reducible first
      | exact h | apply State.dropClip_keeps | apply State.issueDemand_keeps | apply State.setClip_keeps
      | apply Keeps.ite)

theorem State.takeChunk_keeps {s t : State} (a1) (h : Keeps s t) : Keeps s (State.takeChunk t a1) := by
  unfold State.takeChunk
  dsimp only
  repeat' (with_reducible first
      | exact h | apply State.stopRing_keeps | apply State.readMem_keeps | apply State.put_keeps
      | apply State.takePayload_keeps | apply State.ingErr_keeps | apply State.bump_keeps
      | apply State.retryDemand_keeps | apply Keeps.ite | split)

theorem State.openPrepared_keeps {s t : State} (a1) (a2) (h : Keeps s t) : Keeps s (State.openPrepared t a1 a2) := by
  unfold State.openPrepared
  dsimp only
  repeat' (with_reducible first
      | exact h | exact Keeps.rfl | apply State.logDrop_keeps | apply State.closeBatch_keeps | apply Keeps.foldl | split
      | intro _ _)

theorem State.splitter_keeps {s t : State} (a1) (a2) (h : Keeps s t) : Keeps s (State.splitter t a1 a2) := by
  unfold State.splitter
  dsimp only
  repeat' (with_reducible first | exact h | apply State.bump_keeps | apply State.put_keeps | apply State.orInto_keeps)

theorem State.decode_keeps {s t : State} (a1) (h : Keeps s t) : Keeps s (State.decode t a1) := by
  unfold State.decode
  dsimp only
  repeat' (with_reducible first
      | exact h | apply State.readMem_keeps | apply State.retryDemand_keeps | apply State.splitter_keeps
      | apply State.dropClip_keeps | apply State.writeAll_keeps | apply State.settleClip_keeps | apply Keeps.ite)

/-! ### Runs -/

theorem State.setRun_keeps {s t : State} (a1) (h : Keeps s t) : Keeps s (State.setRun t a1) := by
  unfold State.setRun
  dsimp only
  repeat' (with_reducible first | exact h | fail_if_no_progress apply Keeps.fields)

theorem State.readLoss_keeps {s t : State} (a1) (a2) (h : Keeps s t) : Keeps s (State.readLoss t a1 a2) := by
  unfold State.readLoss
  dsimp only
  repeat' (with_reducible first
      | exact h | apply State.readMem_keeps | apply State.workFailed_keeps | apply State.put_keeps
      | apply State.veto_keeps | fail_if_no_progress apply Keeps.fields | apply Keeps.ite)

theorem State.watchLoss_keeps {s t : State} (a1) (a2) (h : Keeps s t) : Keeps s (State.watchLoss t a1 a2) := by
  unfold State.watchLoss
  dsimp only
  repeat' (with_reducible first | exact h | apply State.readLoss_keeps | apply Keeps.ite | split)

theorem State.opDone_keeps {s t : State} (a1) (a2) (a3) (h : Keeps s t) : Keeps s (State.opDone t a1 a2 a3) := by
  unfold State.opDone
  dsimp only
  repeat' (with_reducible first
      | exact h | apply State.setRun_keeps | apply State.workFailed_keeps | apply State.watchLoss_keeps
      | apply Keeps.ite | split)

theorem State.touch_keeps {s t : State} (a1) (a2) (h : Keeps s t) : Keeps s (State.touch t a1 a2) := by
  unfold State.touch
  dsimp only
  repeat' (with_reducible first
      | exact h | exact Keeps.rfl | apply State.setKiln_keeps | apply Keeps.foldl | apply Keeps.ite | intro _ _)

theorem State.launch_keeps {s t : State} (a1) (a2) (a3) (h : Keeps s t) : Keeps s (State.launch t a1 a2 a3).1 := by
  unfold State.launch
  repeat' (with_reducible first | exact h | apply State.touch_keeps | apply State.setRun_keeps | split)

theorem State.issueOp_keeps {s t : State} (a1 a2 a3 a4) {f} (hf : ∀ u n, Keeps u (f u n)) (h : Keeps s t) :
    Keeps s (t.issueOp a1 a2 a3 a4 f) := by
  unfold State.issueOp
  dsimp only
  repeat' (with_reducible first | exact h | split)
  all_goals refine Keeps.trans ?_ (hf _ _)
  all_goals repeat' (with_reducible first | exact h | apply State.setRun_keeps | apply State.launch_keeps)

/-! ### Frames -/

theorem State.setPort_keeps {s t : State} (a1) (a2) (h : Keeps s t) : Keeps s (State.setPort t a1 a2) := by
  unfold State.setPort
  dsimp only
  repeat' (with_reducible first | exact h | fail_if_no_progress apply Keeps.fields)

theorem State.emitFrame_keeps {s t : State} (a1) (a2) (h : Keeps s t) : Keeps s (State.emitFrame t a1 a2) := by
  unfold State.emitFrame
  dsimp only
  repeat' (with_reducible first | exact h | apply State.bump_keeps | apply State.emit_keeps | apply State.setPort_keeps)

theorem State.sendSequenced_keeps {s t : State} (a1) (a2) (a3)
    (h : Keeps s t) : Keeps s (State.sendSequenced t a1 a2 a3) := by
  unfold State.sendSequenced
  dsimp only
  repeat' (with_reducible first | exact h | apply State.emitFrame_keeps | apply State.setPort_keeps | apply Keeps.ite)

theorem State.sendPair_keeps {s t : State} (a1) (a2) (a3) (a4)
    (h : Keeps s t) : Keeps s (State.sendPair t a1 a2 a3 a4) := by
  unfold State.sendPair
  repeat' (with_reducible first | exact h | apply State.sendSequenced_keeps | split)

theorem State.odnErr_keeps {s t : State} (a1) (a2) (h : Keeps s t) : Keeps s (State.odnErr t a1 a2) := by
  unfold State.odnErr
  repeat' (with_reducible first | exact h | apply State.firstErr_keeps)

theorem State.sendTo_keeps {s t : State} (a1) (a2) (a3) (a4) (a5)
    (h : Keeps s t) : Keeps s (State.sendTo t a1 a2 a3 a4 a5) := by
  unfold State.sendTo
  dsimp only
  repeat' (with_reducible first | exact h | apply State.sendSequenced_keeps | split)

theorem State.sendVoid_keeps {s t : State} (a1) (a2) (h : Keeps s t) : Keeps s (State.sendVoid t a1 a2) := by
  unfold State.sendVoid
  repeat' (with_reducible first | exact h | apply State.sendTo_keeps)

theorem State.sendPlain_keeps {s t : State} (a1) (a2) (a3) (a4)
    (h : Keeps s t) : Keeps s (State.sendPlain t a1 a2 a3 a4) := by
  unfold State.sendPlain
  dsimp only
  repeat' (with_reducible first | exact h | apply State.emitFrame_keeps | apply Keeps.ite)

theorem State.sendNak_keeps {s t : State} (a1) (h : Keeps s t) : Keeps s (State.sendNak t a1) := by
  unfold State.sendNak
  repeat' (with_reducible first | exact h | apply State.sendPlain_keeps)

theorem State.sendWaiting_keeps {s t : State} (a1) (a2) (h : Keeps s t) : Keeps s (State.sendWaiting a1 a2 t) := by
  fun_induction State.sendWaiting a1 a2 t <;> repeat' (with_reducible first
      | exact h | refine ‹_ → _› ?_ | apply State.sendSequenced_keeps)

theorem State.acknowledge_keeps {s t : State} (a1) (a2) (h : Keeps s t) : Keeps s (State.acknowledge t a1 a2) := by
  unfold State.acknowledge
  dsimp only
  repeat' (with_reducible first | exact h | apply State.sendWaiting_keeps | apply State.setPort_keeps | apply Keeps.ite)

theorem State.sendAck_keeps {s t : State} (a1) (h : Keeps s t) : Keeps s (State.sendAck t a1) := by
  unfold State.sendAck
  repeat' (with_reducible first | exact h | apply State.sendPlain_keeps)

theorem State.forward_keeps {s t : State} (a1) (a2) (h : Keeps s t) : Keeps s (State.forward t a1 a2) := by
  unfold State.forward
  repeat' (with_reducible first
      | exact h | apply State.raise_keeps | apply State.sendSequenced_keeps | apply Keeps.ite | split)

theorem State.receive_keeps {s t : State} (a1 a2 a3) {f} (hf : ∀ u, Keeps u (f u)) (h : Keeps s t) :
    Keeps s (t.receive a1 a2 a3 f) := by
  unfold State.receive
  dsimp only
  repeat' (with_reducible first
      | exact h | apply State.sendNak_keeps | apply State.acknowledge_keeps | apply State.setPort_keeps
      | apply State.forward_keeps | apply State.sendAck_keeps | apply State.bump_keeps | split)
  all_goals refine Keeps.trans ?_ (hf _)
  all_goals repeat' (with_reducible first
      | exact h | apply State.acknowledge_keeps | apply State.setPort_keeps | apply State.sendAck_keeps
      | apply State.bump_keeps)

theorem State.resend_keeps {s t : State} (a1) (h : Keeps s t) : Keeps s (State.resend t a1) := by
  unfold State.resend
  dsimp only
  repeat' (with_reducible first
      | exact h | exact Keeps.rfl | apply State.bump_keeps | apply State.setPort_keeps | apply State.emitFrame_keeps
      | apply Keeps.foldl | intro _ _)

/-! ### Coll -/

theorem State.readChunk_keeps {s t : State} (a1) (a2) (a3) (h : Keeps s t) : Keeps s (State.readChunk t a1 a2 a3).1 := by
  unfold State.readChunk
  dsimp only
  repeat' (with_reducible first | exact h | apply State.readMem_keeps | split)

theorem State.setColl_keeps {s t : State} (a1) (h : Keeps s t) : Keeps s (State.setColl t a1) := by
  unfold State.setColl
  dsimp only
  repeat' (with_reducible first | exact h | fail_if_no_progress apply Keeps.fields)

theorem State.endColl_keeps {s t : State} (a1) (a2) (h : Keeps s t) : Keeps s (State.endColl t a1 a2) := by
  unfold State.endColl
  dsimp only
  repeat' (with_reducible first | exact h | apply State.opDone_keeps | fail_if_no_progress apply Keeps.fields)

theorem State.failColl_keeps {s t : State} (a1) (a2) (a3) (h : Keeps s t) : Keeps s (State.failColl t a1 a2 a3) := by
  unfold State.failColl
  dsimp only
  repeat' (with_reducible first | exact h | apply State.odnErr_keeps | apply State.endColl_keeps | apply Keeps.ite)

theorem State.sendData_keeps {s t : State} (a1) (a2) (a3) (a4) (a5)
    (h : Keeps s t) : Keeps s (State.sendData t a1 a2 a3 a4 a5) := by
  fun_induction State.sendData t a1 a2 a3 a4 a5 <;> repeat' (with_reducible first
      | exact h | refine ‹_ → _› ?_ | apply State.sendTo_keeps)

theorem State.serve_keeps {s t : State} (a1) (a2) (h : Keeps s t) : Keeps s (State.serve a1 a2 t).1 := by
  fun_induction State.serve a1 a2 t <;> (try dsimp only) <;> repeat' (with_reducible first
      | exact h | refine ‹_ → _› ?_ | apply State.readChunk_keeps | apply State.sendData_keeps
      | refine Keeps.of_eq ‹_› ?_ | apply Keeps.ite)

theorem State.collWrite_keeps {s t : State} (a1) (a2) (h : Keeps s t) : Keeps s (State.collWrite t a1 a2).1 := by
  unfold State.collWrite
  dsimp only
  repeat' (with_reducible first
      | exact h | apply State.writeMem_keeps | apply State.sticky_keeps | fail_if_no_progress apply Keeps.fields
      | split)

theorem State.finishColl_keeps {s t : State} (a1) (h : Keeps s t) : Keeps s (State.finishColl t a1) := by
  unfold State.finishColl
  dsimp only
  repeat' (with_reducible first
      | exact h | apply State.readChunk_keeps | apply State.failColl_keeps | apply State.endColl_keeps
      | apply State.collWrite_keeps | apply Keeps.ite | split)

theorem State.moveColl_keeps {s t : State} (a1) (h : Keeps s t) : Keeps s (State.moveColl t a1) := by
  unfold State.moveColl
  dsimp only
  repeat' (with_reducible first
      | exact h | apply State.serve_keeps | apply State.failColl_keeps | apply State.setColl_keeps
      | apply State.finishColl_keeps | apply Keeps.ite)

theorem State.voidMembers_keeps {s t : State} (a1) (a2) (h : Keeps s t) : Keeps s (State.voidMembers t a1 a2) := by
  unfold State.voidMembers
  repeat' (with_reducible first | exact h | exact Keeps.rfl | apply State.sendVoid_keeps | apply Keeps.foldl | intro _ _)

theorem State.dropNotices_keeps {s t : State} (a1) (h : Keeps s t) : Keeps s (State.dropNotices t a1) := by
  unfold State.dropNotices
  dsimp only
  repeat' (with_reducible first | exact h | fail_if_no_progress apply Keeps.fields)

theorem State.startColl_keeps {s t : State} (a1) (a2) (a3) (a4)
    (h : Keeps s t) : Keeps s (State.startColl t a1 a2 a3 a4) := by
  unfold State.startColl
  dsimp only
  repeat' (with_reducible first
      | exact h | exact Keeps.rfl | apply State.opDone_keeps | apply State.odnErr_keeps | apply State.readMem_keeps
      | apply State.dropNotices_keeps | apply State.voidMembers_keeps | apply State.sendTo_keeps
      | apply State.moveColl_keeps | fail_if_no_progress apply Keeps.fields | apply Keeps.foldl | apply Keeps.ite
      | split | intro _ _)

theorem State.voidColls_keeps {s t : State} (a1) (h : Keeps s t) : Keeps s (State.voidColls t a1) := by
  unfold State.voidColls
  dsimp only
  repeat' (with_reducible first
      | exact h | exact Keeps.rfl | apply State.endColl_keeps | apply State.voidMembers_keeps | apply Keeps.foldl
      | apply Keeps.ite | intro _ _)

theorem State.keepNotice_keeps {s t : State} (a1) (a2) (h : Keeps s t) : Keeps s (State.keepNotice t a1 a2) := by
  unfold State.keepNotice
  dsimp only
  repeat' (with_reducible first | exact h | fail_if_no_progress apply Keeps.fields)

theorem State.takeReady_keeps {s t : State} (a1) (h : Keeps s t) : Keeps s (State.takeReady t a1) := by
  unfold State.takeReady
  repeat' (with_reducible first | exact h | apply State.keepNotice_keeps | apply State.moveColl_keeps | split)

theorem State.takeData_keeps {s t : State} (a1) (a2) (h : Keeps s t) : Keeps s (State.takeData t a1 a2) := by
  unfold State.takeData
  dsimp only
  repeat' (with_reducible first
      | exact h | apply State.veto_keeps | apply State.odnErr_keeps | apply State.workFailed_keeps
      | apply State.moveColl_keeps | apply Keeps.ite | split)

theorem State.hearReasons_keeps {s t : State} (a1) (h : Keeps s t) : Keeps s (State.hearReasons t a1) := by
  unfold State.hearReasons
  dsimp only
  repeat' (with_reducible first | exact h | apply State.veto_keeps | apply State.put_keeps | apply Keeps.ite)

theorem State.takeVoid_keeps {s t : State} (a1) (h : Keeps s t) : Keeps s (State.takeVoid t a1) := by
  unfold State.takeVoid
  dsimp only
  repeat' (with_reducible first
      | exact h | apply State.hearReasons_keeps | apply State.keepNotice_keeps | apply State.endColl_keeps
      | apply Keeps.ite | split)

/-! ### StepEnd -/

theorem State.stepDone_keeps {s t : State} (h : Keeps s t) : Keeps s (State.stepDone t) := by
  unfold State.stepDone
  dsimp only
  repeat' (with_reducible first
      | exact h | apply State.freeSteps_keeps | apply State.bump_keeps | apply State.promote_keeps
      | fail_if_no_progress apply Keeps.fields)

theorem State.clearRuns_keeps {s t : State} (a1) (h : Keeps s t) : Keeps s (State.clearRuns t a1) := by
  unfold State.clearRuns
  dsimp only
  repeat' (with_reducible first | exact h | fail_if_no_progress apply Keeps.fields)

theorem State.commitDone_keeps {s t : State} (h : Keeps s t) : Keeps s (State.commitDone t) := by
  unfold State.commitDone
  dsimp only
  repeat' (with_reducible first
      | exact h | apply State.bump_keeps | apply State.stepDone_keeps | apply State.clearRuns_keeps
      | apply State.enter_keeps | apply State.setLast_keeps | apply State.completeEvery_keeps)

theorem State.evalDone_keeps {s t : State} (h : Keeps s t) : Keeps s (State.evalDone t) := by
  unfold State.evalDone
  dsimp only
  repeat' (with_reducible first
      | exact h | apply State.put_keeps | apply State.clearRuns_keeps | apply State.setPrepared_keeps
      | apply State.complete_keeps | fail_if_no_progress apply Keeps.fields | apply Keeps.ite | split)

theorem State.runUpdates_keeps {s t : State} (a1) (h : Keeps s t) : Keeps s (State.runUpdates a1 t).1 := by
  fun_induction State.runUpdates a1 t <;> (try dsimp only) <;> repeat' (with_reducible first
      | exact h | refine ‹_ → _› ?_ | apply State.runUpdate_keeps | apply State.opDone_keeps
      | refine Keeps.of_eq ‹_› ?_)

theorem State.releaseHolds_keeps {s t : State} (h : Keeps s t) : Keeps s (State.releaseHolds t) := by
  unfold State.releaseHolds
  dsimp only
  repeat' (with_reducible first | exact h | apply State.put_keeps | fail_if_no_progress apply Keeps.fields)

theorem State.tear_keeps {s t : State} (h : Keeps s t) : Keeps s (State.tear t) := by
  unfold State.tear
  dsimp only
  repeat' (with_reducible first
      | exact h | apply State.clearRuns_keeps | apply State.enter_keeps | apply State.setLast_keeps
      | apply State.releaseHolds_keeps | apply State.completeEvery_keeps | fail_if_no_progress apply Keeps.fields)

theorem State.commitUpdates_keeps {s t : State} (h : Keeps s t) : Keeps s (State.commitUpdates t) := by
  unfold State.commitUpdates
  dsimp only
  repeat' (with_reducible first
      | exact h | apply State.runUpdates_keeps | apply State.tear_keeps | fail_if_no_progress apply Keeps.fields
      | apply Keeps.ite)

theorem State.beginCommit_keeps {s t : State} (h : Keeps s t) : Keeps s (State.beginCommit t) := by
  unfold State.beginCommit
  repeat' (with_reducible first
      | exact h | apply State.commitUpdates_keeps | apply State.enter_keeps | apply State.releaseHolds_keeps)

theorem State.reduce_keeps {s t : State} (h : Keeps s t) : Keeps s (State.reduce t) := by
  unfold State.reduce
  dsimp only
  repeat' (with_reducible first
      | exact h | apply State.enter_keeps | apply State.completeEvery_keeps | apply State.beginCommit_keeps
      | fail_if_no_progress apply Keeps.fields | apply Keeps.ite)

theorem State.skipStep_keeps {s t : State} (h : Keeps s t) : Keeps s (State.skipStep t) := by
  unfold State.skipStep
  dsimp only
  repeat' (with_reducible first
      | exact h | exact Keeps.rfl | apply State.bump_keeps | apply State.stepDone_keeps | apply State.enter_keeps
      | apply State.setLast_keeps | apply State.releaseHolds_keeps | apply State.opDone_keeps
      | apply State.completeEvery_keeps | apply Keeps.foldl | intro _ _)

theorem State.takeOutcome_keeps {s t : State} (a1) (h : Keeps s t) : Keeps s (State.takeOutcome t a1) := by
  unfold State.takeOutcome
  dsimp only
  repeat' (with_reducible first
      | exact h | apply State.reduce_keeps | apply State.skipStep_keeps | apply State.abortStep_keeps
      | fail_if_no_progress apply Keeps.fields | split)

/-! ### Program -/

theorem State.runSwap_keeps {s t : State} (a1) (a2) (h : Keeps s t) : Keeps s (State.runSwap t a1 a2) := by
  unfold State.runSwap
  repeat' (with_reducible first | exact h | apply State.swapTable_keeps)

theorem State.runOwner_keeps {s t : State} (a1) (h : Keeps s t) : Keeps s (State.runOwner t a1) := by
  unfold State.runOwner
  dsimp only
  repeat' (with_reducible first | exact h | fail_if_no_progress apply Keeps.fields | split)

theorem State.passFence_keeps {s t : State} (a1) (a2) (h : Keeps s t) : Keeps s (State.passFence t a1 a2) := by
  unfold State.passFence
  dsimp only
  repeat' (with_reducible first
      | exact h | exact Keeps.rfl | apply State.runSwap_keeps | apply State.runOwner_keeps | apply State.setRun_keeps
      | apply State.opDone_keeps | apply Keeps.foldl | apply Keeps.ite | split | intro _ _)

theorem State.advance_keeps {s t : State} (h : Keeps s t) : ∀ u, t.advance = some u → Keeps s u := by
  unfold State.advance
  intro u e
  repeat' (split at e)
  all_goals (try cases e)
  all_goals repeat' (with_reducible first
      | exact h | exact Keeps.rfl | apply State.voidColls_keeps | apply State.passFence_keeps | apply State.opDone_keeps
      | apply State.enter_keeps | apply State.commitDone_keeps | apply State.evalDone_keeps | apply Keeps.foldl
      | intro _ _)

theorem State.progressGo_keeps {s t : State} (a1) (h : Keeps s t) : Keeps s (State.progressGo a1 t) := by
  fun_induction State.progressGo a1 t with
  | case1 => exact h
  | case2 _ _ _ e ih => exact ih (State.advance_keeps h _ e)
  | case3 => exact h

theorem State.progress_keeps {s t : State} (h : Keeps s t) : Keeps s (State.progress t) := by
  unfold State.progress
  repeat' (with_reducible first | exact h | apply State.settle_keeps | apply State.progressGo_keeps)

theorem State.runOp_keeps {s t : State} (a1 a2 a3 a4) {f} (hf : ∀ u n, Keeps u (f u n)) (h : Keeps s t) :
    KeepsO s (t.runOp a1 a2 a3 a4 f) :=
  Keeps.next (State.progress_keeps (State.issueOp_keeps _ _ _ _ hf h))

theorem State.onRun_keeps {s t : State} (a1) (a2) (h : Keeps s t) : Keeps s (State.onRun t a1 a2) := by
  unfold State.onRun
  repeat' (with_reducible first | exact h | apply State.setRun_keeps | split)

theorem execProgEnd_keeps {s t : State} (a1) (a2) (h : Keeps s t) : KeepsO s (execProgEnd a1 a2 t) := by
  unfold execProgEnd
  repeat' (with_reducible first
      | exact h | exact Keeps.rfl | apply State.runOp_keeps | apply State.opDone_keeps | apply State.onRun_keeps
      | intro _ _)

theorem execDfence_keeps {s t : State} (a1) (a2) (h : Keeps s t) : KeepsO s (execDfence a1 a2 t) := by
  unfold execDfence
  repeat' (with_reducible first | exact h | exact Keeps.rfl | apply State.runOp_keeps | intro _ _)

theorem execMfence_keeps {s t : State} (a1) (a2) (h : Keeps s t) : KeepsO s (execMfence a1 a2 t) := by
  unfold execMfence
  repeat' (with_reducible first | exact h | exact Keeps.rfl | apply State.runOp_keeps | intro _ _)

theorem State.copyRecord_keeps {s t : State} (a1) (h : Keeps s t) : Keeps s (State.copyRecord t a1).1 := by
  unfold State.copyRecord
  dsimp only
  repeat' (with_reducible first | exact h | apply State.readMem_keeps | apply State.writeMem_keeps | split)

theorem State.copyOpWork_keeps {s t : State} (a1) (a2) (a3) (h : Keeps s t) : Keeps s (State.copyOpWork t a1 a2 a3) := by
  unfold State.copyOpWork
  dsimp only
  repeat' (with_reducible first
      | exact h | apply State.readMem_keeps | apply State.opDone_keeps | apply State.copyRecord_keeps | apply Keeps.ite)

theorem State.startCopy_keeps {s t : State} (a1) (a2) (a3) (h : Keeps s t) : Keeps s (State.startCopy t a1 a2 a3) := by
  unfold State.startCopy
  dsimp only
  repeat' (with_reducible first
      | exact h | apply State.opDone_keeps | apply State.askHost_keeps | apply State.copyOpWork_keeps | apply Keeps.ite)

theorem execCopyop_keeps {s t : State} (a1) (a2) (h : Keeps s t) : KeepsO s (execCopyop a1 a2 t) := by
  unfold execCopyop
  repeat' (with_reducible first
      | exact h | exact Keeps.rfl | apply State.runOp_keeps | apply State.startCopy_keeps | intro _ _)

theorem execTswap_keeps {s t : State} (a1) (a2) (h : Keeps s t) : KeepsO s (execTswap a1 a2 t) := by
  unfold execTswap
  dsimp only
  repeat' (with_reducible first
      | exact h | exact Keeps.rfl | apply State.runOp_keeps | apply State.opDone_keeps | apply State.onRun_keeps | split
      | intro _ _)

theorem execOwner_keeps {s t : State} (a1) (a2) (h : Keeps s t) : KeepsO s (execOwner a1 a2 t) := by
  unfold execOwner
  repeat' (with_reducible first
      | exact h | exact Keeps.rfl | apply State.runOp_keeps | apply State.opDone_keeps | apply State.onRun_keeps
      | apply Keeps.ite | split | intro _ _)

theorem execWaitmb_keeps {s t : State} (a1) (a2) (h : Keeps s t) : KeepsO s (execWaitmb a1 a2 t) := by
  unfold execWaitmb
  repeat' (with_reducible first
      | exact h | exact Keeps.rfl | apply State.runOp_keeps | apply State.opDone_keeps | apply Keeps.ite | intro _ _)

theorem State.issuePrefetches_keeps {s t : State} (a1) (a2) (h : Keeps s t) : Keeps s (State.issuePrefetches a1 a2 t) := by
  unfold State.issuePrefetches
  dsimp only
  repeat' (with_reducible first
      | exact h | exact Keeps.rfl | apply State.onRun_keeps | apply State.launch_keeps | apply State.startCopy_keeps
      | apply Keeps.foldl | apply Keeps.ite | intro _ _)

theorem State.enterEntry_keeps {s t : State} (a1) (a2) (a3) (a4)
    (h : Keeps s t) : Keeps s (State.enterEntry t a1 a2 a3 a4) := by
  unfold State.enterEntry
  repeat' (with_reducible first | exact h | apply State.onRun_keeps | split)

theorem execSched_keeps {s t : State} (a1) (a2) (h : Keeps s t) : KeepsO s (execSched a1 a2 t) := by
  unfold execSched
  dsimp only
  repeat' (with_reducible first
      | exact h | exact Keeps.rfl | apply State.runOp_keeps | apply State.opDone_keeps
      | apply State.issuePrefetches_keeps | apply State.enterEntry_keeps | split | intro _ _)

theorem execRet_keeps {s t : State} (a1) (a2) (h : Keeps s t) : KeepsO s (execRet a1 a2 t) := by
  unfold execRet
  dsimp only
  repeat' (with_reducible first
      | exact h | exact Keeps.rfl | apply State.runOp_keeps | apply State.opDone_keeps | apply State.onRun_keeps
      | apply State.issuePrefetches_keeps | apply State.enterEntry_keeps | split | intro _ _)

theorem execCall_keeps {s t : State} (a1) (a2) (h : Keeps s t) : KeepsO s (execCall a1 a2 t) := by
  unfold execCall
  repeat' (with_reducible first
      | exact h | exact Keeps.rfl | apply State.runOp_keeps | apply State.onRun_keeps | apply State.opDone_keeps
      | intro _ _)

theorem execTimer_keeps {s t : State} (a1) (a2) (h : Keeps s t) : KeepsO s (execTimer a1 a2 t) := by
  unfold execTimer
  dsimp only
  repeat' (with_reducible first
      | exact h | exact Keeps.rfl | apply State.runOp_keeps | apply State.opDone_keeps
      | fail_if_no_progress apply Keeps.fields | intro _ _)

theorem execTimerExpiry_keeps {s t : State} (a1) (h : Keeps s t) : KeepsO s (execTimerExpiry a1 t) := by
  unfold execTimerExpiry
  dsimp only
  repeat' (with_reducible first
      | exact h | exact Keeps.rfl | apply State.progress_keeps | apply State.opDone_keeps
      | fail_if_no_progress apply Keeps.fields | apply Keeps.foldl | apply Keeps.next | split | intro _ _)

theorem execTwait_keeps {s t : State} (a1) (a2) (h : Keeps s t) : KeepsO s (execTwait a1 a2 t) := by
  unfold execTwait
  repeat' (with_reducible first
      | exact h | exact Keeps.rfl | apply State.runOp_keeps | apply State.opDone_keeps | apply Keeps.ite | intro _ _)

theorem execPin_keeps {s t : State} (a1) (a2) (h : Keeps s t) : KeepsO s (execPin a1 a2 t) := by
  unfold execPin
  dsimp only
  repeat' (with_reducible first
      | exact h | exact Keeps.rfl | apply State.runOp_keeps | apply State.opDone_keeps
      | fail_if_no_progress apply Keeps.fields | intro _ _)

/-! ### IngestCmds -/

theorem execIngestBind_keeps {s t : State} (a1) (a2) (h : Keeps s t) : KeepsO s (execIngestBind a1 a2 t) := by
  unfold execIngestBind
  repeat' (with_reducible first
      | exact h | exact Keeps.rfl | apply State.hostCommand_keeps | apply State.afterRead_keeps | apply bindWork_keeps
      | apply Keeps.next | intro _ _)

theorem execRingTailDoorbell_keeps {s t : State} (a1) (a2) (h : Keeps s t) : KeepsO s (execRingTailDoorbell a1 a2 t) := by
  unfold execRingTailDoorbell
  repeat' (with_reducible first
      | exact h | exact Keeps.rfl | apply State.doorbell_keeps | apply State.ringTail_keeps | apply Keeps.next
      | intro _)

theorem execChunk_keeps {s t : State} (a1) (h : Keeps s t) : KeepsO s (execChunk a1 t) := by
  unfold execChunk
  repeat' (with_reducible first
      | exact h | apply State.askHost_keeps | apply State.progress_keeps | apply State.takeChunk_keeps | apply Keeps.ite
      | apply Keeps.next | split)

theorem execDemandIssue_keeps {s t : State} (a1) (h : Keeps s t) : KeepsO s (execDemandIssue a1 t) := by
  unfold execDemandIssue
  repeat' (with_reducible first | exact h | apply State.issueDemand_keeps | apply Keeps.next | split)

theorem execDemandTimeout_keeps {s t : State} (a1) (a2) (h : Keeps s t) : KeepsO s (execDemandTimeout a1 a2 t) := by
  unfold execDemandTimeout
  dsimp only
  repeat' (with_reducible first
      | exact h | apply State.progress_keeps | apply State.retryDemand_keeps | apply State.ingErr_keeps
      | apply Keeps.next | split)

theorem execStepPreparation_keeps {s t : State} (a1) (h : Keeps s t) : KeepsO s (execStepPreparation a1 t) := by
  unfold execStepPreparation
  dsimp only
  repeat' (with_reducible first
      | exact h | exact Keeps.rfl | apply State.setPrepared_keeps | apply State.progress_keeps
      | apply State.closeBatch_keeps | apply State.openPrepared_keeps | apply State.bump_keeps | apply Keeps.foldl
      | apply Keeps.next | split | intro _ _)

theorem execClipDecode_keeps {s t : State} (a1) (a2) (h : Keeps s t) : KeepsO s (execClipDecode a1 a2 t) := by
  unfold execClipDecode
  repeat' (with_reducible first | exact h | apply State.progress_keeps | apply State.decode_keeps | apply Keeps.next | split)

/-! ### Stream -/

theorem State.fetch_keeps {s t : State} (a1 a2) (h : Keeps s t) : Keeps s (t.fetch a1 a2).1 := by
  unfold State.fetch
  split
  · exact h
  · exact checkRead_keeps (State.hRead_keeps _ _ _ _ h)

theorem doCvtFamily_keeps {s t : State} (a1) (a2) (h : Keeps s t) : Keeps s (doCvtFamily a1 a2 t) := by
  unfold doCvtFamily
  repeat' (with_reducible first | exact h | apply doDraw_keeps | apply doRand_keeps | apply doCvt_keeps | split)

theorem doReservedVector_keeps {s t : State} (a1) (a2) (h : Keeps s t) : Keeps s (doReservedVector a1 a2 t) := by
  unfold doReservedVector
  repeat' (with_reducible first | exact h | apply State.vecError_keeps | apply State.issue_keeps)

theorem doWord_keeps {s t : State} (a1) (a2) (h : Keeps s t) : Keeps s (doWord a1 a2 t) := by
  unfold doWord
  repeat' (with_reducible first
      | exact h | apply doMma_keeps | apply doOut_keeps | apply doClr_keeps | apply doBsst_keeps | apply doBsadd_keeps
      | apply doKred_keeps | apply doRstat_keeps | apply doHbar_keeps | apply doVld_keeps | apply doVst_keeps
      | apply doVgath_keeps | apply doVscat_keeps | apply doVsplat_keeps | apply doFadd_keeps | apply doFsub_keeps
      | apply doFmul_keeps | apply doFfma_keeps | apply doFmin_keeps | apply doFmax_keeps | apply doFdiv_keeps
      | apply doFsqrt_keeps | apply doFcmp_keeps | apply doSel_keeps | apply doGmul_keeps | apply doGadd_keeps
      | apply doGsub_keeps | apply doIadd_keeps | apply doIsub_keeps | apply doImul_keeps | apply doIlog_keeps
      | apply doIshf_keeps | apply doCvtFamily_keeps | apply doFn_keeps | apply doFnm_keeps | apply doNorm_keeps
      | apply doStcomb_keeps | apply doSmax_keeps | apply doReserved_keeps | apply doReservedVector_keeps
      | apply Keeps.ite | split)

theorem runWords_keeps {s t : State} (a1 a2 a3) (h : Keeps s t) : Keeps s (runWords a1 a2 a3 t) := by
  induction a2 generalizing t a3 with
  | zero => exact h
  | succ n ih =>
    exact orElse_keeps (State.fetch_keeps _ _ h) (fun _ _ g => State.hearthError_keeps _ _ _ g) fun _ _ g => ih _ (doWord_keeps _ _ g)

theorem State.runStreams_keeps {s t : State} (a1) (a2) (a3) (h : Keeps s t) : Keeps s (State.runStreams t a1 a2 a3) := by
  unfold State.runStreams
  repeat' (with_reducible first | exact h | exact Keeps.rfl | apply runWords_keeps | apply Keeps.foldl | intro _ _)

/-! ### Routing -/

theorem State.holdFor_keeps {s t : State} (a1) (a2) (a3) (h : Keeps s t) : Keeps s (State.holdFor t a1 a2 a3) := by
  unfold State.holdFor
  dsimp only
  repeat' (with_reducible first | exact h | exact Keeps.rfl | apply State.setKiln_keeps | apply Keeps.foldl | intro _ _)

theorem State.readDisp_keeps {s t : State} (a1 a2) (h : Keeps s t) : Keeps s (t.readDisp a1 a2).1 := by
  unfold State.readDisp
  split
  · exact h
  · exact andRead_keeps (State.hRead_keeps _ _ _ _ h) fun _ _ g => g

theorem State.dispError_keeps {s t : State} (a1) (a2) (a3) (h : Keeps s t) : Keeps s (State.dispError t a1 a2 a3) := by
  unfold State.dispError
  repeat' (with_reducible first | exact h | apply State.firstErr_keeps)

theorem State.routeTokens_keeps {s t : State} (a1) (a2) (a3)
    (h : Keeps s t) : Keeps s (State.routeTokens a1 a2 a3 t).1 := by
  fun_induction State.routeTokens a1 a2 a3 t <;> (try dsimp only) <;> repeat' (with_reducible first
      | exact h | refine ‹_ → _› ?_ | apply State.hRead_keeps | apply State.sticky_keeps | apply State.setKiln_keeps
      | refine Keeps.of_eq ‹_› ?_ | apply Keeps.ite)

theorem State.routeHearth_keeps {s t : State} (a1) (a2) (h : Keeps s t) : Keeps s (State.routeHearth t a1 a2).1 := by
  unfold State.routeHearth
  dsimp only
  repeat' (with_reducible first
      | exact h | apply State.readDisp_keeps | apply State.dispError_keeps | apply State.routeTokens_keeps
      | refine Keeps.of_eq ‹_› ?_ | split)

theorem State.routeAll_keeps {s t : State} (a1 a2) (h : Keeps s t) : Keeps s (t.routeAll a1 a2).1 :=
  Keeps.foldlPair _ h fun _ _ => State.routeHearth_keeps _ _ Keeps.rfl

theorem State.readSources_keeps {s t : State} (a1) (a2) (h : Keeps s t) : Keeps s (State.readSources a1 a2 t).1 := by
  fun_induction State.readSources a1 a2 t <;> (try dsimp only) <;> repeat' (with_reducible first
      | exact h | refine ‹_ → _› ?_ | apply State.readDisp_keeps | apply State.dispError_keeps
      | apply State.readMem_keeps | refine Keeps.of_eq ‹_› ?_)

theorem State.exchangeFailed_keeps {s t : State} (a1) (a2) (h : Keeps s t) : Keeps s (State.exchangeFailed t a1 a2) := by
  unfold State.exchangeFailed
  dsimp only
  repeat' (with_reducible first
      | exact h | exact Keeps.rfl | apply State.dispError_keeps | apply State.odnErr_keeps | apply State.veto_keeps
      | apply Keeps.foldl | apply Keeps.ite | intro _ _)

theorem State.readRows_keeps {s t : State} (a1) (a2) (h : Keeps s t) : Keeps s (State.readRows a1 a2 t).1 := by
  fun_induction State.readRows a1 a2 t <;> (try dsimp only) <;> repeat' (with_reducible first
      | exact h | refine ‹_ → _› ?_ | apply State.hRead_keeps | refine Keeps.of_eq ‹_› ?_ | split)

theorem State.hearthWrites_keeps {s t : State} (a1) (h : Keeps s t) : Keeps s (State.hearthWrites a1 t).1 := by
  fun_induction State.hearthWrites a1 t <;> (try dsimp only) <;> repeat' (with_reducible first
      | exact h | refine ‹_ → _› ?_ | apply State.hWrite_keeps | refine Keeps.of_eq ‹_› ?_)

theorem State.addRoute_keeps {s t : State} (a1) (a2) (a3) (h : Keeps s t) : Keeps s (State.addRoute t a1 a2 a3) := by
  unfold State.addRoute
  dsimp only
  repeat' (with_reducible first
      | exact h | apply State.post_keeps | fail_if_no_progress apply Keeps.fields | apply Keeps.ite)

theorem State.addRoutes_keeps {s t : State} (a1) (a2) (a3) (a4) (a5)
    (h : Keeps s t) : Keeps s (State.addRoutes t a1 a2 a3 a4 a5) := by
  unfold State.addRoutes
  dsimp only
  repeat' (with_reducible first
      | exact h | exact Keeps.rfl | apply State.bump_keeps | apply State.addRoute_keeps | apply Keeps.foldl | intro _ _)

theorem State.dispatchAll_keeps {s t : State} (a1) (a2) (a3) (a4)
    (h : Keeps s t) : Keeps s (State.dispatchAll t a1 a2 a3 a4).1 := by
  unfold State.dispatchAll
  dsimp only
  repeat' (with_reducible first
      | exact h | apply State.readSources_keeps | apply State.exchangeFailed_keeps | apply State.readRows_keeps
      | apply State.hearthWrites_keeps | apply State.emit_keeps | apply State.addRoutes_keeps
      | refine Keeps.of_eq ‹_› ?_ | apply Keeps.ite | split)

theorem State.returnRows_keeps {s t : State} (a1 a2 a3) (h : Keeps s t) : Keeps s (State.returnRows a1 a2 a3 t).1 := by
  induction a3 generalizing t with
  | nil => exact h
  | cons x xs ih =>
    refine andRead_keeps (State.hRead_keeps _ _ _ _ h) fun _ _ g => ?_
    refine andRead_keeps (State.hRead_keeps _ _ _ _ g) fun _ _ g => ?_
    exact andChecked_keeps (ih g) fun _ _ g => g

theorem State.returnAll_keeps {s t : State} (a1) (a2) (h : Keeps s t) : Keeps s (State.returnAll a1 a2 t).1 := by
  fun_induction State.returnAll a1 a2 t <;> (try dsimp only) <;> repeat' (with_reducible first
      | exact h | refine ‹_ → _› ?_ | apply State.hRead_keeps | apply State.returnRows_keeps
      | refine Keeps.of_eq ‹_› ?_)

theorem State.combineTokens_keeps {s t : State} (a1) (a2) (a3)
    (h : Keeps s t) : Keeps s (State.combineTokens a1 a2 a3 t).1 := by
  fun_induction State.combineTokens a1 a2 a3 t <;> (try dsimp only) <;> repeat' (with_reducible first
      | exact h | refine ‹_ → _› ?_ | apply State.hearthWrites_keeps | apply State.hWrite_keeps
      | apply State.sticky_keeps | refine Keeps.of_eq ‹_› ?_)

theorem State.combineSources_keeps {s t : State} (a1) (a2) (h : Keeps s t) : Keeps s (State.combineSources a1 a2 t).1 := by
  fun_induction State.combineSources a1 a2 t <;> (try dsimp only) <;> repeat' (with_reducible first
      | exact h | refine ‹_ → _› ?_ | apply State.combineTokens_keeps | refine Keeps.of_eq ‹_› ?_)

theorem State.combineAll_keeps {s t : State} (a1) (a2) (a3) (a4)
    (h : Keeps s t) : Keeps s (State.combineAll t a1 a2 a3 a4).1 := by
  unfold State.combineAll
  dsimp only
  repeat' (with_reducible first
      | exact h | apply State.readSources_keeps | apply State.exchangeFailed_keeps | apply State.returnAll_keeps
      | apply State.emit_keeps | apply State.combineSources_keeps | refine Keeps.of_eq ‹_› ?_ | split)

theorem State.hearthWork_keeps {s t : State} (a1) (a2) (a3) (h : Keeps s t) : Keeps s (State.hearthWork t a1 a2 a3).1 := by
  unfold State.hearthWork
  dsimp only
  repeat' (with_reducible first
      | exact h | exact Keeps.rfl | apply State.runStreams_keeps | apply State.routeAll_keeps
      | apply State.dispError_keeps | apply State.veto_keeps | apply State.dispatchAll_keeps
      | apply State.combineAll_keeps | apply Keeps.foldl | apply Keeps.ite | split | intro _ _)

theorem State.runHearths_keeps {s t : State} (a1) (a2) (a3) (a4)
    (h : Keeps s t) : Keeps s (State.runHearths t a1 a2 a3 a4) := by
  unfold State.runHearths
  dsimp only
  repeat' (with_reducible first | exact h | apply State.hearthWork_keeps | apply State.opDone_keeps)

theorem State.startHearths_keeps {s t : State} (a1) (a2) (a3) (a4)
    (h : Keeps s t) : Keeps s (State.startHearths t a1 a2 a3 a4) := by
  unfold State.startHearths
  repeat' (with_reducible first
      | exact h | apply State.opDone_keeps | apply State.holdFor_keeps | apply State.runHearths_keeps | apply Keeps.ite)

theorem execRunh_keeps {s t : State} (a1) (a2) (h : Keeps s t) : KeepsO s (execRunh a1 a2 t) := by
  unfold execRunh
  repeat' (with_reducible first
      | exact h | exact Keeps.rfl | apply State.runOp_keeps | apply State.startHearths_keeps | intro _ _)

theorem execRoute_keeps {s t : State} (a1) (a2) (h : Keeps s t) : KeepsO s (execRoute a1 a2 t) := by
  unfold execRoute
  repeat' (with_reducible first
      | exact h | exact Keeps.rfl | apply State.runOp_keeps | apply State.startHearths_keeps | intro _ _)

theorem execDispatch_keeps {s t : State} (a1) (a2) (a3) (h : Keeps s t) : KeepsO s (execDispatch a1 a2 a3 t) := by
  unfold execDispatch
  repeat' (with_reducible first
      | exact h | exact Keeps.rfl | apply State.runOp_keeps | apply State.startHearths_keeps | intro _ _)

theorem execCombine_keeps {s t : State} (a1) (a2) (a3) (h : Keeps s t) : KeepsO s (execCombine a1 a2 a3 t) := by
  unfold execCombine
  repeat' (with_reducible first
      | exact h | exact Keeps.rfl | apply State.runOp_keeps | apply State.startHearths_keeps | intro _ _)

theorem execKilnGating_keeps {s t : State} (a1) (h : Keeps s t) : KeepsO s (execKilnGating a1 t) := by
  unfold execKilnGating
  dsimp only
  repeat' (with_reducible first
      | exact h | apply State.settleIdle_keeps | apply State.bump_keeps | apply State.setKiln_keeps | apply Keeps.next
      | split)

theorem State.releaseHeld_keeps {s t : State} (a1) (h : Keeps s t) : Keeps s (t.releaseHeld a1) := by
  induction a1 generalizing t with
  | nil => exact h
  | cons x xs ih =>
    refine ih ?_
    repeat' (with_reducible first | exact h | apply State.opDone_keeps | apply State.runHearths_keeps | split)

theorem execKilnWake_keeps {s t : State} (a1) (h : Keeps s t) : KeepsO s (execKilnWake a1 t) := by
  unfold execKilnWake
  dsimp only
  repeat' (with_reducible first
      | exact h | apply State.setKiln_keeps | apply State.put_keeps | apply State.progress_keeps
      | apply State.releaseHeld_keeps | apply Keeps.ite | apply Keeps.next | split)

/-! ### StepCmds -/

theorem State.bnkErr_keeps {s t : State} (a1) (a2) (h : Keeps s t) : Keeps s (State.bnkErr t a1 a2) := by
  unfold State.bnkErr
  repeat' (with_reducible first | exact h | apply State.firstErr_keeps)

theorem State.fixPairMode_keeps {s t : State} (h : Keeps s t) : Keeps s (State.fixPairMode t) := by
  unfold State.fixPairMode
  dsimp only
  repeat' (with_reducible first | exact h | apply State.put_keeps)

theorem State.openRecords_keeps {s t : State} (a1) (a2) (h : Keeps s t) : Keeps s (State.openRecords t a1 a2) := by
  unfold State.openRecords
  dsimp only
  repeat' (with_reducible first
      | exact h | apply State.clearRuns_keeps | apply State.put_keeps | apply State.openStats_keeps
      | fail_if_no_progress apply Keeps.fields)

theorem State.openNotices_keeps {s t : State} (h : Keeps s t) : Keeps s (State.openNotices t) := by
  unfold State.openNotices
  dsimp only
  repeat' (with_reducible first
      | exact h | exact Keeps.rfl | apply State.hearReasons_keeps | fail_if_no_progress apply Keeps.fields
      | apply Keeps.foldl | split | intro _ _)

theorem State.startRuns_keeps {s t : State} (a1) (h : Keeps s t) : Keeps s (State.startRuns t a1) := by
  unfold State.startRuns
  dsimp only
  repeat' (with_reducible first
      | exact h | exact Keeps.rfl | apply State.put_keeps | fail_if_no_progress apply Keeps.fields | apply Keeps.foldl
      | intro _ _)

theorem State.openTraining_keeps {s t : State} (a1) (a2) (h : Keeps s t) : Keeps s (State.openTraining t a1 a2) := by
  unfold State.openTraining
  dsimp only
  repeat' (with_reducible first
      | exact h | apply State.fixPairMode_keeps | apply State.enter_keeps | apply State.openRecords_keeps
      | apply State.veto_keeps | apply State.openNotices_keeps | apply State.startRuns_keeps | apply Keeps.ite)

theorem runStepWork_keeps {s t : State} (a1) (h : Keeps s t) : Keeps s (runStepWork t a1) := by
  unfold runStepWork
  dsimp only
  repeat' (with_reducible first
      | exact h | apply State.complete_keeps | apply State.progress_keeps | apply State.openTraining_keeps
      | apply Keeps.ite)

theorem execRunStep_keeps {s t : State} (a1) (a2) (h : Keeps s t) : KeepsO s (execRunStep a1 a2 t) := by
  unfold execRunStep
  repeat' (with_reducible first
      | exact h | exact Keeps.rfl | apply State.hostCommand_keeps | apply runStepWork_keeps | apply Keeps.next
      | intro _ _)

theorem State.holdCommand_keeps {s t : State} (a1) (h : Keeps s t) : Keeps s (State.holdCommand t a1) := by
  unfold State.holdCommand
  dsimp only
  repeat' (with_reducible first | exact h | apply State.put_keeps | fail_if_no_progress apply Keeps.fields)

theorem commitWork_keeps {s t : State} (a1) (h : Keeps s t) : Keeps s (commitWork t a1) := by
  unfold commitWork
  dsimp only
  repeat' (with_reducible first
      | exact h | apply State.complete_keeps | apply State.holdCommand_keeps | apply State.progress_keeps
      | apply State.beginCommit_keeps | apply Keeps.ite)

theorem execCommitStep_keeps {s t : State} (a1) (a2) (h : Keeps s t) : KeepsO s (execCommitStep a1 a2 t) := by
  unfold execCommitStep
  repeat' (with_reducible first
      | exact h | exact Keeps.rfl | apply State.hostCommand_keeps | apply commitWork_keeps | apply Keeps.next
      | intro _ _)

theorem abortWork_keeps {s t : State} (a1) (h : Keeps s t) : Keeps s (abortWork t a1) := by
  unfold abortWork
  dsimp only
  repeat' (with_reducible first
      | exact h | apply State.complete_keeps | apply State.progress_keeps | apply State.veto_keeps | apply Keeps.ite)

theorem execAbortStep_keeps {s t : State} (a1) (a2) (h : Keeps s t) : KeepsO s (execAbortStep a1 a2 t) := by
  unfold execAbortStep
  repeat' (with_reducible first
      | exact h | exact Keeps.rfl | apply State.hostCommand_keeps | apply abortWork_keeps | apply Keeps.next
      | intro _ _)

theorem State.openEval_keeps {s t : State} (a1) (h : Keeps s t) : Keeps s (State.openEval t a1) := by
  unfold State.openEval
  dsimp only
  repeat' (with_reducible first
      | exact h | apply State.clearRuns_keeps | apply State.put_keeps | apply State.startRuns_keeps
      | fail_if_no_progress apply Keeps.fields)

theorem evalWork_keeps {s t : State} (a1) (h : Keeps s t) : Keeps s (evalWork t a1) := by
  unfold evalWork
  dsimp only
  repeat' (with_reducible first
      | exact h | apply State.complete_keeps | apply State.progress_keeps | apply State.openEval_keeps
      | apply Keeps.ite)

theorem execEvalRun_keeps {s t : State} (a1) (a2) (h : Keeps s t) : KeepsO s (execEvalRun a1 a2 t) := by
  unfold execEvalRun
  repeat' (with_reducible first
      | exact h | exact Keeps.rfl | apply State.hostCommand_keeps | apply evalWork_keeps | apply Keeps.next | intro _ _)

theorem State.endTrial_keeps {s t : State} (h : Keeps s t) : Keeps s (State.endTrial t) := by
  unfold State.endTrial
  dsimp only
  repeat' (with_reducible first | exact h | apply State.put_keeps | fail_if_no_progress apply Keeps.fields)

theorem State.gnormIssued_keeps {s t : State} (a1) (a2) (h : Keeps s t) : Keeps s (State.gnormIssued t a1 a2) := by
  unfold State.gnormIssued
  dsimp only
  repeat' (with_reducible first | exact h | fail_if_no_progress apply Keeps.fields)

theorem State.checkUpdate_keeps {s t : State} (a1) (h : Keeps s t) : Keeps s (State.checkUpdate t a1).1 := by
  unfold State.checkUpdate
  repeat' (with_reducible first | exact h | apply State.readUpdate_keeps | refine Keeps.of_eq ‹_› ?_ | split)

theorem State.gnormWork_keeps {s t : State} (a1) (a2) (a3) (h : Keeps s t) : Keeps s (State.gnormWork t a1 a2 a3) := by
  unfold State.gnormWork
  dsimp only
  repeat' (with_reducible first
      | exact h | apply State.readGnorm_keeps | apply State.opDone_keeps | apply State.gnormIssued_keeps
      | apply State.checkUpdate_keeps | apply State.streamGnorm_keeps | refine Keeps.of_eq ‹_› ?_ | apply Keeps.ite
      | split)

theorem execGnorm_keeps {s t : State} (a1) (a2) (h : Keeps s t) : KeepsO s (execGnorm a1 a2 t) := by
  unfold execGnorm
  repeat' (with_reducible first
      | exact h | exact Keeps.rfl | apply State.runOp_keeps | apply State.opDone_keeps | apply State.gnormWork_keeps
      | apply Keeps.ite | intro _ _)

theorem State.placeRoutes_keeps {s t : State} (a1) (h : Keeps s t) : Keeps s (State.placeRoutes t a1) := by
  unfold State.placeRoutes
  repeat' (with_reducible first | exact h | exact Keeps.rfl | apply State.post_keeps | apply Keeps.foldl | split | intro _ _)

theorem execVoteClose_keeps {s t : State} (h : Keeps s t) : KeepsO s (execVoteClose t) := by
  unfold execVoteClose
  dsimp only
  repeat' (with_reducible first
      | exact h | apply State.enterSquares_keeps | apply State.veto_keeps | apply State.orInto_keeps
      | apply State.combineStats_keeps | apply State.placeRoutes_keeps | apply State.emit_keeps | apply State.put_keeps
      | apply State.progress_keeps | fail_if_no_progress apply Keeps.fields | apply Keeps.ite | apply Keeps.next
      | split)

theorem State.replayFailed_keeps {s t : State} (a1) (h : Keeps s t) : Keeps s (State.replayFailed t a1) := by
  unfold State.replayFailed
  repeat' (with_reducible first | exact h | apply State.veto_keeps | apply State.raise_keeps | apply State.bnkErr_keeps)

theorem State.replayCheck_keeps {s t : State} (h : Keeps s t) : Keeps s (State.replayCheck t) := by
  unfold State.replayCheck
  dsimp only
  repeat' (with_reducible first
      | exact h | apply State.put_keeps | apply State.replayFailed_keeps | apply State.endTrial_keeps
      | apply State.veto_keeps | apply Keeps.ite | split)

theorem State.takeResult_keeps {s t : State} (a1) (h : Keeps s t) : Keeps s (State.takeResult t a1) := by
  unfold State.takeResult
  dsimp only
  repeat' (with_reducible first
      | exact h | apply State.put_keeps | apply State.placeRoutes_keeps | apply State.takeStats_keeps | apply Keeps.ite)

theorem State.compareDigests_keeps {s t : State} (h : Keeps s t) : Keeps s (State.compareDigests t) := by
  unfold State.compareDigests
  dsimp only
  repeat' (with_reducible first
      | exact h | apply State.put_keeps | apply State.takeOutcome_keeps | apply State.veto_keeps | apply Keeps.ite
      | split)

theorem State.sendDigest_keeps {s t : State} (a1) (a2) (h : Keeps s t) : Keeps s (State.sendDigest t a1 a2) := by
  unfold State.sendDigest
  dsimp only
  repeat' (with_reducible first
      | exact h | apply State.compareDigests_keeps | apply State.sendPair_keeps
      | fail_if_no_progress apply Keeps.fields)

theorem State.settleVote_keeps {s t : State} (a1) (h : Keeps s t) : Keeps s (State.settleVote t a1) := by
  unfold State.settleVote
  dsimp only
  repeat' (with_reducible first
      | exact h | apply State.sendDigest_keeps | apply State.takeOutcome_keeps | fail_if_no_progress apply Keeps.fields
      | apply Keeps.ite)

theorem execGlobalResult_keeps {s t : State} (a1) (h : Keeps s t) : KeepsO s (execGlobalResult a1 t) := by
  unfold execGlobalResult
  dsimp only
  repeat' (with_reducible first
      | exact h | apply State.replayCheck_keeps | apply State.takeResult_keeps | apply State.progress_keeps
      | apply State.settleVote_keeps | apply Keeps.ite | apply Keeps.next | split)

theorem execReductionTimeout_keeps {s t : State} (h : Keeps s t) : KeepsO s (execReductionTimeout t) := by
  unfold execReductionTimeout
  repeat' (with_reducible first | exact h | apply State.progress_keeps | apply State.veto_keeps | apply Keeps.next | split)

theorem State.updateWork_keeps {s t : State} (a1) (a2) (a3) (h : Keeps s t) : Keeps s (State.updateWork t a1 a2 a3) := by
  unfold State.updateWork
  dsimp only
  repeat' (with_reducible first
      | exact h | apply State.opDone_keeps | apply State.commitUpdates_keeps | fail_if_no_progress apply Keeps.fields
      | apply Keeps.ite)

theorem execUpdate_keeps {s t : State} (a1) (a2) (h : Keeps s t) : KeepsO s (execUpdate a1 a2 t) := by
  unfold execUpdate
  repeat' (with_reducible first
      | exact h | exact Keeps.rfl | apply State.runOp_keeps | apply State.opDone_keeps | apply State.updateWork_keeps
      | apply Keeps.ite | intro _ _)

theorem execStepDrain_keeps {s t : State} (h : Keeps s t) : KeepsO s (execStepDrain t) := by
  unfold execStepDrain
  dsimp only
  repeat' (with_reducible first
      | exact h | apply State.clearRuns_keeps | apply State.enter_keeps | apply State.completeEvery_keeps
      | apply Keeps.next | split)

theorem State.dryBlocks_keeps {s t : State} (a1) (a2) (a3) (a4) (a5) (a6)
    (h : Keeps s t) : Keeps s (State.dryBlocks a1 a2 a3 a4 a5 t a6).1 := by
  fun_induction State.dryBlocks a1 a2 a3 a4 a5 t a6 <;> (try dsimp only) <;> repeat' (with_reducible first
      | exact h | refine ‹_ → _› ?_ | apply State.computeBlock_keeps | refine Keeps.of_eq ‹_› ?_)

theorem State.dryShards_keeps {s t : State} (a1) (a2) (a3) (a4)
    (h : Keeps s t) : Keeps s (State.dryShards a1 a2 a3 t a4).1 := by
  fun_induction State.dryShards a1 a2 a3 t a4 <;> (try dsimp only) <;> repeat' (with_reducible first
      | exact h | refine ‹_ → _› ?_ | apply State.dryBlocks_keeps | refine Keeps.of_eq ‹_› ?_)

theorem State.dryUpdates_keeps {s t : State} (a1) (a2) (h : Keeps s t) : Keeps s (State.dryUpdates a1 t a2).1 := by
  fun_induction State.dryUpdates a1 t a2 <;> (try dsimp only) <;> repeat' (with_reducible first
      | exact h | refine ‹_ → _› ?_ | apply State.readUpdate_keeps | apply State.dryShards_keeps
      | refine Keeps.of_eq ‹_› ?_)

theorem execDigestPass_keeps {s t : State} (h : Keeps s t) : KeepsO s (execDigestPass t) := by
  unfold execDigestPass
  repeat' (with_reducible first
      | exact h | apply State.dryUpdates_keeps | apply State.progress_keeps | apply State.workFailed_keeps
      | apply State.sendDigest_keeps | refine Keeps.of_eq ‹_› ?_ | apply Keeps.next | split)

theorem execDigestTimeout_keeps {s t : State} (h : Keeps s t) : KeepsO s (execDigestTimeout t) := by
  unfold execDigestTimeout
  repeat' (with_reducible first | exact h | apply State.progress_keeps | apply State.veto_keeps | apply Keeps.next | split)

end Sys2Proof.Machine
end

