-- ==== Sys2Proof/Laws/KeepsLinks.lean ====
section
/-! SUPPORT. What banking, rekindling, the links and quarantine keep. One lemma for each operation, in the order of the definitions. -/

namespace Sys2Proof.Machine

/-! ### Ranks -/

theorem State.rankUpdate_keeps {s t : State} (a1) (h : Keeps s t) : Keeps s (State.rankUpdate t a1) := by
  unfold State.rankUpdate
  dsimp only
  repeat' (with_reducible first
      | exact h | apply State.put_keeps | apply State.odnErr_keeps | fail_if_no_progress apply Keeps.fields | split)

theorem State.tellRanks_keeps {s t : State} (a1) (h : Keeps s t) : Keeps s (State.tellRanks t a1) := by
  unfold State.tellRanks
  repeat' (with_reducible first | exact h | exact Keeps.rfl | apply State.sendTo_keeps | apply Keeps.foldl | intro _ _)

/-! ### Banking -/

theorem State.readRanges_keeps {s t : State} (a1) (a2) (a3) (h : Keeps s t) : Keeps s (State.readRanges a1 a2 a3 t).1 := by
  fun_induction State.readRanges a1 a2 a3 t <;> (try dsimp only) <;> repeat' (with_reducible first
      | exact h | refine ‹_ → _› ?_ | apply State.readMem_keeps | refine Keeps.of_eq ‹_› ?_)

theorem State.readShards_keeps {s t : State} (a1) (a2) (a3) (h : Keeps s t) : Keeps s (State.readShards a1 a2 a3 t).1 := by
  fun_induction State.readShards a1 a2 a3 t <;> (try dsimp only) <;> repeat' (with_reducible first
      | exact h | refine ‹_ → _› ?_ | apply State.readRanges_keeps | refine Keeps.of_eq ‹_› ?_)

theorem State.bankParts_keeps {s t : State} (h : Keeps s t) : Keeps s (State.bankParts t).1 := by
  unfold State.bankParts
  dsimp only
  repeat' (with_reducible first | exact h | apply State.readShards_keeps | refine Keeps.of_eq ‹_› ?_ | split)

theorem State.bankReply_keeps {s t : State} (a1) (a2) (a3) (a4)
    (h : Keeps s t) : Keeps s (State.bankReply t a1 a2 a3 a4) := by
  unfold State.bankReply
  dsimp only
  repeat' (with_reducible first | exact h | apply State.bnkErr_keeps | apply State.complete_keeps | apply Keeps.ite | split)

theorem State.endBank_keeps {s t : State} (a1) (a2) (h : Keeps s t) : Keeps s (State.endBank t a1 a2) := by
  unfold State.endBank
  dsimp only
  repeat' (with_reducible first
      | exact h | apply State.put_keeps | apply State.bump_keeps | apply State.bankReply_keeps | apply State.raise_keeps
      | apply State.bnkErr_keeps | fail_if_no_progress apply Keeps.fields | apply Keeps.ite | split)

theorem State.bankAdvance_keeps {s t : State} (h : Keeps s t) : Keeps s (State.bankAdvance t) := by
  unfold State.bankAdvance
  dsimp only
  repeat' (with_reducible first
      | exact h | apply State.endBank_keeps | fail_if_no_progress apply Keeps.fields | apply Keeps.ite | split)

theorem State.abandonLevel_keeps {s t : State} (a1) (h : Keeps s t) : Keeps s (State.abandonLevel t a1) := by
  unfold State.abandonLevel
  dsimp only
  repeat' (with_reducible first | exact h | apply State.bankAdvance_keeps | fail_if_no_progress apply Keeps.fields | split)

theorem State.ringWrite_keeps {s t : State} (h : Keeps s t) : Keeps s t.ringWrite := by
  unfold State.ringWrite
  split
  · exact h
  · extract_lets n
    split
    · exact State.bankAdvance_keeps h
    · try extract_lets pos first
      split
      rename_i e1
      have h1 := Keeps.of_eq e1 (State.writeMem_keeps _ _ _ h)
      split
      rename_i u c e2
      have h2 : Keeps s u := by
        split at e2
        · cases e2; exact h1
        · exact Keeps.of_eq e2 (State.writeMem_keeps _ _ _ h1)
      split
      · exact State.abandonLevel_keeps _ (State.bnkErr_keeps _ _ h2)
      · exact State.bankAdvance_keeps (State.bump_keeps _ _ (Keeps.fields h2))

theorem sendSegs_keeps {s t : State} {f : State → Nat → List Byte → State} (a1 a2 a3) (hf : ∀ u o b, Keeps u (f u o b))
    (h : Keeps s t) : Keeps s (sendSegs f a1 a2 a3 t) := by
  fun_induction sendSegs f a1 a2 a3 t with
  | case1 => exact h
  | case2 => exact h
  | case3 _ _ _ _ _ ih => exact ih (h.trans (hf _ _ _))

theorem State.sendPairSegs_keeps {s t : State} (a1) (a2) (a3)
    (h : Keeps s t) : Keeps s (State.sendPairSegs t a1 a2 a3) := by
  unfold State.sendPairSegs
  repeat' (with_reducible first
      | exact h | exact Keeps.rfl | apply sendSegs_keeps | apply State.sendPair_keeps | intro _ _ | intro _)

theorem State.startBank_keeps {s t : State} (a1) (a2) (a3) (a4) (a5)
    (h : Keeps s t) : Keeps s (State.startBank t a1 a2 a3 a4 a5) := by
  unfold State.startBank
  dsimp only
  repeat' (with_reducible first
      | exact h | apply State.bankParts_keeps | apply State.endBank_keeps | apply State.put_keeps
      | apply State.bump_keeps | apply State.sendPairSegs_keeps | apply State.ringWrite_keeps
      | refine Keeps.of_eq ‹_› ?_ | fail_if_no_progress apply Keeps.fields | apply Keeps.ite | split)

theorem bankWork_keeps {s t : State} (a1) (h : Keeps s t) : Keeps s (bankWork t a1) := by
  unfold bankWork
  dsimp only
  repeat' (with_reducible first
      | exact h | apply State.bankReply_keeps | apply State.bnkErr_keeps | apply State.startBank_keeps
      | apply Keeps.ite)

theorem execBank_keeps {s t : State} (a1) (a2) (h : Keeps s t) : KeepsO s (execBank a1 a2 t) := by
  unfold execBank
  repeat' (with_reducible first
      | exact h | exact Keeps.rfl | apply State.hostCommand_keeps | apply bankWork_keeps | apply Keeps.next | intro _ _)

theorem execAutomaticBank_keeps {s t : State} (h : Keeps s t) : KeepsO s (execAutomaticBank t) := by
  unfold execAutomaticBank
  dsimp only
  repeat' (with_reducible first
      | exact h | apply State.bump_keeps | apply State.raise_keeps | apply State.bnkErr_keeps
      | apply State.startBank_keeps | fail_if_no_progress apply Keeps.fields | apply Keeps.next | split)

theorem State.setRcvSlot_keeps {s t : State} (a1) (a2) (h : Keeps s t) : Keeps s (State.setRcvSlot t a1 a2) := by
  unfold State.setRcvSlot
  dsimp only
  repeat' (with_reducible first | exact h | fail_if_no_progress apply Keeps.fields | apply Keeps.ite)

theorem State.fillRcv_keeps {s t : State} (a1) (h : Keeps s t) : Keeps s (State.fillRcv t a1) := by
  unfold State.fillRcv
  dsimp only
  repeat' (with_reducible first | exact h | fail_if_no_progress apply Keeps.fields)

theorem State.beginRcv_keeps {s t : State} (h : Keeps s t) : Keeps s (State.beginRcv t) := by
  unfold State.beginRcv
  dsimp only
  repeat' (with_reducible first
      | exact h | apply State.writeMem_keeps | apply State.fillRcv_keeps | apply State.setRcvSlot_keeps | split)

theorem State.storeRcv_keeps {s t : State} (a1) (a2) (h : Keeps s t) : Keeps s (State.storeRcv t a1 a2) := by
  unfold State.storeRcv
  dsimp only
  repeat' (with_reducible first | exact h | apply State.fillRcv_keeps | apply State.writeMem_keeps | apply Keeps.ite | split)

theorem State.takeSegment_keeps {s t : State} (a1) (h : Keeps s t) : Keeps s (State.takeSegment t a1) := by
  unfold State.takeSegment
  dsimp only
  repeat' (with_reducible first
      | exact h | apply State.storeRcv_keeps | apply State.beginRcv_keeps | apply State.fillRcv_keeps
      | apply State.setRcvSlot_keeps | apply Keeps.ite | split)

theorem State.serveBanks_keeps {s t : State} {f : State → Nat → Nat → List Byte → State}
    (hf : ∀ u n o b, Keeps u (f u n o b)) (h : Keeps s t) : Keeps s (t.serveBanks f) := by
  unfold State.serveBanks
  extract_lets one
  have key : ∀ u i, Keeps u (one u i) := by
    intro u i
    dsimp only [one]
    split
    · exact Keeps.rfl
    · rename_i x _
      have hr : Keeps u (u.readMem asReceiver (u.rcvSlotAt i) (x.header + 256)).1 := State.readMem_keeps _ _ _ Keeps.rfl
      split
      · exact hr
      · exact (sendSegs_keeps _ _ _ (fun _ _ _ => hf _ _ _ _) hr).trans (hf _ _ _ _)
  exact ((h.trans (key _ _)).trans (key _ _)).trans (hf _ _ _ _)

/-! ### Rekindle -/

theorem State.setRekindle_keeps {s t : State} (a1) (h : Keeps s t) : Keeps s (State.setRekindle t a1) := by
  unfold State.setRekindle
  dsimp only
  repeat' (with_reducible first | exact h | fail_if_no_progress apply Keeps.fields)

theorem State.askStore_keeps {s t : State} (h : Keeps s t) : Keeps s (State.askStore t) := by
  unfold State.askStore
  repeat' (with_reducible first | exact h | apply State.askHost_keeps | apply Keeps.ite)

theorem State.beginStore_keeps {s t : State} (a1) (a2) (h : Keeps s t) : Keeps s (State.beginStore t a1 a2) := by
  unfold State.beginStore
  dsimp only
  repeat' (with_reducible first
      | exact h | apply State.askStore_keeps | apply State.put_keeps | apply State.setRekindle_keeps)

theorem State.noteFormat_keeps {s t : State} (a1) (a2) (h : Keeps s t) : Keeps s (State.noteFormat t a1 a2) := by
  unfold State.noteFormat
  repeat' (with_reducible first | exact h | apply State.bnkErr_keeps | split)

theorem State.rekindleIdle_keeps {s t : State} (h : Keeps s t) : Keeps s (State.rekindleIdle t) := by
  unfold State.rekindleIdle
  repeat' (with_reducible first | exact h | apply State.put_keeps | apply State.setRekindle_keeps)

theorem State.rekindleFailed_keeps {s t : State} (a1) (a2) (h : Keeps s t) : Keeps s (State.rekindleFailed t a1 a2) := by
  unfold State.rekindleFailed
  repeat' (with_reducible first | exact h | apply State.bankReply_keeps | apply State.rekindleIdle_keeps)

theorem State.setReference_keeps {s t : State} (a1) (a2) (h : Keeps s t) : Keeps s (State.setReference t a1 a2) := by
  unfold State.setReference
  dsimp only
  repeat' (with_reducible first
      | exact h | apply State.put_keeps | fail_if_no_progress apply Keeps.fields | apply Keeps.ite | split)

theorem State.setTrial_keeps {s t : State} (a1) (a2) (a3) (a4)
    (h : Keeps s t) : Keeps s (State.setTrial t a1 a2 a3 a4) := by
  unfold State.setTrial
  dsimp only
  repeat' (with_reducible first | exact h | apply State.put_keeps | fail_if_no_progress apply Keeps.fields | apply Keeps.ite)

theorem State.writeRanges_keeps {s t : State} (a1) (a2) (a3)
    (h : Keeps s t) : Keeps s (State.writeRanges a1 a2 a3 t).1 := by
  fun_induction State.writeRanges a1 a2 a3 t <;> (try dsimp only) <;> repeat' (with_reducible first
      | exact h | refine ‹_ → _› ?_ | apply State.writeMem_keeps | refine Keeps.of_eq ‹_› ?_)

theorem State.writeShards_keeps {s t : State} (a1) (a2) (a3)
    (h : Keeps s t) : Keeps s (State.writeShards a1 a2 a3 t).1 := by
  fun_induction State.writeShards a1 a2 a3 t <;> (try dsimp only) <;> repeat' (with_reducible first
      | exact h | refine ‹_ → _› ?_ | apply State.writeRanges_keeps | refine Keeps.of_eq ‹_› ?_)

theorem State.restoreStep_keeps {s t : State} (a1) (h : Keeps s t) : Keeps s (State.restoreStep t a1) := by
  unfold State.restoreStep
  dsimp only
  repeat' (with_reducible first
      | exact h | apply State.put_keeps | apply State.loadBind_keeps | apply State.unbind_keeps
      | apply State.setPrepared_keeps | apply Keeps.ite)

theorem State.restoreBooks_keeps {s t : State} (a1) (h : Keeps s t) : Keeps s (State.restoreBooks t a1) := by
  unfold State.restoreBooks
  dsimp only
  repeat' (with_reducible first | exact h | exact Keeps.rfl | apply State.setTable_keeps | apply Keeps.foldl | intro _ _)

theorem State.restorePromo_keeps {s t : State} (a1) (h : Keeps s t) : Keeps s (State.restorePromo t a1) := by
  unfold State.restorePromo
  dsimp only
  repeat' (with_reducible first
      | exact h | exact Keeps.rfl | apply State.setPromo_keeps | fail_if_no_progress apply Keeps.fields
      | apply Keeps.foldl | intro _ _)

theorem State.restoreKx1_keeps {s t : State} (a1) (a2) (h : Keeps s t) : Keeps s (State.restoreKx1 t a1 a2) := by
  unfold State.restoreKx1
  dsimp only
  repeat' (with_reducible first
      | exact h | apply State.put_keeps | apply State.loadBind_keeps | fail_if_no_progress apply Keeps.fields
      | apply Keeps.ite)

theorem State.restore_keeps {s t : State} (a1) (h : Keeps s t) : Keeps s (State.restore t a1).1 := by
  unfold State.restore
  dsimp only
  repeat' (with_reducible first
      | exact h | apply State.writeShards_keeps | apply State.enter_keeps | apply State.restoreStep_keeps
      | apply State.restoreBooks_keeps | apply State.restorePromo_keeps | apply State.restoreKx1_keeps
      | apply State.clearRuns_keeps | fail_if_no_progress apply Keeps.fields | apply Keeps.ite | split)

theorem State.rekindleDone_keeps {s t : State} (a1) (a2) (h : Keeps s t) : Keeps s (State.rekindleDone t a1 a2) := by
  unfold State.rekindleDone
  dsimp only
  repeat' (with_reducible first
      | exact h | apply State.bankReply_keeps | apply State.rekindleIdle_keeps | apply State.auditAfter_keeps)

theorem State.tellAdopt_keeps {s t : State} (a1) (a2) (a3) (h : Keeps s t) : Keeps s (State.tellAdopt t a1 a2 a3) := by
  unfold State.tellAdopt
  dsimp only
  repeat' (with_reducible first
      | exact h | apply State.rankUpdate_keeps | apply State.tellRanks_keeps | apply State.setRekindle_keeps)

theorem State.writePass_keeps {s t : State} (a1) (a2) (a3) (h : Keeps s t) : Keeps s (State.writePass t a1 a2 a3) := by
  unfold State.writePass
  dsimp only
  repeat' (with_reducible first
      | exact h | apply State.restore_keeps | apply State.put_keeps | apply State.rekindleFailed_keeps
      | apply State.rekindleDone_keeps | apply State.tellAdopt_keeps | fail_if_no_progress apply Keeps.fields
      | apply Keeps.ite | split)

theorem State.rekindleSelect_keeps {s t : State} (a1) (h : Keeps s t) : Keeps s (State.rekindleSelect t a1) := by
  unfold State.rekindleSelect
  dsimp only
  repeat' (with_reducible first
      | exact h | exact Keeps.rfl | apply State.noteFormat_keeps | apply State.raise_keeps
      | apply State.rekindleFailed_keeps | apply State.endTrial_keeps | apply State.setReference_keeps
      | apply State.setTrial_keeps | apply State.beginStore_keeps | apply State.writePass_keeps | apply Keeps.foldl
      | apply Keeps.ite | split | intro _ _)

theorem State.afterPeer_keeps {s t : State} (a1) (h : Keeps s t) : Keeps s (State.afterPeer t a1) := by
  unfold State.afterPeer
  dsimp only
  repeat' (with_reducible first
      | exact h | apply State.beginStore_keeps | apply State.rekindleSelect_keeps | apply Keeps.ite)

theorem State.beginRekindle_keeps {s t : State} (a1) {f} (hf : ∀ g, f = some g → ∀ u, Keeps u (g u)) (h : Keeps s t) :
    Keeps s (t.beginRekindle a1 f) := by
  unfold State.beginRekindle
  dsimp only
  split
  · refine Keeps.trans ?_ (hf _ rfl _)
    repeat' (with_reducible first | exact h | apply State.setRekindle_keeps | apply State.put_keeps | apply Keeps.fields)
  · repeat' (with_reducible first | exact h | apply State.afterPeer_keeps | apply State.put_keeps | apply Keeps.fields)

theorem rekindleWork_keeps {s t : State} (a1) (h : Keeps s t) : Keeps s (rekindleWork t a1) := by
  unfold rekindleWork
  dsimp only
  repeat' (with_reducible first
      | exact h | apply State.beginRekindle_keeps | apply State.bankReply_keeps | apply State.bnkErr_keeps
      | apply State.endTrial_keeps | apply Keeps.ite | split)
  all_goals (intro g e u; first
      | (cases e; done) | (injection e with e; subst e; exact State.sendPair_keeps _ _ _ _ Keeps.rfl))

theorem execRekindle_keeps {s t : State} (a1) (a2) (h : Keeps s t) : KeepsO s (execRekindle a1 a2 t) := by
  unfold execRekindle
  repeat' (with_reducible first
      | exact h | exact Keeps.rfl | apply State.hostCommand_keeps | apply rekindleWork_keeps | apply Keeps.next
      | intro _ _)

theorem adoptWork_keeps {s t : State} (a1) (h : Keeps s t) : Keeps s (adoptWork t a1) := by
  unfold adoptWork
  dsimp only
  repeat' (with_reducible first
      | exact h | apply State.beginRekindle_keeps | apply State.bankReply_keeps | apply State.bnkErr_keeps
      | apply State.endTrial_keeps | apply Keeps.ite | split)
  all_goals (intro g e u; first
      | (cases e; done) | (injection e with e; subst e; exact State.sendTo_keeps _ _ _ _ _ Keeps.rfl))

theorem execAdopt_keeps {s t : State} (a1) (a2) (h : Keeps s t) : KeepsO s (execAdopt a1 a2 t) := by
  unfold execAdopt
  repeat' (with_reducible first
      | exact h | exact Keeps.rfl | apply State.hostCommand_keeps | apply adoptWork_keeps | apply Keeps.next
      | intro _ _)

theorem State.tellAdvance_keeps {s t : State} (h : Keeps s t) : Keeps s (State.tellAdvance t) := by
  unfold State.tellAdvance
  repeat' (with_reducible first | exact h | apply State.rekindleDone_keeps | apply Keeps.ite | split)

theorem State.peerGone_keeps {s t : State} (h : Keeps s t) : Keeps s (State.peerGone t) := by
  unfold State.peerGone
  repeat' (with_reducible first | exact h | apply State.afterPeer_keeps | apply Keeps.ite | split)

theorem State.takeBankAnswer_keeps {s t : State} (a1) (h : Keeps s t) : Keeps s (State.takeBankAnswer t a1) := by
  unfold State.takeBankAnswer
  dsimp only
  repeat' (with_reducible first
      | exact h | apply State.setRekindle_keeps | apply State.afterPeer_keeps | apply Keeps.ite | split)

theorem State.storeGone_keeps {s t : State} (h : Keeps s t) : Keeps s (State.storeGone t) := by
  unfold State.storeGone
  repeat' (with_reducible first
      | exact h | apply State.rekindleSelect_keeps | apply State.bnkErr_keeps | apply State.writePass_keeps
      | apply Keeps.ite | split)

theorem execStoreStall_keeps {s t : State} (h : Keeps s t) : KeepsO s (execStoreStall t) := by
  unfold execStoreStall
  dsimp only
  repeat' (with_reducible first
      | exact h | apply State.abandonLevel_keeps | apply State.bnkErr_keeps | apply State.storeGone_keeps
      | apply Keeps.next | split)

theorem execBnkStoreHostCountWrite_keeps {s t : State} (a1) (a2)
    (h : Keeps s t) : KeepsO s (execBnkStoreHostCountWrite a1 a2 t) := by
  unfold execBnkStoreHostCountWrite
  dsimp only
  repeat' (with_reducible first
      | exact h | apply State.put_keeps | apply State.ringWrite_keeps | apply State.askStore_keeps
      | fail_if_no_progress apply Keeps.fields | apply Keeps.next | split)

theorem State.storeAdvance_keeps {s t : State} (a1) (h : Keeps s t) : Keeps s (State.storeAdvance t a1) := by
  unfold State.storeAdvance
  repeat' (with_reducible first
      | exact h | apply State.askStore_keeps | apply State.setRekindle_keeps | apply State.writePass_keeps
      | apply State.rekindleSelect_keeps | apply Keeps.ite | split)

theorem State.takeStore_keeps {s t : State} (a1) (h : Keeps s t) : Keeps s (State.takeStore t a1) := by
  unfold State.takeStore
  dsimp only
  repeat' (with_reducible first
      | exact h | apply State.readMem_keeps | apply State.storeAdvance_keeps | apply State.bump_keeps | apply Keeps.ite
      | split)

/-! ### LinkCmds -/

theorem execColl_keeps {s t : State} (a1) (a2) (h : Keeps s t) : KeepsO s (execColl a1 a2 t) := by
  unfold execColl
  repeat' (with_reducible first
      | exact h | exact Keeps.rfl | apply State.runOp_keeps | apply State.startColl_keeps | intro _ _)

theorem execCollectiveTimeout_keeps {s t : State} (a1) (h : Keeps s t) : KeepsO s (execCollectiveTimeout a1 t) := by
  unfold execCollectiveTimeout
  repeat' (with_reducible first
      | exact h | apply State.progress_keeps | apply State.failColl_keeps | apply State.veto_keeps | apply Keeps.next
      | split)

theorem State.rx_keeps {s t : State} (a1 a2 a3) {f} (hf : ∀ u, Keeps u (f u)) (h : Keeps s t) :
    KeepsO s (t.rx a1 a2 a3 f) :=
  Keeps.next (State.progress_keeps (State.tellAdvance_keeps (State.bankAdvance_keeps (State.receive_keeps _ _ _ hf h))))

theorem execRxData_keeps {s t : State} (a1) (a2) (h : Keeps s t) : KeepsO s (execRxData a1 a2 t) := by
  unfold execRxData
  repeat' (with_reducible first | exact h | exact Keeps.rfl | apply State.rx_keeps | apply State.takeData_keeps | intro _)

theorem execRxVoid_keeps {s t : State} (a1) (a2) (h : Keeps s t) : KeepsO s (execRxVoid a1 a2 t) := by
  unfold execRxVoid
  repeat' (with_reducible first | exact h | exact Keeps.rfl | apply State.rx_keeps | apply State.takeVoid_keeps | intro _)

theorem execRxAck_keeps {s t : State} (a1) (a2) (h : Keeps s t) : KeepsO s (execRxAck a1 a2 t) := by
  unfold execRxAck
  repeat' (with_reducible first | exact h | exact Keeps.rfl | apply State.rx_keeps | intro _)

theorem execRxNak_keeps {s t : State} (a1) (a2) (h : Keeps s t) : KeepsO s (execRxNak a1 a2 t) := by
  unfold execRxNak
  repeat' (with_reducible first | exact h | exact Keeps.rfl | apply State.rx_keeps | apply State.resend_keeps | intro _)

theorem State.failTransfers_keeps {s t : State} (a1) (h : Keeps s t) : Keeps s (State.failTransfers t a1) := by
  unfold State.failTransfers
  repeat' (with_reducible first | exact h | exact Keeps.rfl | apply State.failColl_keeps | apply Keeps.foldl | intro _ _)

theorem State.showPairPorts_keeps {s t : State} (h : Keeps s t) : Keeps s (State.showPairPorts t) := by
  unfold State.showPairPorts
  repeat' (with_reducible first | exact h | apply State.put_keeps)

theorem State.pairPortGone_keeps {s t : State} (a1) (h : Keeps s t) : Keeps s (State.pairPortGone t a1) := by
  unfold State.pairPortGone
  dsimp only
  repeat' (with_reducible first
      | exact h | apply State.showPairPorts_keeps | apply State.abandonLevel_keeps | apply State.veto_keeps
      | apply State.put_keeps | apply State.peerGone_keeps | apply Keeps.ite | split)

theorem State.losePort_keeps {s t : State} (a1) (a2) (h : Keeps s t) : Keeps s (State.losePort t a1 a2) := by
  unfold State.losePort
  dsimp only
  repeat' (with_reducible first
      | exact h | apply State.raise_keeps | apply State.put_keeps | apply State.failTransfers_keeps
      | apply State.veto_keeps | apply State.setPort_keeps | apply State.peerGone_keeps | apply State.pairPortGone_keeps
      | apply Keeps.ite | split)

theorem State.pairIdentity_keeps {s t : State} (a1) (h : Keeps s t) : Keeps s (State.pairIdentity t a1) := by
  unfold State.pairIdentity
  dsimp only
  repeat' (with_reducible first | exact h | apply State.put_keeps | fail_if_no_progress apply Keeps.fields)

theorem State.takeHello_keeps {s t : State} (a1) (a2) (h : Keeps s t) : Keeps s (State.takeHello t a1 a2) := by
  unfold State.takeHello
  dsimp only
  repeat' (with_reducible first
      | exact h | apply State.put_keeps | apply State.losePort_keeps | apply State.odnErr_keeps
      | apply State.pairIdentity_keeps | apply Keeps.ite | split)

theorem execRxHello_keeps {s t : State} (a1) (a2) (h : Keeps s t) : KeepsO s (execRxHello a1 a2 t) := by
  unfold execRxHello
  repeat' (with_reducible first | exact h | exact Keeps.rfl | apply State.rx_keeps | apply State.takeHello_keeps | intro _)

theorem execRxRankupd_keeps {s t : State} (a1) (a2) (h : Keeps s t) : KeepsO s (execRxRankupd a1 a2 t) := by
  unfold execRxRankupd
  dsimp only
  repeat' (with_reducible first
      | exact h | exact Keeps.rfl | apply State.rx_keeps | apply State.veto_keeps | apply State.rankUpdate_keeps
      | apply State.odnErr_keeps | apply Keeps.ite | split | intro _)

theorem execRxBankseg_keeps {s t : State} (a1) (a2) (h : Keeps s t) : KeepsO s (execRxBankseg a1 a2 t) := by
  unfold execRxBankseg
  repeat' (with_reducible first
      | exact h | exact Keeps.rfl | apply State.rx_keeps | apply State.takeSegment_keeps | apply State.serveBanks_keeps
      | apply State.sendPair_keeps | apply State.sendTo_keeps | apply State.takeBankAnswer_keeps | split | intro _ _
      | intro _)

theorem execRxDigest_keeps {s t : State} (a1) (a2) (h : Keeps s t) : KeepsO s (execRxDigest a1 a2 t) := by
  unfold execRxDigest
  dsimp only
  repeat' (with_reducible first
      | exact h | exact Keeps.rfl | apply State.rx_keeps | apply State.compareDigests_keeps
      | fail_if_no_progress apply Keeps.fields | intro _)

theorem execRxIdle_keeps {s t : State} (a1) (a2) (h : Keeps s t) : KeepsO s (execRxIdle a1 a2 t) := by
  unfold execRxIdle
  dsimp only
  repeat' (with_reducible first
      | exact h | exact Keeps.rfl | apply State.rx_keeps | fail_if_no_progress apply Keeps.fields | split | intro _)

theorem execRxReady_keeps {s t : State} (a1) (a2) (h : Keeps s t) : KeepsO s (execRxReady a1 a2 t) := by
  unfold execRxReady
  repeat' (with_reducible first | exact h | exact Keeps.rfl | apply State.rx_keeps | apply State.takeReady_keeps | intro _)

theorem execIdleSend_keeps {s t : State} (a1) (h : Keeps s t) : KeepsO s (execIdleSend a1 t) := by
  unfold execIdleSend
  repeat' (with_reducible first | exact h | apply State.sendPlain_keeps | apply Keeps.next | split)

theorem execAckTimeout_keeps {s t : State} (a1) (h : Keeps s t) : KeepsO s (execAckTimeout a1 t) := by
  unfold execAckTimeout
  repeat' (with_reducible first | exact h | apply State.resend_keeps | apply Keeps.next | split)

theorem execPortLost_keeps {s t : State} (a1) (a2) (h : Keeps s t) : KeepsO s (execPortLost a1 a2 t) := by
  unfold execPortLost
  repeat' (with_reducible first
      | exact h | apply State.progress_keeps | apply State.losePort_keeps | apply Keeps.next | split)

theorem State.readRanks_keeps {s t : State} (h : Keeps s t) : Keeps s (State.readRanks t).1 := by
  unfold State.readRanks
  dsimp only
  repeat' (with_reducible first | exact h | apply State.readMem_keeps | split)

theorem State.dropTable_keeps {s t : State} (h : Keeps s t) : Keeps s (State.dropTable t) := by
  unfold State.dropTable
  dsimp only
  repeat' (with_reducible first | exact h | apply State.put_keeps | fail_if_no_progress apply Keeps.fields)

theorem State.trainFailed_keeps {s t : State} (h : Keeps s t) : Keeps s (State.trainFailed t) := by
  unfold State.trainFailed
  repeat' (with_reducible first | exact h | apply State.odnErr_keeps | apply State.put_keeps)

theorem State.sendHello_keeps {s t : State} (a1) (a2) (a3) (h : Keeps s t) : Keeps s (State.sendHello t a1 a2 a3) := by
  unfold State.sendHello
  repeat' (with_reducible first | exact h | apply State.sendPlain_keeps)

theorem State.portTrained_keeps {s t : State} (a1) (h : Keeps s t) : Keeps s (State.portTrained t a1) := by
  unfold State.portTrained
  repeat' (with_reducible first | exact h | apply State.put_keeps | apply State.setPort_keeps)

theorem State.trainPort_keeps {s t : State} (a1) (a2) (a3) (a4)
    (h : Keeps s t) : Keeps s (State.trainPort t a1 a2 a3 a4) := by
  unfold State.trainPort
  dsimp only
  repeat' (with_reducible first
      | exact h | apply State.put_keeps | apply State.sendHello_keeps | apply State.portTrained_keeps | apply Keeps.ite
      | split)

theorem State.installTableOf_keeps {s t : State} (a1) (a2) (h : Keeps s t) : Keeps s (State.installTableOf t a1 a2) := by
  unfold State.installTableOf
  dsimp only
  repeat' (with_reducible first
      | exact h | apply State.put_keeps | apply State.raise_keeps | fail_if_no_progress apply Keeps.fields)

theorem execFabricTrain_keeps {s t : State} (a1) (h : Keeps s t) : KeepsO s (execFabricTrain a1 t) := by
  unfold execFabricTrain
  repeat' (with_reducible first
      | exact h | exact Keeps.rfl | apply State.odnErr_keeps | apply State.readRanks_keeps | apply State.dropTable_keeps
      | apply State.trainFailed_keeps | apply State.trainPort_keeps | apply State.installTableOf_keeps
      | refine Keeps.of_eq ‹_› ?_ | apply Keeps.foldl | extract_lets | split | apply Keeps.next | intro _ _)

theorem State.retrainPort_keeps {s t : State} (a1) (h : Keeps s t) : Keeps s (State.retrainPort t a1) := by
  unfold State.retrainPort
  dsimp only
  repeat' (with_reducible first
      | exact h | apply State.losePort_keeps | apply State.put_keeps | apply State.portTrained_keeps
      | apply State.sendHello_keeps | apply State.showPairPorts_keeps | apply Keeps.ite | split)

theorem execPortRetrain_keeps {s t : State} (a1) (a2) (h : Keeps s t) : KeepsO s (execPortRetrain a1 a2 t) := by
  unfold execPortRetrain
  dsimp only
  repeat' (with_reducible first
      | exact h | apply State.put_keeps | apply State.progress_keeps | apply State.retrainPort_keeps
      | apply State.losePort_keeps | apply Keeps.next | split)

theorem execRankDown_keeps {s t : State} (a1) (h : Keeps s t) : KeepsO s (execRankDown a1 t) := by
  unfold execRankDown
  dsimp only
  repeat' (with_reducible first
      | exact h | apply State.put_keeps | apply State.odnErr_keeps | apply State.rankUpdate_keeps
      | apply State.tellRanks_keeps | apply State.progress_keeps | apply State.veto_keeps | apply Keeps.ite
      | apply Keeps.next | split)

theorem State.writePairCtl_keeps {s t : State} (a1) (h : Keeps s t) : Keeps s (State.writePairCtl t a1) := by
  unfold State.writePairCtl
  dsimp only
  repeat' (with_reducible first | exact h | apply State.put_keeps | apply Keeps.ite)

theorem State.trainPair_keeps {s t : State} (a1) (h : Keeps s t) : Keeps s (State.trainPair t a1) := by
  unfold State.trainPair
  dsimp only
  repeat' (with_reducible first
      | exact h | exact Keeps.rfl | apply State.losePort_keeps | apply State.put_keeps | apply State.sendHello_keeps
      | apply State.portTrained_keeps | apply State.showPairPorts_keeps | apply State.pairIdentity_keeps
      | apply State.odnErr_keeps | fail_if_no_progress apply Keeps.fields | apply Keeps.foldl | apply Keeps.ite | split
      | intro _ _)

theorem execPairRetrain_keeps {s t : State} (a1) (a2) (h : Keeps s t) : KeepsO s (execPairRetrain a1 a2 t) := by
  unfold execPairRetrain
  dsimp only
  repeat' (with_reducible first
      | exact h | apply State.writePairCtl_keeps | apply State.progress_keeps | apply State.trainPair_keeps
      | apply Keeps.next | split)

theorem execPairModeRequest_keeps {s t : State} (a1) (h : Keeps s t) : KeepsO s (execPairModeRequest a1 t) := by
  unfold execPairModeRequest
  repeat' (with_reducible first | exact h | apply State.writePairCtl_keeps | apply Keeps.next)

theorem execCordPresenceChange_keeps {s t : State} (a1) (a2)
    (h : Keeps s t) : KeepsO s (execCordPresenceChange a1 a2 t) := by
  unfold execCordPresenceChange
  dsimp only
  repeat' (with_reducible first
      | exact h | apply State.put_keeps | apply State.progress_keeps | apply State.losePort_keeps
      | fail_if_no_progress apply Keeps.fields | apply Keeps.ite | apply Keeps.next | split)

/-! ### Quarantine -/

theorem State.faultStep_keeps {s t : State} (a1) (h : Keeps s t) : Keeps s (State.faultStep t a1) := by
  unfold State.faultStep
  repeat' (with_reducible first | exact h | apply State.tear_keeps | apply State.veto_keeps | apply Keeps.ite)

theorem State.setCause_keeps {s t : State} (a1) (a2) (h : Keeps s t) : Keeps s (State.setCause t a1 a2) := by
  unfold State.setCause
  repeat' (with_reducible first | exact h | apply State.put_keeps)

theorem State.mark_keeps {s t : State} (a1) (a2) (h : Keeps s t) : Keeps s (State.mark t a1 a2) := by
  unfold State.mark
  repeat' (with_reducible first | exact h | apply State.orInto_keeps | apply State.setCause_keeps | apply Keeps.ite)

theorem State.quarantine_keeps {s t : State} (a1) (a2) (h : Keeps s t) : Keeps s (State.quarantine t a1 a2) := by
  unfold State.quarantine
  repeat' (with_reducible first
      | exact h | exact Keeps.rfl | apply State.progress_keeps | apply State.faultStep_keeps | apply State.mark_keeps
      | apply Keeps.foldl | intro _ _)

theorem execKilnQuarantine_keeps {s t : State} (a1) (h : Keeps s t) : KeepsO s (execKilnQuarantine a1 t) := by
  unfold execKilnQuarantine
  repeat' (with_reducible first | exact h | apply State.quarantine_keeps | apply Keeps.next)

theorem execDieFault_keeps {s t : State} (a1) (h : Keeps s t) : KeepsO s (execDieFault a1 t) := by
  unfold execDieFault
  repeat' (with_reducible first | exact h | apply State.quarantine_keeps | apply Keeps.next)

theorem State.pwrErr_keeps {s t : State} (a1) (a2) (h : Keeps s t) : Keeps s (State.pwrErr t a1 a2) := by
  unfold State.pwrErr
  repeat' (with_reducible first | exact h | apply State.firstErr_keeps)

theorem execWatchdog_keeps {s t : State} (a1) (h : Keeps s t) : KeepsO s (execWatchdog a1 t) := by
  unfold execWatchdog
  repeat' (with_reducible first | exact h | apply State.quarantine_keeps | apply State.pwrErr_keeps | apply Keeps.next)

theorem State.logFailure_keeps {s t : State} (a1) (a2) (a3) (a4)
    (h : Keeps s t) : Keeps s (State.logFailure t a1 a2 a3 a4) := by
  unfold State.logFailure
  repeat' (with_reducible first | exact h | apply State.elog_keeps)

theorem State.dropMem_keeps {s t : State} (a1) (h : Keeps s t) : Keeps s (t.dropMem a1) :=
  ⟨h.pending, h.out, fun w => Memory.wf_filter (h.mem w) _, h.regs⟩

theorem State.dropRegs_keeps {s t : State} (a1) (h : Keeps s t) : Keeps s (t.dropRegs a1) :=
  ⟨h.pending, h.out, h.mem, fun w => filter_sorted (h.regs w) _⟩

theorem State.emptyKiln_keeps {s t : State} (a1) (h : Keeps s t) : Keeps s (State.emptyKiln t a1) := by
  unfold State.emptyKiln
  dsimp only
  repeat' (with_reducible first
      | exact h | apply State.dropMem_keeps | apply State.dropRegs_keeps | fail_if_no_progress apply Keeps.fields)

theorem State.dieOff_keeps {s t : State} (a1) (a2) (h : Keeps s t) : Keeps s (State.dieOff t a1 a2) := by
  unfold State.dieOff
  dsimp only
  repeat' (with_reducible first
      | exact h | exact Keeps.rfl | apply State.pwrErr_keeps | apply State.raise_keeps | apply State.emptyKiln_keeps
      | apply State.quarantine_keeps | fail_if_no_progress apply Keeps.fields | apply Keeps.foldl | intro _ _)

theorem execComputeRailFault_keeps {s t : State} (a1) (h : Keeps s t) : KeepsO s (execComputeRailFault a1 t) := by
  unfold execComputeRailFault
  repeat' (with_reducible first | exact h | apply State.dieOff_keeps | apply Keeps.next | split)

end Sys2Proof.Machine
end

