-- ==== Sys2Proof/Laws/KeepsHost.lean ====
section
/-! SUPPORT. What start-up, the host link, power, the mailbox and register accesses keep. One lemma for each operation, in the order of the definitions. -/

namespace Sys2Proof.Machine

/-! ### StartUp -/

theorem State.installBase_keeps {s t : State} (h : Keeps s t) : Keeps s (State.installBase t) := by
  unfold State.installBase
  repeat' (with_reducible first | exact h | fail_if_no_progress apply Keeps.fields)

theorem State.beginStep_keeps {s t : State} (a1) (h : Keeps s t) : Keeps s (State.beginStep t a1) := by
  unfold State.beginStep
  dsimp only
  repeat' (with_reducible first | exact h | apply State.put_keeps | fail_if_no_progress apply Keeps.fields)

theorem State.startFail_keeps {s t : State} (a1) (a2) (a3) (h : Keeps s t) : Keeps s (State.startFail t a1 a2 a3) := by
  unfold State.startFail
  repeat' (with_reducible first | exact h | apply State.logFailure_keeps | apply State.pwrErr_keeps)

theorem State.halt_keeps {s t : State} (a1) (a2) (h : Keeps s t) : Keeps s (State.halt t a1 a2) := by
  unfold State.halt
  dsimp only
  repeat' (with_reducible first
      | exact h | apply State.put_keeps | apply State.startFail_keeps | fail_if_no_progress apply Keeps.fields)

theorem State.applyPolicy_keeps {s t : State} (h : Keeps s t) : Keeps s (State.applyPolicy t) := by
  unfold State.applyPolicy
  dsimp only
  repeat' (with_reducible first | exact h | apply State.put_keeps | apply State.violation_keeps | apply Keeps.ite)

theorem State.readStraps_keeps {s t : State} (h : Keeps s t) : Keeps s (State.readStraps t) := by
  unfold State.readStraps
  dsimp only
  repeat' (with_reducible first | exact h | apply State.put_keeps)

theorem State.powerDies_keeps {s t : State} (h : Keeps s t) : Keeps s (State.powerDies t) := by
  unfold State.powerDies
  repeat' (with_reducible first
      | exact h | exact Keeps.rfl | apply State.logFailure_keeps | apply State.dieOff_keeps | apply Keeps.foldl
      | intro _ _)

theorem State.trainStack_keeps {s t : State} (a1) (h : Keeps s t) : Keeps s (State.trainStack t a1) := by
  unfold State.trainStack
  dsimp only
  repeat' (with_reducible first
      | exact h | apply State.orInto_keeps | apply State.put_keeps | apply State.mark_keeps
      | apply State.startFail_keeps | apply Keeps.ite)

theorem State.awaitPerst_keeps {s t : State} (h : Keeps s t) : Keeps s (State.awaitPerst t) := by
  unfold State.awaitPerst
  dsimp only
  repeat' (with_reducible first
      | exact h | apply State.beginStep_keeps | fail_if_no_progress apply Keeps.fields | apply Keeps.ite)

theorem State.showCords_keeps {s t : State} (h : Keeps s t) : Keeps s (State.showCords t) := by
  unfold State.showCords
  dsimp only
  repeat' (with_reducible first | exact h | exact Keeps.rfl | apply State.put_keeps | apply Keeps.foldl | intro _ _)

theorem State.peatAbsent_keeps {s t : State} (a1) (a2) (h : Keeps s t) : Keeps s (State.peatAbsent t a1 a2) := by
  unfold State.peatAbsent
  dsimp only
  repeat' (with_reducible first
      | exact h | exact Keeps.rfl | apply State.put_keeps | apply State.startFail_keeps | apply Keeps.foldl
      | apply Keeps.ite | intro _ _)

theorem State.peatUp_keeps {s t : State} (a1) (a2) (a3) (h : Keeps s t) : Keeps s (State.peatUp t a1 a2 a3) := by
  unfold State.peatUp
  dsimp only
  repeat' (with_reducible first | exact h | exact Keeps.rfl | apply State.put_keeps | apply Keeps.foldl | intro _ _)

theorem State.trainPeat_keeps {s t : State} (h : Keeps s t) : Keeps s (State.trainPeat t) := by
  unfold State.trainPeat
  dsimp only
  repeat' (with_reducible first
      | exact h | exact Keeps.rfl | apply State.put_keeps | apply State.peatAbsent_keeps | apply State.peatUp_keeps
      | apply Keeps.foldl | apply Keeps.ite | split | intro _ _)

theorem State.startMemory_keeps {s t : State} (h : Keeps s t) : Keeps s (State.startMemory t) := by
  unfold State.startMemory
  dsimp only
  repeat' (with_reducible first
      | exact h | exact Keeps.rfl | apply State.trainStack_keeps | apply State.beginStep_keeps | apply State.halt_keeps
      | apply State.awaitPerst_keeps | apply State.showCords_keeps | apply State.installBase_keeps
      | apply State.trainPeat_keeps | apply Keeps.foldl | apply Keeps.ite | intro _ _)

theorem State.testKilns_keeps {s t : State} (a1) (a2) (h : Keeps s t) : Keeps s (State.testKilns t a1 a2) := by
  unfold State.testKilns
  dsimp only
  repeat' (with_reducible first
      | exact h | exact Keeps.rfl | apply State.mark_keeps | apply State.startFail_keeps | apply Keeps.foldl
      | intro _ _)

theorem State.startDies_keeps {s t : State} (h : Keeps s t) : Keeps s (State.startDies t) := by
  unfold State.startDies
  dsimp only
  repeat' (with_reducible first
      | exact h | apply State.beginStep_keeps | apply State.halt_keeps | apply State.powerDies_keeps
      | apply State.startMemory_keeps | apply State.testKilns_keeps | fail_if_no_progress apply Keeps.fields
      | apply Keeps.ite)

theorem State.startFirmware_keeps {s t : State} (h : Keeps s t) : Keeps s (State.startFirmware t) := by
  unfold State.startFirmware
  dsimp only
  repeat' (with_reducible first | exact h | apply State.put_keeps | fail_if_no_progress apply Keeps.fields)

theorem State.enterRecovery_keeps {s t : State} (h : Keeps s t) : Keeps s (State.enterRecovery t) := by
  unfold State.enterRecovery
  dsimp only
  repeat' (with_reducible first
      | exact h | apply State.put_keeps | apply State.startFail_keeps | fail_if_no_progress apply Keeps.fields)

theorem State.startUp_keeps {s t : State} (h : Keeps s t) : Keeps s (State.startUp t) := by
  unfold State.startUp
  dsimp only
  repeat' (with_reducible first
      | exact h | apply State.beginStep_keeps | apply State.halt_keeps | apply State.applyPolicy_keeps
      | apply State.readStraps_keeps | apply State.startDies_keeps | apply State.startFirmware_keeps
      | apply State.enterRecovery_keeps | fail_if_no_progress apply Keeps.fields | apply Keeps.ite)

theorem State.drawNonce_keeps {s t : State} (h : Keeps s t) : Keeps s (State.drawNonce t) := by
  unfold State.drawNonce
  repeat' (with_reducible first
      | exact h | exact Keeps.rfl | apply State.nextRand_keeps | apply State.put_keeps | apply Keeps.foldl | intro _ _)

theorem execPerstRelease_keeps {s t : State} (h : Keeps s t) : KeepsO s (execPerstRelease t) := by
  unfold execPerstRelease
  dsimp only
  repeat' (with_reducible first
      | exact h | apply State.beginStep_keeps | fail_if_no_progress apply Keeps.fields | apply Keeps.next | split)

theorem State.enterHold_keeps {s t : State} (h : Keeps s t) : Keeps s (State.enterHold t) := by
  unfold State.enterHold
  dsimp only
  repeat' (with_reducible first | exact h | apply State.put_keeps | apply State.setLevel_keeps | apply Keeps.ite)

theorem State.towardTarget_keeps {s t : State} (a1) (h : Keeps s t) : Keeps s (State.towardTarget t a1) := by
  unfold State.towardTarget
  repeat' (with_reducible first
      | exact h | apply State.enterHold_keeps | apply State.settleIdle_keeps | apply State.put_keeps | apply Keeps.ite)

theorem State.becomeReady_keeps {s t : State} (h : Keeps s t) : Keeps s (State.becomeReady t) := by
  unfold State.becomeReady
  dsimp only
  repeat' (with_reducible first
      | exact h | apply State.put_keeps | apply State.beginStep_keeps | fail_if_no_progress apply Keeps.fields)

theorem State.startLinks_keeps {s t : State} (h : Keeps s t) : Keeps s (State.startLinks t) := by
  unfold State.startLinks
  dsimp only
  repeat' (with_reducible first
      | exact h | exact Keeps.rfl | apply State.beginStep_keeps | apply State.retrainPort_keeps
      | apply State.trainPair_keeps | apply State.startFail_keeps | apply Keeps.foldl | apply Keeps.ite | intro _ _)

theorem State.finishStart_keeps {s t : State} (h : Keeps s t) : Keeps s (State.finishStart t) := by
  unfold State.finishStart
  repeat' (with_reducible first
      | exact h | apply State.towardTarget_keeps | apply State.becomeReady_keeps | apply State.startLinks_keeps)

theorem execPcieLinkUp_keeps {s t : State} (a1) (a2) (h : Keeps s t) : KeepsO s (execPcieLinkUp a1 a2 t) := by
  unfold execPcieLinkUp
  dsimp only
  repeat' (with_reducible first
      | exact h | apply State.put_keeps | apply State.finishStart_keeps | fail_if_no_progress apply Keeps.fields
      | apply Keeps.ite | apply Keeps.next | split)

theorem execStartupStepTimeout_keeps {s t : State} (h : Keeps s t) : KeepsO s (execStartupStepTimeout t) := by
  unfold execStartupStepTimeout
  dsimp only
  repeat' (with_reducible first
      | exact h | apply State.halt_keeps | apply State.startFail_keeps | apply State.finishStart_keeps
      | fail_if_no_progress apply Keeps.fields | apply Keeps.ite | apply Keeps.next | split)

/-! ### HostIf -/

theorem State.ungrant_keeps {s t : State} (a1) (h : Keeps s t) : Keeps s (State.ungrant t a1) := by
  unfold State.ungrant
  dsimp only
  repeat' (with_reducible first | exact h | fail_if_no_progress apply Keeps.fields)

theorem State.hostRefused_keeps {s t : State} (a1) (h : Keeps s t) : Keeps s (State.hostRefused t a1) := by
  unfold State.hostRefused
  dsimp only
  repeat' (with_reducible first
      | exact h | apply State.settle_keeps | apply State.faultQueue_keeps | apply State.complete_keeps
      | apply State.memErr_keeps | apply State.opDone_keeps | apply State.accessFailed_keeps | apply State.ungrant_keeps
      | apply State.storeGone_keeps | split)

theorem State.recoveryAccess_keeps {s t : State} (a1) (a2) (h : Keeps s t) : Keeps s (State.recoveryAccess t a1 a2) := by
  unfold State.recoveryAccess
  repeat' (with_reducible first
      | exact h | apply State.linkTx_keeps | apply State.emit_keeps | apply State.linkRx_keeps
      | apply State.setBytes_keeps | apply Keeps.ite | split)

theorem State.bar4Read_keeps {s t : State} (a1) (h : Keeps s t) : Keeps s (State.bar4Read a1 t).1 := by
  fun_induction State.bar4Read a1 t <;> (try dsimp only) <;> repeat' (with_reducible first
      | exact h | refine ‹_ → _› ?_ | apply State.memErr_keeps | apply State.readMem_keeps | refine Keeps.of_eq ‹_› ?_)

theorem State.bar4Write_keeps {s t : State} (a1) (a2) (h : Keeps s t) : Keeps s (State.bar4Write a1 a2 t) := by
  fun_induction State.bar4Write a1 a2 t <;> repeat' (with_reducible first
      | exact h | refine ‹_ → _› ?_ | apply State.memErr_keeps | apply State.writeMem_keeps | refine Keeps.of_eq ‹_› ?_)

theorem execBar4Access_keeps {s t : State} (a1) (a2) (h : Keeps s t) : KeepsO s (execBar4Access a1 a2 t) := by
  unfold execBar4Access
  dsimp only
  repeat' (with_reducible first
      | exact h | apply State.recoveryAccess_keeps | apply State.bar4Read_keeps | apply State.linkTx_keeps
      | apply State.emit_keeps | apply State.bar4Write_keeps | apply State.linkRx_keeps | refine Keeps.of_eq ‹_› ?_
      | apply Keeps.next | split)

theorem State.sendPending_keeps {s t : State} (a1) (h : Keeps s t) : Keeps s (State.sendPending t a1) := by
  unfold State.sendPending
  dsimp only
  repeat' (with_reducible first
      | exact h | apply State.msix_keeps | fail_if_no_progress apply Keeps.fields | apply Keeps.ite)

theorem State.setVector_keeps {s t : State} (a1) (a2) (h : Keeps s t) : Keeps s (State.setVector t a1 a2) := by
  unfold State.setVector
  dsimp only
  repeat' (with_reducible first | exact h | apply State.sendPending_keeps | fail_if_no_progress apply Keeps.fields)

theorem State.sendAllPending_keeps {s t : State} (h : Keeps s t) : Keeps s (State.sendAllPending t) := by
  unfold State.sendAllPending
  repeat' (with_reducible first | exact h | exact Keeps.rfl | apply State.sendPending_keeps | apply Keeps.foldl | intro _ _)

theorem execMsixUnmask_keeps {s t : State} (a1) (h : Keeps s t) : KeepsO s (execMsixUnmask a1 t) := by
  unfold execMsixUnmask
  dsimp only
  repeat' (with_reducible first
      | exact h | apply State.setVector_keeps | apply State.sendAllPending_keeps
      | fail_if_no_progress apply Keeps.fields | apply Keeps.next | split)

theorem State.grant_keeps {s t : State} (a1) (h : Keeps s t) : Keeps s (State.grant t a1) := by
  unfold State.grant
  dsimp only
  repeat' (with_reducible first | exact h | fail_if_no_progress apply Keeps.fields)

theorem State.placeData_keeps {s t : State} (a1) (a2) (h : Keeps s t) : Keeps s (State.placeData t a1 a2) := by
  unfold State.placeData
  repeat' (with_reducible first | exact h | apply State.setBytes_keeps | apply Keeps.ite | split)

theorem commandWork_keeps {s t : State} (a1) (h : Keeps s t) : Keeps s (commandWork t a1) := by
  unfold commandWork
  repeat' (with_reducible first
      | exact h | apply loadWork_keeps | apply scanWork_keeps | apply copyWork_keeps | apply bindWork_keeps
      | apply tableLoadWork_keeps | split)

theorem State.copyAnswered_keeps {s t : State} (a1) (a2) (a3)
    (h : Keeps s t) : Keeps s (State.copyAnswered t a1 a2 a3) := by
  unfold State.copyAnswered
  dsimp only
  repeat' (with_reducible first
      | exact h | apply State.placeData_keeps | apply State.askHost_keeps | apply State.grant_keeps
      | apply State.copyOpWork_keeps | apply State.ungrant_keeps | apply Keeps.ite | split)

theorem State.hostGave_keeps {s t : State} (a1) (a2) (h : Keeps s t) : Keeps s (State.hostGave t a1 a2) := by
  unfold State.hostGave
  repeat' (with_reducible first
      | exact h | apply State.settle_keeps | apply State.grant_keeps | apply State.linkRx_keeps
      | apply State.placeData_keeps | apply commandWork_keeps | apply State.copyAnswered_keeps
      | apply State.takeChunk_keeps | apply State.takeStore_keeps | split)

theorem State.withoutFirst_keeps {s t : State} (h : Keeps s t) : Keeps s (State.withoutFirst t) := by
  unfold State.withoutFirst
  dsimp only
  repeat' (with_reducible first | exact h | fail_if_no_progress apply Keeps.fields)

theorem execHostLinkCompletion_keeps {s t : State} (a1) (h : Keeps s t) : KeepsO s (execHostLinkCompletion a1 t) := by
  unfold execHostLinkCompletion
  repeat' (with_reducible first
      | exact h | apply State.progress_keeps | apply State.hostGave_keeps | apply State.withoutFirst_keeps
      | apply State.hostRefused_keeps | apply State.emit_keeps | apply Keeps.next | split)

theorem State.resetSegments_keeps {s t : State} (a1) (h : Keeps s t) : Keeps s (State.resetSegments t a1) := by
  unfold State.resetSegments
  repeat' (with_reducible first | exact h | exact Keeps.rfl | apply State.put_keeps | apply Keeps.foldl | intro _ _)

theorem State.sizeBar4_keeps {s t : State} (a1) (h : Keeps s t) : Keeps s (State.sizeBar4 t a1) := by
  unfold State.sizeBar4
  repeat' (with_reducible first | exact h | apply State.resetSegments_keeps | apply State.put_keeps | apply Keeps.ite)

theorem execPcieConfigurationWrite_keeps {s t : State} (a1)
    (h : Keeps s t) : KeepsO s (execPcieConfigurationWrite a1 t) := by
  unfold execPcieConfigurationWrite
  dsimp only
  repeat' (with_reducible first
      | exact h | apply State.sendAllPending_keeps | apply State.sizeBar4_keeps | fail_if_no_progress apply Keeps.fields
      | apply Keeps.next | split)

/-! ### Attest -/

theorem State.doeReply_keeps {s t : State} (a1) (h : Keeps s t) : Keeps s (State.doeReply t a1) := by
  unfold State.doeReply
  dsimp only
  repeat' (with_reducible first
      | exact h | apply State.linkTx_keeps | apply State.emit_keeps | fail_if_no_progress apply Keeps.fields)

theorem execGetCerts_keeps {s t : State} (h : Keeps s t) : KeepsO s (execGetCerts t) := by
  unfold execGetCerts
  repeat' (with_reducible first | exact h | apply State.doeReply_keeps | apply Keeps.next | split)

theorem execGetReport_keeps {s t : State} (a1) (h : Keeps s t) : KeepsO s (execGetReport a1 t) := by
  unfold execGetReport
  dsimp only
  repeat' (with_reducible first
      | exact h | apply State.doeReply_keeps | fail_if_no_progress apply Keeps.fields | apply Keeps.next | split)

theorem execDoeDiscovery_keeps {s t : State} (a1) (h : Keeps s t) : KeepsO s (execDoeDiscovery a1 t) := by
  unfold execDoeDiscovery
  repeat' (with_reducible first | exact h | apply State.doeReply_keeps | apply Keeps.next | split)

theorem execDoeAbort_keeps {s t : State} (h : Keeps s t) : KeepsO s (execDoeAbort t) := by
  unfold execDoeAbort
  dsimp only
  repeat' (with_reducible first | exact h | fail_if_no_progress apply Keeps.fields | apply Keeps.next)

/-! ### Reset -/

theorem State.endWork_keeps {s t : State} (h : Keeps s t) : Keeps s (State.endWork t) := by
  unfold State.endWork
  dsimp only
  repeat' (with_reducible first
      | exact h | apply State.setLast_keeps | apply State.put_keeps | fail_if_no_progress apply Keeps.fields
      | apply Keeps.ite)

theorem State.resetRegs_keeps {s t : State} (a1 a2) (h : Keeps s t) : Keeps s (t.resetRegs a1 a2) := by
  refine ⟨h.pending, h.out, h.mem, fun w => filterMap_sorted (h.regs w) _ ?_⟩
  intro x y e
  repeat' (split at e)
  · cases e; rfl
  · cases e
  · dsimp only at e
    split at e
    · cases e
    · cases e; rfl

theorem State.blank_keeps {s t : State} (h : Keeps s t) : Keeps s t.blank :=
  ⟨h.pending, h.out, fun w => Memory.wf_filter (h.mem w) _, fun w => filter_sorted (h.regs w) _⟩

theorem State.restart_keeps {s t : State} (h : Keeps s t) : Keeps s (State.restart t) := by
  unfold State.restart
  dsimp only
  repeat' (with_reducible first
      | exact h | apply State.blank_keeps | apply State.releasePinsIf_keeps | apply State.startUp_keeps
      | apply State.drawNonce_keeps | fail_if_no_progress apply Keeps.fields)

theorem execPowerOnReset_keeps {s t : State} (h : Keeps s t) : KeepsO s (execPowerOnReset t) := by
  unfold execPowerOnReset
  repeat' (with_reducible first | exact h | apply State.restart_keeps | apply Keeps.next | split)

theorem State.moduleReset_keeps {s t : State} (h : Keeps s t) : Keeps s (State.moduleReset t) := by
  unfold State.moduleReset
  repeat' (with_reducible first | exact h | apply State.restart_keeps | apply State.endSessions_keeps)

theorem State.warmUnits_keeps {s t : State} (h : Keeps s t) : Keeps s (State.warmUnits t) := by
  unfold State.warmUnits
  dsimp only
  repeat' (with_reducible first | exact h | fail_if_no_progress apply Keeps.fields)

theorem State.emptyDies_keeps {s t : State} (h : Keeps s t) : Keeps s (State.emptyDies t) := by
  unfold State.emptyDies
  dsimp only
  repeat' (with_reducible first | exact h | apply State.dropMem_keeps | fail_if_no_progress apply Keeps.fields)

theorem State.warmTest_keeps {s t : State} (h : Keeps s t) : Keeps s (State.warmTest t) := by
  unfold State.warmTest
  repeat' (with_reducible first | exact h | apply State.testKilns_keeps | apply Keeps.ite)

theorem State.warmReset_keeps {s t : State} (h : Keeps s t) : Keeps s (State.warmReset t) := by
  unfold State.warmReset
  dsimp only
  repeat' (with_reducible first
      | exact h | apply State.releasePinsIf_keeps | apply State.endWork_keeps | apply State.endSessions_keeps
      | apply State.installBase_keeps | apply State.warmUnits_keeps | apply State.emptyDies_keeps
      | apply State.resetRegs_keeps | apply State.beginStep_keeps | apply State.drawNonce_keeps | apply State.halt_keeps
      | apply State.warmTest_keeps | apply State.put_keeps | apply Keeps.ite)

theorem State.askWarm_keeps {s t : State} (h : Keeps s t) : Keeps s (State.askWarm t) := by
  unfold State.askWarm
  repeat' (with_reducible first | exact h | apply State.pwrErr_keeps | apply State.warmReset_keeps | apply Keeps.ite)

theorem State.writePwrReset_keeps {s t : State} (a1) (h : Keeps s t) : Keeps s (State.writePwrReset t a1) := by
  unfold State.writePwrReset
  repeat' (with_reducible first
      | exact h | apply State.moduleReset_keeps | apply State.pwrErr_keeps | apply State.askWarm_keeps
      | apply Keeps.ite)

theorem execModuleReset_keeps {s t : State} (a1) (h : Keeps s t) : KeepsO s (execModuleReset a1 t) := by
  unfold execModuleReset
  repeat' (with_reducible first
      | exact h | apply State.moduleReset_keeps | apply State.writePwrReset_keeps | apply Keeps.next | split)

theorem execWarmReset_keeps {s t : State} (a1) (h : Keeps s t) : KeepsO s (execWarmReset a1 t) := by
  unfold execWarmReset
  repeat' (with_reducible first
      | exact h | apply State.askWarm_keeps | apply State.writePwrReset_keeps | apply Keeps.next | split)

theorem State.disableQueues_keeps {s t : State} (h : Keeps s t) : Keeps s (State.disableQueues t) := by
  unfold State.disableQueues
  dsimp only
  repeat' (with_reducible first
      | exact h | exact Keeps.rfl | apply State.put_keeps | apply Keeps.foldl | apply Keeps.ite | intro _ _)

theorem State.failRequests_keeps {s t : State} (h : Keeps s t) : Keeps s (State.failRequests t) := by
  unfold State.failRequests
  dsimp only
  repeat' (with_reducible first
      | exact h | exact Keeps.rfl | apply State.hostRefused_keeps | fail_if_no_progress apply Keeps.fields
      | apply Keeps.foldl | split | intro _ _)

theorem State.muteCommands_keeps {s t : State} (h : Keeps s t) : Keeps s (State.muteCommands t) := by
  unfold State.muteCommands
  dsimp only
  repeat' (with_reducible first | exact h | fail_if_no_progress apply Keeps.fields)

theorem State.resetHostInterface_keeps {s t : State} (h : Keeps s t) : Keeps s (State.resetHostInterface t) := by
  unfold State.resetHostInterface
  dsimp only
  repeat' (with_reducible first | exact h | apply State.dropRegs_keeps | fail_if_no_progress apply Keeps.fields)

theorem State.pcieReset_keeps {s t : State} (a1) (h : Keeps s t) : Keeps s (State.pcieReset t a1) := by
  unfold State.pcieReset
  dsimp only
  repeat' (with_reducible first
      | exact h | apply State.disableQueues_keeps | apply State.failRequests_keeps | apply State.muteCommands_keeps
      | apply State.drawNonce_keeps | apply State.endSessions_keeps | apply State.resetHostInterface_keeps
      | apply State.beginStep_keeps | fail_if_no_progress apply Keeps.fields | apply Keeps.ite)

theorem execPcieReset_keeps {s t : State} (a1) (h : Keeps s t) : KeepsO s (execPcieReset a1 t) := by
  unfold execPcieReset
  dsimp only
  repeat' (with_reducible first
      | exact h | apply State.progress_keeps | apply State.pcieReset_keeps | fail_if_no_progress apply Keeps.fields
      | apply Keeps.next | split)

theorem State.retestKiln_keeps {s t : State} (a1) (h : Keeps s t) : Keeps s (State.retestKiln t a1) := by
  unfold State.retestKiln
  repeat' (with_reducible first
      | exact h | apply State.quarantine_keeps | apply State.pwrErr_keeps | apply State.put_keeps
      | apply State.setCause_keeps | apply Keeps.ite)

theorem State.reloadKiln_keeps {s t : State} (a1) (h : Keeps s t) : Keeps s (State.reloadKiln t a1) := by
  unfold State.reloadKiln
  dsimp only
  repeat' (with_reducible first | exact h | exact Keeps.rfl | apply State.put_keeps | apply Keeps.foldl | intro _ _)

theorem State.resetKiln_keeps {s t : State} (a1) (h : Keeps s t) : Keeps s (State.resetKiln t a1) := by
  unfold State.resetKiln
  dsimp only
  repeat' (with_reducible first
      | exact h | apply State.pwrErr_keeps | apply State.emptyKiln_keeps | apply State.retestKiln_keeps
      | apply State.reloadKiln_keeps | fail_if_no_progress apply Keeps.fields | apply Keeps.ite)

theorem State.writeKilnReset_keeps {s t : State} (a1) (h : Keeps s t) : Keeps s (State.writeKilnReset t a1) := by
  unfold State.writeKilnReset
  dsimp only
  repeat' (with_reducible first
      | exact h | exact Keeps.rfl | apply State.pwrErr_keeps | apply State.resetKiln_keeps | apply State.put_keeps
      | apply Keeps.foldl | apply Keeps.ite | intro _ _)

theorem execKilnReset_keeps {s t : State} (a1) (h : Keeps s t) : KeepsO s (execKilnReset a1 t) := by
  unfold execKilnReset
  repeat' (with_reducible first
      | exact h | apply State.progress_keeps | apply State.writeKilnReset_keeps | apply Keeps.next | split)

/-! ### Power -/

theorem State.sense_keeps {s t : State} (a1) (h : Keeps s t) : Keeps s (State.sense t a1) := by
  unfold State.sense
  dsimp only
  repeat' (with_reducible first | exact h | apply State.put_keeps | fail_if_no_progress apply Keeps.fields)

theorem State.govern_keeps {s t : State} (a1) (h : Keeps s t) : Keeps s (State.govern t a1) := by
  unfold State.govern
  dsimp only
  repeat' (with_reducible first | exact h | apply State.put_keeps | apply State.raise_keeps | apply Keeps.ite)

theorem execGovernorEvaluation_keeps {s t : State} (a1) (h : Keeps s t) : KeepsO s (execGovernorEvaluation a1 t) := by
  unfold execGovernorEvaluation
  dsimp only
  repeat' (with_reducible first
      | exact h | apply State.sense_keeps | apply State.govern_keeps | fail_if_no_progress apply Keeps.fields
      | apply Keeps.ite | apply Keeps.next | split)

theorem State.showStraps_keeps {s t : State} (h : Keeps s t) : Keeps s (State.showStraps t) := by
  unfold State.showStraps
  repeat' (with_reducible first | exact h | apply State.put_keeps)

theorem State.dropPower_keeps {s t : State} (h : Keeps s t) : Keeps s (State.dropPower t) := by
  unfold State.dropPower
  dsimp only
  repeat' (with_reducible first | exact h | apply State.dropMem_keeps | fail_if_no_progress apply Keeps.fields)

theorem State.enterP3_keeps {s t : State} (h : Keeps s t) : Keeps s (State.enterP3 t) := by
  unfold State.enterP3
  dsimp only
  repeat' (with_reducible first
      | exact h | apply State.releasePinsIf_keeps | apply State.endWork_keeps | apply State.endSessions_keeps
      | apply State.showStraps_keeps | apply State.installBase_keeps | apply State.dropPower_keeps
      | apply State.resetRegs_keeps | apply State.put_keeps | apply State.setLevel_keeps
      | fail_if_no_progress apply Keeps.fields | apply Keeps.ite)

theorem execThermalTrip_keeps {s t : State} (a1) (a2) (h : Keeps s t) : KeepsO s (execThermalTrip a1 a2 t) := by
  unfold execThermalTrip
  dsimp only
  repeat' (with_reducible first
      | exact h | apply State.pwrErr_keeps | apply State.logFailure_keeps | apply State.raise_keeps
      | apply State.enterP3_keeps | fail_if_no_progress apply Keeps.fields | apply Keeps.ite | apply Keeps.next | split)

theorem execMainSupplyFault_keeps {s t : State} (a1) (h : Keeps s t) : KeepsO s (execMainSupplyFault a1 t) := by
  unfold execMainSupplyFault
  repeat' (with_reducible first
      | exact h | apply State.enterP3_keeps | apply State.pwrErr_keeps | apply State.raise_keeps | apply Keeps.next
      | split)

theorem execAuxSupplyLoss_keeps {s t : State} (h : Keeps s t) : KeepsO s (execAuxSupplyLoss t) := by
  unfold execAuxSupplyLoss
  repeat' (with_reducible first
      | exact h | apply State.put_keeps | apply State.blank_keeps | apply State.releasePinsIf_keeps
      | apply State.endSessions_keeps | apply Keeps.next | split)

theorem State.leaveP3_keeps {s t : State} (h : Keeps s t) : Keeps s (State.leaveP3 t) := by
  unfold State.leaveP3
  dsimp only
  repeat' (with_reducible first
      | exact h | apply State.startDies_keeps | apply State.put_keeps | fail_if_no_progress apply Keeps.fields)

theorem State.leaveHold_keeps {s t : State} (h : Keeps s t) : Keeps s (State.leaveHold t) := by
  unfold State.leaveHold
  dsimp only
  repeat' (with_reducible first
      | exact h | apply State.dropRegs_keeps | apply State.put_keeps | apply State.releasePinsIf_keeps
      | apply State.installBase_keeps | apply State.emptyDies_keeps)

theorem State.wakeAll_keeps {s t : State} (h : Keeps s t) : Keeps s (State.wakeAll t) := by
  unfold State.wakeAll
  dsimp only
  repeat' (with_reducible first
      | exact h | exact Keeps.rfl | apply State.setKiln_keeps | apply State.put_keeps | apply Keeps.foldl
      | apply Keeps.ite | intro _ _)

theorem State.goTo_keeps {s t : State} (a1) (h : Keeps s t) : Keeps s (State.goTo t a1) := by
  unfold State.goTo
  repeat' (with_reducible first
      | exact h | apply State.leaveP3_keeps | apply State.enterP3_keeps | apply State.towardTarget_keeps
      | apply State.leaveHold_keeps | apply State.put_keeps | apply State.wakeAll_keeps | split)

theorem State.requestPower_keeps {s t : State} (a1) (h : Keeps s t) : Keeps s (State.requestPower t a1) := by
  unfold State.requestPower
  dsimp only
  repeat' (with_reducible first
      | exact h | apply State.pwrErr_keeps | apply State.put_keeps | apply State.goTo_keeps | apply Keeps.ite)

theorem execPowerStateRequest_keeps {s t : State} (a1) (h : Keeps s t) : KeepsO s (execPowerStateRequest a1 t) := by
  unfold execPowerStateRequest
  repeat' (with_reducible first
      | exact h | apply State.progress_keeps | apply State.requestPower_keeps | apply Keeps.next | split)

theorem State.writeCap_keeps {s t : State} (a1) (h : Keeps s t) : Keeps s (State.writeCap t a1) := by
  unfold State.writeCap
  repeat' (with_reducible first | exact h | apply State.pwrErr_keeps | apply State.put_keeps | apply Keeps.ite)

theorem execCapWrite_keeps {s t : State} (a1) (h : Keeps s t) : KeepsO s (execCapWrite a1 t) := by
  unfold execCapWrite
  repeat' (with_reducible first | exact h | apply State.writeCap_keeps | apply Keeps.next | split)

/-! ### Mailbox -/

theorem State.mbRespond_keeps {s t : State} (a1) (a2) (h : Keeps s t) : Keeps s (State.mbRespond t a1 a2) := by
  unfold State.mbRespond
  dsimp only
  repeat' (with_reducible first
      | exact h | exact Keeps.rfl | apply State.dropRegs_keeps | apply State.put_keeps | apply Keeps.foldl | intro _ _)

theorem State.mbTake_keeps {s t : State} (a1) {f} (hf : ∀ r u, Keeps u (f r u).1) (h : Keeps s t) :
    Keeps s (t.mbTake a1 f) := by
  unfold State.mbTake
  split
  · exact h
  · split
    · exact State.emit_keeps _ h
    · dsimp only
      apply State.mbRespond_keeps
      have h1 : Keeps s (if (a1 == .bar0) = true then { t with sec := { t.sec with mbAt := some t.now } } else t) := by
        split
        · exact Keeps.fields h
        · exact h
      generalize (if (a1 == .bar0) = true then { t with sec := { t.sec with mbAt := some t.now } } else t) = u at h1 ⊢
      split
      · exact h1.trans (hf _ _)
      · exact h1

theorem State.mailbox_keeps {s t : State} (a1 a2) {f} (hf : ∀ r u, Keeps u (f r u).1) (h : Keeps s t) :
    Keeps s (t.mailbox a1 a2 f) := by
  unfold State.mailbox
  split
  · exact State.mbTake_keeps _ hf h
  · exact h

theorem State.act_keeps {s t : State} (a1 a2 a3 a4) {f} (hf : ∀ u, Keeps u (f u).1) (h : Keeps s t) :
    Keeps s (t.act a1 a2 a3 a4 f).1 := by
  unfold State.act
  split
  · rename_i e
    exact Keeps.of_eq e (State.audit_keeps _ _ _ _ _ h)
  · rename_i e
    have h1 := Keeps.of_eq e (State.audit_keeps _ _ _ _ _ h)
    split
    · exact h1
    · exact h1.trans (hf _)

theorem quietly_keeps {s t : State} {f : State → State} (hf : ∀ u, Keeps u (f u)) (h : Keeps s t) : Keeps s (quietly f t).1 :=
  h.trans (hf t)

theorem State.endLockout_keeps {s t : State} (a1) (h : Keeps s t) : Keeps s (State.endLockout t a1) := by
  unfold State.endLockout
  dsimp only
  repeat' (with_reducible first
      | exact h | apply State.put_keeps | fail_if_no_progress apply Keeps.fields | apply Keeps.ite | split)

theorem State.openSession_keeps {s t : State} (a1) (a2) (h : Keeps s t) : Keeps s (State.openSession t a1 a2).1 := by
  unfold State.openSession
  dsimp only
  repeat' (with_reducible first
      | exact h | apply State.put_keeps | apply State.sessionBits_keeps | fail_if_no_progress apply Keeps.fields)

theorem State.openFailed_keeps {s t : State} (a1) (h : Keeps s t) : Keeps s (State.openFailed t a1) := by
  unfold State.openFailed
  dsimp only
  repeat' (with_reducible first
      | exact h | apply State.bumpSat_keeps | apply State.violation_keeps | fail_if_no_progress apply Keeps.fields
      | apply Keeps.ite)

theorem State.openWork_keeps {s t : State} (a1) (h : Keeps s t) : Keeps s (State.openWork t a1).1 := by
  unfold State.openWork
  dsimp only
  repeat' (with_reducible first
      | exact h | exact Keeps.rfl | exact id_keeps | apply State.act_keeps | apply quietly_keeps
      | apply State.endLockout_keeps | apply State.openSession_keeps | apply State.openFailed_keeps | apply Keeps.ite
      | split | intro _)

theorem execSecOpen_keeps {s t : State} (a1) (h : Keeps s t) : KeepsO s (execSecOpen a1 t) := by
  unfold execSecOpen
  dsimp only
  repeat' (with_reducible first
      | exact h | exact Keeps.rfl | apply State.mailbox_keeps | apply State.openWork_keeps | apply State.drawNonce_keeps
      | apply Keeps.next | intro _ _)

theorem State.sessionAct_keeps {s t : State} (a1 a2 a3) {f} (hf : ∀ x u, Keeps u (f x u).1) (h : Keeps s t) :
    Keeps s (t.sessionAct a1 a2 a3 f).1 := by
  unfold State.sessionAct
  split
  · exact State.act_keeps _ _ _ _ (fun _ => Keeps.rfl) h
  · split
    · exact h.trans (hf _ _)
    · exact State.act_keeps _ _ _ _ (fun _ => Keeps.rfl) h

theorem execSecClose_keeps {s t : State} (a1) (h : Keeps s t) : KeepsO s (execSecClose a1 t) := by
  unfold execSecClose
  repeat' (with_reducible first
      | exact h | exact Keeps.rfl | apply State.mailbox_keeps | apply State.sessionAct_keeps | apply State.act_keeps
      | apply quietly_keeps | apply State.dropSession_keeps | apply Keeps.next | intro _ _ | intro _)

theorem State.setKey_keeps {s t : State} (a1) (a2) (h : Keeps s t) : Keeps s (State.setKey t a1 a2) := by
  unfold State.setKey
  dsimp only
  repeat' (with_reducible first | exact h | fail_if_no_progress apply Keeps.fields)

theorem execClaim_keeps {s t : State} (a1) (h : Keeps s t) : KeepsO s (execClaim a1 t) := by
  unfold execClaim
  dsimp only
  repeat' (with_reducible first
      | exact h | exact Keeps.rfl | apply State.mailbox_keeps | apply State.act_keeps | apply quietly_keeps
      | apply State.setKey_keeps | apply Keeps.next | intro _ _ | intro _)

theorem execKeySet_keeps {s t : State} (a1) (h : Keeps s t) : KeepsO s (execKeySet a1 t) := by
  unfold execKeySet
  dsimp only
  repeat' (with_reducible first
      | exact h | exact Keeps.rfl | apply State.mailbox_keeps | apply State.sessionAct_keeps | apply State.act_keeps
      | apply quietly_keeps | apply State.setKey_keeps | apply Keeps.next | split | intro _ _ | intro _)

theorem execKeyClear_keeps {s t : State} (a1) (h : Keeps s t) : KeepsO s (execKeyClear a1 t) := by
  unfold execKeyClear
  dsimp only
  repeat' (with_reducible first
      | exact h | exact Keeps.rfl | apply State.mailbox_keeps | apply State.sessionAct_keeps | apply State.act_keeps
      | apply quietly_keeps | fail_if_no_progress apply Keeps.fields | apply Keeps.next | intro _ _ | intro _)

theorem execPolicySet_keeps {s t : State} (a1) (h : Keeps s t) : KeepsO s (execPolicySet a1 t) := by
  unfold execPolicySet
  dsimp only
  repeat' (with_reducible first
      | exact h | exact Keeps.rfl | apply State.mailbox_keeps | apply State.sessionAct_keeps | apply State.act_keeps
      | apply quietly_keeps | fail_if_no_progress apply Keeps.fields | apply Keeps.next | intro _ _ | intro _)

theorem execPolicyGet_keeps {s t : State} (a1) (h : Keeps s t) : KeepsO s (execPolicyGet a1 t) := by
  unfold execPolicyGet
  repeat' (with_reducible first
      | exact h | exact Keeps.rfl | apply State.mailbox_keeps | apply Keeps.next | split | intro _ _)

theorem State.setImage_keeps {s t : State} (a1) (h : Keeps s t) : Keeps s (State.setImage t a1) := by
  unfold State.setImage
  dsimp only
  repeat' (with_reducible first | exact h | fail_if_no_progress apply Keeps.fields)

theorem execFwUpdate_keeps {s t : State} (a1) (h : Keeps s t) : KeepsO s (execFwUpdate a1 t) := by
  unfold execFwUpdate
  dsimp only
  repeat' (with_reducible first
      | exact h | exact Keeps.rfl | exact id_keeps | apply State.mailbox_keeps | apply State.sessionAct_keeps
      | apply State.act_keeps | apply quietly_keeps | apply State.readMem_keeps | apply State.setImage_keeps
      | apply Keeps.next | split | intro _ _ | intro _)

theorem State.grantLevel_keeps {s t : State} (a1) (a2) (h : Keeps s t) : Keeps s (State.grantLevel t a1 a2).1 := by
  unfold State.grantLevel
  dsimp only
  repeat' (with_reducible first
      | exact h | exact Keeps.rfl | apply State.put_keeps | apply State.endSessions_keeps | apply State.act_keeps
      | apply quietly_keeps | apply State.levelIs_keeps | fail_if_no_progress apply Keeps.fields | apply Keeps.ite
      | intro _)

theorem execDebugSet_keeps {s t : State} (a1) (h : Keeps s t) : KeepsO s (execDebugSet a1 t) := by
  unfold execDebugSet
  dsimp only
  repeat' (with_reducible first
      | exact h | exact Keeps.rfl | exact id_keeps | apply State.mailbox_keeps | apply State.sessionAct_keeps
      | apply State.act_keeps | apply quietly_keeps | apply State.grantLevel_keeps | apply Keeps.next | split
      | intro _ _ | intro _)

theorem execAuditRead_keeps {s t : State} (a1) (h : Keeps s t) : KeepsO s (execAuditRead a1 t) := by
  unfold execAuditRead
  dsimp only
  repeat' (with_reducible first
      | exact h | exact Keeps.rfl | apply State.mailbox_keeps | apply Keeps.next | split | intro _ _)

theorem execUnclaim_keeps {s t : State} (a1) (h : Keeps s t) : KeepsO s (execUnclaim a1 t) := by
  unfold execUnclaim
  dsimp only
  repeat' (with_reducible first
      | exact h | exact Keeps.rfl | apply State.mailbox_keeps | apply State.sessionAct_keeps | apply State.act_keeps
      | apply quietly_keeps | fail_if_no_progress apply Keeps.fields | apply Keeps.next | intro _ _ | intro _)

theorem execLockoutExpiry_keeps {s t : State} (a1) (h : Keeps s t) : KeepsO s (execLockoutExpiry a1 t) := by
  unfold execLockoutExpiry
  repeat' (with_reducible first | exact h | apply State.endLockout_keeps | apply Keeps.next)

theorem execGuardLock_keeps {s t : State} (a1) (h : Keeps s t) : KeepsO s (execGuardLock a1 t) := by
  unfold execGuardLock
  repeat' (with_reducible first | exact h | apply State.put_keeps | apply Keeps.ite | apply Keeps.next)

theorem State.recoveryFailed_keeps {s t : State} (a1) (h : Keeps s t) : Keeps s (State.recoveryFailed t a1) := by
  unfold State.recoveryFailed
  repeat' (with_reducible first | exact h | apply State.put_keeps)

theorem State.recoveryLoad_keeps {s t : State} (h : Keeps s t) : Keeps s t.recoveryLoad := by
  unfold State.recoveryLoad
  extract_lets n st
  repeat' (with_reducible first
      | exact h | apply State.recoveryFailed_keeps | apply State.put_keeps | refine Keeps.of_eq ‹_› ?_
      | apply State.act_keeps | extract_lets | split)
  all_goals exact fun _ => quietly_keeps (fun _ => State.setImage_keeps _ Keeps.rfl) Keeps.rfl

theorem execRecoveryGo_keeps {s t : State} (h : Keeps s t) : KeepsO s (execRecoveryGo t) := by
  unfold execRecoveryGo
  repeat' (with_reducible first | exact h | apply State.recoveryLoad_keeps | apply Keeps.next)

/-! ### Debug -/

theorem State.arm_keeps {s t : State} (a1) (h : Keeps s t) : Keeps s (State.arm t a1) := by
  unfold State.arm
  dsimp only
  repeat' (with_reducible first
      | exact h | apply State.orInto_keeps | apply State.put_keeps | fail_if_no_progress apply Keeps.fields)

theorem State.writeWindow_keeps {s t : State} (a1) (a2) (h : Keeps s t) : Keeps s (State.writeWindow t a1 a2) := by
  unfold State.writeWindow
  dsimp only
  repeat' (with_reducible first
      | exact h | apply State.put_keeps | apply State.disarm_keeps | apply State.arm_keeps | apply State.firstErr_keeps
      | apply Keeps.ite)

theorem execTraceWindowArm_keeps {s t : State} (a1) (a2) (h : Keeps s t) : KeepsO s (execTraceWindowArm a1 a2 t) := by
  unfold execTraceWindowArm
  repeat' (with_reducible first | exact h | apply State.writeWindow_keeps | apply Keeps.next)

theorem State.writePmcCtl_keeps {s t : State} (a1) (h : Keeps s t) : Keeps s (State.writePmcCtl t a1) := by
  unfold State.writePmcCtl
  dsimp only
  repeat' (with_reducible first
      | exact h | exact Keeps.rfl | apply State.put_keeps | apply Keeps.foldl | apply Keeps.ite | intro _ _)

theorem execPmcFreeze_keeps {s t : State} (a1) (h : Keeps s t) : KeepsO s (execPmcFreeze a1 t) := by
  unfold execPmcFreeze
  repeat' (with_reducible first | exact h | apply State.writePmcCtl_keeps | apply Keeps.next)

theorem execPmcClear_keeps {s t : State} (a1) (h : Keeps s t) : KeepsO s (execPmcClear a1 t) := by
  unfold execPmcClear
  repeat' (with_reducible first | exact h | apply State.writePmcCtl_keeps | apply Keeps.next)

theorem execTelemetryRecord_keeps {s t : State} (h : Keeps s t) : KeepsO s (execTelemetryRecord t) := by
  unfold execTelemetryRecord
  dsimp only
  repeat' (with_reducible first
      | exact h | apply State.twWrite_keeps | fail_if_no_progress apply Keeps.fields | apply Keeps.next | split)

theorem State.writePace_keeps {s t : State} (a1) (a2) (h : Keeps s t) : Keeps s (State.writePace t a1 a2) := by
  unfold State.writePace
  dsimp only
  repeat' (with_reducible first | exact h | apply State.put_keeps | apply Keeps.ite)

theorem execPaceWindow_keeps {s t : State} (a1) (h : Keeps s t) : KeepsO s (execPaceWindow a1 t) := by
  unfold execPaceWindow
  dsimp only
  repeat' (with_reducible first
      | exact h | exact Keeps.rfl | apply State.writePace_keeps | fail_if_no_progress apply Keeps.fields
      | apply Keeps.foldl | apply Keeps.next | split | intro _ _)

theorem execCorrectedErrorRate_keeps {s t : State} (a1) (h : Keeps s t) : KeepsO s (execCorrectedErrorRate a1 t) := by
  unfold execCorrectedErrorRate
  dsimp only
  repeat' (with_reducible first
      | exact h | apply State.raise_keeps | fail_if_no_progress apply Keeps.fields | apply Keeps.next | split)

theorem State.scrubMark_keeps {s t : State} (a1) (a2) (a3) (h : Keeps s t) : Keeps s (State.scrubMark t a1 a2 a3) := by
  unfold State.scrubMark
  repeat' (with_reducible first
      | exact h | apply State.correctedError_keeps | apply State.settle_keeps | apply State.ueFound_keeps
      | fail_if_no_progress apply Keeps.fields | split)

theorem execScrub_keeps {s t : State} (a1) (h : Keeps s t) : KeepsO s (execScrub a1 t) := by
  unfold execScrub
  dsimp only
  repeat' (with_reducible first
      | exact h | exact Keeps.rfl | apply State.scrubMark_keeps | apply Keeps.foldl | apply Keeps.next | split
      | intro _ _)

theorem execModAlertNRelease_keeps {s t : State} (h : Keeps s t) : KeepsO s (execModAlertNRelease t) := by
  unfold execModAlertNRelease
  dsimp only
  repeat' (with_reducible first | exact h | fail_if_no_progress apply Keeps.fields | apply Keeps.next)

theorem execFeaturePinInputChange_keeps {s t : State} (a1) (a2)
    (h : Keeps s t) : KeepsO s (execFeaturePinInputChange a1 a2 t) := by
  unfold execFeaturePinInputChange
  dsimp only
  repeat' (with_reducible first | exact h | fail_if_no_progress apply Keeps.fields | apply Keeps.next)

/-! ### RegAccess -/

theorem State.jtagDenied_keeps {s t : State} (h : Keeps s t) : Keeps s (State.jtagDenied t) := by
  unfold State.jtagDenied
  dsimp only
  repeat' (with_reducible first | exact h | apply State.violation_keeps | fail_if_no_progress apply Keeps.fields)

theorem State.writeMsix_keeps {s t : State} (a1) (a2) (a3) (h : Keeps s t) : Keeps s (State.writeMsix t a1 a2 a3) := by
  unfold State.writeMsix
  dsimp only
  repeat' (with_reducible first | exact h | apply State.setVector_keeps | apply Keeps.ite)

theorem State.writePlain_keeps {s t : State} (a1) (a2) (a3) (h : Keeps s t) : Keeps s (State.writePlain t a1 a2 a3) := by
  unfold State.writePlain
  dsimp only
  repeat' (with_reducible first | exact h | apply State.setWord_keeps | apply State.violation_keeps | apply Keeps.ite)

theorem after_keeps {s t : State} {o : Host.Outcome State Fault Refusal} (h : Keeps s t) (ho : KeepsO s o) : Keeps s (after t o) := by
  cases o with
  | next u => exact ho
  | fault => exact h
  | refused => exact h

theorem State.mailboxGo_keeps {s t : State} (a1) (h : Keeps s t) : Keeps s (State.mailboxGo t a1) := by
  unfold State.mailboxGo
  repeat' (with_reducible first
      | exact h | exact Keeps.rfl | apply after_keeps | apply execSecOpen_keeps | apply execSecClose_keeps
      | apply execClaim_keeps | apply execKeySet_keeps | apply execKeyClear_keeps | apply execPolicySet_keeps
      | apply execPolicyGet_keeps | apply execFwUpdate_keeps | apply execDebugSet_keeps | apply execAuditRead_keeps
      | apply execUnclaim_keeps | apply State.mbTake_keeps | split | intro _ _)

theorem State.writeActing_keeps {s t : State} (a1 a2 a3 a4) (h : Keeps s t) : ∀ u, t.writeActing a1 a2 a3 a4 = some u → Keeps s u := by
  unfold State.writeActing
  extract_lets b plain
  have hp : Keeps s plain := State.writePlain_keeps _ _ _ h
  clear_value plain b
  have ia : ∀ (c : Bool) {x : State}, Keeps s x → Keeps s (if c then x else t) := fun c x g => by
    split
    · exact g
    · exact h
  have ip : ∀ (c : Bool) {x : State}, Keeps s x → Keeps s (if c then x else plain) := fun c x g => by
    split
    · exact g
    · exact hp
  intro u e
  split at e
  all_goals first | (cases e; done) | (injection e with e; rw [← e]; clear e)
  · exact ia _ (after_keeps h (execRecoveryGo_keeps h))
  · exact ip _ (State.put_keeps _ _ hp)
  · exact ia _ hp
  · exact ia _ hp
  · exact after_keeps h (execSqEnableWrite_keeps _ _ h)
  · exact after_keeps h (execCqEnableWrite_keeps _ _ h)
  · exact State.ringTail_keeps _ _ h
  · exact ia _ (after_keeps h (execFabricTrain_keeps _ h))
  · exact after_keeps h (execRankDown_keeps _ h)
  · exact after_keeps h (execPairRetrain_keeps _ _ h)
  · exact after_keeps h (execPortRetrain_keeps _ _ h)
  · exact after_keeps h (execPortRetrain_keeps _ _ h)
  · exact ia _ (State.mailboxGo_keeps _ h)
  · exact after_keeps h (execGuardLock_keeps _ h)
  · exact after_keeps h (execPowerStateRequest_keeps _ h)
  · exact State.writePwrReset_keeps _ h
  · exact after_keeps h (execKilnReset_keeps _ h)
  · exact after_keeps h (execCapWrite_keeps _ h)
  · exact State.writePmcCtl_keeps _ h
  · exact ip _ (Keeps.fields hp)
  · exact State.writeWindow_keeps _ _ h
  · exact after_keeps h (execBnkStoreHostCountWrite_keeps _ _ h)
  · exact after_keeps h (execBnkStoreHostCountWrite_keeps _ _ h)
  · exact ip _ (State.dropRegs_keeps _ hp)

theorem State.writeReg_keeps {s t : State} (a1 a2) (h : Keeps s t) : Keeps s (t.writeReg a1 a2) := by
  unfold State.writeReg
  split
  · exact h
  · split
    · exact State.violation_keeps _ h
    · rename_i r _ _
      cases e : t.writeActing r a1 ((copyOf (a1 - r.base) r.dims).getD 0) a2 with
      | none => exact State.writePlain_keeps _ _ _ h
      | some u => exact State.writeActing_keeps _ _ _ _ h u e

theorem State.readReg_keeps {s t : State} (a1) (h : Keeps s t) : Keeps s (State.readReg t a1).1 := by
  unfold State.readReg
  repeat' (with_reducible first | exact h | apply State.violation_keeps | split)

theorem State.dbgAccess_keeps {s t : State} (a1) (h : Keeps s t) : Keeps s (State.dbgAccess t a1).1 := by
  unfold State.dbgAccess
  dsimp only
  repeat' (with_reducible first
      | exact h | apply State.violation_keeps | apply State.badAccess_keeps | apply State.writeMsix_keeps
      | apply State.writeReg_keeps | apply State.readReg_keeps | apply Keeps.ite | split)

theorem State.jtagLoad_keeps {s t : State} (a1) (a2) (a3) (h : Keeps s t) : Keeps s (State.jtagLoad t a1 a2 a3) := by
  unfold State.jtagLoad
  dsimp only
  repeat' (with_reducible first | exact h | apply State.emit_keeps | fail_if_no_progress apply Keeps.fields)

theorem execDbgacc_keeps {s t : State} (a1) (h : Keeps s t) : KeepsO s (execDbgacc a1 t) := by
  unfold execDbgacc
  dsimp only
  repeat' (with_reducible first
      | exact h | apply State.jtagDenied_keeps | apply State.dbgAccess_keeps | apply State.jtagLoad_keeps
      | apply Keeps.next | split)

theorem execExtest_keeps {s t : State} (a1) (h : Keeps s t) : KeepsO s (execExtest a1 t) := by
  unfold execExtest
  dsimp only
  repeat' (with_reducible first
      | exact h | apply State.jtagDenied_keeps | apply State.jtagLoad_keeps | fail_if_no_progress apply Keeps.fields
      | apply Keeps.next | split)

theorem execSamplePreload_keeps {s t : State} (a1) (h : Keeps s t) : KeepsO s (execSamplePreload a1 t) := by
  unfold execSamplePreload
  dsimp only
  repeat' (with_reducible first
      | exact h | apply State.jtagDenied_keeps | apply State.jtagLoad_keeps | apply State.nextRand_keeps
      | fail_if_no_progress apply Keeps.fields | apply Keeps.next | split)

theorem execIdcode_keeps {s t : State} (h : Keeps s t) : KeepsO s (execIdcode t) := by
  unfold execIdcode
  repeat' (with_reducible first | exact h | apply State.jtagLoad_keeps | apply Keeps.next | split)

theorem execBypass_keeps {s t : State} (a1) (h : Keeps s t) : KeepsO s (execBypass a1 t) := by
  unfold execBypass
  repeat' (with_reducible first | exact h | apply State.jtagLoad_keeps | apply Keeps.next | split)

theorem State.bar0Write_keeps {s t : State} (a1) (a2) (a3) (h : Keeps s t) : Keeps s (State.bar0Write t a1 a2 a3) := by
  unfold State.bar0Write
  dsimp only
  repeat' (with_reducible first
      | exact h | apply State.linkRx_keeps | apply State.badAccess_keeps | apply State.writeMsix_keeps
      | apply State.writeReg_keeps | apply Keeps.ite)

theorem State.bar2Write_keeps {s t : State} (a1) (a2) (a3) (h : Keeps s t) : Keeps s (State.bar2Write t a1 a2 a3) := by
  unfold State.bar2Write
  dsimp only
  repeat' (with_reducible first
      | exact h | apply after_keeps | apply execSqTailDoorbell_keeps | apply execCqHeadDoorbell_keeps
      | apply execRingTailDoorbell_keeps | apply State.badAccess_keeps | apply State.linkRx_keeps | apply Keeps.ite)

theorem execRegisterWrite_keeps {s t : State} (a1) (a2) (h : Keeps s t) : KeepsO s (execRegisterWrite a1 a2 t) := by
  unfold execRegisterWrite
  repeat' (with_reducible first
      | exact h | apply State.bar0Write_keeps | apply State.bar2Write_keeps | apply Keeps.next | split)

theorem State.giveRead_keeps {s t : State} (a1) (a2) (h : Keeps s t) : Keeps s (State.giveRead t a1 a2) := by
  unfold State.giveRead
  repeat' (with_reducible first | exact h | apply State.linkTx_keeps | apply State.emit_keeps)

theorem State.badRead_keeps {s t : State} (a1) (a2) (a3) (h : Keeps s t) : Keeps s (State.badRead t a1 a2 a3) := by
  unfold State.badRead
  repeat' (with_reducible first | exact h | apply State.giveRead_keeps | apply State.badAccess_keeps)

theorem State.bar0Read_keeps {s t : State} (a1) (a2) (h : Keeps s t) : Keeps s (State.bar0Read t a1 a2) := by
  unfold State.bar0Read
  dsimp only
  repeat' (with_reducible first
      | exact h | apply State.badRead_keeps | apply State.giveRead_keeps | apply State.readReg_keeps | apply Keeps.ite)

theorem State.bar2Read_keeps {s t : State} (a1) (a2) (h : Keeps s t) : Keeps s (State.bar2Read t a1 a2) := by
  unfold State.bar2Read
  repeat' (with_reducible first | exact h | apply State.giveRead_keeps | apply State.badRead_keeps | split)

theorem execRegisterRead_keeps {s t : State} (a1) (h : Keeps s t) : KeepsO s (execRegisterRead a1 t) := by
  unfold execRegisterRead
  repeat' (with_reducible first
      | exact h | apply State.bar0Read_keeps | apply State.bar2Read_keeps | apply Keeps.next | split)

/-! ### Tick -/

theorem State.drivePin_keeps {s t : State} (a1) (a2) (h : Keeps s t) : Keeps s (State.drivePin t a1 a2) := by
  unfold State.drivePin
  dsimp only
  repeat' (with_reducible first | exact h | apply State.emit_keeps | fail_if_no_progress apply Keeps.fields | split)

theorem State.drivePins_keeps {s t : State} (h : Keeps s t) : Keeps s (State.drivePins t) := by
  unfold State.drivePins
  dsimp only
  repeat' (with_reducible first
      | exact h | exact Keeps.rfl | apply State.drivePin_keeps | fail_if_no_progress apply Keeps.fields
      | apply Keeps.foldl | intro _ _)

theorem State.samplePins_keeps {s t : State} (h : Keeps s t) : Keeps s (State.samplePins t) := by
  unfold State.samplePins
  dsimp only
  repeat' (with_reducible first | exact h | apply State.put_keeps | fail_if_no_progress apply Keeps.fields)

theorem State.countStoke_keeps {s t : State} (h : Keeps s t) : Keeps s (State.countStoke t) := by
  unfold State.countStoke
  dsimp only
  repeat' (with_reducible first
      | exact h | exact Keeps.rfl | apply State.pmc_keeps | apply State.nextRand_keeps | apply State.bumpSat_keeps
      | apply Keeps.foldl | apply Keeps.ite | intro _ _)

theorem State.idleKilns_keeps {s t : State} (h : Keeps s t) : Keeps s (State.idleKilns t) := by
  unfold State.idleKilns
  dsimp only
  repeat' (with_reducible first
      | exact h | exact Keeps.rfl | apply State.setKiln_keeps | apply Keeps.foldl | apply Keeps.ite | intro _ _)

theorem State.newSecond_keeps {s t : State} (h : Keeps s t) : Keeps s (State.newSecond t) := by
  unfold State.newSecond
  dsimp only
  repeat' (with_reducible first | exact h | fail_if_no_progress apply Keeps.fields | apply Keeps.ite)

theorem tick_keeps {s t : State} (h : Keeps s t) : Keeps s (tick t) := by
  unfold tick
  dsimp only
  repeat' (with_reducible first
      | exact h | apply State.drivePins_keeps | apply State.samplePins_keeps | apply State.bump_keeps
      | apply State.countStoke_keeps | apply State.idleKilns_keeps | apply State.newSecond_keeps | apply Keeps.ite)

end Sys2Proof.Machine
end

