-- ==== Sys2Proof/Laws/State.lean ====
section
/-! SUPPORT. What each update of the state leaves, field by field, and what a register field reads as after it was written. -/

namespace Sys2Proof.Machine

/-! ### setWord -/

@[simp] theorem State.setWord_pending (s : State) (off rst v : Nat) : (s.setWord off rst v).pending = s.pending := rfl
@[simp] theorem State.setWord_mem (s : State) (off rst v : Nat) : (s.setWord off rst v).mem = s.mem := rfl
@[simp] theorem State.setWord_ecc (s : State) (off rst v : Nat) : (s.setWord off rst v).ecc = s.ecc := rfl
@[simp] theorem State.setWord_embers (s : State) (off rst v : Nat) : (s.setWord off rst v).embers = s.embers := rfl
@[simp] theorem State.setWord_hearths (s : State) (off rst v : Nat) : (s.setWord off rst v).hearths = s.hearths := rfl
@[simp] theorem State.setWord_kilns (s : State) (off rst v : Nat) : (s.setWord off rst v).kilns = s.kilns := rfl
@[simp] theorem State.setWord_cfg (s : State) (off rst v : Nat) : (s.setWord off rst v).cfg = s.cfg := rfl
@[simp] theorem State.setWord_col (s : State) (off rst v : Nat) : (s.setWord off rst v).col = s.col := rfl
@[simp] theorem State.setWord_step (s : State) (off rst v : Nat) : (s.setWord off rst v).step = s.step := rfl
@[simp] theorem State.setWord_ing (s : State) (off rst v : Nat) : (s.setWord off rst v).ing = s.ing := rfl
@[simp] theorem State.setWord_link (s : State) (off rst v : Nat) : (s.setWord off rst v).link = s.link := rfl
@[simp] theorem State.setWord_bank (s : State) (off rst v : Nat) : (s.setWord off rst v).bank = s.bank := rfl
@[simp] theorem State.setWord_hif (s : State) (off rst v : Nat) : (s.setWord off rst v).hif = s.hif := rfl
@[simp] theorem State.setWord_sec (s : State) (off rst v : Nat) : (s.setWord off rst v).sec = s.sec := rfl
@[simp] theorem State.setWord_pwr (s : State) (off rst v : Nat) : (s.setWord off rst v).pwr = s.pwr := rfl
@[simp] theorem State.setWord_dbg (s : State) (off rst v : Nat) : (s.setWord off rst v).dbg = s.dbg := rfl
@[simp] theorem State.setWord_jtag (s : State) (off rst v : Nat) : (s.setWord off rst v).jtag = s.jtag := rfl
@[simp] theorem State.setWord_pins (s : State) (off rst v : Nat) : (s.setWord off rst v).pins = s.pins := rfl
@[simp] theorem State.setWord_board (s : State) (off rst v : Nat) : (s.setWord off rst v).board = s.board := rfl
@[simp] theorem State.setWord_out (s : State) (off rst v : Nat) : (s.setWord off rst v).out = s.out := rfl
@[simp] theorem State.setWord_rand (s : State) (off rst v : Nat) : (s.setWord off rst v).rand = s.rand := rfl

/-! ### put -/

@[simp] theorem State.put_pending (s : State) (f : Fld) (v : Nat) : (s.put f v).pending = s.pending := rfl
@[simp] theorem State.put_mem (s : State) (f : Fld) (v : Nat) : (s.put f v).mem = s.mem := rfl
@[simp] theorem State.put_ecc (s : State) (f : Fld) (v : Nat) : (s.put f v).ecc = s.ecc := rfl
@[simp] theorem State.put_embers (s : State) (f : Fld) (v : Nat) : (s.put f v).embers = s.embers := rfl
@[simp] theorem State.put_hearths (s : State) (f : Fld) (v : Nat) : (s.put f v).hearths = s.hearths := rfl
@[simp] theorem State.put_kilns (s : State) (f : Fld) (v : Nat) : (s.put f v).kilns = s.kilns := rfl
@[simp] theorem State.put_cfg (s : State) (f : Fld) (v : Nat) : (s.put f v).cfg = s.cfg := rfl
@[simp] theorem State.put_col (s : State) (f : Fld) (v : Nat) : (s.put f v).col = s.col := rfl
@[simp] theorem State.put_step (s : State) (f : Fld) (v : Nat) : (s.put f v).step = s.step := rfl
@[simp] theorem State.put_ing (s : State) (f : Fld) (v : Nat) : (s.put f v).ing = s.ing := rfl
@[simp] theorem State.put_link (s : State) (f : Fld) (v : Nat) : (s.put f v).link = s.link := rfl
@[simp] theorem State.put_bank (s : State) (f : Fld) (v : Nat) : (s.put f v).bank = s.bank := rfl
@[simp] theorem State.put_hif (s : State) (f : Fld) (v : Nat) : (s.put f v).hif = s.hif := rfl
@[simp] theorem State.put_sec (s : State) (f : Fld) (v : Nat) : (s.put f v).sec = s.sec := rfl
@[simp] theorem State.put_pwr (s : State) (f : Fld) (v : Nat) : (s.put f v).pwr = s.pwr := rfl
@[simp] theorem State.put_dbg (s : State) (f : Fld) (v : Nat) : (s.put f v).dbg = s.dbg := rfl
@[simp] theorem State.put_jtag (s : State) (f : Fld) (v : Nat) : (s.put f v).jtag = s.jtag := rfl
@[simp] theorem State.put_pins (s : State) (f : Fld) (v : Nat) : (s.put f v).pins = s.pins := rfl
@[simp] theorem State.put_board (s : State) (f : Fld) (v : Nat) : (s.put f v).board = s.board := rfl
@[simp] theorem State.put_out (s : State) (f : Fld) (v : Nat) : (s.put f v).out = s.out := rfl
@[simp] theorem State.put_rand (s : State) (f : Fld) (v : Nat) : (s.put f v).rand = s.rand := rfl

/-! ### bump -/

@[simp] theorem State.bump_pending (s : State) (f : Fld) (n : Nat) : (s.bump f n).pending = s.pending := rfl
@[simp] theorem State.bump_mem (s : State) (f : Fld) (n : Nat) : (s.bump f n).mem = s.mem := rfl
@[simp] theorem State.bump_ecc (s : State) (f : Fld) (n : Nat) : (s.bump f n).ecc = s.ecc := rfl
@[simp] theorem State.bump_embers (s : State) (f : Fld) (n : Nat) : (s.bump f n).embers = s.embers := rfl
@[simp] theorem State.bump_hearths (s : State) (f : Fld) (n : Nat) : (s.bump f n).hearths = s.hearths := rfl
@[simp] theorem State.bump_kilns (s : State) (f : Fld) (n : Nat) : (s.bump f n).kilns = s.kilns := rfl
@[simp] theorem State.bump_cfg (s : State) (f : Fld) (n : Nat) : (s.bump f n).cfg = s.cfg := rfl
@[simp] theorem State.bump_col (s : State) (f : Fld) (n : Nat) : (s.bump f n).col = s.col := rfl
@[simp] theorem State.bump_step (s : State) (f : Fld) (n : Nat) : (s.bump f n).step = s.step := rfl
@[simp] theorem State.bump_ing (s : State) (f : Fld) (n : Nat) : (s.bump f n).ing = s.ing := rfl
@[simp] theorem State.bump_link (s : State) (f : Fld) (n : Nat) : (s.bump f n).link = s.link := rfl
@[simp] theorem State.bump_bank (s : State) (f : Fld) (n : Nat) : (s.bump f n).bank = s.bank := rfl
@[simp] theorem State.bump_hif (s : State) (f : Fld) (n : Nat) : (s.bump f n).hif = s.hif := rfl
@[simp] theorem State.bump_sec (s : State) (f : Fld) (n : Nat) : (s.bump f n).sec = s.sec := rfl
@[simp] theorem State.bump_pwr (s : State) (f : Fld) (n : Nat) : (s.bump f n).pwr = s.pwr := rfl
@[simp] theorem State.bump_dbg (s : State) (f : Fld) (n : Nat) : (s.bump f n).dbg = s.dbg := rfl
@[simp] theorem State.bump_jtag (s : State) (f : Fld) (n : Nat) : (s.bump f n).jtag = s.jtag := rfl
@[simp] theorem State.bump_pins (s : State) (f : Fld) (n : Nat) : (s.bump f n).pins = s.pins := rfl
@[simp] theorem State.bump_board (s : State) (f : Fld) (n : Nat) : (s.bump f n).board = s.board := rfl
@[simp] theorem State.bump_out (s : State) (f : Fld) (n : Nat) : (s.bump f n).out = s.out := rfl
@[simp] theorem State.bump_rand (s : State) (f : Fld) (n : Nat) : (s.bump f n).rand = s.rand := rfl

/-! ### orInto -/

@[simp] theorem State.orInto_pending (s : State) (f : Fld) (v : Nat) : (s.orInto f v).pending = s.pending := rfl
@[simp] theorem State.orInto_mem (s : State) (f : Fld) (v : Nat) : (s.orInto f v).mem = s.mem := rfl
@[simp] theorem State.orInto_ecc (s : State) (f : Fld) (v : Nat) : (s.orInto f v).ecc = s.ecc := rfl
@[simp] theorem State.orInto_embers (s : State) (f : Fld) (v : Nat) : (s.orInto f v).embers = s.embers := rfl
@[simp] theorem State.orInto_hearths (s : State) (f : Fld) (v : Nat) : (s.orInto f v).hearths = s.hearths := rfl
@[simp] theorem State.orInto_kilns (s : State) (f : Fld) (v : Nat) : (s.orInto f v).kilns = s.kilns := rfl
@[simp] theorem State.orInto_cfg (s : State) (f : Fld) (v : Nat) : (s.orInto f v).cfg = s.cfg := rfl
@[simp] theorem State.orInto_col (s : State) (f : Fld) (v : Nat) : (s.orInto f v).col = s.col := rfl
@[simp] theorem State.orInto_step (s : State) (f : Fld) (v : Nat) : (s.orInto f v).step = s.step := rfl
@[simp] theorem State.orInto_ing (s : State) (f : Fld) (v : Nat) : (s.orInto f v).ing = s.ing := rfl
@[simp] theorem State.orInto_link (s : State) (f : Fld) (v : Nat) : (s.orInto f v).link = s.link := rfl
@[simp] theorem State.orInto_bank (s : State) (f : Fld) (v : Nat) : (s.orInto f v).bank = s.bank := rfl
@[simp] theorem State.orInto_hif (s : State) (f : Fld) (v : Nat) : (s.orInto f v).hif = s.hif := rfl
@[simp] theorem State.orInto_sec (s : State) (f : Fld) (v : Nat) : (s.orInto f v).sec = s.sec := rfl
@[simp] theorem State.orInto_pwr (s : State) (f : Fld) (v : Nat) : (s.orInto f v).pwr = s.pwr := rfl
@[simp] theorem State.orInto_dbg (s : State) (f : Fld) (v : Nat) : (s.orInto f v).dbg = s.dbg := rfl
@[simp] theorem State.orInto_jtag (s : State) (f : Fld) (v : Nat) : (s.orInto f v).jtag = s.jtag := rfl
@[simp] theorem State.orInto_pins (s : State) (f : Fld) (v : Nat) : (s.orInto f v).pins = s.pins := rfl
@[simp] theorem State.orInto_board (s : State) (f : Fld) (v : Nat) : (s.orInto f v).board = s.board := rfl
@[simp] theorem State.orInto_out (s : State) (f : Fld) (v : Nat) : (s.orInto f v).out = s.out := rfl
@[simp] theorem State.orInto_rand (s : State) (f : Fld) (v : Nat) : (s.orInto f v).rand = s.rand := rfl

/-! ### setByte -/

@[simp] theorem State.setByte_pending (s : State) (k : Nat) (b : Byte) : (s.setByte k b).pending = s.pending := rfl
@[simp] theorem State.setByte_regs (s : State) (k : Nat) (b : Byte) : (s.setByte k b).regs = s.regs := rfl
@[simp] theorem State.setByte_ecc (s : State) (k : Nat) (b : Byte) : (s.setByte k b).ecc = s.ecc := rfl
@[simp] theorem State.setByte_embers (s : State) (k : Nat) (b : Byte) : (s.setByte k b).embers = s.embers := rfl
@[simp] theorem State.setByte_hearths (s : State) (k : Nat) (b : Byte) : (s.setByte k b).hearths = s.hearths := rfl
@[simp] theorem State.setByte_kilns (s : State) (k : Nat) (b : Byte) : (s.setByte k b).kilns = s.kilns := rfl
@[simp] theorem State.setByte_cfg (s : State) (k : Nat) (b : Byte) : (s.setByte k b).cfg = s.cfg := rfl
@[simp] theorem State.setByte_col (s : State) (k : Nat) (b : Byte) : (s.setByte k b).col = s.col := rfl
@[simp] theorem State.setByte_step (s : State) (k : Nat) (b : Byte) : (s.setByte k b).step = s.step := rfl
@[simp] theorem State.setByte_ing (s : State) (k : Nat) (b : Byte) : (s.setByte k b).ing = s.ing := rfl
@[simp] theorem State.setByte_link (s : State) (k : Nat) (b : Byte) : (s.setByte k b).link = s.link := rfl
@[simp] theorem State.setByte_bank (s : State) (k : Nat) (b : Byte) : (s.setByte k b).bank = s.bank := rfl
@[simp] theorem State.setByte_hif (s : State) (k : Nat) (b : Byte) : (s.setByte k b).hif = s.hif := rfl
@[simp] theorem State.setByte_sec (s : State) (k : Nat) (b : Byte) : (s.setByte k b).sec = s.sec := rfl
@[simp] theorem State.setByte_pwr (s : State) (k : Nat) (b : Byte) : (s.setByte k b).pwr = s.pwr := rfl
@[simp] theorem State.setByte_dbg (s : State) (k : Nat) (b : Byte) : (s.setByte k b).dbg = s.dbg := rfl
@[simp] theorem State.setByte_jtag (s : State) (k : Nat) (b : Byte) : (s.setByte k b).jtag = s.jtag := rfl
@[simp] theorem State.setByte_pins (s : State) (k : Nat) (b : Byte) : (s.setByte k b).pins = s.pins := rfl
@[simp] theorem State.setByte_board (s : State) (k : Nat) (b : Byte) : (s.setByte k b).board = s.board := rfl
@[simp] theorem State.setByte_out (s : State) (k : Nat) (b : Byte) : (s.setByte k b).out = s.out := rfl
@[simp] theorem State.setByte_rand (s : State) (k : Nat) (b : Byte) : (s.setByte k b).rand = s.rand := rfl

/-! ### emit -/

@[simp] theorem State.emit_pending (s : State) (o : Out) : (s.emit o).pending = s.pending := rfl
@[simp] theorem State.emit_regs (s : State) (o : Out) : (s.emit o).regs = s.regs := rfl
@[simp] theorem State.emit_mem (s : State) (o : Out) : (s.emit o).mem = s.mem := rfl
@[simp] theorem State.emit_ecc (s : State) (o : Out) : (s.emit o).ecc = s.ecc := rfl
@[simp] theorem State.emit_embers (s : State) (o : Out) : (s.emit o).embers = s.embers := rfl
@[simp] theorem State.emit_hearths (s : State) (o : Out) : (s.emit o).hearths = s.hearths := rfl
@[simp] theorem State.emit_kilns (s : State) (o : Out) : (s.emit o).kilns = s.kilns := rfl
@[simp] theorem State.emit_cfg (s : State) (o : Out) : (s.emit o).cfg = s.cfg := rfl
@[simp] theorem State.emit_col (s : State) (o : Out) : (s.emit o).col = s.col := rfl
@[simp] theorem State.emit_step (s : State) (o : Out) : (s.emit o).step = s.step := rfl
@[simp] theorem State.emit_ing (s : State) (o : Out) : (s.emit o).ing = s.ing := rfl
@[simp] theorem State.emit_link (s : State) (o : Out) : (s.emit o).link = s.link := rfl
@[simp] theorem State.emit_bank (s : State) (o : Out) : (s.emit o).bank = s.bank := rfl
@[simp] theorem State.emit_hif (s : State) (o : Out) : (s.emit o).hif = s.hif := rfl
@[simp] theorem State.emit_sec (s : State) (o : Out) : (s.emit o).sec = s.sec := rfl
@[simp] theorem State.emit_pwr (s : State) (o : Out) : (s.emit o).pwr = s.pwr := rfl
@[simp] theorem State.emit_dbg (s : State) (o : Out) : (s.emit o).dbg = s.dbg := rfl
@[simp] theorem State.emit_jtag (s : State) (o : Out) : (s.emit o).jtag = s.jtag := rfl
@[simp] theorem State.emit_pins (s : State) (o : Out) : (s.emit o).pins = s.pins := rfl
@[simp] theorem State.emit_board (s : State) (o : Out) : (s.emit o).board = s.board := rfl
@[simp] theorem State.emit_rand (s : State) (o : Out) : (s.emit o).rand = s.rand := rfl

/-! ### setEmber -/

@[simp] theorem State.setEmber_pending (s : State) (i : Nat) (e : Ember) : (s.setEmber i e).pending = s.pending := rfl
@[simp] theorem State.setEmber_regs (s : State) (i : Nat) (e : Ember) : (s.setEmber i e).regs = s.regs := rfl
@[simp] theorem State.setEmber_mem (s : State) (i : Nat) (e : Ember) : (s.setEmber i e).mem = s.mem := rfl
@[simp] theorem State.setEmber_ecc (s : State) (i : Nat) (e : Ember) : (s.setEmber i e).ecc = s.ecc := rfl
@[simp] theorem State.setEmber_hearths (s : State) (i : Nat) (e : Ember) : (s.setEmber i e).hearths = s.hearths := rfl
@[simp] theorem State.setEmber_kilns (s : State) (i : Nat) (e : Ember) : (s.setEmber i e).kilns = s.kilns := rfl
@[simp] theorem State.setEmber_cfg (s : State) (i : Nat) (e : Ember) : (s.setEmber i e).cfg = s.cfg := rfl
@[simp] theorem State.setEmber_col (s : State) (i : Nat) (e : Ember) : (s.setEmber i e).col = s.col := rfl
@[simp] theorem State.setEmber_step (s : State) (i : Nat) (e : Ember) : (s.setEmber i e).step = s.step := rfl
@[simp] theorem State.setEmber_ing (s : State) (i : Nat) (e : Ember) : (s.setEmber i e).ing = s.ing := rfl
@[simp] theorem State.setEmber_link (s : State) (i : Nat) (e : Ember) : (s.setEmber i e).link = s.link := rfl
@[simp] theorem State.setEmber_bank (s : State) (i : Nat) (e : Ember) : (s.setEmber i e).bank = s.bank := rfl
@[simp] theorem State.setEmber_hif (s : State) (i : Nat) (e : Ember) : (s.setEmber i e).hif = s.hif := rfl
@[simp] theorem State.setEmber_sec (s : State) (i : Nat) (e : Ember) : (s.setEmber i e).sec = s.sec := rfl
@[simp] theorem State.setEmber_pwr (s : State) (i : Nat) (e : Ember) : (s.setEmber i e).pwr = s.pwr := rfl
@[simp] theorem State.setEmber_dbg (s : State) (i : Nat) (e : Ember) : (s.setEmber i e).dbg = s.dbg := rfl
@[simp] theorem State.setEmber_jtag (s : State) (i : Nat) (e : Ember) : (s.setEmber i e).jtag = s.jtag := rfl
@[simp] theorem State.setEmber_pins (s : State) (i : Nat) (e : Ember) : (s.setEmber i e).pins = s.pins := rfl
@[simp] theorem State.setEmber_board (s : State) (i : Nat) (e : Ember) : (s.setEmber i e).board = s.board := rfl
@[simp] theorem State.setEmber_out (s : State) (i : Nat) (e : Ember) : (s.setEmber i e).out = s.out := rfl
@[simp] theorem State.setEmber_rand (s : State) (i : Nat) (e : Ember) : (s.setEmber i e).rand = s.rand := rfl

/-! ### setHearth -/

@[simp] theorem State.setHearth_pending (s : State) (h : Nat) (x : Hearth) : (s.setHearth h x).pending = s.pending := rfl
@[simp] theorem State.setHearth_regs (s : State) (h : Nat) (x : Hearth) : (s.setHearth h x).regs = s.regs := rfl
@[simp] theorem State.setHearth_mem (s : State) (h : Nat) (x : Hearth) : (s.setHearth h x).mem = s.mem := rfl
@[simp] theorem State.setHearth_ecc (s : State) (h : Nat) (x : Hearth) : (s.setHearth h x).ecc = s.ecc := rfl
@[simp] theorem State.setHearth_embers (s : State) (h : Nat) (x : Hearth) : (s.setHearth h x).embers = s.embers := rfl
@[simp] theorem State.setHearth_kilns (s : State) (h : Nat) (x : Hearth) : (s.setHearth h x).kilns = s.kilns := rfl
@[simp] theorem State.setHearth_cfg (s : State) (h : Nat) (x : Hearth) : (s.setHearth h x).cfg = s.cfg := rfl
@[simp] theorem State.setHearth_col (s : State) (h : Nat) (x : Hearth) : (s.setHearth h x).col = s.col := rfl
@[simp] theorem State.setHearth_step (s : State) (h : Nat) (x : Hearth) : (s.setHearth h x).step = s.step := rfl
@[simp] theorem State.setHearth_ing (s : State) (h : Nat) (x : Hearth) : (s.setHearth h x).ing = s.ing := rfl
@[simp] theorem State.setHearth_link (s : State) (h : Nat) (x : Hearth) : (s.setHearth h x).link = s.link := rfl
@[simp] theorem State.setHearth_bank (s : State) (h : Nat) (x : Hearth) : (s.setHearth h x).bank = s.bank := rfl
@[simp] theorem State.setHearth_hif (s : State) (h : Nat) (x : Hearth) : (s.setHearth h x).hif = s.hif := rfl
@[simp] theorem State.setHearth_sec (s : State) (h : Nat) (x : Hearth) : (s.setHearth h x).sec = s.sec := rfl
@[simp] theorem State.setHearth_pwr (s : State) (h : Nat) (x : Hearth) : (s.setHearth h x).pwr = s.pwr := rfl
@[simp] theorem State.setHearth_dbg (s : State) (h : Nat) (x : Hearth) : (s.setHearth h x).dbg = s.dbg := rfl
@[simp] theorem State.setHearth_jtag (s : State) (h : Nat) (x : Hearth) : (s.setHearth h x).jtag = s.jtag := rfl
@[simp] theorem State.setHearth_pins (s : State) (h : Nat) (x : Hearth) : (s.setHearth h x).pins = s.pins := rfl
@[simp] theorem State.setHearth_board (s : State) (h : Nat) (x : Hearth) : (s.setHearth h x).board = s.board := rfl
@[simp] theorem State.setHearth_out (s : State) (h : Nat) (x : Hearth) : (s.setHearth h x).out = s.out := rfl
@[simp] theorem State.setHearth_rand (s : State) (h : Nat) (x : Hearth) : (s.setHearth h x).rand = s.rand := rfl

/-! ### setKiln -/

@[simp] theorem State.setKiln_pending (s : State) (k : Nat) (x : Kiln) : (s.setKiln k x).pending = s.pending := rfl
@[simp] theorem State.setKiln_regs (s : State) (k : Nat) (x : Kiln) : (s.setKiln k x).regs = s.regs := rfl
@[simp] theorem State.setKiln_mem (s : State) (k : Nat) (x : Kiln) : (s.setKiln k x).mem = s.mem := rfl
@[simp] theorem State.setKiln_ecc (s : State) (k : Nat) (x : Kiln) : (s.setKiln k x).ecc = s.ecc := rfl
@[simp] theorem State.setKiln_embers (s : State) (k : Nat) (x : Kiln) : (s.setKiln k x).embers = s.embers := rfl
@[simp] theorem State.setKiln_hearths (s : State) (k : Nat) (x : Kiln) : (s.setKiln k x).hearths = s.hearths := rfl
@[simp] theorem State.setKiln_cfg (s : State) (k : Nat) (x : Kiln) : (s.setKiln k x).cfg = s.cfg := rfl
@[simp] theorem State.setKiln_col (s : State) (k : Nat) (x : Kiln) : (s.setKiln k x).col = s.col := rfl
@[simp] theorem State.setKiln_step (s : State) (k : Nat) (x : Kiln) : (s.setKiln k x).step = s.step := rfl
@[simp] theorem State.setKiln_ing (s : State) (k : Nat) (x : Kiln) : (s.setKiln k x).ing = s.ing := rfl
@[simp] theorem State.setKiln_link (s : State) (k : Nat) (x : Kiln) : (s.setKiln k x).link = s.link := rfl
@[simp] theorem State.setKiln_bank (s : State) (k : Nat) (x : Kiln) : (s.setKiln k x).bank = s.bank := rfl
@[simp] theorem State.setKiln_hif (s : State) (k : Nat) (x : Kiln) : (s.setKiln k x).hif = s.hif := rfl
@[simp] theorem State.setKiln_sec (s : State) (k : Nat) (x : Kiln) : (s.setKiln k x).sec = s.sec := rfl
@[simp] theorem State.setKiln_pwr (s : State) (k : Nat) (x : Kiln) : (s.setKiln k x).pwr = s.pwr := rfl
@[simp] theorem State.setKiln_dbg (s : State) (k : Nat) (x : Kiln) : (s.setKiln k x).dbg = s.dbg := rfl
@[simp] theorem State.setKiln_jtag (s : State) (k : Nat) (x : Kiln) : (s.setKiln k x).jtag = s.jtag := rfl
@[simp] theorem State.setKiln_pins (s : State) (k : Nat) (x : Kiln) : (s.setKiln k x).pins = s.pins := rfl
@[simp] theorem State.setKiln_board (s : State) (k : Nat) (x : Kiln) : (s.setKiln k x).board = s.board := rfl
@[simp] theorem State.setKiln_out (s : State) (k : Nat) (x : Kiln) : (s.setKiln k x).out = s.out := rfl
@[simp] theorem State.setKiln_rand (s : State) (k : Nat) (x : Kiln) : (s.setKiln k x).rand = s.rand := rfl

/-! ### Bit fields -/

theorem bits_lt (v lo w : Nat) : bits v lo w < 2 ^ w := Nat.mod_lt _ (Nat.two_pow_pos w)

/-- Bit i of a bit field. -/
theorem testBit_bits (v lo w i : Nat) : (bits v lo w).testBit i = (decide (i < w) && v.testBit (lo + i)) := by
  unfold bits
  rw [Nat.testBit_mod_two_pow, Nat.testBit_div_two_pow, Nat.add_comm]

/-- A word with one field replaced, as the parts above, in and below the field. -/
theorem withBits_eq (x lo w v : Nat) :
    withBits x lo w v = x / 2 ^ (lo + w) * 2 ^ (lo + w) + v % 2 ^ w * 2 ^ lo + x % 2 ^ lo := by
  unfold withBits bits
  have h1 : x = x / 2 ^ lo * 2 ^ lo + x % 2 ^ lo := by rw [Nat.mul_comm]; exact (Nat.div_add_mod _ _).symm
  have h2 : x / 2 ^ lo = x / 2 ^ (lo + w) * 2 ^ w + x / 2 ^ lo % 2 ^ w := by
    rw [Nat.pow_add, ← Nat.div_div_eq_div_mul, Nat.mul_comm]; exact (Nat.div_add_mod _ _).symm
  have h3 : x = x / 2 ^ (lo + w) * 2 ^ (lo + w) + x / 2 ^ lo % 2 ^ w * 2 ^ lo + x % 2 ^ lo := by
    conv_lhs => rw [h1, h2]
    rw [Nat.pow_add]
    ring
  omega

/-- The field that was replaced. -/
@[simp] theorem bits_withBits_self (x lo w v : Nat) : bits (withBits x lo w v) lo w = v % 2 ^ w := by
  rw [withBits_eq]
  unfold bits
  have e : x / 2 ^ (lo + w) * 2 ^ (lo + w) + v % 2 ^ w * 2 ^ lo + x % 2 ^ lo =
      x % 2 ^ lo + 2 ^ lo * (v % 2 ^ w + 2 ^ w * (x / 2 ^ (lo + w))) := by
    rw [Nat.pow_add]; ring
  rw [e, Nat.add_mul_div_left _ _ (Nat.two_pow_pos lo), Nat.div_eq_of_lt (Nat.mod_lt _ (Nat.two_pow_pos lo)), Nat.zero_add,
    Nat.add_mul_mod_self_left, Nat.mod_mod]

/-- A field below the one that was replaced. -/
theorem bits_withBits_below (x lo w v lo' w' : Nat) (h : lo' + w' ≤ lo) : bits (withBits x lo w v) lo' w' = bits x lo' w' := by
  have key : withBits x lo w v % 2 ^ lo = x % 2 ^ lo := by
    rw [withBits_eq, Nat.pow_add]
    have e : x / (2 ^ lo * 2 ^ w) * (2 ^ lo * 2 ^ w) + v % 2 ^ w * 2 ^ lo + x % 2 ^ lo =
        x % 2 ^ lo + 2 ^ lo * (x / (2 ^ lo * 2 ^ w) * 2 ^ w + v % 2 ^ w) := by ring
    rw [e, Nat.add_mul_mod_self_left, Nat.mod_mod]
  apply Nat.eq_of_testBit_eq
  intro i
  rw [testBit_bits, testBit_bits]
  by_cases hi : i < w'
  · have : ∀ y : Nat, y.testBit (lo' + i) = (y % 2 ^ lo).testBit (lo' + i) := fun y => by
      rw [Nat.testBit_mod_two_pow, decide_eq_true (by omega : lo' + i < lo), Bool.true_and]
    rw [this (withBits x lo w v), this x, key]
  · simp [hi]

/-- A field above the one that was replaced. -/
theorem bits_withBits_above (x lo w v lo' w' : Nat) (h : lo + w ≤ lo') : bits (withBits x lo w v) lo' w' = bits x lo' w' := by
  have key : withBits x lo w v / 2 ^ (lo + w) = x / 2 ^ (lo + w) := by
    rw [withBits_eq]
    have hv : v % 2 ^ w * 2 ^ lo + x % 2 ^ lo < 2 ^ (lo + w) := by
      have a := Nat.mod_lt v (Nat.two_pow_pos w)
      have b := Nat.mod_lt x (Nat.two_pow_pos lo)
      have c : v % 2 ^ w * 2 ^ lo + 2 ^ lo ≤ 2 ^ w * 2 ^ lo := by
        rw [← Nat.succ_mul]; exact Nat.mul_le_mul_right _ a
      rw [Nat.pow_add, Nat.mul_comm (2 ^ lo)]
      omega
    rw [Nat.add_assoc, Nat.add_comm, Nat.add_mul_div_right _ _ (Nat.two_pow_pos _), Nat.div_eq_of_lt hv, Nat.zero_add]
  have e : ∀ y : Nat, y / 2 ^ lo' = y / 2 ^ (lo + w) / 2 ^ (lo' - (lo + w)) := fun y => by
    rw [Nat.div_div_eq_div_mul, ← Nat.pow_add, Nat.add_sub_cancel' h]
  unfold bits
  rw [e (withBits x lo w v), e x, key]

/-- A replaced field keeps a word within 64 bits. -/
theorem withBits_lt (x lo w v : Nat) (hx : x < 2 ^ 64) (h : lo + w ≤ 64) : withBits x lo w v < 2 ^ 64 := by
  apply Nat.lt_pow_two_of_testBit
  intro i hi
  have a := bits_withBits_above x lo w v i 1 (by omega)
  have b : (withBits x lo w v).testBit i = x.testBit i := by
    have := congrArg (fun y => y.testBit 0) a
    simpa only [testBit_bits, Nat.zero_lt_one, decide_true, Bool.true_and, Nat.add_zero] using this
  rw [b]
  exact Nat.testBit_lt_two_pow (Nat.lt_of_lt_of_le hx (Nat.pow_le_pow_right (by decide) hi))

/-! ### Register words and fields -/

/-- A word that was written. -/
@[simp] theorem State.word_setWord_self (s : State) (off rst v : Nat) (h : rst < 2 ^ 64) :
    (s.setWord off rst v).word off rst = v % 2 ^ 64 := by
  unfold State.word State.setWord sset
  split
  · rename_i x e
    split at e
    · simp at e
    · simp only [sfind_sput_self, Option.some.injEq] at e
      rw [← e, BitVec.toNat_ofNat]
  · rename_i e
    split at e
    · rename_i g
      have := congrArg BitVec.toNat g
      simp only [BitVec.toNat_ofNat] at this
      rw [this, Nat.mod_eq_of_lt h]
    · simp at e

/-- Every other word. -/
theorem State.word_setWord_ne (s : State) {off off' : Nat} (rst v rst' : Nat) (h : off ≠ off') :
    (s.setWord off rst v).word off' rst' = s.word off' rst' := by
  have e : sfind (s.setWord off rst v).regs off' = sfind s.regs off' := by
    unfold State.setWord sset
    simp only
    split
    · exact sfind_sdel_ne _ h
    · exact sfind_sput_ne _ _ h
  unfold State.word
  rw [e]

theorem State.word_lt (s : State) (off rst : Nat) (h : rst < 2 ^ 64) : s.word off rst < 2 ^ 64 := by
  unfold State.word
  split
  · exact BitVec.isLt _
  · exact h

/-- What makes a field lie within its 64-bit register. -/
def Fld.fits (f : Fld) : Prop := f.rst < 2 ^ 64 ∧ f.lo + f.w ≤ 64

/-- A field that was written. -/
theorem State.get_put_self (s : State) (f : Fld) (v : Nat) (h : f.fits) : (s.put f v).get f = v % 2 ^ f.w := by
  unfold State.get State.put
  rw [State.word_setWord_self _ _ _ _ h.1, Nat.mod_eq_of_lt (withBits_lt _ _ _ _ (s.word_lt _ _ h.1) h.2), bits_withBits_self]

/-- A field of another register. -/
theorem State.get_put_ne (s : State) {f g : Fld} (v : Nat) (h : f.off ≠ g.off) : (s.put f v).get g = s.get g := by
  unfold State.get State.put
  rw [State.word_setWord_ne _ _ _ _ h]

/-- Another field of the same register. -/
theorem State.get_put_beside (s : State) {f g : Fld} (v : Nat) (hf : f.fits) (ho : f.off = g.off) (hr : f.rst = g.rst)
    (h : g.lo + g.w ≤ f.lo ∨ f.lo + f.w ≤ g.lo) : (s.put f v).get g = s.get g := by
  unfold State.get State.put
  rw [← ho, ← hr, State.word_setWord_self _ _ _ _ hf.1,
    Nat.mod_eq_of_lt (withBits_lt _ _ _ _ (s.word_lt _ _ hf.1) hf.2)]
  rcases h with h | h
  · exact bits_withBits_below _ _ _ _ _ _ h
  · exact bits_withBits_above _ _ _ _ _ _ h

/-- A word of another register than the field's. -/
theorem State.word_put_ne (s : State) {f : Fld} {off : Nat} (v rst : Nat) (h : f.off ≠ off) :
    (s.put f v).word off rst = s.word off rst := State.word_setWord_ne _ _ _ _ h

/-! ### Units -/

@[simp] theorem State.hearth_setHearth (s : State) (h : Nat) (x : Hearth) : (s.setHearth h x).hearth h = x :=
  sget_sset_self _ _ _ _

theorem State.hearth_setHearth_ne (s : State) {h h' : Nat} (x : Hearth) (n : h ≠ h') : (s.setHearth h x).hearth h' = s.hearth h' :=
  sget_sset_ne _ _ _ n

@[simp] theorem State.ember_setEmber (s : State) (i : Nat) (e : Ember) : (s.setEmber i e).ember i = e := sget_sset_self _ _ _ _

theorem State.ember_setEmber_ne (s : State) {i j : Nat} (e : Ember) (n : i ≠ j) : (s.setEmber i e).ember j = s.ember j :=
  sget_sset_ne _ _ _ n

@[simp] theorem State.kiln_setKiln (s : State) (k : Nat) (x : Kiln) : (s.setKiln k x).kiln k = x := sget_sset_self _ _ _ _

theorem State.kiln_setKiln_ne (s : State) {k j : Nat} (x : Kiln) (n : k ≠ j) : (s.setKiln k x).kiln j = s.kiln j :=
  sget_sset_ne _ _ _ n

/-! ### Changes of registers alone -/

/-- Only registers differ from s to t. -/
def RegsOnly (s t : State) : Prop := t = { s with regs := t.regs }

theorem RegsOnly.rfl {s : State} : RegsOnly s s := by
  unfold RegsOnly
  rfl

theorem RegsOnly.trans {s t u : State} (h : RegsOnly s t) (g : RegsOnly t u) : RegsOnly s u := by
  unfold RegsOnly at *
  rw [g, h]

theorem State.setWord_regsOnly {s t : State} (off rst v : Nat) (h : RegsOnly s t) : RegsOnly s (t.setWord off rst v) :=
  h.trans (Eq.refl _)

theorem State.put_regsOnly {s t : State} (f : Fld) (v : Nat) (h : RegsOnly s t) : RegsOnly s (t.put f v) := h.trans (Eq.refl _)

theorem State.bump_regsOnly {s t : State} (f : Fld) (n : Nat) (h : RegsOnly s t) : RegsOnly s (t.bump f n) := h.trans (Eq.refl _)

theorem State.bumpSat_regsOnly {s t : State} (f : Fld) (n : Nat) (h : RegsOnly s t) : RegsOnly s (t.bumpSat f n) := h.trans (Eq.refl _)

theorem State.orInto_regsOnly {s t : State} (f : Fld) (v : Nat) (h : RegsOnly s t) : RegsOnly s (t.orInto f v) := h.trans (Eq.refl _)

theorem RegsOnly.foldl {α : Type} {s t : State} (xs : List α) {f : State → α → State} (ht : RegsOnly s t)
    (hf : ∀ u x, RegsOnly u (f u x)) : RegsOnly s (xs.foldl f t) := by
  induction xs generalizing t with
  | nil => exact ht
  | cons x xs ih => exact ih (ht.trans (hf t x))

theorem RegsOnly.mem {s t : State} (h : RegsOnly s t) : t.mem = s.mem := by rw [h]

/-- Registers outside a list of offsets are kept by the composition of two changes that keep them. -/
theorem State.WordsKept.trans {s t u : State} {l : List Nat} (h : s.WordsKept t l) (g : t.WordsKept u l) : s.WordsKept u l :=
  fun off rst n => (g off rst n).trans (h off rst n)

theorem State.WordsKept.rfl {s : State} {l : List Nat} : s.WordsKept s l := fun _ _ _ => (Eq.refl _)

theorem State.WordsKept.foldl {α : Type} {s t : State} {l : List Nat} (xs : List α) {f : State → α → State} (ht : s.WordsKept t l)
    (hf : ∀ (u : State) x, u.WordsKept (f u x) l) : s.WordsKept (xs.foldl f t) l := by
  induction xs generalizing t with
  | nil => exact ht
  | cons x xs ih => exact ih (ht.trans (hf t x))

theorem State.put_wordsKept {s t : State} {l : List Nat} (f : Fld) (v : Nat) (hf : f.off ∈ l) (h : s.WordsKept t l) :
    s.WordsKept (t.put f v) l :=
  h.trans fun _ _ n => State.word_put_ne _ _ _ fun e => n (e ▸ hf)

theorem State.bump_wordsKept {s t : State} {l : List Nat} (f : Fld) (n : Nat) (hf : f.off ∈ l) (h : s.WordsKept t l) :
    s.WordsKept (t.bump f n) l := State.put_wordsKept _ _ hf h

theorem State.bumpSat_wordsKept {s t : State} {l : List Nat} (f : Fld) (n : Nat) (hf : f.off ∈ l) (h : s.WordsKept t l) :
    s.WordsKept (t.bumpSat f n) l := State.put_wordsKept _ _ hf h

/-- A field of a register that was kept. -/
theorem State.WordsKept.get {s t : State} {l : List Nat} (h : s.WordsKept t l) {f : Fld} (hf : f.off ∉ l) : t.get f = s.get f := by
  unfold State.get
  rw [h _ _ hf]

/-! ### First errors -/

theorem State.firstErr_regsOnly {s t : State} (v c : Fld) (n : Nat) (more : List (Fld × Nat)) (h : RegsOnly s t) :
    RegsOnly s (t.firstErr v c n more) := by
  unfold State.firstErr
  split
  · exact h
  · exact State.put_regsOnly _ _ (RegsOnly.foldl _ (State.put_regsOnly _ _ h) fun _ _ => State.put_regsOnly _ _ RegsOnly.rfl)

theorem State.firstErr_wordsKept {s t : State} {l : List Nat} (v c : Fld) (n : Nat) (more : List (Fld × Nat)) (h : s.WordsKept t l)
    (hv : v.off ∈ l) (hc : c.off ∈ l) (hm : ∀ p ∈ more, p.1.off ∈ l) : s.WordsKept (t.firstErr v c n more) l := by
  unfold State.firstErr
  split
  · exact h
  · refine State.put_wordsKept _ _ hv ?_
    have h1 := State.put_wordsKept c n hc h
    generalize t.put c n = u at h1
    induction more generalizing u with
    | nil => exact h1
    | cons p ps ih =>
      exact ih (fun q hq => hm q (List.mem_cons_of_mem _ hq)) _ (State.put_wordsKept _ _ (hm p List.mem_cons_self) h1)

end Sys2Proof.Machine
end

