-- ==== Sys2Proof/Laws/Lanes.lean ====
section
/-! SUPPORT. What completing a vector instruction does: lanes, flags, status bits and counts, and nothing else. -/

namespace Sys2Proof.Machine

theorem sticky_get (s : State) (f : Fld) (fl : Fl) (h : f.fits) (hw : f.w = 14) :
    (s.sticky f fl).get f = s.get f ||| fl.toNat := by
  have hs : s.get f < 2 ^ 14 := hw ▸ bits_lt _ _ _
  have hf : fl.toNat < 2 ^ 14 := fl.isLt
  unfold State.sticky
  dsimp only
  split
  · rename_i e
    have e' : fl ||| BitVec.ofNat 14 (s.get f) = BitVec.ofNat 14 (s.get f) := by
      apply BitVec.eq_of_getLsbD_eq
      intro i hi
      have := congrArg (fun x => x.getLsbD i) e
      simp only [BitVec.getLsbD_and, BitVec.getLsbD_not, hi, decide_true, Bool.true_and] at this
      rw [BitVec.getLsbD_or]
      cases h1 : fl.getLsbD i <;> cases h2 : (BitVec.ofNat 14 (s.get f)).getLsbD i <;> simp_all
    have := congrArg BitVec.toNat e'
    rw [BitVec.toNat_or, BitVec.toNat_ofNat, Nat.mod_eq_of_lt hs] at this
    rw [Nat.lor_comm, this]
  · have : ∀ u : State, (u.noteFlags (fl &&& ~~~(BitVec.ofNat 14 (s.get f)))).get f = u.get f := fun u => by
      unfold State.noteFlags
      repeat' split
      all_goals rfl
    rw [this]
    unfold State.orInto
    rw [State.get_put_self _ _ _ h, hw, Nat.mod_eq_of_lt (Nat.or_lt_two_pow hs hf)]

theorem sticky_word (s : State) {f : Fld} (fl : Fl) {off : Nat} (rst : Nat) (h : f.off ≠ off) :
    (s.sticky f fl).word off rst = s.word off rst := by
  unfold State.sticky
  dsimp only
  split
  · rfl
  · have : ∀ (u : State) x, (u.noteFlags x).word off rst = u.word off rst := fun u x => by
      unfold State.noteFlags
      repeat' split
      all_goals rfl
    rw [this]
    exact State.word_put_ne _ _ _ h

/-- Fields other than the flag word's hold under sticky flags. -/
theorem sticky_get_ne (s : State) {f g : Fld} (fl : Fl) (h : f.off ≠ g.off) : (s.sticky f fl).get g = s.get g := by
  unfold State.get
  rw [sticky_word s fl _ h]

/-- What sticky flags change: their register, and the flags of the work in progress. -/
theorem sticky_rest (s : State) (f : Fld) (fl : Fl) : s.sticky f fl = { s with
    regs := (s.sticky f fl).regs, step := { s.step with flags := (s.sticky f fl).step.flags }
    col := { s.col with started := (s.sticky f fl).col.started } } := by
  unfold State.sticky State.noteFlags
  dsimp only
  repeat' split
  all_goals rfl

/-- A field set when a condition holds. -/
def State.putIf (s : State) (c : Prop) [Decidable c] (f : Fld) (v : Nat) : State := if c then s.put f v else s

theorem State.putIf_word (s : State) (c : Prop) [Decidable c] {f : Fld} (v : Nat) {off : Nat} (rst : Nat) (h : f.off ≠ off) :
    (s.putIf c f v).word off rst = s.word off rst := by
  unfold State.putIf
  split
  · exact State.word_put_ne _ _ _ h
  · rfl

theorem State.putIf_get_self (s : State) (c : Prop) [Decidable c] (f : Fld) (v : Nat) (h : f.fits) :
    (s.putIf c f v).get f = if c then v % 2 ^ f.w else s.get f := by
  unfold State.putIf
  split
  · exact State.get_put_self _ _ _ h
  · rfl

theorem State.putIf_get_beside (s : State) (c : Prop) [Decidable c] {f g : Fld} (v : Nat) (hf : f.fits) (ho : f.off = g.off)
    (hr : f.rst = g.rst) (h : g.lo + g.w ≤ f.lo ∨ f.lo + f.w ≤ g.lo) : (s.putIf c f v).get g = s.get g := by
  unfold State.putIf
  split
  · exact State.get_put_beside _ _ hf ho hr h
  · rfl

theorem State.putIf_rest (s : State) (c : Prop) [Decidable c] (f : Fld) (v : Nat) :
    s.putIf c f v = { s with regs := (s.putIf c f v).regs } := by
  unfold State.putIf
  split <;> rfl

theorem vecFlags_eq (s : State) (h : Nat) (fl : Fl) (ie : Ie) : s.vecFlags h fl ie =
    (((((s.sticky (Reg.HTH_VFLAGS_flags h) fl).putIf (ie &&& ieIV ≠ 0) (Reg.HTH_VIEEE_IV h) 1).putIf (ie &&& ieDZ ≠ 0)
      (Reg.HTH_VIEEE_DZ h) 1).putIf (ie &&& ieOFL ≠ 0) (Reg.HTH_VIEEE_OFL h) 1).putIf (ie &&& ieUFL ≠ 0)
      (Reg.HTH_VIEEE_UFL h) 1).putIf (ie &&& ieINX ≠ 0) (Reg.HTH_VIEEE_INX h) 1 := rfl

theorem VIEEE_fits (h : Nat) : (Reg.HTH_VIEEE_IV h).fits ∧ (Reg.HTH_VIEEE_DZ h).fits ∧ (Reg.HTH_VIEEE_OFL h).fits ∧
    (Reg.HTH_VIEEE_UFL h).fits ∧ (Reg.HTH_VIEEE_INX h).fits := by
  refine ⟨⟨?_, ?_⟩, ⟨?_, ?_⟩, ⟨?_, ?_⟩, ⟨?_, ?_⟩, ⟨?_, ?_⟩⟩ <;> first | exact Nat.two_pow_pos 64 | exact Nat.le_of_ble_eq_true rfl

/-- The status bits that a vector instruction leaves. -/
theorem vecFlags_status (s : State) (h : Nat) (fl : Fl) (ie : Ie) :
    ∀ p ∈ [(ieIV, Reg.HTH_VIEEE_IV h), (ieDZ, Reg.HTH_VIEEE_DZ h), (ieOFL, Reg.HTH_VIEEE_OFL h),
      (ieUFL, Reg.HTH_VIEEE_UFL h), (ieINX, Reg.HTH_VIEEE_INX h)],
      (s.vecFlags h fl ie).get p.2 = if ie &&& p.1 ≠ 0 then 1 else s.get p.2 := by
  obtain ⟨f0, f1, f2, f3, f4⟩ := VIEEE_fits h
  have d : (Reg.HTH_VFLAGS_flags h).off ≠ (Reg.HTH_VIEEE_IV h).off := by
    simp only [Reg.HTH_VFLAGS_flags, Reg.HTH_VIEEE_IV]; omega
  intro p hp
  rw [vecFlags_eq]
  simp only [List.mem_cons, List.not_mem_nil, or_false] at hp
  rcases hp with rfl | rfl | rfl | rfl | rfl <;> dsimp only
  · rw [State.putIf_get_beside (g := Reg.HTH_VIEEE_IV h) _ _ _ f4 rfl rfl (.inl (Nat.le_of_ble_eq_true rfl)),
      State.putIf_get_beside (g := Reg.HTH_VIEEE_IV h) _ _ _ f3 rfl rfl (.inl (Nat.le_of_ble_eq_true rfl)),
      State.putIf_get_beside (g := Reg.HTH_VIEEE_IV h) _ _ _ f2 rfl rfl (.inl (Nat.le_of_ble_eq_true rfl)),
      State.putIf_get_beside (g := Reg.HTH_VIEEE_IV h) _ _ _ f1 rfl rfl (.inl (Nat.le_of_ble_eq_true rfl)),
      State.putIf_get_self _ _ _ _ f0, sticky_get_ne (g := Reg.HTH_VIEEE_IV h) _ _ d]
    rfl
  · rw [State.putIf_get_beside (g := Reg.HTH_VIEEE_DZ h) _ _ _ f4 rfl rfl (.inl (Nat.le_of_ble_eq_true rfl)),
      State.putIf_get_beside (g := Reg.HTH_VIEEE_DZ h) _ _ _ f3 rfl rfl (.inl (Nat.le_of_ble_eq_true rfl)),
      State.putIf_get_beside (g := Reg.HTH_VIEEE_DZ h) _ _ _ f2 rfl rfl (.inl (Nat.le_of_ble_eq_true rfl)),
      State.putIf_get_self _ _ _ _ f1,
      State.putIf_get_beside (g := Reg.HTH_VIEEE_DZ h) _ _ _ f0 rfl rfl (.inr (Nat.le_of_ble_eq_true rfl)), sticky_get_ne (g := Reg.HTH_VIEEE_DZ h) _ _ d]
    rfl
  · rw [State.putIf_get_beside (g := Reg.HTH_VIEEE_OFL h) _ _ _ f4 rfl rfl (.inl (Nat.le_of_ble_eq_true rfl)),
      State.putIf_get_beside (g := Reg.HTH_VIEEE_OFL h) _ _ _ f3 rfl rfl (.inl (Nat.le_of_ble_eq_true rfl)),
      State.putIf_get_self _ _ _ _ f2,
      State.putIf_get_beside (g := Reg.HTH_VIEEE_OFL h) _ _ _ f1 rfl rfl (.inr (Nat.le_of_ble_eq_true rfl)),
      State.putIf_get_beside (g := Reg.HTH_VIEEE_OFL h) _ _ _ f0 rfl rfl (.inr (Nat.le_of_ble_eq_true rfl)), sticky_get_ne (g := Reg.HTH_VIEEE_OFL h) _ _ d]
    rfl
  · rw [State.putIf_get_beside (g := Reg.HTH_VIEEE_UFL h) _ _ _ f4 rfl rfl (.inl (Nat.le_of_ble_eq_true rfl)),
      State.putIf_get_self _ _ _ _ f3,
      State.putIf_get_beside (g := Reg.HTH_VIEEE_UFL h) _ _ _ f2 rfl rfl (.inr (Nat.le_of_ble_eq_true rfl)),
      State.putIf_get_beside (g := Reg.HTH_VIEEE_UFL h) _ _ _ f1 rfl rfl (.inr (Nat.le_of_ble_eq_true rfl)),
      State.putIf_get_beside (g := Reg.HTH_VIEEE_UFL h) _ _ _ f0 rfl rfl (.inr (Nat.le_of_ble_eq_true rfl)), sticky_get_ne (g := Reg.HTH_VIEEE_UFL h) _ _ d]
    rfl
  · rw [State.putIf_get_self _ _ _ _ f4,
      State.putIf_get_beside (g := Reg.HTH_VIEEE_INX h) _ _ _ f3 rfl rfl (.inr (Nat.le_of_ble_eq_true rfl)),
      State.putIf_get_beside (g := Reg.HTH_VIEEE_INX h) _ _ _ f2 rfl rfl (.inr (Nat.le_of_ble_eq_true rfl)),
      State.putIf_get_beside (g := Reg.HTH_VIEEE_INX h) _ _ _ f1 rfl rfl (.inr (Nat.le_of_ble_eq_true rfl)),
      State.putIf_get_beside (g := Reg.HTH_VIEEE_INX h) _ _ _ f0 rfl rfl (.inr (Nat.le_of_ble_eq_true rfl)), sticky_get_ne (g := Reg.HTH_VIEEE_INX h) _ _ d]
    rfl

/-- Outside the status register, the flags of a vector instruction leave what the sticky flags leave. -/
theorem vecFlags_word' (s : State) (h : Nat) (fl : Fl) (ie : Ie) {off : Nat} (rst : Nat) (h2 : (Reg.HTH_VIEEE_IV h).off ≠ off) :
    (s.vecFlags h fl ie).word off rst = (s.sticky (Reg.HTH_VFLAGS_flags h) fl).word off rst := by
  rw [vecFlags_eq, State.putIf_word (f := Reg.HTH_VIEEE_INX h) _ _ _ _ h2, State.putIf_word (f := Reg.HTH_VIEEE_UFL h) _ _ _ _ h2,
    State.putIf_word (f := Reg.HTH_VIEEE_OFL h) _ _ _ _ h2, State.putIf_word (f := Reg.HTH_VIEEE_DZ h) _ _ _ _ h2,
    State.putIf_word (f := Reg.HTH_VIEEE_IV h) _ _ _ _ h2]

/-- The registers that the flags of a vector instruction leave. -/
theorem vecFlags_word (s : State) (h : Nat) (fl : Fl) (ie : Ie) {off : Nat} (rst : Nat)
    (h1 : (Reg.HTH_VFLAGS_flags h).off ≠ off) (h2 : (Reg.HTH_VIEEE_IV h).off ≠ off) :
    (s.vecFlags h fl ie).word off rst = s.word off rst := by
  rw [vecFlags_word' _ _ _ _ _ h2, sticky_word _ _ _ h1]

theorem vecFlags_rest (s : State) (h : Nat) (fl : Fl) (ie : Ie) : s.vecFlags h fl ie = { s with
    regs := (s.vecFlags h fl ie).regs, step := { s.step with flags := (s.vecFlags h fl ie).step.flags }
    col := { s.col with started := (s.vecFlags h fl ie).col.started } } := by
  rw [vecFlags_eq]
  generalize e : s.sticky (Reg.HTH_VFLAGS_flags h) fl = t
  have r := sticky_rest s (Reg.HTH_VFLAGS_flags h) fl
  rw [e] at r
  have q : ∀ (u : State) (c : Prop) [Decidable c] (f : Fld) (v : Nat), (u = { s with
      regs := u.regs, step := { s.step with flags := u.step.flags }, col := { s.col with started := u.col.started } }) →
      u.putIf c f v = { s with regs := (u.putIf c f v).regs, step := { s.step with flags := (u.putIf c f v).step.flags }
                               col := { s.col with started := (u.putIf c f v).col.started } } := by
    intro u c _ f v hu
    unfold State.putIf
    split
    · rw [hu]; rfl
    · exact hu
  exact q _ _ _ _ (q _ _ _ _ (q _ _ _ _ (q _ _ _ _ (q _ _ _ _ r))))

/-! ### Lanes -/

/-- Codes put into a lane map one after another. -/
theorem lanes_foldl (r : Nat) (codes : List Nat) (n : Nat) (m : SMap (BitVec 32)) (k : Nat) :
    sget (0 : BitVec 32) ((codes.zipIdx n).foldl (fun m p => sset (0 : BitVec 32) m (r * 1024 + p.2) (BitVec.ofNat 32 p.1)) m) k =
      if r * 1024 + n ≤ k ∧ k < r * 1024 + n + codes.length then BitVec.ofNat 32 (codes.getD (k - (r * 1024 + n)) 0)
      else sget 0 m k := by
  induction codes generalizing n m with
  | nil => simp
  | cons c cs ih =>
    rw [List.zipIdx_cons, List.foldl_cons, ih]
    simp only [List.length_cons]
    by_cases e : k = r * 1024 + n
    · subst e
      rw [if_neg (by omega), if_pos (by omega), sget_sset_self]
      simp
    · rw [sget_sset_ne _ _ _ (fun g => e g.symm)]
      by_cases g : r * 1024 + (n + 1) ≤ k ∧ k < r * 1024 + (n + 1) + cs.length
      · rw [if_pos g, if_pos (by omega)]
        have : k - (r * 1024 + n) = (k - (r * 1024 + (n + 1))) + 1 := by omega
        rw [this, List.getD_cons_succ]
      · rw [if_neg g, if_neg (by omega)]

/-- A lane after codes were stored into a register. -/
theorem lane_setLanes (s : State) (h r : Nat) (codes : List Nat) (r' i : Nat) (hi : i < 1024) (hc : codes.length ≤ 1024) :
    (s.setLanes h r codes).lane h r' i = if r' = r ∧ i < codes.length then codes.getD i 0 % 2 ^ 32 else s.lane h r' i := by
  unfold State.lane State.setLanes
  rw [State.hearth_setHearth]
  have := lanes_foldl r codes 0 (s.hearth h).lanes (r' * 1024 + i)
  rw [show codes.zipIdx = codes.zipIdx 0 from rfl]
  simp only [this]
  by_cases e : r' = r ∧ i < codes.length
  · obtain ⟨rfl, e⟩ := e
    rw [if_pos (by omega), if_pos ⟨rfl, e⟩, BitVec.toNat_ofNat]
    congr 2
    omega
  · rw [if_neg (by omega), if_neg e]

/-- The lanes of another hearth or of a state with the same hearths. -/
theorem lane_congr {s t : State} (e : t.hearths = s.hearths) (h r i : Nat) : t.lane h r i = s.lane h r i := by
  unfold State.lane State.hearth
  rw [e]

/-- What completing a vector instruction that writes DST does. -/
theorem vecDone_result (s : State) (h : Nat) (w : BitVec 128) (o : VOut) (ho : o.codes.length ≤ 1024) :
    LaneResult h w s (s.vecDone h w o) o := by
  have v : s.vecDone h w o = ((s.setLanes h (vDst w) o.codes).vecFlags h o.fl o.ie).bump (Reg.HTH_VOPS_COUNT h) o.codes.length := rfl
  have r := vecFlags_rest (s.setLanes h (vDst w) o.codes) h o.fl o.ie
  have hh : (s.vecDone h w o).hearths = (s.setLanes h (vDst w) o.codes).hearths := by
    rw [v, State.bump_hearths, r]
  have c1 : (Reg.HTH_VFLAGS_flags h).off ≠ (Reg.HTH_VOPS_COUNT h).off := by
    simp only [Reg.HTH_VFLAGS_flags, Reg.HTH_VOPS_COUNT]; omega
  have c2 : (Reg.HTH_VIEEE_IV h).off ≠ (Reg.HTH_VOPS_COUNT h).off := by
    simp only [Reg.HTH_VIEEE_IV, Reg.HTH_VOPS_COUNT]; omega
  have c3 : (Reg.HTH_VFLAGS_flags h).off ≠ (Reg.HTH_VIEEE_IV h).off := by
    simp only [Reg.HTH_VFLAGS_flags, Reg.HTH_VIEEE_IV]; omega
  refine ⟨?_, ?_, ?_, ?_, ?_, ?_, ?_, ?_, ?_⟩
  · intro i hi
    rw [lane_congr hh, lane_setLanes _ _ _ _ _ _ (by omega) ho, if_pos ⟨rfl, hi⟩]
  · intro r' i hi hr
    rw [lane_congr hh, lane_setLanes _ _ _ _ _ _ hi ho, if_neg (by omega)]
  · rw [v]
    unfold State.bump
    rw [State.get_put_self _ _ _ ⟨Nat.two_pow_pos 64, Nat.le_of_ble_eq_true rfl⟩]
    unfold State.get
    rw [vecFlags_word _ _ _ _ _ c1 c2]
    rfl
  · rw [v]
    unfold State.bump
    rw [State.get_put_ne _ _ (Ne.symm c1)]
    unfold State.get
    rw [vecFlags_word' _ _ _ _ _ (Ne.symm c3)]
    exact sticky_get _ _ _ ⟨Nat.two_pow_pos 64, Nat.le_of_ble_eq_true rfl⟩ rfl
  · intro p hp
    have e := vecFlags_status (s.setLanes h (vDst w) o.codes) h o.fl o.ie p hp
    have po : (Reg.HTH_VOPS_COUNT h).off ≠ p.2.off := by
      simp only [List.mem_cons, List.not_mem_nil, or_false] at hp
      rcases hp with rfl | rfl | rfl | rfl | rfl <;> exact Ne.symm c2
    rw [v]
    unfold State.bump
    rw [State.get_put_ne _ _ po, e]
    rfl
  · intro off rst ho'
    simp only [List.mem_cons, List.not_mem_nil, or_false, not_or] at ho'
    rw [v]
    unfold State.bump
    rw [State.word_put_ne _ _ _ (Ne.symm ho'.2.2), vecFlags_word _ _ _ _ _ (Ne.symm ho'.1) (Ne.symm ho'.2.1)]
    rfl
  · have e : (s.vecDone h w o).hearth h = (s.setLanes h (vDst w) o.codes).hearth h := by
      unfold State.hearth
      rw [hh]
    rw [e]
    unfold State.setLanes
    rw [State.hearth_setHearth]
  · intro g hg
    have e : (s.vecDone h w o).hearth g = (s.setLanes h (vDst w) o.codes).hearth g := by
      unfold State.hearth
      rw [hh]
    rw [e]
    exact State.hearth_setHearth_ne _ _ (Ne.symm hg)
  · rw [v]
    have b : ∀ (u : State) f n, u.bump f n = { u with regs := (u.bump f n).regs } := fun _ _ _ => rfl
    rw [b, r]
    rfl

/-! ### Checks and commands -/

theorem checked_bind {α β : Type} {a : Checked α} {f : α → Checked β} {b : β} (h : (a >>= f) = .ok b) :
    ∃ x, a = .ok x ∧ f x = .ok b := by
  cases a with
  | error c => cases h
  | ok x => exact ⟨x, rfl, h⟩

theorem failIf_ok {c : Bool} {e : Nat} {u : Unit} (h : failIf c e = .ok u) : c = false := by
  unfold failIf at h
  split at h
  · cases h
  · rename_i e
    simpa using e

/-- An instruction that passes the checks of R622 has at most 1,024 lanes. -/
theorem vCheck_len {w : BitVec 128} {fmts : Bool} {l : LaneFmt} {r : Rnd} (h : vCheck w fmts l = .ok r) (ho : opcodeOf w ≠ 0x69) :
    vLen w ≤ 1024 := by
  unfold vCheck at h
  obtain ⟨_, _, h⟩ := checked_bind h
  obtain ⟨_, e, h⟩ := checked_bind h
  have := failIf_ok e
  simp [ho] at this
  omega

/-- A word whose opcode is the row's, on a hearth that issues, does the row's work. -/
theorem runWord_next {opc : Nat} {f : Nat → BitVec 128 → State → State} {h : Fin 384} {w : BitVec 128} {s : State}
    (ho : opcodeOf w = opc) (hr : s.hearthRuns h = true) : runWord opc f h w s = .next (f h w s) := by
  unfold runWord
  rw [if_pos (by simp [ho, hr])]

/-- A lane instruction that passes its checks. -/
theorem vecMap_result (h : Nat) (w : BitVec 128) (s : State) {chk : Checked Rnd} {r : Rnd} (f : Rnd → Nat → Conv) (hc : chk = .ok r)
    (hl : vLen w ≤ 1024) {g : Nat → Conv} (hg : ∀ i, f r i = g i) :
    LaneResult h w (s.issued h) (vecMap h w s chk f) (laneOut w g) := by
  subst hc
  have e : f r = g := funext hg
  subst e
  exact vecDone_result (s.issued h) h w (laneOut w (f r)) (by simp [laneOut, VOut.ofConvs, hl])

end Sys2Proof.Machine
end

