-- ==== Sys2Proof/Laws/Memory.lean ====
section
/-! SUPPORT. What reading and writing device memory does: which bytes change, and what else. -/

namespace Sys2Proof.Machine

/-! ### Bytes -/

/-- States with the same memory read the same bytes. -/
theorem byte_congr {s t : State} (e : t.mem = s.mem) (x : Nat) : t.byte x = s.byte x := by
  unfold State.byte
  rw [e]

theorem bytes_congr {s t : State} (e : t.mem = s.mem) (k n : Nat) : t.bytes k n = s.bytes k n := by
  induction n generalizing k with
  | zero => rfl
  | succ n ih => simp only [State.bytes, byte_congr e, ih]

theorem bytes_out (s : State) (j : Nat) (cs : List Byte) (k n : Nat) (h : k + n ≤ j ∨ j + cs.length ≤ k) :
    (s.setBytes j cs).bytes k n = s.bytes k n := by
  induction n generalizing k with
  | zero => rfl
  | succ n ih =>
    simp only [State.bytes]
    rw [ih (k + 1) (by omega), State.byte_setBytes_out _ _ _ _ (by omega)]

theorem bytes_append (s : State) (k m n : Nat) : s.bytes k (m + n) = s.bytes k m ++ s.bytes (k + m) n := by
  induction m generalizing k with
  | zero => simp [State.bytes]
  | succ m ih =>
    rw [show m + 1 + n = (m + n) + 1 by omega]
    simp only [State.bytes, ih, List.cons_append]
    rw [show k + 1 + m = k + (m + 1) by omega]

/-- Bytes that were stored are there. -/
theorem bytes_setBytes (s : State) (k : Nat) (bs : List Byte) : (s.setBytes k bs).bytes k bs.length = bs := by
  induction bs generalizing s k with
  | nil => rfl
  | cons b bs ih =>
    simp only [State.setBytes, List.length_cons, State.bytes]
    rw [ih, State.byte_setBytes_out _ _ _ _ (by omega), State.byte_setByte_self]

@[simp] theorem setBytes_regs (s : State) (k : Nat) (bs : List Byte) : (s.setBytes k bs).regs = s.regs := by
  induction bs generalizing s k with
  | nil => rfl
  | cons b bs ih => simp only [State.setBytes, ih, State.setByte_regs]

/-! ### Counters beside an access -/

/-- Event counters are registers. -/
theorem State.pmc_regsOnly {s t : State} (ev k n : Nat) (h : RegsOnly s t) : RegsOnly s (t.pmc ev k n) := by
  unfold State.pmc
  split
  · exact h
  · refine RegsOnly.foldl _ h fun u x => ?_
    split
    · exact State.bumpSat_regsOnly _ _ RegsOnly.rfl
    · exact RegsOnly.rfl

theorem State.pmcAccess_regsOnly {s t : State} (u k n : Nat) (w : Bool) (h : RegsOnly s t) : RegsOnly s (t.pmcAccess u k n w) := by
  unfold State.pmcAccess
  have h1 : RegsOnly s (if k < 2 ^ 42 then t.pmc (if w then 0x07 else 0x06) (k / stackBytes) (linesOf k n) else t) := by
    split
    · exact State.pmc_regsOnly _ _ _ h
    · exact h
  dsimp only
  split
  · split
    · exact State.pmc_regsOnly _ _ _ h1
    · exact h1
  · exact h1

theorem State.pmc_wordsKept (s : State) (ev k n : Nat) : s.WordsKept (s.pmc ev k n) countWords := by
  unfold State.pmc
  split
  · exact State.WordsKept.rfl
  · have : ∀ (l : List Nat) (u : State), (∀ i ∈ l, i < 16) → u.WordsKept (l.foldl (fun t i =>
        if t.get (Reg.DBG_PMC_SEL_EVENT i) = ev && bit (t.get (Reg.DBG_PMC_SEL_KILNS i)) k then
          t.bumpSat (Reg.DBG_PMC_CNT_COUNT i) n else t) u) countWords := by
      intro l
      induction l with
      | nil => exact fun _ _ => State.WordsKept.rfl
      | cons i l ih =>
        intro u hl
        rw [List.foldl_cons]
        refine State.WordsKept.trans ?_ (ih _ fun j hj => hl j (List.mem_cons_of_mem _ hj))
        split
        · refine State.bumpSat_wordsKept _ _ ?_ State.WordsKept.rfl
          have := hl i List.mem_cons_self
          simp only [countWords, List.mem_cons, List.mem_map, List.mem_range]
          exact .inr (.inr ⟨i, this, rfl⟩)
        · exact State.WordsKept.rfl
    exact this _ _ fun i hi => List.mem_range.mp hi

theorem State.pmcAccess_wordsKept (s : State) (u k n : Nat) (w : Bool) : s.WordsKept (s.pmcAccess u k n w) countWords := by
  unfold State.pmcAccess
  have h1 : s.WordsKept (if k < 2 ^ 42 then s.pmc (if w then 0x07 else 0x06) (k / stackBytes) (linesOf k n) else s) countWords := by
    split
    · exact State.pmc_wordsKept _ _ _ _
    · exact State.WordsKept.rfl
  dsimp only
  split
  · split
    · exact h1.trans (State.pmc_wordsKept _ _ _ _)
    · exact h1
  · exact h1

/-- Where addresses lie depends on the configuration and two registers. -/
theorem place_congr {s t : State} (hc : t.cfg = s.cfg) (hw : s.WordsKept t countWords) (a : Nat) : t.place a = s.place a := by
  have h1 : t.get Reg.PEAT_SIZE_BYTES = s.get Reg.PEAT_SIZE_BYTES := hw.get (by decide)
  have h2 : t.get Reg.HIF_HWIN_BASE_BASE = s.get Reg.HIF_HWIN_BASE_BASE := hw.get (by decide)
  have h3 : ∀ g, t.granule g = s.granule g := fun g => by
    unfold State.granule
    rw [hc]
  unfold State.place
  rw [h1, h2, h3]

/-! ### Writing -/

/-- A piece that is written: its bytes are stored at its place, beside counters and error marks. -/
theorem writePiece_ok {s t : State} {w : Who} {a : Nat} {bs : List Byte} (h : s.writePiece w a bs = (t, 0)) :
    ∃ k, s.place a = some k ∧ t.mem = (s.setBytes k bs).mem ∧ ∀ b, t.place b = s.place b := by
  unfold State.writePiece at h
  dsimp only at h
  split at h
  · rename_i e
    exact absurd (congrArg Prod.snd h) e
  · split at h
    · cases h
    · rename_i k hk
      refine ⟨k, hk, ?_⟩
      split at h
      · cases h
      · have e := congrArg Prod.fst h
        dsimp only at e
        subst e
        have hs : ∀ u : State, (State.setBytes u k bs).cfg = u.cfg := fun u => by
          have : ∀ (l : List Byte) (v : State) j, (v.setBytes j l).cfg = v.cfg := by
            intro l
            induction l with
            | nil => exact fun _ _ => rfl
            | cons b l ih => intro v j; simp only [State.setBytes, ih, State.setByte_cfg]
          exact this bs u k
        have hm : ∀ (u v : State), u.mem = v.mem → (u.setBytes k bs).mem = (v.setBytes k bs).mem := by
          have : ∀ (l : List Byte) (u v : State) j, u.mem = v.mem → (u.setBytes j l).mem = (v.setBytes j l).mem := by
            intro l
            induction l with
            | nil => exact fun _ _ _ e => e
            | cons b l ih =>
              intro u v j e
              simp only [State.setBytes]
              refine ih _ _ _ ?_
              unfold State.setByte
              rw [e]
          exact fun u v e => this bs u v k e
        generalize hu : ({ s with ecc := s.ecc.filter fun p => !((s.marks k bs.length).contains p) } : State) = u
        have u1 : u.mem = s.mem := by rw [← hu]
        have u2 : u.cfg = s.cfg := by rw [← hu]
        have u3 : u.regs = s.regs := by rw [← hu]
        generalize hv : (if hostKey ≤ k then (u.setBytes k bs).linkTx bs.length else u.setBytes k bs) = v
        have v1 : v.mem = (s.setBytes k bs).mem := by
          rw [← hv, ← hm u s u1]
          split <;> rfl
        have v2 : v.cfg = s.cfg := by
          rw [← hv, ← u2]
          split
          · exact hs u
          · exact hs u
        have v3 : s.WordsKept v countWords := by
          have h0 : s.WordsKept (u.setBytes k bs) countWords := fun off rst _ => by
            unfold State.word
            rw [setBytes_regs, u3]
          rw [← hv]
          split
          · exact h0.trans (State.bump_wordsKept _ _ (by decide) State.WordsKept.rfl)
          · exact h0
        have r := State.pmcAccess_regsOnly (t := v) w.unit k bs.length true RegsOnly.rfl
        refine ⟨?_, place_congr ?_ (v3.trans (State.pmcAccess_wordsKept _ _ _ _ _))⟩
        · rw [r]; exact v1
        · rw [r]; exact v2

/-- A write that succeeds leaves every byte outside the places of its pieces. -/
theorem writePieces_out (w : Who) (ps : List (Nat × Nat)) (bs : List Byte) (s t : State) (h : State.writePieces w ps bs s = (t, 0))
    (x : Nat) (hx : ∀ p ∈ ps, ∀ k, s.place p.1 = some k → x < k ∨ k + p.2 ≤ x) : t.byte x = s.byte x := by
  induction ps generalizing s bs with
  | nil =>
    cases h
    rfl
  | cons p ps ih =>
    obtain ⟨a, n⟩ := p
    rw [State.writePieces] at h
    generalize e : s.writePiece w a (bs.take n) = r at h
    obtain ⟨u, c⟩ := r
    dsimp only at h
    split at h
    · rename_i hc
      exact absurd (congrArg Prod.snd h) hc
    · rename_i hc
      have hc : c = 0 := by simpa using hc
      subst hc
      obtain ⟨k, hk, hm, hp⟩ := writePiece_ok e
      rw [ih _ _ h fun q hq j hj => hx q (List.mem_cons_of_mem _ hq) j (by rw [← hp]; exact hj), byte_congr hm]
      have := hx (a, n) List.mem_cons_self k hk
      refine State.byte_setBytes_out _ _ _ _ ?_
      have : (bs.take n).length ≤ n := by simp
      dsimp only at *
      omega

/-- Hearth memory lies at its own addresses (R322). -/
theorem place_hearth (s : State) {a : Nat} (h : hearthBase ≤ a) (h2 : a < hearthBase + 0xC0000000) : s.place a = some a := by
  unfold State.place
  rw [if_neg (by unfold hearthBase at h; omega)]
  split
  · rfl
  · rw [if_pos ⟨h, h2⟩]

/-- Writing the pieces of a range of hearth memory stores its bytes there and no others. -/
theorem writePieces_hearth (w : Who) (f a n : Nat) (bs : List Byte) (s t : State) (hn : bs.length = n) (hf : n = 0 ∨ a % 4096 + n ≤ 4096 * f)
    (h1 : hearthBase ≤ a) (h2 : a + n ≤ hearthBase + 0xC0000000) (h : State.writePieces w (pieces f a n) bs s = (t, 0)) :
    t.bytes a n = bs ∧ ∀ x, x < a ∨ a + n ≤ x → t.byte x = s.byte x := by
  induction f generalizing a n bs s with
  | zero =>
    have : n = 0 := by omega
    subst this
    cases h
    exact ⟨(List.length_eq_zero_iff.mp hn).symm, fun _ _ => rfl⟩
  | succ f ih =>
    rw [pieces] at h
    split at h
    · rename_i e
      subst e
      cases h
      exact ⟨(List.length_eq_zero_iff.mp hn).symm, fun _ _ => rfl⟩
    · rename_i e
      dsimp only at h
      generalize hm : Nat.min n (4096 - a % 4096) = m at h
      have hm' : m ≤ n ∧ m ≤ 4096 - a % 4096 ∧ (m = n ∨ m = 4096 - a % 4096) := by
        rw [← hm]
        refine ⟨Nat.min_le_left _ _, Nat.min_le_right _ _, ?_⟩
        rcases Nat.le_total n (4096 - a % 4096) with g | g
        · exact .inl (Nat.min_eq_left g)
        · exact .inr (Nat.min_eq_right g)
      rw [State.writePieces] at h
      generalize e2 : s.writePiece w a (bs.take m) = r at h
      obtain ⟨u, c⟩ := r
      dsimp only at h
      split at h
      · rename_i hc
        exact absurd (congrArg Prod.snd h) hc
      · rename_i hc
        have hc : c = 0 := by simpa using hc
        subst hc
        obtain ⟨k, hk, hmem, -⟩ := writePiece_ok e2
        rw [place_hearth s h1 (by omega)] at hk
        injection hk with hk
        subst hk
        have hl : (bs.take m).length = m := by rw [List.length_take]; omega
        obtain ⟨b1, b2⟩ := ih (a + m) (n - m) (bs.drop m) u (by rw [List.length_drop, hn]) (by
          rcases hm'.2.2 with g | g
          · left; omega
          · right; omega) (by omega) (by omega) h
        have same : ∀ x, x < a ∨ a + n ≤ x → t.byte x = s.byte x := fun x hx => by
          rw [b2 x (by omega), byte_congr hmem, State.byte_setBytes_out _ _ _ _ (by omega)]
        refine ⟨?_, same⟩
        have e3 : t.bytes a m = bs.take m := by
          have : ∀ (j k : Nat), k + j ≤ a + m → t.bytes k j = u.bytes k j := by
            intro j
            induction j with
            | zero => exact fun _ _ => rfl
            | succ j ih2 =>
              intro k hk
              simp only [State.bytes]
              rw [ih2 (k + 1) (by omega), b2 k (by omega)]
          rw [this m a (by omega), bytes_congr hmem]
          have := bytes_setBytes s a (bs.take m)
          rwa [hl] at this
        have e4 : n = m + (n - m) := by omega
        rw [e4, bytes_append, e3, b1, List.take_append_drop]

/-- Whatever fuel `piecesOf` gives suffices. -/
theorem piecesOf_fuel (a n : Nat) : a % 4096 + n ≤ 4096 * (n / 4096 + 2) := by omega

/-- A write into hearth memory that succeeds stores its bytes there and no others. -/
theorem writeMem_hearth {s t : State} {w : Who} {a : Nat} {bs : List Byte} (h1 : hearthBase ≤ a)
    (h2 : a + bs.length ≤ hearthBase + 0xC0000000) (h : s.writeMem w a bs = (t, 0)) :
    t.bytes a bs.length = bs ∧ ∀ x, x < a ∨ a + bs.length ≤ x → t.byte x = s.byte x := by
  unfold State.writeMem at h
  dsimp only at h
  split at h
  · rename_i e
    exact absurd (congrArg Prod.snd h) e
  · exact writePieces_hearth w _ _ _ _ _ _ rfl (.inr (piecesOf_fuel _ _)) h1 h2 h

end Sys2Proof.Machine
end

