-- ==== Sys2Proof/Laws/Programs.lean ====
section
/-! SUPPORT. Laws of the operations of a step program: issuing one and completing one. -/

namespace Sys2Proof.Machine

/-- Replacing a run by its id finds the new one. -/
theorem prog_find_map_run (rs : List ProgRun) (p : Nat) (x r : ProgRun) (h : rs.find? (fun y => y.id == p) = some x) (hid : r.id = p) :
    (rs.map fun y => if y.id == r.id then r else y).find? (fun y => y.id == p) = some r := by
  induction rs with
  | nil => simp at h
  | cons a l ih =>
    rw [List.map_cons, List.find?_cons]
    rw [List.find?_cons] at h
    by_cases e : a.id = p
    · simp [e, hid]
    · simp only [e, hid, beq_iff_eq, if_false] at h ih ⊢
      have : (a.id == p) = false := by simp [e]
      rw [this] at h ⊢
      exact ih h

/-- Other runs are found as before. -/
theorem prog_find_map_ne (rs : List ProgRun) (q : Nat) (r : ProgRun) (hid : r.id ≠ q) :
    (rs.map fun y => if y.id == r.id then r else y).find? (fun y => y.id == q) = rs.find? (fun y => y.id == q) := by
  induction rs with
  | nil => rfl
  | cons a l ih =>
    rw [List.map_cons, List.find?_cons, List.find?_cons, ih]
    by_cases e : a.id = r.id
    · have h1 : (a.id == r.id) = true := by simp [e]
      have h2 : (r.id == q) = false := by simp [hid]
      have h3 : (a.id == q) = false := by simp [e, hid]
      simp only [h1, if_true, h2, h3]
    · have h1 : (a.id == r.id) = false := by simp [e]
      simp only [h1, if_false, Bool.false_eq_true]

/-- A run found has the id asked for. -/
theorem prog_run_id {s : State} {p : Nat} {r : ProgRun} (h : s.run p = some r) : r.id = p := by
  simpa using List.find?_some h

/-- A run set is found. -/
theorem prog_run_setRun {s : State} {p : Nat} {x r : ProgRun} (h : s.run p = some x) (hid : r.id = p) : (s.setRun r).run p = some r :=
  prog_find_map_run _ _ _ _ h hid

/-- Setting a run leaves the others. -/
theorem prog_run_setRun_ne (s : State) {q : Nat} {r : ProgRun} (hid : r.id ≠ q) : (s.setRun r).run q = s.run q := prog_find_map_ne _ _ _ hid

/-- Clearing idle counts touches the kilns only. -/
theorem prog_setKilns_eq (ks : List Nat) (s : State) :
    ∃ k, ks.foldl (fun t k => t.setKiln k { t.kiln k with idle := 0 }) s = { s with kilns := k } := by
  induction ks generalizing s with
  | nil => exact ⟨s.kilns, rfl⟩
  | cons a l ih => obtain ⟨k, hk⟩ := ih (s.setKiln a { s.kiln a with idle := 0 }); exact ⟨k, hk⟩

/-- An operation at work touches the kilns only. -/
theorem prog_touch_eq (s : State) (p : Nat) (op : BitVec 128) : ∃ k, s.touch p op = { s with kilns := k } := by
  unfold State.touch
  split
  · exact prog_setKilns_eq _ _
  · exact ⟨s.kilns, rfl⟩

/-- What launching an operation gives. -/
theorem prog_launch_eq {s : State} {p : Nat} {op : BitVec 128} {r : ProgRun} {pc : Nat} (h : s.run p = some r) :
    ∃ k, s.launch p pc op = ({ s.setRun { r with count := r.count + 1, flight := r.flight ++ [⟨r.prog, pc, op, r.count⟩] } with kilns := k }, r.count) := by
  unfold State.launch
  rw [h]
  dsimp only
  obtain ⟨k, hk⟩ := prog_touch_eq (s.setRun { r with count := r.count + 1, flight := r.flight ++ [⟨r.prog, pc, op, r.count⟩] }) p op
  rw [hk]
  exact ⟨k, rfl⟩

/-- What the state holds in which an operation begins. -/
theorem prog_begun_run {s : State} {p code : Nat} {op : BitVec 128} {r : ProgRun} {pc : Nat} (h : s.Issues p code op r pc) :
    (s.begun p op r pc).run p = some (r.issued pc op) ∧ s.OnlyRuns (s.begun p op r pc) ∧ (∀ q, q ≠ p → (s.begun p op r pc).run q = s.run q) := by
  obtain ⟨k, hk⟩ := prog_launch_eq (op := op) (pc := pc) h.run
  unfold State.begun
  rw [hk]
  have hid := prog_run_id h.run
  have h1 : (s.setRun { r with count := r.count + 1, flight := r.flight ++ [⟨r.prog, pc, op, r.count⟩] }).run p = some _ := prog_run_setRun h.run hid
  refine ⟨?_, ?_, ?_⟩
  · refine prog_run_setRun (x := { r with count := r.count + 1, flight := r.flight ++ [⟨r.prog, pc, op, r.count⟩] }) ?_ hid
    exact h1
  · rfl
  · intro q hq
    rw [prog_run_setRun_ne]
    · exact prog_run_setRun_ne s (r := _) (by simp [hid, Ne.symm hq])
    · simp [ProgRun.issued, hid, Ne.symm hq]

/-- An operation that may issue does its work. -/
theorem prog_issue_eq {s : State} {p code : Nat} {op : BitVec 128} {r : ProgRun} {pc : Nat} (h : s.Issues p code op r pc)
    (more : State → Nat) (hm : more s = 0) (work : State → Nat → State) :
    s.issueOp code p op more work = work (s.begun p op r pc) r.count := by
  unfold State.issueOp
  rw [h.run]
  dsimp only
  rw [h.next]
  dsimp only
  rw [if_neg (by simp [h.code, hm, h.may])]
  obtain ⟨k, hk⟩ := prog_launch_eq (op := op) (pc := pc) h.run
  have hid := prog_run_id h.run
  unfold State.begun
  rw [hk]
  have h1 : (s.setRun { r with count := r.count + 1, flight := r.flight ++ [⟨r.prog, pc, op, r.count⟩] }).run p = some { r with count := r.count + 1, flight := r.flight ++ [⟨r.prog, pc, op, r.count⟩] } := prog_run_setRun h.run hid
  dsimp only
  have h2 := h1
  unfold State.run at h2 ⊢
  rw [show ({ s.setRun { r with count := r.count + 1, flight := r.flight ++ [(⟨r.prog, pc, op, r.count⟩ : Flight)] } with kilns := k } : State).col.runs = (s.setRun { r with count := r.count + 1, flight := r.flight ++ [(⟨r.prog, pc, op, r.count⟩ : Flight)] }).col.runs from rfl, h2]
  rfl

/-- An operation without watched loss that completes leaves its run. -/
theorem prog_opDone_past {s : State} {p : Nat} {op : BitVec 128} {r x : ProgRun} {pc : Nat} (h : s.run p = some x)
    (hf : x.flight = r.flight ++ [⟨r.prog, pc, op, r.count⟩]) (hl : x.eval = true ∨ s.gnormOf x.main = none) :
    s.opDone p r.count 0 = s.setRun { x with flight := r.flight.filter (·.seq != r.count) } := by
  unfold State.opDone
  rw [h]
  dsimp only
  have : ∃ f, x.flight.find? (fun f => f.seq == r.count) = some f := by
    rw [← Option.isSome_iff_exists, List.find?_isSome]
    exact ⟨⟨r.prog, pc, op, r.count⟩, by simp [hf], by simp⟩
  obtain ⟨f, ef⟩ := this
  rw [ef]
  dsimp only
  rw [if_pos rfl, hf, List.filter_append]
  have e2 : List.filter (fun x => x.seq != r.count) [(⟨r.prog, pc, op, r.count⟩ : Flight)] = [] := by simp
  rw [e2, List.append_nil]
  unfold State.watchLoss
  split
  · rfl
  · rename_i hn
    simp only [Bool.or_eq_true, not_or, decide_eq_true_eq, Bool.not_eq_true] at hn
    rcases hl with hl | hl
    · rw [hl] at hn; simp at hn
    · have : (s.setRun { x with flight := List.filter (fun x => x.seq != r.count) r.flight }).gnormOf x.main = none := hl
      rw [this]

/-- Launching leaves the programs. -/
theorem prog_begun_gnorm (s : State) (p : Nat) (op : BitVec 128) (r : ProgRun) (pc m : Nat) (h : s.run p = some r) : (s.begun p op r pc).gnormOf m = s.gnormOf m := by
  obtain ⟨k, hk⟩ := prog_launch_eq (op := op) (pc := pc) h
  unfold State.begun
  rw [hk]; rfl

/-- An operation that completes at once. -/
theorem prog_done_begun {s : State} {p code : Nat} {op : BitVec 128} {r : ProgRun} {pc : Nat} (h : s.Issues p code op r pc) :
    ∃ u, (s.begun p op r pc).opDone p r.count 0 = u ∧ u.run p = some (r.past pc) ∧ s.OnlyRuns u ∧ u.cfg = s.cfg := by
  obtain ⟨h1, h2, h3⟩ := prog_begun_run h
  refine ⟨_, rfl, ?_⟩
  rw [prog_opDone_past h1 rfl (h.loss.imp id fun e => (prog_begun_gnorm _ _ _ _ _ _ h.run).trans e)]
  have hid := prog_run_id h.run
  refine ⟨prog_run_setRun h1 hid, ?_, ?_⟩
  · unfold State.OnlyRuns at h2 ⊢
    rw [h2]; rfl
  · unfold State.OnlyRuns at h2
    rw [h2]; rfl

/-- Changing a run changes that run only. -/
theorem prog_onRun_run {s : State} {p : Nat} {x : ProgRun} {f : ProgRun → ProgRun} (h : s.run p = some x) (hid : (f x).id = p) :
    (s.onRun p f).run p = some (f x) ∧ s.OnlyRuns (s.onRun p f) := by
  unfold State.onRun; rw [h]; exact ⟨prog_run_setRun h hid, rfl⟩

/-- Only runs differ, twice over. -/
theorem prog_only_trans {s t u : State} (h : s.OnlyRuns t) (g : t.OnlyRuns u) : s.OnlyRuns u := by
  unfold State.OnlyRuns at *; rw [g, h]

end Sys2Proof.Machine
end

