-- ==== Sys2Proof/Tests/Slice0.lean ====
section
/-! SUPPORT. Tests: ill-formed commands refused, the manual's worked examples, and for each statement a state and operands that
meet its hypotheses. -/

namespace Sys2Proof.Tests
open Sys2Proof Sys2Proof.Machine

-- one test at a time: in one text with the whole package, tests elaborated side by side fill the memory with waiting threads
set_option Elab.async false

/-! ### Ill-formed commands: one for each check of WellFormed -/

theorem test_ill_formed_descriptors : (List.all [Instr.loadConfig 0 0, .runStep 0 0, .commitStep 0 0, .abortStep 0 0, .evalRun 0 0,
    .bank 0 0, .rekindle 0 0, .adopt 0 0, .scanCrc 0 0, .copy 0 0, .fill 0 0, .ingestBind 0 0, .tableLoad 0 0, .tableSwap 0 0,
    .fence 0 0, .eventWait 0 0] fun i => !i.wellFormed) = true := by decide +kernel

theorem test_ill_formed_words : (List.all [Instr.mma 0 0, .out 0 0, .clr 0 0, .bsst 0 0, .bsadd 0 0, .kred 0 0, .rstat 0 0, .hbar 0 0,
    .vld 0 0, .vst 0 0, .vgath 0 0, .vscat 0 0, .vsplat 0 0, .fadd 0 0, .fsub 0 0, .fmul 0 0, .ffma 0 0, .fmin 0 0, .fmax 0 0,
    .fdiv 0 0, .fsqrt 0 0, .fcmp 0 0, .sel 0 0, .gmul 0 0, .gadd 0 0, .gsub 0 0, .iadd 0 0, .isub 0 0, .imul 0 0, .ilog 0 0,
    .ishf 0 0, .cvt 0 0, .draw 0 0, .rand 0 0, .fn 0 0, .fnm 0 0, .norm 0 0, .stcomb 0 0, .smax 0 0] fun i => !i.wellFormed) = true := by
  decide +kernel

theorem test_ill_formed_draws : (List.all [Instr.cvt 0 (BitVec.ofNat 128 (2 ^ 125 + 0x1E + 2 ^ 65)), .draw 0 (BitVec.ofNat 128 (2 ^ 125 + 0x1E)),
    .rand 0 (BitVec.ofNat 128 (2 ^ 125 + 0x1E))] fun i => !i.wellFormed) = true := by decide +kernel

theorem test_ill_formed_operations : (List.all [Instr.progEnd 0 1, .runh 0 0, .dfence 0 0, .mfence 0 0, .copyop 0 0, .coll 0 0, .route 0 0,
    .dispatch 0 0 [], .combine 0 0 [], .tswap 0 0, .owner 0 0, .waitmb 0 0, .sched 0 0, .ret 0 0, .call 0 0, .timer 0 0, .twait 0 0,
    .pin 0 0, .gnorm 0 0, .update 0 0] fun i => !i.wellFormed) = true := by decide +kernel

theorem test_ill_formed_frames : (List.all [Instr.rxData 0 ⟨0, [], 0⟩, .rxVoid 0 ⟨0, [], 0⟩, .rxAck 0 ⟨0, [], 0⟩, .rxNak 0 ⟨0, [], 0⟩,
    .rxHello 0 ⟨0, [], 0⟩, .rxRankupd 0 ⟨0, [], 0⟩, .rxBankseg 0 ⟨0, [], 0⟩, .rxDigest 0 ⟨0, [], 0⟩, .rxIdle 0 ⟨0, [], 0⟩,
    .rxReady 0 ⟨0, [], 0⟩] fun i => !i.wellFormed) = true := by decide +kernel

def peerAt (p : Fin 16) : PeerHello := ⟨p, true, 0, 0, 0, 0, 0, false, 0, 0⟩

theorem test_ill_formed_others : (List.all [Instr.sqTailDoorbell 0 ⟨0, 0, 0⟩, .cqHeadDoorbell 0 ⟨0, 0, 0⟩, .ringTailDoorbell 0 ⟨0, 0, 0⟩,
    .fabricTrain [peerAt 0, peerAt 0], .fabricTrain [peerAt 12], .portRetrain 12 0, .pairRetrain 0 [peerAt 13, peerAt 13],
    .pairRetrain 0 [peerAt 0], .pcieLinkUp 0 16, .pcieLinkUp 1 3, .bar4Access 0 (.read 0), .bar4Access 0 (.write []),
    .paceWindow [], .bypass 0x01, .registerWrite ⟨.bar0, 0, 0⟩ 0, .registerRead ⟨.bar0, 0, 0⟩] fun i => !i.wellFormed) = true := by
  decide +kernel

/-! ### The manual's worked examples -/

/-- "Encoding 3.0" (02): GL16 0x40CB, GL8 0x4D. -/
theorem test_three : (Fmt.gl16.ofNum { mode := .rn } (bin32.num 0x40400000)).code = 0x40CB ∧
    (Fmt.gl8.ofNum { mode := .rn } (bin32.num 0x40400000)).code = 0x4D := by decide +kernel

/-- "The log-domain boundary" (02): 0x3F85_B22D rounds up to GL8 0x41. -/
theorem test_log_boundary : (Fmt.gl8.ofNum { mode := .rn } (bin32.num 0x3F85B22D)).code = 0x41 := by decide +kernel

/-- "Ties from GL16 to GL8" (02): RN to even, RZ towards zero, and the sign kept. -/
theorem test_ties : [0x4008, 0x4018, 0xC008].map (fun c => (Fmt.gl8.ofNum { mode := .rn } (Fmt.gl16.num [] c)).code) = [0x40, 0x42, 0xC0] ∧
    [0x4008, 0x4018, 0xC008].map (fun c => (Fmt.gl8.ofNum { mode := .rz } (Fmt.gl16.num [] c)).code) = [0x40, 0x41, 0xC0] := by
  decide +kernel

/-- "Binary32 subnormals into GL16" (02): 2^-128 underflows, 2^-128 (1 + 2^-8) gives code 1. -/
theorem test_subnormals : (Fmt.gl16.ofNum { mode := .rn } (bin32.num 0x00202000)).code = 1 ∧
    (Fmt.gl16.ofNum { mode := .rn } (bin32.num 0x00200000)).code = 0 := by decide +kernel

def digits : List Byte := [0x31, 0x32, 0x33, 0x34, 0x35, 0x36, 0x37, 0x38, 0x39]

/-- The check values of R466. -/
theorem test_crc_checks : (List.range 4).map (fun k => crc (crcKind k) digits) =
    [0xE3069283, 0xCBF43926, 0x6C40DF5F0B497347, 0x29B1] := by decide +kernel

/-- "One address, two maps" (09), default map: stack 0 at physical offset 0x18_0123_4567. -/
theorem test_default_map : State.reset.place 0x1801234567 = some 0x1801234567 := by decide +kernel

/-- "One address, two maps" (09), stripe group with p = 120: stack 20 at 0x1E_0009_1567. -/
theorem test_striped_map : liveKey (.stripe 120) (0x1801234567 - 0x1800000000) = some (stackBytes * 20 + 0x1E00091567) := by
  decide +kernel

/-! ### States for the statements' hypotheses -/

/-- A word of a vector instruction: opcode, FMT, FMT2, VL, and further bits. -/
def vword (opc fmt fmt2 vl more : Nat) : BitVec 128 :=
  BitVec.ofNat 128 (opc % 64 + opc / 64 * 2 ^ 125 + fmt * 2 ^ 6 + fmt2 * 2 ^ 10 + vl * 2 ^ 38 + more)

/-- An enabled submission queue 0 whose head holds descriptor d, in a ready module with a session. -/
def withCommand (d : Nat) (s : State) : State :=
  let s := (((s.put (Reg.COL_SQ_CTL_EN 0) 1).put (Reg.COL_SQ_CTL_LOG2ENT 0) 4).put (Reg.COL_SQ_TAIL_TAIL 0) 1)
  let s := (s.put Reg.PWR_STATUS_READY 1).put Reg.PWR_STATUS_PSTATE 0
  { s.setBytes 0 (leBytes 64 d) with
    pwr := { s.pwr with phase := .ready }
    sec := { s.sec with sessions := [⟨.installer, 1, 0⟩] } }

/-- A configuration that is loaded. -/
def loadedBank : ConfigBank := { ConfigBank.base with loaded := true, id := 1, granules := [(0, .kilnLocal 0 0)] }

def loaded (s : State) : State := { s with cfg := { s.cfg with active := loadedBank } }

/-- A run of program place 0 at operation op of its program. -/
def withOp (op : Nat) (r : ProgRun) : State :=
  { State.reset with
    cfg := { State.reset.cfg with active := { loadedBank with programs := [⟨1, 0, 0, [BitVec.ofNat 128 op]⟩] } }
    col := { State.reset.col with runs := [r] } }

def run0 : ProgRun := ⟨0, false, 1, 1, 0, [], [], 1, [], [], false⟩

/-! ### Witnesses: the hypotheses of each statement can be met -/

theorem witness_StepRunsFront : { State.reset with pending := [Instr.idcode] }.pending = Instr.idcode :: [] := rfl

theorem witness_EmptyQueueTicks : State.reset.pending = [] ∧ State.reset.counting = false ∧
    { State.reset with pwr := { State.reset.pwr with phase := .ready } }.counting = true := by decide +kernel

theorem witness_StepKeepsSound : State.reset.Sound ∧ ∃ t, step State.reset = .next t :=
  ⟨⟨⟨List.Pairwise.nil, by simp [State.reset]⟩, List.Pairwise.nil⟩, _, rfl⟩

/-- One address of each clause: outside every range, beyond PEAT_SIZE, past the hearths, past the window, an unmapped granule. -/
theorem witness_UnmappedIsRefused : (peatBase + State.reset.get Reg.PEAT_SIZE_BYTES ≤ hearthBase) ∧
    State.reset.rangeCode asHost false 0x40000000000 1 = memUnmapped ∧ State.reset.rangeCode asHost true peatBase 1 = memUnmapped ∧
    State.reset.rangeCode asHost false (hearthBase + 0xC0000000) 1 = memUnmapped ∧
    State.reset.rangeCode asHost true 0xC00000000000 1 = memUnmapped ∧
    liveKey ((loaded State.reset).granule 1) (2 ^ 30) = none ∧ (loaded State.reset).rangeCode asHost false (2 ^ 30) 1 = memUnmapped := by
  decide +kernel

theorem witness_RefusedAccessHasNoEffect : memUnmapped ≠ 0 ∧ memUnmapped ≠ memHost ∧
    State.reset.rangeCode asHost false 0x40000000000 1 = memUnmapped ∧
    State.reset.rangeCode asHost true 0x40000000000 [(0 : Byte)].length = memUnmapped := by decide +kernel

/-- The first and the last byte of hearth memories. -/
theorem witness_HearthMemoryReadsBack : (State.reset.writeMem (asHearth State.reset 0 0) (hearthAddr 0 + 0) [1]).2 = 0 ∧
    (State.reset.writeMem (asHearth State.reset 383 0) (hearthAddr 383 + (hearthBytes - 1)) [1]).2 = 0 ∧ State.reset.ecc = [] ∧
    (State.reset.readMem (asHearth State.reset 0 0) (hearthAddr 0 + 0) 1).2.1 = 0 := by decide +kernel

/-- The shortest and the longest vector. -/
theorem witness_IntegerLanes : State.reset.hearthRuns 0 = true ∧
    (∀ vl ∈ [1, 1024], ∀ opc ∈ [0x58, 0x59, 0x5A], opcodeOf (vword opc 7 8 vl 0) = opc ∧
      (vCheck (vword opc 7 8 vl 0) (bothInt (vword opc 7 8 vl 0)) none).failure = none) ∧
    (ilogCheck (vword 0x5B 7 8 1 (2 * 2 ^ 88))).failure = none ∧ (ishfCheck (vword 0x5C 7 8 1024 (0x9F * 2 ^ 88))).failure = none := by
  decide +kernel

theorem witness_FloatLanes : ∀ opc ∈ [0x48, 0x49, 0x4A, 0x4B, 0x4E, 0x4F], opcodeOf (vword opc 4 4 1 0) = opc ∧
    (vCheck (vword opc 4 4 1024 0) (bothBf32 (vword opc 4 4 1024 0)) (some .bf32)).failure = none := by decide +kernel

theorem witness_MinMaxCompareSelect : (∀ opc ∈ [0x4C, 0x4D], opcodeOf (vword opc 4 4 1 0) = opc ∧
    (vCheck (vword opc 4 4 1 0) (bothBf32 (vword opc 4 4 1 0)) (some .bf32)).failure = none) ∧
    (fcmpCheck (vword 0x50 7 4 1 0)).failure = none ∧
    (vCheck (vword 0x51 4 4 1 0) ((laneOf (vFmt (vword 0x51 4 4 1 0))).isSome &&
      laneOf (vFmt (vword 0x51 4 4 1 0)) = laneOf (vFmt2 (vword 0x51 4 4 1 0))) none).failure = none := by decide +kernel

theorem witness_GrendyLanes : ∀ opc ∈ [0x54, 0x55, 0x56], opcodeOf (vword opc 0 1 1 0) = opc ∧
    glLane (vFmt (vword opc 0 1 1 0)) = some .gl16 ∧ glLane (vFmt2 (vword opc 0 1 1 0)) = some .gl8 ∧
    (vCheck (vword opc 0 1 1 0) true (some .gl16)).failure = none := by decide +kernel

theorem witness_ConvertedAndRandomLanes : (cvtCheck (vword 0x5E 4 0 1 0)).failure = none ∧ laneOf (vFmt2 (vword 0x5E 4 0 1 0)) ≠ none ∧
    (vCheck (vword 0x44 0 0 1 (0x4000 * 2 ^ 88)) true ((laneOf 0).getD none)).failure = none ∧ vFmt2 (vword 0x44 0 0 1 0) = 0 ∧
    (∀ fn ∈ [1, 2], vFunc (vword 0x5E 7 8 1 (fn * 2 ^ 65)) = fn ∧
      (vCheck (vword 0x5E 7 8 1 (fn * 2 ^ 65)) (bothInt (vword 0x5E 7 8 1 (fn * 2 ^ 65))) none).failure = none) := by decide +kernel

theorem witness_VectorLengthChecked : vLen (vword 0x58 7 8 0 0) = 0 ∧ 1024 < vLen (vword 0x58 7 8 1025 0) ∧ State.reset.stepOpen = false ∧
    opcodeOf (vword 0x58 7 8 0 0) = 0x58 := by decide +kernel

theorem witness_ClearedSlots : opcodeOf (BitVec.ofNat 128 (3 + 2 ^ 16)) = 3 ∧
    (checkSlots (BitVec.ofNat 128 (3 + 2 ^ 16)) false).failure = none ∧
    (checkSlots (BitVec.ofNat 128 (3 + 192 * 2 ^ 16)) false).failure = none := by decide +kernel

theorem witness_EmbersReduced : opcodeOf (BitVec.ofNat 128 (0x20 + 2 ^ 16 + 3 * 2 ^ 62)) = 0x20 ∧
    (checkSlots (BitVec.ofNat 128 (0x20 + 2 ^ 16 + 3 * 2 ^ 62)) true).failure = none ∧
    maskEmbers (maskOf (BitVec.ofNat 128 (0x20 + 2 ^ 16 + 3 * 2 ^ 62))) = [0, 1] ∧
    State.reset.slotsBad 0 [0] = false ∧ kredRow false (State.reset.issued 0).random 0 Slot.empty [Slot.empty] ≠ none := by decide +kernel

theorem witness_CodebooksBuilt : 256 ≤ (sget (⟨[], 0⟩ : Histogram)
    ({ State.reset with hearths := [(0, { Hearth.empty with hist := [(63, ⟨[], 256⟩)] })] }.hearth 0).hist 63).rows ∧
    opcodeOf (0x22 : BitVec 128) = 0x22 ∧ reservedSet (0x22 : BitVec 128) [] = false ∧ embOf (0x22 : BitVec 128) = 0 := by decide +kernel

/-- Each operation of a program issues in a state of its own. -/
theorem witness_OperationIssues : ∀ code ∈ List.range 0x14, (withOp code run0).run 0 = some run0 ∧
    (withOp code run0).nextOp run0 = some (0, BitVec.ofNat 128 code) ∧ sOp (BitVec.ofNat 128 code) = code ∧
    (withOp code run0).mayIssue run0 (BitVec.ofNat 128 code) 0 = true ∧
    (code ≠ 0x12 → (withOp code run0).gnormOf run0.main = none) := by decide +kernel

theorem witness_HeldOperation : isFence (2 : BitVec 128) = true ∧ { run0 with ended := true }.ended = true := by decide +kernel

theorem witness_TimersAndPins : sfind ([(63, (5, true))] : SMap (Nat × Bool)) 63 = some (5, true) := rfl

theorem witness_SwapsAndOwners : 1 ≤ bits (sArg (BitVec.ofNat 128 (9 + 5 * 2 ^ 64))) 0 8 ∧ bits (sArg (BitVec.ofNat 128 (9 + 5 * 2 ^ 64))) 0 8 ≤ 5 ∧
    bits (sArg (BitVec.ofNat 128 (9 + 5 * 2 ^ 64))) 16 8 < slotLimit 5 ∧ bits (sArg (BitVec.ofNat 128 (9 + (2 + 63 * 2 ^ 16) * 2 ^ 64))) 16 8 < slotLimit 2 := by
  decide +kernel

/-- A sound descriptor of every opcode is taken from a queue's head. -/
theorem witness_CommandsTakenOrRefused : ∀ opc ∈ [0x01, 0x02, 0x03, 0x04, 0x05, 0x06, 0x07, 0x08, 0x0A, 0x0B, 0x0C, 0x0F, 0x10],
    (withCommand opc State.reset).canTake 0 (BitVec.ofNat 512 opc) = true ∧ dOpc (BitVec.ofNat 512 opc) = opc ∧
    (withCommand opc (loaded State.reset)).refusal (BitVec.ofNat 512 opc) = 0 := by decide +kernel

theorem witness_BaseConfigurationCommands : ∀ opc ∈ [0x01, 0x02, 0x0A, 0x0F], (withCommand opc State.reset).canTake 0 (BitVec.ofNat 512 opc) = true ∧
    descriptorOk (BitVec.ofNat 512 opc) = true ∧ (withCommand opc State.reset).cfg.active.loaded = false ∧
    (withCommand opc State.reset).get Reg.PWR_STATUS_PSTATE ≠ 2 ∧ (withCommand opc State.reset).sec.sessions ≠ [] := by decide +kernel

theorem witness_StepsOpen : (withCommand 2 (loaded State.reset)).runsWait = false ∧ (withCommand 2 (loaded State.reset)).stepState = 0 ∧
    ((withCommand 2 (loaded State.reset)).put Reg.COL_STEP_STATUS_STATE 7).stepState = 7 := by decide +kernel

theorem witness_ConfigurationCommands : (withCommand 1 State.reset).loading = false ∧
    (withCommand 1 State.reset).isSet Reg.BNK_STATUS_BUSY = false ∧ touchesWindow (dField 1 8 8) 64 = false ∧
    ((withCommand 1 State.reset).takeHead 0 1).stepOpen = false := by decide +kernel

theorem witness_BankCommands : (withCommand 6 (loaded State.reset)).quiet = true ∧
    (withCommand 6 (loaded State.reset)).isSet Reg.BNK_STATUS_BUSY = false ∧ State.reset.bank.due = false ∧ State.reset.bank.run = none := by
  decide +kernel

/-- A doorbell of 8 bytes at offset 0 fits; one of 4 bytes, or with a value of 2^32, does not. -/
theorem witness_Doorbells : State.reset.bar2Open = true ∧ doorbellFits ⟨0, 8, 1⟩ 32 = true ∧ doorbellFits ⟨0, 4, 1⟩ 32 = false ∧
    doorbellFits ⟨0, 8, BitVec.ofNat 64 (2 ^ 32)⟩ 32 = false ∧ doorbellFits ⟨0, 8, BitVec.ofNat 64 (2 ^ 32)⟩ 40 = true := by decide +kernel

theorem witness_QueuesEnable : bit (256 : BitVec 64).toNat 8 = true ∧ State.reset.isSet (Reg.COL_SQ_CTL_EN 63) = false ∧
    State.reset.sqBusy 63 = false ∧ (withCommand 1 State.reset).isSet (Reg.COL_SQ_CTL_EN 0) = true := by decide +kernel

theorem witness_FramesChecked : State.reset.portUp 0 = false ∧ (State.reset.put (Reg.ODN_PORT_STAT_STATE (portReg 15)) 2).portUp 15 = true ∧
    isReservedType 0xFF = true ∧ isReservedType tDATA = false ∧ isSequenced tDATA = true ∧ isSequenced tACK = false := by decide +kernel

theorem witness_LinksTrain : ((State.reset.put (Reg.ODN_PORT_STAT_STATE (portReg 0)) 2).port 0).waiting = [] ∧
    State.reset.stepOpen = false ∧ State.reset.evaluating = false ∧ State.reset.dropTable.readRanks.2 ≠ some [] := by decide +kernel

/-- A request whose header is all zero but for its operation. -/
def mailed (op : Nat) : State :=
  let s := { State.reset with pwr := { State.reset.pwr with phase := .ready } }
  s.put (Reg.SEC_MB_BUF_DATA 0) op

theorem witness_MailboxAnswers : ∀ op ∈ List.range 12, (mailed op).mbRequest.op = op ∧ (mailed op).mbOpen .bar0 = true ∧
    (mailed op).mbRequest.ok = true ∧ (mailed op).sessionBy (mailed op).mbRequest.key = none ∧ (mailed op).mbOpen .management = true ∧
    (mailed op).sec.mbAt ≠ some (mailed op).now := by decide +kernel

theorem witness_SessionsAndLocks : sfind ([(roleCode .operator, 5)] : SMap Nat) (roleCode .operator) = some 5 ∧
    bit (1 : BitVec 64).toNat 0 = true ∧ State.reset.board.flashOk = true ∧ roleOf 1 ≠ none := by decide +kernel

theorem witness_Resets : State.reset.pwr.phase = .off ∧ bit (1 : BitVec 64).toNat 0 = true ∧
    (withCommand 0 State.reset).isSet Reg.PWR_STATUS_READY = true ∧ (withCommand 0 State.reset).powerState ≤ 2 ∧
    (withCommand 0 State.reset).board.badDies = false := by decide +kernel

theorem witness_PowerAndSupplies : (withCommand 0 State.reset).powered = true ∧ (withCommand 0 State.reset).powerState = 0 ∧
    3 < bits (4 : BitVec 64).toNat 0 3 ∧ (withCommand 0 State.reset).pwr.govAt ≤ (withCommand 0 State.reset).now := by decide +kernel

theorem witness_KilnsQuarantineAndGate : (State.reset.put (Reg.KLN_GATE_CTL_EN 31) 1).mayGate 31 = false ∧
    (((State.reset.put (Reg.KLN_GATE_CTL_EN 31) 1).put (Reg.KLN_GATE_CTL_THRESH 31) 0).mayGate 31 = true) ∧ State.reset.stepState ≠ 4 := by
  decide +kernel

theorem witness_HostInterface : (withCommand 0 State.reset).functionUp = true ∧ State.reset.functionUp = false ∧
    (withCommand 0 State.reset).takesAccess ⟨.bar0, 0, 8⟩ = true ∧ (withCommand 0 State.reset).isBad 1 8 = true ∧
    (withCommand 0 State.reset).takesAccess ⟨.bar2, 0, 8⟩ = true ∧ State.reset.hif.waiting = [] := by decide +kernel

theorem witness_DebugAndPins : tapCodes.contains 0x7F = false ∧ (State.reset.put Reg.SEC_DBG_LEVEL_LEVEL 3).get Reg.SEC_DBG_LEVEL_LEVEL = 3 ∧
    State.reset.telemetryOn = false ∧ (withCommand 0 State.reset).dbg.paceAt ≤ (withCommand 0 State.reset).now ∧
    bit (2 : BitVec 64).toNat 1 = true ∧ State.reset.dbg.ceRaised = [] := by decide +kernel


/-! ### More witnesses -/

/-- Hearth 0 with a live table. -/
def withTable (kind slot : Nat) (bs : List Byte) : State :=
  { State.reset with hearths := [(0, { Hearth.empty with tables := [(kind * 64 + slot, (TwoGen.empty.load bs).swap)] })] }

theorem witness_FunctionLanes : (fnCheck (vword 0x60 4 4 1 0)).failure = none ∧
    ((withTable kindProg 31 [0, 0, 0, 0]).fnmCheck 0 (vword 0x61 4 4 1024 (31 * 2 ^ 88))).failure = none := by decide +kernel

theorem witness_LoadedLanes : ((State.reset.issued 0).vldCheck 0 (vword 0x40 4 4 1 0)).failure = none ∧
    ((State.reset.issued 0).readElems 0 0 0 .bf32 [0]).2.failure = none ∧ Fmt.bf32.alwaysScaled = false ∧
    ((State.reset.issued 0).vldCheck 0 (vword 0x40 4 2 32 0)).failure = none ∧ Fmt.gl4.alwaysScaled = true ∧
    ((State.reset.issued 0).readScaled 0 0 0 (vScaleAddr (vword 0x40 4 2 32 0) .gl4) .gl4 [] 0 (vBlocks (vword 0x40 4 2 32 0))).2.failure = none ∧
    ((State.reset.issued 0).vgathCheck 0 (vword 0x42 4 4 1 0)).failure = none := by decide +kernel

theorem witness_StoredElements : ((State.reset.issued 0).vstCheck 0 (vword 0x41 4 4 1 0)).failure = none ∧
    ((State.reset.issued 0).writeElems 0 0 0 .bf32 [(0, 1)]).2 = 0 ∧
    ((State.reset.issued 0).vstCheck 0 (vword 0x41 4 2 32 0)).failure = none ∧
    ((State.reset.issued 0).hWrites 0 0 (scaledWrites (vword 0x41 4 2 32 0) .gl4
      ((State.reset.issued 0).storeBlocks 0 (vword 0x41 4 2 32 0) (some .bf32) .gl4 .rn).1)).2 = 0 ∧
    ((State.reset.issued 0).vscatCheck 0 (vword 0x43 4 4 1 0)).failure = none ∧ State.reset.ecc = [] := by decide +kernel

theorem witness_NormAndCombine : (normCheck (vword 0x68 4 4 1 0)).failure = none ∧
    ((State.reset.issued 0).readStat 0 0 0).2.failure = none ∧
    (∀ n ∈ [2, 64], (stcombCheck (vword 0x69 0 0 0 (n * 2 ^ 88))).failure = none) ∧
    ((State.reset.issued 0).readStats 0 0 0 2).2.failure = none ∧ kindOf [] = some false := by decide +kernel

theorem witness_SoftmaxRows : (∀ p ∈ [0, 1, 2, 3], (smaxCheck (vword 0x6A 0 0 1024 (p * 2 ^ 88))).failure = none ∧
      smaxPhase (vword 0x6A 0 0 1024 (p * 2 ^ 88)) = p) ∧ vMaxsub (vword 0x6A 0 0 1 0) = false ∧
    ((State.reset.issued 0).hRead 0 0 0 128).2.1 = 0 ∧ (sumOfBytes SumRec.fresh.bytes).isSome = true := by
  decide +kernel

/-- MMA of one row and one k-step of GL16 by GL16. -/
def mmaWord : BitVec 128 := BitVec.ofNat 128 (1 + 2 ^ 16 + 2 ^ 24)

theorem witness_MmaAccumulates : (match (State.reset.issued 0).checkMma 0 mmaWord 0 with
    | .ok m => m.out.isNone && m.tiles == [0] && m.active == [0] && ((State.reset.issued 0).readKSteps m m.tiles).2.2 == 0 && !m.ovr
    | .error _ => false) = true ∧ opcodeOf mmaWord = 1 ∧ ((State.reset.ember 0).slot 0).mode = .empty ∧
    State.reset.slotsBad 0 [0] = false := by decide +kernel

/-- An output descriptor of one GL16 column without bias. -/
def withOut : State :=
  State.reset.setBytes (hearthAddr 0 + 4096 * State.reset.get (Reg.HTH_ODESC_BASE_BASE 0)) (leBytes 64 (0x4000 * 2 ^ 112 + 2 ^ 304))

theorem witness_OutOneRow : (match (withOut.issued 0).outCheck 0 (BitVec.ofNat 128 (2 + 2 ^ 16)) with
    | .ok d => !d.stats && d.bias == 0 && biasAgrees d.bias ((withOut.ember 0).slot 0).mode &&
        ((withOut.issued 0).hWrites 0 0 (d.writes 0 [])).2 == 0
    | .error _ => false) = true ∧ rowsOf (BitVec.ofNat 128 (2 + 2 ^ 16)) = 1 := by decide +kernel

/-- The first 64 KB of hearth 0 are a bucket-set range. -/
def withRange : State :=
  { State.reset with cfg := { State.reset.cfg with active := { loadedBank with regions := [⟨hearthAddr 0, 65536, 6⟩] } } }

theorem witness_RecordsStored : ((withRange.issued 0).bsstCheck 0 (BitVec.ofNat 128 (4 + 2 ^ 16))).failure = none ∧
    opcodeOf (BitVec.ofNat 128 (4 + 2 ^ 16)) = 4 ∧ ((withRange.issued 0).bsstRows 0 0 0 [Slot.empty]).2 = 0 ∧
    (rstatCheck (BitVec.ofNat 128 (0x21 + 2 ^ 16 + 3 * 2 ^ 62))).failure = none ∧ rowsOf (BitVec.ofNat 128 (0x21 + 2 ^ 16 + 3 * 2 ^ 62)) = 1 ∧
    kindOf (([0, 1] : List Nat).map fun e => ((State.reset.ember e).slot 0).stats) ≠ none := by decide +kernel

theorem witness_BucketsAdded : ((withRange.issued 0).bsaddCheck 0 (BitVec.ofNat 128 (5 + 2 ^ 16))).failure = none ∧
    ((withRange.issued 0).readRecords 0 0 0 1).2.1 = 0 ∧
    addRow false withRange.random 0 Slot.empty (((withRange.issued 0).readRecords 0 0 0 1).2.2.getD 0 []) ≠ none := by decide +kernel

/-- A run that a schedule called from operation 4 of program 0. -/
def calledRun : ProgRun := { run0 with stack := [⟨0, 4, some 0⟩] }

theorem witness_ControlOperations : (withOp 0x0D calledRun).run 0 = some calledRun ∧
    (withOp 0x0D calledRun).mayIssue calledRun (BitVec.ofNat 128 0x0D) 0 = true ∧ (withOp 0x0D calledRun).schedEntry 0 1 = none ∧
    (withOp 0x0C run0).firstPrefetches 0 = [] ∧ { run0 with stack := [⟨0, 4, none⟩] }.stack.head?.bind (·.entry) = none := by decide +kernel

theorem witness_WaitingOperations : (withOp 0x0B run0).runVoid 0 = false ∧ ((withOp 0x0B run0).put Reg.COL_STEP_STATUS_VOID 1).runVoid 0 = true ∧
    (sfind (withOp 0x10 run0).col.timers 0).isSome = false := by decide +kernel

theorem witness_HearthOperations : (withOp 1 run0).runVoid 0 = false ∧ (withOp 1 run0).anyGated ((withOp 1 run0).opKilns 0 (1 : BitVec 128)) = false ∧
    ((withOp 1 run0).hRead 0 0 (hearthBytes - 16) 16).2.1 = 0 := by decide +kernel

/-- The first 64 KB of the live map are read-only. -/
def readable : State :=
  { State.reset with cfg := { State.reset.cfg with active := { loadedBank with regions := [⟨0, 65536, 1⟩] } } }

theorem witness_CopiesAndCollectives : (withOp 4 run0).windowOpen = false ∧ (readable.readMem (asCopier readable) 0 32).2.1 = 0 ∧
    (withOp 5 run0).stepCollier.exempt = true ∧ sArg (5 : BitVec 128) % 64 = 0 := by decide +kernel

/-- A table of two ranks, of which this module is rank 0, and a descriptor of a collective of both with COUNT 32 and TIMEOUT 1. -/
def paired : State :=
  let s := State.reset
  ({ s with link := { s.link with table := some ⟨0, 0, 0, [], [⟨0, 1, 12, 0xFFFF⟩, ⟨1, 1, 0, 0xFFFF⟩]⟩ } }.put
    (Reg.ODN_PORT_STAT_STATE (portReg 0)) 2)

theorem witness_Collective :
    let b := leBytes 64 (2 * 2 ^ 48 + 32 * 2 ^ 192 + 2 ^ 320)
    paired.collDescOk b 2 = true ∧ paired.collMembers (CollDesc.ofBytes b) = some [0, 1] ∧ paired.reachable 1 = true ∧
    paired.noticesFor 0 = [] := by decide +kernel

theorem witness_NormAndUpdateIssue : { run0 with eval := true }.eval = true ∧ run0.eval = false ∧ State.reset.stepState ≠ 5 ∧
    State.reset.stepState ≠ 4 ∧ gnormHeadOk (leBytes 64 (2 ^ 160)) = true := by decide +kernel

theorem witness_DataCommands : touchesWindow (dField 10 8 8) (dField 10 24 8) = false ∧
    (((withCommand 10 State.reset).takeHead 0 10).readMem (hostCopier 10) (dField 10 8 8) (dField 10 24 8)).2.1 = 0 ∧
    (((withCommand 10 State.reset).takeHead 0 10).writeMem (hostCopier 10) (dField 10 16 8) []).2 = 0 ∧
    piecesOf (dField 9 8 8) (dField 9 16 8) = [] := by decide +kernel

theorem witness_CommitAndAbort : dField 3 8 8 = (withCommand 3 (loaded State.reset)).get Reg.COL_STEP_NUM_STEP ∧
    (∀ n ∈ [1, 2, 3, 6, 7], ((withCommand 3 (loaded State.reset)).put Reg.COL_STEP_STATUS_STATE n).stepState = n) ∧
    dField (BitVec.ofNat 512 (3 + 2 ^ 64)) 8 8 ≠ (withCommand 3 (loaded State.reset)).get Reg.COL_STEP_NUM_STEP := by decide +kernel

theorem witness_TableCommands : (withCommand 0x0E (loaded State.reset)).loading = false ∧
    (withCommand 0x0E (loaded State.reset)).stepOpen = false ∧ (withCommand 0x0E (loaded State.reset)).evaluating = false ∧
    touchesWindow (dField 13 16 8) (dField 13 24 4) = false ∧ tableOk kindPwl [] = false := by decide +kernel

/-- An EVENT_WAIT of TIMEOUT 1 that started in stoke 0, seen in stoke 1. -/
def waitingState : State :=
  { State.reset.put Reg.COL_STOKE_COUNT 1 with
    col := { State.reset.col with started := [⟨0, 0, BitVec.ofNat 512 (0x10 + 2 ^ 192), 0, 0, 0, 0, false, false⟩] } }

theorem witness_WaitsAndBindings : (waitingState.col.started.find? fun c => c.opc = 0x10 && c.sq = 0 && c.cid = 0 &&
      dField c.desc 24 8 != 0 && decide (c.start + dField c.desc 24 8 ≤ waitingState.now)).isSome = true ∧
    touchesWindow (dField 12 8 8) 128 = false ∧ State.reset.bindWaits 0 = false ∧ State.reset.bank.kx1 = none := by decide +kernel

theorem witness_StepEnds : ((State.reset.put Reg.COL_STEP_STATUS_STATE 2).closesNow = true) ∧ State.reset.closesNow = false ∧
    ((State.reset.put Reg.COL_STEP_STATUS_STATE 6).drained = true) ∧ State.reset.drained = false ∧
    (State.reset.put Reg.COL_STEP_STATUS_STATE 2).updatesIssued = true := by decide +kernel

/-- A clip of binding 0 of step 0 in a state. -/
def withClip (c : ClipState) : State :=
  let p : Prepared := ⟨0, [⟨0, 0, 0, [], [], c, some 5, 0, 0, 0, [], false, false, 0⟩], [], false⟩
  { State.reset with ing := { State.reset.ing with prepared0 := [p] } }

theorem witness_IngestMoves :
    (((withClip .waiting).clips 0).find? fun x => x.clip.state == .waiting).isSome = true ∧
    (((withClip .fetching).clips 0).find? fun x => x.clip.demand = some 5 && x.clip.state == .fetching).isSome = true ∧
    (((withClip .covered).clips 0).find? fun x => x.clip.demand = some 5 && x.clip.state == .covered).isSome = true ∧
    State.reset.isSet (boundReg 1) = false ∧ (State.reset.put (Reg.ING_KR_CTL_EN 31) 1).isSet (Reg.ING_KR_CTL_EN 31) = true := by
  decide +kernel

theorem witness_SecurityOperations : State.reset.unclaimed = true ∧ slotNamed [1, 7] = true ∧ slotNamed [1, 8] = false ∧
    byInstaller .installer = true ∧ State.reset.board.flashOk = true ∧
    State.reset.policyOk (leBytes 64 (1 + 2 ^ 32 * State.reset.get Reg.SEC_BOUNDS_PCAP_MIN)) = true ∧
    State.reset.debugCode .maker 0 = 0 ∧ State.reset.debugCode .operator 3 ≠ 0 := by decide +kernel

theorem witness_RecoveryAndAttestation :
    { State.reset with pwr := { State.reset.pwr with phase := .recovery } }.pwr.phase = .recovery ∧ State.reset.sec.sessions = [] ∧
    (withCommand 0 State.reset).sec.sessions ≠ [] ∧ State.reset.get Reg.HIF_RCV_LEN_BYTES = 0 ∧
    (withCommand 0 State.reset).hif.recovery = false := by decide +kernel

theorem witness_StartUpAndHostLink :
    { State.reset with pwr := { State.reset.pwr with phase := .ready, perst := true } }.powerState ≤ 2 ∧
    { State.reset with pwr := { State.reset.pwr with phase := .ready, perst := false, training := true } }.linkMayRise = true ∧
    State.reset.linkMayRise = false ∧ ((State.reset.put Reg.PWR_STATUS_STEP 2).get Reg.PWR_STATUS_STEP = 2) := by decide +kernel
end Sys2Proof.Tests
end

/-! # The integer lane instructions (05_vector_engine_functions.md, R180, R190, R622) -/

namespace Sys2Proof.Machine

/-! ### Rounding an integer to an integer range -/

/-- An integer magnitude is a multiple of one: no rounding mode changes it. -/
theorem roundAt_linOf_zero (mode : Rnd) (neg : Bool) (u : Nat) (eps : Int) (m : Nat) :
    roundAt mode neg u eps (linOf m 0 0) 0 = (m, false) := by
  simp [roundAt, linOf]

/-- An integer converted to a range that holds zero (R95) is clamped into it, inexact only where it is clamped. -/
theorem toIntRange_ofInt {lo hi : Int} (hlo : lo ≤ 0) (hhi : 0 ≤ hi) (mode : Rnd) (u : Nat) (eps z : Int) :
    toIntRange lo hi mode u eps (.ofInt z 0) =
      (max lo (min hi z), if z < lo ∨ hi < z then fSAT ||| fIX else 0) := by
  by_cases hz : z = 0
  · subst hz
    simp [Num.ofInt, toIntRange, hlo, hhi]
  · have hsign : (if z < 0 then -(z.natAbs : Int) else z.natAbs) = z := by split <;> omega
    simp only [Num.ofInt, if_neg hz, toIntRange, roundAt_linOf_zero, decide_eq_true_eq, hsign]
    by_cases above : hi < z
    · rw [if_pos above, if_pos (.inr above), min_eq_left above.le, max_eq_right (hlo.trans hhi)]
    · by_cases below : z < lo
      · rw [if_neg above, if_pos below, if_pos (.inl below), min_eq_right (by omega), max_eq_left below.le]
      · rw [if_neg above, if_neg below, if_neg (by omega), min_eq_right (by omega), max_eq_right (by omega)]
        rfl

/-- The model's saturation is that of R190: of the conversion's flags only SAT stays. -/
theorem satInt_eq_saturated (z : Int) : satInt z = saturated z := by
  have hflags : (if z < -(2 ^ 31) ∨ 2 ^ 31 - 1 < z then fSAT ||| fIX else 0) &&& fSAT =
      if z < -(2 ^ 31) ∨ 2 ^ 31 - 1 < z then fSAT else 0 := by split <;> rfl
  have hrange := toIntRange_ofInt (lo := -(2 ^ 31)) (hi := 2 ^ 31 - 1) (by decide) (by decide) .rz 0 0 z
  simp only [satInt, saturated, ← hflags]
  exact congrArg (fun p : Int × Fl => (⟨unsignedOf 32 p.1, p.2 &&& fSAT, 0⟩ : Conv)) hrange

/-! ### The checks of ILOG and ISHF -/

/-- A check that passes with one more condition after it passes by itself. -/
theorem ok_of_bind_failIf {a : Checked Rnd} {c : Bool} {e : Nat} {r : Rnd}
    (h : (do let x ← a; failIf c e; .ok x) = (.ok r : Checked Rnd)) : a = .ok r := by
  obtain ⟨x, hx, h⟩ := checked_bind h
  obtain ⟨_, _, h⟩ := checked_bind h
  cases h
  exact hx

theorem vCheck_of_ilogCheck {w : BitVec 128} {r : Rnd} (h : ilogCheck w = .ok r) : vCheck w (bothInt w) none = .ok r :=
  ok_of_bind_failIf h

theorem vCheck_of_ishfCheck {w : BitVec 128} {r : Rnd} (h : ishfCheck w = .ok r) : vCheck w (bothInt w) none = .ok r :=
  ok_of_bind_failIf h

/-! ### What the instructions leave -/

/-- A row's instruction runs, and what it leaves is its lane result. -/
theorem runWord_laneResult {opc : Nat} {f : Nat → BitVec 128 → State → State} {h : Fin 384} {w : BitVec 128} {s : State} {o : VOut}
    (ho : opcodeOf w = opc) (hr : s.hearthRuns h = true) (hf : LaneResult h w (s.issued h) (f h w s) o) :
    ∃ t, runWord opc f h w s = .next t ∧ LaneResult h w (s.issued h) t o :=
  ⟨f h w s, runWord_next ho hr, hf⟩

/-- An I-opcode saturates its exact integer result lane by lane. -/
theorem vecI_result (h : Nat) {w : BitVec 128} (s : State) {r : Rnd} (op : Int → Int → Int)
    (hc : vCheck w (bothInt w) none = .ok r) (ho : opcodeOf w ≠ 0x69) :
    LaneResult h w (s.issued h) (vecI h w s op) (laneOut w fun i => saturated (op (s.int h (vA w) i) (s.int h (vB w) i))) :=
  vecMap_result h w s _ hc (vCheck_len hc ho) fun _ => satInt_eq_saturated _

/-- ILOG forms AND, OR or XOR of the lanes as PARAM is 0, 1 or 2, without flags. -/
theorem doIlog_result (h : Nat) {w : BitVec 128} (s : State) {r : Rnd} (hc : ilogCheck w = .ok r) (ho : opcodeOf w ≠ 0x69) :
    LaneResult h w (s.issued h) (doIlog h w s) (laneOut w fun i =>
      let a := s.lane h (vA w) i
      let b := s.lane h (vB w) i
      ⟨if vParam w = 0 then a &&& b else if vParam w = 1 then a ||| b else a ^^^ b, 0, 0⟩) := by
  refine vecMap_result h w s _ hc (vCheck_len (vCheck_of_ilogCheck hc) ho) fun i => ?_
  match vParam w with
  | 0 => rfl
  | 1 => rfl
  | n + 2 => rfl

/-- ISHF shifts right with the sign where PARAM[7] is set and left otherwise, without flags. -/
theorem doIshf_result (h : Nat) {w : BitVec 128} (s : State) {r : Rnd} (hc : ishfCheck w = .ok r) (ho : opcodeOf w ≠ 0x69) :
    LaneResult h w (s.issued h) (doIshf h w s) (laneOut w fun i =>
      let n := vParam w % 64
      ⟨if bit (vParam w) 7 then unsignedOf 32 ((s.int h (vA w) i).fdiv (2 ^ n)) else s.lane h (vA w) i * 2 ^ n % 2 ^ 32, 0, 0⟩) := by
  refine vecMap_result h w s _ hc (vCheck_len (vCheck_of_ishfCheck hc) ho) fun i => ?_
  simp only [State.int, Nat.cast_pow, Nat.cast_ofNat]

/-! ### The rows of the table -/

theorem exec_iadd (h : Fin 384) (w : BitVec 128) (s : State) : exec (.iadd h w) s = runWord 0x58 doIadd h w s := rfl
theorem exec_isub (h : Fin 384) (w : BitVec 128) (s : State) : exec (.isub h w) s = runWord 0x59 doIsub h w s := rfl
theorem exec_imul (h : Fin 384) (w : BitVec 128) (s : State) : exec (.imul h w) s = runWord 0x5A doImul h w s := rfl
theorem exec_ilog (h : Fin 384) (w : BitVec 128) (s : State) : exec (.ilog h w) s = runWord 0x5B doIlog h w s := rfl
theorem exec_ishf (h : Fin 384) (w : BitVec 128) (s : State) : exec (.ishf h w) s = runWord 0x5C doIshf h w s := rfl

/-- Settles O9: each row runs its instruction, whose lane result the lemmas above give; the saturation of R190 is
`satInt_eq_saturated`. -/
theorem integerLanes : Obligations.IntegerLanes := by
  intro h w s r hr
  refine ⟨fun ho hc => ?iadd, fun ho hc => ?isub, fun ho hc => ?imul, fun ho hc => ?ilog, fun ho hc => ?ishf⟩
  case iadd =>
    rw [exec_iadd]
    exact runWord_laneResult ho hr (vecI_result h s (· + ·) hc (by omega))
  case isub =>
    rw [exec_isub]
    exact runWord_laneResult ho hr (vecI_result h s (· - ·) hc (by omega))
  case imul =>
    rw [exec_imul]
    exact runWord_laneResult ho hr (vecI_result h s (· * ·) hc (by omega))
  case ilog =>
    rw [exec_ilog]
    exact runWord_laneResult ho hr (doIlog_result h s hc (by omega))
  case ishf =>
    rw [exec_ishf]
    exact runWord_laneResult ho hr (doIshf_result h s hc (by omega))

end Sys2Proof.Machine

/-! # Addresses that no memory backs (09_memory_tiers.md, R322, R323) -/

namespace Sys2Proof.Machine

/-! ### Where the device address map has nothing -/

/-- The map of R322 and R323 has nothing exactly in the gaps between its four ranges, beyond the installed peat tier and in the
unmapped granules of the live tier, as long as the installed peat tier ends below the hearth memories. -/
theorem place_eq_none_iff (s : State) (a : Nat) (hpeat : peatBase + s.get Reg.PEAT_SIZE_BYTES ≤ hearthBase) :
    s.place a = none ↔
      (0x40000000000 ≤ a ∧ a < peatBase) ∨ (peatBase + s.get Reg.PEAT_SIZE_BYTES ≤ a ∧ a < hearthBase) ∨
        (hearthBase + 0xC0000000 ≤ a ∧ a < windowBase) ∨ 0xC00000000000 ≤ a ∨
        (a < 0x40000000000 ∧ liveKey (s.granule (a / 2 ^ 30)) a = none) := by
  have peat : peatBase = 0x100000000000 := rfl
  have hearths : hearthBase = 0x400000000000 := rfl
  have window : windowBase = 0x800000000000 := rfl
  unfold State.place
  split_ifs with live peatByte hearthByte windowByte
  · constructor
    · exact fun unmapped => .inr (.inr (.inr (.inr ⟨live, unmapped⟩)))
    · rintro (gap | beyond | gap | past | ⟨-, unmapped⟩)
      case inr.inr.inr.inr => exact unmapped
      all_goals omega
  · exact iff_of_false not_false (by omega)
  · exact iff_of_false not_false (by omega)
  · exact iff_of_false not_false (by omega)
  · exact iff_of_true rfl (by omega)

/-! ### An access is refused where its first byte lies -/

/-- A byte that no memory backs is refused before any other check of R327, R339 or R341. -/
theorem pieceCode_of_place_eq_none {s : State} {a : Nat} (h : s.place a = none) (w : Who) (wr : Bool) (n : Nat) :
    s.pieceCode w wr a n = memUnmapped := by
  unfold State.pieceCode
  rw [h]

/-- A range that holds a byte begins with a piece at its first address. -/
theorem piecesOf_eq_cons (a : Nat) {n : Nat} (hn : 0 < n) : ∃ m ps, piecesOf a n = (a, m) :: ps := by
  rw [piecesOf, pieces, if_neg hn.ne']
  exact ⟨_, _, rfl⟩

/-- A code that refuses stays, whatever the pieces behind it say. -/
theorem foldl_code_of_ne_zero {α : Type} (f : α → Nat) {c : Nat} (hc : c ≠ 0) (ps : List α) :
    ps.foldl (fun c p => if c ≠ 0 then c else f p) c = c := by
  induction ps with
  | nil => rfl
  | cons p ps ih => rw [List.foldl_cons, if_pos hc, ih]

/-- What refuses the first piece refuses the range. -/
theorem rangeCode_of_place_eq_none {s : State} {a n : Nat} (h : s.place a = none) (hn : 0 < n) (w : Who) (wr : Bool) :
    s.rangeCode w wr a n = memUnmapped := by
  obtain ⟨m, ps, hps⟩ := piecesOf_eq_cons a hn
  unfold State.rangeCode
  rw [hps, List.foldl_cons, if_neg (not_not.mpr rfl), pieceCode_of_place_eq_none h]
  exact foldl_code_of_ne_zero (fun p : Nat × Nat => s.pieceCode w wr p.1 p.2) (by decide) ps

/-- A read that its range check refuses answers the code and no bytes. -/
theorem readMem_of_rangeCode {s : State} {w : Who} {a n c : Nat} (h : s.rangeCode w false a n = c) (hc : c ≠ 0) :
    s.readMem w a n = (s.accessFailed w c, c, []) := by
  unfold State.readMem
  rw [h]
  exact if_pos hc

/-- A write that its range check refuses stores nothing and answers the code. -/
theorem writeMem_of_rangeCode {s : State} {w : Who} {a c : Nat} {bs : List Byte} (h : s.rangeCode w true a bs.length = c)
    (hc : c ≠ 0) : s.writeMem w a bs = (s.accessFailed w c, c) := by
  unfold State.writeMem
  rw [h]
  exact if_pos hc

/-- Settles O6: in each of the five cases the map has nothing at the first byte, so the first piece of the access is refused,
and with it the range, the read and the write. -/
theorem unmappedIsRefused : Obligations.UnmappedIsRefused := by
  intro s w wr a n hn unbacked hpeat
  have refused := rangeCode_of_place_eq_none ((place_eq_none_iff s a hpeat).mpr unbacked) hn w
  refine ⟨refused wr, ?read, fun bs hbs => ?write⟩
  case read => rw [readMem_of_rangeCode (refused false) (by decide)]
  case write =>
    subst hbs
    rw [writeMem_of_rangeCode (refused true) (by decide)]

end Sys2Proof.Machine

/-! # Host commands in the base configuration (10_configuration_bitstream.md, R383) -/

namespace Sys2Proof.Machine

/-! ### What a host command does before its own work -/

/-- Of a sound descriptor, under an open session and outside P2, only the configuration can refuse: in the base configuration
the opcodes of R383 pass, and all others meet CFG_NONE. -/
theorem refusal_in_base {s : State} {d : BitVec 512} (hbase : s.cfg.active.loaded = false) (hsound : descriptorOk d = true)
    (hopen : s.sec.sessions ≠ []) (hpower : s.get Reg.PWR_STATUS_PSTATE ≠ 2) :
    s.refusal d = if worksInBase (dOpc d) then 0 else cfgNone := by
  have hsession : s.sec.sessions.isEmpty = false := List.isEmpty_eq_false_iff.mpr hopen
  unfold State.refusal
  cases worksInBase (dOpc d) <;> simp [hbase, hsound, hsession, hpower]

/-- A command that may start and that a check refuses is taken and completes with the check's code, whatever its own
conditions and work are. -/
theorem hostCommand_of_refusal {s : State} {q opc c : Nat} {d : BitVec 512} (hopc : dOpc d = opc) (htake : s.canTake q d = true)
    (hcode : s.refusal d = c) (hc : c ≠ 0) (mustWait : State → Bool) (work : State → Started → State) :
    s.hostCommand opc q d mustWait work = (s.takeHead q d).complete (s.startOf q d) c := by
  have hstart : ¬(dOpc d ≠ opc || !s.canTake q d) = true := by simp [hopc, htake]
  unfold State.hostCommand
  rw [if_neg hstart, hcode]
  exact if_pos hc

/-- Instruction i is the host command with opcode opc at submission queue q: in every state it is one `State.hostCommand`, with
a condition to wait for and a work of its own. -/
def IsHostCommand (q : Fin 64) (d : BitVec 512) (opc : Nat) (i : Instr) : Prop :=
  ∀ s : State, ∃ (mustWait : State → Bool) (work : State → Started → State),
    exec i s = .next (s.hostCommand opc q d mustWait work)

/-- A host command outside R383's list, in front of a queue in the base configuration, completes with CFG_NONE. -/
theorem IsHostCommand.exec_in_base {q : Fin 64} {d : BitVec 512} {opc : Nat} {i : Instr} {s : State} (hi : IsHostCommand q d opc i)
    (hopc : dOpc d = opc) (htake : s.canTake q d = true) (hcode : s.refusal d = cfgNone) :
    exec i s = .next ((s.takeHead q d).complete (s.startOf q d) cfgNone) := by
  obtain ⟨mustWait, work, hexec⟩ := hi s
  rw [hexec, hostCommand_of_refusal hopc htake hcode (by decide)]

/-! ### The rows of the list -/

/-- Settles O36: each row of the list names a host command and says of its opcode what `worksInBase` says. So by
`refusal_in_base` an operating command passes every check, and another one is refused with CFG_NONE before its own work. -/
theorem baseConfigurationCommands : Obligations.BaseConfigurationCommands := by
  intro q d s hbase hsound hopen hpower htake p hp hopc
  obtain ⟨hworks, hcommand⟩ : worksInBase p.1 = p.2.1 ∧ IsHostCommand q d p.1 p.2.2 := by
    fin_cases hp <;> exact ⟨rfl, fun _ => ⟨_, _, rfl⟩⟩
  have hcode : s.refusal d = if p.2.1 then 0 else cfgNone := by
    rw [refusal_in_base hbase hsound hopen hpower, hopc, hworks]
  refine ⟨fun hoperates => ?operates, fun hfails => ?fails⟩
  case operates => exact ⟨hopc, htake, by rw [hcode, if_pos hoperates]⟩
  case fails => exact hcommand.exec_in_base hopc htake (by rw [hcode, hfails]; rfl)

end Sys2Proof.Machine

/-! # What every command and every step keeps (00_scope.md, 09_memory_tiers.md, 11_commands_scheduling_events.md) -/

namespace Sys2Proof.Machine

/-! ### Commands -/

/-- Whatever command runs, it keeps what every operation of the module keeps: each row's own lemma says so. -/
theorem exec_keeps : ∀ (c : Instr) (s : State), KeepsO s (exec c s)
  | .loadConfig sq d, _ => execLoadConfig_keeps sq d .rfl
  | .configSwitch, _ => execConfigSwitch_keeps .rfl
  | .runStep sq d, _ => execRunStep_keeps sq d .rfl
  | .commitStep sq d, _ => execCommitStep_keeps sq d .rfl
  | .abortStep sq d, _ => execAbortStep_keeps sq d .rfl
  | .evalRun sq d, _ => execEvalRun_keeps sq d .rfl
  | .bank sq d, _ => execBank_keeps sq d .rfl
  | .automaticBank, _ => execAutomaticBank_keeps .rfl
  | .rekindle sq d, _ => execRekindle_keeps sq d .rfl
  | .adopt sq d, _ => execAdopt_keeps sq d .rfl
  | .scanCrc sq d, _ => execScanCrc_keeps sq d .rfl
  | .copy sq d, _ => execCopy_keeps sq d .rfl
  | .fill sq d, _ => execFill_keeps sq d .rfl
  | .ingestBind sq d, _ => execIngestBind_keeps sq d .rfl
  | .tableLoad sq d, _ => execTableLoad_keeps sq d .rfl
  | .tableSwap sq d, _ => execTableSwap_keeps sq d .rfl
  | .fence sq d, _ => execFence_keeps sq d .rfl
  | .eventWait sq d, _ => execEventWait_keeps sq d .rfl
  | .sqTailDoorbell sq a, _ => execSqTailDoorbell_keeps sq a .rfl
  | .cqHeadDoorbell cq a, _ => execCqHeadDoorbell_keeps cq a .rfl
  | .sqEnableWrite sq v, _ => execSqEnableWrite_keeps sq v .rfl
  | .sqDrainEnd sq, _ => execSqDrainEnd_keeps sq .rfl
  | .cqEnableWrite cq v, _ => execCqEnableWrite_keeps cq v .rfl
  | .ringTailDoorbell ring a, _ => execRingTailDoorbell_keeps ring a .rfl
  | .chunk ring, _ => execChunk_keeps ring .rfl
  | .demandIssue b, _ => execDemandIssue_keeps b .rfl
  | .demandTimeout b demand, _ => execDemandTimeout_keeps b demand .rfl
  | .stepPreparation b, _ => execStepPreparation_keeps b .rfl
  | .clipDecode b demand, _ => execClipDecode_keeps b demand .rfl
  | .mma h w, _ => execMma_keeps h w .rfl
  | .out h w, _ => execOut_keeps h w .rfl
  | .clr h w, _ => execClr_keeps h w .rfl
  | .bsst h w, _ => execBsst_keeps h w .rfl
  | .bsadd h w, _ => execBsadd_keeps h w .rfl
  | .kred h w, _ => execKred_keeps h w .rfl
  | .rstat h w, _ => execRstat_keeps h w .rfl
  | .hbar h w, _ => execHbar_keeps h w .rfl
  | .codebookBuild h slot, _ => execCodebookBuild_keeps h slot .rfl
  | .vld h w, _ => execVld_keeps h w .rfl
  | .vst h w, _ => execVst_keeps h w .rfl
  | .vgath h w, _ => execVgath_keeps h w .rfl
  | .vscat h w, _ => execVscat_keeps h w .rfl
  | .vsplat h w, _ => execVsplat_keeps h w .rfl
  | .fadd h w, _ => execFadd_keeps h w .rfl
  | .fsub h w, _ => execFsub_keeps h w .rfl
  | .fmul h w, _ => execFmul_keeps h w .rfl
  | .ffma h w, _ => execFfma_keeps h w .rfl
  | .fmin h w, _ => execFmin_keeps h w .rfl
  | .fmax h w, _ => execFmax_keeps h w .rfl
  | .fdiv h w, _ => execFdiv_keeps h w .rfl
  | .fsqrt h w, _ => execFsqrt_keeps h w .rfl
  | .fcmp h w, _ => execFcmp_keeps h w .rfl
  | .sel h w, _ => execSel_keeps h w .rfl
  | .gmul h w, _ => execGmul_keeps h w .rfl
  | .gadd h w, _ => execGadd_keeps h w .rfl
  | .gsub h w, _ => execGsub_keeps h w .rfl
  | .iadd h w, _ => execIadd_keeps h w .rfl
  | .isub h w, _ => execIsub_keeps h w .rfl
  | .imul h w, _ => execImul_keeps h w .rfl
  | .ilog h w, _ => execIlog_keeps h w .rfl
  | .ishf h w, _ => execIshf_keeps h w .rfl
  | .cvt h w, _ => execCvt_keeps h w .rfl
  | .draw h w, _ => execDraw_keeps h w .rfl
  | .rand h w, _ => execRand_keeps h w .rfl
  | .fn h w, _ => execFn_keeps h w .rfl
  | .fnm h w, _ => execFnm_keeps h w .rfl
  | .norm h w, _ => execNorm_keeps h w .rfl
  | .stcomb h w, _ => execStcomb_keeps h w .rfl
  | .smax h w, _ => execSmax_keeps h w .rfl
  | .progEnd p op, _ => execProgEnd_keeps p op .rfl
  | .runh p op, _ => execRunh_keeps p op .rfl
  | .dfence p op, _ => execDfence_keeps p op .rfl
  | .mfence p op, _ => execMfence_keeps p op .rfl
  | .copyop p op, _ => execCopyop_keeps p op .rfl
  | .coll p op, _ => execColl_keeps p op .rfl
  | .collectiveTimeout xid, _ => execCollectiveTimeout_keeps xid .rfl
  | .route p op, _ => execRoute_keeps p op .rfl
  | .dispatch p op remote, _ => execDispatch_keeps p op remote .rfl
  | .combine p op returned, _ => execCombine_keeps p op returned .rfl
  | .tswap p op, _ => execTswap_keeps p op .rfl
  | .owner p op, _ => execOwner_keeps p op .rfl
  | .waitmb p op, _ => execWaitmb_keeps p op .rfl
  | .sched p op, _ => execSched_keeps p op .rfl
  | .ret p op, _ => execRet_keeps p op .rfl
  | .call p op, _ => execCall_keeps p op .rfl
  | .timer p op, _ => execTimer_keeps p op .rfl
  | .timerExpiry t, _ => execTimerExpiry_keeps t .rfl
  | .twait p op, _ => execTwait_keeps p op .rfl
  | .pin p op, _ => execPin_keeps p op .rfl
  | .gnorm p op, _ => execGnorm_keeps p op .rfl
  | .voteClose, _ => execVoteClose_keeps .rfl
  | .globalResult g, _ => execGlobalResult_keeps g .rfl
  | .reductionTimeout, _ => execReductionTimeout_keeps .rfl
  | .update p op, _ => execUpdate_keeps p op .rfl
  | .stepDrain, _ => execStepDrain_keeps .rfl
  | .digestPass, _ => execDigestPass_keeps .rfl
  | .digestTimeout, _ => execDigestTimeout_keeps .rfl
  | .rxData port f, _ => execRxData_keeps port f .rfl
  | .rxVoid port f, _ => execRxVoid_keeps port f .rfl
  | .rxAck port f, _ => execRxAck_keeps port f .rfl
  | .rxNak port f, _ => execRxNak_keeps port f .rfl
  | .rxHello port f, _ => execRxHello_keeps port f .rfl
  | .rxRankupd port f, _ => execRxRankupd_keeps port f .rfl
  | .rxBankseg port f, _ => execRxBankseg_keeps port f .rfl
  | .rxDigest port f, _ => execRxDigest_keeps port f .rfl
  | .rxIdle port f, _ => execRxIdle_keeps port f .rfl
  | .rxReady port f, _ => execRxReady_keeps port f .rfl
  | .idleSend port, _ => execIdleSend_keeps port .rfl
  | .ackTimeout port, _ => execAckTimeout_keeps port .rfl
  | .portLost port c, _ => execPortLost_keeps port c .rfl
  | .fabricTrain peers, _ => execFabricTrain_keeps peers .rfl
  | .portRetrain port v, _ => execPortRetrain_keeps port v .rfl
  | .rankDown v, _ => execRankDown_keeps v .rfl
  | .pairRetrain v peers, _ => execPairRetrain_keeps v peers .rfl
  | .pairModeRequest v, _ => execPairModeRequest_keeps v .rfl
  | .storeStall, _ => execStoreStall_keeps .rfl
  | .kilnQuarantine k, _ => execKilnQuarantine_keeps k .rfl
  | .dieFault site, _ => execDieFault_keeps site .rfl
  | .watchdog k, _ => execWatchdog_keeps k .rfl
  | .kilnGating k, _ => execKilnGating_keeps k .rfl
  | .kilnWake k, _ => execKilnWake_keeps k .rfl
  | .governorEvaluation g, _ => execGovernorEvaluation_keeps g .rfl
  | .thermalTrip sensor idx, _ => execThermalTrip_keeps sensor idx .rfl
  | .mainSupplyFault c, _ => execMainSupplyFault_keeps c .rfl
  | .computeRailFault die, _ => execComputeRailFault_keeps die .rfl
  | .auxSupplyLoss, _ => execAuxSupplyLoss_keeps .rfl
  | .powerOnReset, _ => execPowerOnReset_keeps .rfl
  | .moduleReset c, _ => execModuleReset_keeps c .rfl
  | .warmReset c, _ => execWarmReset_keeps c .rfl
  | .pcieReset c, _ => execPcieReset_keeps c .rfl
  | .perstRelease, _ => execPerstRelease_keeps .rfl
  | .pcieLinkUp speed width, _ => execPcieLinkUp_keeps speed width .rfl
  | .startupStepTimeout, _ => execStartupStepTimeout_keeps .rfl
  | .kilnReset v, _ => execKilnReset_keeps v .rfl
  | .powerStateRequest v, _ => execPowerStateRequest_keeps v .rfl
  | .capWrite v, _ => execCapWrite_keeps v .rfl
  | .secOpen port, _ => execSecOpen_keeps port .rfl
  | .secClose port, _ => execSecClose_keeps port .rfl
  | .claim port, _ => execClaim_keeps port .rfl
  | .keySet port, _ => execKeySet_keeps port .rfl
  | .keyClear port, _ => execKeyClear_keeps port .rfl
  | .policySet port, _ => execPolicySet_keeps port .rfl
  | .policyGet port, _ => execPolicyGet_keeps port .rfl
  | .fwUpdate port, _ => execFwUpdate_keeps port .rfl
  | .debugSet port, _ => execDebugSet_keeps port .rfl
  | .auditRead port, _ => execAuditRead_keeps port .rfl
  | .unclaim port, _ => execUnclaim_keeps port .rfl
  | .lockoutExpiry r, _ => execLockoutExpiry_keeps r .rfl
  | .guardLock v, _ => execGuardLock_keeps v .rfl
  | .recoveryGo, _ => execRecoveryGo_keeps .rfl
  | .getCerts, _ => execGetCerts_keeps .rfl
  | .getReport nonce, _ => execGetReport_keeps nonce .rfl
  | .doeDiscovery index, _ => execDoeDiscovery_keeps index .rfl
  | .doeAbort, _ => execDoeAbort_keeps .rfl
  | .bar4Access off acc, _ => execBar4Access_keeps off acc .rfl
  | .msixUnmask u, _ => execMsixUnmask_keeps u .rfl
  | .traceWindowArm n v, _ => execTraceWindowArm_keeps n v .rfl
  | .pmcFreeze v, _ => execPmcFreeze_keeps v .rfl
  | .pmcClear v, _ => execPmcClear_keeps v .rfl
  | .telemetryRecord, _ => execTelemetryRecord_keeps .rfl
  | .paceWindow counts, _ => execPaceWindow_keeps counts .rfl
  | .correctedErrorRate src, _ => execCorrectedErrorRate_keeps src .rfl
  | .scrub addr, _ => execScrub_keeps addr .rfl
  | .dbgacc dr, _ => execDbgacc_keeps dr .rfl
  | .extest pins, _ => execExtest_keeps pins .rfl
  | .samplePreload preload, _ => execSamplePreload_keeps preload .rfl
  | .idcode, _ => execIdcode_keeps .rfl
  | .bypass ir, _ => execBypass_keeps ir .rfl
  | .modAlertNRelease, _ => execModAlertNRelease_keeps .rfl
  | .registerWrite a v, _ => execRegisterWrite_keeps a v .rfl
  | .waitExpired sq cid, _ => execWaitExpired_keeps sq cid .rfl
  | .hostLinkCompletion r, _ => execHostLinkCompletion_keeps r .rfl
  | .pcieConfigurationWrite c, _ => execPcieConfigurationWrite_keeps c .rfl
  | .registerRead a, _ => execRegisterRead_keeps a .rfl
  | .featurePinInputChange pin level, _ => execFeaturePinInputChange_keeps pin level .rfl
  | .cordPresenceChange cage present, _ => execCordPresenceChange_keeps cage present .rfl
  | .bnkStoreHostCountWrite a v, _ => execBnkStoreHostCountWrite_keeps a v .rfl

/-- A word of a hearth answers a next state, whether or not its hearth runs it. -/
theorem runWord_answers (opc : Nat) (f : Nat → BitVec 128 → State → State) (h : Fin 384) (w : BitVec 128) (s : State) :
    ∃ t, runWord opc f h w s = .next t := by
  unfold runWord
  split <;> exact ⟨_, rfl⟩

/-- FABRIC_TRAIN answers a next state, whether it is refused, finds no rank table, or trains. -/
theorem execFabricTrain_answers (peers : List PeerHello) (s : State) : ∃ t, execFabricTrain peers s = .next t := by
  unfold execFabricTrain
  by_cases busy : (s.stepOpen || s.evaluating || s.isSet Reg.BNK_STATUS_BUSY) = true
  · exact ⟨_, if_pos busy⟩
  · rw [if_neg busy]
    rcases s.dropTable.readRanks with ⟨u, _ | b⟩
    · exact ⟨_, rfl⟩
    · dsimp only
      split <;> exact ⟨_, rfl⟩

/-- Every command answers a next state: a word of a hearth through `runWord`, an event in each case that its condition tells
apart, and every other command outright. -/
theorem exec_answers (c : Instr) (s : State) : ∃ t, exec c s = .next t := by
  cases c
  case mma | out | clr | bsst | bsadd | kred | rstat | hbar | vld | vst | vgath | vscat | vsplat | fadd | fsub | fmul | ffma |
    fmin | fmax | fdiv | fsqrt | fcmp | sel | gmul | gadd | gsub | iadd | isub | imul | ilog | ishf | fn | fnm | norm | stcomb |
    smax =>
    exact runWord_answers _ _ _ _ _
  case cvt h w =>
    simp only [exec, execCvt]
    split
    · exact ⟨_, rfl⟩
    · exact runWord_answers _ _ _ _ _
  case draw h w | rand h w =>
    simp only [exec, execDraw, execRand]
    split
    · exact runWord_answers _ _ _ _ _
    · exact ⟨_, rfl⟩
  case fabricTrain peers => exact execFabricTrain_answers peers s
  case configSwitch | automaticBank | sqEnableWrite | sqDrainEnd | cqEnableWrite | chunk | demandIssue | demandTimeout |
    stepPreparation | clipDecode | codebookBuild | collectiveTimeout | timerExpiry | voteClose |
    globalResult | reductionTimeout | stepDrain | digestPass | digestTimeout | idleSend | ackTimeout | portLost |
    portRetrain | rankDown | pairRetrain | storeStall | kilnGating | kilnWake | governorEvaluation | thermalTrip |
    mainSupplyFault | computeRailFault | auxSupplyLoss | powerOnReset | moduleReset | warmReset | pcieReset | perstRelease |
    pcieLinkUp | startupStepTimeout | kilnReset | powerStateRequest | capWrite | getCerts | getReport | doeDiscovery |
    bar4Access | msixUnmask | telemetryRecord | paceWindow | correctedErrorRate | scrub | dbgacc | extest | samplePreload |
    idcode | bypass | registerWrite | waitExpired | hostLinkCompletion | pcieConfigurationWrite | registerRead |
    cordPresenceChange | bnkStoreHostCountWrite =>
    simp only [exec, execConfigSwitch, execAutomaticBank, execSqEnableWrite, execSqDrainEnd, execCqEnableWrite, execChunk,
      execDemandIssue, execDemandTimeout, execStepPreparation, execClipDecode, execCodebookBuild, execCollectiveTimeout, execTimerExpiry, execVoteClose, execGlobalResult, execReductionTimeout, execStepDrain,
      execDigestPass, execDigestTimeout, execIdleSend, execAckTimeout, execPortLost, execPortRetrain,
      execRankDown, execPairRetrain, execStoreStall, execKilnGating, execKilnWake, execGovernorEvaluation, execThermalTrip,
      execMainSupplyFault, execComputeRailFault, execAuxSupplyLoss, execPowerOnReset, execModuleReset, execWarmReset,
      execPcieReset, execPerstRelease, execPcieLinkUp, execStartupStepTimeout, execKilnReset, execPowerStateRequest,
      execCapWrite, execGetCerts, execGetReport, execDoeDiscovery, execBar4Access, execMsixUnmask, execTelemetryRecord,
      execPaceWindow, execCorrectedErrorRate, execScrub, execDbgacc, execExtest, execSamplePreload, execIdcode, execBypass,
      execRegisterWrite, execWaitExpired, execHostLinkCompletion, execPcieConfigurationWrite, execRegisterRead,
      execCordPresenceChange, execBnkStoreHostCountWrite]
    repeat' split
    all_goals exact ⟨_, rfl⟩
  all_goals exact ⟨_, rfl⟩

/-- Settles O3: a command answers a next state (`exec_answers`), and keeps the queue and what was sent (`exec_keeps`). -/
theorem commandsAnswer : Obligations.CommandsAnswer := by
  intro c s
  obtain ⟨t, ht⟩ := exec_answers c s
  have keeps : Keeps s t := by
    have h := exec_keeps c s
    rwa [ht] at h
  obtain ⟨l, hl⟩ := keeps.out
  exact ⟨t, ht, keeps.pending, l, hl.symm⟩

/-! ### Steps -/

/-- Settles O1: that is what a step is. -/
theorem stepRunsFront : Obligations.StepRunsFront := by
  intro s c rest hp
  unfold step
  rw [hp]

/-- Taking the front command off the queue leaves memory and registers as sound as they were. -/
theorem State.Sound.withPending {s : State} (h : s.Sound) (rest : List Instr) : State.Sound { s with pending := rest } :=
  ⟨h.mem, h.regs⟩

/-- What is sound stays so along whatever an operation keeps. -/
theorem Keeps.sound {s t : State} (h : Keeps s t) (hs : s.Sound) : t.Sound := ⟨h.mem hs.mem, h.regs hs.regs⟩

/-- Settles O5: on an empty queue by `tick_keeps`, with a command in front by `exec_keeps`. -/
theorem stepKeepsSound : Obligations.StepKeepsSound := by
  intro s t hs hstep
  cases hp : s.pending with
  | nil =>
    have htick : step s = .next (tick s) := by
      unfold step
      rw [hp]
    rw [htick] at hstep
    cases hstep
    exact (tick_keeps .rfl).sound hs
  | cons c rest =>
    rw [stepRunsFront s c rest hp] at hstep
    have h := exec_keeps c { s with pending := rest }
    rw [hstep] at h
    exact Keeps.sound h (hs.withPending rest)

/-! ### The reset state and the stoke -/

/-- Settles O4: the reset state lists no byte and no register, so that every register reads as its reset value. -/
theorem resetSound : Obligations.ResetSound :=
  ⟨⟨Memory.wf_nil, List.Pairwise.nil⟩, rfl, fun _ => rfl, rfl, rfl, rfl, rfl⟩

/-- A ready module whose pin 0 is claimed as a push-pull output (R606) and in which a PIN operation has set its next level. -/
def pinWaiting : State :=
  { State.reset with
    pwr := { State.reset.pwr with phase := .ready }
    cfg := ⟨{ ConfigBank.base with claims := [⟨1, 1, 0, 1, 0⟩] }, none⟩
    pins := { State.reset.pins with next := [(0, true)] } }

/-- A PIN operation takes effect at the stoke's edge, and the level that the pin then drives is sent. -/
theorem tick_pinWaiting_out : (tick pinWaiting).out = [.pin 0 (some true)] := by decide +kernel

/-- Refutes O2: the stoke also drives the pins that PIN operations have set since the last one (R398, R606), so that a module with
one waiting sends that level, where the statement has nothing sent. -/
theorem not_emptyQueueTicks : ¬ Obligations.EmptyQueueTicks := by
  intro h
  obtain ⟨t, ht, -, -, hout, -, -⟩ := (h pinWaiting rfl).2 (by decide)
  have htick : step pinWaiting = .next (tick pinWaiting) := rfl
  obtain rfl : tick pinWaiting = t := Host.Outcome.next.inj (htick.symm.trans ht)
  rw [tick_pinWaiting_out] at hout
  exact absurd hout (List.cons_ne_nil _ _)

end Sys2Proof.Machine

/-! # Accesses to device memory (09_memory_tiers.md, R322, R327, R349) -/

namespace Sys2Proof.Machine

/-! ### Refused accesses -/

/-- A refused access touches registers only, of which it may change MEM_ERR (R349), unless the host link refused it. -/
theorem accessFailed_only (s : State) (w : Who) {c : Nat} (hc : c ≠ memHost) :
    RegsOnly s (s.accessFailed w c) ∧ s.WordsKept (s.accessFailed w c) [Reg.MEM_ERR_VALID.off] := by
  have hfail : s.accessFailed w c = s.memErr w c := if_neg (by simp [hc])
  rw [hfail]
  exact ⟨State.firstErr_regsOnly _ _ _ _ .rfl,
    State.firstErr_wordsKept _ _ _ _ .rfl List.mem_cons_self List.mem_cons_self (by simp [Reg.MEM_ERR_VALID, Reg.MEM_ERR_UNIT])⟩

/-- Settles O7: the range check comes before any byte moves, and its refusal is recorded by `State.accessFailed`. -/
theorem refusedAccessHasNoEffect : Obligations.RefusedAccessHasNoEffect := by
  intro s u a c bs hc hhost
  obtain ⟨hregs, hwords⟩ := accessFailed_only s u hhost
  exact ⟨fun hrange => ⟨_, readMem_of_rangeCode hrange hc, hregs, hwords⟩,
    fun hrange => ⟨_, writeMem_of_rangeCode hrange hc, hregs, hwords⟩⟩

/-! ### Reading where no memory holds an error -/

/-- Only registers differ, and of those only the counters that an access moves. -/
structure CountsOnly (s t : State) : Prop where
  regs  : RegsOnly s t
  words : s.WordsKept t countWords

theorem CountsOnly.rfl {s : State} : CountsOnly s s := ⟨.rfl, .rfl⟩

theorem CountsOnly.trans {s t u : State} (h : CountsOnly s t) (g : CountsOnly t u) : CountsOnly s u :=
  ⟨h.regs.trans g.regs, h.words.trans g.words⟩

theorem CountsOnly.ecc {s t : State} (h : CountsOnly s t) : t.ecc = s.ecc := by rw [h.regs]

theorem CountsOnly.cfg {s t : State} (h : CountsOnly s t) : t.cfg = s.cfg := by rw [h.regs]

theorem CountsOnly.place {s t : State} (h : CountsOnly s t) (a : Nat) : t.place a = s.place a := place_congr h.cfg h.words a

theorem CountsOnly.bytes {s t : State} (h : CountsOnly s t) (k n : Nat) : t.bytes k n = s.bytes k n := bytes_congr h.regs.mem k n

theorem linkRx_countsOnly (s : State) (n : Nat) : CountsOnly s (s.linkRx n) :=
  ⟨State.bump_regsOnly _ _ .rfl, State.bump_wordsKept _ _ (by decide) .rfl⟩

theorem pmcAccess_countsOnly (s : State) (u k n : Nat) (wr : Bool) : CountsOnly s (s.pmcAccess u k n wr) :=
  ⟨State.pmcAccess_regsOnly _ _ _ _ .rfl, State.pmcAccess_wordsKept _ _ _ _ _⟩

/-- Error-free memory has no marked block. -/
theorem marks_of_clean {s : State} (h : s.ecc = []) (k n : Nat) : s.marks k n = [] := by
  unfold State.marks
  rw [h]
  rfl

/-- A piece read from error-free memory: the bytes that lie at its place. -/
theorem readPiece_clean {s t : State} {w : Who} {a n : Nat} {bs : List Byte} (hecc : s.ecc = [])
    (h : s.readPiece w a n = (t, 0, bs)) : CountsOnly s t ∧ ∃ k, s.place a = some k ∧ bs = s.bytes k n := by
  unfold State.readPiece at h
  dsimp only at h
  split at h
  · rename_i refused
    exact absurd (congrArg (fun r => r.2.1) h) refused
  · split at h
    · cases h
    · rename_i k hk
      rw [marks_of_clean hecc] at h
      dsimp only [List.find?_nil, List.foldl_nil] at h
      have hrx : CountsOnly s (if hostKey ≤ k then s.linkRx n else s) := by
        split
        · exact linkRx_countsOnly s n
        · exact .rfl
      cases h
      exact ⟨hrx.trans (pmcAccess_countsOnly _ _ _ _ _), k, hk, hrx.bytes k n⟩

/-- The bytes at the places of pieces, one piece after another. -/
def State.bytesAt (s : State) (ps : List (Nat × Nat)) : List Byte :=
  ps.flatMap fun p => match s.place p.1 with
    | some k => s.bytes k p.2
    | none => []

theorem CountsOnly.bytesAt {s t : State} (h : CountsOnly s t) (ps : List (Nat × Nat)) : t.bytesAt ps = s.bytesAt ps := by
  unfold State.bytesAt
  simp only [h.place, h.bytes]

/-- Pieces read from error-free memory. -/
theorem readPieces_clean {w : Who} (ps : List (Nat × Nat)) {s t : State} {bs : List Byte} (hecc : s.ecc = [])
    (h : State.readPieces w ps s = (t, 0, bs)) : CountsOnly s t ∧ bs = s.bytesAt ps := by
  induction ps generalizing s bs with
  | nil =>
    cases h
    exact ⟨.rfl, rfl⟩
  | cons p ps ih =>
    obtain ⟨a, n⟩ := p
    rw [State.readPieces] at h
    rcases hp : s.readPiece w a n with ⟨u, c, first⟩
    rcases hq : State.readPieces w ps u with ⟨v, d, rest⟩
    rw [hp] at h
    dsimp only at h
    split at h
    · rename_i refused
      exact absurd (congrArg (fun r => r.2.1) h) refused
    · rename_i passed
      obtain rfl : c = 0 := not_not.mp passed
      rw [hq] at h
      cases h
      obtain ⟨hu, k, hk, rfl⟩ := readPiece_clean hecc hp
      obtain ⟨hv, rfl⟩ := ih (hu.ecc.trans hecc) hq
      refine ⟨hu.trans hv, ?_⟩
      rw [hu.bytesAt]
      simp only [State.bytesAt, List.flatMap_cons, hk]

/-- A range read from error-free memory. -/
theorem readMem_clean {s t : State} {w : Who} {a n : Nat} {bs : List Byte} (hecc : s.ecc = [])
    (h : s.readMem w a n = (t, 0, bs)) : CountsOnly s t ∧ bs = s.bytesAt (piecesOf a n) := by
  unfold State.readMem at h
  dsimp only at h
  split at h
  · rename_i refused
    exact absurd (congrArg (fun r => r.2.1) h) refused
  · exact readPieces_clean _ hecc h

/-- The pieces of a range of hearth memory hold its bytes, as long as there are pieces enough to reach its end. -/
theorem bytesAt_hearth (s : State) (f a n : Nat) (hf : n = 0 ∨ a % 4096 + n ≤ 4096 * f) (hlo : hearthBase ≤ a)
    (hhi : a + n ≤ hearthBase + 0xC0000000) : s.bytesAt (pieces f a n) = s.bytes a n := by
  induction f generalizing a n with
  | zero =>
    obtain rfl : n = 0 := by omega
    rfl
  | succ f ih =>
    rw [pieces]
    split
    · rename_i empty
      subst empty
      rfl
    · dsimp only
      have hm : Nat.min n (4096 - a % 4096) = min n (4096 - a % 4096) := rfl
      generalize hsplit : Nat.min n (4096 - a % 4096) = m
      rw [hsplit] at hm
      have hplace : s.place a = some a := place_hearth s hlo (by omega)
      have hrest := ih (a + m) (n - m) (by omega) (by omega) (by omega)
      unfold State.bytesAt at hrest ⊢
      rw [List.flatMap_cons, hrest, hplace, ← bytes_append, Nat.add_sub_cancel' (by omega)]

/-- A range read from error-free hearth memory. -/
theorem readMem_hearth {s t : State} {w : Who} {a n : Nat} {bs : List Byte} (hecc : s.ecc = []) (hlo : hearthBase ≤ a)
    (hhi : a + n ≤ hearthBase + 0xC0000000) (h : s.readMem w a n = (t, 0, bs)) : CountsOnly s t ∧ bs = s.bytes a n := by
  obtain ⟨hcounts, hbytes⟩ := readMem_clean hecc h
  exact ⟨hcounts, hbytes.trans (bytesAt_hearth s _ a n (.inr (piecesOf_fuel _ _)) hlo hhi)⟩

/-- A range of a hearth's memory lies between the bounds of R322. -/
theorem hearthAddr_range {h off n : Nat} (hh : h < 384) (hoff : off + n ≤ hearthBytes) :
    hearthBase ≤ hearthAddr h + off ∧ hearthAddr h + off + n ≤ hearthBase + 0xC0000000 := by
  unfold hearthBytes at hoff
  unfold hearthAddr
  omega

/-- Settles O8: `writeMem_hearth` and `readMem_hearth` at the addresses of one hearth. -/
theorem hearthMemoryReadsBack : Obligations.HearthMemoryReadsBack := by
  refine ⟨fun s t u h off bs hh hoff hwrite => ?write, fun s t u h off n bs hh hoff hecc hread => ?read⟩
  case write =>
    obtain ⟨hlo, hhi⟩ := hearthAddr_range hh hoff
    exact writeMem_hearth hlo hhi hwrite
  case read =>
    obtain ⟨hlo, hhi⟩ := hearthAddr_range hh hoff
    obtain ⟨hcounts, hbytes⟩ := readMem_hearth hecc hlo hhi hread
    exact ⟨hbytes, hcounts.regs, hcounts.words⟩

end Sys2Proof.Machine

/-! # Lane instructions (05_vector_engine_functions.md, R180 to R190, R443, R618) -/

namespace Sys2Proof.Machine

/-! ### binary32 -/

/-- An F-opcode over its source registers, lane by lane under flush-to-zero. -/
theorem vecF_result (h : Nat) {w : BitVec 128} (s : State) {r : Rnd} (srcs : List Nat) (op : Rnd → Nat → List Nat → Conv)
    (hc : vCheck w (bothBf32 w) (some .bf32) = .ok r) (ho : opcodeOf w ≠ 0x69) :
    LaneResult h w (s.issued h) (vecF h w s srcs op)
      (laneOut w fun i => withFtz (s.ftz h) (op r (s.vecRandom w r i)) (srcs.map fun x => s.lane h x i)) :=
  vecMap_result h w s _ hc (vCheck_len hc ho) fun _ => rfl

/-- Settles O10: each row is one `vecF`. -/
theorem floatLanes : Obligations.FloatLanes := by
  intro h w s r hr hc
  refine ⟨fun ho => ?fadd, fun ho => ?fsub, fun ho => ?fmul, fun ho => ?ffma, fun ho => ?fdiv, fun ho => ?fsqrt⟩
  case fadd => exact runWord_laneResult (f := doFadd) ho hr (vecF_result h s _ _ hc (by omega))
  case fsub => exact runWord_laneResult (f := doFsub) ho hr (vecF_result h s _ _ hc (by omega))
  case fmul => exact runWord_laneResult (f := doFmul) ho hr (vecF_result h s _ _ hc (by omega))
  case ffma => exact runWord_laneResult (f := doFfma) ho hr (vecF_result h s _ _ hc (by omega))
  case fdiv => exact runWord_laneResult (f := doFdiv) ho hr (vecF_result h s _ _ hc (by omega))
  case fsqrt => exact runWord_laneResult (f := doFsqrt) ho hr (vecF_result h s _ _ hc (by omega))

/-! ### Comparison and selection -/

theorem vCheck_of_fcmpCheck {w : BitVec 128} {r : Rnd} (h : fcmpCheck w = .ok r) :
    vCheck w (laneOf (vFmt w) = some none && vFmt2 w = 4) none = .ok r := ok_of_bind_failIf h

/-- FCMP gives its predicate's integer, with the flags of its inputs' flushes. -/
theorem doFcmp_result (h : Nat) {w : BitVec 128} (s : State) {r : Rnd} (hc : fcmpCheck w = .ok r) (ho : opcodeOf w ≠ 0x69) :
    LaneResult h w (s.issued h) (doFcmp h w s) (laneOut w fun i =>
      let a := ftzIn (s.ftz h) (s.lane h (vA w) i)
      let b := ftzIn (s.ftz h) (s.lane h (vB w) i)
      { fcmp32 (vParam w) a.1 b.1 with fl := (fcmp32 (vParam w) a.1 b.1).fl ||| a.2 ||| b.2 }) :=
  vecMap_result h w s _ hc (vCheck_len (vCheck_of_fcmpCheck hc) ho) fun _ => rfl

/-- SEL takes SRCB where SRCC is zero and SRCA elsewhere. -/
theorem doSel_result (h : Nat) {w : BitVec 128} (s : State) {r : Rnd} (ho : opcodeOf w ≠ 0x69)
    (hc : vCheck w ((laneOf (vFmt w)).isSome && laneOf (vFmt w) = laneOf (vFmt2 w)) none = .ok r) :
    LaneResult h w (s.issued h) (doSel h w s) (laneOut w fun i =>
      ⟨if s.lane h (vC w) i = 0 then s.lane h (vB w) i else s.lane h (vA w) i, 0, 0⟩) := by
  refine vecMap_result h w s _ hc (vCheck_len hc ho) fun i => ?_
  by_cases hz : s.lane h (vC w) i = 0 <;> simp [hz]

/-- Settles O11: FMIN and FMAX are `vecF`, FCMP and SEL have results of their own. -/
theorem minMaxCompareSelect : Obligations.MinMaxCompareSelect := by
  intro h w s r hr
  refine ⟨fun ho hc => ?fmin, fun ho hc => ?fmax, fun ho hc => ?fcmp, fun ho hc => ?sel⟩
  case fmin => exact runWord_laneResult (f := doFmin) ho hr (vecF_result h s _ _ hc (by omega))
  case fmax => exact runWord_laneResult (f := doFmax) ho hr (vecF_result h s _ _ hc (by omega))
  case fcmp => exact runWord_laneResult ho hr (doFcmp_result h s hc (by omega))
  case sel => exact runWord_laneResult ho hr (doSel_result h s (by omega) hc)

/-! ### Grendy arithmetic -/

/-- A G-opcode over lanes of format g with results in format f. -/
theorem vecG_result (h : Nat) {w : BitVec 128} (s : State) {r : Rnd} {f g : Fmt} (op : Num → Num → Num)
    (hf : glLane (vFmt w) = some f) (hg : glLane (vFmt2 w) = some g) (hc : vCheck w true (some f) = .ok r)
    (ho : opcodeOf w ≠ 0x69) :
    LaneResult h w (s.issued h) (vecG h w s op) (laneOut w fun i =>
      glResult f r (s.vecRandom w r i) (op (g.num [] (s.lane h (vA w) i)) (g.num [] (s.lane h (vB w) i)))) := by
  have hcheck : vCheck w ((glLane (vFmt w)).isSome && (glLane (vFmt2 w)).isSome) (glLane (vFmt w)) = .ok r := by
    rw [hf, hg]
    exact hc
  refine vecMap_result h w s _ hcheck (vCheck_len hc ho) fun i => ?_
  rw [hf, hg]
  rfl

/-- Settles O12: each row is one `vecG`. -/
theorem grendyLanes : Obligations.GrendyLanes := by
  intro h w s r f g hr hf hg hc
  refine ⟨fun ho => ?gmul, fun ho => ?gadd, fun ho => ?gsub⟩
  case gmul => exact runWord_laneResult (f := doGmul) ho hr (vecG_result h s _ hf hg hc (by omega))
  case gadd => exact runWord_laneResult (f := doGadd) ho hr (vecG_result h s _ hf hg hc (by omega))
  case gsub => exact runWord_laneResult (f := doGsub) ho hr (vecG_result h s _ hf hg hc (by omega))

/-! ### Conversion and random draws -/

/-- CVT's check says that its formats are lane formats and that FUNC is zero. -/
theorem cvtCheck_ok {w : BitVec 128} {r : Rnd} (h : cvtCheck w = .ok r) :
    vCheck w ((laneOf (vFmt w)).isSome && (laneOf (vFmt2 w)).isSome) ((laneOf (vFmt w)).getD none) = .ok r ∧ vFunc w = 0 := by
  unfold cvtCheck at h
  obtain ⟨x, hx, h⟩ := checked_bind h
  obtain ⟨_, hfunc, h⟩ := checked_bind h
  cases h
  exact ⟨hx, by simpa using failIf_ok hfunc⟩

/-- CVT converts each lane of SRCA. -/
theorem doCvt_result (h : Nat) {w : BitVec 128} (s : State) {r : Rnd} {f g : LaneFmt} (hf : laneOf (vFmt w) = some f)
    (hg : laneOf (vFmt2 w) = some g) (hc : cvtCheck w = .ok r) (ho : opcodeOf w ≠ 0x69) :
    LaneResult h w (s.issued h) (doCvt h w s) (laneOut w fun i =>
      vconvert (s.ftz h) (s.vecCtx w r [] i) [] g f (s.lane h (vA w) i)) := by
  refine vecMap_result h w s _ hc (vCheck_len (cvtCheck_ok hc).1 ho) fun i => ?_
  rw [hf, hg]
  rfl

/-- VSPLAT converts PARAM, a GL16 code, into every lane. -/
theorem doVsplat_result (h : Nat) {w : BitVec 128} (s : State) {r : Rnd} {f : LaneFmt} (hf : laneOf (vFmt w) = some f)
    (hz : vFmt2 w = 0) (hc : vCheck w true f = .ok r) (ho : opcodeOf w ≠ 0x69) :
    LaneResult h w (s.issued h) (doVsplat h w s) (laneOut w fun i =>
      vconvert (s.ftz h) (s.vecCtx w r [] i) [] (some .gl16) f (vParam w)) := by
  have hcheck : vCheck w ((laneOf (vFmt w)).isSome && decide (vFmt2 w = 0)) ((laneOf (vFmt w)).getD none) = .ok r := by
    rw [hf, hz]
    exact hc
  refine vecMap_result h w s _ hcheck (vCheck_len hc ho) fun i => ?_
  rw [hf]
  rfl

/-- DRAW keeps a lane in an evaluation, and where its stream word reaches PARAM × 2¹⁶. -/
theorem doDraw_result (h : Nat) {w : BitVec 128} (s : State) {r : Rnd} (hc : vCheck w (bothInt w) none = .ok r)
    (ho : opcodeOf w ≠ 0x69) :
    LaneResult h w (s.issued h) (doDraw h w s) (laneOut w fun i =>
      ⟨if s.evaluating = true ∨ vParam w * 2 ^ 16 ≤ s.drawWord h w classDropout i then 1 else 0, 0, 0⟩) := by
  refine vecMap_result h w s _ hc (vCheck_len hc ho) fun i => ?_
  cases s.evaluating
  · simp only [Bool.false_eq_true, if_false, false_or]
    rcases Nat.lt_or_ge (s.drawWord h w classDropout i) (vParam w * 2 ^ 16) with below | reaches
    · rw [if_pos below, if_neg (Nat.not_le.mpr below)]
    · rw [if_neg (Nat.not_lt.mpr reaches), if_pos reaches]
  · simp

/-- RAND gives the stream word. -/
theorem doRand_result (h : Nat) {w : BitVec 128} (s : State) {r : Rnd} (hc : vCheck w (bothInt w) none = .ok r)
    (ho : opcodeOf w ≠ 0x69) :
    LaneResult h w (s.issued h) (doRand h w s) (laneOut w fun i => ⟨s.drawWord h w classUser i, 0, 0⟩) :=
  vecMap_result h w s _ hc (vCheck_len hc ho) fun _ => rfl

/-- CVT runs unless FUNC names DRAW or RAND, which share its opcode (R443). -/
theorem exec_cvt {h : Fin 384} {w : BitVec 128} {s : State} (hfunc : vFunc w = 0) :
    exec (.cvt h w) s = runWord 0x5E doCvt h w s := if_neg (by omega)

theorem exec_draw {h : Fin 384} {w : BitVec 128} {s : State} (hfunc : vFunc w = 1) :
    exec (.draw h w) s = runWord 0x5E doDraw h w s := if_pos hfunc

theorem exec_rand {h : Fin 384} {w : BitVec 128} {s : State} (hfunc : vFunc w = 2) :
    exec (.rand h w) s = runWord 0x5E doRand h w s := if_pos hfunc

/-- Settles O13: the results of the four instructions, FUNC telling CVT, DRAW and RAND apart. -/
theorem convertedAndRandomLanes : Obligations.ConvertedAndRandomLanes := by
  refine ⟨fun h w s r f hr hf => ⟨fun g ho hg hc => ?cvt, fun ho hz hc => ?vsplat⟩,
    fun h w s r hr ho hc => ⟨fun hfunc => ?draw, fun hfunc => ?rand⟩⟩
  case cvt =>
    rw [exec_cvt (cvtCheck_ok hc).2]
    exact runWord_laneResult ho hr (doCvt_result h s hf hg hc (by omega))
  case vsplat => exact runWord_laneResult ho hr (doVsplat_result h s hf hz hc (by omega))
  case draw =>
    rw [exec_draw hfunc]
    exact runWord_laneResult ho hr (doDraw_result h s hc (by omega))
  case rand =>
    rw [exec_rand hfunc]
    exact runWord_laneResult ho hr (doRand_result h s hc (by omega))

end Sys2Proof.Machine

/-! # Functions, loads and stores of the vector engine (05_vector_engine_functions.md, R180 to R200) -/

namespace Sys2Proof.Machine

/-! ### FN and FNM -/

theorem vCheck_of_fnCheck {w : BitVec 128} {r : Rnd} (h : fnCheck w = .ok r) :
    vCheck w (vFmt w = vFmt2 w && (vFmt w = 0 || vFmt w = 1 || vFmt w = 2 || vFmt w = 4)) ((laneOf (vFmt w)).getD none) = .ok r :=
  ok_of_bind_failIf h

/-- FN applies its function in the Grendy format of FMT, or in binary32. -/
theorem doFn_result (h : Nat) {w : BitVec 128} (s : State) {r : Rnd} (hc : fnCheck w = .ok r) (ho : opcodeOf w ≠ 0x69) :
    LaneResult h w (s.issued h) (doFn h w s) (laneOut w fun i =>
      match glLane (vFmt w) with
      | some f => glFn (vFunc w) f r (s.vecRandom w r i) (s.lane h (vA w) i)
      | none => withFtz (s.ftz h) (fun l => bin32Fn (vFunc w) r (s.vecRandom w r i) (arg l 0)) [s.lane h (vA w) i]) :=
  vecMap_result h w s _ hc (vCheck_len (vCheck_of_fnCheck hc) ho) fun _ => rfl

/-- FNM's check is the vector check, a slot of the store and a program that stands in it. -/
theorem fnmCheck_len {s : State} {h : Nat} {w : BitVec 128} {r : Rnd} {p : MicroProg} (hc : s.fnmCheck h w = .ok (r, p))
    (ho : opcodeOf w ≠ 0x69) : vLen w ≤ 1024 := by
  unfold State.fnmCheck at hc
  obtain ⟨x, hx, -⟩ := checked_bind hc
  exact vCheck_len hx ho

/-- A lane list of at most 1,024 results, put into DST. -/
theorem vecDone_laneOut (s : State) (h : Nat) (w : BitVec 128) (f : Nat → Conv) (hl : vLen w ≤ 1024) :
    LaneResult h w s (s.vecDone h w (laneOut w f)) (laneOut w f) :=
  vecDone_result s h w _ (by simp [laneOut, VOut.ofConvs, hl])

/-- Settles O14: FN is one `vecMap`; FNM completes as every vector instruction does and then counts its steps and waits. -/
theorem functionLanes : Obligations.FunctionLanes := by
  intro h w s r hr
  refine ⟨fun ho hc => ?fn, fun p ho hc => ?fnm⟩
  case fn => exact runWord_laneResult ho hr (doFn_result h s hc (by omega))
  case fnm =>
    refine ⟨doFnm h w s, _, runWord_next ho hr, vecDone_laneOut (s.issued h) h w _ (fnmCheck_len hc (by omega)), ?_⟩
    unfold doFnm
    dsimp only
    rw [show (s.issue h).1.fnmCheck h w = .ok (r, p) from hc]
    rfl

/-! ### Loads -/

/-- Results made from a list of values are results lane by lane. -/
theorem ofConvs_zipIdx {α : Type} (w : BitVec 128) (vs : List α) (d : α) (f : α → Nat → Conv) (hl : vs.length = vLen w) :
    VOut.ofConvs (vs.zipIdx.map fun p => f p.1 p.2) = laneOut w fun i => f (vs.getD i d) i := by
  unfold laneOut
  congr 1
  refine List.ext_getElem (by simp [hl]) fun i hi _ => ?_
  have hi' : i < vs.length := by simpa using hi
  simp [List.getD_eq_getElem?_getD, List.getElem?_eq_getElem hi']

/-- Each element read gives one code. -/
theorem readElems_length {h tag base : Nat} {f : Fmt} (is : List Nat) {s u : State} {cs : List Nat}
    (hread : s.readElems h tag base f is = (u, .ok cs)) : cs.length = is.length := by
  induction is generalizing s cs with
  | nil =>
    cases hread
    rfl
  | cons i is ih =>
    rw [State.readElems] at hread
    rcases hfirst : s.hRead h tag (elemByte base f.bits i) (Nat.max 1 (f.bits / 8)) with ⟨t, c, bs⟩
    rw [hfirst] at hread
    dsimp only at hread
    split at hread
    · cases hread
    · rcases hrest : t.readElems h tag base f is with ⟨v, e | rest⟩
      · rw [hrest] at hread
        cases hread
      · rw [hrest] at hread
        cases hread
        rw [List.length_cons, List.length_cons, ih hrest]

/-- What a chain of checked accesses answers when it succeeds. -/
theorem andChecked_ok {α β : Type} {r : State × Except Nat α} {f : State → α → State × Except Nat β} {u : State} {y : β}
    (h : andChecked r f = (u, .ok y)) : ∃ s x, r = (s, .ok x) ∧ f s x = (u, .ok y) := by
  obtain ⟨s, e | x⟩ := r
  · cases h
  · exact ⟨s, x, rfl, h⟩

/-- A scaled load gives the 32 values of each block. -/
theorem readScaled_length {h tag base sa : Nat} {f : Fmt} {book : List Byte} (n : Nat) {k : Nat} {s u : State} {vs : List Num}
    (hread : s.readScaled h tag base sa f book k n = (u, .ok vs)) : vs.length = 32 * n := by
  induction n generalizing s k vs with
  | zero =>
    cases hread
    rfl
  | succ n ih =>
    obtain ⟨t, r, -, hthen⟩ := andChecked_ok hread
    obtain ⟨v, rest, hrest, hlast⟩ := andChecked_ok hthen
    cases hlast
    rw [List.length_append, ih hrest]
    simp only [List.length_map, List.length_range]
    omega

theorem vldCheck_len {s : State} {h : Nat} {w : BitVec 128} {x : Rnd × LaneFmt × Fmt} (hc : s.vldCheck h w = .ok x)
    (ho : opcodeOf w ≠ 0x69) : vLen w ≤ 1024 := by
  unfold State.vldCheck at hc
  obtain ⟨r, hr, -⟩ := checked_bind hc
  exact vCheck_len hr ho

/-- VGATH's check: the indices are the lanes of SRCB. -/
theorem indices_ok {s : State} {h : Nat} {w : BitVec 128} {f : Fmt} {is : List Nat} (hc : s.indices h w f = .ok is) :
    is = (List.range (vLen w)).map (fun i => s.lane h (vB w) i) ∧ (∀ i ∈ is, i < arrayLen w) ∧
      elemsFit (vAddr w) f.bits (arrayLen w - 1) = true := by
  unfold State.indices at hc
  obtain ⟨_, hin, hc⟩ := checked_bind hc
  cases hc
  have hbad := failIf_ok hin
  simp only [Bool.or_eq_false_iff, List.any_eq_false, decide_eq_true_eq, Nat.not_le, Bool.not_eq_false'] at hbad
  exact ⟨rfl, hbad.1, hbad.2⟩

theorem vgathCheck_ok {s : State} {h : Nat} {w : BitVec 128} {r : Rnd} {l : LaneFmt} {f : Fmt} {is : List Nat}
    (hc : s.vgathCheck h w = .ok (r, l, f, is)) (ho : opcodeOf w ≠ 0x69) :
    vLen w ≤ 1024 ∧ s.indices h w f = .ok is := by
  unfold State.vgathCheck at hc
  obtain ⟨r', hr, hc⟩ := checked_bind hc
  refine ⟨vCheck_len hr ho, ?_⟩
  cases hl : laneOf (vFmt w) with
  | none => simp only [hl] at hc; cases hc
  | some l' =>
    cases hf : Fmt.ofCode (vFmt2 w) with
    | none => simp only [hl, hf] at hc; cases hc
    | some f' =>
      simp only [hl, hf] at hc
      obtain ⟨js, hjs, hc⟩ := checked_bind hc
      cases hc
      exact hjs

/-- Enough blocks hold VL elements. -/
theorem vLen_le_blocks (w : BitVec 128) : vLen w ≤ 32 * vBlocks w := by
  unfold vBlocks
  omega

/-- An instruction of hearth h works in the state in which it has issued. -/
theorem issue_fst (s : State) (h : Nat) : (s.issue h).1 = s.issued h := rfl

/-- VLD of elements without scales, once its check and its reads succeed. -/
theorem doVld_of_readElems {s u : State} {h : Nat} {w : BitVec 128} {r : Rnd} {l : LaneFmt} {f : Fmt} {cs : List Nat}
    (hc : (s.issued h).vldCheck h w = .ok (r, l, f)) (hf : f.alwaysScaled = false)
    (hread : (s.issued h).readElems h (tagOf w) (vAddr w) f (vIndices w) = (u, .ok cs)) :
    doVld h w s = u.vecDone h w (.ofConvs (cs.zipIdx.map fun p => vcvt (u.ftz h) (u.vecCtx w r [] p.2) [] (some f) l p.1)) := by
  unfold doVld
  simp only [issue_fst, hc, hf, hread, Bool.false_eq_true, if_false]

/-- VLD of scaled blocks, once its check and its reads succeed. -/
theorem doVld_of_readScaled {s u : State} {h : Nat} {w : BitVec 128} {r : Rnd} {l : LaneFmt} {f : Fmt} {vs : List Num}
    (hc : (s.issued h).vldCheck h w = .ok (r, l, f)) (hf : f.alwaysScaled = true)
    (hread : (s.issued h).readScaled h (tagOf w) (vAddr w) (vScaleAddr w f) f ((s.issued h).vBook h w f) 0 (vBlocks w) =
      (u, .ok vs)) :
    doVld h w s = u.vecDone h w
      (.ofConvs ((vs.take (vLen w)).zipIdx.map fun p => toLane (u.ftz h) (u.vecCtx w r [] p.2) l p.1)) := by
  unfold doVld
  simp only [issue_fst, hc, hf, hread, if_true]

/-- VGATH, once its check and its reads succeed. -/
theorem doVgath_of_readElems {s u : State} {h : Nat} {w : BitVec 128} {r : Rnd} {l : LaneFmt} {f : Fmt} {is cs : List Nat}
    (hc : (s.issued h).vgathCheck h w = .ok (r, l, f, is))
    (hread : (s.issued h).readElems h (tagOf w) (vAddr w) f is = (u, .ok cs)) :
    doVgath h w s = u.vecDone h w (.ofConvs (cs.zipIdx.map fun p => vcvt (u.ftz h) (u.vecCtx w r [] p.2) [] (some f) l p.1)) := by
  unfold doVgath
  simp only [issue_fst, hc, hread]

/-- The first VL values of a list that holds them, lane by lane. -/
theorem laneOut_take {α : Type} (w : BitVec 128) (vs : List α) (d : α) (f : α → Nat → Conv) :
    (laneOut w fun i => f ((vs.take (vLen w)).getD i d) i) = laneOut w fun i => f (vs.getD i d) i := by
  unfold laneOut
  congr 1
  refine List.map_congr_left fun i hi => ?_
  rw [List.getD_eq_getElem?_getD, List.getElem?_take_of_lt (List.mem_range.mp hi), ← List.getD_eq_getElem?_getD]

/-- Settles O15: each load is done when its check and its reads succeed; what it read has one value for each lane, so that its
results are lane results. -/
theorem loadedLanes : Obligations.LoadedLanes := by
  intro h w s u r l f hr
  refine ⟨fun cs ho hc hf hread => ?plain, fun vs ho hc hf hread => ?scaled, fun is cs ho hc hread => ?gather⟩
  case plain =>
    have hlen : cs.length = vLen w := by rw [readElems_length _ hread]; simp [vIndices]
    refine ⟨hlen, doVld h w s, runWord_next ho hr, ?_⟩
    rw [doVld_of_readElems hc hf hread, ofConvs_zipIdx w cs 0 (fun c i => vcvt (u.ftz h) (u.vecCtx w r [] i) [] (some f) l c) hlen]
    exact vecDone_laneOut u h w _ (vldCheck_len hc (by omega))
  case scaled =>
    have hlen : vLen w ≤ vs.length := by rw [readScaled_length _ hread]; exact vLen_le_blocks w
    refine ⟨hlen, doVld h w s, runWord_next ho hr, ?_⟩
    rw [doVld_of_readScaled hc hf hread,
      ofConvs_zipIdx w _ .zero (fun x i => toLane (u.ftz h) (u.vecCtx w r [] i) l x) (by simp [hlen]),
      laneOut_take w vs .zero (fun x i => toLane (u.ftz h) (u.vecCtx w r [] i) l x)]
    exact vecDone_laneOut u h w _ (vldCheck_len hc (by omega))
  case gather =>
    obtain ⟨hle, hindices⟩ := vgathCheck_ok hc (by omega)
    obtain ⟨his, -, -⟩ := indices_ok hindices
    have hlen : cs.length = vLen w := by rw [readElems_length _ hread, his]; simp
    refine ⟨his, hlen, doVgath h w s, runWord_next ho hr, ?_⟩
    rw [doVgath_of_readElems hc hread, ofConvs_zipIdx w cs 0 (fun c i => vcvt (u.ftz h) (u.vecCtx w r [] i) [] (some f) l c) hlen]
    exact vecDone_laneOut u h w _ hle

end Sys2Proof.Machine

/-! # Writes where no memory holds an error (09_memory_tiers.md, R322, R327) -/

namespace Sys2Proof.Machine

/-! ### Bytes and counters -/

/-- Only bytes of memory and the counters that an access moves differ. -/
structure StoresOnly (s t : State) : Prop where
  rest  : t = { s with mem := t.mem, regs := t.regs }
  words : s.WordsKept t countWords

theorem CountsOnly.stores {s t : State} (h : CountsOnly s t) : StoresOnly s t :=
  ⟨by rw [h.regs], h.words⟩

theorem StoresOnly.rfl {s : State} : StoresOnly s s := CountsOnly.rfl.stores

theorem StoresOnly.trans {s t u : State} (h : StoresOnly s t) (g : StoresOnly t u) : StoresOnly s u :=
  ⟨by rw [g.rest, h.rest], h.words.trans g.words⟩

theorem StoresOnly.ecc {s t : State} (h : StoresOnly s t) : t.ecc = s.ecc := by rw [h.rest]

theorem StoresOnly.hearths {s t : State} (h : StoresOnly s t) : t.hearths = s.hearths := by rw [h.rest]

theorem StoresOnly.embers {s t : State} (h : StoresOnly s t) : t.embers = s.embers := by rw [h.rest]

theorem StoresOnly.cfg {s t : State} (h : StoresOnly s t) : t.cfg = s.cfg := by rw [h.rest]

theorem setBytes_storesOnly (s : State) (k : Nat) (bs : List Byte) : StoresOnly s (s.setBytes k bs) := by
  induction bs generalizing s k with
  | nil => exact .rfl
  | cons b bs ih =>
    have hbyte : StoresOnly s (s.setByte k b) := ⟨Eq.refl _, fun _ _ _ => Eq.refl _⟩
    exact hbyte.trans (ih (s.setByte k b) (k + 1))

/-- Error-free memory has no error to clear. -/
theorem filter_ecc_of_clean {s : State} (hecc : s.ecc = []) (p : Nat × EccMark → Bool) : { s with ecc := s.ecc.filter p } = s := by
  cases s
  subst hecc
  rfl

/-- A piece written to error-free memory changes bytes and counters. -/
theorem writePiece_clean {s t : State} {w : Who} {a : Nat} {bs : List Byte} (hecc : s.ecc = [])
    (h : s.writePiece w a bs = (t, 0)) : StoresOnly s t := by
  unfold State.writePiece at h
  dsimp only at h
  split at h
  · rename_i refused
    exact absurd (congrArg Prod.snd h) refused
  · split at h
    · cases h
    · rename_i k hk
      rw [marks_of_clean hecc] at h
      dsimp only [List.find?_nil] at h
      rw [filter_ecc_of_clean hecc] at h
      have hstore : StoresOnly s (if hostKey ≤ k then (s.setBytes k bs).linkTx bs.length else s.setBytes k bs) := by
        split
        · exact (setBytes_storesOnly s k bs).trans
            ⟨Eq.refl _, State.bump_wordsKept _ _ (by decide) .rfl⟩
        · exact setBytes_storesOnly s k bs
      cases h
      exact hstore.trans (pmcAccess_countsOnly _ _ _ _ _).stores

/-- Pieces written to error-free memory change bytes and counters. -/
theorem writePieces_clean {w : Who} (ps : List (Nat × Nat)) {bs : List Byte} {s t : State} (hecc : s.ecc = [])
    (h : State.writePieces w ps bs s = (t, 0)) : StoresOnly s t := by
  induction ps generalizing s bs with
  | nil =>
    cases h
    exact .rfl
  | cons p ps ih =>
    rw [State.writePieces] at h
    rcases hp : s.writePiece w p.1 (bs.take p.2) with ⟨u, c⟩
    rw [hp] at h
    dsimp only at h
    split at h
    · rename_i refused
      exact absurd (congrArg Prod.snd h) refused
    · rename_i passed
      obtain rfl : c = 0 := not_not.mp passed
      have hu := writePiece_clean hecc hp
      exact hu.trans (ih (hu.ecc.trans hecc) h)

/-! ### A write that begins among the hearth memories ends there -/

/-- Between the hearth memories and the host window no memory lies (R322). -/
theorem place_beyond_hearths (s : State) {a : Nat} (hlo : hearthBase + 0xC0000000 ≤ a) (hhi : a < windowBase) : s.place a = none := by
  have hpeat : s.get Reg.PEAT_SIZE_BYTES < 2 ^ 45 := bits_lt _ _ _
  refine (place_eq_none_iff s a ?_).mpr (.inr (.inr (.inl ⟨hlo, hhi⟩)))
  unfold peatBase hearthBase
  omega

/-- Pieces that were all written from an address of the hearth memories on lie within them. -/
theorem writePieces_fit {w : Who} (f a n : Nat) {bs : List Byte} {s t : State} (hf : n = 0 ∨ a % 4096 + n ≤ 4096 * f)
    (hlo : hearthBase ≤ a) (hhi : a < windowBase) (h : State.writePieces w (pieces f a n) bs s = (t, 0)) :
    n = 0 ∨ a + n ≤ hearthBase + 0xC0000000 := by
  induction f generalizing a n bs s with
  | zero => omega
  | succ f ih =>
    rw [pieces] at h
    split at h
    · rename_i empty
      exact .inl empty
    · dsimp only at h
      have hm : Nat.min n (4096 - a % 4096) = min n (4096 - a % 4096) := rfl
      generalize hsplit : Nat.min n (4096 - a % 4096) = m at h
      rw [hsplit] at hm
      rw [State.writePieces] at h
      rcases hp : s.writePiece w a (bs.take m) with ⟨u, c⟩
      rw [hp] at h
      dsimp only at h
      split at h
      · rename_i refused
        exact absurd (congrArg Prod.snd h) refused
      · rename_i passed
        obtain rfl : c = 0 := not_not.mp passed
        obtain ⟨k, hk, -⟩ := writePiece_ok hp
        have hin : a < hearthBase + 0xC0000000 := by
          by_contra hout
          rw [place_beyond_hearths s (not_lt.mp hout) hhi] at hk
          cases hk
        have hend : a + m ≤ hearthBase + 0xC0000000 := by
          unfold hearthBase at hin ⊢
          omega
        have hrest := ih (a + m) (n - m) (by omega) (by omega) (by unfold hearthBase windowBase at *; omega) h
        omega

/-! ### Writes at offsets of a hearth's memory -/

/-- The device address of a small offset of a hearth's memory lies below the host window. -/
theorem hearthAddr_below {h off : Nat} (hh : h < 384) (hoff : off < 2 ^ 40) :
    hearthBase ≤ hearthAddr h + off ∧ hearthAddr h + off < windowBase := by
  unfold hearthAddr hearthBase windowBase
  omega

/-- A write into a hearth's memory that succeeds, whoever makes it, stores its bytes there and no others. -/
theorem writeMem_stored {s t : State} {w : Who} {h off : Nat} {bs : List Byte} (hh : h < 384) (hoff : off < 2 ^ 40)
    (hw : s.writeMem w (hearthAddr h + off) bs = (t, 0)) : t.bytes (hearthAddr h + off) bs.length = bs ∧
      ∀ x, x < hearthAddr h + off ∨ hearthAddr h + off + bs.length ≤ x → t.byte x = s.byte x := by
  obtain ⟨hlo, hhi⟩ := hearthAddr_below hh hoff
  unfold State.writeMem at hw
  dsimp only at hw
  split at hw
  · rename_i refused
    exact absurd (congrArg Prod.snd hw) refused
  · have hfuel : bs.length = 0 ∨ _ := .inr (piecesOf_fuel (hearthAddr h + off) bs.length)
    rcases writePieces_fit _ _ _ hfuel hlo hhi hw with hnone | hfit
    · obtain rfl := List.length_eq_zero_iff.mp hnone
      cases hw
      exact ⟨rfl, fun _ _ => rfl⟩
    · exact writePieces_hearth _ _ _ _ _ _ _ rfl hfuel hlo hfit hw

theorem hWrite_stored {s t : State} {h tag off : Nat} {bs : List Byte} (hh : h < 384) (hoff : off < 2 ^ 40)
    (hw : s.hWrite h tag off bs = (t, 0)) : t.bytes (hearthAddr h + off) bs.length = bs ∧
      ∀ x, x < hearthAddr h + off ∨ hearthAddr h + off + bs.length ≤ x → t.byte x = s.byte x :=
  writeMem_stored hh hoff hw

/-- A write to error-free memory that succeeds changes bytes and counters alone. -/
theorem writeMem_clean {s t : State} {w : Who} {a : Nat} {bs : List Byte} (hecc : s.ecc = [])
    (hw : s.writeMem w a bs = (t, 0)) : StoresOnly s t := by
  unfold State.writeMem at hw
  dsimp only at hw
  split at hw
  · rename_i refused
    exact absurd (congrArg Prod.snd hw) refused
  · exact writePieces_clean _ hecc hw

theorem hWrite_clean {s t : State} {h tag off : Nat} {bs : List Byte} (hecc : s.ecc = [])
    (hw : s.hWrite h tag off bs = (t, 0)) : StoresOnly s t := writeMem_clean hecc hw

/-- A read of a hearth's error-free memory that succeeds changes counters alone. -/
theorem hRead_clean {s t : State} {h tag off n : Nat} {bs : List Byte} (hecc : s.ecc = [])
    (hr : s.hRead h tag off n = (t, 0, bs)) : CountsOnly s t :=
  (readMem_clean hecc hr).1

/-- Writes one after another, all of which succeed. -/
theorem hWrites_cons {s u : State} {h tag off : Nat} {bs : List Byte} {ws : List (Nat × List Byte)}
    (hw : s.hWrites h tag ((off, bs) :: ws) = (u, 0)) :
    ∃ t, s.hWrite h tag off bs = (t, 0) ∧ t.hWrites h tag ws = (u, 0) := by
  rw [State.hWrites] at hw
  rcases hp : s.hWrite h tag off bs with ⟨t, c⟩
  rw [hp] at hw
  dsimp only at hw
  split at hw
  · rename_i refused
    exact absurd (congrArg Prod.snd hw) refused
  · rename_i passed
    obtain rfl : c = 0 := not_not.mp passed
    exact ⟨t, rfl, hw⟩

/-- Writes into a hearth's error-free memory touch only the bytes that they name. -/
theorem hWrites_clean {h tag : Nat} (hh : h < 384) (ws : List (Nat × List Byte)) {s t : State} (hecc : s.ecc = [])
    (hoff : ∀ q ∈ ws, q.1 < 2 ^ 40) (hw : s.hWrites h tag ws = (t, 0)) : StoresOnly s t ∧
      ∀ x, (∀ q ∈ ws, x < hearthAddr h + q.1 ∨ hearthAddr h + q.1 + q.2.length ≤ x) → t.byte x = s.byte x := by
  induction ws generalizing s with
  | nil =>
    cases hw
    exact ⟨.rfl, fun _ _ => rfl⟩
  | cons q ws ih =>
    obtain ⟨off, bs⟩ := q
    obtain ⟨u, hfirst, hrest⟩ := hWrites_cons hw
    have hu := hWrite_clean hecc hfirst
    have hframe := (hWrite_stored hh (hoff _ List.mem_cons_self) hfirst).2
    obtain ⟨ht, hrestFrame⟩ := ih (hu.ecc.trans hecc) (fun q hq => hoff q (List.mem_cons_of_mem _ hq)) hrest
    refine ⟨hu.trans ht, fun x hx => ?_⟩
    rw [hrestFrame x fun q hq => hx q (List.mem_cons_of_mem _ hq)]
    exact hframe x (hx _ List.mem_cons_self)

end Sys2Proof.Machine

/-! # Stores of the vector engine (05_vector_engine_functions.md, R180, R185, R191, R192) -/

namespace Sys2Proof.Machine

/-! ### Places of elements -/

theorem leBytes_length (n v : Nat) : (leBytes n v).length = n := by
  induction n generalizing v with
  | zero => rfl
  | succ n ih => rw [leBytes, List.length_cons, ih]

theorem fmt_bits_le (f : Fmt) : f.bits ≤ 32 := by cases f <;> decide

theorem wf_lt (w : BitVec 128) (lo n : Nat) : wf w lo n < 2 ^ n := bits_lt _ _ _

theorem vAddr_lt (w : BitVec 128) : vAddr w < 2 ^ 23 := by
  have := wf_lt w 71 17
  unfold vAddr
  omega

/-- Elements of an index that a lane or a stride can give have small offsets. -/
theorem elemByte_lt (w : BitVec 128) (f : Fmt) {i : Nat} (hi : i < 2 ^ 32) : elemByte (vAddr w) f.bits i < 2 ^ 40 := by
  have hbits : i * f.bits ≤ i * 32 := Nat.mul_le_mul_left i (fmt_bits_le f)
  have hbase := vAddr_lt w
  unfold elemByte
  omega

theorem vIndices_lt {w : BitVec 128} {i : Nat} (hi : i ∈ vIndices w) : i < 2 ^ 32 := by
  obtain ⟨k, hk, rfl⟩ := List.mem_map.mp hi
  have hlen : k < 2 ^ 11 := (List.mem_range.mp hk).trans (wf_lt w 38 11)
  have hstride : vStride w ≤ 2 ^ 16 := by
    have := wf_lt w 88 16
    unfold vStride vParam
    split <;> omega
  calc k * vStride w ≤ k * 2 ^ 16 := Nat.mul_le_mul_left k hstride
    _ < 2 ^ 32 := by omega

theorem arrayLen_lt (w : BitVec 128) : arrayLen w < 2 ^ 32 := by
  have := wf_lt w 88 16
  unfold arrayLen vParam
  split <;> omega

/-! ### Elements written -/

/-- Goes on only after a write that succeeded. -/
theorem andWrite_ok {r : State × Nat} {f : State → State × Nat} {u : State} (h : andWrite r f = (u, 0)) :
    ∃ t, r = (t, 0) ∧ f t = (u, 0) := by
  obtain ⟨t, c⟩ := r
  unfold andWrite at h
  split at h
  · rename_i refused
    exact absurd (congrArg Prod.snd h) refused
  · rename_i passed
    obtain rfl : c = 0 := not_not.mp passed
    exact ⟨t, rfl, h⟩

/-- Goes on only after a read that succeeded. -/
theorem andRead_ok {r : State × Nat × List Byte} {f : State → List Byte → State × Nat} {u : State}
    (h : andRead r id f = (u, 0)) : ∃ t bs, r = (t, 0, bs) ∧ f t bs = (u, 0) := by
  obtain ⟨t, c, bs⟩ := r
  unfold andRead at h
  split at h
  · rename_i refused
    exact absurd (congrArg Prod.snd h) refused
  · rename_i passed
    obtain rfl : c = 0 := not_not.mp passed
    exact ⟨t, bs, rfl, h⟩

/-- One element written: its bytes, after a read of its byte where it shares it with another element. -/
theorem writeElems_cons {s u : State} {h tag base i code : Nat} {f : Fmt} {es : List (Nat × Nat)} (hecc : s.ecc = [])
    (hw : s.writeElems h tag base f ((i, code) :: es) = (u, 0)) :
    ∃ v t bs, CountsOnly s v ∧ bs.length ≤ Nat.max 1 (f.bits / 8) ∧ v.hWrite h tag (elemByte base f.bits i) bs = (t, 0) ∧
      t.writeElems h tag base f es = (u, 0) := by
  rw [State.writeElems] at hw
  dsimp only at hw
  split at hw
  · obtain ⟨v, old, hread, hw⟩ := andRead_ok hw
    obtain ⟨t, hwrite, hrest⟩ := andWrite_ok hw
    exact ⟨v, t, _, hRead_clean hecc hread, by rw [leBytes_length]; exact Nat.le_max_left _ _, hwrite, hrest⟩
  · obtain ⟨t, hwrite, hrest⟩ := andWrite_ok hw
    exact ⟨s, t, _, .rfl, by rw [leBytes_length]; exact Nat.le_max_right _ _, hwrite, hrest⟩

/-- Elements written to a hearth's error-free memory touch only their own bytes. -/
theorem writeElems_clean {h tag base : Nat} {f : Fmt} (hh : h < 384) (es : List (Nat × Nat)) {s t : State} (hecc : s.ecc = [])
    (hoff : ∀ e ∈ es, elemByte base f.bits e.1 < 2 ^ 40) (hw : s.writeElems h tag base f es = (t, 0)) : StoresOnly s t ∧
      ∀ x, (∀ e ∈ es, x < hearthAddr h + elemByte base f.bits e.1 ∨
        hearthAddr h + elemByte base f.bits e.1 + Nat.max 1 (f.bits / 8) ≤ x) → t.byte x = s.byte x := by
  induction es generalizing s with
  | nil =>
    cases hw
    exact ⟨.rfl, fun _ _ => rfl⟩
  | cons e es ih =>
    obtain ⟨i, code⟩ := e
    obtain ⟨v, u, bs, hv, hlen, hfirst, hrest⟩ := writeElems_cons hecc hw
    have hu := hv.stores.trans (hWrite_clean (hv.ecc.trans hecc) hfirst)
    have hframe := (hWrite_stored hh (hoff _ List.mem_cons_self) hfirst).2
    obtain ⟨ht, hrestFrame⟩ := ih (hu.ecc.trans hecc) (fun e he => hoff e (List.mem_cons_of_mem _ he)) hrest
    refine ⟨hu.trans ht, fun x hx => ?_⟩
    have hhere : x < hearthAddr h + elemByte base f.bits i ∨ hearthAddr h + elemByte base f.bits i + Nat.max 1 (f.bits / 8) ≤ x :=
      hx _ List.mem_cons_self
    dsimp only at hframe
    rw [hrestFrame x fun e he => hx e (List.mem_cons_of_mem _ he), hframe x (by omega)]
    exact byte_congr hv.regs.mem x

/-! ### Scaled blocks written -/

theorem recordAt_le (f : Fmt) (saddr o : Nat) : recordAt f saddr o ≤ saddr + 320 * o + 60 := by
  unfold recordAt
  split <;> omega

theorem sidecarAt_le (saddr o : Nat) : sidecarAt saddr o ≤ saddr + 320 * o + 304 := by
  unfold sidecarAt
  omega

theorem vBlocks_lt (w : BitVec 128) : vBlocks w < 2 ^ 11 := by
  have := wf_lt w 38 11
  unfold vBlocks vLen
  omega

theorem vScaleAddr_lt (w : BitVec 128) (f : Fmt) : vScaleAddr w f < 2 ^ 24 := by
  have hblocks : vBlocks w * 4 * f.bits ≤ vBlocks w * 4 * 32 := Nat.mul_le_mul_left _ (fmt_bits_le f)
  have hcount := vBlocks_lt w
  have hbase := vAddr_lt w
  unfold vScaleAddr
  omega

theorem convertRow_length (d : OutDesc) (l : Limits) (cols : List Column) : (d.convertRow l cols).length = d.blocks := by
  unfold OutDesc.convertRow padRow
  dsimp only
  split <;> simp

/-- The blocks of a scaled store are as many as VL needs. -/
theorem storeBlocks_length (s : State) (h : Nat) (w : BitVec 128) (l : LaneFmt) (f : Fmt) (r : Rnd) :
    (s.storeBlocks h w l f r).1.length = vBlocks w := convertRow_length _ _ _

theorem scaledWrites_lt (w : BitVec 128) (f : Fmt) {bs : List OutBlock} (hbs : bs.length = vBlocks w) :
    ∀ q ∈ scaledWrites w f bs, q.1 < 2 ^ 40 := by
  intro q hq
  have hbase := vAddr_lt w
  have hscales := vScaleAddr_lt w f
  have hblocks := vBlocks_lt w
  rcases List.mem_cons.mp hq with rfl | hq
  · dsimp only
    omega
  · obtain ⟨p, hp, hq⟩ := List.mem_flatMap.mp hq
    have hord : p.2 < bs.length := by simpa using (List.mem_zipIdx hp).2.1
    have hrec := recordAt_le f (vScaleAddr w f) p.2
    have hside := sidecarAt_le (vScaleAddr w f) p.2
    rcases List.mem_cons.mp hq with rfl | hq
    · dsimp only
      omega
    · split at hq
      · obtain rfl := List.mem_singleton.mp hq
        dsimp only
        omega
      · cases hq

/-! ### Completion without a destination -/

/-- Completing a vector instruction with flags changes no byte and no hearth. -/
theorem vecEnd_kept (s : State) (h n : Nat) (fl : Fl) (ie : Ie) :
    (s.vecEnd h n fl ie).hearths = s.hearths ∧ (s.vecEnd h n fl ie).mem = s.mem := by
  unfold State.vecEnd State.bump
  rw [State.put_hearths, State.put_mem, vecFlags_rest]
  exact ⟨rfl, rfl⟩

/-- A store that succeeded and completes: its lanes stay, and so does every byte that it did not touch. -/
theorem vecEnd_of_stores {s u : State} {h n : Nat} {fl : Fl} {ie : Ie} {P : Nat → Prop} (hu : StoresOnly (s.issued h) u)
    (hframe : ∀ x, P x → u.byte x = (s.issued h).byte x) :
    (u.vecEnd h n fl ie).hearths = s.hearths ∧ ∀ x, P x → (u.vecEnd h n fl ie).byte x = s.byte x := by
  obtain ⟨hhearths, hmem⟩ := vecEnd_kept u h n fl ie
  refine ⟨hhearths.trans hu.hearths, fun x hx => ?_⟩
  rw [byte_congr hmem]
  exact hframe x hx

/-! ### The instructions -/

theorem vscatCheck_indices {s : State} {h : Nat} {w : BitVec 128} {r : Rnd} {l : LaneFmt} {f : Fmt} {is : List Nat}
    (hc : s.vscatCheck h w = .ok (r, l, f, is)) : s.indices h w f = .ok is := by
  unfold State.vscatCheck at hc
  obtain ⟨r', -, hc⟩ := checked_bind hc
  cases hf : Fmt.ofCode (vFmt w) with
  | none => simp only [hf] at hc; cases hc
  | some f' =>
    cases hl : laneOf (vFmt2 w) with
    | none => simp only [hl, hf] at hc; cases hc
    | some l' =>
      simp only [hl, hf] at hc
      obtain ⟨js, hjs, hc⟩ := checked_bind hc
      cases hc
      exact hjs

/-- VST of elements without scales, once its check and its writes succeed. -/
theorem doVst_of_writeElems {s u : State} {h : Nat} {w : BitVec 128} {r : Rnd} {l : LaneFmt} {f : Fmt}
    (hc : (s.issued h).vstCheck h w = .ok (r, l, f)) (hf : f.alwaysScaled = false)
    (hw : (s.issued h).writeElems h (tagOf w) (vAddr w) f ((vIndices w).zip ((s.issued h).storeOut h w l f r).codes) = (u, 0)) :
    doVst h w s = u.vecEnd h (vLen w) ((s.issued h).storeOut h w l f r).fl ((s.issued h).storeOut h w l f r).ie := by
  unfold doVst
  simp only [issue_fst, hc, hf, hw, Bool.false_eq_true, if_false, orWrite, ne_eq, not_true]

/-- VST of scaled blocks, once its check and its writes succeed. -/
theorem doVst_of_hWrites {s u : State} {h : Nat} {w : BitVec 128} {r : Rnd} {l : LaneFmt} {f : Fmt}
    (hc : (s.issued h).vstCheck h w = .ok (r, l, f)) (hf : f.alwaysScaled = true)
    (hw : (s.issued h).hWrites h (tagOf w) (scaledWrites w f ((s.issued h).storeBlocks h w l f r).1) = (u, 0)) :
    ∃ fl, doVst h w s = u.vecEnd h (vLen w) fl ((s.issued h).storeBlocks h w l f r).2 := by
  unfold doVst
  simp only [issue_fst, hc, hf, hw, if_true, orWrite, ne_eq, not_true, if_false]
  exact ⟨_, rfl⟩

/-- VSCAT, once its check and its writes succeed. -/
theorem doVscat_of_writeElems {s u : State} {h : Nat} {w : BitVec 128} {r : Rnd} {l : LaneFmt} {f : Fmt} {is : List Nat}
    (hc : (s.issued h).vscatCheck h w = .ok (r, l, f, is))
    (hw : (s.issued h).writeElems h (tagOf w) (vAddr w) f (is.zip ((s.issued h).storeOut h w l f r).codes) = (u, 0)) :
    doVscat h w s = u.vecEnd h (vLen w) ((s.issued h).storeOut h w l f r).fl ((s.issued h).storeOut h w l f r).ie := by
  unfold doVscat
  simp only [issue_fst, hc, hw, if_false, orWrite, ne_eq, not_true]

/-- Settles O16: the bytes that a store touches are those of the writes that it makes, and it completes with flags. -/
theorem storedElements : Obligations.StoredElements := by
  intro h w s u r l f hr hecc
  refine ⟨fun ho hc hf => ?plain, fun ho hc hf => ?scaled, fun is ho hc => ?scatter⟩
  case plain =>
    intro o hw
    obtain ⟨hstores, hframe⟩ := writeElems_clean (s := s.issued h) h.isLt _ hecc
      (fun e he => elemByte_lt w f (vIndices_lt (List.of_mem_zip he).1)) hw
    have hwhere : ∀ x, (∀ i ∈ vIndices w, x < hearthAddr h + elemByte (vAddr w) f.bits i ∨
        hearthAddr h + elemByte (vAddr w) f.bits i + Nat.max 1 (f.bits / 8) ≤ x) → u.byte x = (s.issued h).byte x :=
      fun x hx => hframe x fun e he => hx e.1 (List.of_mem_zip he).1
    obtain ⟨hhearths, hbytes⟩ := vecEnd_of_stores hstores hwhere
    refine ⟨doVst h w s, runWord_next ho hr, doVst_of_writeElems hc hf hw, ?_⟩
    rw [doVst_of_writeElems hc hf hw]
    exact ⟨hhearths, hbytes⟩
  case scaled =>
    intro p hw
    obtain ⟨fl, hdone⟩ := doVst_of_hWrites hc hf hw
    obtain ⟨hstores, hframe⟩ := hWrites_clean (s := s.issued h) h.isLt _ hecc (scaledWrites_lt w f (storeBlocks_length _ h w l f r)) hw
    obtain ⟨hhearths, hbytes⟩ := vecEnd_of_stores hstores hframe
    refine ⟨doVst h w s, fl, runWord_next ho hr, hdone, ?_⟩
    rw [hdone]
    exact ⟨hhearths, hbytes⟩
  case scatter =>
    intro o hw
    obtain ⟨his, hlt, -⟩ := indices_ok (vscatCheck_indices hc)
    obtain ⟨hstores, hframe⟩ := writeElems_clean (s := s.issued h) h.isLt _ hecc
      (fun e he => elemByte_lt w f ((hlt e.1 (List.of_mem_zip he).1).trans (arrayLen_lt w))) hw
    have hwhere : ∀ x, (∀ i ∈ is, x < hearthAddr h + elemByte (vAddr w) f.bits i ∨
        hearthAddr h + elemByte (vAddr w) f.bits i + Nat.max 1 (f.bits / 8) ≤ x) → u.byte x = (s.issued h).byte x :=
      fun x hx => hframe x fun e he => hx e.1 (List.of_mem_zip he).1
    obtain ⟨hhearths, hbytes⟩ := vecEnd_of_stores hstores hwhere
    refine ⟨doVscat h w s, runWord_next ho hr, doVscat_of_writeElems hc hw, ?_⟩
    rw [doVscat_of_writeElems hc hw]
    exact ⟨hhearths, his, hbytes⟩

end Sys2Proof.Machine

/-! # Normalisation, statistics records and softmax (05_vector_engine_functions.md, R202 to R217) -/

namespace Sys2Proof.Machine

/-! ### NORM -/

theorem vCheck_of_normCheck {w : BitVec 128} {r : Rnd} (h : normCheck w = .ok r) :
    vCheck w ((laneOf (vFmt w)).isSome && (laneOf (vFmt2 w)).isSome) ((laneOf (vFmt w)).getD none) = .ok r := by
  unfold normCheck at h
  obtain ⟨r', hr, h⟩ := checked_bind h
  obtain ⟨_, -, h⟩ := checked_bind h
  obtain ⟨_, -, h⟩ := checked_bind h
  cases h
  exact hr

theorem normOut_length (s : State) (h : Nat) (w : BitVec 128) (r : Rnd) (st : StatRec) :
    (s.normOut h w r st).codes.length = vLen w := by
  unfold State.normOut
  dsimp only
  split <;> simp [VOut.ofConvs]

/-- NORM, once its check and its read succeed. -/
theorem doNorm_of_readStat {s u : State} {h : Nat} {w : BitVec 128} {r : Rnd} {st : StatRec} (hc : normCheck w = .ok r)
    (hread : (s.issued h).readStat h (tagOf w) (vAddr w) = (u, .ok st)) : doNorm h w s = u.vecDone h w (u.normOut h w r st) := by
  unfold doNorm
  simp only [issue_fst, hc, hread, orElse]

/-! ### The bytes of a statistics record -/

/-- Two bucket sums of eight numbers each, as a record holds them (R164). -/
structure StatRec.Full (r : StatRec) : Prop where
  s1 : r.s1.length = 8
  s2 : r.s2.length = 8

theorem flatMap_leBytes_length {α : Type} (k : Nat) (f : α → Nat) (xs : List α) :
    (xs.flatMap fun x => leBytes k (f x)).length = k * xs.length := by
  induction xs with
  | nil => rfl
  | cons x xs ih =>
    rw [List.flatMap_cons, List.length_append, leBytes_length, ih, List.length_cons]
    ring

theorem StatRec.Full.bytes_length {r : StatRec} (h : r.Full) : r.bytes.length = 192 := by
  unfold StatRec.bytes
  simp only [List.length_append, flatMap_leBytes_length, leBytes_length, h.s1, h.s2, List.length_replicate, List.length_singleton]

theorem ofBytes_full (bs : List Byte) : (StatRec.ofBytes bs).Full := ⟨by simp [StatRec.ofBytes], by simp [StatRec.ofBytes]⟩

theorem empty_full : StatRec.empty.Full := ⟨rfl, rfl⟩

/-- Forming MEAN and VAR leaves the sums. -/
theorem StatRec.Full.withMoments {r : StatRec} (h : r.Full) : r.withMoments.Full := by
  unfold StatRec.withMoments
  split
  · exact ⟨h.s1, h.s2⟩
  · split <;> exact ⟨h.s1, h.s2⟩

theorem StatRec.Full.combine {a b : StatRec} (ha : a.Full) (hb : b.Full) (bin : Bool) : (StatRec.combine bin a b).Full := by
  constructor
  · simp [StatRec.combine, alignAdd, ha.s1, hb.s1]
  · simp [StatRec.combine, alignAdd, ha.s2, hb.s2]

theorem StatRec.Full.foldl_combine (bin : Bool) (rs : List StatRec) {a : StatRec} (ha : a.Full) (hrs : ∀ r ∈ rs, r.Full) :
    (rs.foldl (StatRec.combine bin) a).Full := by
  induction rs generalizing a with
  | nil => exact ha
  | cons r rs ih =>
    exact ih (ha.combine (hrs r List.mem_cons_self) bin) fun q hq => hrs q (List.mem_cons_of_mem _ hq)

/-- The combination of records is a record (R169). -/
theorem combineStats_full (bin : Bool) {rs : List StatRec} (hrs : ∀ r ∈ rs, r.Full) : (combineStats bin rs).Full := by
  cases rs with
  | nil => exact empty_full.withMoments
  | cons r rs =>
    have hr := hrs r List.mem_cons_self
    refine (StatRec.Full.foldl_combine bin rs ?_ fun q hq => hrs q (List.mem_cons_of_mem _ hq)).withMoments
    exact ⟨hr.s1, hr.s2⟩

/-! ### STCOMB -/

theorem readStat_full {s u : State} {h tag off : Nat} {st : StatRec} (hread : s.readStat h tag off = (u, .ok st)) : st.Full := by
  unfold State.readStat andRead at hread
  split at hread
  · cases hread
  · cases hread
    exact ofBytes_full _

theorem readStats_full {h tag : Nat} (n : Nat) {off : Nat} {s u : State} {rs : List StatRec}
    (hread : s.readStats h tag off n = (u, .ok rs)) : ∀ r ∈ rs, r.Full := by
  induction n generalizing s off rs with
  | zero =>
    cases hread
    simp
  | succ n ih =>
    obtain ⟨t, st, hfirst, hthen⟩ := andChecked_ok hread
    obtain ⟨v, rest, hrest, hlast⟩ := andChecked_ok hthen
    cases hlast
    exact List.forall_mem_cons.mpr ⟨readStat_full hfirst, ih hrest⟩

/-- STCOMB, once its check, its reads and its write succeed. -/
theorem doStcomb_of_hWrite {s u v : State} {h : Nat} {w : BitVec 128} {rs : List StatRec} {k : Bool} (hc : stcombCheck w = .ok ())
    (hread : (s.issued h).readStats h (tagOf w) (vAddr w) (vParam w) = (u, .ok rs)) (hk : kindOf rs = some k)
    (hw : u.hWrite h (tagOf w) (vAddr w) (combineStats k rs).bytes = (v, 0)) :
    doStcomb h w s = v.vecEnd h (vParam w) (flagIf (combineStats k rs).vclamp fVCLAMP) 0 := by
  unfold doStcomb
  simp only [issue_fst, hc, hread, hk, hw, ne_eq, not_true, if_false]

/-- Settles O17: NORM is done with its row; STCOMB writes the 192 bytes of the combination and completes with flags. -/
theorem normAndCombine : Obligations.NormAndCombine := by
  intro h w s u hr
  refine ⟨fun r st ho hc hread => ?norm, fun rs k v ho hc hread hk hw => ?stcomb⟩
  case norm =>
    have hlen := normOut_length u h w r st
    have hle := vCheck_len (vCheck_of_normCheck hc) (by omega)
    refine ⟨doNorm h w s, runWord_next ho hr, ?_, hlen, fun hnonfin => ?_⟩
    · rw [doNorm_of_readStat hc hread]
      exact vecDone_result u h w _ (hlen.trans_le hle)
    · exact if_pos hnonfin
  case stcomb =>
    have hdone := doStcomb_of_hWrite hc hread hk hw
    have hlen := (combineStats_full k (readStats_full _ hread)).bytes_length
    have hstored := (hWrite_stored h.isLt ((vAddr_lt w).trans (by decide)) hw).1
    refine ⟨doStcomb h w s, runWord_next ho hr, hdone, ?_⟩
    rw [hdone, bytes_congr (vecEnd_kept v h _ _ _).2, ← hlen]
    exact hstored

/-! ### SMAX -/

theorem vCheck_of_smaxCheck {w : BitVec 128} {r : Rnd} (hc : smaxCheck w = .ok r) (ho : opcodeOf w ≠ 0x69) : vLen w ≤ 1024 := by
  unfold smaxCheck at hc
  obtain ⟨r', hr, -⟩ := checked_bind hc
  exact vCheck_len hr ho

theorem exponentials_length (s : State) (h : Nat) (w : BitVec 128) (m : Rnd) (x : Option Nat) :
    (s.exponentials h w m x).length = vLen w := by simp [State.exponentials]

/-- A decision gives a result for each numerator. -/
theorem decideRow_length (s : State) (h : Nat) (w : BitVec 128) (r : Rnd) (l : LaneFmt) (sum : SumRec) (ns : List (Option Num)) :
    (s.decideRow h w r l sum ns).codes.length = ns.length := by
  unfold State.decideRow
  dsimp only
  split
  · simp [VOut.ofConvs]
  · split
    · simp [VOut.ofConvs]
    · split <;> simp [VOut.ofConvs]

theorem smaxWhole_length (s : State) (h : Nat) (w : BitVec 128) (r : Rnd) (bs : List Byte) :
    (s.smaxWhole h w r bs).codes.length = vLen w := by
  unfold State.smaxWhole
  dsimp only [VOut.withRow]
  rw [decideRow_length, List.length_map, exponentials_length]

theorem smaxDecide_length (s : State) (h : Nat) (w : BitVec 128) (r : Rnd) (sum : SumRec) :
    (s.smaxDecide h w r sum).codes.length = vLen w := by
  unfold State.smaxDecide
  dsimp only
  rw [decideRow_length, List.length_map, List.length_map, List.length_range]

theorem smaxPart_length (s : State) (h : Nat) (w : BitVec 128) (r : Rnd) (start : SumRec) :
    (s.smaxPart h w r start).2.codes.length = vLen w := by
  unfold State.smaxPart
  dsimp only [VOut.withRow]
  rw [List.length_map, exponentials_length]

theorem record_length (m : Mode) (e : Elem) : (e.record m).length = 96 := by
  unfold Elem.record
  simp only [List.length_append, flatMap_leBytes_length, leBytes_length, List.length_replicate]
  rfl

theorem sumRec_bytes_length (r : SumRec) : r.bytes.length = 128 := by
  unfold SumRec.bytes
  simp only [List.length_append, record_length, leBytes_length, List.length_replicate]

/-- SMAX over a whole row without a record. -/
theorem doSmax_whole {s : State} {h : Nat} {w : BitVec 128} {r : Rnd} (hc : smaxCheck w = .ok r) (hp : smaxPhase w = 0)
    (hm : vMaxsub w = false) : doSmax h w s = (s.issued h).vecDone h w ((s.issued h).smaxWhole h w r []) := by
  unfold doSmax smaxRecord
  simp [issue_fst, hc, hp, hm, orElse]

/-- SMAX over a whole row with the record that MAXSUB names. -/
theorem doSmax_maxsub {s u : State} {h : Nat} {w : BitVec 128} {r : Rnd} {bs : List Byte} (hc : smaxCheck w = .ok r)
    (hp : smaxPhase w = 0) (hm : vMaxsub w = true) (hread : (s.issued h).hRead h (tagOf w) (vAddr w) 192 = (u, 0, bs)) :
    doSmax h w s = u.vecDone h w (u.smaxWhole h w r bs) := by
  unfold doSmax smaxRecord
  simp [issue_fst, hc, hp, hm, hread, checkRead, orElse]

/-- SMAX over the first part of a row. -/
theorem doSmax_first {s v : State} {h : Nat} {w : BitVec 128} {r : Rnd} (hc : smaxCheck w = .ok r) (hp : smaxPhase w = 1)
    (hw : (s.issued h).hWrite h (tagOf w) (vAddr w) ((s.issued h).smaxPart h w r SumRec.fresh).1.bytes = (v, 0)) :
    doSmax h w s = v.vecDone h w ((s.issued h).smaxPart h w r SumRec.fresh).2 := by
  unfold doSmax
  simp [issue_fst, hc, hp, hw, orElse, orWrite]

/-- SMAX over a next part of a row. -/
theorem doSmax_next {s u v : State} {h : Nat} {w : BitVec 128} {r : Rnd} {bs : List Byte} {start : SumRec}
    (hc : smaxCheck w = .ok r) (hp : smaxPhase w = 2) (hread : (s.issued h).hRead h (tagOf w) (vAddr w) 128 = (u, 0, bs))
    (hsum : sumOfBytes bs = some start) (hw : u.hWrite h (tagOf w) (vAddr w) (u.smaxPart h w r start).1.bytes = (v, 0)) :
    doSmax h w s = v.vecDone h w (u.smaxPart h w r start).2 := by
  unfold doSmax smaxRecord
  simp [issue_fst, hc, hp, hread, hsum, hw, checkRead, orElse, orWrite]

/-- SMAX in its decision. -/
theorem doSmax_decide {s u : State} {h : Nat} {w : BitVec 128} {r : Rnd} {bs : List Byte} {sum : SumRec}
    (hc : smaxCheck w = .ok r) (hp : smaxPhase w = 3) (hread : (s.issued h).hRead h (tagOf w) (vAddr w) 128 = (u, 0, bs))
    (hsum : sumOfBytes bs = some sum) : doSmax h w s = u.vecDone h w (u.smaxDecide h w r sum) := by
  unfold doSmax smaxRecord
  simp [issue_fst, hc, hp, hread, hsum, checkRead, orElse]

/-- A part that was written and is done: its lanes, and its record where it was stored. -/
theorem smaxPart_stored {u v : State} {h : Nat} {w : BitVec 128} {r : Rnd} {start : SumRec} (hh : h < 384) (hle : vLen w ≤ 1024)
    (hw : u.hWrite h (tagOf w) (vAddr w) (u.smaxPart h w r start).1.bytes = (v, 0)) :
    LaneResult h w v (v.vecDone h w (u.smaxPart h w r start).2) (u.smaxPart h w r start).2 ∧
      (v.vecDone h w (u.smaxPart h w r start).2).bytes (hearthAddr h + vAddr w) 128 = (u.smaxPart h w r start).1.bytes := by
  have hlanes := vecDone_result v h w (u.smaxPart h w r start).2 ((smaxPart_length u h w r start).trans_le hle)
  have hstored := (hWrite_stored hh ((vAddr_lt w).trans (by decide)) hw).1
  have hmem : (v.vecDone h w (u.smaxPart h w r start).2).mem = v.mem := by rw [hlanes.rest]
  rw [sumRec_bytes_length] at hstored
  exact ⟨hlanes, (bytes_congr hmem _ _).trans hstored⟩

/-- Settles O18: each phase is done with its row of results; a part stores its sum record before that. -/
theorem softmaxRows : Obligations.SoftmaxRows := by
  intro h w s u r hr ho hc
  have hle := vCheck_of_smaxCheck hc (by omega)
  have hnext : exec (.smax h w) s = .next (doSmax h w s) := runWord_next ho hr
  refine ⟨fun hp hm => ?whole, fun bs hp hm hread => ?maxsub, fun v hp => ?first, fun v bs start hp hread hsum => ?next,
    fun bs sum hp hread hsum => ?decision⟩
  case whole =>
    have hlen := smaxWhole_length (s.issued h) h w r []
    refine ⟨doSmax h w s, hnext, ?_, hlen⟩
    rw [doSmax_whole hc hp hm]
    exact vecDone_result _ h w _ (hlen.trans_le hle)
  case maxsub =>
    refine ⟨doSmax h w s, hnext, ?_⟩
    rw [doSmax_maxsub hc hp hm hread]
    exact vecDone_result _ h w _ ((smaxWhole_length u h w r bs).trans_le hle)
  case first =>
    intro p hw
    refine ⟨doSmax h w s, hnext, ?_⟩
    rw [doSmax_first hc hp hw]
    exact smaxPart_stored h.isLt hle hw
  case next =>
    intro p hw
    refine ⟨doSmax h w s, hnext, ?_⟩
    rw [doSmax_next hc hp hread hsum hw]
    exact smaxPart_stored h.isLt hle hw
  case decision =>
    refine ⟨doSmax h w s, hnext, ?_⟩
    rw [doSmax_decide hc hp hread hsum]
    exact vecDone_result _ h w _ ((smaxDecide_length u h w r sum).trans_le hle)

end Sys2Proof.Machine

/-! # OUT and the stat records of its layer (06_scaling_narrow_formats.md, R245, R246) -/

namespace Sys2Proof.Machine

/-- A loaded configuration in which kiln 0 is a compute kiln, whose stat records begin at live-tier address 0, and hearth 0 holds
an output descriptor of one GL16 column at offset 64. -/
def outCounted : State := { State.reset with
  mem := [(hearthBase, 64), (hearthBase + 15, 0x40), (hearthBase + 38, 1)]
  cfg := ⟨{ ConfigBank.base with loaded := true, granules := [(0, .kilnLocal 0 0)], kilns := [(0, ⟨0, 0, 1⟩)] }, none⟩ }

/-- The word of OUT for slot 0 alone, under descriptor 0. -/
def outWord : BitVec 128 := 0x10002

/-- The descriptor that `outCounted` holds. -/
def outColumn : OutDesc where
  dst := 64
  pitch := 0
  fmt := .gl16
  rnd := .rn
  clip := false
  act := 0
  actParam := 0
  bias := 0
  rowScale := false
  stats := false
  cb := 0
  layer := 0
  oscale := 0x4000
  biasAddr := 0
  scaleAddr := 0
  statAddr := 0
  clampLo := 0
  clampHi := 0
  seq := 0
  width := 1
  book := []
  pwl := []

theorem outCheck_outCounted : (outCounted.issued 0).outCheck 0 outWord = .ok outColumn := by rfl

/-- OUT makes the stat record of its layer VALID at byte 3 of the live tier. -/
theorem doOut_outCounted_byte : (doOut 0 outWord outCounted).byte 3 = 1 := by decide +kernel

/-- Refutes O22: in `outCounted` the row's conversion also enters the stat record of layer 0 (R246), which lies in the live tier,
outside the row's blocks: its byte 3, which was 0, holds VALID. -/
theorem not_outOneRow : ¬ Obligations.OutOneRow := by
  intro h
  obtain ⟨t, ht, -, hframe, -⟩ := h 0 outWord outCounted (outCounted.issued 0) _ outColumn [] (by decide) (by decide) (by decide)
    outCheck_outCounted rfl rfl (by decide) (by decide) rfl (Prod.ext rfl (by decide))
  have hout : runWord 0x02 doOut 0 outWord outCounted = .next (doOut 0 outWord outCounted) := runWord_next (by decide) (by decide)
  obtain rfl := Host.Outcome.next.inj (hout.symm.trans ht)
  have hbyte := hframe 3 fun q _ => .inl (by unfold hearthAddr hearthBase; omega)
  rw [doOut_outCounted_byte] at hbyte
  exact absurd hbyte (by decide)

end Sys2Proof.Machine

/-! # Slots of embers: CLR, BSST, RSTAT, BSADD and KRED (04_ember_instructions.md, R128, R133, R144) -/

namespace Sys2Proof.Machine

/-! ### Storing slots -/

@[simp] theorem Ember.slot_setSlot (e : Ember) (i : Nat) (x : Slot) : (e.setSlot i x).slot i = x := sget_sset_self _ _ _ _

theorem Ember.slot_setSlot_ne (e : Ember) {i j : Nat} (x : Slot) (hij : i ≠ j) : (e.setSlot i x).slot j = e.slot j :=
  sget_sset_ne _ _ _ hij

/-- Slots stored one after another leave the slots that they do not name. -/
theorem slot_foldl_out (new : List (Nat × Slot)) (e : Ember) {i : Nat} (hi : ∀ p ∈ new, p.1 ≠ i) :
    (new.foldl (fun (x : Ember) p => x.setSlot p.1 p.2) e).slot i = e.slot i := by
  induction new generalizing e with
  | nil => rfl
  | cons p ps ih =>
    rw [List.foldl_cons, ih _ fun q hq => hi q (List.mem_cons_of_mem _ hq)]
    exact Ember.slot_setSlot_ne e p.2 (hi p List.mem_cons_self)

/-- A slot that is stored once or more, always with one value, holds it. -/
theorem slot_foldl_mem (new : List (Nat × Slot)) (e : Ember) {i : Nat} {x : Slot} (hin : (i, x) ∈ new)
    (hone : ∀ p ∈ new, p.1 = i → p.2 = x) : (new.foldl (fun (x : Ember) p => x.setSlot p.1 p.2) e).slot i = x := by
  induction new generalizing e with
  | nil => cases hin
  | cons p ps ih =>
    rw [List.foldl_cons]
    by_cases hlater : (i, x) ∈ ps
    · exact ih _ hlater fun q hq => hone q (List.mem_cons_of_mem _ hq)
    · have hhere : p = (i, x) := ((List.mem_cons.mp hin).resolve_right hlater).symm
      rw [slot_foldl_out ps _ fun q hq hqi => hlater ?_, hhere]
      · exact Ember.slot_setSlot _ _ _
      · have hq2 := hone q (List.mem_cons_of_mem _ hq) hqi
        rwa [← hqi, ← hq2]

/-- The ember that took the slots. -/
theorem putSlots_ember (s : State) (en : Nat) (new : List (Nat × Slot)) (i : Nat) :
    ((s.putSlots en new).ember en).slot i = (new.foldl (fun (x : Ember) p => x.setSlot p.1 p.2) (s.ember en)).slot i := by
  unfold State.putSlots
  rw [State.ember_setEmber]
  rfl

theorem putSlots_ember_ne (s : State) {en e : Nat} (new : List (Nat × Slot)) (he : e ≠ en) : (s.putSlots en new).ember e = s.ember e :=
  State.ember_setEmber_ne s _ he.symm

theorem mem_namedSlots {w : BitVec 128} {i : Nat} : i ∈ namedSlots w ↔ ∃ r < rowsOf w, slotOf w + r = i := by
  simp [namedSlots]

/-! ### CLR -/

theorem issued_get (s : State) (h : Nat) :
    (s.issued h).get (Reg.HTH_ISSUE_NEXT h) = (s.get (Reg.HTH_ISSUE_NEXT h) + 1) % 2 ^ (Reg.HTH_ISSUE_NEXT h).w :=
  State.get_put_self _ _ _ ⟨Nat.two_pow_pos 64, (by decide : 0 + 48 ≤ 64)⟩

theorem issue_eq (s : State) (h : Nat) : s.issue h = (s.issued h, s.get (Reg.HTH_ISSUE_NEXT h)) := rfl

@[simp] theorem issued_ember (s : State) (h e : Nat) : (s.issued h).ember e = s.ember e := rfl

@[simp] theorem issued_slotsBad (s : State) (h e : Nat) (is : List Nat) : (s.issued h).slotsBad e is = s.slotsBad e is := rfl

theorem issued_wordsKept (s : State) (h : Nat) : s.WordsKept (s.issued h) [(Reg.HTH_ISSUE_NEXT h).off] :=
  State.bump_wordsKept _ _ List.mem_cons_self .rfl

theorem doClr_eq {s : State} {h : Nat} {w : BitVec 128} (hc : checkSlots w false = .ok ()) :
    doClr h w s = (s.issued h).putSlots (emberOf h w) ((namedSlots w).map fun i => (i, Slot.empty)) := by
  unfold doClr
  simp only [issue_eq, hc]

/-- Settles O20: the slots stored are those named, each EMPTY. -/
theorem clearedSlots : Obligations.ClearedSlots := by
  intro h w s hr ho hc
  refine ⟨doClr h w s, runWord_next ho hr, ?_⟩
  rw [doClr_eq hc]
  refine ⟨fun i => ?slots, fun e he => putSlots_ember_ne _ _ he, issued_get s h, rfl, issued_wordsKept s h⟩
  rw [putSlots_ember]
  split
  · rename_i named
    refine slot_foldl_mem _ _ (List.mem_map.mpr ⟨i, named, rfl⟩) fun p hp _ => ?_
    obtain ⟨j, -, rfl⟩ := List.mem_map.mp hp
    rfl
  · rename_i free
    refine slot_foldl_out _ _ fun p hp => ?_
    obtain ⟨j, hj, rfl⟩ := List.mem_map.mp hp
    exact fun hji => free (hji ▸ hj)

/-! ### BSST -/

/-- The bytes of a slot's row of records (R144). -/
def bsRow (sl : Slot) : List Byte := (List.range 64).flatMap fun c => (sl.elem c).record sl.mode

theorem bsRow_length (sl : Slot) : (bsRow sl).length = bsRowBytes := by
  have hrow : ∀ cs : List Nat, (cs.flatMap fun c => (sl.elem c).record sl.mode).length = 96 * cs.length := fun cs => by
    induction cs with
    | nil => rfl
    | cons c cs ih => rw [List.flatMap_cons, List.length_append, record_length, ih, List.length_cons]; ring
  exact hrow (List.range 64)

theorem bsstRows_cons (s : State) (h tag off : Nat) (sl : Slot) (slots : List Slot) : s.bsstRows h tag off (sl :: slots) =
    andWrite (s.writeMem (asBucket s h tag) (hearthAddr h + off) (bsRow sl)) fun t => t.bsstRows h tag (off + bsRowBytes) slots := rfl

theorem bsRows_length (slots : List Slot) : (slots.flatMap bsRow).length = bsRowBytes * slots.length := by
  induction slots with
  | nil => rfl
  | cons sl slots ih => rw [List.flatMap_cons, List.length_append, bsRow_length, ih, List.length_cons]; ring

/-- Bytes that a later change leaves. -/
theorem bytes_of_frame {s t : State} {a n : Nat} (hframe : ∀ x, a ≤ x → x < a + n → t.byte x = s.byte x) : t.bytes a n = s.bytes a n := by
  induction n generalizing a with
  | zero => rfl
  | succ n ih =>
    simp only [State.bytes]
    rw [hframe a le_rfl (by omega), ih fun x hx hx' => hframe x (by omega) (by omega)]

/-- Rows of records written one after another into a hearth's error-free memory. -/
theorem bsstRows_stored {h tag : Nat} (hh : h < 384) (slots : List Slot) {off : Nat} {s t : State} (hecc : s.ecc = [])
    (hoff : off + bsRowBytes * slots.length < 2 ^ 40) (hw : s.bsstRows h tag off slots = (t, 0)) :
    StoresOnly s t ∧ t.bytes (hearthAddr h + off) (slots.flatMap bsRow).length = slots.flatMap bsRow ∧
      ∀ x, x < hearthAddr h + off ∨ hearthAddr h + off + (slots.flatMap bsRow).length ≤ x → t.byte x = s.byte x := by
  induction slots generalizing s off with
  | nil =>
    cases hw
    exact ⟨.rfl, rfl, fun _ _ => rfl⟩
  | cons sl slots ih =>
    have hfits : off + 6144 * (slots.length + 1) < 2 ^ 40 := hoff
    have hbehindFits : off + bsRowBytes + bsRowBytes * slots.length < 2 ^ 40 := by
      show off + 6144 + 6144 * slots.length < 2 ^ 40
      omega
    rw [bsstRows_cons] at hw
    obtain ⟨u, hfirst, hrest⟩ := andWrite_ok hw
    have hu := writeMem_clean hecc hfirst
    obtain ⟨hhere, hframe⟩ := writeMem_stored hh (by omega) hfirst
    obtain ⟨ht, hbehind, hrestFrame⟩ := ih (hu.ecc.trans hecc) hbehindFits hrest
    have hlen : (bsRow sl).length = bsRowBytes := bsRow_length sl
    rw [← Nat.add_assoc] at hbehind hrestFrame
    refine ⟨hu.trans ht, ?_, fun x hx => ?_⟩
    · rw [List.flatMap_cons, List.length_append, bytes_append, bytes_of_frame fun x _ hx => hrestFrame x (.inl (by omega)), hhere,
        hlen, hbehind]
    · rw [List.flatMap_cons, List.length_append] at hx
      rw [hrestFrame x (by omega), hframe x (by omega)]

/-- BSST, once its check and its writes succeed. -/
theorem doBsst_eq {s u : State} {h : Nat} {w : BitVec 128} (hc : (s.issued h).bsstCheck h w = .ok ())
    (hbad : s.slotsBad (emberOf h w) (namedSlots w) = false)
    (hout : (((namedSlots w).map (s.ember (emberOf h w)).slot).all fun sl => sl.elems.all fun p => p.2.outSum = 0) = true)
    (hw : (s.issued h).bsstRows h (tagOf w) (64 * wf w 62 17) ((namedSlots w).map (s.ember (emberOf h w)).slot) = (u, 0)) :
    doBsst h w s = u := by
  have hnone : (((namedSlots w).map (s.ember (emberOf h w)).slot).any fun sl => sl.elems.any fun p => p.2.outSum ≠ 0) = false := by
    rw [← Bool.not_eq_true', List.not_any_eq_all_not]
    refine Eq.trans (congrArg (List.all _) (funext fun sl => ?_)) hout
    rw [List.not_any_eq_all_not]
    simp
  unfold doBsst
  simp only [issue_eq, issued_ember, issued_slotsBad, hc, hnone, hbad, hw, Bool.false_eq_true, if_false, ne_eq, not_true]

/-! ### RSTAT -/

/-- RSTAT of one row, once its check and its write succeed. -/
theorem doRstat_eq {s u : State} {h : Nat} {w : BitVec 128} {k : Bool} (hc : rstatCheck w = .ok ()) (hrow : rowsOf w = 1)
    (hbad : ∀ e ∈ maskEmbers (maskOf w), s.slotsBad (8 * h + e) (namedSlots w) = false)
    (hk : kindOf ((maskEmbers (maskOf w)).map fun e => ((s.ember (8 * h + e)).slot (slotOf w)).stats) = some k)
    (hw : (s.issued h).hWrite h (tagOf w) (64 * wf w 79 17)
      (combineStats k ((maskEmbers (maskOf w)).map fun e => ((s.ember (8 * h + e)).slot (slotOf w)).stats)).bytes = (u, 0)) :
    ∃ f : Fld, ∃ fl, doRstat h w s = u ∨ doRstat h w s = u.sticky f fl := by
  have hgood : ((maskEmbers (maskOf w)).any fun e => s.slotsBad (8 * h + e) (namedSlots w)) = false :=
    List.any_eq_false.mpr fun e he => Bool.eq_false_iff.mp (hbad e he)
  have hnamed : namedSlots w = [slotOf w] := by simp [namedSlots, hrow]
  refine ⟨Reg.EMB_OFLAGS_flags h ((maskEmbers (maskOf w)).headD 0), fVCLAMP, ?_⟩
  unfold doRstat
  simp only [issue_eq, issued_ember, issued_slotsBad, hc, hgood, Bool.false_eq_true, if_false]
  simp only [hnamed, List.map_cons, List.map_nil, hk, Option.map_some, List.any_cons, List.any_nil, Option.isNone_some,
    Bool.or_false, Bool.false_eq_true, if_false, List.filterMap_cons, List.filterMap_nil, id_eq, State.writeStats, hw, ne_eq,
    not_true]
  split
  · exact .inr rfl
  · exact .inl rfl

theorem stats_full (sl : Slot) : sl.stats.Full := by
  unfold Slot.stats
  split
  · exact ofBytes_full _
  · exact empty_full

theorem sticky_kept (s : State) (f : Fld) (fl : Fl) : (s.sticky f fl).embers = s.embers ∧ (s.sticky f fl).mem = s.mem := by
  rw [sticky_rest]
  exact ⟨rfl, rfl⟩

/-- Settles O23: BSST is its rows written in order; RSTAT of one row is one record written, with a flag when it is clamped. -/
theorem recordsStored : Obligations.RecordsStored := by
  refine ⟨fun h w s u hr ho hecc hc hbad => ?bsst, fun h w s u k hr ho hecc hc hrow hbad => ?rstat⟩
  case bsst =>
    intro slots bytes off hout hw
    have hlen : bytes.length = 6144 * rowsOf w := by
      rw [show bytes = slots.flatMap bsRow from rfl, bsRows_length]
      simp [slots, namedSlots, bsRowBytes]
    have hoff : off + bsRowBytes * slots.length < 2 ^ 40 := by
      have haddr := wf_lt w 62 17
      have hrows := wf_lt w 16 8
      simp only [slots, off, namedSlots, List.length_map, List.length_range, bsRowBytes, rowsOf]
      omega
    obtain ⟨hstores, hbytes, hframe⟩ := bsstRows_stored (s := s.issued h) h.isLt slots hecc hoff hw
    have hdone : doBsst h w s = u := doBsst_eq hc hbad hout hw
    refine ⟨doBsst h w s, runWord_next ho hr, hlen, ?_⟩
    rw [hdone]
    exact ⟨hbytes, hframe, hstores.embers, hstores.hearths⟩
  case rstat =>
    intro recs off hk hw
    have hoff : off < 2 ^ 40 := by
      have := wf_lt w 79 17
      simp only [off]
      omega
    have hlen : (combineStats k recs).bytes.length = 192 := by
      refine (combineStats_full k fun r hr' => ?_).bytes_length
      obtain ⟨e, -, rfl⟩ := List.mem_map.mp hr'
      exact stats_full _
    obtain ⟨hbytes, hframe⟩ := hWrite_stored h.isLt hoff hw
    have hstores := hWrite_clean (s := s.issued h) hecc hw
    rw [hlen] at hbytes hframe
    have hkept : (doRstat h w s).embers = u.embers ∧ (doRstat h w s).mem = u.mem := by
      obtain ⟨f, fl, hdone | hdone⟩ := doRstat_eq hc hrow hbad hk hw
      · rw [hdone]
        exact ⟨rfl, rfl⟩
      · rw [hdone]
        exact sticky_kept u f fl
    refine ⟨doRstat h w s, runWord_next ho hr, hkept.1.trans hstores.embers, ?_, fun x hx => ?_⟩
    · rw [bytes_congr hkept.2]
      exact hbytes
    · rw [byte_congr hkept.2]
      exact hframe x hx

end Sys2Proof.Machine

/-! # Sums of bucket sets: BSADD and KRED (03_log_accumulation.md, R128, R133) -/

namespace Sys2Proof.Machine

/-! ### Rows that every addition gave -/

/-- What the additions of n rows gave, under the slots from `first` on. -/
def rowsAdded (first n : Nat) (g : Nat → Option (Slot × Fl × Nat)) : List (Nat × Slot × Fl × Nat) :=
  ((List.range n).map fun r => (first + r, g r)).filterMap fun p => p.2.map fun x => (p.1, x)

theorem mem_rowsAdded {first n : Nat} {g : Nat → Option (Slot × Fl × Nat)} {q : Nat × Slot × Fl × Nat} :
    q ∈ rowsAdded first n g ↔ ∃ r < n, g r = some q.2 ∧ first + r = q.1 := by
  simp only [rowsAdded, List.mem_filterMap, List.mem_map, List.mem_range, Option.map_eq_some_iff]
  constructor
  · rintro ⟨_, ⟨r, hr, rfl⟩, x, hx, rfl⟩
    exact ⟨r, hr, hx, rfl⟩
  · rintro ⟨r, hr, hx, hq⟩
    exact ⟨_, ⟨r, hr, rfl⟩, q.2, hx, Prod.ext hq rfl⟩

/-- A row whose addition gave nothing is a clash. -/
theorem rows_clash {first n : Nat} {g : Nat → Option (Slot × Fl × Nat)} :
    (((List.range n).map fun r => (first + r, g r)).any fun p => p.2.isNone) = true ↔ ∃ r, r < n ∧ g r = none := by
  simp [List.any_eq_true]

/-- Storing rows that were added: their slots take the sums, and every other slot stays. -/
theorem putSlots_rowsAdded (s : State) (en first n : Nat) (g : Nat → Option (Slot × Fl × Nat)) (hg : ∀ r, r < n → g r ≠ none) :
    (∀ r, r < n → some (((s.putSlots en ((rowsAdded first n g).map fun p => (p.1, p.2.1))).ember en).slot (first + r)) =
      (g r).map (·.1)) ∧
    (∀ i, (∀ r < n, first + r ≠ i) →
      ((s.putSlots en ((rowsAdded first n g).map fun p => (p.1, p.2.1))).ember en).slot i = (s.ember en).slot i) := by
  constructor
  · intro r hr
    obtain ⟨x, hx⟩ := Option.ne_none_iff_exists'.mp (hg r hr)
    rw [hx, Option.map_some, putSlots_ember]
    refine congrArg some (slot_foldl_mem _ _ (List.mem_map.mpr ⟨(first + r, x), mem_rowsAdded.mpr ⟨r, hr, hx, rfl⟩, rfl⟩) ?_)
    intro p hp hpr
    obtain ⟨q, hq, rfl⟩ := List.mem_map.mp hp
    obtain ⟨r', -, hx', hr'⟩ := mem_rowsAdded.mp hq
    have hsame : r' = r := by
      dsimp only at hpr
      omega
    rw [hsame, hx] at hx'
    exact congrArg (·.1) (Option.some.inj hx').symm
  · intro i hi
    rw [putSlots_ember]
    refine slot_foldl_out _ _ fun p hp => ?_
    obtain ⟨q, hq, rfl⟩ := List.mem_map.mp hp
    obtain ⟨r, hr, -, hfirst⟩ := mem_rowsAdded.mp hq
    exact fun hqi => hi r hr (hfirst.trans hqi)

/-- The rows of an instruction are the slots that it names. -/
theorem not_mem_namedSlots {w : BitVec 128} {i : Nat} (hi : i ∉ namedSlots w) : ∀ r < rowsOf w, slotOf w + r ≠ i :=
  fun r hr hri => hi (mem_namedSlots.mpr ⟨r, hr, hri⟩)

/-- Flags and counts of added rows, which end BSADD and KRED. -/
def State.rowsNoted (s : State) (f : Fld) (k : Nat) (rows : List (Nat × Slot × Fl × Nat)) : State :=
  (s.sticky f (rows.foldl (fun f p => f ||| p.2.2.1) 0)).pmc 0x09 k (rows.foldl (fun n p => n + p.2.2.2) 0)

/-- Flags and counts touch registers, and the flags of the work in progress. -/
theorem rowsNoted_kept (s : State) (f : Fld) (k : Nat) (rows : List (Nat × Slot × Fl × Nat)) :
    (s.rowsNoted f k rows).mem = s.mem ∧ (s.rowsNoted f k rows).hearths = s.hearths ∧ (s.rowsNoted f k rows).embers = s.embers := by
  unfold State.rowsNoted
  rw [State.pmc_regsOnly _ _ _ RegsOnly.rfl, sticky_rest]
  exact ⟨rfl, rfl, rfl⟩

/-- What storing and noting added rows leaves, ember by ember. -/
theorem rowsNoted_stored (s : State) (en first n : Nat) (f : Fld) (k : Nat) {g : Nat → Option (Slot × Fl × Nat)}
    (hg : ∀ r, r < n → g r ≠ none) {t : State}
    (ht : t = (s.putSlots en ((rowsAdded first n g).map fun p => (p.1, p.2.1))).rowsNoted f k (rowsAdded first n g)) :
    t.mem = s.mem ∧ t.hearths = s.hearths ∧
      (∀ r, r < n → some ((t.ember en).slot (first + r)) = (g r).map (·.1)) ∧
      (∀ i, (∀ r < n, first + r ≠ i) → (t.ember en).slot i = (s.ember en).slot i) ∧
      (∀ e, e ≠ en → t.ember e = s.ember e) := by
  subst ht
  generalize hput : s.putSlots en ((rowsAdded first n g).map fun p => (p.1, p.2.1)) = u
  obtain ⟨hmem, hhearths, hembers⟩ := rowsNoted_kept u f k (rowsAdded first n g)
  obtain ⟨hin, hout⟩ := putSlots_rowsAdded s en first n g hg
  rw [hput] at hin hout
  have hember : ∀ e, (u.rowsNoted f k (rowsAdded first n g)).ember e = u.ember e := fun e => by
    unfold State.ember
    rw [hembers]
  refine ⟨hmem.trans ?_, hhearths.trans ?_, fun r hr => ?_, fun i hi => ?_, fun e he => ?_⟩
  · rw [← hput]
    rfl
  · rw [← hput]
    rfl
  · rw [hember]
    exact hin r hr
  · rw [hember]
    exact hout i hi
  · rw [hember, ← hput]
    exact putSlots_ember_ne s _ he

/-! ### KRED -/

/-- KRED over two embers or more, none of whose rows clash. -/
theorem doKred_eq {s : State} {h : Nat} {w : BitVec 128} {e0 e1 : Nat} {es : List Nat} (hc : checkSlots w true = .ok ())
    (hm : maskEmbers (maskOf w) = e0 :: e1 :: es)
    (hbad : ∀ e ∈ e0 :: e1 :: es, s.slotsBad (8 * h + e) (namedSlots w) = false)
    {g : Nat → Option (Slot × Fl × Nat)} (hg : ∀ r, r < rowsOf w → g r ≠ none)
    (hrow : ∀ r, g r = kredRow s.cfg.active.spill (s.issued h).random r ((s.ember (8 * h + e0)).slot (slotOf w + r))
      ((e1 :: es).map fun e => (s.ember (8 * h + e)).slot (slotOf w + r))) :
    doKred h w s = ((s.issued h).putSlots (8 * h + e0) ((rowsAdded (slotOf w) (rowsOf w) g).map fun p => (p.1, p.2.1))).rowsNoted
      (Reg.EMB_FLAGS_flags h e0) (kilnOf h) (rowsAdded (slotOf w) (rowsOf w) g) := by
  have hgood : ((e0 :: e1 :: es).any fun e => s.slotsBad (8 * h + e) (namedSlots w)) = false :=
    List.any_eq_false.mpr fun e he => Bool.eq_false_iff.mp (hbad e he)
  have hnone : (((List.range (rowsOf w)).map fun r => (slotOf w + r, g r)).any fun p => p.2.isNone) = false :=
    Bool.eq_false_iff.mpr fun clash => by
      obtain ⟨r, hr, hr0⟩ := rows_clash.mp clash
      exact hg r hr hr0
  have hcfg : (s.issued h).cfg = s.cfg := rfl
  unfold doKred
  simp only [issue_eq, issued_ember, issued_slotsBad, hcfg, hc, hm, hgood, ← hrow, hnone, Bool.false_eq_true, if_false]
  rfl

/-- Settles O25: no row clashes, so every row is stored; the embers beside the first are only read. -/
theorem embersReduced : Obligations.EmbersReduced := by
  intro h w s e0 es hr ho hc hm hne hbad old new hnew
  obtain ⟨e1, es, rfl⟩ := List.exists_cons_of_ne_nil hne
  obtain ⟨hmem, hhearths, hin, hout, hothers⟩ := rowsNoted_stored (s.issued h) _ _ _ _ _ hnew (doKred_eq hc hm hbad hnew fun r => rfl)
  exact ⟨doKred h w s, runWord_next ho hr, hmem, hhearths, hin, fun i hi => hout i (not_mem_namedSlots hi), hothers⟩

/-! ### BSADD -/

/-- Rows of records read from error-free memory: counters move, and there is one row for each. -/
theorem readRecords_clean {h tag : Nat} (n : Nat) {off : Nat} {s u : State} {rows : List (List (Mode × Elem))} (hecc : s.ecc = [])
    (hread : s.readRecords h tag off n = (u, 0, rows)) : CountsOnly s u ∧ rows.length = n := by
  induction n generalizing s off rows with
  | zero =>
    cases hread
    exact ⟨.rfl, rfl⟩
  | succ n ih =>
    rw [State.readRecords] at hread
    rcases hfirst : s.readMem (asBucket s h tag) (hearthAddr h + off) bsRowBytes with ⟨t, c, bs⟩
    rw [hfirst, andRead] at hread
    split at hread
    · rename_i refused
      exact absurd (congrArg (fun r => r.2.1) hread) refused
    · rename_i passed
      obtain rfl : c = 0 := not_not.mp passed
      have ht := (readMem_clean hecc hfirst).1
      rcases hrest : t.readRecords h tag (off + bsRowBytes) n with ⟨v, d, rest⟩
      rw [hrest] at hread
      cases hread
      obtain ⟨hv, hlen⟩ := ih (ht.ecc.trans hecc) hrest
      exact ⟨ht.trans hv, by rw [List.length_cons, hlen]⟩

/-- A list with its places is a range with its elements. -/
theorem zipIdx_map_eq_range {α β : Type} (xs : List α) (d : α) (f : α → Nat → β) :
    xs.zipIdx.map (fun p => f p.1 p.2) = (List.range xs.length).map fun i => f (xs.getD i d) i := by
  refine List.ext_getElem (by simp) fun i hi _ => ?_
  have hi' : i < xs.length := by simpa using hi
  simp [List.getD_eq_getElem?_getD, List.getElem?_eq_getElem hi']

/-- The sum of each row of BSADD. -/
def bsaddRow (s u : State) (h : Nat) (w : BitVec 128) (rows : List (List (Mode × Elem))) (r : Nat) : Option (Slot × Fl × Nat) :=
  addRow u.cfg.active.spill u.random r ((s.ember (emberOf h w)).slot (slotOf w + r)) (rows.getD r [])

/-- BSADD, once its check and its reads succeed: the sums of all rows, or a clash. -/
theorem doBsadd_eq {s u : State} {h : Nat} {w : BitVec 128} {rows : List (List (Mode × Elem))}
    (hecc : s.ecc = []) (hc : (s.issued h).bsaddCheck h w = .ok ()) (hbad : s.slotsBad (emberOf h w) (namedSlots w) = false)
    (hread : (s.issued h).readRecords h (tagOf w) (64 * wf w 62 17) (rowsOf w) = (u, 0, rows)) : doBsadd h w s =
      if ((List.range (rowsOf w)).map fun r => (slotOf w + r, bsaddRow s u h w rows r)).any fun p => p.2.isNone then
        (u.sticky (Reg.EMB_FLAGS_flags h (embOf w)) fMODE).embError h (embOf w) arithMode (tagOf w)
      else (u.putSlots (emberOf h w) ((rowsAdded (slotOf w) (rowsOf w) (bsaddRow s u h w rows)).map fun p => (p.1, p.2.1))).rowsNoted
        (Reg.EMB_FLAGS_flags h (embOf w)) (kilnOf h) (rowsAdded (slotOf w) (rowsOf w) (bsaddRow s u h w rows)) := by
  obtain ⟨hu, hlen⟩ := readRecords_clean (s := s.issued h) _ hecc hread
  have hember : u.ember (emberOf h w) = s.ember (emberOf h w) := by
    unfold State.ember
    rw [hu.stores.embers]
    rfl
  have hgood : u.slotsBad (emberOf h w) (namedSlots w) = false := by
    unfold State.slotsBad at hbad ⊢
    rw [hember]
    exact hbad
  have hrows : (rows.zipIdx.map fun p => (slotOf w + p.2, addRow u.cfg.active.spill u.random p.2
      ((s.ember (emberOf h w)).slot (slotOf w + p.2)) p.1)) =
        (List.range (rowsOf w)).map fun r => (slotOf w + r, bsaddRow s u h w rows r) := by
    rw [← hlen]
    exact zipIdx_map_eq_range rows [] fun x r => (slotOf w + r, addRow u.cfg.active.spill u.random r
      ((s.ember (emberOf h w)).slot (slotOf w + r)) x)
  unfold doBsadd
  simp only [issue_eq, hc, hread, hgood, hember, hrows, Bool.false_eq_true, if_false, ne_eq, not_true]
  rfl

/-! ### The error of an ember -/

/-- Work that fails outside a step leaves memory, embers and registers. -/
theorem workFailed_kept {s : State} (c : Nat) (ho : s.stepOpen = false) :
    (s.workFailed c).mem = s.mem ∧ (s.workFailed c).embers = s.embers ∧ (s.workFailed c).regs = s.regs := by
  unfold State.workFailed
  rw [ho]
  simp only [Bool.false_eq_true, if_false]
  split <;> exact ⟨rfl, rfl, rfl⟩

/-- The first error of an error register shows its code. -/
theorem firstErr_code {s : State} {v c g : Fld} {n m : Nat} (hv : s.isSet v = false) (hc : c.fits) (hg : g.fits) (hvf : v.fits)
    (hcg : g.off = c.off ∧ g.rst = c.rst ∧ c.lo + c.w ≤ g.lo) (hcv : v.off = c.off ∧ v.rst = c.rst ∧ c.lo + c.w ≤ v.lo) :
    (s.firstErr v c n [(g, m)]).get c = n % 2 ^ c.w := by
  unfold State.firstErr
  rw [hv]
  simp only [Bool.false_eq_true, if_false, List.foldl_cons, List.foldl_nil]
  rw [State.get_put_beside _ _ hvf hcv.1 hcv.2.1 (.inl hcv.2.2), State.get_put_beside _ _ hg hcg.1 hcg.2.1 (.inl hcg.2.2),
    State.get_put_self _ _ _ hc]

/-- The blocks of the hearths lie above those of the step. -/
theorem hearthBlock_ge (h : Nat) : 0x1010000 ≤ hearthBlock h := by
  unfold hearthBlock
  omega

/-- The first error of an ember outside a step: its code, and no ember and no byte. -/
theorem embError_first {s : State} {h e : Nat} (c tag : Nat) (ho : s.stepOpen = false)
    (hv : s.isSet (Reg.EMB_ERR_VALID h e) = false) :
    (s.embError h e c tag).mem = s.mem ∧ (s.embError h e c tag).embers = s.embers ∧
      (s.embError h e c tag).get (Reg.EMB_ERR_CODE h e) = c % 2 ^ 16 := by
  have hblock := hearthBlock_ge h
  unfold State.embError
  dsimp only
  generalize hfirst : s.firstErr (Reg.EMB_ERR_VALID h e) (Reg.EMB_ERR_CODE h e) c [(Reg.EMB_ERR_TAG h e, tag)] = t
  generalize hsecond : t.firstErr (Reg.HTH_ERR_VALID h) (Reg.HTH_ERR_CODE h) c
    [(Reg.HTH_ERR_TAG h, tag), (Reg.HTH_ERR_EMB h, e)] = u
  have hcode : t.get (Reg.EMB_ERR_CODE h e) = c % 2 ^ 16 := by
    rw [← hfirst]
    exact firstErr_code hv ⟨Nat.two_pow_pos 64, (by decide : 0 + 16 ≤ 64)⟩ ⟨Nat.two_pow_pos 64, (by decide : 16 + 16 ≤ 64)⟩
      ⟨Nat.two_pow_pos 64, (by decide : 32 + 1 ≤ 64)⟩ ⟨rfl, rfl, (by decide : 0 + 16 ≤ 16)⟩ ⟨rfl, rfl, (by decide : 0 + 16 ≤ 32)⟩
  have htwords : s.WordsKept t [(Reg.EMB_ERR_VALID h e).off] := by
    rw [← hfirst]
    exact State.firstErr_wordsKept _ _ _ _ .rfl List.mem_cons_self List.mem_cons_self (by simp [Reg.EMB_ERR_TAG, Reg.EMB_ERR_VALID])
  have huwords : t.WordsKept u [(Reg.HTH_ERR_VALID h).off] := by
    rw [← hsecond]
    exact State.firstErr_wordsKept _ _ _ _ .rfl List.mem_cons_self List.mem_cons_self
      (by simp [Reg.HTH_ERR_TAG, Reg.HTH_ERR_EMB, Reg.HTH_ERR_VALID])
  have hregs : RegsOnly s u := by
    rw [← hsecond, ← hfirst]
    exact State.firstErr_regsOnly _ _ _ _ (State.firstErr_regsOnly _ _ _ _ .rfl)
  have hstate : u.get Reg.COL_STEP_STATUS_STATE = s.get Reg.COL_STEP_STATUS_STATE := by
    rw [huwords.get (by simp only [Reg.COL_STEP_STATUS_STATE, Reg.HTH_ERR_VALID, List.mem_singleton]; omega),
      htwords.get (by simp only [Reg.COL_STEP_STATUS_STATE, Reg.EMB_ERR_VALID, List.mem_singleton]; omega)]
  have hopen : u.stepOpen = false := by
    unfold State.stepOpen State.stepState at ho ⊢
    rw [hstate]
    exact ho
  obtain ⟨hmem, hembers, hkept⟩ := workFailed_kept c hopen
  refine ⟨hmem.trans hregs.mem, hembers.trans (by rw [hregs]), ?_⟩
  rw [← hcode, ← huwords.get (f := Reg.EMB_ERR_CODE h e)
    (by simp only [Reg.EMB_ERR_CODE, Reg.HTH_ERR_VALID, List.mem_singleton]; omega)]
  unfold State.get State.word
  rw [hkept]

/-- Settles O24: either every row is added and stored, or the first clash fails the instruction before a slot is stored. -/
theorem bucketsAdded : Obligations.BucketsAdded := by
  intro h w s u rows hr ho hecc hc hbad hread old new
  have hdone := doBsadd_eq hecc hc hbad hread
  have hnext : exec (.bsadd h w) s = .next (doBsadd h w s) := runWord_next ho hr
  obtain ⟨hu, -⟩ := readRecords_clean (s := s.issued h) _ hecc hread
  refine ⟨fun hnew => ?sums, fun hclash hopen hvalid => ?clash⟩
  case sums =>
    rw [if_neg fun clash => by
      obtain ⟨r, hlt, hnone⟩ := rows_clash.mp clash
      exact hnew r hlt hnone] at hdone
    obtain ⟨hmem, -, hin, hout, hothers⟩ := rowsNoted_stored u _ _ _ _ _ hnew hdone
    have hember : ∀ e, u.ember e = s.ember e := fun e => by
      unfold State.ember
      rw [hu.stores.embers]
      rfl
    refine ⟨doBsadd h w s, hnext, hmem.trans hu.regs.mem, hin, fun i hi => ?_, fun e he => ?_⟩
    · rw [hout i (not_mem_namedSlots hi), hember]
    · rw [hothers e he, hember]
  case clash =>
    rw [if_pos ((rows_clash (g := bsaddRow s u h w rows)).mpr hclash)] at hdone
    have hblock := hearthBlock_ge h
    have hopenThen : (u.sticky (Reg.EMB_FLAGS_flags h (embOf w)) fMODE).stepOpen = false := by
      unfold State.stepOpen State.stepState at hopen ⊢
      rw [sticky_get_ne _ _ (by simp only [Reg.EMB_FLAGS_flags, Reg.COL_STEP_STATUS_STATE]; omega),
        hu.words.get (by decide), (issued_wordsKept s h).get
          (by simp only [Reg.COL_STEP_STATUS_STATE, Reg.HTH_ISSUE_NEXT, List.mem_singleton]; omega)]
      exact hopen
    have hvalidThen : (u.sticky (Reg.EMB_FLAGS_flags h (embOf w)) fMODE).isSet (Reg.EMB_ERR_VALID h (embOf w)) = false := by
      unfold State.isSet at hvalid ⊢
      rw [sticky_get_ne _ _ (by simp only [Reg.EMB_FLAGS_flags, Reg.EMB_ERR_VALID]; omega)]
      exact hvalid
    obtain ⟨hmem, hembers, hcode⟩ := embError_first arithMode (tagOf w) hopenThen hvalidThen
    obtain ⟨hse, hsm⟩ := sticky_kept u (Reg.EMB_FLAGS_flags h (embOf w)) fMODE
    rw [← hdone] at hmem hembers hcode
    exact ⟨doBsadd h w s, hnext, hmem.trans (hsm.trans hu.regs.mem), hembers.trans (hse.trans hu.stores.embers), hcode⟩

end Sys2Proof.Machine

/-! # Operations of step programs (11_commands_scheduling_events.md, R396 to R405) -/

namespace Sys2Proof.Machine

/-! ### Issue -/

/-- An operation without prefetches, as a command: its work, and what completes by itself after it. -/
theorem runOp_of_issues {s : State} {p : Fin 512} {code : Nat} {op : BitVec 128} {r : ProgRun} {pc : Nat}
    (h : s.Issues p code op r pc) (more : State → Nat) (hm : more s = 0) (work : State → Nat → State) :
    s.runOp code p op more work = .next (work (s.begun p op r pc) r.count).progress := by
  unfold State.runOp
  rw [prog_issue_eq h more hm work]

/-- A run that has ended or stands at a fence may not issue (R399, R405). -/
theorem mayIssue_of_held {s : State} {r : ProgRun} {op : BitVec 128} {n : Nat}
    (h : r.ended = true ∨ ∃ f ∈ r.flight, isFence f.op = true) : s.mayIssue r op n = false := by
  unfold State.mayIssue
  rcases h with hended | hfence
  · rw [hended]
    rfl
  · rw [List.any_eq_true.mpr hfence]
    simp

/-- Settles O27: an operation that may issue is launched behind its counter; a run that is held issues nothing. -/
theorem operationIssues : Obligations.OperationIssues := by
  refine ⟨fun s p code op r pc work h => ?issues, fun s p code op r work hrun hheld => ?held⟩
  case issues =>
    obtain ⟨hrun, honly, hothers⟩ := prog_begun_run h
    exact ⟨prog_issue_eq h alone rfl work, hrun, honly, hothers⟩
  case held =>
    unfold State.issueOp
    rw [hrun]
    dsimp only
    split
    · rfl
    · rw [if_pos]
      rw [mayIssue_of_held hheld]
      simp

/-! ### What runs leave -/

theorem State.OnlyRuns.cfg {s t : State} (h : s.OnlyRuns t) : t.cfg = s.cfg := by
  unfold State.OnlyRuns at h
  rw [h]

theorem State.OnlyRuns.regs {s t : State} (h : s.OnlyRuns t) : t.regs = s.regs := by
  unfold State.OnlyRuns at h
  rw [h]

theorem State.OnlyRuns.step {s t : State} (h : s.OnlyRuns t) : t.step = s.step := by
  unfold State.OnlyRuns at h
  rw [h]

theorem State.OnlyRuns.timers {s t : State} (h : s.OnlyRuns t) : t.col.timers = s.col.timers := by
  unfold State.OnlyRuns at h
  rw [h]

theorem get_of_regs {s t : State} (h : t.regs = s.regs) (f : Fld) : t.get f = s.get f := by
  unfold State.get State.word
  rw [h]

theorem gnormOf_of_cfg {s t : State} (h : t.cfg = s.cfg) (m : Nat) : t.gnormOf m = s.gnormOf m := by
  unfold State.gnormOf State.programOps
  rw [h]

/-- An operation whose run changed while it was in flight completes. -/
theorem opDone_changed {s t : State} {p code : Nat} {op : BitVec 128} {r x : ProgRun} {pc : Nat} (h : s.Issues p code op r pc)
    (hrun : t.run p = some x) (hflight : x.flight = (r.issued pc op).flight) (heval : x.eval = r.eval) (hmain : x.main = r.main)
    (hid : x.id = p) (hcfg : t.cfg = s.cfg) :
    (t.opDone p r.count 0).run p = some { x with flight := (r.past pc).flight } ∧ t.OnlyRuns (t.opDone p r.count 0) := by
  have hloss : x.eval = true ∨ t.gnormOf x.main = none := by
    rw [heval, hmain, gnormOf_of_cfg hcfg]
    exact h.loss
  rw [prog_opDone_past hrun hflight hloss]
  exact ⟨prog_run_setRun hrun hid, rfl⟩

/-- An operation that changes its run and completes. -/
theorem opDone_onRun {s : State} {p code : Nat} {op : BitVec 128} {r : ProgRun} {pc : Nat} (h : s.Issues p code op r pc)
    (f : ProgRun → ProgRun) (hflight : (f (r.issued pc op)).flight = (r.issued pc op).flight)
    (heval : (f (r.issued pc op)).eval = r.eval) (hmain : (f (r.issued pc op)).main = r.main) (hid : (f (r.issued pc op)).id = r.id) :
    let u := ((s.begun p op r pc).onRun p f).opDone p r.count 0
    s.OnlyRuns u ∧ u.run p = some { f (r.issued pc op) with flight := (r.past pc).flight } := by
  obtain ⟨hrun, honly, -⟩ := prog_begun_run h
  obtain ⟨hchanged, hmore⟩ := prog_onRun_run (f := f) hrun (hid.trans (prog_run_id h.run))
  have hboth := prog_only_trans honly hmore
  obtain ⟨hdone, hlast⟩ := opDone_changed h hchanged hflight heval hmain (hid.trans (prog_run_id h.run)) hboth.cfg
  exact ⟨prog_only_trans hboth hlast, hdone⟩

/-! ### END, CALL, RET and SCHED -/

theorem schedEntry_congr {s t : State} (hcfg : t.cfg = s.cfg) (p i : Nat) : t.schedEntry p i = s.schedEntry p i := by
  unfold State.schedEntry State.schedule
  rw [hcfg]

/-- The prefetches of entries depend on the configuration and the main program of the run. -/
theorem prefetches_congr {s t : State} {p : Nat} {r x : ProgRun} (hs : s.run p = some r) (ht : t.run p = some x)
    (hmain : x.main = r.main) (hcfg : t.cfg = s.cfg) (is : List Nat) : t.prefetches p is = s.prefetches p is := by
  unfold State.prefetches
  refine congrArg (List.flatMap · is) (funext fun i => ?_)
  rw [hs, ht, schedEntry_congr hcfg]
  cases s.schedEntry p i with
  | none => rfl
  | some e =>
    dsimp only
    rw [hmain, show t.programOps r.main = s.programOps r.main by unfold State.programOps; rw [hcfg]]

theorem firstPrefetches_congr {s t : State} {p : Nat} {r x : ProgRun} (hs : s.run p = some r) (ht : t.run p = some x)
    (hmain : x.main = r.main) (hcfg : t.cfg = s.cfg) : t.firstPrefetches p = s.firstPrefetches p := by
  unfold State.firstPrefetches State.schedule
  simp only [prefetches_congr hs ht hmain hcfg, hcfg]

theorem entryPrefetches_congr {s t : State} {p : Nat} {r x : ProgRun} (hs : s.run p = some r) (ht : t.run p = some x)
    (hmain : x.main = r.main) (hcfg : t.cfg = s.cfg) (i : Nat) : t.entryPrefetches p i = s.entryPrefetches p i := by
  unfold State.entryPrefetches State.schedule
  simp only [prefetches_congr hs ht hmain hcfg, hcfg]

/-- A RET outside the schedule sets off no prefetches. -/
theorem retPrefetches_plain {s : State} {p : Nat} {r : ProgRun} {b : ReturnPoint} {rest : List ReturnPoint} (hrun : s.run p = some r)
    (hstack : r.stack = b :: rest) (hb : b.entry = none) : s.retPrefetches p = [] := by
  obtain ⟨prog, pc, entry⟩ := b
  subst hb
  unfold State.retPrefetches
  simp only [hrun, hstack]

/-- A RET from an entry of the schedule sets off those of the next, if there is one. -/
theorem retPrefetches_entry {s : State} {p i : Nat} {r : ProgRun} {b : ReturnPoint} {rest : List ReturnPoint} (hrun : s.run p = some r)
    (hstack : r.stack = b :: rest) (hb : b.entry = some i) :
    s.retPrefetches p = if (s.schedEntry p (i + 1)).isSome then s.entryPrefetches p (i + 1) else [] := by
  obtain ⟨prog, pc, entry⟩ := b
  subst hb
  unfold State.retPrefetches
  simp only [hrun, hstack]

/-- No prefetches, nothing issued. -/
theorem issuePrefetches_nil (p : Nat) (s : State) : s.issuePrefetches p [] = s := rfl

/-- Entering an entry of the schedule that exists. -/
theorem enterEntry_some {s : State} {p i : Nat} {e : SchedEntry} (he : s.schedEntry p i = some e) (b : ReturnPoint)
    (rest : List ReturnPoint) : s.enterEntry p i b rest =
      s.onRun p fun r => { r with prog := b.prog, pc := e.body / 16, stack := { b with entry := some i } :: rest } := by
  unfold State.enterEntry
  rw [he]

/-- Entering an entry behind the last goes to where SCHED stood. -/
theorem enterEntry_none {s : State} {p i : Nat} (he : s.schedEntry p i = none) (b : ReturnPoint) (rest : List ReturnPoint) :
    s.enterEntry p i b rest = s.onRun p fun r => { r with prog := b.prog, pc := b.pc, stack := rest } := by
  unfold State.enterEntry
  rw [he]

/-- An operation completes, and then its run changes. -/
theorem onRun_opDone {s : State} {p code : Nat} {op : BitVec 128} {r : ProgRun} {pc : Nat} (h : s.Issues p code op r pc)
    (f : ProgRun → ProgRun) (hid : (f (r.past pc)).id = r.id) :
    let u := ((s.begun p op r pc).opDone p r.count 0).onRun p f
    s.OnlyRuns u ∧ u.run p = some (f (r.past pc)) := by
  obtain ⟨v, rfl, hrun, honly, -⟩ := prog_done_begun h
  obtain ⟨hchanged, hmore⟩ := prog_onRun_run (f := f) hrun (hid.trans (prog_run_id h.run))
  exact ⟨prog_only_trans honly hmore, hchanged⟩

theorem exec_progEnd {s : State} {p : Fin 512} {op : BitVec 128} {r : ProgRun} {pc : Nat} (h : s.Issues p 0x00 op r pc) :
    ∃ u : State, exec (.progEnd p op) s = .next u.progress ∧ s.OnlyRuns u ∧ u.run p = some { r.past pc with ended := true } :=
  ⟨_, runOp_of_issues h alone rfl _, opDone_onRun h (fun r => { r with ended := true }) rfl rfl rfl rfl⟩

theorem exec_call {s : State} {p : Fin 512} {op : BitVec 128} {r : ProgRun} {pc : Nat} (h : s.Issues p 0x0E op r pc) :
    ∃ u : State, exec (.call p op) s = .next u.progress ∧ s.OnlyRuns u ∧ u.run p =
      some { r.past pc with prog := bits (sArg op) 0 32, pc := 0, stack := ⟨r.prog, pc + 1, none⟩ :: r.stack } :=
  ⟨_, runOp_of_issues h alone rfl _, onRun_opDone h (fun r =>
    { r with prog := bits (sArg op) 0 32, pc := 0, stack := ⟨r.prog, r.pc, none⟩ :: r.stack }) rfl⟩

/-- The work of RET: where the completed operation's run goes on. -/
theorem exec_ret {s : State} {p : Fin 512} {op : BitVec 128} {r : ProgRun} {pc : Nat} (h : s.Issues p 0x0D op r pc)
    (hnone : s.retPrefetches p = []) : exec (.ret p op) s = .next (
      let v := (s.begun p op r pc).opDone p r.count 0
      match r.stack with
      | [] => v
      | b :: rest => match b.entry with
        | none => v.onRun p fun r => { r with prog := b.prog, pc := b.pc, stack := rest }
        | some i => (v.enterEntry p (i + 1) b rest).issuePrefetches p (v.retPrefetches p)).progress := by
  obtain ⟨v, hv, hrun, -, -⟩ := prog_done_begun h
  refine (runOp_of_issues h (fun s => (s.retPrefetches p).length) (by rw [hnone]; rfl) _).trans ?_
  dsimp only
  rw [hv]
  simp only [hrun]
  rfl

theorem exec_ret_plain {s : State} {p : Fin 512} {op : BitVec 128} {r : ProgRun} {pc : Nat} {b : ReturnPoint}
    {rest : List ReturnPoint} (h : s.Issues p 0x0D op r pc) (hstack : r.stack = b :: rest) (hb : b.entry = none) :
    ∃ u : State, exec (.ret p op) s = .next u.progress ∧ s.OnlyRuns u ∧
      u.run p = some { r.past pc with prog := b.prog, pc := b.pc, stack := rest } := by
  refine ⟨_, ?_, onRun_opDone h (fun r => { r with prog := b.prog, pc := b.pc, stack := rest }) rfl⟩
  rw [exec_ret h (retPrefetches_plain h.run hstack hb), hstack]
  simp only [hb]

/-- RET from the body of an entry of the schedule, without prefetches for the next. -/
theorem exec_ret_entry {s : State} {p : Fin 512} {op : BitVec 128} {r : ProgRun} {pc i : Nat} {b : ReturnPoint}
    {rest : List ReturnPoint} (h : s.Issues p 0x0D op r pc) (hstack : r.stack = b :: rest) (hb : b.entry = some i)
    (hnone : s.retPrefetches p = []) : exec (.ret p op) s =
      .next (((s.begun p op r pc).opDone p r.count 0).enterEntry p (i + 1) b rest).progress := by
  obtain ⟨v, hv, hrun, -, hcfg⟩ := prog_done_begun h
  have hpast : (r.past pc).stack = b :: rest := hstack
  have hnoneThen : v.retPrefetches p = [] := by
    rw [retPrefetches_entry hrun hpast hb, schedEntry_congr hcfg, entryPrefetches_congr h.run hrun rfl hcfg,
      ← retPrefetches_entry h.run hstack hb]
    exact hnone
  rw [exec_ret h hnone, hstack]
  simp only [hb, hv, hnoneThen, issuePrefetches_nil]

theorem exec_sched {s : State} {p : Fin 512} {op : BitVec 128} {r : ProgRun} {pc : Nat} {e : SchedEntry}
    (h : s.Issues p 0x0C op r pc) (hnone : s.firstPrefetches p = []) (he : s.schedEntry p 0 = some e) :
    ∃ u : State, exec (.sched p op) s = .next u.progress ∧ s.OnlyRuns u ∧
      u.run p = some { r.past pc with pc := e.body / 16, stack := ⟨r.prog, pc + 1, some 0⟩ :: r.stack } := by
  obtain ⟨v, hv, hrun, -, hcfg⟩ := prog_done_begun h
  have hnoneThen : v.firstPrefetches p = [] := (firstPrefetches_congr h.run hrun rfl hcfg).trans hnone
  have hentry : v.schedEntry p 0 = some e := (schedEntry_congr hcfg p 0).trans he
  refine ⟨_, ?_, onRun_opDone h (fun x =>
    { x with prog := r.prog, pc := e.body / 16, stack := ⟨r.prog, pc + 1, some 0⟩ :: r.stack }) rfl⟩
  refine (runOp_of_issues h (fun s => (s.firstPrefetches p).length) (by rw [hnone]; rfl) _).trans ?_
  dsimp only
  rw [hv]
  simp only [hrun, hnoneThen, issuePrefetches_nil, enterEntry_some hentry]
  rfl

/-- Settles O28, operation by operation. -/
theorem controlOperations : Obligations.ControlOperations := by
  refine ⟨fun p op s r pc => ⟨exec_progEnd, exec_call, fun b rest h hstack hb => exec_ret_plain h hstack hb,
    fun e h hnone he => exec_sched h hnone he⟩, fun p op s r pc i b rest h hstack hb => ⟨fun e he hnone => ?next, fun he => ?last⟩⟩
  all_goals
    obtain ⟨v, hv, -, -, hcfg⟩ := prog_done_begun h
    have hret := retPrefetches_entry h.run hstack hb
    rw [he] at hret
  case next =>
    have hentry : v.schedEntry p (i + 1) = some e := (schedEntry_congr hcfg p (i + 1)).trans he
    refine ⟨_, ?_, onRun_opDone h (fun r =>
      { r with prog := b.prog, pc := e.body / 16, stack := { b with entry := some (i + 1) } :: rest }) rfl⟩
    rw [exec_ret_entry h hstack hb (hret.trans hnone), hv, enterEntry_some hentry]
  case last =>
    have hentry : v.schedEntry p (i + 1) = none := (schedEntry_congr hcfg p (i + 1)).trans he
    refine ⟨_, ?_, onRun_opDone h (fun r => { r with prog := b.prog, pc := b.pc, stack := rest }) rfl⟩
    rw [exec_ret_entry h hstack hb hret, hv, enterEntry_none hentry]

/-! ### Fences, WAITMB and TWAIT -/

/-- Whether a step or run is void does not depend on what is in flight. -/
theorem runVoid_begun {s : State} {p code : Nat} {op : BitVec 128} {r : ProgRun} {pc : Nat} (h : s.Issues p code op r pc) :
    (s.begun p op r pc).runVoid p = s.runVoid p := by
  obtain ⟨hrun, honly, -⟩ := prog_begun_run h
  unfold State.runVoid State.isEval State.voided State.isSet
  rw [hrun, h.run, honly.step, get_of_regs honly.regs]
  rfl

/-- Settles O29: what stays in flight is left as it was issued, and what does not wait completes. -/
theorem waitingOperations : Obligations.WaitingOperations := by
  intro p op s r pc
  refine ⟨fun h => ?dfence, fun h => ?mfence, fun h => ?waitmb, fun h => ?twait⟩
  all_goals obtain ⟨hrun, honly, -⟩ := prog_begun_run h
  case dfence => exact ⟨_, runOp_of_issues h alone rfl _, honly, hrun⟩
  case mfence => exact ⟨_, runOp_of_issues h alone rfl _, honly, hrun⟩
  case waitmb =>
    obtain ⟨u, hu, hpast, hdone, -⟩ := prog_done_begun h
    refine ⟨_, runOp_of_issues h alone rfl _, ?_⟩
    rw [runVoid_begun h, hu]
    split
    · exact ⟨hdone, hpast⟩
    · exact ⟨honly, hrun⟩
  case twait =>
    obtain ⟨u, hu, hpast, hdone, -⟩ := prog_done_begun h
    refine ⟨_, runOp_of_issues h alone rfl _, ?_⟩
    rw [honly.timers, hu]
    split
    · exact ⟨honly, hrun⟩
    · exact ⟨hdone, hpast⟩

end Sys2Proof.Machine

/-! # Timers, pins, swaps, owners and hearth operations of step programs (11_commands_scheduling_events.md, R278, R398, R405) -/

namespace Sys2Proof.Machine

/-! ### Timers and pins -/

/-- An operation that changes something beside the runs and the configuration, and completes. -/
theorem opDone_beside {s t : State} {p code : Nat} {op : BitVec 128} {r : ProgRun} {pc : Nat} (h : s.Issues p code op r pc)
    (hruns : t.col.runs = (s.begun p op r pc).col.runs) (hcfg : t.cfg = s.cfg) :
    (t.opDone p r.count 0).run p = some (r.past pc) ∧ t.OnlyRuns (t.opDone p r.count 0) := by
  have hrun : t.run p = some (r.issued pc op) := by
    unfold State.run
    rw [hruns]
    exact (prog_begun_run h).1
  exact opDone_changed h hrun rfl rfl rfl (show r.id = p from prog_run_id h.run) hcfg

theorem isEval_of_run {s : State} {p : Nat} {r : ProgRun} (h : s.run p = some r) : s.isEval p = r.eval := by
  unfold State.isEval
  rw [h]

/-- The stoke counter is a register. -/
theorem now_of_regs {s t : State} (h : t.regs = s.regs) : t.now = s.now := get_of_regs h _

/-- What TIMER changes beside its run. -/
def State.armTimer (s : State) (p : Nat) (op : BitVec 128) : State :=
  { s with col := { s.col with
    timers := sput s.col.timers (bits (sArg op) 0 6) (s.now + bits (sArg op) 32 32, !s.isEval p)
    expired := s.col.expired.filter (· != bits (sArg op) 0 6) } }

/-- What PIN changes beside its run. -/
def State.setPin (s : State) (op : BitVec 128) : State :=
  { s with pins := { s.pins with next := sput s.pins.next (bits (sArg op) 0 4) (bit (sArg op) 8) } }

/-- Settles O30: each of the operations changes its timer or pin and completes; the expiry of a timer completes its waits. -/
theorem timersAndPins : Obligations.TimersAndPins := by
  intro p op s r pc
  refine ⟨fun h => ?timer, fun h => ?pin, fun i at_ st harmed hdue => ?expiry, fun i at_ st harmed hearly => ?early⟩
  case timer =>
    obtain ⟨hrun, honly, -⟩ := prog_begun_run h
    have hcol : (s.begun p op r pc).col = { s.col with runs := (s.begun p op r pc).col.runs } := by
      unfold State.OnlyRuns at honly
      rw [honly]
    obtain ⟨hpast, hdone⟩ := opDone_beside (t := (s.begun p op r pc).armTimer p op) h rfl honly.cfg
    have htimers : (((s.begun p op r pc).armTimer p op).opDone p r.count 0).col.timers =
        sput s.col.timers (bits (sArg op) 0 6) (s.now + bits (sArg op) 32 32, !r.eval) := by
      rw [hdone.timers]
      show sput (s.begun p op r pc).col.timers _ _ = _
      rw [hcol, now_of_regs honly.regs, isEval_of_run hrun]
      rfl
    refine ⟨((s.begun p op r pc).armTimer p op).opDone p r.count 0, runOp_of_issues h alone rfl _, hpast, ?_, fun k hk => ?_, ?_,
      hdone.regs.trans honly.regs, ?_, ?_⟩
    · rw [htimers]
      exact sfind_sput_self _ _ _
    · rw [htimers]
      exact sfind_sput_ne _ _ (Ne.symm hk)
    · unfold State.OnlyRuns at hdone
      rw [hdone]
      simp [State.armTimer]
    · unfold State.OnlyRuns at hdone honly
      rw [hdone]
      show (s.begun p op r pc).mem = s.mem
      rw [honly]
    · unfold State.OnlyRuns at hdone honly
      rw [hdone]
      show (s.begun p op r pc).pins = s.pins
      rw [honly]
  case pin =>
    obtain ⟨hrun, honly, -⟩ := prog_begun_run h
    have hpins : (s.begun p op r pc).pins = s.pins := by
      unfold State.OnlyRuns at honly
      rw [honly]
    obtain ⟨hpast, hdone⟩ := opDone_beside (t := (s.begun p op r pc).setPin op) h rfl honly.cfg
    have hnext : (((s.begun p op r pc).setPin op).opDone p r.count 0).pins.next =
        sput s.pins.next (bits (sArg op) 0 4) (bit (sArg op) 8) := by
      unfold State.OnlyRuns at hdone
      rw [hdone]
      show sput (s.begun p op r pc).pins.next _ _ = _
      rw [hpins]
    refine ⟨((s.begun p op r pc).setPin op).opDone p r.count 0, runOp_of_issues h alone rfl _, hpast, ?_, fun k hk => ?_,
      hdone.regs.trans honly.regs, ?_, hdone.timers.trans honly.timers⟩
    · rw [hnext]
      exact sfind_sput_self _ _ _
    · rw [hnext]
      exact sfind_sput_ne _ _ (Ne.symm hk)
    · unfold State.OnlyRuns at hdone honly
      rw [hdone]
      show (s.begun p op r pc).mem = s.mem
      rw [honly]
  case expiry =>
    refine ⟨_, { s with col := { s.col with timers := sdel s.col.timers i, expired := i.val :: s.col.expired } }, ?_, rfl,
      sfind_sdel_self _ _, List.mem_cons_self, rfl, rfl, fun k hk => sfind_sdel_ne _ (Ne.symm hk)⟩
    show execTimerExpiry i s = _
    unfold execTimerExpiry
    simp only [harmed, if_neg (not_lt.mpr hdue)]
    rfl
  case early =>
    show execTimerExpiry i s = _
    unfold execTimerExpiry
    simp only [harmed, if_pos hearly]

/-! ### Table swaps and owners -/

/-- An operation that completes, of a run whose loss nobody watches, leaves everything but the runs. -/
theorem opDone_unwatched {s : State} {p : Nat} {r : ProgRun} (seq : Nat) (hrun : s.run p = some r)
    (hloss : r.eval = true ∨ s.gnormOf r.main = none) : s.OnlyRuns (s.opDone p seq 0) := by
  unfold State.opDone
  rw [hrun]
  dsimp only
  split
  · rfl
  · rw [if_pos rfl]
    unfold State.watchLoss
    split
    · rfl
    · rename_i watched
      rcases hloss with heval | hgnorm
      · simp [heval] at watched
      · rw [show (s.setRun { r with flight := r.flight.filter (·.seq != seq) }).gnormOf r.main = none from hgnorm]
        rfl

/-- The owner of the region that OWNER names is changed. -/
def State.ownerSet (s : State) (op : BitVec 128) (g : Region) : State :=
  { s with cfg := { s.cfg with active := { s.cfg.active with
    regions := s.cfg.active.regions.set (bits (sArg op) 0 14) { g with owner := BitVec.ofNat 32 (sArg op / 2 ^ 32) } } } }

/-- Settles O31: TSWAP and OWNER join what waits in their run; a passed MFENCE changes the region that OWNER names. -/
theorem swapsAndOwners : Obligations.SwapsAndOwners := by
  refine ⟨fun p op s r pc => ⟨fun h hlo hhi hslot => ?tswap, fun g h hregion howner => ?owner⟩,
    fun s x r op g hrun hop hswaps howners hloss hregion => ?fence⟩
  case tswap =>
    refine ⟨_, (runOp_of_issues h alone rfl _).trans ?_,
      opDone_onRun h (fun r => { r with swaps := r.swaps ++ [op] }) rfl rfl rfl rfl⟩
    rw [if_pos (decide_eq_true ⟨hlo, hhi, hslot⟩)]
  case owner =>
    obtain ⟨-, honly, -⟩ := prog_begun_run h
    refine ⟨_, (runOp_of_issues h alone rfl _).trans ?_,
      opDone_onRun h (fun r => { r with owners := r.owners ++ [op] }) rfl rfl rfl rfl⟩
    rw [honly.cfg, hregion]
    dsimp only
    rw [if_pos howner]
  case fence =>
    intro t
    have hid := prog_run_id hrun
    have howner : s.runOwner op = s.ownerSet op g := by
      unfold State.runOwner
      simp only [hregion]
      rfl
    have hset := prog_run_setRun (s := s.ownerSet op g) (r := { r with swaps := [], owners := [] }) hrun hid
    have ht : t = ((s.ownerSet op g).setRun { r with swaps := [], owners := [] }).opDone x.1.id x.2.seq 0 := by
      show s.passFence 0 x = _
      unfold State.passFence
      simp only [hrun, hop, hswaps, howners, List.foldl_nil, List.foldl_cons, beq_self_eq_true, if_true, howner, hid]
    have honly := opDone_unwatched x.2.seq hset hloss
    rw [← ht] at honly
    refine ⟨by rw [honly.cfg]; rfl, honly.regs, ?_⟩
    unfold State.OnlyRuns at honly
    rw [honly]
    rfl

/-! ### RUNH, ROUTE, DISPATCH and COMBINE -/

/-- Clearing idle counts gates and wakes no kiln. -/
theorem touch_gated (s : State) (p : Nat) (op : BitVec 128) (k : Nat) : ((s.touch p op).kiln k).gated = (s.kiln k).gated := by
  have hclear : ∀ (ks : List Nat) (t : State),
      ((ks.foldl (fun t k => t.setKiln k { t.kiln k with idle := 0 }) t).kiln k).gated = (t.kiln k).gated := by
    intro ks
    induction ks with
    | nil => exact fun _ => rfl
    | cons j ks ih =>
      intro t
      rw [List.foldl_cons, ih]
      by_cases hj : j = k
      · subst hj
        rw [State.kiln_setKiln]
      · rw [State.kiln_setKiln_ne _ _ hj]
  unfold State.touch
  split
  · exact hclear _ s
  · rfl

/-- Issuing gates and wakes no kiln. -/
theorem anyGated_begun {s : State} {p : Nat} {op : BitVec 128} {r : ProgRun} {pc : Nat} (h : s.run p = some r) (ks : Nat) :
    (s.begun p op r pc).anyGated ks = s.anyGated ks := by
  have hgated : ∀ k, ((s.begun p op r pc).kiln k).gated = (s.kiln k).gated := fun k => by
    unfold State.begun State.launch
    rw [h]
    exact touch_gated _ p op k
  unfold State.anyGated
  simp only [hgated]

theorem opKilns_of_cfg {s t : State} (h : t.cfg = s.cfg) (p : Nat) (op : BitVec 128) : t.opKilns p op = s.opKilns p op := by
  unfold State.opKilns State.stageKilns
  rw [h]

/-- An operation on hearths at issue: void it completes; else, with no kiln of its own gated, its work and completion. -/
theorem startHearths_of_issues {s : State} {p : Fin 512} {code : Nat} {op : BitVec 128} {r : ProgRun} {pc : Nat}
    (h : s.Issues p code op r pc) (l : List RemotePair) {o : Host.Outcome State Fault Refusal}
    (ho : o = s.runOp code p op alone fun s seq => s.startHearths p seq op l) :
    (s.runVoid p = true → ∃ u : State, o = .next u.progress ∧ s.OnlyRuns u ∧ u.run p = some (r.past pc)) ∧
    (s.runVoid p = false → s.anyGated (s.opKilns p op) = false → ∃ t, ∃ w : State, ∃ c, o = .next t ∧
      (s.begun p op r pc).hearthWork p op l = (w, c) ∧ t = (w.opDone p r.count c).progress) := by
  obtain ⟨-, honly, -⟩ := prog_begun_run h
  obtain ⟨u, hu, hpast, hdone, -⟩ := prog_done_begun h
  rw [runOp_of_issues h alone rfl] at ho
  unfold State.startHearths at ho
  rw [runVoid_begun h, opKilns_of_cfg honly.cfg, anyGated_begun h.run, hu] at ho
  refine ⟨fun hvoid => ⟨u, ?_, hdone, hpast⟩, fun hvoid hgated => ?_⟩
  · rw [ho, if_pos hvoid]
  · refine ⟨_, _, _, ?_, rfl, rfl⟩
    rw [ho, hvoid, hgated]
    rfl

/-- The next word of a stream that its hearth reads. -/
theorem runWords_succ {s u : State} {h n at_ : Nat} {bs : List Byte} (hfit : at_ + 16 ≤ hearthBytes)
    (hread : s.hRead h 0 at_ 16 = (u, 0, bs)) :
    runWords h (n + 1) at_ s = runWords h n (at_ + 16) (doWord h (BitVec.ofNat 128 (leNat bs)) u) := by
  rw [runWords]
  unfold State.fetch
  rw [if_neg (not_lt.mpr hfit), hread]
  rfl

/-- Settles O32: the four operations start alike; RUNH is its streams, hearth by hearth. -/
theorem hearthOperations : Obligations.HearthOperations := by
  refine ⟨fun p op l s r pc i hi h => ?start, fun s p op hop => ⟨?streams, fun h n at_ u bs => runWords_succ⟩⟩
  case start =>
    simp only [List.mem_cons, List.not_mem_nil, or_false] at hi
    rcases hi with rfl | rfl | rfl | rfl
    · exact startHearths_of_issues h [] rfl
    · exact startHearths_of_issues h [] rfl
    · exact startHearths_of_issues h l rfl
    · exact startHearths_of_issues h l rfl
  case streams =>
    unfold State.hearthWork
    rw [hop]
    rfl

end Sys2Proof.Machine

/-! # Taking a command and fetching the next (11_commands_scheduling_events.md, R387) -/

namespace Sys2Proof.Machine

/-- A started module whose submission queue 0 has two commands, of which the first lies in the last 64 bytes of the live tier and
the second where nothing is mapped. -/
def lastEntryTaken : State :=
  ((((State.reset.put Reg.PWR_STATUS_READY 1).put (Reg.COL_SQ_CTL_LOG2ENT 0) 4).put (Reg.COL_SQ_CTL_EN 0) 1).put
    (Reg.COL_SQ_TAIL_TAIL 0) 2).put (Reg.COL_SQ_BASE_ADDR 0) (0x3FFFFFFFFC0 / 64)

/-- The command at the head may be taken: the statement's words speak of this state. -/
theorem lastEntryTaken_canTake : lastEntryTaken.canTake 0 0 = true := by decide +kernel

/-- Refutes O35: in `lastEntryTaken`, whose head holds the descriptor 0 and may be taken, the fetch of the next descriptor fails
and sets FAULT (R387, R516), so that COL_SQ_CTL changes beside COL_SQ_HEAD. -/
theorem not_commandsTakenOrRefused : ¬ Obligations.CommandsTakenOrRefused := by
  intro h
  obtain ⟨-, -, -, -, -, -, -, hwords⟩ := h.1 lastEntryTaken 0 0
  have hkept := hwords (Reg.COL_SQ_CTL_FAULT 0).off 0 (by decide)
  have hbefore : lastEntryTaken.word (Reg.COL_SQ_CTL_FAULT 0).off 0 = 0x104 := by decide
  have hafter : (lastEntryTaken.takeHead 0 0).word (Reg.COL_SQ_CTL_FAULT 0).off 0 = 0x304 := by decide
  rw [hbefore] at hkept
  exact absurd (hafter.symm.trans hkept) (by decide)

end Sys2Proof.Machine

/-! # Host commands that are accepted, doorbells and queue enables (11_commands_scheduling_events.md, R386 to R394) -/

namespace Sys2Proof.Machine

/-! ### What an accepted command does -/

/-- A command that no check refuses and that need not wait is taken, and does its work. -/
theorem hostCommand_of_accepts {s : State} {q opc : Nat} {d : BitVec 512} (h : s.Accepts q d opc) {mustWait : State → Bool}
    (hwait : mustWait s = false) (work : State → Started → State) :
    s.hostCommand opc q d mustWait work = (work (s.takeHead q d) (s.startOf q d)).settle := by
  have hstart : ¬(dOpc d ≠ opc || !s.canTake q d) = true := by simp [h.opcode, h.takes]
  unfold State.hostCommand
  rw [if_neg hstart, h.sound, hwait]
  rfl

/-- Work whose reads do not go to the host is done at once. -/
theorem afterRead_now {s : State} {a n : Nat} (h : touchesWindow a n = false ∨ s.windowOpen = false) (c : Started)
    (work : State → Started → State) : s.afterRead c a n work = work s c := by
  unfold State.afterRead
  rcases h with h | h <;> simp [h]

/-! ### LOAD_CONFIG and CONFIG_SWITCH -/

/-- LOAD_CONFIG that need not wait does the check pass. -/
theorem exec_loadConfig {q : Fin 64} {d : BitVec 512} {s : State} (h : s.Accepts q d 0x01) (hload : s.loading = false)
    (hbusy : s.isSet Reg.BNK_STATUS_BUSY = false)
    (hwin : touchesWindow (dField d 8 8) 64 = false ∨ (s.takeHead q d).windowOpen = false) :
    exec (.loadConfig q d) s = .next (loadWork (s.takeHead q d) (s.startOf q d)).settle := by
  refine congrArg Host.Outcome.next ((hostCommand_of_accepts h ?_ _).trans (congrArg State.settle (afterRead_now hwin _ _)))
  simp [hload, hbusy]

/-- The check pass in a step or an evaluation (R378). -/
theorem loadWork_busy {s : State} (c : Started) (h : s.stepOpen = true ∨ s.evaluating = true) : loadWork s c = s.complete c cfgBusy :=
  if_pos (by simpa using h)

/-- The load of the base configuration (R382). -/
theorem loadWork_base {s : State} {c : Started} (hopen : s.stepOpen = false) (heval : s.evaluating = false)
    (hbase : bit (dField c.desc 16 1) 0 = true) :
    loadWork s c = s.beginLoad ⟨c.sq, c.cid, 0, 0, false, true, 2 ^ 32 - 1, s.baseBank, [], 0, List.replicate 64 0, false, 0⟩ := by
  unfold loadWork
  rw [hopen, heval]
  exact if_pos hbase

/-- The check pass of an image whose header was read (R375). -/
theorem loadWork_header {s u : State} {c : Started} {h : List Byte} (hopen : s.stepOpen = false) (heval : s.evaluating = false)
    (hbase : bit (dField c.desc 16 1) 0 = false)
    (hread : s.readMem { asHost with tag := c.cid } (dField c.desc 8 8) 64 = (u, 0, h)) : loadWork s c =
      match checkHeader h with
      | .error e => u.loadFailed c e
      | .ok _ =>
        let r := u.readMem { asHost with tag := c.cid } (dField c.desc 8 8) (fieldAt h 24 8)
        if r.2.1 ≠ 0 then r.1.complete c r.2.1
        else match checkImage r.1 r.2.2 with
          | .error e => r.1.loadFailed c e
          | .ok (bank, tables) => r.1.beginLoad (loadingOf c (dField c.desc 8 8) r.2.2 bank tables) := by
  unfold loadWork loadWork.hostReader
  simp only [hopen, heval, hbase, hread, Bool.or_self, Bool.false_eq_true, if_false, ne_eq, not_true] <;> rfl

/-- The descriptor of the command that a descriptor starts. -/
theorem startOf_desc (s : State) (q : Nat) (d : BitVec 512) : (s.startOf q d).desc = d := rfl

theorem startOf_cid (s : State) (q : Nat) (d : BitVec 512) : (s.startOf q d).cid = dCid d := rfl

/-- Settles O40: the check pass branches as the clauses say, and so does the switch. -/
theorem configurationCommands : Obligations.ConfigurationCommands := by
  refine ⟨fun q d s u v h img hacc hload hbusy hwin => ?load, fun s l c hl hidle hfind hrole => ?switch⟩
  case load =>
    intro w c
    rw [exec_loadConfig hacc hload hbusy hwin]
    refine ⟨fun hstep => ?busy, fun hopen heval hbase => ?base, fun hopen heval hbase hread => ?image⟩
    case busy => rw [loadWork_busy _ hstep]
    case base => exact ⟨_, by rw [loadWork_base (c := c) hopen heval hbase], rfl, rfl⟩
    case image =>
      rw [loadWork_header (c := c) hopen heval hbase hread]
      refine ⟨fun e he => ?_, fun x hx himg => ⟨fun e he => ?_, fun bank tables hok => ?_⟩⟩
      · rw [he]
      · simp only [hx, c, startOf_desc, startOf_cid, himg, he, ne_eq, not_true, if_false]
      · simp only [hx, c, startOf_desc, startOf_cid, himg, hok, ne_eq, not_true, if_false]
  case switch =>
    have hquiet : (s.col.runs.any fun r => !r.flight.isEmpty) = false :=
      List.any_eq_false.mpr fun r hr => by simp [hidle r hr]
    have hno : (if l.toBase then none else s.badRole l.bank l.kilns) = none := by
      rcases hrole with hbase | hgood
      · rw [if_pos hbase]
      · rw [hgood, ite_self]
    show execConfigSwitch s = _
    unfold execConfigSwitch
    simp only [hl, hquiet, hfind, hno, Bool.false_eq_true, if_false]

/-! ### FENCE, EVENT_WAIT and INGEST_BIND -/

/-- Settles O42: the waiting commands are only taken; INGEST_BIND reads its record and loads or refuses it. -/
theorem waitsAndBindings : Obligations.WaitsAndBindings := by
  refine ⟨fun q d s => ⟨fun h => ?fence, fun h => ?eventWait, fun cid c hfind => ?expired⟩,
    fun q d s u r h hload hwin hwait hread huwait hkx1 => ?bind⟩
  case fence => exact congrArg Host.Outcome.next (hostCommand_of_accepts h rfl _)
  case eventWait => exact congrArg Host.Outcome.next (hostCommand_of_accepts h rfl _)
  case expired =>
    show execWaitExpired q cid s = _
    unfold execWaitExpired
    simp only [hfind]
  case bind =>
    have hwork : exec (.ingestBind q d) s = .next (bindWork (s.takeHead q d) (s.startOf q d)).settle := by
      refine congrArg Host.Outcome.next ((hostCommand_of_accepts h ?_ _).trans
        (congrArg State.settle (afterRead_now (.inl hwin) _ _)))
      simp only [hload, hwait, Bool.and_false, Bool.or_false]
    rw [hwork]
    unfold bindWork
    simp only [startOf_desc, startOf_cid, hread, huwait, hkx1, Option.isSome_none, Bool.and_false, ne_eq, not_true, if_false,
      Bool.false_eq_true]
    refine ⟨fun hbad => ?bad, fun hgood hstep => ?good⟩
    case bad => rw [if_pos (by rw [hbad]; rfl)]
    case good =>
      rw [if_neg]
      rw [hgood]
      simp only [Bool.not_true, Bool.false_or, Bool.and_eq_true, beq_iff_eq, decide_eq_true_eq, not_and, not_lt]
      exact hstep

/-! ### Doorbells -/

/-- A doorbell write in recovery or in D3hot has no effect. -/
theorem doorbell_closed {s : State} (h : s.bar2Open = false) (page w : Nat) (a : DoorbellWrite) (f : State → State) :
    s.doorbell page w a f = s := by
  unfold State.doorbell
  rw [h]
  rfl

/-- A doorbell write of the form of R521 has its effect. -/
theorem doorbell_fits {s : State} {w : Nat} {a : DoorbellWrite} (h : s.bar2Open = true) (ha : doorbellFits a w = true) (page : Nat)
    (f : State → State) : s.doorbell page w a f = f (s.linkRx a.size.toNat) := by
  unfold State.doorbell
  rw [h, ha]
  rfl

/-- A doorbell write of another form is a bad access. -/
theorem doorbell_bad {s : State} {w : Nat} {a : DoorbellWrite} (h : s.bar2Open = true) (ha : doorbellFits a w = false) (page : Nat)
    (f : State → State) :
    s.doorbell page w a f = (s.linkRx a.size.toNat).badAccess 1 (page + a.offset.toNat) a.size.toNat true := by
  unfold State.doorbell
  rw [h, ha]
  rfl

/-- A new tail of a queue that is stopped, faulted or drains (R387). -/
theorem sqTail_stopped {s : State} {q : Nat} (v : Nat) (h : s.isSet (Reg.COL_SQ_CTL_EN q) = false ∨
    s.isSet (Reg.COL_SQ_CTL_FAULT q) = true ∨ s.isSet (Reg.COL_SQ_CTL_DRAIN q) = true) : s.sqTail q v = s := by
  unfold State.sqTail
  rcases h with h | h | h <;> simp [h]

/-- A new tail of a queue that takes one (R387). -/
theorem sqTail_running {s : State} {q : Nat} (v : Nat) (hen : s.isSet (Reg.COL_SQ_CTL_EN q) = true)
    (hfault : s.isSet (Reg.COL_SQ_CTL_FAULT q) = false) (hdrain : s.isSet (Reg.COL_SQ_CTL_DRAIN q) = false)
    (hlo : 4 ≤ s.get (Reg.COL_SQ_CTL_LOG2ENT q)) (hhi : s.get (Reg.COL_SQ_CTL_LOG2ENT q) ≤ 16) : s.sqTail q v =
      if 2 ^ s.get (Reg.COL_SQ_CTL_LOG2ENT q) < (v + 2 ^ 32 - s.get (Reg.COL_SQ_TAIL_TAIL q)) % 2 ^ 32 ∨
          2 ^ s.get (Reg.COL_SQ_CTL_LOG2ENT q) < (v + 2 ^ 32 - s.get (Reg.COL_SQ_HEAD_HEAD q)) % 2 ^ 32
      then (s.faultQueue q).settle else ((s.put (Reg.COL_SQ_TAIL_TAIL q) v).fetchHead q).settle := by
  have hlog : ¬s.get (Reg.COL_SQ_CTL_LOG2ENT q) < 4 ∧ ¬16 < s.get (Reg.COL_SQ_CTL_LOG2ENT q) := by omega
  unfold State.sqTail
  simp only [hen, hfault, hdrain, hlog.1, hlog.2, Bool.not_true, Bool.or_self, Bool.false_eq_true, if_false, decide_false,
    Bool.false_or, Bool.or_eq_true, decide_eq_true_eq]

/-- Settles O45: the form of the write decides whether the doorbell has its effect, and the queue or ring which effect. -/
theorem doorbells : Obligations.Doorbells := by
  refine ⟨fun q a s hopen hfits => ⟨fun hstopped => ?stopped, fun hen hfault hdrain hlo hhi => ⟨fun htail hhead => ?moves,
    fun hfull => ?faults⟩, ?cq⟩, fun q r a s => ⟨fun hclosed => ?closed, fun hopen hbad => ?bad⟩,
    fun r a s hopen hfits => ⟨fun hgood htail hhead => ?ringMoves, fun hfull => ?ringStops⟩⟩
  case stopped =>
    exact congrArg Host.Outcome.next ((doorbell_fits hopen hfits _ _).trans (sqTail_stopped _ hstopped))
  case moves =>
    refine congrArg Host.Outcome.next ((doorbell_fits hopen hfits _ _).trans ?_)
    rw [sqTail_running _ hen hfault hdrain hlo hhi, if_neg (not_or.mpr ⟨not_lt.mpr htail, not_lt.mpr hhead⟩)]
  case faults =>
    refine congrArg Host.Outcome.next ((doorbell_fits hopen hfits _ _).trans ?_)
    rw [sqTail_running _ hen hfault hdrain hlo hhi, if_pos (.inr hfull)]
  case cq => exact congrArg Host.Outcome.next (doorbell_fits hopen hfits _ _)
  case closed =>
    exact ⟨congrArg Host.Outcome.next (doorbell_closed hclosed _ _ _ _), congrArg Host.Outcome.next (doorbell_closed hclosed _ _ _ _),
      congrArg Host.Outcome.next (doorbell_closed hclosed _ _ _ _)⟩
  case bad =>
    exact ⟨congrArg Host.Outcome.next (doorbell_bad hopen hbad _ _), congrArg Host.Outcome.next (doorbell_bad hopen hbad _ _)⟩
  case ringMoves =>
    refine congrArg Host.Outcome.next ((doorbell_fits hopen hfits _ _).trans ?_)
    unfold State.ringTail
    simp only [hgood, not_lt.mpr htail, not_lt.mpr hhead, decide_false, Bool.or_self, Bool.false_eq_true, if_false]
  case ringStops =>
    refine congrArg Host.Outcome.next ((doorbell_fits hopen hfits _ _).trans ?_)
    unfold State.ringTail
    simp only [hfull, decide_true, Bool.or_true, if_true]

/-! ### Enabling queues -/

/-- Forgetting descriptor fetches leaves registers and memory. -/
@[simp] theorem dropFetch_get (s : State) (q : Nat) (f : Fld) : (s.dropFetch q).get f = s.get f := rfl

theorem dropFetch_mem (s : State) (q : Nat) : (s.dropFetch q).mem = s.mem := rfl

theorem isSet_of_get_one {s : State} {f : Fld} (h : s.get f = 1) : s.isSet f = true := by
  unfold State.isSet
  rw [h]
  rfl

theorem isSet_of_get_zero {s : State} {f : Fld} (h : s.get f = 0) : s.isSet f = false := by
  unfold State.isSet
  rw [h]
  rfl

theorem get_put_field (s : State) (f : Fld) (v : Nat) (hr : f.rst < 2 ^ 64) (hw : f.lo + f.w ≤ 64) :
    (s.put f v).get f = v % 2 ^ f.w := State.get_put_self s f v ⟨hr, hw⟩

theorem get_put_above (s : State) {f g : Fld} (v : Nat) (hr : f.rst < 2 ^ 64) (hw : f.lo + f.w ≤ 64) (ho : f.off = g.off)
    (hrst : f.rst = g.rst) (h : f.lo + f.w ≤ g.lo) : (s.put f v).get g = s.get g :=
  State.get_put_beside s v ⟨hr, hw⟩ ho hrst (.inr h)

theorem get_put_under (s : State) {f g : Fld} (v : Nat) (hr : f.rst < 2 ^ 64) (hw : f.lo + f.w ≤ 64) (ho : f.off = g.off)
    (hrst : f.rst = g.rst) (h : g.lo + g.w ≤ f.lo) : (s.put f v).get g = s.get g :=
  State.get_put_beside s v ⟨hr, hw⟩ ho hrst (.inl h)

/-- What a reset of a queue leaves in its registers. -/
theorem sqReset_get (s : State) (q : Nat) : (s.sqReset q).get (Reg.COL_SQ_HEAD_HEAD q) = 0 ∧
    (s.sqReset q).get (Reg.COL_SQ_TAIL_TAIL q) = 0 ∧ (s.sqReset q).get (Reg.COL_SQ_CTL_FAULT q) = 0 ∧
    (s.sqReset q).get (Reg.COL_SQ_CTL_DRAIN q) = 0 := by
  unfold State.sqReset
  simp [get_put_field, State.get_put_ne, get_put_under, Reg.COL_SQ_CTL_FAULT, Reg.COL_SQ_CTL_DRAIN, Reg.COL_SQ_HEAD_HEAD,
    Reg.COL_SQ_TAIL_TAIL]

/-- A reset of a queue leaves the fields of its control register that it does not clear. -/
theorem sqReset_get_ctl (s : State) (q : Nat) : (s.sqReset q).get (Reg.COL_SQ_CTL_EN q) = s.get (Reg.COL_SQ_CTL_EN q) ∧
    (s.sqReset q).get (Reg.COL_SQ_CTL_LOG2ENT q) = s.get (Reg.COL_SQ_CTL_LOG2ENT q) ∧
    (s.sqReset q).get (Reg.COL_SQ_CTL_CQ q) = s.get (Reg.COL_SQ_CTL_CQ q) := by
  unfold State.sqReset
  simp [State.get_put_ne, get_put_under, get_put_above, Reg.COL_SQ_CTL_FAULT, Reg.COL_SQ_CTL_DRAIN, Reg.COL_SQ_HEAD_HEAD,
    Reg.COL_SQ_TAIL_TAIL, Reg.COL_SQ_CTL_EN, Reg.COL_SQ_CTL_LOG2ENT, Reg.COL_SQ_CTL_CQ]

theorem sqReset_mem (s : State) (q : Nat) : (s.sqReset q).mem = s.mem := by
  unfold State.sqReset
  rw [State.put_mem, State.put_mem, State.put_mem, State.put_mem, dropFetch_mem]

theorem sqReset_words (s : State) (q : Nat) : s.WordsKept (s.sqReset q)
    [(Reg.COL_SQ_HEAD_HEAD q).off, (Reg.COL_SQ_TAIL_TAIL q).off, (Reg.COL_SQ_CTL_EN q).off] :=
  State.put_wordsKept _ _ (by simp [Reg.COL_SQ_CTL_DRAIN, Reg.COL_SQ_CTL_EN]) <|
    State.put_wordsKept _ _ (by simp [Reg.COL_SQ_CTL_FAULT, Reg.COL_SQ_CTL_EN]) <|
    State.put_wordsKept _ _ (by simp) <| State.put_wordsKept _ _ (by simp) fun _ _ _ => rfl

/-- The control fields that a write of COL_SQ_CTL sets (R413). -/
def State.sqWritten (s : State) (q : Nat) (v : BitVec 64) (en : Nat) : State :=
  ((s.put (Reg.COL_SQ_CTL_LOG2ENT q) (bits v.toNat 0 5)).put (Reg.COL_SQ_CTL_CQ q) (bits v.toNat 16 6)).put (Reg.COL_SQ_CTL_EN q) en

theorem sqWritten_get (s : State) (q : Nat) (v : BitVec 64) (en : Nat) :
    (s.sqWritten q v en).get (Reg.COL_SQ_CTL_LOG2ENT q) = bits v.toNat 0 5 ∧
    (s.sqWritten q v en).get (Reg.COL_SQ_CTL_CQ q) = bits v.toNat 16 6 ∧
    (s.sqWritten q v en).get (Reg.COL_SQ_CTL_EN q) = en % 2 := by
  have hlog : bits v.toNat 0 5 % 32 = bits v.toNat 0 5 := Nat.mod_eq_of_lt (bits_lt _ _ _)
  have hcq : bits v.toNat 16 6 % 64 = bits v.toNat 16 6 := Nat.mod_eq_of_lt (bits_lt _ _ _)
  unfold State.sqWritten
  simp only [get_put_field, get_put_under, get_put_above, Reg.COL_SQ_CTL_EN, Reg.COL_SQ_CTL_LOG2ENT, Reg.COL_SQ_CTL_CQ,
    Nat.reduceAdd, Nat.reduceLeDiff, Nat.reducePow, Nat.reduceLT]
  exact ⟨hlog, hcq, trivial⟩

theorem sqWritten_mem (s : State) (q : Nat) (v : BitVec 64) (en : Nat) : (s.sqWritten q v en).mem = s.mem := by
  unfold State.sqWritten
  rw [State.put_mem, State.put_mem, State.put_mem]

theorem sqWritten_words (s : State) (q : Nat) (v : BitVec 64) (en : Nat) : s.WordsKept (s.sqWritten q v en)
    [(Reg.COL_SQ_HEAD_HEAD q).off, (Reg.COL_SQ_TAIL_TAIL q).off, (Reg.COL_SQ_CTL_EN q).off] :=
  State.put_wordsKept _ _ (by simp) <| State.put_wordsKept _ _ (by simp [Reg.COL_SQ_CTL_CQ, Reg.COL_SQ_CTL_EN]) <|
    State.put_wordsKept _ _ (by simp [Reg.COL_SQ_CTL_LOG2ENT, Reg.COL_SQ_CTL_EN]) .rfl

/-- DRAIN set in the control register of a queue. -/
theorem sqDrain_get (s : State) (q : Nat) :
    ((s.dropFetch q).put (Reg.COL_SQ_CTL_DRAIN q) 1).get (Reg.COL_SQ_CTL_EN q) = s.get (Reg.COL_SQ_CTL_EN q) ∧
      ((s.dropFetch q).put (Reg.COL_SQ_CTL_DRAIN q) 1).get (Reg.COL_SQ_CTL_DRAIN q) = 1 := by
  simp [get_put_field, get_put_under, Reg.COL_SQ_CTL_DRAIN, Reg.COL_SQ_CTL_EN]

/-- A write of COL_SQ_CTL, by whether the queue was enabled, is to be, and has commands started. -/
theorem exec_sqEnableWrite (q : Fin 64) (v : BitVec 64) (s : State) : exec (.sqEnableWrite q v) s = .next (
    let t := s.sqWritten q v (if bit v.toNat 8 then 1 else 0)
    if bit v.toNat 8 && !s.isSet (Reg.COL_SQ_CTL_EN q) then (if s.sqBusy q then t.put (Reg.COL_SQ_CTL_DRAIN q) 1 else t.sqReset q)
    else if !bit v.toNat 8 && s.isSet (Reg.COL_SQ_CTL_EN q) then
      (t.dropFetch q).put (Reg.COL_SQ_CTL_DRAIN q) (if s.sqBusy q then 1 else 0)
    else t) := by
  show execSqEnableWrite q v s = _
  unfold execSqEnableWrite State.sqWritten
  simp only [apply_ite Host.Outcome.next]

/-- The control fields that a write of COL_CQ_CTL with EN 1 sets (R413). -/
def State.cqWritten (s : State) (q : Nat) (v : BitVec 64) : State :=
  (((s.put (Reg.COL_CQ_CTL_LOG2ENT q) (bits v.toNat 0 5)).put (Reg.COL_CQ_CTL_IEN q) (bits v.toNat 9 1)).put
    (Reg.COL_CQ_CTL_VECTOR q) (bits v.toNat 16 11)).put (Reg.COL_CQ_CTL_EN q) 1

theorem cqWritten_get (s : State) (q : Nat) (v : BitVec 64) : (s.cqWritten q v).get (Reg.COL_CQ_CTL_LOG2ENT q) = bits v.toNat 0 5 ∧
    (s.cqWritten q v).get (Reg.COL_CQ_CTL_VECTOR q) = bits v.toNat 16 11 := by
  have hlog : bits v.toNat 0 5 % 32 = bits v.toNat 0 5 := Nat.mod_eq_of_lt (bits_lt _ _ _)
  have hvector : bits v.toNat 16 11 % 2048 = bits v.toNat 16 11 := Nat.mod_eq_of_lt (bits_lt _ _ _)
  unfold State.cqWritten
  simp only [get_put_field, get_put_under, get_put_above, Reg.COL_CQ_CTL_EN, Reg.COL_CQ_CTL_VECTOR, Reg.COL_CQ_CTL_IEN,
    Reg.COL_CQ_CTL_LOG2ENT, Nat.reduceAdd, Nat.reduceLeDiff, Nat.reducePow, Nat.reduceLT]
  exact ⟨hlog, hvector⟩

theorem cqWritten_regsOnly (s : State) (q : Nat) (v : BitVec 64) : RegsOnly s (s.cqWritten q v) :=
  State.put_regsOnly _ _ <| State.put_regsOnly _ _ <| State.put_regsOnly _ _ <| State.put_regsOnly _ _ .rfl

theorem cqWritten_words (s : State) (q : Nat) (v : BitVec 64) : s.WordsKept (s.cqWritten q v) [(Reg.COL_CQ_CTL_EN q).off] :=
  State.put_wordsKept _ _ (by simp) <| State.put_wordsKept _ _ (by simp [Reg.COL_CQ_CTL_VECTOR, Reg.COL_CQ_CTL_EN]) <|
    State.put_wordsKept _ _ (by simp [Reg.COL_CQ_CTL_IEN, Reg.COL_CQ_CTL_EN]) <|
    State.put_wordsKept _ _ (by simp [Reg.COL_CQ_CTL_LOG2ENT, Reg.COL_CQ_CTL_EN]) .rfl

/-- Settles O46: each write is its control fields and a reset or DRAIN, whose fields are read back. -/
theorem queuesEnable : Obligations.QueuesEnable := by
  intro q v s
  refine ⟨fun hen hwas hbusy => ?enables, fun hen hwas hbusy => ?disables, fun hen hdrain hbusy => ?drained, fun hen hwas => ?cq⟩
  case enables =>
    obtain ⟨hhead, htail, hfault, hdrain⟩ := sqReset_get (s.sqWritten q v 1) q
    obtain ⟨hkept, hlog, hcq⟩ := sqReset_get_ctl (s.sqWritten q v 1) q
    obtain ⟨hlog', hcq', hen'⟩ := sqWritten_get s q v 1
    refine ⟨(s.sqWritten q v 1).sqReset q, ?_, hhead, htail, isSet_of_get_one (hkept.trans hen'), isSet_of_get_zero hfault,
      isSet_of_get_zero hdrain, hlog.trans hlog', hcq.trans hcq',
      (sqReset_mem _ q).trans (sqWritten_mem s q v 1), (sqWritten_words s q v 1).trans (sqReset_words _ q)⟩
    rw [exec_sqEnableWrite]
    simp [hen, hwas, hbusy]
  case disables =>
    have hen' := (sqWritten_get s q v 0).2.2
    refine ⟨((s.sqWritten q v 0).dropFetch q).put (Reg.COL_SQ_CTL_DRAIN q) 1, ?_, ?_, ?_,
      (State.put_mem _ _ _).trans ((dropFetch_mem _ q).trans (sqWritten_mem s q v 0))⟩
    · rw [exec_sqEnableWrite]
      simp [hen, hwas, hbusy]
    · exact isSet_of_get_zero ((sqDrain_get _ q).1.trans hen')
    · exact isSet_of_get_one (sqDrain_get _ q).2
  case drained =>
    obtain ⟨hhead, htail, hfault, hzero⟩ := sqReset_get s q
    refine ⟨s.sqReset q, ?_, hhead, htail, isSet_of_get_zero hzero, isSet_of_get_zero hfault, sqReset_mem s q⟩
    show execSqDrainEnd q s = _
    unfold execSqDrainEnd
    simp [hen, hdrain, hbusy]
  case cq =>
    obtain ⟨hlog, hvector⟩ := cqWritten_get s q v
    refine ⟨s.cqWritten q v, ?_, hlog, hvector, cqWritten_regsOnly s q v, cqWritten_words s q v⟩
    show execCqEnableWrite q v s = _
    unfold execCqEnableWrite State.cqWritten
    simp only [hen, hwas, Bool.not_true, Bool.and_false, Bool.false_eq_true, if_false, if_true]

end Sys2Proof.Machine

/-! # Frames received and ports trained (14_odnil_links_pair.md, R486 to R510) -/

namespace Sys2Proof.Machine

/-! ### What is checked of a frame -/

/-- A port that is not up receives nothing. -/
theorem receive_down {s : State} {p : Nat} (h : s.portUp p = false) (type : Nat) (f : Frame) (deliver : State → State) :
    s.receive type p f deliver = s :=
  if_pos (by simp [h])

/-- A frame that does not agree with itself, is of a reserved type or does not belong on its port. -/
theorem receive_refused {s : State} {p : Nat} {f : Frame} (hup : s.portUp p = true)
    (h : frameSound f = false ∨ isReservedType (fType f) = true ∨ portCarries p (fType f) = false) (type : Nat)
    (deliver : State → State) : s.receive type p f deliver = (s.setPort p { s.port p with heardAt := s.now }).sendNak p := by
  have hfail : (!frameSound f || isReservedType (fType f) || !portCarries p (fType f)) = true := by
    rcases h with h | h | h <;> simp [h]
  unfold State.receive
  rw [hup]
  exact (if_neg (by decide)).trans (if_pos hfail)

/-- The module once it has heard a sound frame at a port and taken the acknowledgement that the frame carries. -/
def State.heard (s : State) (p : Nat) (f : Frame) : State :=
  (s.setPort p { s.port p with heardAt := s.now }).acknowledge p (fAck f)

/-- The module once it has taken and acknowledged a sequenced frame that came in order. -/
def State.tookInOrder (s : State) (p : Nat) (f : Frame) : State :=
  ((s.setPort p { s.port p with rxSeq := (fSeq f + 1) % 2 ^ 32 }).bump (Reg.ODN_PORT_RXB_COUNT (portReg p))
    f.payload.length).sendAck p

/-- A frame that passes the checks is taken by its order. -/
theorem receive_sound {s : State} {p : Nat} {f : Frame} (hup : s.portUp p = true) (hsound : frameSound f = true)
    (hres : isReservedType (fType f) = false) (hport : portCarries p (fType f) = true) (deliver : State → State) :
    s.receive (fType f) p f deliver =
      if !isSequenced (fType f) then deliver (s.heard p f)
      else if fSeq f ≠ ((s.heard p f).port p).rxSeq then (s.heard p f).sendNak p
      else if fDst f = 0xFFFF || fDst f = ((s.heard p f).tookInOrder p f).selfRank then deliver ((s.heard p f).tookInOrder p f)
      else ((s.heard p f).tookInOrder p f).forward p f := by
  have hpass : ¬(!frameSound f || isReservedType (fType f) || !portCarries p (fType f)) = true := by simp [hsound, hres, hport]
  unfold State.receive
  rw [hup]
  exact (if_neg (by decide)).trans ((if_neg hpass).trans (if_neg fun h => h rfl))

/-- A sequenced frame in order is delivered at its own rank, or where it names every rank. -/
theorem receive_own {s : State} {p : Nat} {f : Frame} (hup : s.portUp p = true) (hsound : frameSound f = true)
    (hres : isReservedType (fType f) = false) (hport : portCarries p (fType f) = true) (hs : isSequenced (fType f) = true)
    (hseq : fSeq f = ((s.heard p f).port p).rxSeq)
    (hd : fDst f = 0xFFFF ∨ fDst f = ((s.heard p f).tookInOrder p f).selfRank) (deliver : State → State) :
    s.receive (fType f) p f deliver = deliver ((s.heard p f).tookInOrder p f) := by
  rw [receive_sound hup hsound hres hport, hs, if_neg (by decide), if_neg (not_not.mpr hseq)]
  exact if_pos (by simpa only [Bool.or_eq_true, decide_eq_true_eq] using hd)

/-- A sequenced frame in order that names another rank is forwarded. -/
theorem receive_forwarded {s : State} {p : Nat} {f : Frame} (hup : s.portUp p = true) (hsound : frameSound f = true)
    (hres : isReservedType (fType f) = false) (hport : portCarries p (fType f) = true) (hs : isSequenced (fType f) = true)
    (hseq : fSeq f = ((s.heard p f).port p).rxSeq) (hall : fDst f ≠ 0xFFFF)
    (hself : fDst f ≠ ((s.heard p f).tookInOrder p f).selfRank) (deliver : State → State) :
    s.receive (fType f) p f deliver = ((s.heard p f).tookInOrder p f).forward p f := by
  rw [receive_sound hup hsound hres hport, hs, if_neg (by decide), if_neg (not_not.mpr hseq)]
  exact if_neg (by simpa only [Bool.or_eq_true, decide_eq_true_eq, not_or] using ⟨hall, hself⟩)

/-- Settles O48: the checks of `receive`, one after another. -/
theorem framesChecked : Obligations.FramesChecked := by
  refine fun p f s type deliver => ⟨fun hdown => receive_down hdown _ _ _,
    fun hup => ⟨fun h => receive_refused hup h _ _, ?_⟩⟩
  rintro hsound hres hport rfl
  refine ⟨fun hs => ?plain, fun hs hseq => ?early, fun hs hseq => ⟨fun hd => ?own, fun hall hself => ?others⟩⟩
  case plain => exact (receive_sound hup hsound hres hport deliver).trans (if_pos (by simp [hs]))
  case early => exact (receive_sound hup hsound hres hport deliver).trans ((if_neg (by simp [hs])).trans (if_pos hseq))
  case own => exact receive_own hup hsound hres hport hs hseq hd deliver
  case others => exact receive_forwarded hup hsound hres hport hs hseq hall hself deliver

/-! ### Idle ports and ports that are lost -/

/-- IDLE_SEND speaks exactly where a port is up, has nothing to send and has been silent for 12 stokes. -/
theorem exec_idleSend (p : Fin 16) (s : State) : exec (.idleSend p) s =
    if s.portUp p = true ∧ (s.port p).waiting = [] ∧ (s.port p).spokeAt + 12 ≤ s.now then
      .next (s.sendPlain p tIDLE (s.get Reg.PAIR_CTL_MODE) []) else .next s := by
  show execIdleSend p s = _
  unfold execIdleSend
  simp [and_assoc]

theorem exec_ackTimeout_down {p : Fin 16} {s : State} (h : s.portUp p = false) : exec (.ackTimeout p) s = .next s := by
  show execAckTimeout p s = _
  unfold execAckTimeout
  rw [h]
  rfl

theorem exec_ackTimeout_late {p : Fin 16} {s : State} {e : SentFrame} (h : s.portUp p = true) (he : s.ackLate p = some e) :
    exec (.ackTimeout p) s = .next (if e.resends < s.get Reg.ODN_LINK_CTL_RETRY then s.resend p else s) := by
  show execAckTimeout p s = _
  unfold execAckTimeout
  rw [h, if_pos rfl, he]
  exact (apply_ite _ _ _ _).symm

/-- PORT_LOST takes down exactly a port that is up and whose cause holds. -/
theorem exec_portLost (p : Fin 16) (c : LossCause) (s : State) : exec (.portLost p c) s =
    if s.portUp p = true ∧ s.lossHolds p c = true then .next (s.losePort p 3).progress else .next s := by
  show execPortLost p c s = _
  unfold execPortLost
  simp

/-! ### Training the fabric -/

theorem exec_fabricTrain_busy {s : State}
    (h : s.stepOpen = true ∨ s.evaluating = true ∨ s.isSet Reg.BNK_STATUS_BUSY = true) (peers : List PeerHello) :
    exec (.fabricTrain peers) s = .next (s.odnErr linkBusy 31) :=
  if_pos (by rcases h with h | h | h <;> simp [h])

/-- FABRIC_TRAIN of an idle module that cannot read its table fails. -/
theorem exec_fabricTrain_unread {s u : State} (hopen : s.stepOpen = false) (heval : s.evaluating = false)
    (hbank : s.isSet Reg.BNK_STATUS_BUSY = false) (hread : s.dropTable.readRanks = (u, none)) (peers : List PeerHello) :
    exec (.fabricTrain peers) s = .next u.trainFailed := by
  show execFabricTrain peers s = _
  unfold execFabricTrain
  simp only [hopen, heval, hbank, hread, Bool.or_self, Bool.false_eq_true, if_false]

/-- FABRIC_TRAIN of an idle module trains the ports that the table read names. -/
theorem exec_fabricTrain_read {s u : State} {b : List Byte} (hopen : s.stepOpen = false) (heval : s.evaluating = false)
    (hbank : s.isSet Reg.BNK_STATUS_BUSY = false) (hread : s.dropTable.readRanks = (u, some b)) (peers : List PeerHello) :
    exec (.fabricTrain peers) s =
      let t := RankTable.ofBytes b
      let used := (List.range 12).filter t.uses
      let v := used.foldl (fun x p => x.trainPort t (rankDigest b) peers p) u
      if !(used.all v.portUp) || v.pairMisfit t then .next v.trainFailed else .next (v.installTableOf t (rankDigest b)) := by
  show execFabricTrain peers s = _
  unfold execFabricTrain
  simp only [hopen, heval, hbank, hread, Bool.or_self, Bool.false_eq_true, if_false]

/-! ### PORT_RETRAIN and RANK_DOWN -/

theorem exec_portRetrain (p : Fin 16) (v : BitVec 64) (s : State) : exec (.portRetrain p v) s =
    let u := s.put (Reg.ODN_PORT_CTL_DISABLE (portReg p)) (bits v.toNat 1 1)
    if bit v.toNat 0 then .next (u.retrainPort p).progress
    else if bit v.toNat 1 && u.portUp p then .next (u.losePort p 3).progress
    else .next u := rfl

theorem exec_rankDown_kept {v : BitVec 64} (h : bit v.toNat 16 = false) (s : State) :
    exec (.rankDown v) s = .next (s.put Reg.ODN_RANK_CTL_RANK (bits v.toNat 0 16)) :=
  if_pos (by simp [h])

/-- RANK_DOWN of a rank that the table can take down tells the other ranks and takes LINK in an open step. -/
theorem exec_rankDown_told {v : BitVec 64} {s : State} {x : RankTable} (h : bit v.toNat 16 = true)
    (hx : s.link.table.bind (fun t => t.update (.down (bits v.toNat 0 16))) = some x) :
    exec (.rankDown v) s =
      let w := ((s.put Reg.ODN_RANK_CTL_RANK (bits v.toNat 0 16)).tellRanks (.down (bits v.toNat 0 16))).rankUpdate
        (.down (bits v.toNat 0 16))
      .next (if w.stepOpen then w.veto vLINK else w).progress := by
  show execRankDown v s = _
  have hput : (s.put Reg.ODN_RANK_CTL_RANK (bits v.toNat 0 16)).link.table = s.link.table := rfl
  unfold execRankDown
  rw [h]
  simp only [hput, hx, Bool.not_true, Bool.false_eq_true, if_false]

/-! ### The pair -/

theorem exec_pairRetrain (v : BitVec 64) (peers : List PeerHello) (s : State) : exec (.pairRetrain v peers) s =
    if bit v.toNat 2 && (s.writePairCtl v.toNat).bank.run.isNone then .next ((s.writePairCtl v.toNat).trainPair peers).progress
    else .next (s.writePairCtl v.toNat) := rfl

/-! ### Cords -/

/-- The module once a cord has come or gone, before its port changes state. -/
def State.cordShown (s : State) (p : Fin 16) (present : Bool) : State :=
  let cords := s.board.cords.filter (· != p.val)
  { s with board := { s.board with cords := if present then p.val :: cords else cords } }.put
    (Reg.ODN_PORT_STAT_CORD (portReg p)) (if present then 1 else 0)

theorem exec_cordPresenceChange (p : Fin 16) (present : Bool) (s : State) : exec (.cordPresenceChange p present) s =
    let r := portReg p
    let u := s.cordShown p present
    if present then .next (if u.get (Reg.ODN_PORT_STAT_STATE r) = 0 then u.put (Reg.ODN_PORT_STAT_STATE r) 3 else u)
    else if u.portUp p then .next (u.losePort p 0).progress
    else .next (u.put (Reg.ODN_PORT_STAT_STATE r) 0) := rfl

theorem cordShown_mem (s : State) (p : Fin 16) (present : Bool) : (s.cordShown p present).mem = s.mem := by
  unfold State.cordShown
  rw [State.put_mem]

theorem cordShown_state (s : State) (p : Fin 16) (present : Bool) :
    (s.cordShown p present).get (Reg.ODN_PORT_STAT_STATE (portReg p)) = s.get (Reg.ODN_PORT_STAT_STATE (portReg p)) :=
  get_put_under { s with board := (s.cordShown p present).board } (f := Reg.ODN_PORT_STAT_CORD (portReg p)) _
    (Nat.two_pow_pos 64) (by decide : 3 + 1 ≤ 64) rfl rfl (by decide : 0 + 3 ≤ 3)

theorem cordShown_cord (s : State) (p : Fin 16) (present : Bool) :
    (s.cordShown p present).get (Reg.ODN_PORT_STAT_CORD (portReg p)) = if present then 1 else 0 := by
  have hput := get_put_field { s with board := (s.cordShown p present).board } (Reg.ODN_PORT_STAT_CORD (portReg p))
    (if present then 1 else 0) (by simp [Reg.ODN_PORT_STAT_CORD]) (by simp [Reg.ODN_PORT_STAT_CORD])
  refine Eq.trans hput ?_
  cases present <;> rfl

theorem get_cord_putState (s : State) (r v : Nat) :
    (s.put (Reg.ODN_PORT_STAT_STATE r) v).get (Reg.ODN_PORT_STAT_CORD r) = s.get (Reg.ODN_PORT_STAT_CORD r) :=
  get_put_above _ _ (by simp [Reg.ODN_PORT_STAT_STATE]) (by simp [Reg.ODN_PORT_STAT_STATE]) rfl rfl
    (by simp [Reg.ODN_PORT_STAT_STATE, Reg.ODN_PORT_STAT_CORD])

theorem get_state_putState (s : State) (r : Nat) {v : Nat} (h : v < 8) :
    (s.put (Reg.ODN_PORT_STAT_STATE r) v).get (Reg.ODN_PORT_STAT_STATE r) = v :=
  (get_put_field _ _ _ (by simp [Reg.ODN_PORT_STAT_STATE]) (by simp [Reg.ODN_PORT_STAT_STATE])).trans (Nat.mod_eq_of_lt h)

/-- A cord that comes takes a port without a cord to DOWN. -/
theorem exec_cordComes (p : Fin 16) (s : State) :
    ∃ t, exec (.cordPresenceChange p true) s = .next t ∧ t.get (Reg.ODN_PORT_STAT_CORD (portReg p)) = 1 ∧
      p.val ∈ t.board.cords ∧ t.mem = s.mem ∧ t.get (Reg.ODN_PORT_STAT_STATE (portReg p)) =
        if s.get (Reg.ODN_PORT_STAT_STATE (portReg p)) = 0 then 3 else s.get (Reg.ODN_PORT_STAT_STATE (portReg p)) := by
  have hmem := cordShown_mem s p true
  have hcord := cordShown_cord s p true
  have hstate := cordShown_state s p true
  have hin : p.val ∈ (s.cordShown p true).board.cords := List.mem_cons_self
  refine ⟨_, exec_cordPresenceChange p true s, ?_⟩
  by_cases h0 : s.get (Reg.ODN_PORT_STAT_STATE (portReg p)) = 0
  · rw [if_pos (hstate.trans h0), if_pos h0, get_cord_putState, get_state_putState _ _ (by decide), State.put_mem]
    exact ⟨hcord, hin, hmem, rfl⟩
  · rw [if_neg (hstate ▸ h0), if_neg h0]
    exact ⟨hcord, hin, hmem, hstate⟩

/-- A cord that goes leaves a port that is not up without a cord. -/
theorem exec_cordGoes {p : Fin 16} {s : State} (hdown : s.portUp p = false) :
    ∃ t, exec (.cordPresenceChange p false) s = .next t ∧ t.get (Reg.ODN_PORT_STAT_CORD (portReg p)) = 0 ∧
      p.val ∉ t.board.cords ∧ t.mem = s.mem ∧ t.get (Reg.ODN_PORT_STAT_STATE (portReg p)) = 0 := by
  have hup : (s.cordShown p false).portUp p = false := by
    unfold State.portUp
    rw [cordShown_state]
    exact hdown
  refine ⟨(s.cordShown p false).put (Reg.ODN_PORT_STAT_STATE (portReg p)) 0, ?_, ?_, ?_, ?_, ?_⟩
  · rw [exec_cordPresenceChange]
    simp only [hup, Bool.false_eq_true, if_false]
  · rw [get_cord_putState]
    exact cordShown_cord s p false
  · have hcords : (s.cordShown p false).board.cords = s.board.cords.filter (· != p.val) := rfl
    show p.val ∉ (s.cordShown p false).board.cords
    simp [hcords]
  · rw [State.put_mem, cordShown_mem]
  · exact get_state_putState _ _ (by decide)

/-- Settles O50: each command of the links, branch by branch. -/
theorem linksTrain : Obligations.LinksTrain := by
  refine ⟨fun p s => ⟨fun hup hw ht => ?idle, fun h => ?silent, fun e => exec_ackTimeout_late, fun hdown => ?down,
      fun c hup hc => ?lost⟩,
    fun s u peers b => ⟨fun h => exec_fabricTrain_busy h peers, fun hopen heval hbank hread => ?table,
      fun hopen heval hbank hread => ?noTable⟩,
    fun p v peers s => ?commands, fun p s => ⟨exec_cordComes p s, exec_cordGoes⟩⟩
  case idle => rw [exec_idleSend, if_pos ⟨hup, hw, ht⟩]
  case silent =>
    rw [exec_idleSend, if_neg]
    rintro ⟨hup, hw, ht⟩
    rcases h with h | h | h
    · simp [hup] at h
    · exact h hw
    · omega
  case down =>
    refine ⟨exec_ackTimeout_down hdown, fun c => ?_⟩
    rw [exec_portLost, if_neg (by simp [hdown])]
  case lost => rw [exec_portLost, if_pos ⟨hup, hc⟩]
  case table =>
    rw [exec_fabricTrain_read hopen heval hbank hread]
    refine ⟨fun hall hfit => if_neg ?_, fun hsome => if_pos ?_⟩
    · simpa [hfit] using hall
    · obtain ⟨p, hp, hdown⟩ := hsome
      simp only [Bool.or_eq_true, Bool.not_eq_true', List.all_eq_false]
      exact .inl ⟨p, hp, by simp [hdown]⟩
  case noTable => exact exec_fabricTrain_unread hopen heval hbank hread peers
  case commands =>
    refine ⟨fun h => ?retrain, fun h0 h1 hup => ?disable, fun h0 h1 => ?enable, fun h => ?name, fun x => exec_rankDown_told, rfl,
      fun h2 hrun => ?pair, fun h2 => ?mode⟩
    case retrain => rw [exec_portRetrain, if_pos h]
    case disable => simp only [exec_portRetrain, h0, h1, hup, Bool.false_eq_true, if_false, Bool.and_self, if_true]
    case enable =>
      refine ⟨s.put (Reg.ODN_PORT_CTL_DISABLE (portReg p)) (bits v.toNat 1 1), ?_, rfl, isSet_of_get_zero ?_⟩
      · simp only [exec_portRetrain, h0, h1, Bool.false_eq_true, if_false, Bool.false_and]
      · rw [get_put_field _ _ _ (by simp [Reg.ODN_PORT_CTL_DISABLE]) (by simp [Reg.ODN_PORT_CTL_DISABLE])]
        rw [show bits v.toNat 1 1 = (bit v.toNat 1).toNat from (Nat.toNat_testBit _ _).symm, h1]
        rfl
    case name =>
      refine ⟨_, exec_rankDown_kept h s, rfl, ?_, State.put_wordsKept _ _ (by simp) .rfl⟩
      rw [get_put_field _ _ _ (by simp [Reg.ODN_RANK_CTL_RANK]) (by simp [Reg.ODN_RANK_CTL_RANK])]
      exact Nat.mod_eq_of_lt (Nat.mod_lt _ (by simp))
    case pair => rw [exec_pairRetrain, if_pos (by simp [h2, hrun])]
    case mode => rw [exec_pairRetrain, if_neg (by simp [h2])]

end Sys2Proof.Machine

/-! # The security mailbox: keys, policy, audit, firmware and debug levels (16_security.md, R541 to R555) -/

namespace Sys2Proof.Machine

/-! ### A request that is worked on -/

@[simp] theorem mailed_regs (s : State) (port : MbPort) : (s.mailed port).regs = s.regs := by cases port <;> rfl

@[simp] theorem mailed_keys (s : State) (port : MbPort) : (s.mailed port).sec.keys = s.sec.keys := by cases port <;> rfl

@[simp] theorem mailed_policy (s : State) (port : MbPort) : (s.mailed port).sec.policy = s.sec.policy := by cases port <;> rfl

@[simp] theorem mailed_sessions (s : State) (port : MbPort) : (s.mailed port).sec.sessions = s.sec.sessions := by
  cases port <;> rfl

@[simp] theorem mailed_board (s : State) (port : MbPort) : (s.mailed port).board = s.board := by cases port <;> rfl

@[simp] theorem mailed_pwr (s : State) (port : MbPort) : (s.mailed port).pwr = s.pwr := by cases port <;> rfl

theorem mbRequest_of_regs {s t : State} (h : t.regs = s.regs) : t.mbRequest = s.mbRequest := by
  have hw : t.mbWords = s.mbWords := by
    funext lo n
    unfold State.mbWords
    simp only [get_of_regs h]
  unfold State.mbRequest
  rw [hw]

theorem mailed_sessionBy (s : State) (port : MbPort) (key : BitVec 256) : (s.mailed port).sessionBy key = s.sessionBy key := by
  unfold State.sessionBy
  rw [mailed_sessions]

theorem mailed_flashOk {s : State} (h : s.board.flashOk = true) (port : MbPort) : (s.mailed port).board.flashOk = true := by
  rw [mailed_board, h]

theorem mailed_unclaimed (s : State) (port : MbPort) : (s.mailed port).unclaimed = s.unclaimed := by
  unfold State.unclaimed
  rw [mailed_keys]

theorem mailed_powerState (s : State) (port : MbPort) : (s.mailed port).powerState = s.powerState :=
  get_of_regs (mailed_regs s port) _

/-- A request that waits at a port that takes it is worked on, and answered with what the work comes to. -/
theorem mailbox_of_mails {s : State} {port : MbPort} {op : Nat} (h : s.Mails port op)
    (work : MbRequest → State → MbResult) :
    s.mailbox op port work = (work s.mbRequest (s.mailed port)).1.mbRespond (work s.mbRequest (s.mailed port)).2.1
      (work s.mbRequest (s.mailed port)).2.2 := by
  have hfree : ¬(port == .management && s.sec.mbAt == some s.now) = true := by
    cases port with
    | bar0 => exact Bool.false_ne_true
    | management => simpa using h.free rfl
  have hreq : (s.mailed port).mbRequest = s.mbRequest := mbRequest_of_regs (mailed_regs s port)
  unfold State.mailbox State.mbTake
  rw [if_pos h.op, h.up, if_neg (by decide), if_neg hfree]
  show (let (u, code, body) := if (s.mailed port).mbRequest.ok then work (s.mailed port).mbRequest (s.mailed port)
    else (s.mailed port, secRole, []); u.mbRespond code body) = _
  rw [hreq, h.ok, if_pos rfl]

/-! ### Audited actions -/

/-- Of the security state, writing an audit entry changes the log alone. -/
theorem audit_written {s : State} (h : s.board.flashOk = true) (action role slot code : Nat) (arg : List Byte) :
    ∃ t, s.audit action role slot code arg = (t, true) ∧ t.sec = { s.sec with audit := t.sec.audit } := by
  unfold State.audit
  rw [h, if_neg (by decide)]
  exact ⟨_, rfl, rfl⟩

/-- A permitted action takes effect behind its audit entry. -/
theorem act_permitted {s : State} (h : s.board.flashOk = true) (action : Nat) (a : Actor) (arg : List Byte) :
    ∃ t, t.sec = { s.sec with audit := t.sec.audit } ∧
      ∀ effect : State → State × List Byte, s.act action a 0 arg effect = ((effect t).1, 0, (effect t).2) := by
  obtain ⟨t, ht, hsec⟩ := audit_written h action a.role a.slot 0 arg
  refine ⟨t, hsec, fun effect => ?_⟩
  unfold State.act
  rw [ht]
  rfl

/-- A refused action leaves its audit entry and answers its code. -/
theorem act_refused {s : State} (h : s.board.flashOk = true) (action : Nat) (a : Actor) {code : Nat} (hcode : code ≠ 0)
    (arg : List Byte) (effect : State → State × List Byte) : ∃ t, s.act action a code arg effect = (t, code, []) := by
  obtain ⟨t, ht, -⟩ := audit_written h action a.role a.slot code arg
  refine ⟨t, ?_⟩
  unfold State.act
  rw [ht]
  exact if_pos hcode

/-- An operation of a session whose role has the right. -/
theorem sessionAct_mailed {s : State} {port : MbPort} {action : Nat} {r : MbRequest} {rights : Role → Bool} {x : Session}
    (hx : s.sessionBy r.key = some x) (hr : rights x.role = true) (work : Session → State → MbResult) :
    (s.mailed port).sessionAct action r rights work = work x (s.mailed port) := by
  unfold State.sessionAct
  rw [mailed_sessionBy, hx]
  exact if_pos hr

/-- What a mailbox command answers once its work is known. -/
theorem next_mailbox {s u : State} {port : MbPort} {op c : Nat} {b : List Byte} (h : s.Mails port op)
    {work : MbRequest → State → MbResult} (hw : work s.mbRequest (s.mailed port) = (u, c, b)) :
    (Host.Outcome.next (s.mailbox op port work) : Host.Outcome State Fault Refusal) = .next (u.mbRespond c b) := by
  rw [mailbox_of_mails h, hw]

/-! ### Keys and policy -/

/-- CLAIM of a module that has no installer key. -/
theorem exec_claim {s : State} {port : MbPort} (hflash : s.board.flashOk = true) (h : s.Mails port 0x03)
    (hun : s.unclaimed = true) (hlen : s.mbRequest.body.length = keyBytes) :
    ∃ t, exec (.claim port) s = .next (State.mbRespond t 0 []) ∧ sfind t.sec.keys (keyPlace 1 0) = some s.mbRequest.body ∧
      ∀ k, k ≠ keyPlace 1 0 → sfind t.sec.keys k = sfind s.sec.keys k := by
  obtain ⟨t, hsec, hact⟩ := act_permitted (mailed_flashOk hflash port) 0x03 nobody
    (keyArg 1 0 s.mbRequest.body)
  have hkeys : t.sec.keys = s.sec.keys := (congrArg Sec.keys hsec).trans (mailed_keys s port)
  refine ⟨t.setKey (keyPlace 1 0) s.mbRequest.body, next_mailbox h ?_, sfind_sput_self _ _ _, fun k hk => ?_⟩
  · simp only [mailed_unclaimed, hun, hlen, beq_self_eq_true, Bool.and_self, if_true]
    exact hact _
  · exact (sfind_sput_ne _ _ (Ne.symm hk)).trans (congrArg (sfind · k) hkeys)

/-- KEY_SET of a named slot by an installer. -/
theorem exec_keySet {s : State} {port : MbPort} {x : Session} (hflash : s.board.flashOk = true) (h : s.Mails port 0x04)
    (hx : s.sessionBy s.mbRequest.key = some x) (hrole : byInstaller x.role = true) (hslot : slotNamed s.mbRequest.body = true)
    (hpad : fieldAt s.mbRequest.body 2 6 = 0) (hlen : s.mbRequest.body.length = 8 + keyBytes) :
    let k := keyPlace (fieldAt s.mbRequest.body 0 1) (fieldAt s.mbRequest.body 1 1)
    ∃ t, exec (.keySet port) s = .next (State.mbRespond t 0 []) ∧ sfind t.sec.keys k = some (s.mbRequest.body.drop 8) ∧
      ∀ j, j ≠ k → sfind t.sec.keys j = sfind s.sec.keys j := by
  intro k
  obtain ⟨t, hsec, hact⟩ := act_permitted (mailed_flashOk hflash port) 0x04 x.actor
    (keyArg (fieldAt s.mbRequest.body 0 1) (fieldAt s.mbRequest.body 1 1) (s.mbRequest.body.drop 8))
  have hkeys : t.sec.keys = s.sec.keys := (congrArg Sec.keys hsec).trans (mailed_keys s port)
  refine ⟨t.setKey k (s.mbRequest.body.drop 8), next_mailbox h ?_, sfind_sput_self _ _ _, fun j hj => ?_⟩
  · rw [sessionAct_mailed hx hrole]
    simp only [hslot, hpad, hlen, beq_self_eq_true, Bool.and_self, if_true]
    exact hact _
  · exact (sfind_sput_ne _ _ (Ne.symm hj)).trans (congrArg (sfind · j) hkeys)

/-- KEY_CLEAR of a named slot by an installer, which leaves an installer key. -/
theorem exec_keyClear {s : State} {port : MbPort} {x : Session} (hflash : s.board.flashOk = true) (h : s.Mails port 0x05)
    (hx : s.sessionBy s.mbRequest.key = some x) (hrole : byInstaller x.role = true) (hslot : slotNamed s.mbRequest.body = true)
    (hlen : 2 ≤ s.mbRequest.body.length)
    (hlast : (s.mailed port).lastInstaller (keyPlace (fieldAt s.mbRequest.body 0 1) (fieldAt s.mbRequest.body 1 1)) = false) :
    let k := keyPlace (fieldAt s.mbRequest.body 0 1) (fieldAt s.mbRequest.body 1 1)
    ∃ t, exec (.keyClear port) s = .next (State.mbRespond t 0 []) ∧ sfind t.sec.keys k = none ∧
      ∀ j, j ≠ k → sfind t.sec.keys j = sfind s.sec.keys j := by
  intro k
  obtain ⟨t, hsec, hact⟩ := act_permitted (mailed_flashOk hflash port) 0x05 x.actor
    (keyArg (fieldAt s.mbRequest.body 0 1) (fieldAt s.mbRequest.body 1 1) [])
  have hkeys : t.sec.keys = s.sec.keys := (congrArg Sec.keys hsec).trans (mailed_keys s port)
  refine ⟨{ t with sec := { t.sec with keys := sdel t.sec.keys k } }, next_mailbox h ?_, sfind_sdel_self _ _, fun j hj => ?_⟩
  · rw [sessionAct_mailed hx hrole]
    simp only [hslot, hlen, hlast, decide_true, Bool.not_false, Bool.and_self, if_true]
    exact hact _
  · exact (sfind_sdel_ne _ (Ne.symm hj)).trans (congrArg (sfind · j) hkeys)

/-- POLICY_SET of a record in its ranges by an installer. -/
theorem exec_policySet {s : State} {port : MbPort} {x : Session} (hflash : s.board.flashOk = true) (h : s.Mails port 0x06)
    (hx : s.sessionBy s.mbRequest.key = some x) (hrole : byInstaller x.role = true)
    (hok : (s.mailed port).policyOk s.mbRequest.body = true) :
    ∃ t, exec (.policySet port) s = .next (State.mbRespond t 0 []) ∧ t.sec.policy = s.mbRequest.body ∧
      t.sec.keys = s.sec.keys := by
  obtain ⟨t, hsec, hact⟩ := act_permitted (mailed_flashOk hflash port) 0x06 x.actor
    (s.mbRequest.body.take 32)
  refine ⟨{ t with sec := { t.sec with policy := s.mbRequest.body } }, next_mailbox h ?_, rfl,
    (congrArg Sec.keys hsec).trans (mailed_keys s port)⟩
  rw [sessionAct_mailed hx hrole, hok, if_pos rfl]
  exact hact _

/-- UNCLAIM by the maker empties every key slot. -/
theorem exec_unclaim {s : State} {port : MbPort} {x : Session} (hflash : s.board.flashOk = true) (h : s.Mails port 0x0B)
    (hx : s.sessionBy s.mbRequest.key = some x) (hrole : x.role = .maker) :
    ∃ t, exec (.unclaim port) s = .next (State.mbRespond t 0 []) ∧ t.sec.keys = [] := by
  obtain ⟨t, -, hact⟩ := act_permitted (mailed_flashOk hflash port) 0x09 x.actor []
  refine ⟨{ t with sec := { t.sec with
    keys := [], policy := patch factoryPolicy 4 (leBytes 2 (t.get Reg.SEC_BOUNDS_PCAP_MAX)) } }, next_mailbox h ?_, rfl⟩
  rw [sessionAct_mailed hx (by rw [hrole]; rfl)]
  exact hact _

/-! ### Requests that are not audited -/

/-- POLICY_GET answers the stored policy to a session. -/
theorem exec_policyGet {s : State} {port : MbPort} (h : s.Mails port 0x07) : exec (.policyGet port) s =
    .next (if (s.sessionBy s.mbRequest.key).isSome then (s.mailed port).mbRespond 0 s.sec.policy
      else (s.mailed port).mbRespond secRole []) := by
  have hwork : (if ((s.mailed port).sessionBy s.mbRequest.key).isSome then (s.mailed port, 0, (s.mailed port).sec.policy)
      else (s.mailed port, secRole, [])) =
      if (s.sessionBy s.mbRequest.key).isSome then (s.mailed port, 0, s.sec.policy) else (s.mailed port, secRole, []) := by
    rw [mailed_sessionBy, mailed_policy]
  cases hs : (s.sessionBy s.mbRequest.key).isSome with
  | true => exact next_mailbox h (hwork.trans (if_pos hs))
  | false => exact next_mailbox h (hwork.trans (if_neg (by simp [hs])))

/-- AUDIT_READ answers the entries that a session asks for. -/
theorem exec_auditRead {s : State} {port : MbPort} (h : s.Mails port 0x0A)
    (hx : (s.sessionBy s.mbRequest.key).isSome = true) (hpos : 0 < fieldAt s.mbRequest.body 8 4)
    (hmax : fieldAt s.mbRequest.body 8 4 ≤ 120) : exec (.auditRead port) s = .next ((s.mailed port).mbRespond 0
      ((List.range (fieldAt s.mbRequest.body 8 4)).flatMap
        fun i => (s.mailed port).auditAt (fieldAt s.mbRequest.body 0 8 + i))) := by
  refine next_mailbox h (if_neg ?_)
  rw [mailed_sessionBy, ← Option.not_isSome, hx]
  simpa using ⟨Nat.ne_of_gt hpos, hmax⟩

/-- AUDIT_READ answers SEC_ROLE to no session. -/
theorem exec_auditRead_nobody {s : State} {port : MbPort} (h : s.Mails port 0x0A)
    (hx : s.sessionBy s.mbRequest.key = none) : exec (.auditRead port) s = .next ((s.mailed port).mbRespond secRole []) := by
  refine next_mailbox h (if_pos ?_)
  rw [mailed_sessionBy, hx]
  rfl

/-! ### Firmware and debug levels -/

/-- FW_UPDATE of an image that was read takes the code of the image. -/
theorem exec_fwUpdate {s u : State} {port : MbPort} {x : Session} {img : List Byte} (h : s.Mails port 0x08)
    (hx : s.sessionBy s.mbRequest.key = some x) (hrole : x.role ≠ .operator) (hpower : s.powerState ≤ 1)
    (hready : s.pwr.phase = .ready) (hlen : fieldAt s.mbRequest.body 8 8 ≤ 2 ^ 28)
    (hread : (s.mailed port).readMem asHost (fieldAt s.mbRequest.body 0 8) (fieldAt s.mbRequest.body 8 8) = (u, 0, img))
    {v : State} {c : Nat} {b : List Byte}
    (hact : u.act 0x07 x.actor (u.imageCode img) (imageArg img) (quietly fun t => t.setImage img) = (v, c, b)) :
    exec (.fwUpdate port) s = .next (v.mbRespond c b) := by
  refine next_mailbox h ?_
  rw [sessionAct_mailed hx (by simpa using hrole)]
  have hup : ¬(1 < (s.mailed port).powerState || (s.mailed port).pwr.phase != .ready) = true := by
    simpa [mailed_powerState, hready] using hpower
  rw [if_neg hup, if_neg (Nat.not_lt.mpr hlen), hread]
  exact hact

/-- DEBUG_SET of a level that its role may not have answers the code. -/
theorem exec_debugSet_denied {s : State} {port : MbPort} {x : Session} (hflash : s.board.flashOk = true)
    (h : s.Mails port 0x09) (hx : s.sessionBy s.mbRequest.key = some x)
    (hcode : (s.mailed port).debugCode x.role (fieldAt s.mbRequest.body 0 1) ≠ 0) :
    ∃ t, exec (.debugSet port) s =
      .next (State.mbRespond t ((s.mailed port).debugCode x.role (fieldAt s.mbRequest.body 0 1)) []) := by
  obtain ⟨t, hact⟩ := act_refused (mailed_flashOk hflash port) 0x08 x.actor hcode
    [BitVec.ofNat 8 ((s.mailed port).get Reg.SEC_DBG_LEVEL_LEVEL), BitVec.ofNat 8 (fieldAt s.mbRequest.body 0 1)] (quietly id)
  refine ⟨t, next_mailbox h ?_⟩
  rw [sessionAct_mailed hx rfl]
  dsimp only
  rw [if_pos hcode]
  exact hact

/-- DEBUG_SET of a level that its role may have grants it. -/
theorem exec_debugSet_granted {s : State} {port : MbPort} {x : Session} (hflash : s.board.flashOk = true)
    (h : s.Mails port 0x09) (hx : s.sessionBy s.mbRequest.key = some x)
    (hcode : (s.mailed port).debugCode x.role (fieldAt s.mbRequest.body 0 1) = 0) :
    exec (.debugSet port) s = .next (((s.mailed port).grantLevel x (fieldAt s.mbRequest.body 0 1)).1.mbRespond
      ((s.mailed port).grantLevel x (fieldAt s.mbRequest.body 0 1)).2.1
      ((s.mailed port).grantLevel x (fieldAt s.mbRequest.body 0 1)).2.2) := by
  have hup : ¬(!(s.mailed port).board.flashOk) = true := by simp [hflash]
  refine next_mailbox h ?_
  rw [sessionAct_mailed hx rfl]
  dsimp only
  rw [if_neg (not_not.mpr hcode), if_neg hup]

/-- Settles O53: each operation of the mailbox by its own lemma. -/
theorem securityOperations : Obligations.SecurityOperations := by
  refine ⟨fun s port hflash => ⟨exec_claim hflash, fun x hx hrole => ⟨fun h => exec_keySet hflash h hx hrole,
      fun h => exec_keyClear hflash h hx hrole, fun h => exec_policySet hflash h hx hrole⟩, fun x h => exec_unclaim hflash h⟩,
    fun s port => ⟨exec_policyGet, exec_auditRead, exec_auditRead_nobody⟩,
    fun s u port x img hflash hx => ⟨
      fun h hrole hpower hready hlen hread huflash => ⟨fun hcode => ?stored, fun hcode => ?refused⟩,
      fun h => exec_debugSet_denied hflash h hx, fun h => exec_debugSet_granted hflash h hx⟩⟩
  case stored =>
    obtain ⟨t, -, hact⟩ := act_permitted huflash 0x07 x.actor (imageArg img)
    refine ⟨t, exec_fwUpdate (v := t.setImage img) (c := 0) (b := []) h hx hrole hpower hready hlen hread ?_⟩
    rw [hcode]
    exact hact _
  case refused =>
    obtain ⟨t, hact⟩ := act_refused huflash 0x07 x.actor hcode (imageArg img) (quietly fun t => t.setImage img)
    exact ⟨t, exec_fwUpdate h hx hrole hpower hready hlen hread hact⟩

end Sys2Proof.Machine

/-! # Start-up and the host link (17_power_startup_reset.md, 15_host_interface.md, R511 to R515, R574, R575) -/

namespace Sys2Proof.Machine

/-! ### PERST# -/

/-- PERST# resets the host interface of a module that is not off. -/
theorem exec_perst_alive {s : State} (h : s.pwr.phase ≠ .off) :
    exec (.pcieReset .perst) s = .next (s.pcieReset true).progress :=
  if_neg (by simpa [State.alive] using h)

/-- PERST# is only noted by a module that is off. -/
theorem exec_perst_off {s : State} (h : s.pwr.phase = .off) :
    exec (.pcieReset .perst) s = .next { s with pwr := { s.pwr with perst := true } } := by
  show execPcieReset .perst s = _
  unfold execPcieReset
  rw [if_pos (by simp [State.alive, h]), show (PcieResetCause.perst == .perst) = true from rfl, Bool.or_true]

theorem exec_perstRelease_released {s : State} (h : s.pwr.perst = false) : exec .perstRelease s = .next s :=
  if_pos (by simp [h])

/-- Training of the host link begins when PERST# is released. -/
theorem exec_perstRelease_ready {s : State} (hperst : s.pwr.perst = true) (hready : s.pwr.phase = .ready) :
    exec .perstRelease s =
      .next ({ s with pwr := { s.pwr with perst := false, training := decide (s.powerState ≤ 2) } }.beginStep 8) := by
  show execPerstRelease s = _
  unfold execPerstRelease
  rw [if_neg (by simp [hperst])]
  simp only [hready]
  rfl

theorem beginStep_step (s : State) (n : Nat) : (s.beginStep n).get Reg.PWR_STATUS_STEP = n % 16 :=
  get_put_field _ _ _ (Nat.two_pow_pos 64) (by decide)

theorem beginStep_wordsKept (s : State) (n : Nat) : s.WordsKept (s.beginStep n) [Reg.PWR_STATUS_STEP.off] :=
  State.put_wordsKept (t := { s with pwr := { s.pwr with began := s.now } }) _ _ (by simp) fun _ _ _ => rfl

/-! ### The link rises -/

/-- The module with the speed and the width of its host link shown. -/
def State.linkShown (s : State) (speed w : Nat) : State :=
  (((s.put Reg.HIF_LINK_SPEED speed).put Reg.HIF_LINK_WIDTH w).put Reg.HIF_LINK_FLIT
    (if 6 ≤ speed then 1 else 0)).put Reg.HIF_LINK_DEGRADED (if w < 8 then 1 else 0)

/-- The module once its host link has come up. -/
def State.linked (s : State) (speed w : Nat) : State :=
  { s.linkShown speed w with pwr := { (s.linkShown speed w).pwr with training := false } }.put Reg.HIF_LINK_UP 1

theorem exec_pcieLinkUp_ready {s : State} {v : Fin 8} {w : BitVec 5} (hmay : s.linkMayRise = true) (hv : v.val ≠ 0)
    (hw : w.toNat ∈ [1, 2, 4, 8, 16]) (hready : s.pwr.phase = .ready) :
    exec (.pcieLinkUp v w) s = .next (s.linked v.val w.toNat) := by
  have hpass : ¬(!s.linkMayRise || decide (v.val = 0) || !([1, 2, 4, 8, 16] : List Nat).contains w.toNat) = true := by
    simp only [hmay, hv, List.contains_iff_mem.mpr hw, Bool.not_true, decide_false, Bool.or_self, Bool.false_eq_true,
      not_false_eq_true]
  have hphase : ¬((s.linked v.val w.toNat).pwr.phase == .starting) = true := by
    have h : (s.linked v.val w.toNat).pwr.phase = s.pwr.phase := rfl
    simp [h, hready]
  exact (if_neg hpass).trans (congrArg Host.Outcome.next (if_neg hphase))

theorem exec_pcieLinkUp_held {s : State} (hmay : s.linkMayRise = false) (v : Fin 8) (w : BitVec 5) :
    exec (.pcieLinkUp v w) s = .next s :=
  if_pos (by simp [hmay])

theorem linkShown_get (s : State) (speed w : Nat) :
    (s.linkShown speed w).get Reg.HIF_LINK_SPEED = speed % 16 ∧ (s.linkShown speed w).get Reg.HIF_LINK_WIDTH = w % 32 ∧
    (s.linkShown speed w).get Reg.HIF_LINK_DEGRADED = (if w < 8 then 1 else 0) % 2 ∧
    (s.linkShown speed w).get Reg.HIF_LINK_FLIT = (if 6 ≤ speed then 1 else 0) % 2 := by
  refine ⟨?_, ?_, ?_, ?_⟩ <;>
    simp [State.linkShown, get_put_field, get_put_under, Reg.HIF_LINK_SPEED, Reg.HIF_LINK_WIDTH, Reg.HIF_LINK_FLIT,
      Reg.HIF_LINK_DEGRADED]

/-- The fields of HIF_LINK under UP stay as they were shown. -/
theorem linked_get_under (s : State) (speed w : Nat) {f : Fld} (ho : f.off = Reg.HIF_LINK_UP.off) (hr : f.rst = 0)
    (h : f.lo + f.w ≤ 11) : (s.linked speed w).get f = (s.linkShown speed w).get f :=
  get_put_under { s.linkShown speed w with pwr := (s.linked speed w).pwr } (f := Reg.HIF_LINK_UP) 1 (Nat.two_pow_pos 64)
    (by decide) ho.symm hr.symm h

theorem linked_get_up (s : State) (speed w : Nat) : (s.linked speed w).get Reg.HIF_LINK_UP = 1 :=
  get_put_field { s.linkShown speed w with pwr := (s.linked speed w).pwr } Reg.HIF_LINK_UP 1 (Nat.two_pow_pos 64) (by decide)

theorem linked_wordsKept (s : State) (speed w : Nat) : s.WordsKept (s.linked speed w) [Reg.HIF_LINK_UP.off] := by
  have hin (f : Fld) (h : f.off = Reg.HIF_LINK_UP.off) : f.off ∈ [Reg.HIF_LINK_UP.off] := by simp [h]
  have hshown : s.WordsKept (s.linkShown speed w) [Reg.HIF_LINK_UP.off] :=
    State.put_wordsKept _ _ (hin _ rfl) (State.put_wordsKept _ _ (hin _ rfl) (State.put_wordsKept _ _ (hin _ rfl)
      (State.put_wordsKept _ _ (hin _ rfl) .rfl)))
  exact State.put_wordsKept (t := { s.linkShown speed w with pwr := (s.linked speed w).pwr }) _ _ (hin _ rfl) hshown

/-- A link of a speed and a width that exist shows them. -/
theorem linked_shows (s : State) {speed w : Nat} (hspeed : speed < 16) (hw : w < 32) :
    (s.linked speed w).isSet Reg.HIF_LINK_UP = true ∧ (s.linked speed w).get Reg.HIF_LINK_SPEED = speed ∧
    (s.linked speed w).get Reg.HIF_LINK_WIDTH = w ∧ ((s.linked speed w).isSet Reg.HIF_LINK_DEGRADED = true ↔ w < 8) ∧
    ((s.linked speed w).isSet Reg.HIF_LINK_FLIT = true ↔ 6 ≤ speed) := by
  obtain ⟨hs, hwidth, hdeg, hflit⟩ := linkShown_get s speed w
  refine ⟨isSet_of_get_one (linked_get_up s speed w), ?_, ?_, ?_, ?_⟩
  · rw [linked_get_under (f := Reg.HIF_LINK_SPEED) _ _ _ rfl rfl (by decide), hs, Nat.mod_eq_of_lt hspeed]
  · rw [linked_get_under (f := Reg.HIF_LINK_WIDTH) _ _ _ rfl rfl (by decide), hwidth, Nat.mod_eq_of_lt hw]
  · unfold State.isSet
    rw [linked_get_under (f := Reg.HIF_LINK_DEGRADED) _ _ _ rfl rfl (by decide), hdeg]
    by_cases h : w < 8 <;> simp [h]
  · unfold State.isSet
    rw [linked_get_under (f := Reg.HIF_LINK_FLIT) _ _ _ rfl rfl (by decide), hflit]
    by_cases h : 6 ≤ speed <;> simp [h]

/-! ### Start-up steps that do not end -/

theorem exec_startupStepTimeout_stuck {s : State} (h : s.pwr.phase = .stuck) : exec .startupStepTimeout s =
    if s.get Reg.PWR_STATUS_STEP = 2 then .next (s.halt pwrTinder 2)
    else if s.pwr.began + 37500 ≤ s.now then .next (s.halt pwrRail 4) else .next s :=
  if_pos (by simp [h])

theorem elog_pwr (s : State) (origin step : Nat) (record : List Byte) : (s.elog origin step record).pwr = s.pwr := by
  unfold State.elog
  split <;> rfl

theorem startFail_phase (s : State) (code step unit : Nat) : (s.startFail code step unit).pwr.phase = s.pwr.phase := by
  have herr : RegsOnly s (s.pwrErr code step) := State.firstErr_regsOnly _ _ _ _ .rfl
  have hpwr : (s.pwrErr code step).pwr = s.pwr := by rw [herr]
  unfold State.startFail State.logFailure
  rw [elog_pwr, hpwr]

/-- A module that is ready gives up a host link that does not train in time. -/
theorem exec_startupStepTimeout_ready {s : State} (h : s.pwr.phase = .ready) : exec .startupStepTimeout s =
    if s.pwr.training && decide (s.pwr.began + 12500000 ≤ s.now) then
      .next ({ s with pwr := { s.pwr with training := false } }.startFail pwrPcie 8 0)
    else .next s := by
  have hphase : ¬(({ s with pwr := { s.pwr with training := false } }.startFail pwrPcie 8 0).pwr.phase == .starting) = true := by
    simp [startFail_phase, h]
  show execStartupStepTimeout s = _
  unfold execStartupStepTimeout
  rw [if_neg (by simp [h])]
  simp only [if_neg hphase]

/-- A halt shows HALTED. -/
theorem halt_halted (s : State) (code step : Nat) :
    (s.halt code step).isSet Reg.PWR_STATUS_HALTED = true ∧ (s.halt code step).pwr.phase = .halted := by
  have hput : (((s.startFail code step 0).put Reg.PWR_STATUS_HALTED 1).put Reg.PWR_STATUS_PENDING 0).get
      Reg.PWR_STATUS_HALTED = 1 :=
    (get_put_under (f := Reg.PWR_STATUS_PENDING) (g := Reg.PWR_STATUS_HALTED) _ _ (Nat.two_pow_pos 64) (by decide) rfl rfl
      (by decide)).trans
      (get_put_field _ Reg.PWR_STATUS_HALTED 1 (Nat.two_pow_pos 64) (by decide))
  exact ⟨isSet_of_get_one ((get_of_regs (s := ((s.startFail code step 0).put Reg.PWR_STATUS_HALTED 1).put
    Reg.PWR_STATUS_PENDING 0) rfl _).trans hput), rfl⟩

/-- Settles O56: each clause by the lemma on its command. -/
theorem startUpAndHostLink : Obligations.StartUpAndHostLink := by
  refine ⟨fun s => ⟨exec_perst_alive, exec_perst_off, exec_perstRelease_released, fun hperst hready hp => ?release,
      fun v w hmay hv hw hready => ?rises, fun v w hmay => exec_pcieLinkUp_held hmay v w⟩,
    fun s => ⟨fun h h2 => ?tinder, fun h h2 => ?rail, fun h ht hlate => ?givenUp, fun h ht => ?quiet, halt_halted s⟩⟩
  case release =>
    refine ⟨_, exec_perstRelease_ready hperst hready, rfl, ?_, beginStep_step _ 8, ?_, beginStep_wordsKept _ 8⟩
    · exact decide_eq_true hp
    · exact State.put_mem _ _ _
  case rises =>
    obtain ⟨hup, hspeed, hwidth, hdeg, hflit⟩ := linked_shows s (Nat.lt_of_lt_of_le v.isLt (by decide)) w.isLt
    exact ⟨_, exec_pcieLinkUp_ready hmay hv hw hready, hup, hspeed, hwidth, hdeg, hflit, rfl, linked_wordsKept _ _ _⟩
  case tinder => rw [exec_startupStepTimeout_stuck h, if_pos h2]
  case rail =>
    rw [exec_startupStepTimeout_stuck h, if_neg h2]
    exact (apply_ite _ _ _ _).symm
  case givenUp => rw [exec_startupStepTimeout_ready h, if_pos (by simp [ht, hlate])]
  case quiet => rw [exec_startupStepTimeout_ready h, if_neg (by simp [ht])]

end Sys2Proof.Machine

/-! # Quarantine, gating and waking of kilns (17_power_startup_reset.md, 07_sparsity_routing.md, R38, R278, R279, R582) -/

namespace Sys2Proof.Machine

/-! ### Quarantine -/

/-- The quarantine of one kiln marks it and faults the open step. -/
theorem quarantine_one (s : State) (k cause : Nat) : s.quarantine [k] cause = ((s.mark k cause).faultStep [k]).progress := rfl

/-- Outside COMMIT a fault is a veto. -/
theorem faultStep_veto {s : State} (h : s.stepState ≠ 4) (ks : List Nat) : s.faultStep ks = s.veto vFAULT := by
  unfold State.faultStep
  exact if_neg (by simp [h])

/-! ### Gating -/

theorem kiln_of_kilns {s t : State} (h : t.kilns = s.kilns) (j : Nat) : t.kiln j = s.kiln j := by
  unfold State.kiln
  rw [h]

theorem kiln_put (s : State) (f : Fld) (v j : Nat) : (s.put f v).kiln j = s.kiln j := kiln_of_kilns (State.put_kilns s f v) j

/-- The module once kiln k is gated and counted. -/
def State.gatedKiln (s : State) (k : Nat) : State :=
  (s.setKiln k { s.kiln k with gated := true }).bump (Reg.KLN_GATE_CNT_COUNT k) 1

theorem exec_kilnGating (k : Fin 32) (s : State) :
    exec (.kilnGating k) s = if s.mayGate k then .next (s.gatedKiln k).settleIdle else .next s := rfl

theorem gatedKiln_kiln (s : State) (k : Nat) : (s.gatedKiln k).kiln k = { s.kiln k with gated := true } := by
  unfold State.gatedKiln State.bump
  rw [kiln_put, State.kiln_setKiln]

theorem gatedKiln_kiln_ne (s : State) {k j : Nat} (h : j ≠ k) : (s.gatedKiln k).kiln j = s.kiln j := by
  unfold State.gatedKiln State.bump
  rw [kiln_put, State.kiln_setKiln_ne _ _ (Ne.symm h)]

theorem gatedKiln_count (s : State) (k : Nat) : (s.gatedKiln k).get (Reg.KLN_GATE_CNT_COUNT k) =
    (s.get (Reg.KLN_GATE_CNT_COUNT k) + 1) % 2 ^ (Reg.KLN_GATE_CNT_COUNT k).w :=
  get_put_field _ _ _ (Nat.two_pow_pos 64) (by decide : 0 + 64 ≤ 64)

theorem gatedKiln_mem (s : State) (k : Nat) : (s.gatedKiln k).mem = s.mem :=
  State.put_mem (s.setKiln k { s.kiln k with gated := true }) _ _

theorem gatedKiln_wordsKept (s : State) (k : Nat) : s.WordsKept (s.gatedKiln k) [(Reg.KLN_GATE_CNT_COUNT k).off] :=
  State.put_wordsKept _ _ List.mem_cons_self fun _ _ _ => rfl

/-! ### Waking -/

/-- The module once kiln k is awake, before the operations held for it go on. -/
def State.awake (s : State) (k : Nat) : State :=
  let u := s.setKiln k { s.kiln k with gated := false, wakeAt := none, idle := 0, heldOps := [] }
  if u.get Reg.PWR_STATUS_PSTATE = 1 then u.put Reg.PWR_STATUS_PSTATE 0 else u

theorem exec_kilnWake_none {k : Fin 32} {s : State} (h : (s.kiln k).wakeAt = none) : exec (.kilnWake k) s = .next s := by
  show execKilnWake k s = _
  unfold execKilnWake
  rw [h]

theorem exec_kilnWake_early {k : Fin 32} {s : State} {t : Nat} (h : (s.kiln k).wakeAt = some t) (ht : s.now < t) :
    exec (.kilnWake k) s = .next s := by
  show execKilnWake k s = _
  unfold execKilnWake
  rw [h]
  exact if_pos ht

theorem exec_kilnWake_due {k : Fin 32} {s : State} {t : Nat} (h : (s.kiln k).wakeAt = some t) (ht : t ≤ s.now) :
    exec (.kilnWake k) s = .next ((s.awake k).releaseHeld (s.kiln k).heldOps).progress := by
  show execKilnWake k s = _
  unfold execKilnWake
  rw [h]
  exact if_neg (Nat.not_lt.mpr ht)

/-- Waking changes of the kilns the one that wakes, and no memory. -/
theorem awake_kilns (s : State) (k : Nat) : (s.awake k).kilns =
      (s.setKiln k { s.kiln k with gated := false, wakeAt := none, idle := 0, heldOps := [] }).kilns ∧
    (s.awake k).mem = s.mem := by
  unfold State.awake
  dsimp only
  split
  · exact ⟨State.put_kilns _ _ _, State.put_mem _ _ _⟩
  · exact ⟨rfl, rfl⟩

theorem awake_kiln (s : State) (k j : Nat) : (s.awake k).kiln j =
    (s.setKiln k { s.kiln k with gated := false, wakeAt := none, idle := 0, heldOps := [] }).kiln j :=
  kiln_of_kilns (awake_kilns s k).1 j

/-- Settles O58: quarantine is marks and a fault, and gating and waking change one kiln. -/
theorem kilnsQuarantineAndGate : Obligations.KilnsQuarantineAndGate := by
  refine ⟨fun k s => ⟨congrArg Host.Outcome.next (quarantine_one s k 3),
      congrArg Host.Outcome.next (quarantine_one (s.pwrErr pwrWdog 0) k 2), fun site => rfl, fun ks h => faultStep_veto h ks⟩,
    fun k s => ⟨fun h => ?stays, fun h => ?gates, exec_kilnWake_none, fun t => exec_kilnWake_early, fun t h ht => ?wakes⟩⟩
  case stays => rw [exec_kilnGating, if_neg (by simp [h])]
  case gates =>
    refine ⟨s.gatedKiln k, by rw [exec_kilnGating, if_pos h], congrArg Kiln.gated (gatedKiln_kiln s k), gatedKiln_count s k,
      fun j hj => gatedKiln_kiln_ne s hj, gatedKiln_mem s k, gatedKiln_wordsKept s k⟩
  case wakes =>
    have hkiln := (awake_kiln s k k).trans (State.kiln_setKiln _ _ _)
    exact ⟨s.awake k, exec_kilnWake_due h ht, congrArg Kiln.gated hkiln, congrArg Kiln.wakeAt hkiln, congrArg Kiln.heldOps hkiln,
      (awake_kilns s k).2, fun j hj => (awake_kiln s k j).trans (State.kiln_setKiln_ne _ _ (Ne.symm hj))⟩

end Sys2Proof.Machine
